-- ==== Sys2Proof/Word.lean ====
section
/-! DEFINITION. The bus word and the byte (00_scope.md, Conventions: a word is 4 bytes). -/

namespace Sys2Proof

/-- A 32-bit bus word. -/
abbrev Word := BitVec 32

/-- A byte. -/
abbrev Byte := BitVec 8

/-- The byte enables of a bus cycle: bit k enables byte k of the word. -/
abbrev Enables := BitVec 4

end Sys2Proof
end

