-- ==== Sys2Proof/Config.lean ====
section
/-! DEFINITION. The free values: what the spec leaves open while the part goes on. None has a body, so
nothing can be proved of a value of one; each is named in the assumption log. Most are applied to the
counter `Chip.free`, so that two uses need not agree. -/

namespace Sys2Proof.Config

/-- What memory holds at a word whose host write was ended at the memory response limit: "What memory
holds at the written word is then unknown" (R160; log 12). -/
opaque abortedWord : Nat → BitVec 32

/-- How many of the 513 store writes of a save had been made when a reset stopped it (R176; log 13). -/
opaque saveWritesMade : Nat → Nat

/-- The size of the arm correction of one reel's torque; its form is not published (R25; log 14). -/
opaque armCorrection : Nat → Nat → Nat → Nat

/-- The size of the bias by which the packs follow the reference speed (R25; log 14). -/
opaque packBias : Nat → Int → Int → Nat

/-- Whether a tension reference between two whole cN (numerator, denominator) is shown as the upper one
(R24 and 12.6 give no rounding; log 15). -/
opaque tensionRoundsUp : Nat → Nat → Bool

/-- Whether the loss of the position reaches a current LOCATE before a TAPE_BREAK trip does: R148 lets
either be taken first (log 19). -/
opaque lossBeforeTrip : Nat → Bool

end Sys2Proof.Config
end

