-- ==== Sys2Proof/Syntax.lean ====
section
/-! DEFINITION. The commands of the part: one constructor of `Instr` for each row of spec/opcode_table.json.
The rows give no operands; the operands here are the model's (log 1). -/

namespace Sys2Proof

/-- The two reels (00_scope.md, Signals). -/
inductive Reel where
  | supply | takeup
deriving DecidableEq, Repr

/-- The direction of one count of the timer roller (R1). -/
inductive Dir where
  | forward | reverse
deriving DecidableEq, Repr

/-- The two plan rings (R91). -/
inductive RingId where
  | urgent | main
deriving DecidableEq, Repr

/-- The fault and power-fail inputs (R28, R34). -/
inductive FaultPin where
  | powerFail | fltSupply | fltTup | fltCap
deriving DecidableEq, Repr

/-- The blocks that wait at the master queue with single writes of their own (R156, R164, R109). -/
inductive Poster where
  | eventWriter | mailbox | settings | grant | startUp | sweep
deriving DecidableEq, Repr

/-- What a read of the non-volatile store gets wrong: bytes 0..511 and what they are read as; empty for a read that
answers the store's content (log 32). -/
abbrev ReadErrors := List (BitVec 9 × Byte)

/-- What the end of a reset finds: the level of the strap pins (R151), and what the coming reads of the non-volatile store
get wrong, one entry for each read, in order; a read past them gets nothing wrong (log 32). -/
structure Release where
  winsel : BitVec 4
  coming : List ReadErrors
deriving DecidableEq, Repr

/-- The levels of the part's inputs. `true` is: tape seen, leader seen, input asserted. -/
structure Pins where
  path : Bool
  leader : Bool
  powerFail : Bool
  fltSupply : Bool
  fltTup : Bool
  fltCap : Bool
deriving DecidableEq, Repr

/-- A command of the part. Each constructor is the row of the table whose name it carries. -/
inductive Instr where
  /-- POWER_ON (R72): power is applied, with the input levels found then. -/
  | powerOn (pins : Pins)
  /-- RESET_N_ASSERTED (R68). -/
  | resetNAsserted
  /-- RESET_N_RELEASED (R162): a reset ends, with the strap as it is sampled and the store as its reads will find it. -/
  | resetNReleased (found : Release)
  /-- SETTINGS_LOAD (R178): a start-up read of the store completes. -/
  | settingsLoad
  /-- SUPERVISOR_START (R51). -/
  | supervisorStart
  /-- CARRY_EXPIRY (R71). -/
  | carryExpiry
  /-- RECOVERY_SWEEP_READ (R109): a sweep read completes. -/
  | recoverySweepRead
  /-- STARTUP_END (R165). -/
  | startupEnd
  /-- ROLLER_COUNT (R1). -/
  | rollerCount (dir : Dir)
  /-- TACH_PULSE (R8). -/
  | tachPulse (reel : Reel)
  /-- CAPSTAN_PULSE (R62). -/
  | capstanPulse
  /-- SPEED_WINDOW_TICK (R5): a millisecond of the always-on domain. -/
  | speedWindowTick
  /-- PATH_SENSOR_PRESENT (R11). -/
  | pathSensorPresent
  /-- PATH_DEBOUNCE_EXPIRY (R11). -/
  | pathDebounceExpiry
  /-- PATH_ABSENT (R12). -/
  | pathAbsent
  /-- END_SENSOR_LEADER (R13): the end sensor changes; `leader` is what it now sees, leader or oxide (log 7). -/
  | endSensorLeader (leader : Bool)
  /-- ARM_SAMPLE (R23): one arm is sampled. -/
  | armSample (reel : Reel) (reading : BitVec 12)
  /-- POWER_FAIL (R28). -/
  | powerFail
  /-- DRIVE_FAULT (R28): FLT_SUPPLY or FLT_TUP. -/
  | driveFault (reel : Reel)
  /-- FLT_CAP (R65). -/
  | fltCap
  /-- FAULT_INPUT_RELEASED (R28). -/
  | faultInputReleased (pin : FaultPin)
  /-- BREAK_TIMER_EXPIRY (R26). -/
  | breakTimerExpiry
  /-- EXCURSION_TIMER_EXPIRY (R36). -/
  | excursionTimerExpiry
  /-- SETTLE_TIMER_EXPIRY (R40). -/
  | settleTimerExpiry
  /-- SLACK_REFERENCE_ZERO (R43). -/
  | slackReferenceZero
  /-- OFF_DELAY_EXPIRY (R43). -/
  | offDelayExpiry
  /-- PINCH_MOVEMENT_END (R63). -/
  | pinchMovementEnd
  /-- REFERENCE_SPEED_UPDATE (R119): a millisecond of the transport clock. -/
  | referenceSpeedUpdate
  /-- DURATION_TIMER_EXPIRY (R121). -/
  | durationTimerExpiry
  /-- STARVE_TIMER_EXPIRY (R134). -/
  | starveTimerExpiry
  /-- HAND_OFF (R95): a host write to word 0 of a slot with the owner byte enabled and OWN=PART. -/
  | handOff (ring : RingId) (slot : BitVec 6) (data : Word) (be : Enables)
  /-- HAND_OFF_SCREEN (R96). -/
  | handOffScreen
  /-- RECALL (R102): a host write to word 0 of a slot with the owner byte enabled and OWN=HOST. -/
  | recall (ring : RingId) (slot : BitVec 6) (data : Word) (be : Enables)
  /-- SLOT_OWNED_WRITE (R103): any host write to a word of a slot. -/
  | slotOwnedWrite (ring : RingId) (slot : BitVec 6) (word : BitVec 3) (data : Word) (be : Enables)
  /-- SLOT_WRITE_LIST_PASS (R105). -/
  | slotWriteListPass
  /-- CUE_WRITE_LIST_PASS (R138). -/
  | cueWriteListPass
  /-- CUE_IMAGE_WRITE (R139): a host write to word `word` of the cue image. -/
  | cueImageWrite (word : BitVec 7) (data : Word) (be : Enables)
  /-- SETTINGS_IMAGE_WRITE (R173): a host write to word `word` of the settings image. -/
  | settingsImageWrite (word : BitVec 7) (data : Word) (be : Enables)
  /-- TRIM_WRITE (R89). -/
  | trimWrite (data : Word) (be : Enables)
  /-- HEARTBEAT (R184). -/
  | heartbeat (data : Word) (be : Enables)
  /-- SILENCE_TIMER_EXPIRY (R185). -/
  | silenceTimerExpiry
  /-- NOTICE_MASK_WRITE (R183). -/
  | noticeMaskWrite (data : Word) (be : Enables)
  /-- NOTICE_CLEAR_WRITE (R183). -/
  | noticeClearWrite (data : Word) (be : Enables)
  /-- EVENT_CONSUMED_WRITE (R181). -/
  | eventConsumedWrite (data : Word) (be : Enables)
  /-- EVENT_APPEND (R180). -/
  | eventAppend
  /-- LIVE_WINDOW_READ (R153): a host read of word `word` of the live window. -/
  | liveWindowRead (word : BitVec 6)
  /-- GROUP_HEAD_READ (R154). -/
  | groupHeadRead
  /-- HOST_CYCLE (R152): any other host cycle. -/
  | hostCycle (addr : BitVec 24) (write : Bool) (data : Word) (be : Enables)
  /-- HELD_CYCLE_RELEASE (R157). -/
  | heldCycleRelease
  /-- WRITE_JOINS_QUEUE (R156): the block whose first waiting write joins. -/
  | writeJoinsQueue (poster : Poster)
  /-- MEMORY_CYCLE_DONE (R158). -/
  | memoryCycleDone
  /-- MEMORY_RESPONSE_LIMIT (R161). -/
  | memoryResponseLimit
  /-- TENSION_UP (R38). -/
  | tensionUp
  /-- SLACK_DOWN (R42). -/
  | slackDown
  /-- REQUEST_GRANT (R78). -/
  | requestGrant
  /-- DROP_GRANT (R83). -/
  | dropGrant
  /-- SET_CUE (R140). -/
  | setCue
  /-- CLEAR_CUE (R141). -/
  | clearCue
  /-- SET_POSITION (R4). -/
  | setPosition
  /-- CLEAR_FAULT (R37). -/
  | clearFault
  /-- OPEN_SETTINGS (R172). -/
  | openSettings
  /-- CLOSE_SETTINGS (R172). -/
  | closeSettings
  /-- SAVE_SETTINGS (R175). -/
  | saveSettings
  /-- SAVE_COMPLETE (R175). -/
  | saveComplete
  /-- RELOAD_SETTINGS (R177). -/
  | reloadSettings
  /-- RELOAD_STORE_READ (R177): a reload's read of the store completes. -/
  | reloadStoreRead
  /-- MAILBOX_REPLY (R171). -/
  | mailboxReply
deriving DecidableEq, Repr

end Sys2Proof
end

