-- ==== Sys2Proof/WellFormed.lean ====
section
/-! DEFINITION. What a command's operands must satisfy for the command to be the row it is named after. The
conditions that depend on the state (the slot's view, the mode of the part) are not here: the meaning
classifies every host cycle by the state it finds. -/

namespace Sys2Proof

/-- A ring's number of slots: 8 urgent, 64 main (R91). -/
def RingId.size : RingId → Nat
  | .urgent => 8
  | .main => 64

/-- The checks on a command's operands: a slot number within its ring (R91); a HAND_OFF with the owner byte
enabled and OWN=PART, a RECALL with it enabled and OWN=HOST (R94, 12.1); a LIVE_WINDOW_READ of a word other
than the group head, which has a row of its own (R154). -/
def Instr.wf : Instr → Bool
  | .handOff r slot data be => slot.toNat < r.size && be.getLsbD 0 && data.getLsbD 7
  | .recall r slot data be => slot.toNat < r.size && be.getLsbD 0 && !data.getLsbD 7
  | .slotOwnedWrite r slot _ _ _ => slot.toNat < r.size
  | .liveWindowRead word => word != 4
  | .powerOn _ | .resetNAsserted | .resetNReleased _ | .settingsLoad | .supervisorStart | .carryExpiry
  | .recoverySweepRead | .startupEnd | .rollerCount _ | .tachPulse _ | .capstanPulse | .speedWindowTick
  | .pathSensorPresent | .pathDebounceExpiry | .pathAbsent | .endSensorLeader _ | .armSample _ _ | .powerFail
  | .driveFault _ | .fltCap | .faultInputReleased _ | .breakTimerExpiry | .excursionTimerExpiry
  | .settleTimerExpiry | .slackReferenceZero | .offDelayExpiry | .pinchMovementEnd | .referenceSpeedUpdate
  | .durationTimerExpiry | .starveTimerExpiry | .handOffScreen | .slotWriteListPass | .cueWriteListPass
  | .cueImageWrite _ _ _ | .settingsImageWrite _ _ _ | .trimWrite _ _ | .heartbeat _ _ | .silenceTimerExpiry
  | .noticeMaskWrite _ _ | .noticeClearWrite _ _ | .eventConsumedWrite _ _ | .eventAppend | .groupHeadRead
  | .hostCycle _ _ _ _ | .heldCycleRelease | .writeJoinsQueue _ | .memoryCycleDone | .memoryResponseLimit
  | .tensionUp | .slackDown | .requestGrant | .dropGrant | .setCue | .clearCue | .setPosition | .clearFault
  | .openSettings | .closeSettings | .saveSettings | .saveComplete | .reloadSettings | .reloadStoreRead
  | .mailboxReply => true

end Sys2Proof
end

