-- ==== Sys2Proof/Decode.lean ====
section
/-! DEFINITION. The command a word spells by the table's bits. No row of spec/opcode_table.json gives bits (every row's
`fields` is empty): the part has no instruction words, so no word spells a command. -/

namespace Sys2Proof

/-- The command that `w`, of `nbits` bits, spells: none, since no row of the table gives bits. -/
def decodeTableWord (_nbits _w : Nat) : Option Instr := none

end Sys2Proof
end

