-- ==== Sys2Proof/Machine/State.lean ====
section
/-! DEFINITION. The state of the part, block by block, as plain data, and the state after the power-on reset.
INVENTORY.md lists each field with its rule and its reset value. -/

namespace Sys2Proof.Machine

/-! ## Names of values -/

/-- The transport states (R17, 12.8). -/
inductive TState where
  | unthreaded | threaded | tensioning | held | moving | stopping | slacking | tripped | catching
deriving DecidableEq, Repr

/-- The arm classes (R23). -/
inductive ArmClass where
  | none | slack | low | inBand | high | overLevel
deriving DecidableEq, Repr

/-- Trip causes (R35). -/
inductive TripCause where
  | none | armOver | tapeBreak | pathLost | powerLoss | driveFault | catchFailed
deriving DecidableEq, Repr

/-- Trip sides (R35). -/
inductive Side where
  | none | supply | takeup | both
deriving DecidableEq, Repr

/-- Controlled-stop causes (R31, R35). -/
inductive StopCause where
  | none | tapeEnd | endOfRun | excursion | starved | pinchFault | capstanFault | hostSilence
deriving DecidableEq, Repr

/-- The path state (R11). -/
inductive PathState where
  | absent | pending | present
deriving DecidableEq, Repr

/-- The end flag (R13). -/
inductive EndFlag where
  | none | forwardEnd | reverseEnd
deriving DecidableEq, Repr

/-- Reel drive modes (ch. 4). -/
inductive DriveMode where
  | off | torque | dynamic
deriving DecidableEq, Repr

/-- Pinch roller states (R63). -/
inductive Pinch where
  | out | goingIn | pinched | goingOut
deriving DecidableEq, Repr

/-- Lifter positions (R67). -/
inductive Lifters where
  | up | down
deriving DecidableEq, Repr

/-- Carry status (R68). -/
inductive CarryStatus where
  | none | held | expired
deriving DecidableEq, Repr

/-- Slot views of the plan intake (R92). -/
inductive View where
  | host | queued | current
deriving DecidableEq, Repr

/-- The statuses a slot is returned with (R135, 12.8). -/
inductive Status where
  | done | clipped | superseded | flushed | faultFlushed | tapeEnd | missed | noCue | abandoned | recalled
deriving DecidableEq, Repr

/-- The refusals of a hand-off (R96). -/
inductive RefCode where
  | order | notReady | latched | kind | field | noGrant | overGrant | noPosition | noCue | memory
deriving DecidableEq, Repr

/-- Segment kinds (R91, 12.8). -/
inductive Kind where
  | spool | locate | play | dwell | stop | wind
deriving DecidableEq, Repr

/-- Play codes (R97, 12.8). -/
inductive PlayCode where
  | low | mid | high | vari
deriving DecidableEq, Repr

/-- Segment phases (12.8). -/
inductive Phase where
  | release | run | leadIn | pinchIn | capstan | pinchOut | settle | hold | ramp | runout
  | approach | creep | brake
deriving DecidableEq, Repr

/-- Engine states (R111). -/
inductive EngState where
  | idle | running | starved | halting
deriving DecidableEq, Repr

/-- Mailbox states (R167). -/
inductive MbState where
  | idle | fetch | run | reply
deriving DecidableEq, Repr

/-- Host-silence monitor states (R184). -/
inductive MonState where
  | disarmed | armed | silent
deriving DecidableEq, Repr

/-- How the pass-through path takes cycles: bypass (R162), start-up (R163), or as R152 gives. -/
inductive Mode where
  | bypass | startup | running
deriving DecidableEq, Repr

/-- Start causes (R165). -/
inductive StartCause where
  | powerOn | resetPin
deriving DecidableEq, Repr

/-- Reply results (R171, 12.8). -/
inductive Result where
  | done | refused | unknown | badLength | badCheck | locked | busy | deferred | granted
deriving DecidableEq, Repr

/-- The outcome of the checks on one grant choice (R78). -/
inductive ChoiceOutcome where
  | passed | invalid | mismatch | exceeds
deriving DecidableEq, Repr

/-- Notice kinds (R183, 12.8). -/
inductive Notice where
  | segmentReported | segmentRefused | ringStarved | stateChanged | tripped | stopLatched | grantChanged
  | mailboxDone | writeDropped | eventsWaiting | eventOverrun | tapePath | tapeEnd | trimClamped
  | hostSilence | memoryFault
deriving DecidableEq, Repr

/-- Event kinds (11.1, 12.8). -/
inductive EventKind where
  | reset | overrun | positionLost | tapePath | endFlag | stateChanged | trip | stop | faultInput
  | armExcursion | settleTimeout | catchClaimed | grantResolved | grantDerated | grantDropped | trimClamped
  | segmentRefused | writeDropped | segmentReported | ringStarved | locateRetry | cueSet | cueCleared
  | memoryFault | settingsDefaulted | hostSilence | heartbeatResumed
deriving DecidableEq, Repr

/-! ## Records -/

/-- A posted event (R179, R180): what its record will carry. -/
structure Event where
  kind : EventKind
  detail : Nat
  tag : Nat
  time : Word
  position : Int
  value : Int
deriving DecidableEq, Repr

/-- A post held through start-up (R57, R165). -/
inductive Post where
  | event (e : Event)
  | notice (k : Notice)
deriving DecidableEq, Repr

/-- A pending part write (R156): window offset of the word, data, byte enables. -/
structure PartWrite where
  offset : Nat
  data : Word
  be : Enables
deriving DecidableEq, Repr

/-- A revolution measure in progress (R8). -/
structure RevMeasure where
  pulses : Nat
  rolls : Nat
  first : Option Dir
deriving DecidableEq, Repr

/-- What the tracker holds for one reel (R6, R8, R9, R15). -/
structure ReelMeasure where
  /-- Pulses in each of the last 100 ms, newest first (R6, log 5). -/
  pulses : List Nat
  rev : Option RevMeasure
  /-- Radius estimate, 0 while unknown (R9, R10). -/
  radius : Nat
  arm : BitVec 12
deriving DecidableEq, Repr

/-- The position tracker (ch. 1). -/
structure Tracker where
  position : Int
  valid : Bool
  /-- Net roller counts in each of the last 40 ms, newest first (R5, log 5). -/
  rollWin : List Int
  lastDir : Option Dir
  sup : ReelMeasure
  tup : ReelMeasure
  path : PathState
  /-- Debounce timer in ms, meaningful in PENDING (R11). -/
  debounce : Nat
  endFlag : EndFlag
  clearing : Nat
deriving DecidableEq, Repr

/-- A quantity that moves linearly to `goal` over 250 ms (R24). It started from `num / den`, exactly; the
value reached is `Ramp.value`. -/
structure Ramp where
  num : Nat
  den : Nat
  goal : Nat
  elapsed : Nat
deriving DecidableEq, Repr

/-- The off-delay timer with the delay read when it started (R43). -/
structure OffDelay where
  elapsed : Nat
  limit : Nat
deriving DecidableEq, Repr

/-- The tension supervisor (ch. 2, 3). -/
structure Supervisor where
  /-- The supervisor has started since the last reset (R18). -/
  up : Bool
  ts : TState
  threaded : Option (Fin 8)
  tension : Ramp
  clsSup : ArmClass
  clsTup : ArmClass
  brk : Option Nat
  exc : Option Nat
  settle : Option Nat
  off : Option OffDelay
  latch : Bool
  trip : TripCause
  side : Side
  stop : StopCause
  /-- The judgement of R52 has not been made yet. -/
  claimPending : Bool
  seenSup : Bool
  seenTup : Bool
  /-- A catch waits for the pinch to reach OUT (R54). -/
  catchHold : Bool
deriving DecidableEq, Repr

/-- The outputs of one reel (R58, R59). -/
structure ReelOut where
  mode : DriveMode
  torque : Int
  engaged : Bool
  heldRelease : Bool
  heldOff : Bool
  /-- The reel is in DYNAMIC under an emergency action and is followed to the brake-safe speed (R49, R71). -/
  follow : Bool
deriving DecidableEq, Repr

/-- The carry record (R68). The outputs it holds are the stage's own, which stay as they stand. -/
structure CarryRec where
  ts : TState
  threaded : Option (Fin 8)
  tension : Nat × Nat
  brakeSafe : Nat
deriving DecidableEq, Repr

/-- The drive output stage (ch. 4). -/
structure Drive where
  sup : ReelOut
  tup : ReelOut
  capRun : Bool
  capSpeed : Int
  /-- A capstan OFF waits for the pinch to reach OUT (R61). -/
  capOffHeld : Bool
  /-- Capstan pulses in each of the last 20 ms, newest first (R62, log 5). -/
  capWin : List Nat
  pinch : Pinch
  pinchSpent : Nat
  pinchTime : Nat
  lifters : Lifters
  carry : CarryStatus
  carryRec : Option CarryRec
  carryTimer : Option Nat
deriving DecidableEq, Repr

/-- One choice of a grant request (R77, 12.3). -/
structure Choice where
  profile : Nat
  codes : Byte
  wind : Bool
  maxSpeed : Nat
  accel : Nat
  vari : Nat
deriving DecidableEq, Repr

/-- A choice with its original position in its request (R77). -/
structure Granted where
  choice : Choice
  position : Nat
deriving DecidableEq, Repr

/-- The grant unit (ch. 5). -/
structure GrantUnit where
  threaded : Option (Fin 8)
  active : Option Granted
  fallback : List Granted
  request : Option (List Choice)
  trim : Int
  wait : List PartWrite
deriving DecidableEq, Repr

/-- A screened record: words 0 to 5 of the slot (R99). -/
structure Record where
  w0 : Word
  w1 : Word
  w2 : Word
  w3 : Word
  w4 : Word
  w5 : Word
deriving DecidableEq, Repr

/-- A slot as the intake holds it (R92, R99). -/
structure Slot where
  view : View
  record : Option Record
deriving DecidableEq, Repr

/-- One plan ring (R93). -/
structure Ring where
  slots : List Slot
  intake : Nat
  take : Nat
  queued : Nat
deriving DecidableEq, Repr

/-- An entry of the slot write list (R104, R105). -/
inductive SlotWrite where
  | mark (ring : RingId) (slot : Nat)
  | ret (ring : RingId) (slot : Nat) (status : Status) (position : Int) (time : Word)
deriving DecidableEq, Repr

/-- A hand-off being fetched and screened (R95): the write, the words still to read, the words read. -/
structure HandFetch where
  ring : RingId
  slot : Nat
  data : Word
  be : Enables
  todo : List Nat
  got : List (Nat × Word)
  aborted : Bool
deriving DecidableEq, Repr

/-- The plan intake (ch. 6). -/
structure Plan where
  urgent : Ring
  main : Ring
  list : List SlotWrite
  fetch : Option HandFetch
  /-- The next slot of the recovery sweep, 0..72, urgent slots first; none before it begins (R109). -/
  sweep : Option Nat
  wait : List PartWrite
deriving DecidableEq, Repr

/-- The LOCATE fields of a segment context (R142). -/
structure Loc where
  target : Int
  tolerance : Nat
  ceiling : Nat
  approach : Nat
deriving DecidableEq, Repr

/-- A segment context (R112). -/
structure Seg where
  ring : RingId
  slot : Nat
  record : Record
  kind : Kind
  dir : Option Dir
  phase : Phase
  endStatus : Option Status
  clipped : Bool
  timer : Option Nat
  loc : Option Loc
deriving DecidableEq, Repr

/-- The segment engine (ch. 7, 8). -/
structure Engine where
  est : EngState
  cur : Option Seg
  ref : Int
  /-- The fraction of the reference speed carried between updates, in 1/100 unit (R119). -/
  frac : Nat
  held : Int
  starve : Option Nat
  /-- HALTING in its pinch-release phase (R45). -/
  haltHold : Bool
  moveReq : Bool
  finishReq : Bool
deriving DecidableEq, Repr

/-- A cue entry (R137). -/
structure Cue where
  position : Int
  tolerance : Nat
  limit : Nat
  label : BitVec 64
deriving DecidableEq, Repr

/-- The cue table and the cue write list, each entry a group of four writes (R137, R138). -/
structure CueTable where
  cues : List (Option Cue)
  list : List (List PartWrite)
deriving DecidableEq, Repr

/-- The command in execution (R167, 12.3). -/
structure Cmd where
  code : Byte
  check : Bool
  length : Nat
deriving DecidableEq, Repr

/-- A decided reply (R171). -/
structure Reply where
  result : Result
  detail : Byte
deriving DecidableEq, Repr

/-- The mailbox (10.1). -/
structure Mailbox where
  st : MbState
  copy : Word
  cmd : Option Cmd
  data : List Byte
  /-- The words of the fetch still to read, counted from 0x0208 (R169). -/
  todo : List Nat
  got : List Word
  aborted : Bool
  reply : Option Reply
  wait : List PartWrite
deriving DecidableEq, Repr

/-- The general settings (R174). -/
structure General where
  settle : Nat
  offDelay : Nat
  pinchTime : Nat
  breakTime : Nat
  excursion : Nat
  starve : Nat
  /-- Heartbeat period in ms; 0 is OFF. -/
  period : Nat
  /-- Heartbeat mode: false REPORT, true STOP. -/
  stopMode : Bool
  catchLimit : Nat
  brakeSafe : Nat
  defaultMask : BitVec 16
deriving DecidableEq, Repr

/-- A profile entry (R73). -/
structure Profile where
  label : BitVec 64
  valid : Bool
  width : Nat
  park : Nat
  nominal : Nat
  wind : Nat
  maxTension : Nat
  slack : Nat
  low : Nat
  high : Nat
  overLevel : Nat
  hub : Nat
  full : Nat
  nearMargin : Nat
  nearSpeed : Nat
  maxSpeed : Nat
  lifterSpeed : Nat
  maxAccel : Nat
  creepSpeed : Nat
  creepDistance : Nat
deriving DecidableEq, Repr

/-- The settings store (10.3, 10.4). -/
structure Store where
  /-- The 512 bytes of the non-volatile store (R175). -/
  nv : List Byte
  gen : General
  profs : List Profile
  isOpen : Bool
  saving : Bool
  reloading : Bool
  /-- Reads of the store made in the load or reload in progress (R177, R178). -/
  reads : Nat
  /-- What the coming reads of the store get wrong, in order: the model's own field (log 32). -/
  coming : List ReadErrors
  /-- The working settings have been loaded since the last reset (R178). -/
  loaded : Bool
  wait : List PartWrite
deriving DecidableEq, Repr

/-- The event writer (11.1). -/
structure EventWriter where
  write : Nat
  consumed : Nat
  /-- The overrun state: false NORMAL, true OVERRUN. -/
  overrun : Bool
  dropped : Nat
  /-- Events posted and not yet taken, oldest first (R180, log 18). -/
  posted : List Event
  /-- Posts held through start-up, oldest first (R57, R165). -/
  held : List Post
  wait : List PartWrite
deriving DecidableEq, Repr

/-- The notice unit (R183): bit n is the notice of code n. -/
structure NoticeUnit where
  pending : BitVec 16
  mask : BitVec 16
deriving DecidableEq, Repr

/-- The host-silence monitor (R184). -/
structure Monitor where
  st : MonState
  elapsed : Nat
deriving DecidableEq, Repr

/-- A cycle the host drives. -/
structure HostCyc where
  addr : BitVec 24
  write : Bool
  data : Word
  be : Enables
deriving DecidableEq, Repr

/-- How the host cycle at the host port stands: held (R106, R138, R157, R168), a hand-off being screened
(R95), a command write waiting for its fetch (R168), waiting at the arbiter with the data and enables memory
is to receive (R158), waiting under the bypass (R162), or made at the memory port. -/
inductive HostPhase where
  | held
  | screening
  | fetching
  | ready (data : Word) (be : Enables)
  | bypassed
  | inPort
deriving DecidableEq, Repr

/-- The host cycle at the host port. -/
structure HostPort where
  cyc : HostCyc
  phase : HostPhase
deriving DecidableEq, Repr

/-- The memory cycle in progress, with its full address (R158). A cycle in progress when a reset begins
runs to its end for no block (R162): a part write as `orphanWrite`, a fetch read as `orphanRead`. -/
inductive Cycle where
  | host (addr : Nat) (write : Bool) (data : Word) (be : Enables) (bypass : Bool)
  | part (addr : Nat) (w : PartWrite)
  | handRead (addr : Nat) (word : Nat)
  | mailRead (addr : Nat)
  | sweepRead (addr : Nat) (index : Nat)
  | orphanWrite (addr : Nat) (data : Word) (be : Enables)
  | orphanRead
deriving DecidableEq, Repr

/-- How the last host cycle was completed to the host. -/
inductive HostDone where
  | none
  | wrote
  | read (data : Word)
deriving DecidableEq, Repr

/-- The snapshot group as latched (R154). -/
structure Snap where
  position : Word
  speed : Word
  supRadius : Word
  tupRadius : Word
  status : Word
  time : Word
deriving DecidableEq, Repr

/-- The pass-through path, the master queue and the arbiter, with the start record (ch. 9). -/
structure Bus where
  winsel : BitVec 4
  queue : List PartWrite
  passOver : Nat
  port : Option Cycle
  host : Option HostPort
  done : HostDone
  snap : Option Snap
  startCount : BitVec 16
  startCause : StartCause
  startTime : Word
  /-- Start-up writes waiting (R164). -/
  wait : List PartWrite
  /-- RESET_N is inactive again, with the WINSEL sampled then, and a host cycle that began under the bypass has still to
  complete under it (R162). -/
  ending : Option (BitVec 4)
  /-- The cycle the host drives as soon as the one at its port has ended (R158, R159; log 36). -/
  next : Option HostCyc
  /-- How the cycle before ended, where the next was driven in the same step (log 37). -/
  prior : HostDone
deriving DecidableEq, Repr

/-- Everything the part holds. -/
structure Chip where
  mode : Mode
  clock : Word
  pins : Pins
  /-- The model's own counter that free values are applied to (log 39). -/
  free : Nat
  trk : Tracker
  sup : Supervisor
  drv : Drive
  gnt : GrantUnit
  pln : Plan
  eng : Engine
  cue : CueTable
  mbx : Mailbox
  set : Store
  evt : EventWriter
  ntc : NoticeUnit
  mon : Monitor
  bus : Bus
deriving DecidableEq, Repr

/-- Memory: the listed bytes, addresses strictly rising, no listed byte equal to what an unlisted address
reads as (log 9). -/
abbrev Memory := List Host.Cell

/-- The state of the machine: the part, the transport memory, the commands waiting. -/
structure State where
  chip : Chip
  mem : Memory
  pending : List Instr
deriving DecidableEq, Repr

/-- No meaning of this model stops with a fault: the spec gives the part none, so no constructor. -/
inductive Fault
deriving DecidableEq, Repr

/-- Why a command is refused. -/
inductive Refusal where
  /-- A command that has no meaning yet (safe: the model stops). No arm of exec raises it any more. -/
  | notModelled (mnemonic : String)
deriving DecidableEq, Repr

/-! ## The state after the power-on reset -/

/-- No input asserted, no tape, oxide (log 8). -/
def noInputs : Pins := ⟨false, false, false, false, false, false⟩

/-- A reel's measures after power-on (R16). -/
def ReelMeasure.reset : ReelMeasure :=
  { pulses := List.replicate 100 0, rev := none, radius := 0, arm := 0 }

/-- The tracker after power-on (R16). -/
def Tracker.reset : Tracker :=
  { position := 0, valid := false, rollWin := List.replicate 40 0, lastDir := none
    sup := .reset, tup := .reset, path := .absent, debounce := 0, endFlag := .none, clearing := 0 }

/-- A tension reference of 0 at rest (R18). -/
def Ramp.zero : Ramp := ⟨0, 1, 0, 0⟩

/-- The supervisor after a reset, before it starts (R18). -/
def Supervisor.reset : Supervisor :=
  { up := false, ts := .unthreaded, threaded := none, tension := .zero, clsSup := .none, clsTup := .none
    brk := none, exc := none, settle := none, off := none, latch := false
    trip := .none, side := .none, stop := .none
    claimPending := false, seenSup := false, seenTup := false, catchHold := false }

/-- A reel's outputs after power-on (R72). -/
def ReelOut.reset : ReelOut :=
  { mode := .off, torque := 0, engaged := true, heldRelease := false, heldOff := false, follow := false }

/-- The drive output stage after power-on (R72). -/
def Drive.reset : Drive :=
  { sup := .reset, tup := .reset, capRun := false, capSpeed := 0, capOffHeld := false
    capWin := List.replicate 20 0, pinch := .out, pinchSpent := 0, pinchTime := 0, lifters := .up
    carry := .none, carryRec := none, carryTimer := none }

/-- The grant unit after a reset (R76, R77, R89). -/
def GrantUnit.reset : GrantUnit :=
  { threaded := none, active := none, fallback := [], request := none, trim := 0, wait := [] }

/-- An empty ring of `n` HOST slots (R110). -/
def Ring.reset (n : Nat) : Ring := ⟨List.replicate n ⟨.host, none⟩, 0, 0, 0⟩

/-- The plan intake after a reset (R110). -/
def Plan.reset : Plan :=
  { urgent := .reset 8, main := .reset 64, list := [], fetch := none, sweep := none, wait := [] }

/-- The engine after a reset (R111). -/
def Engine.reset : Engine :=
  { est := .idle, cur := none, ref := 0, frac := 0, held := 0, starve := none, haltHold := false
    moveReq := false, finishReq := false }

/-- The cue table after a reset (R137, R138). -/
def CueTable.reset : CueTable := ⟨List.replicate 32 none, []⟩

/-- The mailbox after a reset (R167). -/
def Mailbox.reset : Mailbox :=
  { st := .idle, copy := 0, cmd := none, data := [], todo := [], got := [], aborted := false
    reply := none, wait := [] }

/-- The default general settings (R174). -/
def General.default : General :=
  { settle := 800, offDelay := 300, pinchTime := 120, breakTime := 20, excursion := 400, starve := 250
    period := 0, stopMode := false, catchLimit := 60000, brakeSafe := 3000, defaultMask := 0xFFFF }

/-- The default profile entry (R75): the label is 8 spaces. -/
def Profile.default : Profile :=
  { label := 0x2020202020202020, valid := false, width := 2, park := 60, nominal := 110, wind := 90
    maxTension := 200, slack := 400, low := 1500, high := 2600, overLevel := 3600, hub := 300, full := 1800
    nearMargin := 150, nearSpeed := 20000, maxSpeed := 60000, lifterSpeed := 8000, maxAccel := 2000
    creepSpeed := 500, creepDistance := 400 }

/-- The settings store before any load: closed, nothing in progress (R178), the defaults as working settings
(log 11), 0xFF in every byte of the non-volatile store (log 10). -/
def Store.reset : Store :=
  { nv := List.replicate 512 0xFF, gen := .default, profs := List.replicate 8 .default, isOpen := false
    saving := false, reloading := false, reads := 0, coming := [], loaded := false, wait := [] }

/-- The event writer after a reset (R179). -/
def EventWriter.reset : EventWriter :=
  { write := 0, consumed := 0, overrun := false, dropped := 0, posted := [], held := [], wait := [] }

/-- The notice unit after a reset (R183; mask: log 11). -/
def NoticeUnit.reset : NoticeUnit := ⟨0, 0⟩

/-- The monitor after a reset (R184); its timer is held at 0 while DISARMED (DESIGN CHOICE, log 54). -/
def Monitor.reset : Monitor := ⟨.disarmed, 0⟩

/-- The pass-through path after power-on (R166). -/
def Bus.reset : Bus :=
  { winsel := 0, queue := [], passOver := 0, port := none, host := none, done := .none, snap := none
    startCount := 0, startCause := .powerOn, startTime := 0, wait := [], ending := none
    next := none, prior := .none }

/-- The part in the power-on reset (R72, R162). -/
def Chip.reset : Chip :=
  { mode := .bypass, clock := 0, pins := noInputs, free := 0, trk := .reset, sup := .reset, drv := .reset
    gnt := .reset, pln := .reset, eng := .reset, cue := .reset, mbx := .reset, set := .reset, evt := .reset
    ntc := .reset, mon := .reset, bus := .reset }

/-- The machine in the power-on reset: the part in bypass, memory with nothing listed, no command waiting. -/
def State.reset : State := ⟨.reset, [], []⟩

end Sys2Proof.Machine
end

