-- ==== Sys2Proof/Machine/Codes.lean ====
section
/-! DEFINITION. The codes of 12.8, and the decoding of the codes a record or a command carries. -/

namespace Sys2Proof.Machine

def TState.code : TState → Nat
  | .unthreaded => 0 | .threaded => 1 | .tensioning => 2 | .held => 3 | .moving => 4
  | .stopping => 5 | .slacking => 6 | .tripped => 7 | .catching => 8

/-- The state word's code during start-up (R163). -/
def startingCode : Nat := 14

/-- The state word's code in the tombstone (R164). -/
def downCode : Nat := 15

def ArmClass.code : ArmClass → Nat
  | .none => 0 | .slack => 1 | .low => 2 | .inBand => 3 | .high => 4 | .overLevel => 5

def TripCause.code : TripCause → Nat
  | .none => 0 | .armOver => 1 | .tapeBreak => 2 | .pathLost => 3 | .powerLoss => 4 | .driveFault => 5
  | .catchFailed => 6

def Side.code : Side → Nat
  | .none => 0 | .supply => 1 | .takeup => 2 | .both => 3

def StopCause.code : StopCause → Nat
  | .none => 0 | .tapeEnd => 1 | .endOfRun => 2 | .excursion => 3 | .starved => 4 | .pinchFault => 5
  | .capstanFault => 6 | .hostSilence => 7

def PathState.code : PathState → Nat
  | .absent => 0 | .pending => 1 | .present => 2

def EndFlag.code : EndFlag → Nat
  | .none => 0 | .forwardEnd => 1 | .reverseEnd => 2

/-- The code of a last direction: 0 NONE, 1 FORWARD, 2 REVERSE. -/
def lastDirCode : Option Dir → Nat
  | none => 0 | some .forward => 1 | some .reverse => 2

def DriveMode.code : DriveMode → Nat
  | .off => 0 | .torque => 1 | .dynamic => 2

def Pinch.code : Pinch → Nat
  | .out => 0 | .goingIn => 1 | .pinched => 2 | .goingOut => 3

def Lifters.code : Lifters → Nat
  | .up => 0 | .down => 1

def CarryStatus.code : CarryStatus → Nat
  | .none => 0 | .held => 1 | .expired => 2

def Status.code : Status → Nat
  | .done => 0x10 | .clipped => 0x11 | .superseded => 0x12 | .flushed => 0x13 | .faultFlushed => 0x14
  | .tapeEnd => 0x15 | .missed => 0x16 | .noCue => 0x17 | .abandoned => 0x18 | .recalled => 0x19

/-- The status of a slot the part has accepted. -/
def queuedCode : Nat := 1

/-- The status of the slot of the current segment. -/
def currentCode : Nat := 2

def RefCode.code : RefCode → Nat
  | .order => 0x40 | .notReady => 0x41 | .latched => 0x42 | .kind => 0x43 | .field => 0x44
  | .noGrant => 0x45 | .overGrant => 0x46 | .noPosition => 0x47 | .noCue => 0x48 | .memory => 0x49

def Kind.code : Kind → Nat
  | .spool => 1 | .locate => 2 | .play => 3 | .dwell => 4 | .stop => 5 | .wind => 6

/-- The kind a code names; 0 and 7 name none (R186). -/
def Kind.ofCode : Nat → Option Kind
  | 1 => some .spool | 2 => some .locate | 3 => some .play | 4 => some .dwell | 5 => some .stop
  | 6 => some .wind | _ => none

/-- The play code a code names; none outside 1..4 (R186). -/
def PlayCode.ofCode : Nat → Option PlayCode
  | 1 => some .low | 2 => some .mid | 3 => some .high | 4 => some .vari | _ => none

/-- The bit of a play code in a play code set (12.3). -/
def PlayCode.bit : PlayCode → Nat
  | .low => 0 | .mid => 1 | .high => 2 | .vari => 3

def Phase.code : Phase → Nat
  | .release => 1 | .run => 2 | .leadIn => 3 | .pinchIn => 4 | .capstan => 5 | .pinchOut => 6
  | .settle => 7 | .hold => 8 | .ramp => 9 | .runout => 10 | .approach => 11 | .creep => 12 | .brake => 13

def EngState.code : EngState → Nat
  | .idle => 0 | .running => 1 | .starved => 2 | .halting => 3

def MbState.code : MbState → Nat
  | .idle => 0 | .fetch => 1 | .run => 2 | .reply => 3

def MonState.code : MonState → Nat
  | .disarmed => 0 | .armed => 1 | .silent => 2

def StartCause.code : StartCause → Nat
  | .powerOn => 1 | .resetPin => 2

def Result.code : Result → Nat
  | .done => 1 | .refused => 2 | .unknown => 3 | .badLength => 4 | .badCheck => 5 | .locked => 6
  | .busy => 7 | .deferred => 8 | .granted => 9

def ChoiceOutcome.code : ChoiceOutcome → Nat
  | .passed => 0 | .invalid => 1 | .mismatch => 2 | .exceeds => 3

def Notice.code : Notice → Nat
  | .segmentReported => 0 | .segmentRefused => 1 | .ringStarved => 2 | .stateChanged => 3 | .tripped => 4
  | .stopLatched => 5 | .grantChanged => 6 | .mailboxDone => 7 | .writeDropped => 8 | .eventsWaiting => 9
  | .eventOverrun => 10 | .tapePath => 11 | .tapeEnd => 12 | .trimClamped => 13 | .hostSilence => 14
  | .memoryFault => 15

def EventKind.code : EventKind → Nat
  | .reset => 1 | .overrun => 2 | .positionLost => 3 | .tapePath => 4 | .endFlag => 5 | .stateChanged => 6
  | .trip => 7 | .stop => 8 | .faultInput => 10 | .armExcursion => 11 | .settleTimeout => 12
  | .catchClaimed => 13 | .grantResolved => 14 | .grantDerated => 15 | .grantDropped => 16
  | .trimClamped => 17 | .segmentRefused => 18 | .writeDropped => 19 | .segmentReported => 20
  | .ringStarved => 21 | .locateRetry => 22 | .cueSet => 23 | .cueCleared => 24 | .memoryFault => 25
  | .settingsDefaulted => 26 | .hostSilence => 27 | .heartbeatResumed => 28

/-! Reply details (12.8). -/

def detailNone : Byte := 0
def detailNothing : Byte := 1
def detailCreated : Byte := 2
def detailReplaced : Byte := 3
def detailNotThreaded : Byte := 0x10
def detailBadProfile : Byte := 0x11
def detailPower : Byte := 0x12
def detailRange : Byte := 0x13
def detailCauseActive : Byte := 0x14
def detailNotStopped : Byte := 0x15
def detailStoreBad : Byte := 0x16
def detailBadIndex : Byte := 0x17
def detailMemory : Byte := 0x18

/-- Mailbox command codes (12.8). -/
def cmdTensionUp : Byte := 1
def cmdSlackDown : Byte := 2
def cmdRequestGrant : Byte := 3
def cmdDropGrant : Byte := 4
def cmdSetCue : Byte := 5
def cmdClearCue : Byte := 6
def cmdSetPosition : Byte := 7
def cmdClearFault : Byte := 8
def cmdOpenSettings : Byte := 9
def cmdCloseSettings : Byte := 10
def cmdSaveSettings : Byte := 11
def cmdReloadSettings : Byte := 12

end Sys2Proof.Machine
end

