-- ==== Sys2Proof/Machine/Operands.lean ====
section
/-! DEFINITION. Bytes and words, byte enables, the fields of a plan record and of a command's data (12.1, 12.3). -/

namespace Sys2Proof.Machine

/-- Byte `k` of a word, from the lowest address (Conventions: little-endian). -/
def byteOf (w : Word) (k : Nat) : Byte := w.extractLsb' (8 * k) 8

/-- The word of four bytes, the first at the lowest address. -/
def wordOf (b0 b1 b2 b3 : Byte) : Word := b3 ++ b2 ++ b1 ++ b0

/-- Where a snooped word changes only by its enabled bytes (Conventions, R155). -/
def merge (be : Enables) (new old : Word) : Word :=
  wordOf (if be.getLsbD 0 then byteOf new 0 else byteOf old 0)
    (if be.getLsbD 1 then byteOf new 1 else byteOf old 1)
    (if be.getLsbD 2 then byteOf new 2 else byteOf old 2)
    (if be.getLsbD 3 then byteOf new 3 else byteOf old 3)

/-- The word with its byte 0 replaced (R186: only the owner byte is rewritten). -/
def withByte0 (w : Word) (b : Byte) : Word := wordOf b (byteOf w 1) (byteOf w 2) (byteOf w 3)

/-- All four byte enables. -/
def allBytes : Enables := 0xF

/-- The owner byte alone. -/
def ownerByteOnly : Enables := 1

/-- An unsigned little-endian number. -/
def natOfBytes : List Byte → Nat
  | [] => 0
  | b :: bs => b.toNat + 256 * natOfBytes bs

/-- The low `n` bytes of a number, little-endian. -/
def bytesOfNat : Nat → Nat → List Byte
  | 0, _ => []
  | n + 1, v => BitVec.ofNat 8 v :: bytesOfNat n (v / 256)

/-- The four bytes of a word. -/
def wordBytes (w : Word) : List Byte := [byteOf w 0, byteOf w 1, byteOf w 2, byteOf w 3]

/-- A whole number as a 32-bit field, two's complement when it is negative (ch. 12). -/
def wordOfInt (v : Int) : Word := BitVec.ofInt 32 v

/-- A count shown in a field of `bits` bits, at the largest value the field can carry when it is larger (R186). -/
def capped (bits v : Nat) : Nat := min v (2 ^ bits - 1)

/-- The position range of the counter (R1). -/
def positionInRange (v : Int) : Bool := decide (-16777216 ≤ v ∧ v ≤ 16777215)

/-- A speed of the range −120,000..+120,000 (Conventions). -/
def speedInRange (v : Int) : Bool := decide (-120000 ≤ v ∧ v ≤ 120000)

/-- A number limited to a range: the low end where it is below, the high end where it is above. -/
def clampNat (lo hi v : Nat) : Nat := min hi (max lo v)

/-- Limited to ±`m`. -/
def clampInt (m : Nat) (v : Int) : Int := max (-(m : Int)) (min (m : Int) v)

/-! ## Plan records (12.1) -/

/-- The OWN bit of an owner byte: true PART. -/
def ownPart (w0 : Word) : Bool := w0.getLsbD 7

def Record.kind? (r : Record) : Option Kind := Kind.ofCode ((byteOf r.w0 1).toNat % 8)
def Record.endOfRun (r : Record) : Bool := r.w0.getLsbD 11
def Record.report (r : Record) : Bool := r.w0.getLsbD 12
def Record.flush (r : Record) : Bool := r.w0.getLsbD 13
def Record.useCue (r : Record) : Bool := r.w0.getLsbD 14
def Record.positionEnd (r : Record) : Bool := r.w0.getLsbD 15
def Record.tag (r : Record) : Nat := r.w0.toNat / 65536
def Record.speed (r : Record) : Int := r.w1.toInt
def Record.accel (r : Record) : Nat := r.w2.toNat
def Record.target (r : Record) : Int := r.w3.toInt
def Record.duration (r : Record) : Nat := r.w4.toNat
def Record.offset (r : Record) : Int := r.w4.toInt
def Record.tolerance (r : Record) : Nat := r.w5.toNat % 65536
def Record.playCode? (r : Record) : Option PlayCode := PlayCode.ofCode (byteOf r.w5 2).toNat

/-- The nominal speed of a play code; none for VARI (Conventions, R97). -/
def PlayCode.nominal : PlayCode → Option Nat
  | .low => some 1905 | .mid => some 3810 | .high => some 7620 | .vari => none

/-- The play speed of a PLAY record before any trim (R97). -/
def Record.playSpeed (r : Record) : Nat :=
  match r.playCode? with
  | some code => (code.nominal).getD r.speed.natAbs
  | none => r.speed.natAbs

/-- The direction of a signed speed (R112). -/
def dirOf (v : Int) : Option Dir := if 0 < v then some .forward else if v < 0 then some .reverse else none

/-- A magnitude with the sign of a direction; 0 with none. -/
def signed (d : Option Dir) (m : Nat) : Int :=
  match d with
  | some .forward => (m : Int)
  | some .reverse => -(m : Int)
  | none => 0

/-- An open segment (R129): a SPOOL or PLAY with POSITION_END clear and a duration of 0, or a DWELL with a
duration of 0. -/
def isOpen (k : Kind) (r : Record) : Bool :=
  match k with
  | .spool | .play => !r.positionEnd && r.duration == 0
  | .dwell => r.duration == 0
  | .locate | .stop | .wind => false

/-- The moving kinds (R96). -/
def Kind.moving : Kind → Bool
  | .spool | .locate | .play | .wind => true
  | .dwell | .stop => false

/-! ## Window offsets (12.3, R91, R138, R179) -/

def slotOffset (r : RingId) (slot : Nat) : Nat :=
  match r with
  | .urgent => 0x1000 + 32 * slot
  | .main => 0x2000 + 32 * slot

def heartbeatOffset : Nat := 0x100
def maskOffset : Nat := 0x104
def clearOffset : Nat := 0x108
def trimOffset : Nat := 0x10C
def consumedOffset : Nat := 0x110
def commandOffset : Nat := 0x200
def replyOffset : Nat := 0x204
def dataOffset : Nat := 0x208
def settingsOffset : Nat := 0x400
def cueOffset (index : Nat) : Nat := 0x3000 + 16 * index
def eventOffset (index : Nat) : Nat := 0x4000 + 16 * index

/-- The ring, slot and word a window offset names, where it lies in a ring (R91). -/
def slotOf (off : Nat) : Option (RingId × Nat × Nat) :=
  if 0x1000 ≤ off ∧ off < 0x1100 then some (.urgent, (off - 0x1000) / 32, (off - 0x1000) % 32 / 4)
  else if 0x2000 ≤ off ∧ off < 0x2800 then some (.main, (off - 0x2000) / 32, (off - 0x2000) % 32 / 4)
  else none

/-- The CRC-8 of R170: one byte into the register. -/
def crcByte (reg b : Byte) : Byte :=
  let bit (r : Byte) : Byte := if r.getLsbD 7 then (r <<< 1) ^^^ 0x07 else r <<< 1
  bit (bit (bit (bit (bit (bit (bit (bit (reg ^^^ b))))))))

/-- The CRC-8 of a list of bytes (R170). -/
def crc8 (bs : List Byte) : Byte := bs.foldl crcByte 0

end Sys2Proof.Machine
end

