-- ==== Sys2Proof/Machine/Ops.lean ====
section
/-! DEFINITION. The memory: one byte read, one byte written keeping the canonical form, words from bytes, and
a block of the part changed. -/

namespace Sys2Proof.Machine

/-- What an unlisted address reads as (log 9). -/
def Memory.unlisted : Byte := 0

/-- The byte at an address. -/
def Memory.read : Memory → Nat → Byte
  | [], _ => Memory.unlisted
  | (k, b) :: rest, a => if a = k then b else Memory.read rest a

/-- The memory with the byte at `a` written; the list stays in the canonical form. -/
def Memory.writeByte : Memory → Nat → Byte → Memory
  | [], a, v => if v = Memory.unlisted then [] else [(a, v)]
  | (k, b) :: rest, a, v =>
    if a < k then (if v = Memory.unlisted then (k, b) :: rest else (a, v) :: (k, b) :: rest)
    else if a = k then (if v = Memory.unlisted then rest else (a, v) :: rest)
    else (k, b) :: Memory.writeByte rest a v

/-- Every listed address is above `lo`, and addresses rise strictly. -/
def Memory.risesFrom : Option Nat → Memory → Bool
  | _, [] => true
  | lo, (k, b) :: rest =>
    (match lo with | none => true | some l => decide (l < k)) && b != Memory.unlisted
      && Memory.risesFrom (some k) rest

/-- The canonical form: addresses strictly rising, no listed byte equal to what an unlisted address reads as. -/
def Memory.wf (m : Memory) : Bool := Memory.risesFrom none m

/-- The word at a word address. -/
def Memory.readWord (m : Memory) (a : Nat) : Word :=
  wordOf (m.read a) (m.read (a + 1)) (m.read (a + 2)) (m.read (a + 3))

/-- One byte of a word written where it is enabled. -/
def Memory.writeIf (m : Memory) (en : Bool) (a : Nat) (v : Byte) : Memory :=
  if en then m.writeByte a v else m

/-- The enabled bytes of a word written at a word address. -/
def Memory.writeWord (m : Memory) (a : Nat) (data : Word) (be : Enables) : Memory :=
  ((((m.writeIf (be.getLsbD 0) a (byteOf data 0)).writeIf (be.getLsbD 1) (a + 1) (byteOf data 1)).writeIf
    (be.getLsbD 2) (a + 2) (byteOf data 2)).writeIf (be.getLsbD 3) (a + 3) (byteOf data 3))

/-- The state with the part changed and memory and the queue as they stand. -/
def State.onChip (s : State) (f : Chip → Chip) : State := { s with chip := f s.chip }

/-- The full address of a window offset (R151). -/
def windowAddr (c : Chip) (off : Nat) : Nat := off + 0x100000 * c.bus.winsel.toNat

/-! ## One block of the part changed -/

def onTrk (f : Tracker → Tracker) (c : Chip) : Chip := { c with trk := f c.trk }
def onSup (f : Supervisor → Supervisor) (c : Chip) : Chip := { c with sup := f c.sup }
def onDrive (f : Drive → Drive) (c : Chip) : Chip := { c with drv := f c.drv }
def onGnt (f : GrantUnit → GrantUnit) (c : Chip) : Chip := { c with gnt := f c.gnt }
def onPln (f : Plan → Plan) (c : Chip) : Chip := { c with pln := f c.pln }
def onEng (f : Engine → Engine) (c : Chip) : Chip := { c with eng := f c.eng }
def onMbx (f : Mailbox → Mailbox) (c : Chip) : Chip := { c with mbx := f c.mbx }
def onSet (f : Store → Store) (c : Chip) : Chip := { c with set := f c.set }
def onEvt (f : EventWriter → EventWriter) (c : Chip) : Chip := { c with evt := f c.evt }
def onMon (f : Monitor → Monitor) (c : Chip) : Chip := { c with mon := f c.mon }
def onBus (f : Bus → Bus) (c : Chip) : Chip := { c with bus := f c.bus }

end Sys2Proof.Machine
end

