-- ==== Sys2Proof/Machine/Flags.lean ====
section
/-! DEFINITION. Posts: events, notices, the stop latch, and the part's own memory writes. -/

namespace Sys2Proof.Machine

/-- The bit of a notice kind (R183, 12.8). -/
def noticeBit (k : Notice) : BitVec 16 := 1#16 <<< k.code

/-- A kind posted: it joins the set where its mask bit is set (R183). -/
def NoticeUnit.post (n : NoticeUnit) (k : Notice) : NoticeUnit :=
  { n with pending := n.pending ||| (noticeBit k &&& n.mask) }

/-- NOTICE_N is driven low while the set is not empty (R183). -/
def Chip.noticeLow (c : Chip) : Bool := c.ntc.pending != 0

/-- A notice posted by a block: into the set; held through start-up (R183, R57); lost in a reset. -/
def postNotice (k : Notice) (c : Chip) : Chip :=
  match c.mode with
  | .running => { c with ntc := c.ntc.post k }
  | .startup => { c with evt := { c.evt with held := c.evt.held ++ [.notice k] } }
  | .bypass => c

/-- An event as posted now, with a position of its own (R180). -/
def eventNow (c : Chip) (kind : EventKind) (detail tag : Nat) (value position : Int) : Event :=
  { kind, detail, tag, time := c.clock, position, value }

/-- An event posted by a block, with a position of its own: to the event writer; held through start-up
(R180, R57); lost in a reset. -/
def postEventAt (kind : EventKind) (detail tag : Nat) (value position : Int) (c : Chip) : Chip :=
  let e := eventNow c kind detail tag value position
  match c.mode with
  | .running => { c with evt := { c.evt with posted := c.evt.posted ++ [e] } }
  | .startup => { c with evt := { c.evt with held := c.evt.held ++ [.event e] } }
  | .bypass => c

/-- An event posted with the tape position (R180). -/
def postEvent (kind : EventKind) (detail tag : Nat) (value : Int) (c : Chip) : Chip :=
  postEventAt kind detail tag value c.trk.position c

/-- An event of the position tracker: not posted while the rest of the part is in reset or start-up (R16). -/
def postTrackerEvent (kind : EventKind) (detail : Nat) (c : Chip) : Chip :=
  if c.mode = .running then postEvent kind detail 0 0 c else c

/-- A notice of the position tracker (R16). -/
def postTrackerNotice (k : Notice) (c : Chip) : Chip :=
  if c.mode = .running then postNotice k c else c

/-- A dropped host write reported (R103, R139, R168, R173). -/
def postWriteDropped (detail off tag : Nat) (c : Chip) : Chip :=
  postNotice .writeDropped (postEvent .writeDropped detail tag off c)

/-- The stop latch set; a change from clear posts STOP_LATCHED (R33). -/
def setLatch (c : Chip) : Chip :=
  if c.sup.latch then c else postNotice .stopLatched { c with sup := { c.sup with latch := true } }

/-- The tag of the current segment, or 0 (R17). -/
def Chip.curTag (c : Chip) : Nat :=
  match c.eng.cur with
  | some seg => seg.record.tag
  | none => 0

/-! ## The part's own writes -/

/-- The master queue's room (R156). -/
def queueDepth : Nat := 12

/-- The writes waiting at a block (R156). -/
def waiting (p : Poster) (c : Chip) : List PartWrite :=
  match p with
  | .eventWriter => c.evt.wait
  | .mailbox => c.mbx.wait
  | .settings => c.set.wait
  | .grant => c.gnt.wait
  | .startUp => c.bus.wait
  | .sweep => c.pln.wait

/-- The part with a block's waiting writes replaced. -/
def withWaiting (p : Poster) (ws : List PartWrite) (c : Chip) : Chip :=
  match p with
  | .eventWriter => { c with evt := { c.evt with wait := ws } }
  | .mailbox => { c with mbx := { c.mbx with wait := ws } }
  | .settings => { c with set := { c.set with wait := ws } }
  | .grant => { c with gnt := { c.gnt with wait := ws } }
  | .startUp => { c with bus := { c.bus with wait := ws } }
  | .sweep => { c with pln := { c.pln with wait := ws } }

/-- Whether a block's turn has come: the mailbox clear of start-up follows the image and the cue clear
(R164: "each posted in turn"; log 26). -/
def turnOf (p : Poster) (c : Chip) : Bool :=
  match p with
  | .mailbox => c.mode != .startup || (c.bus.wait.isEmpty && c.cue.list.isEmpty)
  | .eventWriter | .settings | .grant | .startUp | .sweep => true

/-- A write posted by a block: it joins the master queue where there is room and nothing of the block waits,
and waits at the block otherwise (R156, log 31). -/
def postWrite (p : Poster) (w : PartWrite) (c : Chip) : Chip :=
  if c.bus.queue.length < queueDepth ∧ (waiting p c).isEmpty ∧ turnOf p c then
    { c with bus := { c.bus with queue := c.bus.queue ++ [w] } }
  else withWaiting p (waiting p c ++ [w]) c

/-- Writes posted by a block in order. -/
def postWrites (p : Poster) (ws : List PartWrite) (c : Chip) : Chip :=
  ws.foldl (fun c w => postWrite p w c) c

end Sys2Proof.Machine
end

