-- ==== Sys2Proof/Machine/Measure.lean ====
section
/-! DEFINITION. The position tracker's measures (ch. 1) and the arm classes (R23). -/

namespace Sys2Proof.Machine

/-- The numerator of 2π over `twoPiDen`: 2π to 34 decimals (log 6). -/
def twoPiNum : Nat := 62831853071795864769252867665590057

/-- The denominator of 2π. -/
def twoPiDen : Nat := 10000000000000000000000000000000000

/-- The tape speed (R5): the net counts of the window times 31.25, toward zero, limited to ±120,000. -/
def Tracker.tapeSpeed (t : Tracker) : Int := clampInt 120000 (((t.rollWin.foldl (· + ·) 0) * 125).tdiv 4)

/-- A reel's pulse rate (R6): the pulses of the last 100 ms times 10. -/
def ReelMeasure.pulseRate (r : ReelMeasure) : Nat := (r.pulses.foldl (· + ·) 0) * 10

/-- The radius a reel is judged by: 2000 stands for an unknown one (R7, R10). -/
def ReelMeasure.radiusOr (r : ReelMeasure) : Nat := if r.radius = 0 then 2000 else r.radius

/-- A reel's surface speed (R7): pulse rate × 2π × radius ÷ 256, toward zero. -/
def ReelMeasure.surfaceSpeed (r : ReelMeasure) : Nat :=
  twoPiNum * (r.pulseRate * r.radiusOr) / (256 * twoPiDen)

/-- The radius estimate of a revolution (R9): roller counts × 1.25 ÷ 2π, to the nearest, halves up, limited to
200..2000. -/
def radiusOf (rolls : Nat) : Nat :=
  clampNat 200 2000 ((4 * twoPiNum + 10 * twoPiDen * rolls) / (8 * twoPiNum))

/-- What the tracker holds for one reel. -/
def Tracker.reel (t : Tracker) : Reel → ReelMeasure
  | .supply => t.sup
  | .takeup => t.tup

/-- The tracker with one reel's measures replaced. -/
def Tracker.withReel (t : Tracker) (r : Reel) (m : ReelMeasure) : Tracker :=
  match r with
  | .supply => { t with sup := m }
  | .takeup => { t with tup := m }

/-- A window's newest bin changed. -/
def bumpInt (d : Int) : List Int → List Int
  | [] => []
  | b :: bs => (b + d) :: bs

/-- A window's newest bin raised by one. -/
def bumpNat : List Nat → List Nat
  | [] => []
  | b :: bs => (b + 1) :: bs

/-- A window of `n` bins aged by a millisecond: a new empty bin, the oldest dropped. -/
def ageInt (n : Nat) (w : List Int) : List Int := (0 :: w).take n

/-- As `ageInt`, for pulses. -/
def ageNat (n : Nat) (w : List Nat) : List Nat := (0 :: w).take n

/-- Both reels stopped (R6). -/
def Tracker.reelsStopped (t : Tracker) : Bool := t.sup.pulseRate == 0 && t.tup.pulseRate == 0

/-- The larger of the two surface speeds (R57). -/
def Tracker.maxSurface (t : Tracker) : Nat := max t.sup.surfaceSpeed t.tup.surfaceSpeed

/-- One count in a direction. -/
def unitOf : Dir → Int
  | .forward => 1
  | .reverse => -1

/-- A revolution measure given a roller count (R8): abandoned by a count opposite to its first. -/
def RevMeasure.roll (m : RevMeasure) (d : Dir) : Option RevMeasure :=
  match m.first with
  | none => some { m with rolls := m.rolls + 1, first := some d }
  | some f => if f = d then some { m with rolls := m.rolls + 1 } else none

/-- A measure abandoned while the tape is slower than 500 (R8). -/
def abandonSlow (speed : Int) (m : ReelMeasure) : ReelMeasure :=
  if speed.natAbs < 500 then { m with rev := none } else m

/-- A reel's measure given a roller count (R8). -/
def ReelMeasure.roll (m : ReelMeasure) (d : Dir) : ReelMeasure :=
  match m.rev with
  | none => m
  | some r => { m with rev := r.roll d }

/-- A tachometer pulse of a reel (R6, R8, R9): the pulse rate, and the revolution measure started, advanced, or
completed with a new estimate. -/
def ReelMeasure.pulse (m : ReelMeasure) (speed : Int) : ReelMeasure :=
  let m := { m with pulses := bumpNat m.pulses }
  match m.rev with
  | none => if 500 ≤ speed.natAbs then { m with rev := some ⟨0, 0, none⟩ } else m
  | some r =>
    if r.pulses + 1 = 256 then { m with radius := radiusOf r.rolls, rev := some ⟨0, 0, none⟩ }
    else { m with rev := some { r with pulses := r.pulses + 1 } }

/-- Whether a direction is away from a flagged end (R14). -/
def awayFrom (f : EndFlag) (d : Dir) : Bool :=
  match f, d with
  | .forwardEnd, .reverse => true
  | .reverseEnd, .forward => true
  | _, _ => false

/-- The end flag's clearing count given a roller count (R14). -/
def Tracker.clearCount (t : Tracker) (leader : Bool) (d : Dir) : Nat :=
  if t.endFlag = .none then t.clearing
  else if leader then 0
  else if awayFrom t.endFlag d then t.clearing + 1
  else t.clearing - 1

/-- A count that would carry the counter beyond its range (R2). -/
def Tracker.sticks (t : Tracker) (d : Dir) : Bool :=
  match d with
  | .forward => decide (t.position ≥ 16777215)
  | .reverse => decide (t.position ≤ -16777216)

/-- One roller count in the tracker (R1, R2, R5, R8, R14): position, window, direction, measures, clearing
count. What it posts is with the command. -/
def Tracker.count (t : Tracker) (leader : Bool) (d : Dir) : Tracker :=
  let t := { t with
    position := if t.sticks d then t.position else t.position + unitOf d
    valid := t.valid && !t.sticks d
    rollWin := bumpInt (unitOf d) t.rollWin
    lastDir := some d
    sup := t.sup.roll d
    tup := t.tup.roll d
    clearing := t.clearCount leader d }
  let t := if 80 ≤ t.clearing ∧ t.endFlag ≠ .none then { t with endFlag := .none, clearing := 0 } else t
  { t with sup := abandonSlow t.tapeSpeed t.sup, tup := abandonSlow t.tapeSpeed t.tup }

/-- An always-on millisecond in the tracker (R5, R6, R8, R11). -/
def Tracker.tick (t : Tracker) : Tracker :=
  let t := { t with
    rollWin := ageInt 40 t.rollWin
    sup := { t.sup with pulses := ageNat 100 t.sup.pulses }
    tup := { t.tup with pulses := ageNat 100 t.tup.pulses }
    debounce := if t.path = PathState.pending then t.debounce + 1 else t.debounce }
  { t with sup := abandonSlow t.tapeSpeed t.sup, tup := abandonSlow t.tapeSpeed t.tup }

/-- The absence of tape in PRESENT (R10, R12): the tracker's own state; the counter keeps its value. -/
def Tracker.lose (t : Tracker) : Tracker :=
  { t with
    valid := false
    sup := { t.sup with radius := 0, rev := none }
    tup := { t.tup with radius := 0, rev := none }
    endFlag := .none
    clearing := 0
    path := .absent
    debounce := 0 }

/-- The class of an arm reading against a profile's levels (R23). -/
def classOf (p : Profile) (reading : Nat) : ArmClass :=
  if reading ≤ p.slack then .slack
  else if reading ≤ p.low then .low
  else if reading < p.high then .inBand
  else if reading < p.overLevel then .high
  else .overLevel

/-- Whether an end flag lies ahead in a direction (R130). -/
def endAhead (f : EndFlag) (d : Option Dir) : Bool :=
  match f, d with
  | .forwardEnd, some .forward => true
  | .reverseEnd, some .reverse => true
  | _, _ => false

end Sys2Proof.Machine
end

