-- ==== Sys2Proof/Machine/Drive.lean ====
section
/-! DEFINITION. The drive output stage: reel orders under the brake law (R58, R59), capstan and pinch (R61 to R66), the
emergency action of one reel (R49), an always-on millisecond. -/

namespace Sys2Proof.Machine

/-- One reel's outputs. -/
def Drive.reel (d : Drive) : Reel → ReelOut
  | .supply => d.sup
  | .takeup => d.tup

/-- The stage with one reel's outputs replaced. -/
def Drive.withReel (d : Drive) (r : Reel) (o : ReelOut) : Drive :=
  match r with
  | .supply => { d with sup := o }
  | .takeup => { d with tup := o }

/-- Both brakes ENGAGED. -/
def Drive.bothEngaged (d : Drive) : Bool := d.sup.engaged && d.tup.engaged

/-- Both drives in TORQUE or DYNAMIC. -/
def Drive.bothDriven (d : Drive) : Bool := d.sup.mode != .off && d.tup.mode != .off

/-- The brake law (R59): whenever either brake is released, both drives are in TORQUE or DYNAMIC. -/
def Drive.brakeLaw (d : Drive) : Bool := d.bothEngaged || d.bothDriven

/-- A drive gone OFF. -/
def ReelOut.offNow (o : ReelOut) : ReelOut := { o with mode := .off, torque := 0, heldOff := false }

/-- A held OFF carried out (R59). -/
def ReelOut.dropHeld (o : ReelOut) : ReelOut := if o.heldOff then o.offNow else o

/-- A held release carried out (R59). -/
def ReelOut.releaseHeld (o : ReelOut) : ReelOut :=
  if o.heldRelease then { o with engaged := false, heldRelease := false } else o

/-- Every held OFF is carried out when both brakes are ENGAGED (R59). -/
def Drive.carryOutOffs (d : Drive) : Drive :=
  if d.bothEngaged then { d with sup := d.sup.dropHeld, tup := d.tup.dropHeld } else d

/-- Every held release is carried out once both drives have left OFF (R59). -/
def Drive.carryOutReleases (d : Drive) : Drive :=
  if d.bothDriven then { d with sup := d.sup.releaseHeld, tup := d.tup.releaseHeld } else d

/-- The brake part of an order (R59). -/
def Drive.brakePart (d : Drive) (r : Reel) (engage : Bool) : Drive :=
  let o := d.reel r
  if engage then (d.withReel r { o with engaged := true, heldRelease := false }).carryOutOffs
  else if d.bothDriven then d.withReel r { o with engaged := false, heldRelease := false }
  else if o.engaged then d.withReel r { o with heldRelease := true }
  else d

/-- The drive part of an order (R58, R59): the torque output is 0 outside TORQUE. -/
def Drive.drivePart (d : Drive) (r : Reel) (mode : DriveMode) (torque : Int) : Drive :=
  let o := d.reel r
  match mode with
  | .torque => (d.withReel r { o with mode := .torque, torque := torque, heldOff := false }).carryOutReleases
  | .dynamic => (d.withReel r { o with mode := .dynamic, torque := 0, heldOff := false }).carryOutReleases
  | .off =>
    if d.bothEngaged then d.withReel r o.offNow
    else d.withReel r { o with mode := .dynamic, torque := 0, heldOff := true }

/-- A reel order (R59): the brake part first when it is ENGAGED, the drive part first when it is RELEASED. -/
def Drive.order (d : Drive) (r : Reel) (mode : DriveMode) (torque : Int) (engage : Bool) : Drive :=
  if engage then (d.brakePart r true).drivePart r mode torque
  else (d.drivePart r mode torque).brakePart r false

/-- A reel marked as followed, or no longer, under an emergency action. -/
def Drive.followed (d : Drive) (r : Reel) (on : Bool) : Drive := d.withReel r { d.reel r with follow := on }

/-- The emergency action of one reel (R49, R71). -/
def Drive.emergency (d : Drive) (r : Reel) (surface limit : Nat) : Drive :=
  if limit < surface then (d.order r .dynamic 0 false).followed r true
  else (d.order r .off 0 true).followed r false

/-- A followed reel that has come to the brake-safe speed is braked and turned OFF (R49, R71). -/
def Drive.followReel (d : Drive) (r : Reel) (surface limit : Nat) : Drive :=
  if (d.reel r).follow ∧ surface ≤ limit then (d.order r .off 0 true).followed r false else d

/-- The same order for both reels, the supply's given first (DESIGN CHOICE, log 51). -/
def Drive.orderBoth (d : Drive) (mode : DriveMode) (torque : Int) (engage : Bool) : Drive :=
  (d.order .supply mode torque engage).order .takeup mode torque engage

/-- The pinch taken out (R63): from GOING_IN in the time spent going in, from IN in a full movement. -/
def Drive.pinchAway (d : Drive) (full : Nat) : Drive :=
  match d.pinch with
  | .goingIn => { d with pinch := .goingOut, pinchTime := d.pinchSpent, pinchSpent := 0 }
  | .pinched => { d with pinch := .goingOut, pinchTime := full, pinchSpent := 0 }
  | .out | .goingOut => d

/-- The capstan OFF at once. -/
def Drive.capstanStop (d : Drive) : Drive := { d with capRun := false, capSpeed := 0, capOffHeld := false }

/-- The emergency release of capstan and pinch (R61, R63 to R66). -/
def Drive.release (d : Drive) (full : Nat) : Drive := d.capstanStop.pinchAway full

/-- The capstan OFF order (R61): at once with the pinch OUT or GOING_OUT; otherwise the pinch goes out first. -/
def Drive.capstanOff (d : Drive) (full : Nat) : Drive :=
  match d.pinch with
  | .out | .goingOut => d.capstanStop
  | .goingIn | .pinched => { d.pinchAway full with capOffHeld := true }

/-- An admitted capstan RUN order (R61): it cancels a held OFF. -/
def Drive.capstanRun (d : Drive) (speed : Int) : Drive :=
  { d with capRun := true, capSpeed := speed, capOffHeld := false }

/-- Whether a pinch-in request is admitted or already met (R63). -/
def Drive.pinchInOk (d : Drive) (moving : Bool) : Bool :=
  match d.pinch with
  | .out => d.capRun && moving
  | .goingIn | .pinched => true
  | .goingOut => false

/-- A pinch-in request (R63): it starts a full movement where it is admitted in OUT. -/
def Drive.pinchInRequest (d : Drive) (moving : Bool) (full : Nat) : Drive :=
  if d.pinch = .out ∧ d.pinchInOk moving then { d with pinch := .goingIn, pinchTime := full, pinchSpent := 0 }
  else d

/-- The end of a pinch movement (R63, R64); `law` says whether the state admits the pinch. -/
def Drive.pinchEnds (d : Drive) (law : Bool) (full : Nat) : Drive :=
  match d.pinch with
  | .goingIn =>
    if d.capRun ∧ law then { d with pinch := .pinched, pinchSpent := 0, pinchTime := 0 }
    else { d with pinch := .goingOut, pinchTime := full, pinchSpent := 0 }
  | .goingOut =>
    let d := { d with pinch := .out, pinchSpent := 0, pinchTime := 0 }
    if d.capOffHeld then d.capstanStop else d
  | .out | .pinched => d

/-- A movement is in progress and has lasted its time. -/
def Drive.pinchDue (d : Drive) : Bool :=
  (d.pinch == .goingIn || d.pinch == .goingOut) && d.pinchTime ≤ d.pinchSpent

/-- The measured capstan speed (R62): pulses in the last 20 ms times 5, with the sign of the command (log 35). -/
def Drive.measuredCapstan (d : Drive) : Int :=
  let m : Int := ((d.capWin.foldl (· + ·) 0) * 5 : Nat)
  if d.capSpeed < 0 then -m else m

/-- An always-on millisecond in the stage: the capstan window, a pinch movement, the carry timer. -/
def Drive.tick (d : Drive) : Drive :=
  { d with
    capWin := ageNat 20 d.capWin
    pinchSpent := if d.pinch = .goingIn ∨ d.pinch = .goingOut then d.pinchSpent + 1 else d.pinchSpent
    carryTimer := d.carryTimer.map (· + 1) }

/-! ## The stage within the part -/

/-- The pinch time of the working settings. -/
def Chip.pinchFull (c : Chip) : Nat := c.set.gen.pinchTime

/-- The transport state the stage judges the pinch law against (R64, R66, R68). -/
def Chip.stageState (c : Chip) : TState :=
  if c.sup.up then c.sup.ts
  else match c.drv.carry, c.drv.carryRec with
    | .held, some r => r.ts
    | _, _ => .unthreaded

/-- The states in which the pinch may be IN (R64). -/
def TState.admitsPinch : TState → Bool
  | .moving | .stopping | .catching => true
  | .unthreaded | .threaded | .tensioning | .held | .slacking | .tripped => false

/-- The stage takes orders from the supervisor and the engine: no carry is held or expired (R68, R70). -/
def Chip.listens (c : Chip) : Bool := c.sup.up && c.drv.carry == .none

/-- The brake-safe speed an emergency action is judged against: the saved one while the stage's own stop runs
(R71), the working setting otherwise (R49). -/
def Chip.brakeSafeNow (c : Chip) : Nat :=
  match c.drv.carry, c.drv.carryRec with
  | .expired, some r => r.brakeSafe
  | _, _ => c.set.gen.brakeSafe

/-- The emergency action of both reels (R49, R71), the supply's order given first (DESIGN CHOICE, log 51). -/
def emergencyBoth (c : Chip) : Chip :=
  onDrive (fun d => (d.emergency .supply c.trk.sup.surfaceSpeed c.brakeSafeNow).emergency .takeup
    c.trk.tup.surfaceSpeed c.brakeSafeNow) c

/-- The stage's own stop runs (R71). -/
def Drive.ownStop (d : Drive) : Bool := d.carry == .expired

/-- Each followed reel compared with the brake-safe speed (R49, R71), the supply first (DESIGN CHOICE, log 51). -/
def followBoth (c : Chip) : Chip :=
  onDrive (fun d => (d.followReel .supply c.trk.sup.surfaceSpeed c.brakeSafeNow).followReel .takeup
    c.trk.tup.surfaceSpeed c.brakeSafeNow) c

/-- The followed reels (R49, R71), while the transport is TRIPPED or the stage's own stop runs. -/
def followReels (c : Chip) : Chip :=
  if (c.sup.up ∧ c.sup.ts = .tripped) ∨ c.drv.ownStop then followBoth c else c

/-- The engine's capstan RUN order (R61); the second part says whether it was admitted. -/
def orderCapstanRun (speed : Int) (c : Chip) : Chip × Bool :=
  if c.sup.ts = .moving ∧ ¬ c.pins.fltCap then (onDrive (·.capstanRun speed) c, true) else (c, false)

/-- The lifters ordered (R67). -/
def orderLifters (p : Lifters) (c : Chip) : Chip := onDrive (fun d => { d with lifters := p }) c

end Sys2Proof.Machine
end

