-- ==== Sys2Proof/Machine/Settings.lean ====
section
/-! DEFINITION. The settings: their image (12.4), the clamps of a write (R74, R174), the load and the save of the store
(R175 to R178), a taken image write (R173). -/

namespace Sys2Proof.Machine

/-! ## Fields -/

/-- One field of the general settings or of a profile entry: its first byte, its bytes, its value, the value set as it
stands, and the value a write gives it, clamped against the fields in force. -/
structure Field (α : Type) where
  pos : Nat
  size : Nat
  get : α → Nat
  raw : α → Nat → α
  clamp : α → Nat → Nat

/-- The field set to the value its clamp gives. -/
def Field.put {α : Type} (f : Field α) (x : α) (v : Nat) : α := f.raw x (f.clamp x v)

/-- A field clamped to a range of its own. -/
def ranged {α : Type} (pos size lo hi : Nat) (get : α → Nat) (raw : α → Nat → α) : Field α :=
  ⟨pos, size, get, raw, fun _ v => clampNat lo hi v⟩

/-- The heartbeat periods; a value naming none becomes 1200 (R174). -/
def clampPeriod (v : Nat) : Nat := if v = 0 ∨ v = 50 ∨ v = 150 ∨ v = 400 ∨ v = 1200 then v else 1200

/-- A setting without bounds of its own within its bits. -/
def unclamped {α : Type} (pos size : Nat) (get : α → Nat) (raw : α → Nat → α) : Field α :=
  ⟨pos, size, get, raw, fun _ v => v⟩

/-- The fields of the general settings, by offset (12.4, R174). -/
def generalFields : List (Field General) :=
  [ ranged 0 2 100 3000 General.settle (fun g v => { g with settle := v })
  , ranged 2 2 0 1500 General.offDelay (fun g v => { g with offDelay := v })
  , ranged 4 2 40 400 General.pinchTime (fun g v => { g with pinchTime := v })
  , ranged 6 2 5 100 General.breakTime (fun g v => { g with breakTime := v })
  , ranged 8 2 50 2000 General.excursion (fun g v => { g with excursion := v })
  , ranged 10 2 0 2000 General.starve (fun g v => { g with starve := v })
  , ⟨12, 2, General.period, fun g v => { g with period := v }, fun _ v => clampPeriod v⟩
  , unclamped 14 1 (fun g => g.stopMode.toNat) (fun g v => { g with stopMode := v != 0 })
  , ranged 16 4 0 120000 General.catchLimit (fun g v => { g with catchLimit := v })
  , ranged 20 2 0 10000 General.brakeSafe (fun g v => { g with brakeSafe := v })
  , unclamped 24 2 (fun g => g.defaultMask.toNat) (fun g v => { g with defaultMask := BitVec.ofNat 16 v }) ]

/-- The tension ceiling of a width class (R73). -/
def widthCeiling (width : Nat) : Nat :=
  match width with
  | 0 => 250
  | 1 => 400
  | 2 => 600
  | _ => 800

/-- The narrowest width class whose ceiling is at least a tension; W50 where none is. -/
def narrowest (t : Nat) : Nat := if t ≤ 250 then 0 else if t ≤ 400 then 1 else if t ≤ 600 then 2 else 3

/-- A written width class (R74). -/
def clampWidth (p : Profile) (v : Nat) : Nat :=
  let w := min v 3
  if widthCeiling w < p.maxTension then narrowest p.maxTension else w

/-- A written arm level between its neighbours; the value in force where no whole value lies between (R74). -/
def clampLevel (lo hi old v : Nat) : Nat := if lo ≤ hi then clampNat lo hi v else old

/-- The fields of a profile entry, by offset (12.4, R73, R74). -/
def profileFields : List (Field Profile) :=
  [ unclamped 0 8 (fun p => p.label.toNat) (fun p v => { p with label := BitVec.ofNat 64 v })
  , unclamped 8 1 (fun p => p.valid.toNat) (fun p v => { p with valid := v != 0 })
  , ⟨9, 1, Profile.width, fun p v => { p with width := v }, clampWidth⟩
  , ⟨10, 2, Profile.park, fun p v => { p with park := v }, fun p v => min v p.maxTension⟩
  , ⟨12, 2, Profile.nominal, fun p v => { p with nominal := v }, fun p v => min v p.maxTension⟩
  , ⟨14, 2, Profile.wind, fun p v => { p with wind := v }, fun p v => min v p.maxTension⟩
  , ⟨16, 2, Profile.maxTension, fun p v => { p with maxTension := v },
      fun p v => clampNat (max p.park (max p.nominal p.wind)) (widthCeiling p.width) v⟩
  , ⟨18, 2, Profile.slack, fun p v => { p with slack := v },
      fun p v => if p.low = 0 then p.slack else clampLevel 0 (p.low - 1) p.slack v⟩
  , ⟨20, 2, Profile.low, fun p v => { p with low := v }, fun p v => clampLevel (p.slack + 1) (p.high - 1) p.low v⟩
  , ⟨22, 2, Profile.high, fun p v => { p with high := v }, fun p v => clampLevel (p.low + 1) (p.overLevel - 1) p.high v⟩
  , ⟨24, 2, Profile.overLevel, fun p v => { p with overLevel := v }, fun p v => clampLevel (p.high + 1) 4095 p.overLevel v⟩
  , ⟨26, 2, Profile.hub, fun p v => { p with hub := v },
      fun p v => clampNat 200 (min (p.full - 1) (p.full - p.nearMargin)) v⟩
  , ⟨28, 2, Profile.full, fun p v => { p with full := v },
      fun p v => clampNat (max (p.hub + 1) (p.hub + p.nearMargin)) 2000 v⟩
  , ⟨30, 2, Profile.nearMargin, fun p v => { p with nearMargin := v }, fun p v => min v (p.full - p.hub)⟩
  , ⟨32, 3, Profile.nearSpeed, fun p v => { p with nearSpeed := v }, fun p v => min v p.maxSpeed⟩
  , ⟨35, 3, Profile.maxSpeed, fun p v => { p with maxSpeed := v }, fun p v => clampNat p.nearSpeed 120000 v⟩
  , ranged 38 3 0 120000 Profile.lifterSpeed (fun p v => { p with lifterSpeed := v })
  , ranged 42 2 100 30000 Profile.maxAccel (fun p v => { p with maxAccel := v })
  , ranged 44 2 10 10000 Profile.creepSpeed (fun p v => { p with creepSpeed := v })
  , ranged 46 2 0 32000 Profile.creepDistance (fun p v => { p with creepDistance := v }) ]

/-- Whether a write of the word at byte `w` enables byte `p`. -/
def enablesByte (w : Nat) (be : Enables) (p : Nat) : Bool := decide (w ≤ p ∧ p < w + 4) && be.getLsbD (p - w)

/-- Byte `i` of a field. -/
def Field.byte {α : Type} (f : Field α) (x : α) (i : Nat) : Byte := BitVec.ofNat 8 (f.get x / 256 ^ i)

/-- A field given a write of the word at byte `w`: written where an enabled byte falls in it (R74, R174). -/
def Field.write {α : Type} (f : Field α) (w : Nat) (data : Word) (be : Enables) (x : α) : α :=
  if (List.range f.size).any (fun i => enablesByte w be (f.pos + i)) then
    f.put x (natOfBytes ((List.range f.size).map fun i =>
      if enablesByte w be (f.pos + i) then byteOf data (f.pos + i - w) else f.byte x i))
  else x

/-- A written word taken field by field in the order of increasing offset (R74). -/
def writeFields {α : Type} (fs : List (Field α)) (w : Nat) (data : Word) (be : Enables) (x : α) : α :=
  fs.foldl (fun x f => f.write w data be x) x

/-- The image byte at an offset; 0 where it holds no field (R186). -/
def fieldByte {α : Type} (fs : List (Field α)) (x : α) (p : Nat) : Byte :=
  match fs.find? (fun f => decide (f.pos ≤ p ∧ p < f.pos + f.size)) with
  | some f => f.byte x (p - f.pos)
  | none => 0

/-- Fields loaded from bytes: taken as they stand, then each clamped in offset order (R178). -/
def loadFields {α : Type} (fs : List (Field α)) (bytes : List Byte) (x : α) : α :=
  let x := fs.foldl (fun x f => f.raw x (natOfBytes ((bytes.drop f.pos).take f.size))) x
  fs.foldl (fun x f => f.put x (f.get x)) x

/-! ## The image and the store -/

/-- The bytes of the general settings. -/
def generalBytes (g : General) : List Byte := (List.range 64).map (fieldByte generalFields g)

/-- The bytes of a profile entry. -/
def profileBytes (p : Profile) : List Byte := (List.range 48).map (fieldByte profileFields p)

/-- Bytes 0..510 of the image (R173). -/
def Store.body (s : Store) : List Byte :=
  generalBytes s.gen ++ s.profs.flatMap profileBytes ++ List.replicate 63 0

/-- The image: the body and its CRC-8 (R173). -/
def Store.image (s : Store) : List Byte := s.body ++ [crc8 s.body]

/-- Writes of whole words from a window offset on, all bytes enabled. -/
def wordWrites : Nat → List Byte → List PartWrite
  | off, a :: b :: c :: d :: rest => ⟨off, wordOf a b c d, allBytes⟩ :: wordWrites (off + 4) rest
  | _, _ => []

/-- The 128 writes of the whole image (R177, R178). -/
def Store.imageWrites (s : Store) : List PartWrite := wordWrites settingsOffset s.image

/-- The word of the image at a byte offset. -/
def Store.imageWord (s : Store) (p : Nat) : Word :=
  let b := s.image.drop p
  wordOf (b.getD 0 0) (b.getD 1 0) (b.getD 2 0) (b.getD 3 0)

/-- A read of the store passes its check (R178). -/
def storePasses (bytes : List Byte) : Bool := crc8 (bytes.take 511) == bytes.getD 511 0

/-- The 512 bytes a read of the non-volatile store gives (R177, R178): its content, but for what the read gets wrong. -/
def readStore (nv : List Byte) (errors : ReadErrors) : List Byte := errors.foldl (fun bs e => bs.set e.1.toNat e.2) nv

/-- The bytes the next read of the store gives (log 32). -/
def Store.nextRead (s : Store) : List Byte := readStore s.nv (s.coming.headD [])

/-- The store once that read is made. -/
def Store.readMade (s : Store) : Store := { s with coming := s.coming.tail }

/-- The working settings loaded from the bytes of a read (R178). -/
def Store.load (s : Store) (bytes : List Byte) : Store :=
  { s with
    gen := loadFields generalFields (bytes.take 64) General.default
    profs := (List.range 8).map fun n => loadFields profileFields ((bytes.drop (64 + 48 * n)).take 48) Profile.default }

/-- The working settings at their defaults (R75, R174). -/
def Store.defaults (s : Store) : Store :=
  { s with gen := General.default, profs := List.replicate 8 Profile.default }

/-- The store after the first `k` of a save's 513 writes (R175, R176). It is R175's bytes: should the mixed bytes happen
to have the inverted CRC, it passes its check, where R176 says that it fails (log 50). -/
def storeAfter (k : Nat) (nv image : List Byte) : List Byte :=
  if k = 0 then nv
  else
    let n := min (k - 1) 511
    image.take n ++ (nv.take 511).drop n ++ [if 513 ≤ k then image.getD 511 0 else ~~~ crc8 (nv.take 511)]

/-- A save that a reset stops where it stands (R176, log 13). -/
def Store.stopSave (s : Store) (k : Nat) : Store :=
  if s.saving then { s with nv := storeAfter (min k 513) s.nv s.image } else s

/-- A profile entry of the working settings. -/
def Store.prof (s : Store) (i : Nat) : Profile := s.profs.getD i Profile.default

/-- The profile the supervisor applies; the default entry stands in where none is threaded (log 38). -/
def Chip.profile (c : Chip) : Profile :=
  match c.sup.threaded with
  | some i => c.set.prof i.val
  | none => Profile.default

/-! ## Image writes -/

/-- The states in which SAVE_SETTINGS and RELOAD_SETTINGS are admitted, with both reels stopped (R175, R177). -/
def Chip.admitsStore (c : Chip) : Bool :=
  (c.sup.ts == .unthreaded || c.sup.ts == .threaded || c.sup.ts == .held || c.sup.ts == .tripped)
    && c.trk.reelsStopped

/-- A save or a reload in RUN (R168, R173): one that runs, or one that its own row, still to come, would admit (10.2;
log 49). -/
def Chip.settingsBusy (c : Chip) : Bool :=
  match c.mbx.st, c.mbx.cmd with
  | .run, some cmd =>
    (cmd.code == cmdSaveSettings || cmd.code == cmdReloadSettings) &&
      (c.set.saving || c.set.reloading || (c.set.isOpen && c.admitsStore))
  | _, _ => false

/-- The states in which the general settings take no image write (R173). -/
def TState.locksGeneral : TState → Bool
  | .moving | .stopping | .tensioning | .slacking | .catching => true
  | .unthreaded | .threaded | .held | .tripped => false

/-- The states in which the threaded profile's entry takes image writes (R173). -/
def TState.opensThreaded : TState → Bool
  | .unthreaded | .threaded | .tripped => true
  | .tensioning | .held | .moving | .stopping | .slacking | .catching => false

/-- The profile entry a byte of the image lies in. -/
def entryOf (p : Nat) : Option Nat := if 64 ≤ p ∧ p < 448 then some ((p - 64) / 48) else none

/-- The WRITE_DROPPED detail of an image write that is not taken; none where it is taken (R173). -/
def imageDrop (p : Nat) (c : Chip) : Option Nat :=
  if !c.set.isOpen then some 4
  else if c.settingsBusy then some 5
  else if p < 64 ∧ c.sup.ts.locksGeneral then some 6
  else if entryOf p ≠ none ∧ entryOf p = c.sup.threaded.map Fin.val ∧ !c.sup.ts.opensThreaded then some 6
  else none

/-- The working settings after a taken write of the word at image byte `p` (R74, R174). -/
def Store.takeWrite (s : Store) (p : Nat) (data : Word) (be : Enables) : Store :=
  if p < 64 then { s with gen := writeFields generalFields p data be s.gen }
  else match entryOf p with
    | some n => { s with profs := s.profs.set n (writeFields profileFields (p - 64 - 48 * n) data be (s.prof n)) }
    | none => s

/-- The word that holds the CRC. -/
def crcWordPos : Nat := 508

/-- The words of the image beside the written one at byte `p` that the clamp of a 24-bit field changed, and the word of
the CRC where that changed (R74, R174; log 42). -/
def Store.otherWrites (old new : Store) (p : Nat) : List PartWrite :=
  [p - 4, p + 4, crcWordPos].filterMap fun q =>
    if q = p ∨ old.imageWord q = new.imageWord q then none
    else some ⟨settingsOffset + q, new.imageWord q, allBytes⟩

/-- A taken image write (R173, R174): the settings, the monitor disarmed where the period's bytes are enabled, the other
words it changed posted. The word memory receives is `Store.imageWord` of the settings then. -/
def takeImageWrite (p : Nat) (data : Word) (be : Enables) (c : Chip) : Chip :=
  let new := c.set.takeWrite p data be
  let others := c.set.otherWrites new p
  let c := onSet (fun _ => new) c
  let c := if enablesByte p be 12 || enablesByte p be 13 then onMon (fun _ => ⟨.disarmed, 0⟩) c else c
  postWrites .settings others c

end Sys2Proof.Machine
end

