-- ==== Sys2Proof/Machine/Grant.lean ====
section
/-! DEFINITION. The grant unit (ch. 5): the checks on choices, the speed limits, the trim re-clamp, a grant made, derated,
re-checked or dropped. -/

namespace Sys2Proof.Machine

/-- Choice `k` of a request's data (12.3). -/
def choiceOf (data : List Byte) (k : Nat) : Choice :=
  let d := data.drop (16 * k)
  { profile := (d.getD 0 0).toNat
    codes := d.getD 1 0
    wind := d.getD 2 0 != 0
    maxSpeed := natOfBytes ((d.drop 4).take 4)
    accel := natOfBytes ((d.drop 8).take 4)
    vari := natOfBytes ((d.drop 12).take 2) }

/-- The choices of a request (R78). -/
def choicesOf (data : List Byte) : List Choice := (List.range (data.length / 16)).map (choiceOf data)

/-- Whether a play code set allows a code (12.3). -/
def Choice.allows (ch : Choice) (code : PlayCode) : Bool := ch.codes.getLsbD code.bit

/-- The outcome of the checks on one choice: the first check that fails decides it (R78). -/
def checkChoice (c : Chip) (ch : Choice) : ChoiceOutcome :=
  let p := c.set.prof ch.profile
  if 7 < ch.profile ∨ p.valid = false ∨ ¬ (ch.accel = 0 ∨ (100 ≤ ch.accel ∧ ch.accel ≤ 30000)) ∨ 16 ≤ ch.codes.toNat then
    .invalid
  else if c.gnt.threaded.map Fin.val ≠ some ch.profile then .mismatch
  else if p.maxSpeed < ch.maxSpeed ∨ p.maxAccel < ch.accel ∨ 2000 < ch.vari then .exceeds
  else .passed

/-- The outcomes of a request in one byte; a position beyond its count is INVALID (R187). -/
def outcomesByte (os : List ChoiceOutcome) : Byte :=
  let o (k : Nat) : Nat := (os.getD k .invalid).code
  BitVec.ofNat 8 (o 0 + 4 * o 1 + 16 * o 2 + 64 * o 3)

/-- A choice as recorded: an acceleration of 0 becomes the profile's (R78). -/
def recordChoice (c : Chip) (ch : Choice) : Choice :=
  if ch.accel = 0 then { ch with accel := (c.set.prof ch.profile).maxAccel } else ch

/-- The PASSED choices of a request with their positions, in order (R79). -/
def passedChoices (c : Chip) (chs : List Choice) : List Granted :=
  (List.range chs.length).filterMap fun k =>
    match chs[k]? with
    | some ch => if checkChoice c ch = .passed then some ⟨recordChoice c ch, k⟩ else none
    | none => none

/-! ## Speed limits (R87) -/

/-- The reel that pays tape out in a direction. -/
def payingReel : Dir → Reel
  | .forward => .supply
  | .reverse => .takeup

/-- The profile the grant unit works with, from its own copy of the index (R76). -/
def Chip.grantProfile (c : Chip) : Profile :=
  match c.gnt.threaded with
  | some i => c.set.prof i.val
  | none => Profile.default

/-- The near condition of a direction (R87). -/
def nearCondition (c : Chip) (d : Dir) : Bool :=
  let r := (c.trk.reel (payingReel d)).radius
  decide (r ≠ 0 ∧ r ≤ c.grantProfile.hub + c.grantProfile.nearMargin)

/-- The speed limit of a direction, a magnitude (R87). -/
def speedLimit (c : Chip) (d : Dir) : Nat :=
  match c.gnt.active with
  | none => 0
  | some g => if nearCondition c d then min g.choice.maxSpeed c.grantProfile.nearSpeed else g.choice.maxSpeed

/-! ## The trim -/

/-- The trim's range (R89). -/
def GrantUnit.variRange (g : GrantUnit) : Nat :=
  match g.active with
  | some a => a.choice.vari
  | none => 0

/-- The trim re-clamped after a change of the active grant (R90). -/
def reclampTrim (c : Chip) : Chip :=
  let new := clampInt c.gnt.variRange c.gnt.trim
  if new = c.gnt.trim then c
  else
    let old := c.gnt.trim
    let c := onGnt (fun g => { g with trim := new }) c
    let c := postWrite .grant ⟨trimOffset, wordOfInt new, allBytes⟩ c
    postNotice .trimClamped (postEvent .trimClamped 2 0 old c)

/-- The grant records replaced; what this posts of the trim comes with it (R90). -/
def setGrant (active : Option Granted) (fallback : List Granted) (c : Chip) : Chip :=
  reclampTrim (onGnt (fun g => { g with active := active, fallback := fallback }) c)

/-! ## Grants made and dropped -/

/-- GRANT_DROPPED values (12.8). -/
def droppedReplaced : Int := 1
def droppedState : Int := 2
def droppedCommand : Int := 3
def droppedSettings : Int := 4

/-- An active grant dropped, with its fallback list (R83, R84, R85). -/
def dropActive (value : Int) (c : Chip) : Chip :=
  match c.gnt.active with
  | some _ => setGrant none [] (postEvent .grantDropped 1 0 value c)
  | none => c

/-- A pending request cancelled (R82, R83). -/
def cancelPending (value : Int) (c : Chip) : Chip :=
  match c.gnt.request with
  | some _ => postEvent .grantDropped 2 0 value (onGnt (fun g => { g with request := none }) c)
  | none => c

/-- A request evaluated in HELD (R79): the grant made, where a choice passes. -/
def evaluateRequest (chs : List Choice) (c : Chip) : Chip :=
  match passedChoices c chs with
  | g :: rest => setGrant (some g) rest c
  | [] => c

/-- The outcomes of a request as the reply's detail gives them (R78, R187). -/
def requestOutcomes (chs : List Choice) (c : Chip) : Byte := outcomesByte (chs.map (checkChoice c))

/-- The pending request resolved on entry into HELD (R81). -/
def resolvePending (c : Chip) : Chip :=
  match c.gnt.request with
  | none => c
  | some chs =>
    let outcomes := (requestOutcomes chs c).toNat
    let passed := passedChoices c chs
    let c := onGnt (fun g => { g with request := none }) c
    let c := match passed with
      | g :: _ => postEvent .grantResolved Result.granted.code 0 ((outcomes + 256 * g.position : Nat) : Int) c
      | [] => postEvent .grantResolved Result.refused.code 0 (outcomes : Int) c
    evaluateRequest chs (postNotice .grantChanged c)

/-- The states in which the grant unit answers a derate request (R86). -/
def TState.takesDerate : TState → Bool
  | .moving | .stopping | .held => true
  | .unthreaded | .threaded | .tensioning | .slacking | .tripped | .catching => false

/-- A derate: the head of the fallback list becomes active (R86). -/
def derateTo (g : Granted) (rest : List Granted) (c : Chip) : Chip :=
  let c := postNotice .grantChanged (postEvent .grantDerated 1 c.curTag g.position c)
  setGrant (some g) rest c

/-- What the re-check after a reload leaves (R85): a grant whose choices have all failed is to be dropped, with the rings
flushed, which the caller does. -/
def recheckKeeps (c : Chip) (g : Granted) : Bool := checkChoice c g.choice = .passed

/-- The re-check of R85 where the active grant or a fallback passes. -/
def recheckGrant (c : Chip) : Chip :=
  match c.gnt.active with
  | none => c
  | some a =>
    let kept := c.gnt.fallback.filter (recheckKeeps c)
    if recheckKeeps c a then
      if kept.length = c.gnt.fallback.length then c
      else onGnt (fun g => { g with fallback := kept }) (postEvent .grantDerated 2 0 a.position c)
    else match kept with
      | g :: rest => setGrant (some g) rest (postNotice .grantChanged (postEvent .grantDerated 2 0 g.position c))
      | [] => c

/-- The re-check of R85 finds nothing that passes, and drops the grant. -/
def recheckDrops (c : Chip) : Bool :=
  match c.gnt.active with
  | none => false
  | some a => !recheckKeeps c a && (c.gnt.fallback.filter (recheckKeeps c)).isEmpty

end Sys2Proof.Machine
end

