-- ==== Sys2Proof/Machine/Plan.lean ====
section
/-! DEFINITION. The plan intake (ch. 6): the rings, takes, returns and flushes, the screen of a hand-off, and the end of a
current segment as the engine reports it (R135). -/

namespace Sys2Proof.Machine

/-- A ring of the intake. -/
def Plan.ring (p : Plan) : RingId → Ring
  | .urgent => p.urgent
  | .main => p.main

/-- The intake with a ring replaced. -/
def Plan.withRing (p : Plan) (id : RingId) (r : Ring) : Plan :=
  match id with
  | .urgent => { p with urgent := r }
  | .main => { p with main := r }

/-- The slot at an index. -/
def Ring.slot (r : Ring) (i : Nat) : Slot := r.slots.getD i ⟨.host, none⟩

/-- The ring with a slot replaced. -/
def Ring.withSlot (r : Ring) (i : Nat) (s : Slot) : Ring := { r with slots := r.slots.set i s }

/-- The index after another, in ring order. -/
def Ring.after (r : Ring) (i : Nat) : Nat := (i + 1) % r.slots.length

/-- The index before another, in ring order. -/
def Ring.before (r : Ring) (i : Nat) : Nat := (i + (r.slots.length - 1)) % r.slots.length

/-- A record of zeros, which stands where a slot holds none. -/
def Record.blank : Record := ⟨0, 0, 0, 0, 0, 0⟩

/-- A hand-off accepted at the intake index (R93, R99). -/
def Ring.accept (r : Ring) (rec : Record) : Ring :=
  { r.withSlot r.intake ⟨.queued, some rec⟩ with intake := r.after r.intake, queued := r.queued + 1 }

/-- The newest queued slot recalled (R93, R102). -/
def Ring.recall (r : Ring) : Ring :=
  let i := r.before r.intake
  { r.withSlot i ⟨.host, none⟩ with intake := i, queued := r.queued - 1 }

/-- The slot at the take index taken (R93, R104). -/
def Ring.taken (r : Ring) : Ring :=
  { r.withSlot r.take ⟨.current, (r.slot r.take).record⟩ with take := r.after r.take, queued := r.queued - 1 }

/-- The queued slots, oldest first (R93). -/
def Ring.queuedSlots (r : Ring) : List Nat := (List.range r.queued).map fun k => (r.take + k) % r.slots.length

/-- The views of some slots become HOST. -/
def Ring.free (r : Ring) (is : List Nat) : Ring := is.foldl (fun r i => r.withSlot i ⟨.host, none⟩) r

/-- A ring emptied by a flush (R93, R107). -/
def Ring.flushed (r : Ring) : Ring := { r.free r.queuedSlots with take := r.intake, queued := 0 }

/-- A flush of one ring (R107). -/
def flushRing (id : RingId) (st : Status) (c : Chip) : Chip :=
  let r := c.pln.ring id
  let returns := r.queuedSlots.map fun i => SlotWrite.ret id i st c.trk.position c.clock
  onPln (fun p => { p.withRing id r.flushed with list := p.list ++ returns }) c

/-- A flush of both rings: the urgent ring, then the main ring (R107). -/
def flushBoth (st : Status) (c : Chip) : Chip := flushRing .main st (flushRing .urgent st c)

/-- The current segment ended with a status (R92, R135): its slot is HOST, its return on the list, and REPORT posts. -/
def endCur (st : Status) (c : Chip) : Chip :=
  match c.eng.cur with
  | none => c
  | some seg =>
    let c := onPln (fun p => { p.withRing seg.ring ((p.ring seg.ring).withSlot seg.slot ⟨.host, none⟩) with
      list := p.list ++ [SlotWrite.ret seg.ring seg.slot st c.trk.position c.clock] }) c
    let c := onEng (fun e => { e with cur := none }) c
    if seg.record.report then
      postNotice .segmentReported
        (postEvent .segmentReported st.code seg.record.tag (slotOffset seg.ring seg.slot : Nat) c)
    else c

/-! ## The screen -/

/-- The target of a position end lies in the counter's range (R97). -/
def positionEndOk (r : Record) : Bool :=
  if r.positionEnd then positionInRange r.target else decide (r.duration ≤ 3600000)

/-- The fields a kind uses lie in range (R97). -/
def fieldsOk (k : Kind) (r : Record) : Bool :=
  decide (r.accel = 0 ∨ (100 ≤ r.accel ∧ r.accel ≤ 30000)) &&
  match k with
  | .spool => speedInRange r.speed && positionEndOk r
  | .play => r.playCode?.isSome && decide (r.speed ≠ 0) && speedInRange r.speed && positionEndOk r
  | .locate => decide (r.speed ≠ 0) && speedInRange r.speed && decide (r.tolerance ≤ 4095) &&
      (if r.useCue then decide (0 ≤ r.target ∧ r.target ≤ 31) && positionInRange r.offset
        else positionInRange r.target)
  | .dwell => decide (r.duration ≤ 3600000)
  | .stop => true
  | .wind => decide (r.speed ≠ 0) && speedInRange r.speed

/-- The speed the screen compares with the grant (R98). -/
def screenSpeed (k : Kind) (r : Record) : Nat :=
  match k with
  | .spool | .wind | .locate => r.speed.natAbs
  | .play => r.playSpeed
  | .dwell | .stop => 0

/-- The record asks no more than the grant allows (R98). -/
def withinGrant (g : Choice) (k : Kind) (r : Record) : Bool :=
  decide (screenSpeed k r ≤ g.maxSpeed) && decide (r.accel ≤ g.accel) &&
  match k with
  | .play => (r.playCode?.map g.allows).getD false
  | .wind => g.wind
  | .spool | .locate | .dwell | .stop => true

/-- The cue entry a record names (R96, R142). -/
def cueOf (c : Chip) (r : Record) : Option Cue := c.cue.cues.getD r.target.toNat none

/-- The states in which a hand-off may be accepted (R96). -/
def TState.takesPlan : TState → Bool
  | .held | .moving | .stopping => true
  | .unthreaded | .threaded | .tensioning | .slacking | .tripped | .catching => false

/-- The screen of a fetched record: the first check that fails gives the refusal (R96). -/
def screen (c : Chip) (r : Record) (aborted : Bool) : Option RefCode :=
  if !c.sup.ts.takesPlan then some .notReady
  else if c.sup.latch then some .latched
  else match r.kind? with
  | none => some .kind
  | some k =>
    if !fieldsOk k r then some .field
    else if k.moving ∧ c.gnt.active = none then some .noGrant
    else if !((c.gnt.active.map fun g => withinGrant g.choice k r).getD true) then some .overGrant
    else if k = .locate ∧ c.trk.valid = false then some .noPosition
    else if k = .locate ∧ r.useCue ∧ cueOf c r = none then some .noCue
    else if aborted then some .memory
    else none

/-- A hand-off refused (R100): the event, with the notice. -/
def postRefused (id : RingId) (slot : Nat) (code : RefCode) (tag : Nat) (c : Chip) : Chip :=
  postNotice .segmentRefused (postEvent .segmentRefused code.code tag (slotOffset id slot : Nat) c)

/-- The words a hand-off fetches, in increasing order (R95). -/
def fetchWords (be : Enables) : List Nat := if be = allBytes then [1, 2, 3, 4, 5, 6, 7] else [0, 1, 2, 3, 4, 5, 6, 7]

/-- A word of a fetch as read. -/
def HandFetch.word (h : HandFetch) (k : Nat) : Word := (h.got.lookup k).getD 0

/-- The record as the screen judges it: word 0 as it will stand once the write is made (R95). -/
def HandFetch.record (h : HandFetch) : Record :=
  ⟨merge h.be h.data (h.word 0), h.word 1, h.word 2, h.word 3, h.word 4, h.word 5⟩

/-- The owner byte of an accepted slot: PART, QUEUED. -/
def acceptedByte : Byte := BitVec.ofNat 8 (0x80 + queuedCode)

/-- A write with its owner byte rewritten and enabled (R99, R100, R102). -/
def withOwner (data : Word) (be : Enables) (b : Byte) : Word × Enables := (withByte0 data b, be ||| ownerByteOnly)

end Sys2Proof.Machine
end

