-- ==== Sys2Proof/Machine/Supervisor.lean ====
section
/-! DEFINITION. The tension supervisor (ch. 2, 3): the change of the transport state, trips and controlled stops, the
tension reference, the reel torques, the lifter rule. -/

namespace Sys2Proof.Machine

/-! ## The tension reference (R24) -/

/-- The time of a movement of the reference, ms. -/
def rampTime : Nat := 250

/-- The value reached, as a fraction. -/
def Ramp.value (r : Ramp) : Nat × Nat :=
  if rampTime ≤ r.elapsed then (r.goal, 1)
  else
    let n := r.num * (rampTime - r.elapsed) + r.goal * r.den * r.elapsed
    let d := r.den * rampTime
    let g := Nat.gcd n d
    (n / g, d / g)

/-- A new movement from the value reached. -/
def Ramp.moveTo (r : Ramp) (goal : Nat) : Ramp := ⟨r.value.1, r.value.2, goal, 0⟩

/-- A millisecond of a movement. -/
def Ramp.tick (r : Ramp) : Ramp := if r.elapsed < rampTime then { r with elapsed := r.elapsed + 1 } else r

/-- A value at rest. -/
def Ramp.at (v : Nat × Nat) : Ramp := ⟨v.1, v.2, v.1 / v.2, 0⟩

/-- The reference is above 0. -/
def Supervisor.tense (s : Supervisor) : Bool := s.tension.value.1 != 0

/-- A WIND is current (R24, R128). -/
def Chip.windCurrent (c : Chip) : Bool :=
  match c.eng.cur with
  | some seg => seg.kind == .wind
  | none => false

/-- The value R24 calls for; none where the state's own ramp, or a claim outstanding, governs. -/
def tensionGoal (c : Chip) : Option Nat :=
  match c.sup.ts with
  | .unthreaded | .threaded | .tripped => some 0
  | .tensioning | .slacking => none
  | .held => some c.profile.park
  | .moving => some (if c.windCurrent then c.profile.wind else c.profile.nominal)
  | .stopping => some c.profile.nominal
  | .catching => if c.sup.claimPending then none else some c.profile.nominal

/-- The reference set on its way to the value R24 calls for, in a new movement where that value has changed. -/
def retarget (c : Chip) : Chip :=
  match tensionGoal c with
  | some g => if c.sup.tension.goal = g then c else onSup (fun s => { s with tension := s.tension.moveTo g }) c
  | none => c

/-- The reference on entry into a state from another (R24). SLACKING entered from CATCHING falls from nominal tension, as
the text of R24 and R55 say, wherever the movement to nominal then stands (log 46). An entry into HELD starts a new
movement even where park equals the value called for before it; HELD to MOVING starts one only where the value changes
(DESIGN CHOICE, log 56). -/
def entryRamp (old new : TState) (p : Profile) (r : Ramp) : Ramp :=
  match new with
  | .unthreaded | .threaded | .tripped => .zero
  | .tensioning => ⟨0, 1, p.park, 0⟩
  | .slacking => if old = .catching then ⟨p.nominal, 1, 0, 0⟩ else r.moveTo 0
  | .held => r.moveTo p.park
  | .moving | .stopping | .catching => r

/-! ## Torques (R25) -/

/-- One reel's torque command (R25; its sizes, and the base taken toward zero to a whole number: log 14). -/
def torqueOf (c : Chip) (r : Reel) : Int :=
  let v := c.sup.tension.value
  let m := c.trk.reel r
  let p := c.profile
  if v.1 = 0 then 0
  else
    let base := v.1 * m.radiusOr / v.2
    let corr : Int := Config.armCorrection c.free m.arm.toNat base
    let arm : Int := if 2 * m.arm.toNat < p.low + p.high then corr
      else if p.low + p.high < 2 * m.arm.toNat then -corr else 0
    let driven := c.sup.ts.admitsPinch && !(c.drv.capRun && c.drv.pinch == .pinched)
    let push : Int := Config.packBias c.free c.eng.ref c.trk.tapeSpeed
    let bias : Int := if !driven then 0
      else if c.trk.tapeSpeed < c.eng.ref then (if r = .takeup then push else -push)
      else if c.eng.ref < c.trk.tapeSpeed then (if r = .takeup then -push else push) else 0
    clampInt (p.maxTension * m.radiusOr) (base + arm + bias)

/-- A torque passed to a reel in TORQUE (R58). -/
def ReelOut.torqued (o : ReelOut) (t : Int) : ReelOut := if o.mode = .torque then { o with torque := t } else o

/-- The torques formed anew for the reels in TORQUE (R25, R58). -/
def formTorques (c : Chip) : Chip :=
  if c.listens then
    { onDrive (fun d => { d with
        sup := d.sup.torqued (torqueOf c .supply), tup := d.tup.torqued (torqueOf c .takeup) }) c with
      free := c.free + 1 }
  else c

/-! ## The change of the transport state (R17) -/

/-- The states in which the break timer runs (R26). -/
def TState.runsBreak : TState → Bool
  | .held | .moving | .stopping | .catching => true
  | .unthreaded | .threaded | .tensioning | .slacking | .tripped => false

/-- The states in which the excursion timer runs (R36). -/
def TState.runsExcursion : TState → Bool
  | .held | .moving | .stopping => true
  | .unthreaded | .threaded | .tensioning | .slacking | .tripped | .catching => false

/-- Either arm is SLACK. -/
def Supervisor.slackArm (s : Supervisor) : Bool := s.clsSup == .slack || s.clsTup == .slack

/-- An arm is LOW or HIGH. -/
def outOfBand (a : ArmClass) : Bool := a == .low || a == .high

/-- Either arm is LOW or HIGH. -/
def Supervisor.strayArm (s : Supervisor) : Bool := outOfBand s.clsSup || outOfBand s.clsTup

/-- A timer of a group of states across a change: kept within the group, started on entry where its condition stands. -/
def carryTimer (was runs cond : Bool) (t : Option Nat) : Option Nat :=
  if !runs then none else if was then t else if cond then some 0 else none

/-- States in which no profile's work goes on: entry drops the active grant (R84). -/
def TState.dropsGrant : TState → Bool
  | .slacking | .threaded | .unthreaded | .tripped => true
  | .tensioning | .held | .moving | .stopping | .catching => false

/-- The grant unit's part of an entry, made within the transition (R82, R84). -/
def enterGrant (new : TState) (c : Chip) : Chip :=
  let c := if new.dropsGrant then dropActive droppedState c else c
  if new.dropsGrant ∧ new ≠ .threaded then cancelPending droppedState c else c

/-- The threaded profile index none, with the classes it gave, and the grant unit's copy (R19, R23, R76). -/
def unthread (c : Chip) : Chip :=
  onGnt (fun g => { g with threaded := none })
    (onSup (fun s => { s with threaded := none, clsSup := .none, clsTup := .none }) c)

/-- The engine IDLE, every request withdrawn (R111, R136). -/
def idleEngine (c : Chip) : Chip := onEng (fun _ => Engine.reset) c

/-- The supervisor's own fields on entry into a state. -/
def Supervisor.entered (s : Supervisor) (new : TState) (p : Profile) : Supervisor :=
  { s with
    ts := new
    brk := carryTimer s.ts.runsBreak new.runsBreak s.slackArm s.brk
    exc := carryTimer s.ts.runsExcursion new.runsExcursion s.strayArm s.exc
    settle := if new = .tensioning then some 0 else none
    off := none
    tension := entryRamp s.ts new p s.tension
    catchHold := false }

/-- The stage's part of an entry: the emergency release outside MOVING, STOPPING and CATCHING (R66), and the OFF and
ENGAGED orders of UNTHREADED and THREADED (R25). The lifters stand: R66 orders none, but for a trip's own (DESIGN CHOICE,
log 57). -/
def enterStage (new : TState) (c : Chip) : Chip :=
  let c := if new.admitsPinch then c else onDrive (·.release c.pinchFull) c
  match new with
  | .unthreaded | .threaded => onDrive (·.orderBoth .off 0 true) c
  | .tensioning | .held | .moving | .stopping | .slacking | .tripped | .catching => c

/-- A change of the transport state, announced and handed to the other blocks (R17). -/
def enter (new : TState) (c : Chip) : Chip :=
  let old := c.sup.ts
  let c := enterGrant new c
  let c := if new = .unthreaded then unthread c else c
  let c := onSup (fun s => s.entered new c.profile) c
  let c := postNotice .stateChanged (postEvent .stateChanged new.code c.curTag old.code c)
  let c := enterStage new c
  let c := if new.dropsGrant then idleEngine c else c
  if new = .held then resolvePending c else c

/-! ## Trips (R29, R30) -/

/-- The carry gone: its timer stopped, its status NONE (R70, R71). -/
def Drive.dropCarry (d : Drive) : Drive := { d with carry := .none, carryRec := none, carryTimer := none }

/-- The claim of a carry still held, with its event (R70, R57); an expired one is taken over without it (R71). -/
def claimCarry (c : Chip) : Chip :=
  match c.drv.carry, c.drv.carryRec with
  | .held, some r => postEvent .catchClaimed r.ts.code 0 c.trk.maxSurface (onDrive (·.dropCarry) c)
  | _, _ => onDrive (·.dropCarry) c

/-- POSITION_VALID lost to a trip (R3). -/
def losePosition (detail : Nat) (c : Chip) : Chip :=
  if c.trk.valid then postTrackerEvent .positionLost detail (onTrk (fun t => { t with valid := false }) c) else c

/-- The current segment is a LOCATE (R148). -/
def Chip.locateCurrent (c : Chip) : Bool :=
  match c.eng.cur with
  | some seg => seg.kind == .locate
  | none => false

/-- The loss of the position a trip brings (R29), and the LOCATE it may end first (R148, log 19). -/
def tripPosition (cause : TripCause) (c : Chip) : Chip :=
  match cause with
  | .tapeBreak =>
    let c := if c.trk.valid ∧ c.locateCurrent ∧ Config.lossBeforeTrip c.free then endCur .missed c else c
    losePosition 3 { c with free := c.free + 1 }
  | .pathLost => losePosition 3 c
  | .none | .armOver | .powerLoss | .driveFault | .catchFailed => c

/-- The first trip's entry in the fault word (R29, R35). -/
def Supervisor.tripWord (s : Supervisor) (cause : TripCause) (side : Side) : Supervisor :=
  if s.trip = .none then { s with trip := cause, side := side } else s

/-- The reels at a trip: under the stage's own stop they are taken over where it stands and followed on (R53, R71);
otherwise each is given its emergency action (R49). -/
def tripReels (ownStop : Bool) (c : Chip) : Chip := if ownStop then followBoth c else emergencyBoth c

/-- The outputs of a trip: the reels, the release, the lifters UP (R29, R49). -/
def tripOutputs (ownStop : Bool) (c : Chip) : Chip :=
  let c := tripReels ownStop c
  orderLifters .up (onDrive (·.release c.pinchFull) c)

/-- A trip taken on a transport that is under tension (R29). One taken before the judgement of R52 claims the carry, and
leaves the judgement to be made (R52, log 20). -/
def tripNow (cause : TripCause) (side : Side) (c : Chip) : Chip :=
  let ownStop := c.drv.ownStop
  let c := if c.sup.claimPending then claimCarry c else c
  let c := onSup (fun s => { s with catchHold := false, brk := none, exc := none }) c
  let c := tripOutputs ownStop c
  let c := tripPosition cause c
  let tag := c.curTag
  let c := flushBoth .faultFlushed (endCur .faultFlushed c)
  let c := onSup (·.tripWord cause side) (idleEngine c)
  enter .tripped (postNotice .tripped (postEvent .trip cause.code tag side.code c))

/-- A trip cause taken (R28, R29, R30). -/
def trip (cause : TripCause) (side : Side) (c : Chip) : Chip :=
  match c.sup.ts with
  | .unthreaded | .threaded => c
  | .tripped => postEvent .trip cause.code 0 ((side.code + 4 : Nat) : Int) c
  | .tensioning | .held | .moving | .stopping | .slacking | .catching => tripNow cause side c

/-- A transport that is TRIPPED from its start by CATCH_FAILED (R53, R57): the orders and the entry of a trip, the fault
word, the TRIP event and the TRIPPED notice, and no change announced (R17, log 20). -/
def failStart (ownStop : Bool) (c : Chip) : Chip :=
  let c := tripOutputs ownStop c
  let c := onSup (fun s => (s.tripWord .catchFailed .none).entered .tripped c.profile) (idleEngine c)
  postNotice .tripped (postEvent .trip TripCause.catchFailed.code 0 Side.none.code c)

/-! ## Controlled stops (R31, R32) -/

/-- The causes that set the stop latch and flush both rings (R31). -/
def StopCause.latches : StopCause → Bool
  | .excursion | .starved | .pinchFault | .capstanFault | .hostSilence => true
  | .none | .tapeEnd | .endOfRun => false

/-- The latch and the flush a cause brings (R31, R32). -/
def latchAndFlush (cause : StopCause) (c : Chip) : Chip :=
  if cause.latches then flushBoth .faultFlushed (setLatch c) else c

/-- The status the current segment of a stop is ended with (R31). -/
def StopCause.endStatus : StopCause → Status
  | .tapeEnd => .tapeEnd
  | .none | .endOfRun | .excursion | .starved | .pinchFault | .capstanFault | .hostSilence => .faultFlushed

/-- The engine in HALTING: the timers stopped, the context discarded (R136). -/
def Engine.halted (e : Engine) : Engine :=
  { e with est := .halting, cur := none, held := 0, starve := none, moveReq := false, finishReq := false }

/-- The pinch is IN or on its way in. -/
def Drive.pinchOn (d : Drive) : Bool := d.pinch == .pinched || d.pinch == .goingIn

/-- The entry into the stop (R45): the pinch released first where it is IN or GOING_IN, the capstan OFF at once otherwise. -/
def haltEntry (c : Chip) : Chip :=
  if c.drv.pinchOn then
    onEng (fun e => { e with haltHold := true }) (onDrive (·.pinchAway c.pinchFull) c)
  else onEng (fun e => { e with haltHold := false }) (onDrive (·.capstanOff c.pinchFull) c)

/-- A cause taken in MOVING (R31). -/
def stopMoving (cause : StopCause) (c : Chip) : Chip :=
  let tag := c.curTag
  let c := onSup (fun s => { s with stop := cause }) c
  let c := onEng (·.halted) (endCur cause.endStatus c)
  let c := haltEntry (latchAndFlush cause c)
  enter .stopping (postEvent .stop cause.code tag 0 c)

/-- A segment taken but not yet moving ended in HELD: the engine IDLE, its move request withdrawn (R21, R136). -/
def endTaken (st : Status) (c : Chip) : Chip :=
  match c.eng.cur with
  | some _ => idleEngine (endCur st c)
  | none => c

/-- A controlled-stop cause taken (R31, R32). R32 names no tag, which is then 0 (R186). Each cause is reported and taken
within one command, so that no END, STARVED, PINCH_FAULT or END_OF_RUN cause crosses a trip and finds TRIPPED (R21, R133,
R136; DESIGN CHOICE, log 52). -/
def stopCause (cause : StopCause) (c : Chip) : Chip :=
  match c.sup.ts with
  | .moving => stopMoving cause c
  | .stopping => postEvent .stop cause.code 0 1 (latchAndFlush cause c)
  | .held =>
    let c := onSup (fun s => { s with stop := cause }) c
    let c := if cause.latches then endTaken .faultFlushed c else c
    postEvent .stop cause.code 0 2 (latchAndFlush cause c)
  | .unthreaded | .threaded | .tensioning | .slacking | .tripped | .catching =>
    let c := onSup (fun s => { s with stop := cause }) c
    postEvent .stop cause.code 0 2 (latchAndFlush cause c)

/-- The states in which the input causes trip (R28). -/
def TState.trips : TState → Bool
  | .unthreaded | .threaded => false
  | .tensioning | .held | .moving | .stopping | .slacking | .tripped | .catching => true

/-- The side of a DRIVE_FAULT (R28). -/
def faultSide (p : Pins) : Side :=
  match p.fltSupply, p.fltTup with
  | true, true => .both
  | true, false => .supply
  | false, true => .takeup
  | false, false => .none

/-- The trip causes whose inputs stand asserted on entry into a state under tension (R28). -/
def tripStanding (c : Chip) : Chip :=
  let c := if c.pins.powerFail then trip .powerLoss .none c else c
  if c.pins.fltSupply || c.pins.fltTup then trip .driveFault (faultSide c.pins) c else c

/-! ## Sequences -/

/-- The orders of the tension-up (R39). -/
def tensionOrders (c : Chip) : Chip := onDrive (·.orderBoth .torque 0 false) (orderLifters .up c)

/-- The brakes engaged with the drives in TORQUE at zero, and the off delay begun (R43). -/
def engageBrakes (c : Chip) : Chip :=
  let c := onDrive (·.orderBoth .torque 0 true) c
  if c.set.gen.offDelay = 0 then enter .threaded c
  else onSup (fun s => { s with off := some ⟨0, c.set.gen.offDelay⟩ }) c

/-- The first orders of a catch (R54). -/
def catchBegin (c : Chip) : Chip :=
  let c := onEng (fun e => { e with ref := c.trk.tapeSpeed, frac := 0 }) c
  let c := onDrive (·.orderBoth .torque 0 false) c
  if c.drv.pinchOn then
    onSup (fun s => { s with catchHold := true }) (onDrive (·.pinchAway c.pinchFull) c)
  else onDrive (·.capstanOff c.pinchFull) c

/-! ## The lifter rule (R67, R119) -/

/-- UP while the reference speed exceeds the lifter speed, DOWN while it does not. -/
def lifterRule (c : Chip) : Lifters := if c.profile.lifterSpeed < c.eng.ref.natAbs then .up else .down

/-- What the lifters are ordered to now; none where they stay as last ordered. -/
def lifterOrder (c : Chip) : Option Lifters :=
  match c.sup.ts with
  | .moving =>
    match c.eng.cur with
    | some seg => if seg.kind = .play then some .down else if seg.phase = .release then none else some (lifterRule c)
    | none => if c.eng.est = .starved then some (lifterRule c) else none
  | .stopping => if c.eng.haltHold then none else some (lifterRule c)
  | .catching => if c.sup.claimPending ∨ c.sup.catchHold then none else some (lifterRule c)
  | .unthreaded | .threaded | .tensioning | .held | .slacking | .tripped => none

/-- The lifters asked by the rule. -/
def askLifters (c : Chip) : Chip :=
  match lifterOrder c with
  | some p => if c.listens then orderLifters p c else c
  | none => c

end Sys2Proof.Machine
end

