-- ==== Sys2Proof/Machine/Engine.lean ====
section
/-! DEFINITION. The segment engine (ch. 7, 8): targets and the reference speed, takes, the phases of each kind, completions
and what follows them, LOCATE, and what every command of motion ends with. -/

namespace Sys2Proof.Machine

/-- The segment context changed. -/
def onSeg (f : Seg → Seg) (c : Chip) : Chip := onEng (fun e => { e with cur := e.cur.map f }) c

/-- The phase of the current segment set. -/
def toPhase (ph : Phase) (c : Chip) : Chip := onSeg (fun s => { s with phase := ph }) c

/-! ## Speeds -/

/-- The play target before the limits: the code's speed, with the trim for VARI (R118, R124). -/
def playTarget (c : Chip) (seg : Seg) : Int :=
  let v : Int := seg.record.playSpeed
  let v := if seg.record.playCode? = some .vari then (v * (10000 + c.gnt.trim)).tdiv 10000 else v
  match seg.dir with
  | some .reverse => -v
  | some .forward | none => v

/-- The creep speed in use (R143). -/
def creepSpeedOf (c : Chip) (l : Loc) : Nat := min c.profile.creepSpeed l.ceiling

/-- The speed of an approach (R143, R144). -/
def approachTarget (seg : Seg) : Int := signed seg.dir ((seg.loc.map Loc.ceiling).getD 0)

/-- The speed a segment asks for before the limits (R118). RELEASE, which the rule's table names for PLAY alone, asks for
what the kind asks for when it begins; PINCH_OUT, which it does not name, for the held reference speed (log 22). -/
def unlimitedTarget (c : Chip) (seg : Seg) : Int :=
  match seg.phase, seg.kind with
  | .pinchOut, _ => c.eng.ref
  | .runout, _ | .brake, _ => 0
  | .creep, _ => signed seg.dir ((seg.loc.map (creepSpeedOf c)).getD 0)
  | _, .spool | _, .wind => seg.record.speed
  | _, .locate => approachTarget seg
  | _, .play => playTarget c seg
  | _, .dwell | _, .stop => 0

/-- A target limited in magnitude to the speed limit of its direction (R118). -/
def limitTarget (c : Chip) (v : Int) : Int :=
  match dirOf v with
  | some d => clampInt (speedLimit c d) v
  | none => 0

/-- The target speed: of the current segment, of STARVED, or 0 (R118). -/
def targetSpeed (c : Chip) : Int :=
  match c.eng.cur with
  | some seg => limitTarget c (unlimitedTarget c seg)
  | none => if c.eng.est = .starved then limitTarget c c.eng.held else 0

/-- The rate where no record names one: the grant's maximum, or the threaded profile's (R46, R119). -/
def stopAccel (c : Chip) : Nat :=
  match c.gnt.active with
  | some g => g.choice.accel
  | none => c.profile.maxAccel

/-- The effective acceleration of a record (R119). -/
def recordAccel (c : Chip) (r : Record) : Nat :=
  if r.accel = 0 then stopAccel c
  else match c.gnt.active with
    | some g => min r.accel g.choice.accel
    | none => r.accel

/-- The effective acceleration now (R119). -/
def effectiveAccel (c : Chip) : Nat :=
  match c.eng.cur with
  | some seg => recordAccel c seg.record
  | none => stopAccel c

/-- Whether a limit lowers a segment's target or acceleration (R118). -/
def clips (c : Chip) (seg : Seg) : Bool :=
  decide ((limitTarget c (unlimitedTarget c seg)).natAbs < (unlimitedTarget c seg).natAbs) ||
    decide (recordAccel c seg.record < seg.record.accel)

/-- The CLIPPED mark set where the limits lower the current segment (R112, R118). -/
def markClipped (c : Chip) : Chip := onSeg (fun s => { s with clipped := s.clipped || clips c s }) c

/-- One update of the reference speed toward a target (R119, log 16). -/
def Engine.move (e : Engine) (target : Int) (accel : Nat) : Engine :=
  let q := accel + e.frac
  let gap := (target - e.ref).natAbs
  if gap ≤ q / 100 then { e with ref := target, frac := 0 }
  else { e with ref := if e.ref < target then e.ref + (q / 100 : Nat) else e.ref - (q / 100 : Nat), frac := q % 100 }

/-- DONE, or CLIPPED where the mark is set (R121). -/
def doneOr (seg : Seg) : Status := if seg.clipped then .clipped else .done

/-- A moving kind whose limited target has fallen to 0 (R118); one still in RELEASE waits for its first phase. -/
def fallenToZero (c : Chip) (seg : Seg) : Bool :=
  decide (seg.phase ≠ .release ∧ unlimitedTarget c seg ≠ 0 ∧ limitTarget c (unlimitedTarget c seg) = 0)

/-! ## LOCATE -/

/-- The remaining distance (R143). -/
def remaining (c : Chip) (l : Loc) : Nat := (l.target - c.trk.position).natAbs

/-- Within tolerance (R143). -/
def withinTolerance (c : Chip) (l : Loc) : Bool := decide (remaining c l ≤ l.tolerance)

/-- The position lies at a target or beyond it in a direction (R121, R144). -/
def reached (pos target : Int) (d : Option Dir) : Bool :=
  match d with
  | some .forward => decide (target ≤ pos)
  | some .reverse => decide (pos ≤ target)
  | none => false

/-- The latch of a LOCATE at its take (R142, R143). -/
def latchLocate (c : Chip) (r : Record) : Loc ⊕ Status :=
  let speed := r.speed.natAbs
  if c.trk.valid = false then .inr .missed
  else if r.useCue then
    match cueOf c r with
    | none => .inr .noCue
    | some cue =>
      if positionInRange (cue.position + r.offset) then
        .inl { target := cue.position + r.offset
               tolerance := if r.tolerance = 0 then cue.tolerance else r.tolerance
               ceiling := if cue.limit = 0 then speed else min speed cue.limit
               approach := 1 }
      else .inr .missed
  else .inl { target := r.target, tolerance := r.tolerance, ceiling := speed, approach := 1 }

/-- Within braking plus creep distance of the target, with the reference speed pointing at it (R144). -/
def nearTarget (c : Chip) (seg : Seg) (l : Loc) : Bool :=
  let k := 25 * effectiveAccel c
  decide (seg.dir ≠ none ∧ dirOf c.eng.ref = seg.dir ∧
    remaining c l * k ≤ c.eng.ref.natAbs * c.eng.ref.natAbs + c.profile.creepDistance * k)

/-- The judgement of APPROACH and CREEP (R144, R145); `rolled` is the direction of a roller count just taken. -/
def judgeLocate (rolled : Option Dir) (c : Chip) : Chip :=
  match c.eng.cur with
  | some seg =>
    match seg.loc, seg.phase with
    | some l, .approach =>
      if withinTolerance c l || (seg.dir != none && rolled == seg.dir && reached c.trk.position l.target seg.dir) then
        toPhase .brake c
      else if nearTarget c seg l then toPhase .creep c else c
    | some l, .creep =>
      if withinTolerance c l || (seg.dir != none && rolled == seg.dir && reached c.trk.position l.target seg.dir) then
        toPhase .brake c
      else c
    | _, _ => c
  | none => c

/-! ## Takes -/

/-- What a step leaves the current segment with: it goes on, it ends with a status, it ends and the END cause follows, or
a stop cause is reported that ends it. -/
inductive SegOut where
  | goes
  | ends (st : Status)
  | endsAtEnd (st : Status)
  | stops (cause : StopCause)
deriving DecidableEq, Repr

/-- The first phase of a kind (R121 to R128, R144). -/
def firstPhase : Kind → Phase
  | .spool => .run
  | .locate => .approach
  | .play => .leadIn
  | .dwell => .settle
  | .stop => .ramp
  | .wind => .run

/-- LEAD_IN with the reference speed at the target (R122): capstan RUN, then pinch-in. -/
def leadInEnds (c : Chip) : Chip × SegOut :=
  let c := (orderCapstanRun c.eng.ref c).1
  if c.drv.pinchInOk (c.sup.ts == .moving) then
    (toPhase .pinchIn (onDrive (·.pinchInRequest (c.sup.ts == .moving) c.pinchFull) c), .goes)
  else (c, .stops .pinchFault)

/-- A segment's duration timer started (R121, R126). -/
def startTimer (c : Chip) : Chip := onSeg (fun s => { s with timer := some 0 }) c

/-- What the current segment makes of the reference speed as it stands (R118, R121 to R128). An approach is judged at its
start and at a change of the reference speed, which `moved` tells, and at a roller count (R144). A limited target of 0 at a
reference speed of 0 is judged first (R118), so it ends CLIPPED a LOCATE that is within tolerance as its approach starts,
which by R144 alone would be in BRAKE (DESIGN CHOICE, log 53). -/
def judgeSpeed (moved : Bool) (c : Chip) (seg : Seg) : Chip × SegOut :=
  if fallenToZero c seg ∧ c.eng.ref = 0 then
    (if c.drv.pinchOn then onDrive (·.capstanOff c.pinchFull) c else c, .ends .clipped)
  else match seg.phase, seg.kind with
  | .run, .spool =>
    if seg.record.positionEnd then
      (c, if seg.record.speed = 0 ∧ c.eng.ref = 0 then .ends (doneOr seg) else .goes)
    else if seg.record.duration ≠ 0 ∧ seg.timer = none ∧ c.eng.ref = targetSpeed c then (startTimer c, .goes)
    else (c, .goes)
  | .leadIn, _ => if c.eng.ref = targetSpeed c ∧ c.sup.ts = .moving then leadInEnds c else (c, .goes)
  | .settle, _ => if c.eng.ref = 0 then (startTimer (toPhase .hold c), .goes) else (c, .goes)
  | .ramp, _ | .runout, _ => (c, if c.eng.ref = 0 then .ends (doneOr seg) else .goes)
  | .approach, _ | .creep, _ => (if moved then judgeLocate none c else c, .goes)
  | _, _ => (c, .goes)

/-- The direction of an approach set afresh at its start, toward the latched target (R144). -/
def aim (c : Chip) : Chip :=
  onSeg (fun s => { s with dir := match s.loc with
                           | some l => dirOf (l.target - c.trk.position)
                           | none => s.dir }) c

/-- The current segment begins its first phase (R114, R115, R144). Where it was taken with the pinch not OUT, the first
approach of a LOCATE starts here, at the end of RELEASE: its direction is set again, and no end flag is judged again
(log 48). -/
def begin (c : Chip) : Chip × SegOut :=
  match c.eng.cur with
  | none => (c, .goes)
  | some seg =>
    let c := markClipped (toPhase (firstPhase seg.kind) (aim c))
    match c.eng.cur with
    | some seg => judgeSpeed true c seg
    | none => (c, .goes)

/-- A PLAY's end condition met (R124, R125): the end status fixed, capstan OFF asked, PINCH_OUT; with the pinch OUT there is
no movement to wait for (log 23). -/
def playEnds (st : Status) (c : Chip) : Chip × SegOut :=
  let c := onDrive (·.capstanOff c.pinchFull) (onSeg (fun s => { s with phase := .pinchOut, endStatus := some st }) c)
  (c, if c.drv.pinch = .out then .ends st else .goes)

/-- An open segment ended by a slot queued in its own ring (R129). -/
def openEnds (seg : Seg) (c : Chip) : Chip × SegOut :=
  if seg.kind = .play then (if seg.phase = .pinchOut then (c, .goes) else playEnds (doneOr seg) c)
  else (c, .ends (doneOr seg))

/-- The grant in force allows what a record asks at its take (R114). -/
def allowedNow (c : Chip) (k : Kind) (r : Record) : Bool :=
  match k, c.gnt.active with
  | .play, some g => (r.playCode?.map g.choice.allows).getD false
  | .wind, some g => g.choice.wind
  | .play, none | .wind, none => false
  | .spool, _ | .locate, _ | .dwell, _ | .stop, _ => true

/-- The segment is open (R129). -/
def Seg.open? (s : Seg) : Bool := isOpen s.kind s.record

/-- The direction fixed at the take (R112, R142). -/
def takeDir (c : Chip) (k : Kind) (r : Record) (l : Option Loc) : Option Dir :=
  match k with
  | .spool | .play | .wind => dirOf r.speed
  | .locate => (l.bind fun l => dirOf (l.target - c.trk.position))
  | .dwell | .stop => none

/-- The intake's part of a take: the view, the take index, the CURRENT mark (R104), and the flush of FLUSH (R116). -/
def takeSlot (id : RingId) (rec : Record) (c : Chip) : Chip :=
  let slot := (c.pln.ring id).take
  let c := onPln (fun p => { p.withRing id (p.ring id).taken with list := p.list ++ [SlotWrite.mark id slot] }) c
  if id = .urgent ∧ rec.flush then flushRing .main .flushed c else c

/-- The engine's context of a taken slot, and its move request in HELD (R112, R21). A finish request that still stands is
withdrawn, and a move request that still stands is this one (log 17). -/
def Engine.took (e : Engine) (seg : Seg) (held : Bool) : Engine :=
  { e with
    est := .running, cur := some seg, starve := none, held := 0
    moveReq := e.moveReq || held, finishReq := false }

/-- The judgements of R114 on a segment just taken. -/
def judgeTake (seg : Seg) (c : Chip) : Chip × SegOut :=
  let dirRef := dirOf c.eng.ref
  if endAhead c.trk.endFlag seg.dir then
    let st := if seg.kind = .wind then Status.done else .tapeEnd
    (c, if endAhead c.trk.endFlag dirRef then .endsAtEnd st else .ends st)
  else if !allowedNow c seg.kind seg.record then (c, .ends .clipped)
  else
    let c := markClipped c
    let seg := c.eng.cur.getD seg
    if seg.kind = .spool ∧ seg.record.positionEnd ∧ reached c.trk.position seg.record.target seg.dir then
      (c, .ends (doneOr seg))
    else if seg.kind = .stop ∧ c.eng.ref = 0 then (c, .ends (doneOr seg))
    else if seg.open? ∧ (c.pln.ring seg.ring).queued ≠ 0 then openEnds seg c
    else if c.drv.pinch ≠ .out then (c, .goes)
    else begin c

/-- The take of the slot at a ring's take index (R114, R142). -/
def takeOne (id : RingId) (c : Chip) : Chip × SegOut :=
  let slot := (c.pln.ring id).take
  let rec' := (((c.pln.ring id).slot slot).record).getD Record.blank
  let kind := rec'.kind?.getD .stop
  let held := c.sup.ts == .held
  let c := takeSlot id rec' c
  let seg (l : Option Loc) : Seg :=
    { ring := id, slot, record := rec', kind, dir := takeDir c kind rec' l
      phase := if c.drv.pinch = .out then firstPhase kind else .release
      endStatus := none, clipped := false, timer := none, loc := l }
  if kind = .locate then
    match latchLocate c rec' with
    | .inr st => (onEng (·.took (seg none) held) c, .ends st)
    | .inl l => judgeTake (seg (some l)) (onEng (·.took (seg (some l)) held) c)
  else judgeTake (seg none) (onEng (·.took (seg none) held) c)

/-- The ring the next take is made from (R113). -/
def nextRing (c : Chip) : Option RingId :=
  if c.pln.urgent.queued ≠ 0 then some .urgent else if c.pln.main.queued ≠ 0 then some .main else none

/-- Takes are made (R113). -/
def canTake (c : Chip) : Bool := (c.sup.ts == .held || c.sup.ts == .moving) && c.eng.est != .halting

/-! ## Completion -/

/-- A completion at zero speed with nothing queued (R132): IDLE, and the finish request (R21). -/
def finishRun (c : Chip) : Chip :=
  let c := onEng (fun e => { e with est := .idle, held := 0, starve := none, frac := 0 }) c
  if c.sup.ts = .moving then enter .held c
  else if c.sup.ts = .held ∧ c.eng.moveReq then onEng (fun e => { e with finishReq := true }) c else c

/-- STARVED (R134). -/
def starveNow (tag : Nat) (c : Chip) : Chip :=
  let c := onEng (fun e => { e with est := .starved, held := e.ref, starve := some 0 }) c
  let c := postNotice .ringStarved (postEvent .ringStarved 0 tag c.eng.ref c)
  if c.set.gen.starve = 0 then stopCause .starved c else c

/-- A completion with nothing queued in either ring (R132, R133, R134). -/
def nothingQueued (eor : Bool) (tag : Nat) (c : Chip) : Chip :=
  if c.eng.ref = 0 then finishRun c
  else if eor then stopCause .endOfRun (onEng (fun e => { e with est := .halting }) c)
  else starveNow tag c

/-- The record of the current segment. -/
def Chip.curRecord (c : Chip) : Record := (c.eng.cur.map Seg.record).getD Record.blank

/-- What follows a step's outcome; `after` follows a completion. -/
def outcome (after : Bool → Nat → Chip → Chip) (p : Chip × SegOut) : Chip :=
  let r := p.1.curRecord
  match p.2 with
  | .goes => p.1
  | .ends st => after r.endOfRun r.tag (endCur st p.1)
  | .endsAtEnd st => stopCause .tapeEnd (endCur st p.1)
  | .stops cause => stopCause cause p.1

/-- What follows a completion (R132 to R134): takes until one goes on, or nothing is queued. Each take lowers the 72 slots
queued at most, so `fuel` of 80 is never spent. -/
def follow : Nat → Bool → Nat → Chip → Chip
  | 0, _, _, c => c
  | fuel + 1, eor, tag, c =>
    if canTake c then
      match nextRing c with
      | some id => outcome (follow fuel) (takeOne id c)
      | none => nothingQueued eor tag c
    else c

/-- The outcome of a step of the current segment, followed to its end. -/
def settle (p : Chip × SegOut) : Chip := outcome (follow 80) p

/-- The current segment completes with a status. -/
def complete (st : Status) (c : Chip) : Chip := settle (c, .ends st)

/-- A queued slot taken where takes are made. -/
def takeQueued (c : Chip) : Chip :=
  if canTake c ∧ c.eng.cur = none then
    match nextRing c with
    | some id => settle (takeOne id c)
    | none => c
  else c

/-- A preemption by the urgent ring (R115). -/
def preempt (seg : Seg) (c : Chip) : Chip :=
  let st := if seg.phase = .pinchOut then seg.endStatus.getD .superseded else .superseded
  let c := if seg.phase = .leadIn ∨ seg.phase = .pinchIn ∨ seg.phase = .capstan then
    onDrive (·.capstanOff c.pinchFull) c else c
  settle (takeOne .urgent (endCur st c))

/-- The engine told that a ring has gained a slot (R117). -/
def gained (id : RingId) (c : Chip) : Chip :=
  if canTake c then
    match c.eng.cur with
    | none => takeQueued c
    | some seg =>
      if id = .urgent ∧ seg.ring = .main then preempt seg c
      else if id = seg.ring ∧ seg.open? then settle (openEnds seg c)
      else c
  else c

/-! ## What reaches the engine -/

/-- The supervisor takes the move request, and then the finish request (R21, R114; log 17). -/
def settleMoves (c : Chip) : Chip :=
  if c.eng.moveReq ∧ c.sup.ts = .held then
    let c := enter .moving (onEng (fun e => { e with moveReq := false }) c)
    if c.eng.finishReq then enter .held (onEng (fun e => { e with finishReq := false }) c) else c
  else c

/-- The current segment judged by the reference speed. -/
def judgeCurrent (moved : Bool) (c : Chip) : Chip :=
  match c.eng.cur with
  | some seg => if canTake c then settle (judgeSpeed moved c seg) else c
  | none => c

/-- The roller count's judgement of a position end (R121, R124) and of a LOCATE (R144, R145). In RELEASE no end condition is
judged: a SPOOL that has passed its target by then ends at the first count in its direction in RUN (DESIGN CHOICE,
log 58). -/
def rollCurrent (d : Dir) (c : Chip) : Chip :=
  match c.eng.cur with
  | none => c
  | some seg =>
    let hit := seg.record.positionEnd && reached c.trk.position seg.record.target seg.dir
    match seg.kind, seg.phase with
    | .spool, .run =>
      if hit ∧ seg.dir = some d ∧ dirOf c.eng.ref = seg.dir then complete (doneOr seg) c else c
    | .play, .capstan => if hit ∧ seg.dir = some d then settle (playEnds (doneOr seg) c) else c
    | .locate, _ => judgeLocate (some d) c
    | _, _ => c

/-- A LOCATE whose position was lost to a stuck count (R148). -/
def locateLost (c : Chip) : Chip :=
  if c.locateCurrent ∧ c.trk.valid = false then complete .missed c else c

/-- A LOCATE in BRAKE judged at rest (R146, R147). -/
def judgeBrake (c : Chip) : Chip :=
  match c.eng.cur with
  | some seg =>
    match seg.loc, seg.phase with
    | some l, .brake =>
      if c.sup.ts = .moving ∧ c.eng.ref = 0 ∧ c.trk.tapeSpeed = 0 then
        if withinTolerance c l then complete (doneOr seg) c
        else if 3 ≤ l.approach then complete .missed c
        else
          let err := l.target - c.trk.position
          let c := postEvent .locateRetry (l.approach + 1) seg.record.tag err c
          if endAhead c.trk.endFlag (dirOf err) then complete .tapeEnd c
          else onSeg (fun s => { s with
            phase := .creep, dir := dirOf err, loc := some { l with approach := l.approach + 1 } }) c
      else c
    | _, _ => c
  | none => c

/-- A new end flag handed to the engine (R131). -/
def newEndFlag (c : Chip) : Chip :=
  if c.sup.ts = .moving then
    match c.eng.cur with
    | some seg =>
      if seg.kind = .wind ∧ seg.phase = .runout then c
      else if seg.kind = .wind ∧ seg.phase = .run ∧ endAhead c.trk.endFlag seg.dir then
        judgeCurrent false (toPhase .runout c)
      else stopCause .tapeEnd c
    | none => if c.eng.est = .starved then stopCause .tapeEnd c else c
  else c

/-- The pinch reported IN (R123): the speeds compared, and CAPSTAN entered. -/
def pinchInReport (c : Chip) : Chip :=
  match c.eng.cur with
  | some seg =>
    if seg.phase = .pinchIn then
      if 2 * c.drv.capSpeed.natAbs < 100 * (c.trk.tapeSpeed - c.drv.measuredCapstan).natAbs then
        stopCause .pinchFault c
      else
        let c := toPhase .capstan c
        if seg.record.positionEnd then
          if reached c.trk.position seg.record.target seg.dir then settle (playEnds (doneOr seg) c) else c
        else if seg.record.duration ≠ 0 then startTimer c else c
    else c
  | none => c

/-- The pinch reported going out at the end of its movement in (R123). -/
def pinchTurnReport (c : Chip) : Chip :=
  match c.eng.cur with
  | some seg => if seg.phase = .pinchIn then stopCause .pinchFault c else c
  | none => c

/-- The pinch reported OUT: a PLAY completes (R125), a RELEASE ends (R115), a stop's or a catch's ramp begins (R45, R54). -/
def pinchOutReport (c : Chip) : Chip :=
  if c.eng.haltHold ∧ c.sup.ts = .stopping then
    onEng (fun e => { e with haltHold := false }) (onDrive (·.capstanStop) c)
  else if c.sup.catchHold then
    onSup (fun s => { s with catchHold := false }) (onDrive (·.capstanStop) c)
  else match c.eng.cur with
    | some seg =>
      if seg.phase = .pinchOut then complete (seg.endStatus.getD .done) c
      else if seg.phase = .release then settle (begin c)
      else c
    | none => c

/-- A duration that has run out (R121, R124, R126). -/
def durationEnds (c : Chip) : Chip :=
  match c.eng.cur with
  | some seg =>
    match seg.timer with
    | some t =>
      if seg.record.duration ≠ 0 ∧ seg.record.duration ≤ t then
        match seg.kind, seg.phase with
        | .spool, .run => if seg.record.positionEnd then c else complete (doneOr seg) c
        | .play, .capstan => if seg.record.positionEnd then c else settle (playEnds (doneOr seg) c)
        | .dwell, .hold => complete (doneOr seg) c
        | _, _ => c
      else c
    | none => c
  | none => c

/-- The reference speed moved in MOVING (R119), and sent to the capstan where it turns for a PLAY (R123, R124). -/
def moveReference (c : Chip) : Chip :=
  match c.eng.cur with
  | some seg =>
    if seg.phase = .release ∨ seg.phase = .pinchOut then c
    else
      let was := c.eng.ref
      let c := onEng (·.move (targetSpeed c) (effectiveAccel c)) c
      if (seg.phase = .pinchIn ∨ seg.phase = .capstan) ∧ c.eng.ref ≠ was then (orderCapstanRun c.eng.ref c).1 else c
  | none => if c.eng.est = .starved then onEng (·.move (targetSpeed c) (stopAccel c)) c else c

/-- STARVED lowered to rest (R134). -/
def starvedAtRest (c : Chip) : Chip :=
  if c.eng.est = .starved ∧ c.eng.ref = 0 then finishRun c else c

/-- The millisecond update of the reference speed in each state that moves it (R46, R54, R119). The lifters are asked by the
speed it brings, before what completes at that speed (R67). -/
def updateReference (c : Chip) : Chip :=
  match c.sup.ts with
  | .moving =>
    let was := c.eng.ref
    let c := askLifters (markClipped (moveReference c))
    starvedAtRest (judgeCurrent (decide (c.eng.ref ≠ was)) c)
  | .stopping => if c.eng.haltHold then c else onEng (·.move 0 (stopAccel c)) c
  | .catching =>
    if c.sup.claimPending ∨ c.sup.catchHold then c else onEng (·.move 0 c.profile.maxAccel) c
  | .unthreaded | .threaded | .tensioning | .held | .slacking | .tripped => c

/-- What a command of motion ends with: the CLIPPED mark, the lifters, the tension reference and the torques as they then
stand (R118, R119, R24, R25). -/
def tail (c : Chip) : Chip :=
  if c.sup.up then formTorques (retarget (askLifters (markClipped c))) else c

end Sys2Proof.Machine
end

