-- ==== Sys2Proof/Machine/Live.lean ====
section
/-! DEFINITION. The live window (12.6): what the read responder answers (R153, R154, R163). -/

namespace Sys2Proof.Machine

/-- A word of four byte values. -/
def bytes4 (a b c d : Nat) : Word :=
  wordOf (BitVec.ofNat 8 a) (BitVec.ofNat 8 b) (BitVec.ofNat 8 c) (BitVec.ofNat 8 d)

/-- A word of two 16-bit values. -/
def halves (lo hi : Nat) : Word := BitVec.ofNat 16 hi ++ BitVec.ofNat 16 lo

/-- A profile index; 0xFF for none (R153). -/
def indexCode (i : Option (Fin 8)) : Nat := (i.map Fin.val).getD 0xFF

/-- The tension reference in whole cN; how a fraction is shown is free (log 15). -/
def tensionShown (r : Ramp) : Nat :=
  let v := r.value
  if v.1 % v.2 = 0 then v.1 / v.2 else if Config.tensionRoundsUp v.1 v.2 then v.1 / v.2 + 1 else v.1 / v.2

/-- The status word of the snapshot group (12.6). -/
def statusWord (c : Chip) : Word :=
  bytes4 c.trk.valid.toNat c.trk.endFlag.code c.trk.path.code (c.pins.leader.toNat + 2 * lastDirCode c.trk.lastDir)

/-- The snapshot group as it stands now (R154). -/
def snapNow (c : Chip) : Snap :=
  { position := wordOfInt c.trk.position
    speed := wordOfInt c.trk.tapeSpeed
    supRadius := BitVec.ofNat 32 c.trk.sup.radius
    tupRadius := BitVec.ofNat 32 c.trk.tup.radius
    status := statusWord c
    time := c.clock }

/-- The snapshot group as read: latched, or live while the latch is clear (R154). -/
def snapRead (c : Chip) : Snap := c.bus.snap.getD (snapNow c)

/-- A field of the active choice; 0 with no grant (R153). -/
def grantField (c : Chip) (f : Granted → Word) : Word := (c.gnt.active.map f).getD 0

/-- A field of the current segment; 0 with none (R153). -/
def segField (c : Chip) (f : Seg → Word) : Word := (c.eng.cur.map f).getD 0

/-- The code of a current ring: 0 none, 1 urgent, 2 main. -/
def ringCode : RingId → Nat
  | .urgent => 1
  | .main => 2

/-- The code of the command in execution; 0 in IDLE (R167). -/
def Mailbox.codeShown (m : Mailbox) : Nat := (m.cmd.map fun cmd => cmd.code.toNat).getD 0

/-- The live window's word `k` (12.6). -/
def liveWord (c : Chip) (k : Nat) : Word :=
  match k with
  | 0 => bytes4 c.sup.ts.code c.eng.est.code c.mbx.st.code c.mbx.codeShown
  | 1 => c.bus.startCount ++ BitVec.ofNat 8 c.set.isOpen.toNat ++ BitVec.ofNat 8 c.bus.startCause.code
  | 2 => c.bus.startTime
  | 3 => bytes4 c.sup.trip.code c.sup.side.code c.sup.stop.code c.sup.latch.toNat
  | 4 => (snapRead c).position
  | 5 => (snapRead c).speed
  | 6 => (snapRead c).supRadius
  | 7 => (snapRead c).tupRadius
  | 8 => (snapRead c).status
  | 9 => (snapRead c).time
  | 10 => halves (capped 16 c.trk.sup.pulseRate) (capped 16 c.trk.tup.pulseRate)
  | 11 => halves c.trk.sup.arm.toNat c.trk.tup.arm.toNat
  | 12 => bytes4 c.sup.clsSup.code c.sup.clsTup.code (indexCode c.sup.threaded) (indexCode c.gnt.threaded)
  | 13 => halves (capped 16 (tensionShown c.sup.tension)) 0
  | 14 => bytes4 c.drv.sup.mode.code c.drv.tup.mode.code (c.drv.sup.engaged.toNat + 2 * c.drv.tup.engaged.toNat)
      (c.pins.fltSupply.toNat + 2 * c.pins.fltTup.toNat + 4 * c.pins.fltCap.toNat + 8 * c.pins.powerFail.toNat)
  | 15 => bytes4 c.drv.capRun.toNat c.drv.pinch.code c.drv.lifters.code c.drv.carry.code
  | 16 => wordOfInt c.drv.capSpeed
  | 17 => wordOfInt c.drv.measuredCapstan
  | 18 => bytes4 c.gnt.active.isSome.toNat ((c.gnt.active.map Granted.position).getD 0) c.gnt.fallback.length
      c.gnt.request.isSome.toNat
  | 19 => grantField c fun g => BitVec.ofNat 32 g.choice.maxSpeed
  | 20 => grantField c fun g => BitVec.ofNat 32 g.choice.accel
  | 21 => grantField c fun g => bytes4 g.choice.profile g.choice.codes.toNat g.choice.wind.toNat 0
  | 22 => BitVec.ofInt 16 c.gnt.trim ++ BitVec.ofNat 16 c.gnt.variRange
  | 23 => BitVec.ofNat 32 (speedLimit c .forward)
  | 24 => BitVec.ofNat 32 (speedLimit c .reverse)
  | 25 => bytes4 c.pln.urgent.intake c.pln.urgent.take c.pln.urgent.queued
      ((c.eng.cur.map fun s => ringCode s.ring).getD 0)
  | 26 => bytes4 c.pln.main.intake c.pln.main.take c.pln.main.queued ((c.eng.cur.map Seg.slot).getD 0)
  | 27 => segField c fun s => bytes4 ((byteOf s.record.w0 1).toNat % 8) s.phase.code (byteOf s.record.w0 2).toNat
      (byteOf s.record.w0 3).toNat
  | 28 => segField c fun _ => wordOfInt (targetSpeed c)
  | 29 => wordOfInt c.eng.ref
  | 30 => segField c fun s => wordOfInt ((s.loc.map Loc.target).getD 0)
  | 31 => bytes4 ((c.eng.cur.bind fun s => s.loc.map Loc.approach).getD 0)
      ((c.eng.cur.map fun s => s.clipped.toNat).getD 0) c.mon.st.code c.bus.queue.length
  | 32 => bytes4 c.evt.write c.evt.consumed c.evt.overrun.toNat 0
  | 33 => BitVec.ofNat 32 (capped 32 c.evt.dropped)
  | 34 => c.ntc.mask ++ c.ntc.pending
  | _ => 0

/-- The live window's word `k` during start-up (R163). -/
def startingWord (k : Nat) : Word := if k = 0 then bytes4 startingCode 0 0 0 else 0

end Sys2Proof.Machine
end

