-- ==== Sys2Proof/Machine/Bus.lean ====
section
/-! DEFINITION. The pass-through path (ch. 9): host cycles and their holds, the regions, the mailbox's part of the command
word, the event ring's writer, the arbiter and the end of a memory cycle. -/

namespace Sys2Proof.Machine

/-- The hand-off's next fetch read (R95, R158). -/
def HandFetch.next? (c : Chip) : Option Cycle :=
  match c.pln.fetch with
  | some h =>
    match h.todo with
    | w :: _ => some (.handRead (windowAddr c (slotOffset h.ring h.slot + 4 * w)) w)
    | [] => none
  | none => none

/-- The mailbox's next fetch read (R169). -/
def mailNext? (c : Chip) : Option Cycle :=
  match c.mbx.st, c.mbx.todo with
  | .fetch, off :: _ => some (.mailRead (windowAddr c off))
  | _, _ => none

/-- The slot of the sweep's read `n`: urgent slots, then main slots (R109). -/
def sweepSlot (n : Nat) : RingId × Nat := if n < 8 then (.urgent, n) else (.main, n - 8)

/-- The sweep has this many reads. -/
def sweepLength : Nat := 72

/-- The sweep's next read (R109). -/
def sweepNext? (c : Chip) : Option Cycle :=
  match c.pln.sweep with
  | some n =>
    if n < sweepLength then some (.sweepRead (windowAddr c (slotOffset (sweepSlot n).1 (sweepSlot n).2)) n) else none
  | none => none

/-- The window offset of an address's word; none outside the window (R151). -/
def windowOffset (c : Chip) (addr : Nat) : Option Nat :=
  let base := 0x100000 * c.bus.winsel.toNat
  if base ≤ addr ∧ addr < 0x10000 + base then some ((addr - base) / 4 * 4) else none

/-- The host cycle as a requester: the cycle, the data and enables memory is to receive, and whether it is a window cycle
under the bypass (log 28). -/
def hostNext? (c : Chip) : Option Cycle :=
  match c.bus.host with
  | some h =>
    match h.phase with
    | .ready data be => some (.host h.cyc.addr.toNat h.cyc.write data be false)
    | .bypassed => some (.host h.cyc.addr.toNat h.cyc.write h.cyc.data h.cyc.be (windowOffset c h.cyc.addr.toNat).isSome)
    | .held | .screening | .fetching | .inPort => none
  | none => none

/-! ## Holds -/

/-- A write of some list is of the word at an offset. -/
def writesWord (ws : List PartWrite) (off : Nat) : Bool := ws.any fun w => w.offset == off

/-- The pending-write hold (R157): a part write to the word has been posted and not yet made or dropped. A write at the
memory port still stands at the head of the queue. -/
def pendingWrite (off : Nat) (c : Chip) : Bool :=
  writesWord c.bus.queue off || writesWord c.evt.wait off || writesWord c.mbx.wait off || writesWord c.set.wait off ||
    writesWord c.gnt.wait off || writesWord c.bus.wait off || writesWord c.pln.wait off

/-- The words an entry of the slot write list is to write (R104, R105). -/
def SlotWrite.offsets : SlotWrite → List Nat
  | .mark id slot => [slotOffset id slot]
  | .ret id slot _ _ _ => [slotOffset id slot + 24, slotOffset id slot + 28, slotOffset id slot]

/-- The slot write list hold (R106). -/
def listHold (off : Nat) (c : Chip) : Bool := c.pln.list.any fun e => e.offsets.contains off

/-- The cue write list hold, of reads (R138). -/
def cueHold (off : Nat) (c : Chip) : Bool := c.cue.list.any fun g => writesWord g off

/-- The mailbox's hold of a command write (R168): in FETCH, in REPLY, and in RUN unless a save or a reload runs. Every other
command is decided in the step of its dispatch (10.2), so one whose own row is still to come stands as in REPLY (log 49). -/
def mailHold (off : Nat) (write : Bool) (c : Chip) : Bool :=
  off == commandOffset && write &&
    (c.mbx.st == .reply || c.mbx.st == .fetch || (c.mbx.st == .run && !c.settingsBusy))

/-- The cue image, to which a host write is dropped (R139). -/
def inCueImage (off : Nat) : Bool := decide (0x3000 ≤ off ∧ off < 0x3200)

/-- A window cycle is held (R106, R138, R157, R168). -/
def heldCycle (off : Nat) (write : Bool) (c : Chip) : Bool :=
  if c.mode = .startup then !write && (pendingWrite off c || cueHold off c)
  else pendingWrite off c || listHold off c || (!write && cueHold off c) || mailHold off write c

/-- A held cycle whose hold has ended: the host's turn has come, and its release is due (R157). -/
def releaseDue (c : Chip) : Bool :=
  match c.bus.host with
  | some h =>
    h.phase == .held && match windowOffset c h.cyc.addr.toNat with
      | some off => !heldCycle off h.cyc.write c
      | none => true
  | none => false

/-! ## The arbiter -/

/-- The pass-over limit (R158). -/
def passOverLimit : Nat := 6

/-- The cycle the arbiter grants next, where the port is free (R158). A cycle held no longer is the host's at the arbiter,
and HELD_CYCLE_RELEASE classifies it: no part write is granted before it, but as the pass-over count has it (log 59). -/
def granted? (c : Chip) : Option Cycle :=
  (HandFetch.next? c).or ((mailNext? c).or ((sweepNext? c).or
    (match hostNext? c, c.bus.queue with
      | some h, [] => some h
      | some h, w :: _ => if c.bus.passOver < passOverLimit then some h else some (.part (windowAddr c w.offset) w)
      | none, w :: _ =>
        if releaseDue c ∧ c.bus.passOver < passOverLimit then none else some (.part (windowAddr c w.offset) w)
      | none, [] => none)))

/-- The host port with its cycle at the memory port. -/
def HostPort.atPort (h : HostPort) : HostPort := { h with phase := .inPort }

/-- The port given to a cycle (R158, R159). -/
def Bus.grant (b : Bus) (cy : Cycle) : Bus :=
  match cy with
  | .host _ _ _ _ _ =>
    { b with port := some cy, host := b.host.map HostPort.atPort
             passOver := if b.queue.isEmpty then b.passOver else b.passOver + 1 }
  | _ => { b with port := some cy }

/-- The arbiter (R158). -/
def arbitrate (c : Chip) : Chip :=
  match c.bus.port with
  | some _ => c
  | none =>
    match granted? c with
    | some cy => onBus (·.grant cy) c
    | none => c

/-- The end of a command: `tail`, and the arbiter. -/
def done (c : Chip) : Chip := arbitrate (tail c)

/-! ## The end of a host cycle -/

/-- The host cycle completed without a memory cycle. -/
def completeHost (d : HostDone) (c : Chip) : Chip := onBus (fun b => { b with host := none, done := d }) c

/-- The host cycle put into a phase. -/
def hostPhase (ph : HostPhase) (c : Chip) : Chip :=
  onBus (fun b => { b with host := b.host.map fun h => { h with phase := ph } }) c

/-- The host cycle released to the arbiter with the data and enables memory is to receive. -/
def release (data : Word) (be : Enables) (c : Chip) : Chip := hostPhase (.ready data be) c

/-- The host write dropped: completed without reaching memory (R152). -/
def dropWrite (c : Chip) : Chip := completeHost .wrote c

/-! ## The event ring's writer (R180 to R182) -/

/-- The records in the event ring. -/
def eventRecords : Nat := 128

/-- The unread count (R179). -/
def EventWriter.unread (e : EventWriter) : Nat := (e.write + eventRecords - e.consumed) % eventRecords

/-- The four writes of a record at an index (R180, 12.2). -/
def recordWrites (index : Nat) (e : Event) : List PartWrite :=
  let off := eventOffset index
  [ ⟨off, halves (e.kind.code + 256 * (e.detail % 256)) e.tag, allBytes⟩
  , ⟨off + 4, e.time, allBytes⟩
  , ⟨off + 8, wordOfInt e.position, allBytes⟩
  , ⟨off + 12, wordOfInt e.value, allBytes⟩ ]

/-- A record appended at the write index (R180). -/
def appendRecord (e : Event) (c : Chip) : Chip :=
  let empty := c.evt.unread = 0
  let c := postWrites .eventWriter (recordWrites c.evt.write e) c
  let c := onEvt (fun w => { w with write := (w.write + 1) % eventRecords }) c
  if empty then postNotice .eventsWaiting c else c

/-- An event taken by the writer: appended, or dropped in overrun, by the unread count at the taking (R180, R182;
log 18). -/
def takeEvent (e : Event) (c : Chip) : Chip :=
  if c.evt.unread < 127 then appendRecord e c
  else
    let first := !c.evt.overrun
    let c := onEvt (fun w => { w with overrun := true, dropped := capped 32 (w.dropped + 1) }) c
    if first then postNotice .eventOverrun c else c

/-- The OVERRUN marker, where a write has made room (R182). -/
def overrunMarker (c : Chip) : Chip :=
  if c.evt.overrun ∧ c.evt.unread < 127 then
    let e := eventNow c .overrun 0 0 c.evt.dropped c.trk.position
    appendRecord e (onEvt (fun w => { w with overrun := false, dropped := 0 }) c)
  else c

/-- The consumed index a write leaves (R181). -/
def EventWriter.consumedAfter (e : EventWriter) (data : Word) (be : Enables) : Nat :=
  let cand := (merge be data (BitVec.ofNat 32 e.consumed)).toNat
  if cand ≤ 127 ∧ (cand + eventRecords - e.consumed) % eventRecords ≤ e.unread then cand else e.write

/-- A host write to the event-consumed word (R181, R155). -/
def writeConsumed (data : Word) (be : Enables) (c : Chip) : Chip :=
  let v := c.evt.consumedAfter data be
  overrunMarker (release (BitVec.ofNat 32 v) allBytes (onEvt (fun e => { e with consumed := v }) c))

/-! ## The other snooped words -/

/-- A host write to the trim word (R89). -/
def writeTrim (data : Word) (be : Enables) (c : Chip) : Chip :=
  let want := (merge be data (wordOfInt c.gnt.trim)).toInt
  let new := clampInt c.gnt.variRange want
  let c := release (wordOfInt new) allBytes (onGnt (fun g => { g with trim := new }) c)
  if new = want then c else postNotice .trimClamped (postEvent .trimClamped 1 0 want c)

/-- The low half of a word, where the notice words hold their bits. -/
def lowHalf (w : Word) : BitVec 16 := w.extractLsb' 0 16

/-- A host write to the notice mask (R183). -/
def writeMask (data : Word) (be : Enables) (c : Chip) : Chip :=
  let m := lowHalf (merge be data (BitVec.ofNat 32 c.ntc.mask.toNat))
  release data be { c with ntc := ⟨c.ntc.pending &&& m, m⟩ }

/-- A host write to the notice clear (R183). -/
def writeClear (data : Word) (be : Enables) (c : Chip) : Chip :=
  let m := lowHalf (merge be data 0)
  release data be { c with ntc := { c.ntc with pending := c.ntc.pending &&& ~~~m } }

/-- A heartbeat taken by the monitor (R184, R185). -/
def beat (c : Chip) : Chip :=
  if c.set.gen.period = 0 then (if c.mon.st = .silent then onMon (fun _ => ⟨.disarmed, 0⟩) c else c)
  else
    let c := if c.mon.st = .silent then postEvent .heartbeatResumed 0 0 c.mon.elapsed c else c
    onMon (fun _ => ⟨.armed, 0⟩) c

/-- A host write to the heartbeat word. -/
def writeHeartbeat (data : Word) (be : Enables) (c : Chip) : Chip := release data be (beat c)

/-! ## The mailbox's command word (R167 to R169, R171) -/

/-- The lengths a command allows (10.2). -/
def lengthOk (code : Byte) (len : Nat) : Bool :=
  if code = cmdTensionUp ∨ code = cmdClearCue then len == 1
  else if code = cmdRequestGrant then len == 16 || len == 32 || len == 48 || len == 64
  else if code = cmdSetCue then len == 20
  else if code = cmdSetPosition then len == 4
  else len == 0

/-- A reply decided: the mailbox enters REPLY (R171). -/
def reply (result : Result) (detail : Byte) (c : Chip) : Chip :=
  onMbx (fun m => { m with st := .reply, reply := some ⟨result, detail⟩ }) c

/-- The window offsets a command's fetch reads (R169). -/
def fetchOffsets (len : Nat) (check : Bool) : List Nat :=
  let n := len + check.toNat
  (List.range ((n + 3) / 4)).map fun k => dataOffset + 4 * k

/-- A command write taken in IDLE (R168, R169). -/
def takeCommand (data : Word) (be : Enables) (c : Chip) : Chip :=
  let copy := merge be data c.mbx.copy
  let code := byteOf copy 0
  let len := (byteOf copy 2).toNat
  let check := (byteOf copy 1).getLsbD 0
  let c := onMbx (fun m => { m with copy := copy }) c
  if code = 0 then release data be c
  else
    let c := onMbx (fun m => { m with cmd := some ⟨code, check, len⟩, data := [], got := [], aborted := false }) c
    if 12 < code.toNat then reply .unknown detailNone (release data be c)
    else if !lengthOk code len then reply .badLength detailNone (release data be c)
    else if (fetchOffsets len check).isEmpty then onMbx (fun m => { m with st := .run }) (release data be c)
    else hostPhase .fetching (onMbx (fun m => { m with st := .fetch, todo := fetchOffsets len check }) c)

/-- A host write to the command word as the mailbox decides it, past its holds (R168): in RUN a collision. -/
def writeCommand (data : Word) (be : Enables) (c : Chip) : Chip :=
  match c.mbx.st with
  | .idle => takeCommand data be c
  | .run => dropWrite (postWriteDropped 3 commandOffset 0 c)
  | .fetch | .reply => hostPhase .held c

/-- The host's command write released after its fetch (R168). -/
def releaseCommand (c : Chip) : Chip :=
  match c.bus.host with
  | some h => if h.phase = .fetching then release h.cyc.data h.cyc.be c else c
  | none => c

/-- The judgement of a finished fetch (R169): checks 3 and 4, then the dispatch in RUN. -/
def fetchJudged (c : Chip) : Chip :=
  match c.mbx.cmd with
  | none => c
  | some cmd =>
    let bytes := c.mbx.got.flatMap wordBytes
    let data := bytes.take cmd.length
    let c := releaseCommand c
    if c.mbx.aborted then reply .refused detailMemory c
    else if cmd.check ∧ bytes.getD cmd.length 0 ≠ crc8 data then reply .badCheck detailNone c
    else onMbx (fun m => { m with st := .run, data := data }) c

/-- A word of the mailbox's fetch read, or aborted (R169). -/
def mailRead (w : Word) (aborted : Bool) (c : Chip) : Chip :=
  let c := onMbx (fun m => { m with todo := m.todo.tail, got := m.got ++ [w], aborted := m.aborted || aborted }) c
  if c.mbx.todo.isEmpty then fetchJudged c else c

/-! ## The rings' words (R94) -/

/-- A write to a slot as the intake decides it (R94, R95, R100, R102, R103). -/
def writeSlot (id : RingId) (slot word : Nat) (data : Word) (be : Enables) (c : Chip) : Chip :=
  let r := c.pln.ring id
  let s := r.slot slot
  let owner := word = 0 ∧ be.getLsbD 0
  match s.view with
  | .host =>
    if owner ∧ ownPart data then
      if slot = r.intake then
        hostPhase .screening
          (onPln (fun p => { p with fetch := some ⟨id, slot, data, be, fetchWords be, [], false⟩ }) c)
      else
        let out := withOwner data be (BitVec.ofNat 8 RefCode.order.code)
        let w := merge be data 0
        release out.1 out.2 (postRefused id slot .order (w.toNat / 65536) c)
    else release data be c
  | .queued =>
    if owner ∧ !ownPart data ∧ slot = r.before r.intake then
      let out := withOwner data be (BitVec.ofNat 8 Status.recalled.code)
      release out.1 out.2 (onPln (fun p => p.withRing id r.recall) c)
    else dropWrite (postWriteDropped 1 (slotOffset id slot + 4 * word) ((s.record.getD Record.blank).tag) c)
  | .current => dropWrite (postWriteDropped 1 (slotOffset id slot + 4 * word) ((s.record.getD Record.blank).tag) c)

/-! ## Classification (R152, R163) -/

/-- A write into the settings image (R173). -/
def writeImage (p : Nat) (data : Word) (be : Enables) (c : Chip) : Chip :=
  match imageDrop p c with
  | some detail => dropWrite (postWriteDropped detail (settingsOffset + p) 0 c)
  | none =>
    let c := takeImageWrite p data be c
    release (c.set.imageWord p) allBytes c

/-- A host write to a window word of the running part, past its holds (R152). -/
def windowWrite (off : Nat) (data : Word) (be : Enables) (c : Chip) : Chip :=
  match slotOf off with
  | some (id, slot, word) => writeSlot id slot word data be c
  | none =>
    if off = heartbeatOffset then writeHeartbeat data be c
    else if off = maskOffset then writeMask data be c
    else if off = clearOffset then writeClear data be c
    else if off = trimOffset then writeTrim data be c
    else if off = consumedOffset then writeConsumed data be c
    else if off = commandOffset then writeCommand data be c
    else if settingsOffset ≤ off ∧ off < 0x600 then writeImage (off - settingsOffset) data be c
    else if inCueImage off then dropWrite (postWriteDropped 2 off 0 c)
    else release data be c

/-- A live-window read of the running part: the group head latches (R153, R154). -/
def readLive (k : Nat) (c : Chip) : Chip :=
  let c := if k = 4 then onBus (fun b => { b with snap := some (snapNow c) }) c else c
  completeHost (.read (liveWord c k)) c

/-- A window cycle of the running part, past its holds (R152). -/
def disposeRunning (cy : HostCyc) (off : Nat) (c : Chip) : Chip :=
  if cy.write then windowWrite off cy.data cy.be c else release cy.data cy.be c

/-- A window cycle in start-up, past its holds (R163). -/
def disposeStartup (cy : HostCyc) (c : Chip) : Chip := if cy.write then dropWrite c else release cy.data cy.be c

/-- A window cycle to a word of the live window (R153, R163). -/
def disposeLive (cy : HostCyc) (off : Nat) (c : Chip) : Chip :=
  if cy.write then dropWrite c
  else if c.mode = .startup then completeHost (.read (startingWord (off / 4))) c
  else readLive (off / 4) c

/-- A cycle taken as R152 or R163 gives, or held, by the window offset its address names. -/
def classifyAt (h : HostPort) (c : Chip) : Option Nat → Chip
  | none => release h.cyc.data h.cyc.be c
  | some off =>
    if off < 0x100 then disposeLive h.cyc off c
    else if heldCycle off h.cyc.write c then hostPhase .held c
    else if c.mode = .startup then disposeStartup h.cyc c
    else disposeRunning h.cyc off c

/-- The host cycle at the port taken. -/
def classify (c : Chip) : Chip :=
  match c.bus.host with
  | none => c
  | some h => classifyAt h c (windowOffset c h.cyc.addr.toNat)

/-- A cycle the host drives at an empty port (R151, R152, R162). -/
def driveCycle (cy : HostCyc) (c : Chip) : Chip :=
  match c.mode with
  | .bypass => onBus (fun b => { b with host := some ⟨cy, .bypassed⟩, done := .none }) c
  | .startup | .running => classify (onBus (fun b => { b with host := some ⟨cy, .held⟩, done := .none }) c)

/-- The path with a cycle for the host to drive next; one already stands (log 36). -/
def Bus.queueNext (b : Bus) (cy : HostCyc) : Bus := { b with next := some (b.next.getD cy) }

/-- A cycle of the host's: driven at an empty port, and otherwise the one it drives as the cycle at the port ends (R158;
log 36). -/
def startCycle (cy : HostCyc) (c : Chip) : Chip :=
  match c.bus.host with
  | some _ => onBus (·.queueNext cy) c
  | none => driveCycle cy c

/-- The host's next cycle, driven as the one before it has ended, whose answer is kept (R159; logs 36 and 37). -/
def driveNext (c : Chip) : Chip :=
  match c.bus.host, c.bus.next with
  | none, some cy => driveCycle cy (onBus (fun b => { b with next := none, prior := b.done }) c)
  | _, _ => c

/-- The host's next cycle driven at the end of a memory cycle, with what the end of a command brings where it is. -/
def driveOn (c : Chip) : Chip :=
  match c.bus.host, c.bus.next with
  | none, some _ => tail (driveNext c)
  | _, _ => c

/-- A cycle of the host to a window word (the rows of the table that name one). -/
def windowCycle (off : Nat) (write : Bool) (data : Word) (be : Enables) (c : Chip) : HostCyc :=
  ⟨BitVec.ofNat 24 (windowAddr c off), write, data, be⟩

/-! ## The end of a memory cycle -/

/-- The MEMORY_FAULT event's details (12.8). -/
def faultHostRead : Nat := 1
def faultHostWrite : Nat := 2
def faultPartWrite : Nat := 3
def faultFetchRead : Nat := 4

/-- An aborted cycle posted (R161). -/
def postMemoryFault (detail addr : Nat) (c : Chip) : Chip :=
  postNotice .memoryFault (postEvent .memoryFault detail 0 addr c)

/-- A word of the hand-off's fetch read, or aborted (R95). -/
def handRead (k : Nat) (w : Word) (aborted : Bool) (c : Chip) : Chip :=
  onPln (fun p => { p with fetch := p.fetch.map fun h =>
    { h with todo := h.todo.tail, got := h.got ++ [(k, w)], aborted := h.aborted || aborted } }) c

/-- A sweep read completed (R109): an OWN=PART slot is returned ABANDONED. -/
def sweepRead (n : Nat) (w : Word) (c : Chip) : Chip :=
  let c := onPln (fun p => { p with sweep := some (n + 1) }) c
  if ownPart w then
    postWrite .sweep ⟨slotOffset (sweepSlot n).1 (sweepSlot n).2, withByte0 0 (BitVec.ofNat 8 Status.abandoned.code),
      ownerByteOnly⟩ c
  else c

/-- The head of the queue made or dropped (R156, R159). -/
def queueHeadGone (c : Chip) : Chip := onBus (fun b => { b with queue := b.queue.tail, passOver := 0 }) c

/-- The memory port free. -/
def freePort (c : Chip) : Chip := onBus (fun b => { b with port := none }) c

/-- What a completed memory cycle is to the part, given the word memory held at it. -/
def cycleDone (cy : Cycle) (w : Word) (c : Chip) : Chip :=
  match cy with
  | .host _ write _ _ _ => completeHost (if write then .wrote else .read w) c
  | .part _ _ => queueHeadGone c
  | .handRead _ k => handRead k w false c
  | .mailRead _ => mailRead w false c
  | .sweepRead _ n => sweepRead n w c
  | .orphanWrite _ _ _ | .orphanRead => c

/-- The address of a cycle's word. -/
def Cycle.addr : Cycle → Nat
  | .host a _ _ _ _ | .part a _ | .handRead a _ | .mailRead a | .sweepRead a _ | .orphanWrite a _ _ => a / 4 * 4
  | .orphanRead => 0

/-- What a completed cycle makes of memory. -/
def cycleWrites (cy : Cycle) (m : Memory) : Memory :=
  match cy with
  | .host _ true data be _ => m.writeWord cy.addr data be
  | .part _ w => m.writeWord cy.addr w.data w.be
  | .orphanWrite _ data be => m.writeWord cy.addr data be
  | .host _ false _ _ _ | .handRead _ _ | .mailRead _ | .sweepRead _ _ | .orphanRead => m

/-- A write of an event record's word (R161). -/
def isEventWrite (w : PartWrite) : Bool := decide (0x4000 ≤ w.offset ∧ w.offset < 0x4800)

/-- What an ended cycle is to the part at the memory response limit (R160, R161). -/
def cycleAborted (cy : Cycle) (c : Chip) : Chip :=
  match cy with
  | .host _ write _ _ _ =>
    postMemoryFault (if write then faultHostWrite else faultHostRead) cy.addr
      (completeHost (if write then .wrote else .read 0xFFFFFFFF) { c with free := if write then c.free + 1 else c.free })
  | .part _ w =>
    if isEventWrite w then postNotice .memoryFault (queueHeadGone c)
    else postMemoryFault faultPartWrite cy.addr (queueHeadGone c)
  | .handRead _ k => postMemoryFault faultFetchRead cy.addr (handRead k 0xFFFFFFFF true c)
  | .mailRead _ => mailRead 0xFFFFFFFF true (postMemoryFault faultFetchRead cy.addr c)
  | .sweepRead _ n =>
    postMemoryFault faultFetchRead cy.addr (onPln (fun p => { p with sweep := some (n + 1) }) c)
  | .orphanWrite _ _ _ | .orphanRead => c

/-- What an ended cycle leaves in memory: an unknown word where a host write was made (R160, log 12). -/
def cycleLost (cy : Cycle) (free : Nat) (m : Memory) : Memory :=
  match cy with
  | .host _ true _ _ _ => m.writeWord cy.addr (Config.abortedWord free) allBytes
  | .host _ false _ _ _ | .part _ _ | .handRead _ _ | .mailRead _ | .sweepRead _ _ | .orphanWrite _ _ _ | .orphanRead => m

/-- A cycle the memory response limit does not end: a window cycle the host makes under the bypass (log 28). -/
def Cycle.unlimited : Cycle → Bool
  | .host _ _ _ _ bypass => bypass
  | .part _ _ | .handRead _ _ | .mailRead _ | .sweepRead _ _ | .orphanWrite _ _ _ | .orphanRead => false

end Sys2Proof.Machine
end

