-- ==== Sys2Proof/Machine/ExecMeasure.lean ====
section
/-! DEFINITION. The meanings of the commands of the tape path and of time: the roller, the tachometers, the capstan
tachometer, the always-on millisecond, the path and end sensors, the arms (ch. 1, 2.3). -/

namespace Sys2Proof.Machine

/-! ## ROLLER_COUNT (R1) -/

/-- What the tracker posts of a roller count: a stuck count that ends POSITION_VALID (R2), an end flag cleared (R14). Where
one count does both, the spec orders the two posts nowhere, and POSITION_LOST comes first (DESIGN CHOICE, log 55). -/
def rollPosts (old : Tracker) (d : Dir) (c : Chip) : Chip :=
  let c := if old.sticks d ∧ old.valid then postTrackerEvent .positionLost 1 c else c
  if old.endFlag ≠ .none ∧ c.trk.endFlag = .none then postTrackerEvent .endFlag 0 c else c

/-- A roller count taken by the part (R1, R2, R5, R8, R14, R121, R124, R144, R148). -/
def rollStep (d : Dir) (c : Chip) : Chip :=
  let c := settleMoves c
  let old := c.trk
  let c := rollPosts old d (onTrk (·.count c.pins.leader d) c)
  if c.locateCurrent ∧ c.trk.valid = false then locateLost c else rollCurrent d c

/-- ROLLER_COUNT. -/
def execRollerCount (d : Dir) (s : State) : Host.Outcome State Fault Refusal :=
  .next (s.onChip fun c => done (rollStep d c))

/-! ## TACH_PULSE (R8) and CAPSTAN_PULSE (R62) -/

/-- A tachometer pulse in the tracker (R6, R8, R9). -/
def Tracker.tachPulse (t : Tracker) (r : Reel) : Tracker := t.withReel r ((t.reel r).pulse t.tapeSpeed)

/-- TACH_PULSE. -/
def execTachPulse (r : Reel) (s : State) : Host.Outcome State Fault Refusal :=
  .next (s.onChip fun c => done (onTrk (·.tachPulse r) c))

/-- CAPSTAN_PULSE: a pulse in the 20 ms window (R62). -/
def execCapstanPulse (s : State) : Host.Outcome State Fault Refusal :=
  .next (s.onChip fun c => onDrive (fun d => { d with capWin := bumpNat d.capWin }) c)

/-! ## SPEED_WINDOW_TICK (R5, R15, R63, R71) -/

/-- The end of a controlled stop (R47). -/
def stopEnd (c : Chip) : Chip :=
  if c.sup.ts = .stopping ∧ c.eng.ref = 0 ∧ c.eng.haltHold = false ∧ c.trk.reelsStopped then
    takeQueued (enter .held (idleEngine c))
  else c

/-- Both arms are IN. -/
def Supervisor.bothIn (s : Supervisor) : Bool := s.clsSup == .inBand && s.clsTup == .inBand

/-- The end of a catch (R55): the reference speed 0 and both reels stopped, and the pinch movement R54 began over, even where
the speed was 0 from the claim (DESIGN CHOICE, log 44). -/
def catchEnd (c : Chip) : Chip :=
  if c.sup.ts = .catching ∧ c.sup.claimPending = false ∧ c.sup.catchHold = false ∧ c.eng.ref = 0 ∧
      c.trk.reelsStopped then
    enter (if c.sup.bothIn then .held else .slacking) c
  else c

/-- The always-on millisecond (R5, R6, R11, R49, R62, R63, R71), with what the falling speeds bring (R47, R55, R146). -/
def tickStep (c : Chip) : Chip :=
  let c := settleMoves c
  let c := followReels (onDrive (·.tick) (onTrk (·.tick) c))
  judgeBrake (catchEnd (stopEnd c))

/-- SPEED_WINDOW_TICK. -/
def execSpeedWindowTick (s : State) : Host.Outcome State Fault Refusal :=
  .next (s.onChip fun c => done (tickStep c))

/-! ## The path sensor (R11, R12) -/

/-- The path pin's level set. -/
def setPathPin (b : Bool) (c : Chip) : Chip := { c with pins := { c.pins with path := b } }

/-- The path sensor reads present (R11). -/
def pathPresentStep (c : Chip) : Chip :=
  let c := setPathPin true c
  if c.trk.path = .absent then onTrk (fun t => { t with path := .pending, debounce := 0 }) c else c

/-- PATH_SENSOR_PRESENT. -/
def execPathSensorPresent (s : State) : Host.Outcome State Fault Refusal := .next (s.onChip pathPresentStep)

/-- The debounce time, ms. -/
def debounceTime : Nat := 80

/-- TAPE_PATH posted, with its notice (R11, R12). -/
def postTapePath (detail : Nat) (c : Chip) : Chip := postTrackerNotice .tapePath (postTrackerEvent .tapePath detail c)

/-- The debounce ends (R11), and the supervisor is told (R20). -/
def debounceStep (c : Chip) : Chip :=
  if c.trk.path = .pending ∧ debounceTime ≤ c.trk.debounce then
    let c := postTapePath 1 (onTrk (fun t => { t with path := .present, debounce := 0 }) c)
    if c.sup.up ∧ c.sup.ts = .unthreaded then enter .threaded c else c
  else c

/-- PATH_DEBOUNCE_EXPIRY. -/
def execPathDebounceExpiry (s : State) : Host.Outcome State Fault Refusal :=
  .next (s.onChip fun c => done (debounceStep c))

/-- The supervisor told of an absence (R20, R28). -/
def absenceTold (c : Chip) : Chip :=
  if c.sup.up then
    match c.sup.ts with
    | .threaded => enter .unthreaded c
    | .unthreaded => c
    | .tensioning | .held | .moving | .stopping | .slacking | .tripped | .catching => trip .pathLost .none c
  else c

/-- The path lost in PRESENT (R12): the position, the radii, the end flag, and a LOCATE then current (R148, log 24). -/
def pathLostStep (c : Chip) : Chip :=
  let was := c.trk.valid
  let c := onTrk (·.lose) c
  let c := if was then postTrackerEvent .positionLost 2 c else c
  let c := postTapePath 2 c
  absenceTold (if c.locateCurrent then endCur .missed c else c)

/-- The path sensor reads absent (R11, R12). -/
def pathAbsentStep (c : Chip) : Chip :=
  let c := setPathPin false c
  match c.trk.path with
  | .absent => c
  | .pending => onTrk (fun t => { t with path := .absent, debounce := 0 }) c
  | .present => pathLostStep c

/-- PATH_ABSENT. -/
def execPathAbsent (s : State) : Host.Outcome State Fault Refusal :=
  .next (s.onChip fun c => done (pathAbsentStep c))

/-! ## END_SENSOR_LEADER (R13) -/

/-- The flag a direction sets (R13). -/
def flagOf : Dir → EndFlag
  | .forward => .forwardEnd
  | .reverse => .reverseEnd

/-- The end sensor's reading changes (R13, R14, R131). -/
def endSensorStep (leader : Bool) (c : Chip) : Chip :=
  let was := c.pins.leader
  let c := { c with pins := { c.pins with leader := leader } }
  let c := if leader then onTrk (fun t => { t with clearing := 0 }) c else c
  match c.trk.lastDir with
  | some d =>
    if leader ∧ was = false ∧ c.trk.endFlag = .none then
      let c := onTrk (fun t => { t with endFlag := flagOf d }) c
      newEndFlag (postTrackerNotice .tapeEnd (postTrackerEvent .endFlag (flagOf d).code c))
    else c
  | none => c

/-- END_SENSOR_LEADER. -/
def execEndSensorLeader (leader : Bool) (s : State) : Host.Outcome State Fault Refusal :=
  .next (s.onChip fun c => done (endSensorStep leader c))

/-! ## ARM_SAMPLE (R15, R23) -/

/-- A reading held by the tracker (R15). -/
def Tracker.armRead (t : Tracker) (r : Reel) (v : BitVec 12) : Tracker := t.withReel r { t.reel r with arm := v }

/-- A timer of a condition across a sample (R26, R36). -/
def sampleTimer (runs was now : Bool) (t : Option Nat) : Option Nat :=
  if !runs then t else if !now then none else if was then t else some 0

/-- A class given to an arm by a sample (R23), with the timers it starts and stops (R26, R36). -/
def Supervisor.classify (s : Supervisor) (r : Reel) (cl : ArmClass) : Supervisor :=
  let n := match r with
    | .supply => { s with clsSup := cl, seenSup := true }
    | .takeup => { s with clsTup := cl, seenTup := true }
  { n with
    brk := sampleTimer s.ts.runsBreak s.slackArm n.slackArm s.brk
    exc := sampleTimer s.ts.runsExcursion s.strayArm n.strayArm s.exc }

/-- The class of a reading now: NONE while no profile is threaded (R23). -/
def classNow (c : Chip) (v : BitVec 12) : ArmClass :=
  match c.sup.threaded with
  | some _ => classOf c.profile v.toNat
  | none => .none

/-- The side of the arms in a class; `other` tells whether the other arm is in it too (R26, R27). -/
def armSide (a b : Bool) : Side :=
  match a, b with
  | true, true => .both
  | true, false => .supply
  | false, true => .takeup
  | false, false => .none

/-- The catch fails at the claim (R52). -/
def claimFails (c : Chip) : Bool :=
  decide (c.set.gen.catchLimit < c.trk.maxSurface) || c.sup.slackArm || c.sup.clsSup == .overLevel || c.sup.clsTup == .overLevel

/-- The judgement of R52 made. -/
def claimJudged (c : Chip) : Chip := onSup (fun s => { s with claimPending := false }) c

/-- The judgement at the claim (R52, R53; log 20): a trip taken before it has claimed the carry, and a judgement that fails
then posts its TRIP event alone (R30). One that fails in CATCHING makes the transport TRIPPED from its start. -/
def judgeClaim (c : Chip) : Chip :=
  if c.sup.ts = .tripped then claimJudged (if claimFails c then trip .catchFailed .none c else c)
  else if c.drv.carry ≠ .held ∨ claimFails c then failStart c.drv.ownStop (claimJudged (claimCarry c))
  else catchBegin (claimJudged (claimCarry c))

/-- The reel's class as it stands. -/
def Supervisor.cls (s : Supervisor) : Reel → ArmClass
  | .supply => s.clsSup
  | .takeup => s.clsTup

/-- What the supervisor does at a sample (R23, R27, R52). -/
def sampleTaken (r : Reel) (v : BitVec 12) (c : Chip) : Chip :=
  let c := onSup (·.classify r (classNow c v)) c
  if c.sup.claimPending then (if c.sup.seenSup ∧ c.sup.seenTup then judgeClaim c else c)
  else if c.sup.cls r = .overLevel ∧ (c.sup.tense ∨ c.sup.ts = .catching) then
    trip .armOver (armSide (c.sup.clsSup == .overLevel) (c.sup.clsTup == .overLevel)) c
  else c

/-- An arm sampled. -/
def armStep (r : Reel) (v : BitVec 12) (c : Chip) : Chip :=
  let c := onTrk (·.armRead r v) c
  if c.sup.up then sampleTaken r v c else c

/-- ARM_SAMPLE. -/
def execArmSample (r : Reel) (v : BitVec 12) (s : State) : Host.Outcome State Fault Refusal :=
  .next (s.onChip fun c => done (armStep r v c))

end Sys2Proof.Machine
end

