-- ==== Sys2Proof/Machine/ExecFault.lean ====
section
/-! DEFINITION. The meanings of the fault inputs (R28, R34, R65) and of the supervisor's timers (R26, R36, R40, R43). -/

namespace Sys2Proof.Machine

/-- A trip cause of an input, or its FAULT_INPUT event where the drives are off (R28). -/
def inputCause (detail : Nat) (cause : TripCause) (side : Side) (c : Chip) : Chip :=
  if c.sup.up then
    if c.sup.ts.trips then trip cause side c else postEvent .faultInput detail 0 0 c
  else c

/-- POWER_FAIL_N asserted (R28). -/
def powerFailStep (c : Chip) : Chip :=
  if c.pins.powerFail then c
  else inputCause 1 .powerLoss .none { c with pins := { c.pins with powerFail := true } }

/-- POWER_FAIL. -/
def execPowerFail (s : State) : Host.Outcome State Fault Refusal := .next (s.onChip fun c => done (powerFailStep c))

/-- FLT_SUPPLY or FLT_TUP asserted (R28, R60). -/
def driveFaultStep (r : Reel) (c : Chip) : Chip :=
  match r with
  | .supply =>
    if c.pins.fltSupply then c
    else
      let c := { c with pins := { c.pins with fltSupply := true } }
      inputCause 2 .driveFault (faultSide c.pins) c
  | .takeup =>
    if c.pins.fltTup then c
    else
      let c := { c with pins := { c.pins with fltTup := true } }
      inputCause 3 .driveFault (faultSide c.pins) c

/-- DRIVE_FAULT. -/
def execDriveFault (r : Reel) (s : State) : Host.Outcome State Fault Refusal :=
  .next (s.onChip fun c => done (driveFaultStep r c))

/-- FLT_CAP asserted: the stage's release first (R65), then the supervisor's cause (R34). The lifters stand: R65 orders none
(DESIGN CHOICE, log 57). -/
def fltCapStep (c : Chip) : Chip :=
  if c.pins.fltCap then c
  else
    let c := onDrive (·.release c.pinchFull) { c with pins := { c.pins with fltCap := true } }
    if c.sup.up then stopCause .capstanFault c else c

/-- FLT_CAP. -/
def execFltCap (s : State) : Host.Outcome State Fault Refusal := .next (s.onChip fun c => done (fltCapStep c))

/-- An input gone inactive (R28, R34, R65). -/
def releasePin (p : Pins) (pin : FaultPin) : Pins :=
  match pin with
  | .powerFail => { p with powerFail := false }
  | .fltSupply => { p with fltSupply := false }
  | .fltTup => { p with fltTup := false }
  | .fltCap => { p with fltCap := false }

/-- FAULT_INPUT_RELEASED: it posts nothing and changes no other state. -/
def execFaultInputReleased (pin : FaultPin) (s : State) : Host.Outcome State Fault Refusal :=
  .next (s.onChip fun c => { c with pins := releasePin c.pins pin })

/-- A timer has reached a limit. -/
def expired (t : Option Nat) (limit : Nat) : Bool :=
  match t with
  | some n => decide (limit ≤ n)
  | none => false

/-- The break timer's expiry (R26). -/
def breakStep (c : Chip) : Chip :=
  if c.sup.up ∧ c.sup.ts.runsBreak ∧ c.sup.claimPending = false ∧ expired c.sup.brk c.set.gen.breakTime then
    trip .tapeBreak (armSide (c.sup.clsSup == .slack) (c.sup.clsTup == .slack)) c
  else c

/-- BREAK_TIMER_EXPIRY. -/
def execBreakTimerExpiry (s : State) : Host.Outcome State Fault Refusal := .next (s.onChip fun c => done (breakStep c))

/-- The arms a test holds of: 1 supply, 2 take-up, 3 both (R36, R40). -/
def armsValue (a b : Bool) : Int := (a.toNat + 2 * b.toNat : Nat)

/-- The grant unit's answer to a derate request (R86), by the state in which it takes it. -/
def derateRequest (c : Chip) : Chip :=
  if c.sup.ts.takesDerate then
    match c.gnt.fallback with
    | g :: rest => derateTo g rest c
    | [] => stopCause .excursion c
  else c

/-- The excursion timer's expiry (R36). The derate request is made and taken in this one step, so that it finds MOVING and
never a later state (R32, R86; DESIGN CHOICE, log 52). -/
def excursionStep (c : Chip) : Chip :=
  if c.sup.up ∧ c.sup.ts.runsExcursion ∧ expired c.sup.exc c.set.gen.excursion then
    let moving := c.sup.ts = .moving
    let arms := armsValue (outOfBand c.sup.clsSup) (outOfBand c.sup.clsTup)
    let c := postEvent .armExcursion (if moving then 1 else 2) c.curTag arms c
    let c := onSup (fun s => { s with exc := if s.strayArm then some 0 else none }) c
    if moving then derateRequest c else c
  else c

/-- EXCURSION_TIMER_EXPIRY. -/
def execExcursionTimerExpiry (s : State) : Host.Outcome State Fault Refusal :=
  .next (s.onChip fun c => done (excursionStep c))

/-- The settle timer's expiry (R40). -/
def settleStep (c : Chip) : Chip :=
  if c.sup.ts = .tensioning ∧ expired c.sup.settle c.set.gen.settle then
    if c.sup.bothIn then enter .held c
    else
      let arms := armsValue (c.sup.clsSup != .inBand) (c.sup.clsTup != .inBand)
      enter .slacking (postEvent .settleTimeout ((c.sup.threaded.map Fin.val).getD 0) 0 arms c)
  else c

/-- SETTLE_TIMER_EXPIRY. -/
def execSettleTimerExpiry (s : State) : Host.Outcome State Fault Refusal := .next (s.onChip fun c => done (settleStep c))

/-- The reference reaches 0 in SLACKING (R43). -/
def slackZeroStep (c : Chip) : Chip :=
  if c.sup.ts = .slacking ∧ c.sup.off = none ∧ c.sup.tense = false then engageBrakes c else c

/-- SLACK_REFERENCE_ZERO. -/
def execSlackReferenceZero (s : State) : Host.Outcome State Fault Refusal :=
  .next (s.onChip fun c => done (slackZeroStep c))

/-- The off delay has run. -/
def OffDelay.over (o : OffDelay) : Bool := decide (o.limit ≤ o.elapsed)

/-- The off delay ends (R43): both drives OFF, THREADED. -/
def offDelayStep (c : Chip) : Chip :=
  match c.sup.off with
  | some o => if c.sup.ts = .slacking ∧ o.over then enter .threaded (onDrive (·.orderBoth .off 0 true) c) else c
  | none => c

/-- OFF_DELAY_EXPIRY. -/
def execOffDelayExpiry (s : State) : Host.Outcome State Fault Refusal := .next (s.onChip fun c => done (offDelayStep c))

end Sys2Proof.Machine
end

