-- ==== Sys2Proof/Machine/ExecMotion.lean ====
section
/-! DEFINITION. The meanings of the commands of motion: the pinch, the millisecond of the transport clock, a segment's
duration, the starve timer (R63, R119, R121, R134), and the host-silence timer (R185). -/

namespace Sys2Proof.Machine

/-! ## PINCH_MOVEMENT_END (R63) -/

/-- The engine and the supervisor told how a movement ended (R63). -/
def pinchReport (was : Pinch) (c : Chip) : Chip :=
  if c.sup.up then
    match was, c.drv.pinch with
    | .goingIn, .pinched => pinchInReport c
    | .goingIn, .goingOut => pinchTurnReport c
    | .goingOut, .out => pinchOutReport c
    | _, _ => c
  else c

/-- A pinch movement ends (R63, R64). -/
def pinchStep (c : Chip) : Chip :=
  let c := settleMoves c
  if c.drv.pinchDue then
    pinchReport c.drv.pinch (onDrive (·.pinchEnds c.stageState.admitsPinch c.pinchFull) c)
  else c

/-- PINCH_MOVEMENT_END. -/
def execPinchMovementEnd (s : State) : Host.Outcome State Fault Refusal := .next (s.onChip fun c => done (pinchStep c))

/-! ## REFERENCE_SPEED_UPDATE (R119) -/

/-- A running timer's millisecond. -/
def tickTimer (t : Option Nat) : Option Nat := t.map (· + 1)

/-- The supervisor's timers and its tension reference, a millisecond on (R24, R26, R36, R39, R43). -/
def Supervisor.tick (s : Supervisor) : Supervisor :=
  { s with
    brk := tickTimer s.brk
    exc := tickTimer s.exc
    settle := tickTimer s.settle
    off := s.off.map fun o => { o with elapsed := o.elapsed + 1 }
    tension := if s.claimPending then s.tension else s.tension.tick }

/-- The engine's timers, a millisecond on (R112, R134). -/
def Engine.tick (e : Engine) : Engine :=
  { e with cur := e.cur.map fun s => { s with timer := tickTimer s.timer }, starve := tickTimer e.starve }

/-- The silence timer, a millisecond on: the time since the last heartbeat (R184, R185), counted without bound and not
counted in DISARMED (DESIGN CHOICE, log 54). -/
def Monitor.tick (m : Monitor) : Monitor := if m.st = .disarmed then m else { m with elapsed := m.elapsed + 1 }

/-- A millisecond of the transport clock in the timers of the part. -/
def clockTick (c : Chip) : Chip :=
  { c with clock := c.clock + 1, sup := c.sup.tick, eng := c.eng.tick, mon := c.mon.tick }

/-- The millisecond update (R119, R46, R54). -/
def referenceStep (c : Chip) : Chip :=
  if c.mode = .bypass then c else judgeBrake (updateReference (clockTick (settleMoves c)))

/-- REFERENCE_SPEED_UPDATE. -/
def execReferenceSpeedUpdate (s : State) : Host.Outcome State Fault Refusal :=
  .next (s.onChip fun c => done (referenceStep c))

/-! ## The segment's and the engine's timers -/

/-- A duration runs out (R121, R124, R126). -/
def durationStep (c : Chip) : Chip :=
  let c := settleMoves c
  if canTake c then durationEnds c else c

/-- DURATION_TIMER_EXPIRY. -/
def execDurationTimerExpiry (s : State) : Host.Outcome State Fault Refusal :=
  .next (s.onChip fun c => done (durationStep c))

/-- The starve timer's expiry (R134). -/
def starveStep (c : Chip) : Chip :=
  if c.eng.est = .starved ∧ c.sup.ts = .moving ∧ expired c.eng.starve c.set.gen.starve then stopCause .starved c else c

/-- STARVE_TIMER_EXPIRY. -/
def execStarveTimerExpiry (s : State) : Host.Outcome State Fault Refusal := .next (s.onChip fun c => done (starveStep c))

/-! ## SILENCE_TIMER_EXPIRY (R185) -/

/-- The silence timer's expiry: more than the period has passed. -/
def silenceStep (c : Chip) : Chip :=
  if c.mon.st = .armed ∧ c.set.gen.period ≠ 0 ∧ c.set.gen.period < c.mon.elapsed then
    let c := onMon (fun m => { m with st := .silent }) c
    let c := postNotice .hostSilence
      (postEvent .hostSilence c.set.gen.stopMode.toNat 0 (c.set.gen.period : Int) c)
    if c.set.gen.stopMode then stopCause .hostSilence c else c
  else c

/-- SILENCE_TIMER_EXPIRY. -/
def execSilenceTimerExpiry (s : State) : Host.Outcome State Fault Refusal :=
  .next (s.onChip fun c => done (silenceStep c))

end Sys2Proof.Machine
end

