-- ==== Sys2Proof/Machine/ExecReset.lean ====
section
/-! DEFINITION. The meanings of the resets and of start-up: POWER_ON, the assertion and release of RESET_N, the settings
load, the supervisor's start, the carry's expiry, the recovery sweep, the end of start-up (R16, R18, R51, R68 to R72, R109,
R162 to R166, R178). -/

namespace Sys2Proof.Machine

/-! ## POWER_ON (R72) -/

/-- The part in the power-on reset, with the input levels found then; the store's content stands (R176). -/
def powerOnChip (pins : Pins) (c : Chip) : Chip :=
  { Chip.reset with
    pins := pins
    free := c.free + 1
    trk := if pins.path then { Tracker.reset with path := .pending } else Tracker.reset
    set := { Store.reset with nv := (c.set.stopSave (Config.saveWritesMade c.free)).nv } }

/-- POWER_ON. -/
def execPowerOn (pins : Pins) (s : State) : Host.Outcome State Fault Refusal := .next (s.onChip (powerOnChip pins))

/-! ## RESET_N_ASSERTED (R68, R69, R162) -/

/-- The carry record written at the assertion (R68). -/
def carryNow (c : Chip) : CarryRec :=
  { ts := c.stageState
    threaded := if c.sup.up then c.sup.threaded else none
    tension := if c.sup.up then c.sup.tension.value else (0, 1)
    brakeSafe := c.set.gen.brakeSafe }

/-- The stage at the assertion: a carry written where none stands (R68, R69). -/
def Drive.assertCarry (d : Drive) (r : CarryRec) : Drive :=
  match d.carry with
  | .none => { d with carry := .held, carryRec := some r, carryTimer := some 0 }
  | .held | .expired => d

/-- A memory cycle in progress at the assertion: the part's own runs on for no block (R162). -/
def Cycle.orphaned : Cycle → Cycle
  | .part a w => .orphanWrite a w.data w.be
  | .handRead _ _ | .mailRead _ | .sweepRead _ _ => .orphanRead
  | .host a w d b y => .host a w d b y
  | .orphanWrite a d b => .orphanWrite a d b
  | .orphanRead => .orphanRead

/-- A host cycle at the assertion: in progress it goes on, held or waiting it is released into the bypass (R162). -/
def HostPort.bypass (h : HostPort) : HostPort :=
  match h.phase with
  | .inPort => h
  | .held | .screening | .fetching | .ready _ _ | .bypassed => { h with phase := .bypassed }

/-- The path, the queue and the arbiter at the assertion (R166). -/
def Bus.assertReset (b : Bus) : Bus :=
  { Bus.reset with
    winsel := b.winsel
    startCount := b.startCount
    startCause := .resetPin
    port := b.port.map Cycle.orphaned
    host := b.host.map HostPort.bypass
    done := b.done
    next := b.next
    prior := b.prior }

/-- The settings store at the assertion: a save stopped (R176); the working settings stand until the load. -/
def Store.assertReset (s : Store) (k : Nat) : Store :=
  { Store.reset with nv := (s.stopSave k).nv, gen := s.gen, profs := s.profs }

/-- The path at an assertion that finds the bypass: an end of it that waits is called off (R162), and where the power-on
reset had been released the reset is now a warm one (R166; log 11). -/
def Bus.assertAgain (b : Bus) : Bus :=
  { b with ending := none, startCause := if b.ending.isSome then .resetPin else b.startCause }

/-- RESET_N asserted: the always-on domain keeps its state (R16, R72), everything else is in reset, and a carry is written
where none stands (R68, R69). Under the bypass already, everything else is in reset. -/
def assertResetStep (c : Chip) : Chip :=
  if c.mode = .bypass then { c with drv := c.drv.assertCarry (carryNow c), bus := c.bus.assertAgain }
  else arbitrate
    { Chip.reset with
      clock := c.clock
      pins := c.pins
      free := c.free + 1
      trk := c.trk
      drv := c.drv.assertCarry (carryNow c)
      set := c.set.assertReset (Config.saveWritesMade c.free)
      bus := c.bus.assertReset }

/-- RESET_N_ASSERTED. -/
def execResetNAsserted (s : State) : Host.Outcome State Fault Refusal := .next (s.onChip assertResetStep)

/-! ## RESET_N_RELEASED (R151, R162, R164) -/

/-- The tombstone's writes (R164). -/
def tombstone : List PartWrite :=
  (List.range 64).map fun k => ⟨4 * k, if k = 0 then bytes4 downCode 0 0 0 else 0, allBytes⟩

/-- The start-up phase begins with the tombstone (R151, R164, R165). -/
def beginStartup (winsel : BitVec 4) (c : Chip) : Chip :=
  postWrites .startUp tombstone { c with
    mode := .startup
    clock := 0
    bus := { c.bus with winsel := winsel, startCount := c.bus.startCount + 1, ending := none } }

/-- A reset that has ended: the bypass ends between host cycles, and the start-up phase then begins (R162). -/
def bypassEnds (c : Chip) : Chip :=
  match c.bus.ending with
  | some winsel => if c.mode = .bypass ∧ c.bus.host = none then beginStartup winsel c else c
  | none => c

/-- RESET_N goes inactive, or the power-on reset ends, with the strap sampled (R151, R162). -/
def releaseResetStep (found : Release) (c : Chip) : Chip :=
  if c.mode = .bypass then
    let c := onSet (fun s => { s with coming := found.coming }) c
    arbitrate (bypassEnds (onBus (fun b => { b with ending := some found.winsel }) c))
  else c

/-- RESET_N_RELEASED. -/
def execResetNReleased (found : Release) (s : State) : Host.Outcome State Fault Refusal :=
  .next (s.onChip (releaseResetStep found))

/-! ## SETTINGS_LOAD (R178) -/

/-- The reads a load or a reload may make (R177, R178). -/
def storeReads : Nat := 3

/-- The group of an absent entry at start-up: four zero words (R138, R164), in increasing offset order (log 47). -/
def clearGroup (n : Nat) : List PartWrite := (List.range 4).map fun k => ⟨cueOffset n + 4 * k, 0, allBytes⟩

/-- The mailbox clear: the reply word, then the command word (R178). -/
def mailboxClear : List PartWrite := [⟨replyOffset, 0, allBytes⟩, ⟨commandOffset, 0, allBytes⟩]

/-- The whole image posted (R164, R178). -/
def postImage (c : Chip) : Chip := postWrites .startUp c.set.imageWrites c

/-- The cue image cleared: every entry's group on the cue write list (R138, R164). -/
def clearCueImage (c : Chip) : Chip := { c with cue := { c.cue with list := c.cue.list ++ (List.range 32).map clearGroup } }

/-- The notice mask takes the default mask (R183). -/
def takeDefaultMask (c : Chip) : Chip := { c with ntc := { c.ntc with mask := c.set.gen.defaultMask } }

/-- What follows the load: the image posted, the cue image cleared, the mailbox cleared, the mask taken, the sweep begun
(R164, R183). -/
def settingsLoaded (c : Chip) : Chip :=
  let c := clearCueImage (postImage (onSet (fun s => { s with loaded := true }) c))
  let c := takeDefaultMask (postWrites .mailbox mailboxClear c)
  onPln (fun p => { p with sweep := some 0 }) c

/-- A read of the store at start-up (R178). -/
def loadStep (c : Chip) : Chip :=
  if c.mode = .startup ∧ c.set.loaded = false then
    let bytes := c.set.nextRead
    let c := onSet (·.readMade) c
    if storePasses bytes then settingsLoaded (onSet (·.load bytes) c)
    else
      let c := onSet (fun s => { s with reads := s.reads + 1 }) c
      if c.set.reads < storeReads then c
      else
        let c := onSet (·.defaults) c
        settingsLoaded (postEvent .settingsDefaulted storeReads 0 ((bytes.getD 511 0).toNat : Int) c)
  else c

/-- SETTINGS_LOAD. -/
def execSettingsLoad (s : State) : Host.Outcome State Fault Refusal := .next (s.onChip fun c => arbitrate (loadStep c))

/-! ## CARRY_EXPIRY (R71) -/

/-- The carry limit, ms (R68). -/
def carryLimit : Nat := 40

/-- Both reels are braked and OFF (R71). -/
def Drive.atRest (d : Drive) : Bool := d.bothEngaged && d.sup.mode == .off && d.tup.mode == .off

/-- The carry expires: the stage stops the transport on its own (R71). -/
def carryExpiryStep (c : Chip) : Chip :=
  if c.drv.carry = .held ∧ expired c.drv.carryTimer carryLimit then
    let c := onDrive (fun d => { d with carry := .expired, carryTimer := none }) c
    let c := orderLifters .up (onDrive (·.release c.pinchFull) c)
    if c.drv.atRest then c else emergencyBoth c
  else c

/-- CARRY_EXPIRY. -/
def execCarryExpiry (s : State) : Host.Outcome State Fault Refusal := .next (s.onChip carryExpiryStep)

/-! ## SUPERVISOR_START (R18, R51) -/

/-- The state the path gives (R18). -/
def pathTState (c : Chip) : TState := if c.trk.path = .present then .threaded else .unthreaded

/-- The supervisor started in a state, with a threaded index that is none in UNTHREADED, and the grant unit's copy
(R18, R19, R51, R76). It is no change of state (R17). -/
def startIn (ts : TState) (threaded : Option (Fin 8)) (tension : Ramp) (c : Chip) : Chip :=
  let idx := if ts = .unthreaded then none else threaded
  let c := onSup (fun s => { s with up := true, ts := ts, threaded := idx, tension := tension }) c
  onGnt (fun g => { g with threaded := idx }) c

/-- A start in UNTHREADED or THREADED from the path state: the orders of R25. -/
def startFromPath (threaded : Option (Fin 8)) (c : Chip) : Chip :=
  onDrive (·.orderBoth .off 0 true) (startIn (pathTState c) threaded .zero c)

/-- A carried SLACKING resumed at the step it had reached (R55). With the brakes engaged and an off delay of 0 the transport
is THREADED within the supervisor's first state, before the inputs that stand asserted are taken (log 34). -/
def resumeSlack (r : CarryRec) (c : Chip) : Chip :=
  let braked := c.drv.bothEngaged
  let c := claimCarry c
  let c := startIn .slacking r.threaded (if braked then .zero else (Ramp.at r.tension).moveTo 0) c
  if braked then engageBrakes c else c

/-- An expired carry taken over: the reels where the stage's own stop has brought them (R51, R53, R71). -/
def takeOver (r : CarryRec) (c : Chip) : Chip :=
  failStart true (startIn .tripped r.threaded .zero (onDrive (·.dropCarry) c))

/-- The supervisor's first state (R51). -/
def firstState (c : Chip) : Chip :=
  match c.drv.carry, c.drv.carryRec with
  | .held, some r =>
    match r.ts with
    | .unthreaded | .threaded => startFromPath r.threaded (onDrive (·.dropCarry) c)
    | .tensioning | .held | .moving | .stopping | .catching =>
      onSup (fun s => { s with claimPending := true }) (startIn .catching r.threaded (Ramp.at r.tension) c)
    | .slacking => resumeSlack r c
    | .tripped => emergencyBoth (startIn .tripped r.threaded .zero (claimCarry c))
  | .expired, some r =>
    match r.ts with
    | .unthreaded | .threaded => startFromPath r.threaded (onDrive (·.dropCarry) c)
    | .tensioning | .held | .moving | .stopping | .slacking | .tripped | .catching => takeOver r c
  | _, _ => startFromPath none c

/-- The inputs that stand asserted at the start (R28, R34). -/
def startInputs (c : Chip) : Chip :=
  let c := if c.sup.ts.trips then tripStanding c
    else
      let c := if c.pins.powerFail then postEvent .faultInput 1 0 0 c else c
      let c := if c.pins.fltSupply then postEvent .faultInput 2 0 0 c else c
      if c.pins.fltTup then postEvent .faultInput 3 0 0 c else c
  if c.pins.fltCap then stopCause .capstanFault c else c

/-- The supervisor starts, once the settings are loaded (R18, R51). -/
def startStep (c : Chip) : Chip :=
  if c.mode = .startup ∧ c.set.loaded ∧ c.sup.up = false then startInputs (firstState c) else c

/-- SUPERVISOR_START. -/
def execSupervisorStart (s : State) : Host.Outcome State Fault Refusal := .next (s.onChip fun c => done (startStep c))

/-! ## RECOVERY_SWEEP_READ (R109) -/

/-- A sweep read completes (R109); it is the memory cycle then at the port. -/
def sweepStep (s : State) : State :=
  match s.chip.bus.port with
  | some (.sweepRead a n) => s.onChip fun c => arbitrate (sweepRead n (s.mem.readWord a) (freePort c))
  | _ => s

/-- RECOVERY_SWEEP_READ. -/
def execRecoverySweepRead (s : State) : Host.Outcome State Fault Refusal := .next (sweepStep s)

/-! ## STARTUP_END (R165) -/

/-- No memory cycle of the part's own start-up is in progress. -/
def Bus.portClear (b : Bus) : Bool :=
  match b.port with
  | some (.part _ _) | some (.sweepRead _ _) => false
  | _ => true

/-- Every write of R164 has been made or dropped and every sweep read made or aborted, and the supervisor has started
(R165, log 26). -/
def startupOver (c : Chip) : Bool :=
  c.mode == .startup && c.set.loaded && c.sup.up && c.bus.wait.isEmpty && c.cue.list.isEmpty && c.mbx.wait.isEmpty &&
    c.pln.wait.isEmpty && c.bus.queue.isEmpty && c.pln.sweep == some sweepLength && c.bus.portClear

/-- A held post made (R57, R165). -/
def makePost (p : Post) (c : Chip) : Chip :=
  match p with
  | .event e => onEvt (fun w => { w with posted := w.posted ++ [e] }) c
  | .notice k => { c with ntc := c.ntc.post k }

/-- The RESET record (R179). -/
def resetRecord (c : Chip) : Event := eventNow c .reset c.bus.startCause.code 0 c.bus.startCount.toNat c.trk.position

/-- Start-up ends: the part runs, the RESET record is appended, the held posts follow in order (R165, R179, R180). -/
def startupEndStep (c : Chip) : Chip :=
  if startupOver c then
    let held := c.evt.held
    let c := { c with mode := .running, bus := { c.bus with startTime := c.clock }, evt := { c.evt with held := [] } }
    let c := appendRecord (resetRecord c) c
    held.foldl (fun c p => makePost p c) c
  else c

/-- STARTUP_END. -/
def execStartupEnd (s : State) : Host.Outcome State Fault Refusal := .next (s.onChip fun c => done (startupEndStep c))

end Sys2Proof.Machine
end

