-- ==== Sys2Proof/Machine/ExecBus.lean ====
section
/-! DEFINITION. The meanings of the host's cycles, of the screen, of the lists, the queue and the memory port, and of the
event writer (ch. 6, 8.1, 9, 11). A row that names a word is the host's cycle to that word. -/

namespace Sys2Proof.Machine

/-- A cycle of the host taken by the part. -/
def hostStep (cy : HostCyc) (c : Chip) : Chip := done (startCycle cy c)

/-- A host write to a window word. -/
def hostWriteStep (off : Nat) (data : Word) (be : Enables) (c : Chip) : Chip :=
  hostStep (windowCycle off true data be c) c

/-- HAND_OFF: the host's write of word 0 of a slot (R95). -/
def execHandOff (ring : RingId) (slot : BitVec 6) (data : Word) (be : Enables) (s : State) :
    Host.Outcome State Fault Refusal := .next (s.onChip (hostWriteStep (slotOffset ring slot.toNat) data be))

/-- RECALL: the host's write of word 0 of a slot (R102). -/
def execRecall (ring : RingId) (slot : BitVec 6) (data : Word) (be : Enables) (s : State) :
    Host.Outcome State Fault Refusal := .next (s.onChip (hostWriteStep (slotOffset ring slot.toNat) data be))

/-- SLOT_OWNED_WRITE: a host write of a word of a slot (R103). -/
def execSlotOwnedWrite (ring : RingId) (slot : BitVec 6) (word : BitVec 3) (data : Word) (be : Enables) (s : State) :
    Host.Outcome State Fault Refusal :=
  .next (s.onChip (hostWriteStep (slotOffset ring slot.toNat + 4 * word.toNat) data be))

/-- CUE_IMAGE_WRITE (R139). -/
def execCueImageWrite (word : BitVec 7) (data : Word) (be : Enables) (s : State) : Host.Outcome State Fault Refusal :=
  .next (s.onChip (hostWriteStep (cueOffset 0 + 4 * word.toNat) data be))

/-- SETTINGS_IMAGE_WRITE (R173). -/
def execSettingsImageWrite (word : BitVec 7) (data : Word) (be : Enables) (s : State) :
    Host.Outcome State Fault Refusal :=
  .next (s.onChip (hostWriteStep (settingsOffset + 4 * word.toNat) data be))

/-- TRIM_WRITE (R89). -/
def execTrimWrite (data : Word) (be : Enables) (s : State) : Host.Outcome State Fault Refusal :=
  .next (s.onChip (hostWriteStep trimOffset data be))

/-- HEARTBEAT (R184). -/
def execHeartbeat (data : Word) (be : Enables) (s : State) : Host.Outcome State Fault Refusal :=
  .next (s.onChip (hostWriteStep heartbeatOffset data be))

/-- NOTICE_MASK_WRITE (R183). -/
def execNoticeMaskWrite (data : Word) (be : Enables) (s : State) : Host.Outcome State Fault Refusal :=
  .next (s.onChip (hostWriteStep maskOffset data be))

/-- NOTICE_CLEAR_WRITE (R183). -/
def execNoticeClearWrite (data : Word) (be : Enables) (s : State) : Host.Outcome State Fault Refusal :=
  .next (s.onChip (hostWriteStep clearOffset data be))

/-- EVENT_CONSUMED_WRITE (R181). -/
def execEventConsumedWrite (data : Word) (be : Enables) (s : State) : Host.Outcome State Fault Refusal :=
  .next (s.onChip (hostWriteStep consumedOffset data be))

/-- A host read of a window word. -/
def hostReadStep (off : Nat) (c : Chip) : Chip := hostStep (windowCycle off false 0 allBytes c) c

/-- LIVE_WINDOW_READ (R153). -/
def execLiveWindowRead (word : BitVec 6) (s : State) : Host.Outcome State Fault Refusal :=
  .next (s.onChip (hostReadStep (4 * word.toNat)))

/-- GROUP_HEAD_READ (R154): the word at 0x10. -/
def execGroupHeadRead (s : State) : Host.Outcome State Fault Refusal := .next (s.onChip (hostReadStep 0x10))

/-- HOST_CYCLE (R152). -/
def execHostCycle (addr : BitVec 24) (write : Bool) (data : Word) (be : Enables) (s : State) :
    Host.Outcome State Fault Refusal := .next (s.onChip (hostStep ⟨addr, write, data, be⟩))

/-- A held cycle released, where no hold stands any more (R106, R138, R157, R168); where that completes it, the host
drives its next. -/
def heldReleaseStep (c : Chip) : Chip :=
  match c.bus.host with
  | some h => if h.phase = .held ∧ c.mode ≠ .bypass then driveNext (classify c) else c
  | none => c

/-- HELD_CYCLE_RELEASE. -/
def execHeldCycleRelease (s : State) : Host.Outcome State Fault Refusal :=
  .next (s.onChip fun c => done (heldReleaseStep c))

/-! ## HAND_OFF_SCREEN (R96, R99, R100) -/

/-- The decision on a fetched hand-off. -/
def screenDecided (h : HandFetch) (c : Chip) : Chip :=
  let r := h.record
  let c' := onPln (fun p => { p with fetch := none }) c
  match screen c r h.aborted with
  | some code =>
    let out := withOwner h.data h.be (BitVec.ofNat 8 code.code)
    release out.1 out.2 (postRefused h.ring h.slot code r.tag c')
  | none =>
    let out := withOwner h.data h.be acceptedByte
    let c' := onPln (fun p => p.withRing h.ring ((p.ring h.ring).accept r)) (release out.1 out.2 c')
    gained h.ring c'

/-- The screen, once the last read of the fetch has completed or been aborted (R95). -/
def screenStep (c : Chip) : Chip :=
  match c.pln.fetch with
  | some h => if h.todo.isEmpty then screenDecided h c else c
  | none => c

/-- HAND_OFF_SCREEN. -/
def execHandOffScreen (s : State) : Host.Outcome State Fault Refusal := .next (s.onChip fun c => done (screenStep c))

/-! ## The lists and the queue (R105, R138, R156) -/

/-- The writes of an entry of the slot write list (R104, R105). -/
def SlotWrite.writes : SlotWrite → List PartWrite
  | .mark id slot => [⟨slotOffset id slot, withByte0 0 (BitVec.ofNat 8 (0x80 + currentCode)), ownerByteOnly⟩]
  | .ret id slot st pos time =>
    [ ⟨slotOffset id slot + 24, wordOfInt pos, allBytes⟩
    , ⟨slotOffset id slot + 28, time, allBytes⟩
    , ⟨slotOffset id slot, withByte0 0 (BitVec.ofNat 8 st.code), ownerByteOnly⟩ ]

/-- The queue has room for a group (R105, R138). -/
def Bus.room (b : Bus) (n : Nat) : Bool := decide (b.queue.length + n ≤ queueDepth)

/-- A group joined to the queue. -/
def Bus.join (b : Bus) (ws : List PartWrite) : Bus := { b with queue := b.queue ++ ws }

/-- The head of the slot write list passes where the queue has room for all of its writes (R105). -/
def slotPassStep (c : Chip) : Chip :=
  match c.pln.list with
  | e :: rest =>
    if c.bus.room e.writes.length then onBus (·.join e.writes) (onPln (fun p => { p with list := rest }) c) else c
  | [] => c

/-- SLOT_WRITE_LIST_PASS. -/
def execSlotWriteListPass (s : State) : Host.Outcome State Fault Refusal :=
  .next (s.onChip fun c => arbitrate (slotPassStep c))

/-- The head group of the cue write list passes where the queue has room for it (R138); in start-up it follows the settings
image (R164, log 26). -/
def cuePassStep (c : Chip) : Chip :=
  match c.cue.list with
  | g :: rest =>
    if c.bus.room g.length ∧ (c.mode ≠ .startup ∨ c.bus.wait = []) then
      onBus (·.join g) { c with cue := { c.cue with list := rest } }
    else c
  | [] => c

/-- CUE_WRITE_LIST_PASS. -/
def execCueWriteListPass (s : State) : Host.Outcome State Fault Refusal :=
  .next (s.onChip fun c => arbitrate (cuePassStep c))

/-- A block's first waiting write joins the queue where an entry is free and its turn has come (R156). -/
def joinStep (p : Poster) (c : Chip) : Chip :=
  match waiting p c with
  | w :: rest =>
    if c.bus.room 1 ∧ turnOf p c then onBus (·.join [w]) (withWaiting p rest c) else c
  | [] => c

/-- WRITE_JOINS_QUEUE. -/
def execWriteJoinsQueue (p : Poster) (s : State) : Host.Outcome State Fault Refusal :=
  .next (s.onChip fun c => arbitrate (joinStep p c))

/-! ## The memory port (R158 to R161) -/

/-- Memory completes the cycle at the port; the host drives its next as a cycle of its own ends (R158, R159). -/
def memoryDoneStep (s : State) : State :=
  match s.chip.bus.port with
  | some cy =>
    { s with
      chip := arbitrate (driveOn (bypassEnds (cycleDone cy (s.mem.readWord cy.addr) (freePort s.chip))))
      mem := cycleWrites cy s.mem }
  | none => s

/-- MEMORY_CYCLE_DONE. -/
def execMemoryCycleDone (s : State) : Host.Outcome State Fault Refusal := .next (memoryDoneStep s)

/-- The memory response limit ends the cycle at the port (R160, R161). -/
def memoryLimitStep (s : State) : State :=
  match s.chip.bus.port with
  | some cy =>
    if cy.unlimited then s
    else { s with
      chip := arbitrate (driveOn (bypassEnds (cycleAborted cy (freePort s.chip))))
      mem := cycleLost cy s.chip.free s.mem }
  | none => s

/-- MEMORY_RESPONSE_LIMIT. -/
def execMemoryResponseLimit (s : State) : Host.Outcome State Fault Refusal := .next (memoryLimitStep s)

/-! ## EVENT_APPEND (R180, R182) -/

/-- The event writer takes the oldest posted event. -/
def appendStep (c : Chip) : Chip :=
  match c.evt.posted with
  | e :: rest => takeEvent e (onEvt (fun w => { w with posted := rest }) c)
  | [] => c

/-- EVENT_APPEND. -/
def execEventAppend (s : State) : Host.Outcome State Fault Refusal := .next (s.onChip fun c => arbitrate (appendStep c))

end Sys2Proof.Machine
end

