-- ==== Sys2Proof/Machine/ExecMailbox.lean ====
section
/-! DEFINITION. The meanings of the twelve mailbox commands as their blocks carry them out, of the end of a save, of a
reload's read, and of the reply (ch. 2, 3, 5, 8, 10). -/

namespace Sys2Proof.Machine

/-- A command is in RUN with this code: dispatched, its reply not yet decided (R169). -/
def inRun (code : Byte) (c : Chip) : Bool :=
  match c.mbx.st, c.mbx.cmd with
  | .run, some cmd => cmd.code == code
  | _, _ => false

/-- A command's step, where it stands in RUN (log 2). -/
def whenRun (code : Byte) (f : Chip → Chip) (c : Chip) : Chip := if inRun code c then done (f c) else c

/-- Byte `k` of the captured data. -/
def Mailbox.byte (m : Mailbox) (k : Nat) : Nat := (m.data.getD k 0).toNat

/-- A 32-bit little-endian number of the captured data. -/
def Mailbox.word (m : Mailbox) (k : Nat) : Word := BitVec.ofNat 32 (natOfBytes ((m.data.drop k).take 4))

/-! ## The supervisor's commands -/

/-- The profile index a TENSION_UP names, where it is 0..7. -/
def namedProfile (n : Nat) : Option (Fin 8) := if h : n < 8 then some ⟨n, h⟩ else none

/-- TENSION_UP accepted: the index taken, TENSIONING, the orders of the sequence, and the inputs that stand (R38, R39, R28). -/
def tensionUpNow (i : Fin 8) (c : Chip) : Chip :=
  let c := onSup (fun s => { s with threaded := some i }) c
  let c := onGnt (fun g => { g with threaded := some i }) c
  tripStanding (tensionOrders (enter .tensioning c))

/-- TENSION_UP decided (R38). -/
def tensionUpStep (c : Chip) : Chip :=
  if c.sup.ts = .tensioning ∨ c.sup.ts = .slacking then reply .busy detailNone c
  else if c.sup.ts ≠ .threaded then reply .refused detailNotThreaded c
  else match namedProfile (c.mbx.byte 0) with
    | none => reply .refused detailBadProfile c
    | some i =>
      if (c.set.prof i.val).valid = false then reply .refused detailBadProfile c
      else if c.pins.powerFail then reply .refused detailPower c
      else tensionUpNow i (reply .done detailNone c)

/-- TENSION_UP. -/
def execTensionUp (s : State) : Host.Outcome State Fault Refusal := .next (s.onChip (whenRun cmdTensionUp tensionUpStep))

/-- The plan given back in HELD: a taken segment ended FLUSHED, both rings flushed (R42, R83, R85). -/
def returnPlan (c : Chip) : Chip := flushBoth .flushed (endTaken .flushed c)

/-- SLACK_DOWN decided (R42). -/
def slackDownStep (c : Chip) : Chip :=
  if c.sup.ts = .held then enter .slacking (returnPlan (reply .done detailNone c))
  else if c.sup.ts = .tensioning then enter .slacking (reply .done detailNone c)
  else reply .busy detailNone c

/-- SLACK_DOWN. -/
def execSlackDown (s : State) : Host.Outcome State Fault Refusal := .next (s.onChip (whenRun cmdSlackDown slackDownStep))

/-- The fault word cleared (R37). -/
def Supervisor.noFault (s : Supervisor) : Supervisor := { s with trip := .none, side := .none, stop := .none }

/-- The stop latch cleared (R33). -/
def Supervisor.unlatched (s : Supervisor) : Supervisor := { s with latch := false }

/-- TRIPPED left: the latch cleared, and no judgement of R52 outstanding any more (log 20). -/
def Supervisor.recovered (s : Supervisor) : Supervisor := { s with latch := false, claimPending := false }

/-- CLEAR_FAULT decided (R37). -/
def clearFaultStep (c : Chip) : Chip :=
  let c := onSup (·.noFault) c
  if c.pins.fltSupply || c.pins.fltTup || c.pins.fltCap then reply .refused detailCauseActive c
  else if c.sup.ts = .tripped then
    if !c.trk.reelsStopped then reply .busy detailNone c
    else enter (pathTState c) (onSup (·.recovered) (reply .done detailNone c))
  else if c.sup.latch then onSup (·.unlatched) (reply .done detailNone c)
  else reply .done detailNothing c

/-- CLEAR_FAULT. -/
def execClearFault (s : State) : Host.Outcome State Fault Refusal := .next (s.onChip (whenRun cmdClearFault clearFaultStep))

/-! ## The grant unit's commands -/

/-- REQUEST_GRANT stored as the pending request (R80). -/
def deferRequest (c : Chip) : Chip :=
  let chs := choicesOf c.mbx.data
  let c := cancelPending droppedReplaced c
  onGnt (fun g => { g with request := some chs }) (reply .deferred detailNone c)

/-- REQUEST_GRANT evaluated in HELD (R79, R187). -/
def evaluateNow (c : Chip) : Chip :=
  let chs := choicesOf c.mbx.data
  let outcomes := requestOutcomes chs c
  match passedChoices c chs with
  | _ :: _ => evaluateRequest chs (reply .granted outcomes c)
  | [] => reply .refused outcomes c

/-- REQUEST_GRANT decided (R78). -/
def requestGrantStep (c : Chip) : Chip :=
  match c.sup.ts with
  | .moving | .stopping | .catching | .slacking => reply .busy detailNone c
  | .unthreaded | .tripped => reply .refused detailNotThreaded c
  | .threaded | .tensioning => deferRequest c
  | .held => evaluateNow c

/-- REQUEST_GRANT. -/
def execRequestGrant (s : State) : Host.Outcome State Fault Refusal :=
  .next (s.onChip (whenRun cmdRequestGrant requestGrantStep))

/-- DROP_GRANT decided (R83). -/
def dropGrantStep (c : Chip) : Chip :=
  match c.sup.ts with
  | .moving | .stopping => reply .busy detailNone c
  | .held =>
    let detail := if c.gnt.active.isSome then detailNone else detailNothing
    dropActive droppedCommand (returnPlan (reply .done detail c))
  | .threaded | .tensioning =>
    if c.gnt.request.isSome then cancelPending droppedCommand (reply .done detailNone c)
    else reply .done detailNothing c
  | .unthreaded | .slacking | .tripped | .catching => reply .done detailNothing c

/-- DROP_GRANT. -/
def execDropGrant (s : State) : Host.Outcome State Fault Refusal := .next (s.onChip (whenRun cmdDropGrant dropGrantStep))

/-! ## The cue table's commands (R140, R141) -/

/-- The words of a cue image entry (12.5). -/
def cueWords (e : Option Cue) : List Word :=
  match e with
  | none => [0, 0, 0, 0]
  | some q => [q.label.extractLsb' 0 32, q.label.extractLsb' 32 32, wordOfInt q.position,
      halves (q.tolerance + 0x8000) q.limit]

/-- The group of an entry that is present: in increasing offset order (R138). -/
def presentGroup (n : Nat) (q : Cue) : List PartWrite :=
  (cueWords (some q)).zipIdx.map fun (w, k) => ⟨cueOffset n + 4 * k, w, allBytes⟩

/-- The group of an entry become absent: the word of the present flag first (R138), then the others in increasing order
(log 47). -/
def absentGroup (n : Nat) : List PartWrite := [3, 0, 1, 2].map fun k => ⟨cueOffset n + 4 * k, 0, allBytes⟩

/-- An entry set, with its group on the list. -/
def CueTable.put (t : CueTable) (n : Nat) (q : Cue) : CueTable :=
  ⟨t.cues.set n (some q), t.list ++ [presentGroup n q]⟩

/-- Entries cleared, with their groups on the list. -/
def CueTable.clear (t : CueTable) (ns : List Nat) : CueTable :=
  ⟨ns.foldl (fun cs n => cs.set n none) t.cues, t.list ++ ns.map absentGroup⟩

/-- The entry at an index. -/
def CueTable.at (t : CueTable) (n : Nat) : Option Cue := t.cues.getD n none

/-- The indices present, in order. -/
def CueTable.present (t : CueTable) : List Nat := (List.range 32).filter fun n => (t.at n).isSome

/-- The cue a SET_CUE gives; its approach limit as it stands, to be checked (12.3). -/
def setCueData (m : Mailbox) : Int × Nat × Nat × BitVec 64 :=
  ((m.word 4).toInt, m.byte 2 + 256 * m.byte 3, (m.word 8).toNat,
    BitVec.ofNat 64 (natOfBytes ((m.data.drop 12).take 8)))

/-- SET_CUE decided (R140). -/
def setCueStep (c : Chip) : Chip :=
  let n := c.mbx.byte 0
  let (position, tolerance, limit, label) := setCueData c.mbx
  if 31 < n then reply .refused detailBadIndex c
  else if positionInRange position = false ∨ 4095 < tolerance ∨ 65535 < limit then reply .refused detailRange c
  else
    let was := (c.cue.at n).isSome
    let c := { c with cue := c.cue.put n ⟨position, tolerance, limit, label⟩ }
    let c := postEventAt .cueSet n 0 (if was then 1 else 0) position c
    reply .done (if was then detailReplaced else detailCreated) c

/-- SET_CUE. -/
def execSetCue (s : State) : Host.Outcome State Fault Refusal := .next (s.onChip (whenRun cmdSetCue setCueStep))

/-- The byte of CLEAR_CUE that means every entry. -/
def allCues : Nat := 0xFF

/-- CLEAR_CUE decided (R141). -/
def clearCueStep (c : Chip) : Chip :=
  let n := c.mbx.byte 0
  let ns := if n = allCues then c.cue.present else if (c.cue.at n).isSome then [n] else []
  if 31 < n ∧ n ≠ allCues then reply .refused detailBadIndex c
  else if ns.isEmpty then reply .done detailNothing c
  else
    let c := postEvent .cueCleared n 0 ns.length { c with cue := c.cue.clear ns }
    reply .done detailNone c

/-- CLEAR_CUE. -/
def execClearCue (s : State) : Host.Outcome State Fault Refusal := .next (s.onChip (whenRun cmdClearCue clearCueStep))

/-! ## SET_POSITION (R4) -/

/-- SET_POSITION decided. -/
def setPositionStep (c : Chip) : Chip :=
  let v := (c.mbx.word 0).toInt
  if c.sup.ts = .moving ∨ c.sup.ts = .stopping ∨ c.sup.ts = .catching then reply .busy detailNone c
  else if c.trk.path ≠ .present then reply .refused detailNotThreaded c
  else if positionInRange v = false then reply .refused detailRange c
  else reply .done detailNone (onTrk (fun t => { t with position := v, valid := true }) c)

/-- SET_POSITION. -/
def execSetPosition (s : State) : Host.Outcome State Fault Refusal :=
  .next (s.onChip (whenRun cmdSetPosition setPositionStep))

/-! ## The settings commands (R172, R175, R177) -/

/-- OPEN_SETTINGS decided (R172). -/
def openSettingsStep (c : Chip) : Chip :=
  let detail := if c.set.isOpen then detailNothing else detailNone
  reply .done detail (onSet (fun s => { s with isOpen := true }) c)

/-- OPEN_SETTINGS. -/
def execOpenSettings (s : State) : Host.Outcome State Fault Refusal :=
  .next (s.onChip (whenRun cmdOpenSettings openSettingsStep))

/-- CLOSE_SETTINGS decided (R172). -/
def closeSettingsStep (c : Chip) : Chip :=
  let detail := if c.set.isOpen then detailNone else detailNothing
  reply .done detail (onSet (fun s => { s with isOpen := false }) c)

/-- CLOSE_SETTINGS. -/
def execCloseSettings (s : State) : Host.Outcome State Fault Refusal :=
  .next (s.onChip (whenRun cmdCloseSettings closeSettingsStep))

/-- A save or a reload judged at its dispatch (R175, R177). -/
def admitStore (run : Chip → Chip) (c : Chip) : Chip :=
  if c.set.saving || c.set.reloading then c
  else if c.set.isOpen = false then reply .locked detailNone c
  else if c.admitsStore = false then reply .refused detailNotStopped c
  else run c

/-- SAVE_SETTINGS decided: the save runs (R175). -/
def saveSettingsStep (c : Chip) : Chip := admitStore (onSet fun s => { s with saving := true }) c

/-- SAVE_SETTINGS. -/
def execSaveSettings (s : State) : Host.Outcome State Fault Refusal :=
  .next (s.onChip (whenRun cmdSaveSettings saveSettingsStep))

/-- The save's last write made (R175). -/
def saveCompleteStep (c : Chip) : Chip :=
  if c.set.saving then reply .done detailNone (onSet (fun s => { s with nv := s.image, saving := false }) c) else c

/-- SAVE_COMPLETE. -/
def execSaveComplete (s : State) : Host.Outcome State Fault Refusal := .next (s.onChip fun c => done (saveCompleteStep c))

/-- RELOAD_SETTINGS decided: the reload runs (R177). -/
def reloadSettingsStep (c : Chip) : Chip := admitStore (onSet fun s => { s with reloading := true, reads := 0 }) c

/-- RELOAD_SETTINGS. -/
def execReloadSettings (s : State) : Host.Outcome State Fault Refusal :=
  .next (s.onChip (whenRun cmdReloadSettings reloadSettingsStep))

/-- The reload over. -/
def endReload (c : Chip) : Chip := onSet (fun s => { s with reloading := false, reads := 0 }) c

/-- The active grant re-checked against the reloaded settings (R85). -/
def recheck (c : Chip) : Chip :=
  if recheckDrops c then postNotice .grantChanged (dropActive droppedSettings (returnPlan c)) else recheckGrant c

/-- The settings of a read adopted (R177). -/
def adoptSettings (bytes : List Byte) (c : Chip) : Chip :=
  let old := c.set.gen.period
  let c := onSet (·.load bytes) (endReload c)
  let c := postWrites .settings c.set.imageWrites c
  let c := if c.set.gen.period ≠ old then onMon (fun _ => ⟨.disarmed, 0⟩) c else c
  reply .done detailNone (recheck c)

/-- A read of the store in a reload (R177, R178). -/
def reloadReadStep (c : Chip) : Chip :=
  if c.set.reloading then
    let bytes := c.set.nextRead
    let c := onSet (·.readMade) c
    if storePasses bytes then
      if c.admitsStore then adoptSettings bytes c else reply .refused detailNotStopped (endReload c)
    else
      let c := onSet (fun s => { s with reads := s.reads + 1 }) c
      if c.set.reads < storeReads then c else reply .refused detailStoreBad (endReload c)
  else c

/-- RELOAD_STORE_READ. -/
def execReloadStoreRead (s : State) : Host.Outcome State Fault Refusal := .next (s.onChip fun c => done (reloadReadStep c))

/-! ## MAILBOX_REPLY (R171) -/

/-- The writes the executing block posted for a command have passed to the queue (R171, log 30). -/
def blockPassed (c : Chip) : Bool :=
  match c.mbx.cmd with
  | some cmd =>
    if cmd.code = cmdSetCue ∨ cmd.code = cmdClearCue then c.cue.list.isEmpty
    else if cmd.code = cmdReloadSettings then c.set.wait.isEmpty && c.gnt.wait.isEmpty
    else if cmd.code = cmdRequestGrant ∨ cmd.code = cmdDropGrant then c.gnt.wait.isEmpty
    else true
  | none => true

/-- The reply word (12.3). -/
def replyWord (r : Reply) (code : Byte) : Word := wordOf (BitVec.ofNat 8 r.result.code) r.detail code 0

/-- The two writes of a reply (R171). -/
def replyWrites (r : Reply) (code : Byte) : List PartWrite :=
  [⟨replyOffset, replyWord r code, allBytes⟩, ⟨commandOffset, 0, allBytes⟩]

/-- The mailbox IDLE again; writes of its own may still wait (R171). -/
def Mailbox.idled (m : Mailbox) : Mailbox := { Mailbox.reset with wait := m.wait }

/-- The reply and the clear posted (R171). -/
def replyStep (c : Chip) : Chip :=
  match c.mbx.st, c.mbx.reply, c.mbx.cmd with
  | .reply, some r, some cmd =>
    if blockPassed c then
      postNotice .mailboxDone (onMbx (·.idled) (postWrites .mailbox (replyWrites r cmd.code) c))
    else c
  | _, _, _ => c

/-- MAILBOX_REPLY. -/
def execMailboxReply (s : State) : Host.Outcome State Fault Refusal := .next (s.onChip fun c => done (replyStep c))

end Sys2Proof.Machine
end

