-- ==== Sys2Proof/Machine/Dispatch.lean ====
section
/-! DEFINITION. One arm for each command: the call of its meaning. -/

namespace Sys2Proof.Machine

/-- What a command does to everything but the queue of commands waiting. -/
def exec (i : Instr) (s : State) : Host.Outcome State Fault Refusal :=
  match i with
  | .powerOn pins => Sys2Proof.Machine.execPowerOn pins s
  | .resetNAsserted => Sys2Proof.Machine.execResetNAsserted s
  | .resetNReleased found => Sys2Proof.Machine.execResetNReleased found s
  | .settingsLoad => Sys2Proof.Machine.execSettingsLoad s
  | .supervisorStart => Sys2Proof.Machine.execSupervisorStart s
  | .carryExpiry => Sys2Proof.Machine.execCarryExpiry s
  | .recoverySweepRead => Sys2Proof.Machine.execRecoverySweepRead s
  | .startupEnd => Sys2Proof.Machine.execStartupEnd s
  | .rollerCount dir => Sys2Proof.Machine.execRollerCount dir s
  | .tachPulse reel => Sys2Proof.Machine.execTachPulse reel s
  | .capstanPulse => Sys2Proof.Machine.execCapstanPulse s
  | .speedWindowTick => Sys2Proof.Machine.execSpeedWindowTick s
  | .pathSensorPresent => Sys2Proof.Machine.execPathSensorPresent s
  | .pathDebounceExpiry => Sys2Proof.Machine.execPathDebounceExpiry s
  | .pathAbsent => Sys2Proof.Machine.execPathAbsent s
  | .endSensorLeader leader => Sys2Proof.Machine.execEndSensorLeader leader s
  | .armSample reel reading => Sys2Proof.Machine.execArmSample reel reading s
  | .powerFail => Sys2Proof.Machine.execPowerFail s
  | .driveFault reel => Sys2Proof.Machine.execDriveFault reel s
  | .fltCap => Sys2Proof.Machine.execFltCap s
  | .faultInputReleased pin => Sys2Proof.Machine.execFaultInputReleased pin s
  | .breakTimerExpiry => Sys2Proof.Machine.execBreakTimerExpiry s
  | .excursionTimerExpiry => Sys2Proof.Machine.execExcursionTimerExpiry s
  | .settleTimerExpiry => Sys2Proof.Machine.execSettleTimerExpiry s
  | .slackReferenceZero => Sys2Proof.Machine.execSlackReferenceZero s
  | .offDelayExpiry => Sys2Proof.Machine.execOffDelayExpiry s
  | .pinchMovementEnd => Sys2Proof.Machine.execPinchMovementEnd s
  | .referenceSpeedUpdate => Sys2Proof.Machine.execReferenceSpeedUpdate s
  | .durationTimerExpiry => Sys2Proof.Machine.execDurationTimerExpiry s
  | .starveTimerExpiry => Sys2Proof.Machine.execStarveTimerExpiry s
  | .handOff ring slot data be => Sys2Proof.Machine.execHandOff ring slot data be s
  | .handOffScreen => Sys2Proof.Machine.execHandOffScreen s
  | .recall ring slot data be => Sys2Proof.Machine.execRecall ring slot data be s
  | .slotOwnedWrite ring slot word data be => Sys2Proof.Machine.execSlotOwnedWrite ring slot word data be s
  | .slotWriteListPass => Sys2Proof.Machine.execSlotWriteListPass s
  | .cueWriteListPass => Sys2Proof.Machine.execCueWriteListPass s
  | .cueImageWrite word data be => Sys2Proof.Machine.execCueImageWrite word data be s
  | .settingsImageWrite word data be => Sys2Proof.Machine.execSettingsImageWrite word data be s
  | .trimWrite data be => Sys2Proof.Machine.execTrimWrite data be s
  | .heartbeat data be => Sys2Proof.Machine.execHeartbeat data be s
  | .silenceTimerExpiry => Sys2Proof.Machine.execSilenceTimerExpiry s
  | .noticeMaskWrite data be => Sys2Proof.Machine.execNoticeMaskWrite data be s
  | .noticeClearWrite data be => Sys2Proof.Machine.execNoticeClearWrite data be s
  | .eventConsumedWrite data be => Sys2Proof.Machine.execEventConsumedWrite data be s
  | .eventAppend => Sys2Proof.Machine.execEventAppend s
  | .liveWindowRead word => Sys2Proof.Machine.execLiveWindowRead word s
  | .groupHeadRead => Sys2Proof.Machine.execGroupHeadRead s
  | .hostCycle addr write data be => Sys2Proof.Machine.execHostCycle addr write data be s
  | .heldCycleRelease => Sys2Proof.Machine.execHeldCycleRelease s
  | .writeJoinsQueue poster => Sys2Proof.Machine.execWriteJoinsQueue poster s
  | .memoryCycleDone => Sys2Proof.Machine.execMemoryCycleDone s
  | .memoryResponseLimit => Sys2Proof.Machine.execMemoryResponseLimit s
  | .tensionUp => Sys2Proof.Machine.execTensionUp s
  | .slackDown => Sys2Proof.Machine.execSlackDown s
  | .requestGrant => Sys2Proof.Machine.execRequestGrant s
  | .dropGrant => Sys2Proof.Machine.execDropGrant s
  | .setCue => Sys2Proof.Machine.execSetCue s
  | .clearCue => Sys2Proof.Machine.execClearCue s
  | .setPosition => Sys2Proof.Machine.execSetPosition s
  | .clearFault => Sys2Proof.Machine.execClearFault s
  | .openSettings => Sys2Proof.Machine.execOpenSettings s
  | .closeSettings => Sys2Proof.Machine.execCloseSettings s
  | .saveSettings => Sys2Proof.Machine.execSaveSettings s
  | .saveComplete => Sys2Proof.Machine.execSaveComplete s
  | .reloadSettings => Sys2Proof.Machine.execReloadSettings s
  | .reloadStoreRead => Sys2Proof.Machine.execReloadStoreRead s
  | .mailboxReply => Sys2Proof.Machine.execMailboxReply s

end Sys2Proof.Machine
end

