-- ==== Sys2Proof/Safety.lean ====
section
/-! DEFINITION. What the spec says always stands, and the words statements are written in. -/

namespace Sys2Proof.Machine

/-! ## What always stands -/

/-- Memory is in its canonical form (log 9). -/
def MemoryOk (s : State) : Prop := s.mem.wf = true

/-- The notice set holds no kind whose mask bit is clear, and it is empty through reset and start-up (R183). -/
def NoticesOk (s : State) : Prop :=
  s.chip.ntc.pending &&& ~~~s.chip.ntc.mask = 0 ∧ (s.chip.mode ≠ .running → s.chip.ntc.pending = 0)

/-- Whenever either reel brake is released, both reel drives are in TORQUE or DYNAMIC (R59). -/
def BrakesOk (s : State) : Prop := s.chip.drv.brakeLaw = true

/-- A reel's torque output is 0 in DYNAMIC and OFF. -/
def ReelOut.torqueOk (o : ReelOut) : Prop := o.mode ≠ .torque → o.torque = 0

/-- The torque output of each reel is 0 outside TORQUE (R58). -/
def TorquesOk (s : State) : Prop := s.chip.drv.sup.torqueOk ∧ s.chip.drv.tup.torqueOk

/-- The pinch roller is IN only while the capstan is in RUN (R64). -/
def PinchOk (s : State) : Prop := s.chip.drv.pinch = .pinched → s.chip.drv.capRun = true

/-- The position counter lies in its range (R1). -/
def PositionOk (s : State) : Prop := -16777216 ≤ s.chip.trk.position ∧ s.chip.trk.position ≤ 16777215

/-- POSITION_VALID stands only while the path state is PRESENT (R3, R4, R12). -/
def ValidOk (s : State) : Prop := s.chip.trk.valid = true → s.chip.trk.path = .present

/-- The trim lies within the active grant's varispeed range, and is 0 with no grant (R89, R90). -/
def TrimOk (s : State) : Prop :=
  -(s.chip.gnt.variRange : Int) ≤ s.chip.gnt.trim ∧ s.chip.gnt.trim ≤ (s.chip.gnt.variRange : Int)

/-- The master queue holds at most 12 writes (R156). -/
def QueueOk (s : State) : Prop := s.chip.bus.queue.length ≤ 12

/-- No LOCATE segment is current while POSITION_VALID is false (R148). -/
def LocateOk (s : State) : Prop := s.chip.locateCurrent = true → s.chip.trk.valid = true

/-- A plan ring of `n` slots as R93 has it: the indices, the count, and the queued slots exactly those from the take index
up to, but not including, the intake index in ring order. -/
structure Ring.Ok (r : Ring) (n : Nat) : Prop where
  size : r.slots.length = n
  take : r.take < n
  count : r.queued ≤ n
  intake : r.intake = (r.take + r.queued) % n
  queued : ∀ i, i < n → ((r.slot i).view = .queued ↔ ∃ k, k < r.queued ∧ i = (r.take + k) % n)

/-- The slots of a ring (R91). -/
def RingId.size : RingId → Nat
  | .urgent => 8
  | .main => 64

/-- The states in which a slot may be queued, a segment current or a grant active (R22). -/
def TState.carriesPlan (ts : TState) : Prop := ts = .held ∨ ts = .moving ∨ ts = .stopping

/-- The host has a next cycle only behind a cycle at the port, whose end drives it (R158; log 36). -/
def NextOk (s : State) : Prop := s.chip.bus.next ≠ none → s.chip.bus.host ≠ none

/-- The plan rings and what they hang together with: the laws of both rings (R93); a slot is CURRENT exactly where the
current segment was taken from it (R92, R104); no queued slot, no current segment and no grant outside HELD, MOVING and
STOPPING, and no current segment in STOPPING (R22, R136); a supervisor that has not started stands in UNTHREADED (R18);
the judgement at the claim is pending in CATCHING alone, or in TRIPPED after a trip before it (R52, log 20); a hand-off is
fetched for the HOST slot at its ring's intake index, with the host's write held at the port (R95); a host cycle at the
memory port is the one at the host port (R158); and the host has a next cycle only behind one at the port. -/
structure PlanOk (s : State) : Prop where
  urgent : s.chip.pln.urgent.Ok 8
  main : s.chip.pln.main.Ok 64
  slot : ∀ g, s.chip.eng.cur = some g → g.slot < g.ring.size
  current : ∀ id i, i < RingId.size id →
    (((s.chip.pln.ring id).slot i).view = .current ↔ ∃ g, s.chip.eng.cur = some g ∧ g.ring = id ∧ g.slot = i)
  idle : ¬ s.chip.sup.ts.carriesPlan →
    s.chip.pln.urgent.queued = 0 ∧ s.chip.pln.main.queued = 0 ∧ s.chip.eng.cur = none ∧ s.chip.gnt.active = none
  stopping : s.chip.sup.ts = .stopping → s.chip.eng.cur = none
  down : s.chip.sup.up = false → s.chip.sup.ts = .unthreaded
  claim : s.chip.sup.claimPending = true → s.chip.sup.ts = .catching ∨ s.chip.sup.ts = .tripped
  fetch : ∀ h, s.chip.pln.fetch = some h → (∃ p, s.chip.bus.host = some p ∧ p.phase = .screening) ∧
    h.slot = (s.chip.pln.ring h.ring).intake ∧ ((s.chip.pln.ring h.ring).slot h.slot).view = .host
  port : ∀ a w d b y, s.chip.bus.port = some (.host a w d b y) → ∃ p, s.chip.bus.host = some p ∧ p.phase = .inPort
  next : NextOk s

/-- The event ring (R179, R182): both indices lie in the ring; in OVERRUN 127 records are unread and at least one event has
been dropped, and in NORMAL none has; and in reset and start-up nothing has been appended or waits to be. -/
structure EventsOk (s : State) : Prop where
  write : s.chip.evt.write < 128
  consumed : s.chip.evt.consumed < 128
  unread : (s.chip.evt.write + 128 - s.chip.evt.consumed) % 128 ≤ 127
  overrun : s.chip.evt.overrun = true →
    (s.chip.evt.write + 128 - s.chip.evt.consumed) % 128 = 127 ∧ 0 < s.chip.evt.dropped
  normal : s.chip.evt.overrun = false → s.chip.evt.dropped = 0
  idle : s.chip.mode ≠ .running → s.chip.evt.write = 0 ∧ s.chip.evt.consumed = 0 ∧ s.chip.evt.overrun = false ∧
    s.chip.evt.posted = []

/-! ## The words of statements -/

/-- The state with the part as given. -/
def State.withChip (s : State) (c : Chip) : State := { s with chip := c }

/-- The state with the part as a command has left it, given the end that the commands of motion and of the host share:
the CLIPPED mark, the lifters, the tension reference and the torques as they then stand (`tail`), and the arbiter. -/
def State.ends (s : State) (c : Chip) : State := { s with chip := done c }

/-- The part without what that end may change. -/
def Chip.plain (c : Chip) : Chip :=
  { c with
    free := 0
    sup := { c.sup with tension := .zero }
    drv := { c.drv with sup := { c.drv.sup with torque := 0 }, tup := { c.drv.tup with torque := 0 }, lifters := .up }
    eng := { c.eng with cur := c.eng.cur.map fun g => { g with clipped := false } }
    bus := { c.bus with port := none, passOver := 0, host := c.bus.host.map fun h => ⟨h.cyc, .held⟩ } }

/-- An event posted now, with the tape position. -/
def Chip.event (c : Chip) (kind : EventKind) (detail tag : Nat) (value : Int) : Event :=
  ⟨kind, detail, tag, c.clock, c.trk.position, value⟩

/-- The part with events posted, in order, and notices. -/
def Chip.posting (c : Chip) (es : List Event) (ks : List Notice) : Chip :=
  { c with evt := { c.evt with posted := c.evt.posted ++ es }, ntc := ks.foldl NoticeUnit.post c.ntc }

/-- The mailbox with a reply decided. -/
def Chip.replied (c : Chip) (result : Result) (detail : Byte) : Mailbox :=
  { c.mbx with st := .reply, reply := some ⟨result, detail⟩ }

/-- The part runs, the host port is free, and no hold stands for a host write to a window word. -/
def WriteReady (off : Nat) (s : State) : Prop :=
  s.chip.mode = .running ∧ s.chip.bus.host = none ∧ heldCycle off true s.chip = false

/-- The host port after a write to a window word has been released to the arbiter, to reach memory with some data and
enables. -/
def Chip.passing (c : Chip) (off : Nat) (data : Word) (be : Enables) (data' : Word) (be' : Enables) : Bus :=
  { c.bus with host := some ⟨⟨BitVec.ofNat 24 (windowAddr c off), true, data, be⟩, .ready data' be'⟩, done := .none }

/-- The host port after a write has been dropped: completed, with nothing for memory. -/
def Chip.dropping (c : Chip) : Bus := { c.bus with host := none, done := .wrote }

/-- The supervisor runs in a state under tension in which trip causes are taken for the first time (R29). -/
def Tensed (s : State) : Prop :=
  s.chip.sup.up = true ∧ (s.chip.sup.ts = .tensioning ∨ s.chip.sup.ts = .held ∨ s.chip.sup.ts = .moving ∨
    s.chip.sup.ts = .stopping ∨ s.chip.sup.ts = .slacking ∨ s.chip.sup.ts = .catching)

/-- A reel after its emergency action (R49), judged from its surface speed; the other reel decides whether a braked
reel's drive is OFF or waits in DYNAMIC (R59). -/
def Braked (o : ReelOut) (fast otherFast : Bool) : Prop :=
  o.torque = 0 ∧ o.engaged = !fast ∧ o.mode = (if fast || otherFast then .dynamic else .off)

/-- What a trip leaves (R29): TRIPPED, no motion output, no tension reference, no timer, no plan, no grant, the fault
word, and the position lost for TAPE_BREAK and PATH_LOST. -/
structure TrippedBy (cause : TripCause) (side : Side) (s t : State) : Prop where
  state : t.chip.sup.ts = .tripped
  capstan : t.chip.drv.capRun = false ∧ t.chip.drv.capSpeed = 0
  pinch : t.chip.drv.pinch = .out ∨ t.chip.drv.pinch = .goingOut
  lifters : t.chip.drv.lifters = .up
  tension : t.chip.sup.tension.value.1 = 0
  timers : t.chip.sup.brk = none ∧ t.chip.sup.exc = none
  segment : t.chip.eng.cur = none ∧ t.chip.eng.est = .idle
  rings : t.chip.pln.urgent.queued = 0 ∧ t.chip.pln.main.queued = 0
  grant : t.chip.gnt.active = none ∧ (s.chip.gnt.active ≠ none → t.chip.gnt.fallback = []) ∧ t.chip.gnt.request = none
  word : t.chip.sup.trip = (if s.chip.sup.trip = .none then cause else s.chip.sup.trip) ∧
    t.chip.sup.side = (if s.chip.sup.trip = .none then side else s.chip.sup.side)
  stopField : t.chip.sup.stop = s.chip.sup.stop
  latch : t.chip.sup.latch = s.chip.sup.latch
  position : t.chip.trk.position = s.chip.trk.position
  validity : t.chip.trk.valid = (s.chip.trk.valid && cause != .tapeBreak && cause != .pathLost)
  rest : t.chip.cue = s.chip.cue ∧ t.chip.mbx = s.chip.mbx ∧ t.chip.set = s.chip.set ∧ t.chip.mon = s.chip.mon ∧
    t.chip.clock = s.chip.clock ∧ t.chip.mode = s.chip.mode ∧ t.mem = s.mem ∧ t.pending = s.pending

/-- The part after a roller count, before what the count means to a current segment: the tracker, and in a running part a
POSITION_LOST event where the count sticks and ends POSITION_VALID (R2), and an END_FLAG event where it clears the flag
(R14). -/
def Chip.rolled (c : Chip) (d : Dir) : Chip :=
  let c' : Chip := { c with trk := c.trk.count c.pins.leader d }
  if c.mode = .running then
    c'.posting ((if c.trk.sticks d ∧ c.trk.valid then [c'.event .positionLost 1 0 0] else []) ++
      (if c.trk.endFlag ≠ .none ∧ c'.trk.endFlag = .none then [c'.event .endFlag 0 0 0] else [])) []
  else c'

/-- A segment that completes in motion with nothing queued behind it (R134, R135), from the part as it stood at the
completion: the slot HOST, its return on the slot write list, the engine STARVED at the held speed with its timer at 0, and
the events. -/
structure RanOut (g : Seg) (st : Status) (c : Chip) (t : State) : Prop where
  engine : t.chip.eng.est = .starved ∧ t.chip.eng.cur = none ∧ t.chip.eng.ref = c.eng.ref ∧
    t.chip.eng.held = c.eng.ref ∧ t.chip.eng.starve = some 0
  state : t.chip.sup.ts = .moving ∧ t.chip.sup.latch = c.sup.latch ∧ t.chip.sup.stop = c.sup.stop ∧
    t.chip.sup.trip = c.sup.trip
  returned : t.chip.pln.list = c.pln.list ++ [.ret g.ring g.slot st c.trk.position c.clock]
  slot : g.slot < (c.pln.ring g.ring).slots.length → ((t.chip.pln.ring g.ring).slot g.slot).view = .host
  posts : t.chip.evt.posted = c.evt.posted ++ (if g.record.report then
      [c.event .segmentReported st.code g.record.tag (slotOffset g.ring g.slot : Nat)] else []) ++
    [c.event .ringStarved 0 g.record.tag c.eng.ref]
  rest : t.chip.trk = c.trk ∧ t.chip.gnt = c.gnt ∧ t.chip.cue = c.cue ∧ t.chip.set = c.set ∧ t.chip.mbx = c.mbx

/-- The transport moves under a running engine with nothing queued: what a completion of the current segment `g` meets
where it leaves the engine STARVED (R134). -/
def RunsOut (g : Seg) (c : Chip) : Prop :=
  c.mode = .running ∧ c.sup.ts = .moving ∧ c.eng.est ≠ .halting ∧ c.pln.urgent.queued = 0 ∧ c.pln.main.queued = 0 ∧
    g.record.endOfRun = false ∧ c.eng.ref ≠ 0 ∧ c.set.gen.starve ≠ 0

/-- A latching controlled stop has been taken in MOVING (R31, R33): STOPPING, the cause in the fault word, the latch set,
both rings empty, the engine HALTING with no segment. -/
structure Halted (cause : StopCause) (s t : State) : Prop where
  state : t.chip.sup.ts = .stopping ∧ t.chip.sup.stop = cause ∧ t.chip.sup.latch = true ∧ t.chip.sup.trip = s.chip.sup.trip
  engine : t.chip.eng.est = .halting ∧ t.chip.eng.cur = none
  rings : t.chip.pln.urgent.queued = 0 ∧ t.chip.pln.main.queued = 0
  rest : t.chip.gnt = s.chip.gnt ∧ t.chip.cue = s.chip.cue ∧ t.chip.set = s.chip.set ∧ t.mem = s.mem

/-- The status a completed segment is returned with: CLIPPED where its mark is set (R121). -/
def Seg.doneStatus (g : Seg) : Status := if g.clipped then .clipped else .done

/-- A segment's report, where its record asks for one (R135). -/
def Seg.reported (g : Seg) (st : Status) (c : Chip) : List Event :=
  if g.record.report then [c.event .segmentReported st.code g.record.tag (slotOffset g.ring g.slot : Nat)] else []

/-- A segment that completes at zero speed with nothing queued behind it (R132, R135), from the part as it stood at the
completion and the events posted before it: the slot HOST, its return on the slot write list, the engine IDLE, the
transport HELD, and the events. -/
structure RestedHeld (g : Seg) (st : Status) (before : List Event) (c : Chip) (t : State) : Prop where
  engine : t.chip.eng.est = .idle ∧ t.chip.eng.cur = none ∧ t.chip.eng.ref = 0
  state : t.chip.sup.ts = .held ∧ t.chip.sup.latch = c.sup.latch ∧ t.chip.sup.stop = c.sup.stop ∧
    t.chip.sup.trip = c.sup.trip
  returned : t.chip.pln.list = c.pln.list ++ [.ret g.ring g.slot st c.trk.position c.clock]
  slot : g.slot < (c.pln.ring g.ring).slots.length → ((t.chip.pln.ring g.ring).slot g.slot).view = .host
  posts : t.chip.evt.posted = c.evt.posted ++ before ++ g.reported st c ++ [c.event .stateChanged 3 0 4]
  rest : t.chip.trk = c.trk ∧ t.chip.gnt = c.gnt ∧ t.chip.cue = c.cue ∧ t.chip.set = c.set ∧ t.chip.mbx = c.mbx

/-- A LOCATE in BRAKE is judged at rest (R146, R147), from the part as it stands at the judgement with the segment `g` and
its latch `l`. -/
structure JudgedAtRest (g : Seg) (l : Loc) (c : Chip) (s t : State) : Prop where
  within : (l.target - c.trk.position).natAbs ≤ l.tolerance → RestedHeld g g.doneStatus [] c t
  third : l.tolerance < (l.target - c.trk.position).natAbs → 3 ≤ l.approach → RestedHeld g .missed [] c t
  flagged : l.tolerance < (l.target - c.trk.position).natAbs → l.approach < 3 →
    (c.trk.endFlag = .forwardEnd ∧ c.trk.position < l.target ∨ c.trk.endFlag = .reverseEnd ∧ l.target < c.trk.position) →
    RestedHeld g .tapeEnd [c.event .locateRetry (l.approach + 1) g.record.tag (l.target - c.trk.position)] c t
  retried : l.tolerance < (l.target - c.trk.position).natAbs → l.approach < 3 →
    ¬ (c.trk.endFlag = .forwardEnd ∧ c.trk.position < l.target ∨ c.trk.endFlag = .reverseEnd ∧ l.target < c.trk.position) →
    t = s.ends (({ c with eng := { c.eng with cur := some { g with
        phase := .creep
        dir := if c.trk.position < l.target then some .forward else some .reverse
        loc := some { l with approach := l.approach + 1 } } } } : Chip).posting
      [c.event .locateRetry (l.approach + 1) g.record.tag (l.target - c.trk.position)] [])

/-! ## Takes (R104, R113 to R117, R129, R130) -/

/-- The direction a record of a kind without a latch is taken with (R112). -/
def Record.way (r : Record) (k : Kind) : Option Dir := if k = .dwell ∨ k = .stop then none else dirOf r.speed

/-- A record that does not complete at its take (R114, R118, R121, R122, R130): no LOCATE, whose own latch decides; the
reference speed not 0, or a SPOOL or WIND whose limited target is not 0; no flagged end in its direction; a PLAY or WIND
that the active grant allows; the position end of a SPOOL still ahead; and, where it would begin LEAD_IN, a play target
that the reference speed has not reached. -/
structure GoesOn (r : Record) (k : Kind) (c : Chip) : Prop where
  kind : r.kind? = some k ∧ k ≠ .locate
  moves : c.eng.ref ≠ 0 ∨ (k = .spool ∨ k = .wind) ∧ limitTarget c r.speed ≠ 0
  ahead : ¬ (c.trk.endFlag = .forwardEnd ∧ r.way k = some .forward) ∧ ¬ (c.trk.endFlag = .reverseEnd ∧ r.way k = some .reverse)
  play : k = .play → ∃ a code, c.gnt.active = some a ∧ r.playCode? = some code ∧ a.choice.allows code = true
  wind : k = .wind → ∃ a, c.gnt.active = some a ∧ a.choice.wind = true
  target : k = .spool → r.positionEnd = true →
    (0 < r.speed → c.trk.position < r.target) ∧ (r.speed < 0 → r.target < c.trk.position)
  speed : k = .play → c.drv.pinch = .out →
    ∀ g : Seg, g.record = r → g.dir = dirOf r.speed → limitTarget c (playTarget c g) ≠ c.eng.ref

/-- A slot has been taken in MOVING and goes on (R104, R112, R114, R115): it is current, in its first phase, or in RELEASE
where the pinch is not OUT, with the take index past it; the reference speed is carried on; and the tracker, the grant,
the cue table, the settings, the mailbox, the latch, the fault word and memory stand. -/
structure TakenInMotion (id : RingId) (slot : Nat) (r : Record) (k : Kind) (s t : State) : Prop where
  segment : ∃ g, t.chip.eng.cur = some g ∧ g.ring = id ∧ g.slot = slot ∧ g.record = r ∧ g.kind = k ∧ g.dir = r.way k ∧
    g.phase = (if t.chip.drv.pinch ≠ .out then .release else match k with
      | .spool | .wind => .run | .play => .leadIn | .dwell => .settle | .stop => .ramp | .locate => .approach)
  engine : t.chip.eng.est = .running ∧ t.chip.eng.ref = s.chip.eng.ref
  view : ((t.chip.pln.ring id).slot slot).view = .current
  index : (t.chip.pln.ring id).take = (slot + 1) % (s.chip.pln.ring id).slots.length
  state : t.chip.sup.ts = .moving ∧ t.chip.sup.latch = s.chip.sup.latch ∧ t.chip.sup.stop = s.chip.sup.stop ∧
    t.chip.sup.trip = s.chip.sup.trip
  rest : t.chip.trk = s.chip.trk ∧ t.chip.gnt = s.chip.gnt ∧ t.chip.cue = s.chip.cue ∧ t.chip.set = s.chip.set ∧
    t.chip.mbx = s.chip.mbx ∧ t.mem = s.mem

/-- A hand-off that the screen accepts, with every check passed and the transport MOVING under a current segment. -/
structure AcceptsInMotion (h : HandFetch) (p : HostPort) (g : Seg) (s : State) : Prop where
  mode : s.chip.mode = .running
  state : s.chip.sup.ts = .moving ∧ s.chip.eng.est = .running ∧ s.chip.eng.cur = some g
  fetch : s.chip.pln.fetch = some h ∧ h.todo = [] ∧ s.chip.bus.host = some p
  passed : screen s.chip h.record h.aborted = none

/-- The part with an accepted hand-off: the slot QUEUED at the intake index, the held write released as PART, QUEUED. -/
def Chip.accepted (c : Chip) (h : HandFetch) (p : HostPort) : Chip :=
  let r := c.pln.ring h.ring
  { c with
    pln := ({ c.pln with fetch := none } : Plan).withRing h.ring { r with
      slots := r.slots.set r.intake ⟨.queued, some h.record⟩
      intake := (r.intake + 1) % r.slots.length
      queued := r.queued + 1 }
    bus := { c.bus with host := some { p with phase := .ready (withByte0 h.data 0x81) (h.be ||| 1) } } }

/-- The returns a flush of the main ring makes (R107). -/
def Chip.mainReturns (c : Chip) (st : Status) : List SlotWrite :=
  (List.range c.pln.main.queued).map fun k =>
    .ret .main ((c.pln.main.take + k) % c.pln.main.slots.length) st c.trk.position c.clock

end Sys2Proof.Machine
end

