-- ==== Sys2Proof/Certificates/Slice0/Obligations.lean ====
section
/-! DEFINITION. The statements for the provers. `State.withChip`, `State.ends`, `Chip.plain` and the other words they
use stand in Sys2Proof/Safety.lean. A statement of the form `exec i s = .next (s.ends c)` says the whole next state:
memory and the queue of commands as they stood, and the part as `c`, with the end `done` that
`Obligations.EndOfCommandFrame` bounds. -/

open Sys2Proof Sys2Proof.Machine

/-! ## The queue, reset, and what always stands -/

/-- A step of a state with a command at the front of its queue is that command on the state with the queue's rest; with
none waiting the block idles (log 3). -/
def Obligations.StepRunsFront : Prop :=
  (∀ (i : Instr) (rest : List Instr) (s : State), s.pending = i :: rest → step s = exec i { s with pending := rest }) ∧
  ∀ s : State, s.pending = [] → step s = .next s

/-- The state at reset: the spec's values of R16, R18, R72, R110, R111, R137, R166, R167, R178, R179, R183, R184 (the
machine stands in the power-on reset: log 8).

What always stands holds at reset. -/
def Obligations.ResetValuesAndInvariants : Prop :=
  (let c := State.reset.chip
   c.drv.sup.mode = .off ∧ c.drv.tup.mode = .off ∧ c.drv.sup.torque = 0 ∧ c.drv.tup.torque = 0 ∧
   c.drv.sup.engaged = true ∧ c.drv.tup.engaged = true ∧ c.drv.capRun = false ∧ c.drv.capSpeed = 0 ∧
   c.drv.measuredCapstan = 0 ∧ c.drv.pinch = .out ∧ c.drv.lifters = .up ∧ c.drv.carry = .none ∧
   c.drv.carryTimer = none ∧
   c.trk.position = 0 ∧ c.trk.valid = false ∧ c.trk.tapeSpeed = 0 ∧ c.trk.lastDir = none ∧ c.trk.sup.pulseRate = 0 ∧
   c.trk.tup.pulseRate = 0 ∧ c.trk.sup.radius = 0 ∧ c.trk.tup.radius = 0 ∧ c.trk.path = .absent ∧
   c.trk.endFlag = .none ∧ c.trk.clearing = 0 ∧
   c.sup.threaded = none ∧ c.sup.tension.value.1 = 0 ∧ c.sup.brk = none ∧ c.sup.exc = none ∧ c.sup.latch = false ∧
   c.sup.trip = .none ∧ c.sup.side = .none ∧ c.sup.stop = .none ∧
   c.gnt.active = none ∧ c.gnt.fallback = [] ∧ c.gnt.request = none ∧ c.gnt.trim = 0 ∧
   c.pln.urgent.queued = 0 ∧ c.pln.main.queued = 0 ∧ c.pln.urgent.intake = 0 ∧ c.pln.main.intake = 0 ∧
   c.pln.list = [] ∧ c.eng.est = .idle ∧ c.eng.cur = none ∧ c.eng.ref = 0 ∧
   (∀ n, c.cue.cues.getD n none = none) ∧ c.mbx.st = .idle ∧ c.mbx.copy = 0 ∧ c.set.isOpen = false ∧
   c.evt.write = 0 ∧ c.evt.consumed = 0 ∧ c.evt.overrun = false ∧ c.evt.dropped = 0 ∧
   c.ntc.pending = 0 ∧ c.mon.st = .disarmed ∧
   c.mode = .bypass ∧ c.bus.queue = [] ∧ c.bus.passOver = 0 ∧ c.bus.snap = none ∧ c.bus.startCount = 0 ∧
   c.bus.startCause = .powerOn ∧ State.reset.pending = [] ∧ State.reset.mem = []) ∧
  (MemoryOk .reset ∧ NoticesOk .reset ∧ BrakesOk .reset ∧ TorquesOk .reset ∧ PinchOk .reset ∧ PositionOk .reset ∧
     ValidOk .reset ∧ TrimOk .reset ∧ QueueOk .reset ∧ LocateOk .reset ∧ PlanOk .reset ∧ EventsOk .reset)

/-- Every step keeps memory in its canonical form. -/
def Obligations.StepKeepsMemory : Prop := ∀ s t : State, MemoryOk s → step s = .next t → MemoryOk t

/-- Every step keeps the notice set within the mask (R183).

Every step keeps the trim within the active grant's range (R89, R90).

Every step keeps the master queue at 12 writes at most (R156). -/
def Obligations.StepKeepsNoticesTrimQueue : Prop :=
  (∀ s t : State, NoticesOk s → step s = .next t → NoticesOk t) ∧
  (∀ s t : State, TrimOk s → step s = .next t → TrimOk t) ∧
  (∀ s t : State, QueueOk s → step s = .next t → QueueOk t)

/-- Every step keeps the brake law (R59).

Every step keeps the torque outputs at 0 outside TORQUE (R58).

Every step keeps the pinch roller from being IN with the capstan OFF (R64). -/
def Obligations.StepKeepsDriveLaws : Prop :=
  (∀ s t : State, BrakesOk s → step s = .next t → BrakesOk t) ∧
  (∀ s t : State, TorquesOk s → step s = .next t → TorquesOk t) ∧
  (∀ s t : State, PinchOk s → step s = .next t → PinchOk t)

/-- Every step keeps the position counter in its range (R1, R2).

Every step keeps POSITION_VALID false while the path state is not PRESENT (R3, R4, R12). -/
def Obligations.StepKeepsPosition : Prop :=
  (∀ s t : State, PositionOk s → step s = .next t → PositionOk t) ∧
  (∀ s t : State, ValidOk s → step s = .next t → ValidOk t)

/-- Every step keeps the laws of the plan rings (R22, R92, R93, R95, R104, R136) and what they hang together with
(R18, R52, R158), and a next host cycle is kept only behind one at the port (log 36). -/
def Obligations.StepKeepsPlan : Prop := ∀ s t : State, PlanOk s → step s = .next t → PlanOk t

/-- Every step keeps the event ring's indices, its unread count and its overrun state together (R179, R182).

No step leaves a LOCATE current while POSITION_VALID is false (R148). -/
def Obligations.StepKeepsEventsAndLocate : Prop :=
  (∀ s t : State, EventsOk s → step s = .next t → EventsOk t) ∧
  (∀ s t : State, LocateOk s → step s = .next t → LocateOk t)

/-- Every command completes; it leaves the commands waiting as they are; and memory changes only where a memory cycle
completes or is ended at the memory response limit (R158, R160). That POWER_ON leaves memory as it stands is the
model's choice (log 9). -/
def Obligations.CommandsComplete : Prop :=
  ∀ (i : Instr) (s : State), ∃ t, exec i s = .next t ∧ t.pending = s.pending ∧
    (i ≠ .memoryCycleDone → i ≠ .memoryResponseLimit → t.mem = s.mem)

/-- The end that the commands of motion and of the host share changes nothing but the CLIPPED mark, the lifters, the
tension reference, the torque outputs, the free counter, and what is at the host port and the memory port.

The lifters at the end of a command that finds the transport MOVING: DOWN in a PLAY, and otherwise, where a segment
runs past its RELEASE or the engine is STARVED, UP while the reference speed's magnitude exceeds the threaded
profile's lifter speed and DOWN while it does not (R67, R119). -/
def Obligations.EndOfCommand : Prop :=
  (∀ c : Chip, (done c).plain = c.plain ∧
     (c.sup.up = false → (done c).sup = c.sup ∧ (done c).drv = c.drv ∧ (done c).eng = c.eng) ∧
     (c.drv.carry ≠ .none → (done c).drv = c.drv) ∧
     (c.drv.sup.mode ≠ .torque → (done c).drv.sup = c.drv.sup) ∧ (c.drv.tup.mode ≠ .torque → (done c).drv.tup = c.drv.tup)) ∧
  (∀ c : Chip, c.sup.up = true → c.drv.carry = .none → c.sup.ts = .moving →
     (∀ g, c.eng.cur = some g → g.kind = .play → (done c).drv.lifters = .down) ∧
     (((∃ g, c.eng.cur = some g ∧ g.kind ≠ .play ∧ g.phase ≠ .release) ∨ (c.eng.cur = none ∧ c.eng.est = .starved)) →
       (c.profile.lifterSpeed < c.eng.ref.natAbs → (done c).drv.lifters = .up) ∧
       (c.eng.ref.natAbs ≤ c.profile.lifterSpeed → (done c).drv.lifters = .down)))

/-- The tension reference in movement (R24): after 250 ms it stands at its goal, and before that on the line from
where the movement began; a movement that begins during another begins at the value reached; a millisecond moves it
on.

What the tension reference is asked for (R24; the model's choices: logs 45, 46 and 56). On entry: 0 at once in
UNTHREADED, THREADED and TRIPPED, the rise from 0 to park in TENSIONING, a movement to park on every entry into HELD,
also where park is what was called for before or a settle was shorter than 250 ms (logs 45 and 56), the fall from the
value reached in SLACKING, and from nominal out of CATCHING (log 46). At a command's end: park in HELD, in MOVING
nominal, or wind with a WIND current, nominal in STOPPING and in CATCHING once claimed: a value that has changed
begins a movement from the value reached, and one that stands leaves it, from HELD to MOVING too (log 56).

The torque command of a reel in TORQUE (R25; sizes and rounding: log 14): at most the profile's max tension times the
radius, 2000 standing for an unknown one; 0 at a reference of 0; with the reels not driving the tape, the base with
the arm at the middle of the IN band, no less below it, no more above; with the reels driving it and the arm there,
forward of the tape speed the take-up pulls no less and the supply no more than the base, and the reverse. -/
def Obligations.TensionAndTorque : Prop :=
  (∀ r : Ramp, r.den ≠ 0 →
     (250 ≤ r.elapsed → r.value = (r.goal, 1)) ∧
     (r.elapsed < 250 → r.value.2 ≠ 0 ∧
       r.value.1 * (r.den * 250) = (r.num * (250 - r.elapsed) + r.goal * r.den * r.elapsed) * r.value.2) ∧
     (∀ g, (r.moveTo g).goal = g ∧ (r.moveTo g).elapsed = 0 ∧ (r.moveTo g).value.1 * r.value.2 = r.value.1 * (r.moveTo g).value.2) ∧
     (r.elapsed < 250 → r.tick = { r with elapsed := r.elapsed + 1 }) ∧ (250 ≤ r.elapsed → r.tick = r)) ∧
  ((∀ (x : Supervisor) (n : TState) (p : Profile),
     (n = .unthreaded ∨ n = .threaded ∨ n = .tripped → (x.entered n p).tension.value.1 = 0) ∧
     (n = .tensioning → (x.entered n p).tension = ⟨0, 1, p.park, 0⟩) ∧
     (n = .slacking → x.ts ≠ .catching → (x.entered n p).tension = x.tension.moveTo 0) ∧
     (n = .slacking → x.ts = .catching → (x.entered n p).tension = ⟨p.nominal, 1, 0, 0⟩) ∧
     (n = .held → (x.entered n p).tension = x.tension.moveTo p.park) ∧
     (n = .moving ∨ n = .stopping ∨ n = .catching → (x.entered n p).tension = x.tension)) ∧
   ∀ (c : Chip), c.sup.up = true →
     let wind := ∃ g, c.eng.cur = some g ∧ g.kind = .wind
     let asks (v : Nat) := (done c).sup.tension = if c.sup.tension.goal = v then c.sup.tension else c.sup.tension.moveTo v
     (c.sup.ts = .unthreaded ∨ c.sup.ts = .threaded ∨ c.sup.ts = .tripped → asks 0) ∧
     (c.sup.ts = .tensioning ∨ c.sup.ts = .slacking → (done c).sup.tension = c.sup.tension) ∧
     (c.sup.ts = .held → asks c.profile.park) ∧
     (c.sup.ts = .moving → wind → asks c.profile.wind) ∧ (c.sup.ts = .moving → ¬ wind → asks c.profile.nominal) ∧
     (c.sup.ts = .stopping → asks c.profile.nominal) ∧
     (c.sup.ts = .catching → c.sup.claimPending = false → asks c.profile.nominal) ∧
     (c.sup.ts = .catching → c.sup.claimPending = true → (done c).sup.tension = c.sup.tension)) ∧
  (∀ (c : Chip) (r : Reel), c.sup.up = true → c.drv.carry = .none → ((done c).drv.reel r).mode = .torque →
     let o := (done c).drv.reel r
     let v := (done c).sup.tension.value
     let radius := if (c.trk.reel r).radius = 0 then 2000 else (c.trk.reel r).radius
     let limit : Int := (c.profile.maxTension * radius : Nat)
     let base : Int := max (-limit) (min limit (v.1 * radius / v.2 : Nat))
     let arm := 2 * (c.trk.reel r).arm.toNat
     let middle := c.profile.low + c.profile.high
     let driven := (c.sup.ts = .moving ∨ c.sup.ts = .stopping ∨ c.sup.ts = .catching) ∧
       ¬ (c.drv.capRun = true ∧ c.drv.pinch = .pinched)
     o.torque ≤ limit ∧ -limit ≤ o.torque ∧ (v.1 = 0 → o.torque = 0) ∧
     (v.1 ≠ 0 → ¬ driven → (arm = middle → o.torque = base) ∧ (arm < middle → base ≤ o.torque) ∧
       (middle < arm → o.torque ≤ base)) ∧
     (v.1 ≠ 0 → driven → arm = middle →
       (c.trk.tapeSpeed = c.eng.ref → o.torque = base) ∧
       (c.trk.tapeSpeed < c.eng.ref → if r = .takeup then base ≤ o.torque else o.torque ≤ base) ∧
       (c.eng.ref < c.trk.tapeSpeed → if r = .takeup then o.torque ≤ base else base ≤ o.torque)))

/-- The arbiter (R158, R159): with the port free, a fetch read goes first; a host cycle goes next, unless the head of
a queue that is not empty has been passed over six times; then the head of the queue. A host cycle granted over a
queue that is not empty raises the count by one.

A held host cycle whose hold has ended stands before the queue too, until its release: the head is granted over it
only at a count of six (R157; that the end of a hold and its release are two rows: log 59). -/
def Obligations.ArbiterGrants : Prop :=
  (∀ c : Chip, c.bus.port = none →
    let due := releaseDue c = true ∧ c.bus.passOver < 6
    (∀ r, (HandFetch.next? c).or ((mailNext? c).or (sweepNext? c)) = some r → (arbitrate c).bus.port = some r) ∧
    ((HandFetch.next? c).or ((mailNext? c).or (sweepNext? c)) = none →
      (∀ h, hostNext? c = some h → (c.bus.passOver < 6 ∨ c.bus.queue = []) →
        (arbitrate c).bus.port = some h ∧
        (arbitrate c).bus.passOver = if c.bus.queue = [] then c.bus.passOver else c.bus.passOver + 1) ∧
      (∀ w ws, c.bus.queue = w :: ws → (hostNext? c = none ∧ ¬ due ∨ 6 ≤ c.bus.passOver) →
        (arbitrate c).bus.port = some (.part (windowAddr c w.offset) w) ∧
        (arbitrate c).bus.passOver = c.bus.passOver) ∧
      (hostNext? c = none → due → arbitrate c = c) ∧
      (hostNext? c = none → c.bus.queue = [] → arbitrate c = c)) ∧
    ∀ cy, (arbitrate { c with bus := { c.bus with port := some cy } }) = { c with bus := { c.bus with port := some cy } }) ∧
  ∀ (c : Chip) (h : HostPort), c.bus.host = some h →
    (releaseDue c = true ↔ h.phase = .held ∧
      ∀ off, windowOffset c h.cyc.addr.toNat = some off → heldCycle off h.cyc.write c = false)

/-! ## The tape path and its measures (chapter 1) -/

/-- ROLLER_COUNT (R1, R2, R14) with no segment current: the tracker counts, and a running part posts what the count
brings: POSITION_LOST, detail RANGE, where the count sticks at the end of the range and ends POSITION_VALID, and
END_FLAG, detail NONE, where it clears the flag, in that order where one count does both (log 55); nothing else
changes.

What a roller count does to the tracker (R1, R2, R5, R8, R14): inside the range the counter moves by one, at the end
it stays and POSITION_VALID is false; the count joins the newest millisecond of the 40 ms window, of which the tape
speed is the net count times 31.25 toward zero, at most 120,000; it is the last direction; with the flag NONE the
clearing count stands; the path and the pulse rates, radii and arm readings stand; each reel's measure adds it, and is
abandoned by a count opposite to its first or by a tape speed below 500.

ROLLER_COUNT with a segment current that is no LOCATE (R121, R124): a SPOOL in RUN with POSITION_END, the reference
speed pointing its way, completes at the count that brings the position to its target or beyond, and is STARVED with
nothing behind it; a PLAY in CAPSTAN goes to PINCH_OUT with its end status fixed and the capstan OFF held until the
pinch is OUT; any other segment goes on.

ROLLER_COUNT with a LOCATE current (R144, R145, R148): one that ends POSITION_VALID ends it MISSED; in APPROACH and
CREEP a count that brings it within tolerance, or in its direction to the target or beyond, makes it BRAKE; in
APPROACH, with the reference speed toward the target, a remaining distance of at most the braking distance plus the
creep distance makes it CREEP; otherwise it goes on. -/
def Obligations.RollerCountTaken : Prop :=
  (∀ (d : Dir) (s : State), s.chip.eng.cur = none → s.chip.eng.moveReq = false →
     let t := s.chip.trk.count s.chip.pins.leader d
     let c : Chip := { s.chip with trk := t }
     (s.chip.mode ≠ .running → exec (.rollerCount d) s = .next (s.ends c)) ∧
     (s.chip.mode = .running →
       exec (.rollerCount d) s = .next (s.ends (c.posting
         ((if s.chip.trk.sticks d ∧ s.chip.trk.valid then [c.event .positionLost 1 0 0] else []) ++
           (if s.chip.trk.endFlag ≠ .none ∧ t.endFlag = .none then [c.event .endFlag 0 0 0] else [])) [])))) ∧
  (∀ (t : Tracker) (leader : Bool) (d : Dir),
     let u := t.count leader d
     let one : Int := match d with | .forward => 1 | .reverse => -1
     let stuck := match d with | .forward => 16777215 ≤ t.position | .reverse => t.position ≤ -16777216
     (stuck → u.position = t.position ∧ u.valid = false) ∧
     (¬ stuck → u.position = t.position + one ∧ u.valid = t.valid) ∧
     u.lastDir = some d ∧ (∀ b bs, t.rollWin = b :: bs → u.rollWin = (b + one) :: bs) ∧
     u.tapeSpeed = max (-120000) (min 120000 ((u.rollWin.sum * 125).tdiv 4)) ∧
     (t.endFlag = .none → u.endFlag = .none ∧ u.clearing = t.clearing) ∧
     u.path = t.path ∧ u.debounce = t.debounce ∧
     ∀ r, (u.reel r).pulses = (t.reel r).pulses ∧ (u.reel r).radius = (t.reel r).radius ∧ (u.reel r).arm = (t.reel r).arm ∧
       ((t.reel r).rev = none → (u.reel r).rev = none) ∧
       ∀ m, (t.reel r).rev = some m →
         (u.tapeSpeed.natAbs < 500 → (u.reel r).rev = none) ∧
         (500 ≤ u.tapeSpeed.natAbs →
           (m.first = none → (u.reel r).rev = some { m with rolls := m.rolls + 1, first := some d }) ∧
           (∀ f, m.first = some f → f = d → (u.reel r).rev = some { m with rolls := m.rolls + 1 }) ∧
           (∀ f, m.first = some f → f ≠ d → (u.reel r).rev = none))) ∧
  (∀ (d : Dir) (g : Seg) (s : State), s.chip.eng.moveReq = false → s.chip.eng.cur = some g → g.kind ≠ .locate →
     let c := s.chip.rolled d
     let hit := g.record.positionEnd = true ∧ g.dir = some d ∧
       match d with
       | .forward => g.record.target ≤ c.trk.position
       | .reverse => c.trk.position ≤ g.record.target
     (hit → g.kind = .spool → g.phase = .run → dirOf s.chip.eng.ref = some d → RunsOut g s.chip →
       ∃ t, exec (.rollerCount d) s = .next t ∧ RanOut g g.doneStatus c t ∧ t.mem = s.mem) ∧
     (hit → g.kind = .play → g.phase = .capstan → s.chip.drv.pinch = .pinched →
       exec (.rollerCount d) s = .next (s.ends { c with
         eng := { c.eng with cur := some { g with phase := .pinchOut, endStatus := some g.doneStatus } }
         drv := { c.drv with
           pinch := .goingOut, pinchTime := s.chip.set.gen.pinchTime, pinchSpent := 0, capOffHeld := true } })) ∧
     (¬ (hit ∧ ((g.kind = .spool ∧ g.phase = .run ∧ dirOf s.chip.eng.ref = some d) ∨
         (g.kind = .play ∧ g.phase = .capstan))) →
       exec (.rollerCount d) s = .next (s.ends c))) ∧
  (∀ (d : Dir) (g : Seg) (s : State), s.chip.eng.moveReq = false → s.chip.eng.cur = some g → g.kind = .locate →
     let c := s.chip.rolled d
     let into (ph : Phase) := s.ends { c with eng := { c.eng with cur := some { g with phase := ph } } }
     (c.trk.valid = false → RunsOut g s.chip →
       ∃ t, exec (.rollerCount d) s = .next t ∧ RanOut g .missed c t ∧ t.mem = s.mem) ∧
     ∀ l, c.trk.valid = true → g.loc = some l →
       let left := (l.target - c.trk.position).natAbs
       let there := left ≤ l.tolerance ∨ (g.dir = some d ∧
         match d with
         | .forward => l.target ≤ c.trk.position
         | .reverse => c.trk.position ≤ l.target)
       let k := 25 * effectiveAccel c
       let near := g.dir ≠ none ∧ dirOf c.eng.ref = g.dir ∧
         left * k ≤ c.eng.ref.natAbs * c.eng.ref.natAbs + c.profile.creepDistance * k
       (g.phase = .approach ∨ g.phase = .creep → there → exec (.rollerCount d) s = .next (into .brake)) ∧
       (g.phase = .approach → ¬ there → near → exec (.rollerCount d) s = .next (into .creep)) ∧
       (g.phase = .approach → ¬ there → ¬ near → exec (.rollerCount d) s = .next (s.ends c)) ∧
       (g.phase = .creep → ¬ there → exec (.rollerCount d) s = .next (s.ends c)) ∧
       (g.phase ≠ .approach → g.phase ≠ .creep → exec (.rollerCount d) s = .next (s.ends c)))

/-- TACH_PULSE (R6, R8, R9): the pulse joins the newest millisecond of its reel's window; it starts an idle revolution
measure where the tape runs at 500 or more, adds to one in progress, and the 256th gives the radius estimate.

The radius estimate of R9: within 200..2000, and within that range the whole number nearest to the roller counts times
1.25 over 2π, halves up, with the model's 2π (log 6); 3770 counts give 750. -/
def Obligations.TachPulseTaken : Prop :=
  (∀ (s : State) (r : Reel), let m := s.chip.trk.reel r
     ∃ m' : ReelMeasure, exec (.tachPulse r) s = .next (s.ends { s.chip with trk := s.chip.trk.withReel r m' }) ∧
       m'.arm = m.arm ∧ (∀ b bs, m.pulses = b :: bs → m'.pulses = (b + 1) :: bs ∧ m'.pulseRate = m.pulseRate + 10) ∧
       (m.rev = none → m'.radius = m.radius ∧
         m'.rev = if 500 ≤ s.chip.trk.tapeSpeed.natAbs then some ⟨0, 0, none⟩ else none) ∧
       (∀ v, m.rev = some v → v.pulses + 1 ≠ 256 → m'.radius = m.radius ∧
         m'.rev = some { v with pulses := v.pulses + 1 }) ∧
       (∀ v, m.rev = some v → v.pulses + 1 = 256 → m'.rev = some ⟨0, 0, none⟩ ∧ m'.radius = radiusOf v.rolls)) ∧
  ((∀ n, 200 ≤ radiusOf n ∧ radiusOf n ≤ 2000) ∧ radiusOf 3770 = 750 ∧ radiusOf 1130 = 225 ∧ radiusOf 9050 = 1800 ∧
   ∀ n, 200 < radiusOf n → radiusOf n < 2000 →
     4 * twoPiNum * (2 * radiusOf n - 1) ≤ 10 * twoPiDen * n ∧ 10 * twoPiDen * n < 4 * twoPiNum * (2 * radiusOf n + 1))

/-- CAPSTAN_PULSE (R62): a pulse raises the measured capstan speed by 5 in the direction of the command; nothing else
changes.

SPEED_WINDOW_TICK that ends nothing (no stop or catch at rest, no emergency action, no LOCATE at rest in BRAKE): the
tracker's millisecond, the capstan window, a pinch movement's time and the carry timer advance, and nothing else
changes (R5, R6, R11, R62, R63, R71; an expiry has its own command: log 4; ages are counted in bins: log 5).

The tracker's millisecond (R5, R6, R8, R11): the windows of the tape speed and of the pulses age, a debounce advances,
a measure is abandoned by a tape speed below 500, and all else stands. -/
def Obligations.CapstanPulseAndTick : Prop :=
  (∀ (s : State) (b : Nat) (bs : List Nat), s.chip.drv.capWin = b :: bs →
     let d := { s.chip.drv with capWin := (b + 1) :: bs }
     exec .capstanPulse s = .next (s.withChip { s.chip with drv := d }) ∧
       d.measuredCapstan = s.chip.drv.measuredCapstan + (if s.chip.drv.capSpeed < 0 then -5 else 5)) ∧
  (∀ s : State, s.chip.eng.moveReq = false → s.chip.drv.carry ≠ .expired → s.chip.sup.ts ≠ .tripped →
     let t := s.chip.trk.tick
     ¬ (s.chip.sup.ts = .stopping ∧ s.chip.eng.ref = 0 ∧ s.chip.eng.haltHold = false ∧ t.reelsStopped = true) →
     ¬ (s.chip.sup.ts = .catching ∧ s.chip.sup.claimPending = false ∧ s.chip.sup.catchHold = false ∧ s.chip.eng.ref = 0 ∧
       t.reelsStopped = true) →
     (∀ g, s.chip.eng.cur = some g → g.phase = .brake → s.chip.sup.ts = .moving → s.chip.eng.ref = 0 → t.tapeSpeed ≠ 0) →
     exec .speedWindowTick s = .next (s.ends { s.chip with
       trk := t
       drv := { s.chip.drv with
         capWin := (0 :: s.chip.drv.capWin).take 20
         pinchSpent := if s.chip.drv.pinch = .goingIn ∨ s.chip.drv.pinch = .goingOut then s.chip.drv.pinchSpent + 1
           else s.chip.drv.pinchSpent
         carryTimer := s.chip.drv.carryTimer.map (· + 1) } })) ∧
  (∀ t : Tracker,
     let u := t.tick
     u.position = t.position ∧ u.valid = t.valid ∧ u.lastDir = t.lastDir ∧ u.path = t.path ∧ u.endFlag = t.endFlag ∧
     u.clearing = t.clearing ∧ u.rollWin = (0 :: t.rollWin).take 40 ∧
     u.debounce = (if t.path = .pending then t.debounce + 1 else t.debounce) ∧
     ∀ r, (u.reel r).pulses = (0 :: (t.reel r).pulses).take 100 ∧ (u.reel r).radius = (t.reel r).radius ∧
       (u.reel r).arm = (t.reel r).arm ∧ (u.tapeSpeed.natAbs < 500 → (u.reel r).rev = none) ∧
       (500 ≤ u.tapeSpeed.natAbs → (u.reel r).rev = (t.reel r).rev))

/-- PATH_SENSOR_PRESENT (R11): in ABSENT the debounce starts at 0 and the path state is PENDING; in PENDING and PRESENT
the reading changes nothing but the input's level.

PATH_DEBOUNCE_EXPIRY (R11, R20): after 80 ms in PENDING the path is PRESENT, with its event and notice, and a
supervisor in UNTHREADED goes to THREADED, announced after them (the order of the two blocks' posts: log 18; an expiry
beyond 80 ms: log 4).

PATH_ABSENT (R11, R12, R20): in ABSENT nothing but the level; in PENDING the debounce stops and the state is ABSENT;
in PRESENT with the transport THREADED the position is no longer valid, the radii are unknown, the measures idle, the
end flag NONE, the counter keeps its value, and the transport is UNTHREADED with no threaded profile, in the grant
unit too and with no pending request (R76, R82), and both classes NONE at once (R23; log 43).

PATH_ABSENT under tension (R12, R28, R29): a PATH_LOST trip; POSITION_VALID is false and the counter keeps its value. -/
def Obligations.PathSensorTaken : Prop :=
  (∀ s : State, exec .pathSensorPresent s = .next (s.withChip { s.chip with
     pins := { s.chip.pins with path := true }
     trk := if s.chip.trk.path = .absent then { s.chip.trk with path := .pending, debounce := 0 } else s.chip.trk })) ∧
  (∀ s : State, s.chip.mode = .running → s.chip.trk.path = .pending → 80 ≤ s.chip.trk.debounce →
     (s.chip.sup.up = false ∨ s.chip.sup.ts ≠ .unthreaded →
       exec .pathDebounceExpiry s = .next (s.ends
         ((({ s.chip with trk := { s.chip.trk with path := .present, debounce := 0 } } : Chip).posting
           [s.chip.event .tapePath 1 0 0] [.tapePath])))) ∧
     (s.chip.sup.up = true → s.chip.sup.ts = .unthreaded → s.chip.gnt.active = none →
       ∃ t, exec .pathDebounceExpiry s = .next t ∧ t.chip.trk = { s.chip.trk with path := .present, debounce := 0 } ∧
         t.chip.sup.ts = .threaded ∧ t.chip.sup.threaded = s.chip.sup.threaded ∧
         t.chip.evt.posted = s.chip.evt.posted ++
           [s.chip.event .tapePath 1 0 0, s.chip.event .stateChanged 1 s.chip.curTag 0] ∧
         t.chip.ntc = (s.chip.ntc.post .tapePath).post .stateChanged ∧ t.chip.gnt = s.chip.gnt ∧
         t.chip.pln = s.chip.pln ∧ t.chip.cue = s.chip.cue ∧ t.chip.set = s.chip.set ∧ t.chip.mbx = s.chip.mbx ∧
         t.mem = s.mem)) ∧
  (∀ s : State,
     (s.chip.trk.path = .absent →
       exec .pathAbsent s = .next (s.ends { s.chip with pins := { s.chip.pins with path := false } })) ∧
     (s.chip.trk.path = .pending →
       exec .pathAbsent s = .next (s.ends { s.chip with
         pins := { s.chip.pins with path := false }, trk := { s.chip.trk with path := .absent, debounce := 0 } })) ∧
     (s.chip.trk.path = .present → s.chip.sup.up = true → s.chip.sup.ts = .threaded →
       ∃ t, exec .pathAbsent s = .next t ∧ t.chip.sup.ts = .unthreaded ∧ t.chip.sup.threaded = none ∧
         t.chip.gnt.threaded = none ∧ t.chip.sup.clsSup = .none ∧ t.chip.sup.clsTup = .none ∧
         t.chip.trk = { s.chip.trk with
           valid := false, path := .absent, debounce := 0, endFlag := .none, clearing := 0
           sup := { s.chip.trk.sup with radius := 0, rev := none }
           tup := { s.chip.trk.tup with radius := 0, rev := none } } ∧
         t.chip.gnt.request = none ∧ t.chip.cue = s.chip.cue ∧ t.chip.set = s.chip.set ∧ t.chip.mbx = s.chip.mbx ∧
         t.mem = s.mem)) ∧
  (∀ s : State, Tensed s → s.chip.sup.claimPending = false → s.chip.trk.path = .present →
     ∃ t, exec .pathAbsent s = .next t ∧ TrippedBy .pathLost .none s t)

/-- END_SENSOR_LEADER (R13): a change from oxide to leader with the flag NONE and a last direction known sets the flag of
that direction, with its event and notice; with the last direction NONE, or the flag set, or no change, nothing is
set.

The clearing of a set end flag (R14): over oxide a count away from the flagged end adds one, a count toward it takes
one off, not below 0, leader holds the count at 0, and the 80th clears the flag.

A new end flag in MOVING (R128, R131): a WIND in RUN toward that end goes to RUNOUT; any other segment in another
phase than RUNOUT is ended TAPE_END by the END stop, and a STARVED engine is stopped too: STOPPING, END in the fault
word, the latch and the queued slots as they stood; an engine that is IDLE is asked nothing. -/
def Obligations.EndFlagSetAndCleared : Prop :=
  (∀ s : State, s.chip.mode = .running → s.chip.sup.ts ≠ .moving →
     (∀ d, s.chip.trk.lastDir = some d → s.chip.pins.leader = false → s.chip.trk.endFlag = .none →
       exec (.endSensorLeader true) s = .next (s.ends
         ((({ s.chip with
             pins := { s.chip.pins with leader := true }
             trk := { s.chip.trk with clearing := 0, endFlag := match d with
               | .forward => .forwardEnd
               | .reverse => .reverseEnd } } : Chip).posting
           [s.chip.event .endFlag (match d with | .forward => 1 | .reverse => 2) 0 0] [.tapeEnd])))) ∧
     (s.chip.trk.lastDir = none ∨ s.chip.pins.leader = true ∨ s.chip.trk.endFlag ≠ .none →
       exec (.endSensorLeader true) s = .next (s.ends { s.chip with
         pins := { s.chip.pins with leader := true }, trk := { s.chip.trk with clearing := 0 } })) ∧
     exec (.endSensorLeader false) s = .next (s.ends { s.chip with pins := { s.chip.pins with leader := false } })) ∧
  (∀ (t : Tracker) (leader : Bool) (d : Dir), t.endFlag ≠ .none → t.clearing < 80 →
     let u := t.count leader d
     let away := (t.endFlag = .forwardEnd ∧ d = .reverse) ∨ (t.endFlag = .reverseEnd ∧ d = .forward)
     (leader = true → u.clearing = 0 ∧ u.endFlag = t.endFlag) ∧
     (leader = false → away → t.clearing + 1 < 80 → u.clearing = t.clearing + 1 ∧ u.endFlag = t.endFlag) ∧
     (leader = false → away → t.clearing + 1 = 80 → u.clearing = 0 ∧ u.endFlag = .none) ∧
     (leader = false → ¬ away → u.clearing = t.clearing - 1 ∧ u.endFlag = t.endFlag)) ∧
  (∀ (d : Dir) (s : State), s.chip.mode = .running → s.chip.sup.up = true → s.chip.sup.ts = .moving →
     s.chip.trk.lastDir = some d → s.chip.pins.leader = false → s.chip.trk.endFlag = .none →
     let flag : EndFlag := match d with | .forward => .forwardEnd | .reverse => .reverseEnd
     let stopped (t : State) := t.chip.sup.ts = .stopping ∧ t.chip.sup.stop = .tapeEnd ∧ t.chip.sup.latch = s.chip.sup.latch ∧
       t.chip.eng.est = .halting ∧ t.chip.eng.cur = none ∧ t.chip.eng.ref = s.chip.eng.ref ∧ t.chip.trk.endFlag = flag ∧
       t.chip.pln.urgent.queued = s.chip.pln.urgent.queued ∧ t.chip.pln.main.queued = s.chip.pln.main.queued ∧
       t.chip.gnt = s.chip.gnt ∧ t.mem = s.mem
     (∀ g, s.chip.eng.cur = some g → g.kind = .wind → g.phase = .run → g.dir = some d → s.chip.eng.ref ≠ 0 →
       exec (.endSensorLeader true) s = .next (s.ends (({ s.chip with
         pins := { s.chip.pins with leader := true }
         trk := { s.chip.trk with clearing := 0, endFlag := flag }
         eng := { s.chip.eng with cur := some { g with phase := .runout } } } : Chip).posting
         [s.chip.event .endFlag flag.code 0 0] [.tapeEnd]))) ∧
     (∀ g, s.chip.eng.cur = some g → g.phase ≠ .runout → ¬ (g.kind = .wind ∧ g.phase = .run ∧ g.dir = some d) →
       ∃ t, exec (.endSensorLeader true) s = .next t ∧ stopped t ∧
         t.chip.pln.list = s.chip.pln.list ++ [.ret g.ring g.slot .tapeEnd s.chip.trk.position s.chip.clock]) ∧
     (s.chip.eng.cur = none → s.chip.eng.est = .starved →
       ∃ t, exec (.endSensorLeader true) s = .next t ∧ stopped t ∧ t.chip.pln = s.chip.pln) ∧
     (s.chip.eng.cur = none → s.chip.eng.est ≠ .starved →
       exec (.endSensorLeader true) s = .next (s.ends (({ s.chip with
         pins := { s.chip.pins with leader := true }, trk := { s.chip.trk with clearing := 0, endFlag := flag } } :
         Chip).posting [s.chip.event .endFlag flag.code 0 0] [.tapeEnd]))))

/-- The class of a reading (R23): SLACK at or below the slack level, LOW above it and at or below the low level, IN
above low and below high, HIGH at or above high and below over, OVER at or above over.

ARM_SAMPLE (R15, R23, R26): the reading is held, and that arm alone takes the class of the reading against the
threaded profile, or NONE with none threaded; in a state in which the break timer runs it starts where this sample
makes the first SLACK arm, runs on while an arm is SLACK, and stops where none is.

The excursion timer at ARM_SAMPLE (R36): it runs in HELD, MOVING and STOPPING while an arm is LOW or HIGH. There it
starts at 0 where this sample makes the first such arm, runs on while one is, and stops where none is; in every other
state the sample leaves it. -/
def Obligations.ArmSampleTaken : Prop :=
  (∀ (p : Profile) (v : Nat), p.slack < p.low → p.low < p.high → p.high < p.overLevel →
     (v ≤ p.slack → classOf p v = .slack) ∧ (p.slack < v → v ≤ p.low → classOf p v = .low) ∧
     (p.low < v → v < p.high → classOf p v = .inBand) ∧ (p.high ≤ v → v < p.overLevel → classOf p v = .high) ∧
     (p.overLevel ≤ v → classOf p v = .overLevel)) ∧
  (∀ (r : Reel) (v : BitVec 12) (s : State), s.chip.sup.up = true → s.chip.sup.claimPending = false →
     let cl := match s.chip.sup.threaded with
       | some i => classOf (s.chip.set.prof i.val) v.toNat
       | none => .none
     cl ≠ .overLevel →
     let sup' := match r with
       | .supply => { s.chip.sup with clsSup := cl, seenSup := true }
       | .takeup => { s.chip.sup with clsTup := cl, seenTup := true }
     let stray (x : Supervisor) := x.clsSup = .low ∨ x.clsSup = .high ∨ x.clsTup = .low ∨ x.clsTup = .high
     let runs := s.chip.sup.ts = .held ∨ s.chip.sup.ts = .moving ∨ s.chip.sup.ts = .stopping
     ∃ brk exc, exec (.armSample r v) s = .next (s.ends { s.chip with
         trk := s.chip.trk.withReel r { s.chip.trk.reel r with arm := v }
         sup := { sup' with brk := brk, exc := exc } }) ∧
       (s.chip.sup.ts.runsBreak = false → brk = s.chip.sup.brk) ∧
       (s.chip.sup.ts.runsBreak = true → sup'.slackArm = false → brk = none) ∧
       (s.chip.sup.ts.runsBreak = true → sup'.slackArm = true → s.chip.sup.slackArm = false → brk = some 0) ∧
       (s.chip.sup.ts.runsBreak = true → sup'.slackArm = true → s.chip.sup.slackArm = true → brk = s.chip.sup.brk) ∧
       (¬ runs → exc = s.chip.sup.exc) ∧ (runs → ¬ stray sup' → exc = none) ∧
       (runs → stray sup' → ¬ stray s.chip.sup → exc = some 0) ∧
       (runs → stray sup' → stray s.chip.sup → exc = s.chip.sup.exc))

/-! ## Trips, stops and faults (chapters 2 and 3) -/

/-- The ARM_OVER trip (R27, R29): a sample of either arm at or above the over level, under tension, trips the
transport with that arm as its side, or BOTH where the other arm is OVER too.

DRIVE_FAULT (R28, R29, R60): under tension a DRIVE_FAULT trip whose side is that reel, or BOTH when the other input
stands asserted too.

BREAK_TIMER_EXPIRY (R26, R29): the break timer at the break time, with an arm SLACK, trips the transport with
TAPE_BREAK, side SUPPLY or TAKEUP with that arm alone SLACK and BOTH with both; a TAPE_BREAK ends POSITION_VALID. -/
def Obligations.TripsTaken : Prop :=
  (∀ (r : Reel) (v : BitVec 12) (i : Fin 8) (s : State), Tensed s → s.chip.sup.claimPending = false →
     s.chip.sup.threaded = some i → classOf (s.chip.set.prof i.val) v.toNat = .overLevel →
     (s.chip.sup.tense = true ∨ s.chip.sup.ts = .catching) →
     let other := match r with | .supply => s.chip.sup.clsTup | .takeup => s.chip.sup.clsSup
     let side : Side := if other = .overLevel then .both else match r with | .supply => .supply | .takeup => .takeup
     ∃ t, exec (.armSample r v) s = .next t ∧ TrippedBy .armOver side s t) ∧
  (∀ (r : Reel) (s : State), Tensed s → s.chip.sup.claimPending = false →
     (match r with | .supply => s.chip.pins.fltSupply | .takeup => s.chip.pins.fltTup) = false →
     let other := match r with | .supply => s.chip.pins.fltTup | .takeup => s.chip.pins.fltSupply
     let side : Side := if other then .both else match r with | .supply => .supply | .takeup => .takeup
     ∃ t, exec (.driveFault r) s = .next t ∧ TrippedBy .driveFault side s t) ∧
  (∀ (n : Nat) (s : State), s.chip.sup.up = true → s.chip.sup.ts.runsBreak = true → s.chip.sup.claimPending = false →
     s.chip.sup.brk = some n → s.chip.set.gen.breakTime ≤ n → (s.chip.sup.clsSup = .slack ∨ s.chip.sup.clsTup = .slack) →
     let side : Side := if s.chip.sup.clsSup ≠ .slack then .takeup else if s.chip.sup.clsTup = .slack then .both else .supply
     ∃ t, exec .breakTimerExpiry s = .next t ∧ TrippedBy .tapeBreak side s t)

/-- POWER_FAIL (R28, R29, R30): under tension a POWER_LOSS trip; in UNTHREADED and THREADED a FAULT_INPUT event and
nothing else; in TRIPPED a TRIP event with the side plus 4 and nothing else; asserted already, nothing.

The emergency action of a trip (R29, R49, R59): with both brakes released and both drives driven, each reel above the
brake-safe speed is in DYNAMIC with its brake released; each at or below it is braked, and its drive is OFF where the
other reel is braked too and waits in DYNAMIC where it is not. -/
def Obligations.PowerFailTaken : Prop :=
  (∀ s : State,
     (s.chip.pins.powerFail = false → Tensed s → s.chip.sup.claimPending = false →
       ∃ t, exec .powerFail s = .next t ∧ TrippedBy .powerLoss .none s t) ∧
     (s.chip.pins.powerFail = false → s.chip.mode = .running → s.chip.sup.up = true →
       (s.chip.sup.ts = .unthreaded ∨ s.chip.sup.ts = .threaded) →
       exec .powerFail s = .next (s.ends ((({ s.chip with pins := { s.chip.pins with powerFail := true } } : Chip).posting
         [s.chip.event .faultInput 1 0 0] [])))) ∧
     (s.chip.pins.powerFail = false → s.chip.mode = .running → s.chip.sup.up = true → s.chip.sup.ts = .tripped →
       exec .powerFail s = .next (s.ends ((({ s.chip with pins := { s.chip.pins with powerFail := true } } : Chip).posting
         [s.chip.event .trip 4 0 4] [])))) ∧
     (s.chip.pins.powerFail = true → exec .powerFail s = .next (s.ends s.chip))) ∧
  (∀ s : State, s.chip.pins.powerFail = false → Tensed s → s.chip.sup.claimPending = false →
     s.chip.drv.sup.engaged = false → s.chip.drv.tup.engaged = false → s.chip.drv.sup.mode ≠ .off →
     s.chip.drv.tup.mode ≠ .off → s.chip.drv.carry = .none →
     let fastSup := decide (s.chip.set.gen.brakeSafe < s.chip.trk.sup.surfaceSpeed)
     let fastTup := decide (s.chip.set.gen.brakeSafe < s.chip.trk.tup.surfaceSpeed)
     ∃ t, exec .powerFail s = .next t ∧ Braked t.chip.drv.sup fastSup fastTup ∧ Braked t.chip.drv.tup fastTup fastSup)

/-- FLT_CAP (R34, R65): the capstan is OFF at once, the pinch leaves IN and GOING_IN, the stop latch is set, and the
CAPSTAN_FAULT cause is recorded, unless a stop is already under way; a MOVING transport is STOPPING.

FAULT_INPUT_RELEASED (R28, R34, R65): it posts nothing and changes no state but the level of the input. -/
def Obligations.CapstanFaultTaken : Prop :=
  (∀ s : State, s.chip.pins.fltCap = false → s.chip.sup.up = true →
     ∃ t, exec .fltCap s = .next t ∧ t.chip.drv.capRun = false ∧ t.chip.drv.capSpeed = 0 ∧
       (t.chip.drv.pinch = .out ∨ t.chip.drv.pinch = .goingOut) ∧ t.chip.sup.latch = true ∧
       t.chip.pins = { s.chip.pins with fltCap := true } ∧
       t.chip.sup.stop = (if s.chip.sup.ts = .stopping then s.chip.sup.stop else .capstanFault) ∧
       t.chip.sup.ts = (if s.chip.sup.ts = .moving then .stopping else s.chip.sup.ts) ∧
       t.chip.sup.trip = s.chip.sup.trip ∧ t.chip.pln.urgent.queued = 0 ∧ t.chip.pln.main.queued = 0 ∧
       t.chip.trk = s.chip.trk ∧ t.chip.gnt = s.chip.gnt ∧ t.chip.cue = s.chip.cue ∧ t.chip.set = s.chip.set ∧
       t.mem = s.mem) ∧
  (∀ (p : FaultPin) (s : State), exec (.faultInputReleased p) s = .next (s.withChip { s.chip with
     pins := match p with
       | .powerFail => { s.chip.pins with powerFail := false }
       | .fltSupply => { s.chip.pins with fltSupply := false }
       | .fltTup => { s.chip.pins with fltTup := false }
       | .fltCap => { s.chip.pins with fltCap := false } }))

/-- EXCURSION_TIMER_EXPIRY (R36, R86): in HELD and STOPPING an ARM_EXCURSION event with detail REPORT whose value
names the arms, and the timer starts again while an arm is out of band; in MOVING, with a fallback, detail DERATE, and
the head of the fallback list is the active grant in the same step (log 52), GRANT_DERATED following ARM_EXCURSION
(the order of the two blocks' posts: log 18); with an empty fallback list the transport stops on its own: the current
slot returned FAULT_FLUSHED, STOPPING with cause EXCURSION, STOP and STATE_CHANGED after ARM_EXCURSION (R31, R32). -/
def Obligations.ExcursionTaken : Prop :=
  ∀ (n : Nat) (s : State), s.chip.mode = .running → s.chip.sup.up = true → s.chip.sup.exc = some n →
    s.chip.set.gen.excursion ≤ n →
    let arms : Int := (if s.chip.sup.clsSup = .low ∨ s.chip.sup.clsSup = .high then 1 else 0) +
      (if s.chip.sup.clsTup = .low ∨ s.chip.sup.clsTup = .high then 2 else 0)
    let exc' := if arms = 0 then none else some 0
    ((s.chip.sup.ts = .held ∨ s.chip.sup.ts = .stopping) →
      exec .excursionTimerExpiry s = .next (s.ends ((({ s.chip with sup := { s.chip.sup with exc := exc' } } :
        Chip).posting [s.chip.event .armExcursion 2 s.chip.curTag arms] [])))) ∧
    (∀ g rest, s.chip.sup.ts = .moving → s.chip.gnt.fallback = g :: rest →
      ∃ t, exec .excursionTimerExpiry s = .next t ∧ t.chip.gnt.active = some g ∧ t.chip.gnt.fallback = rest ∧
        t.chip.sup.ts = .moving ∧ t.chip.sup.latch = s.chip.sup.latch ∧ t.chip.sup.exc = exc' ∧
        (∃ es, t.chip.evt.posted = s.chip.evt.posted ++
          [s.chip.event .armExcursion 1 s.chip.curTag arms, s.chip.event .grantDerated 1 s.chip.curTag g.position] ++ es) ∧
        t.chip.pln = s.chip.pln ∧ t.chip.trk = s.chip.trk ∧ t.chip.cue = s.chip.cue ∧ t.mem = s.mem) ∧
    (s.chip.sup.ts = .moving → s.chip.gnt.fallback = [] →
      ∃ t, exec .excursionTimerExpiry s = .next t ∧ Halted .excursion s t ∧ t.chip.sup.exc = exc' ∧
        t.chip.eng.ref = s.chip.eng.ref ∧ t.chip.trk = s.chip.trk ∧
        (∃ es, t.chip.evt.posted = s.chip.evt.posted ++ [s.chip.event .armExcursion 1 s.chip.curTag arms] ++ es ++
          [s.chip.event .stop 3 s.chip.curTag 0, s.chip.event .stateChanged 5 0 4]) ∧
        (∀ g, s.chip.eng.cur = some g → ∃ ws, t.chip.pln.list =
          s.chip.pln.list ++ [.ret g.ring g.slot .faultFlushed s.chip.trk.position s.chip.clock] ++ ws))

/-- SETTLE_TIMER_EXPIRY (R40): with both arms IN the transport is HELD; otherwise a SETTLE_TIMEOUT event names the
arms not IN, the transport is SLACKING, and the latch, the fault word and the threaded profile stand.

SLACK_REFERENCE_ZERO (R43): in SLACKING, with the tension reference at 0, both brakes are ENGAGED with the drives in
TORQUE and the off delay starts; with an off delay of 0 the drives are OFF and the transport THREADED at once.

OFF_DELAY_EXPIRY (R43): the off delay over, both drives are OFF with the brakes ENGAGED, and the transport is THREADED
with its profile kept.

A pending request at the end of TENSIONING (R81, R82, R187): the entry into HELD resolves it, with a GRANT_RESOLVED
event after STATE_CHANGED and a GRANT_CHANGED notice: the first choice that passes is the active grant, the later ones
its fallbacks, GRANTED with its position and the outcomes; with none passing no grant, REFUSED with the outcomes. A
failed settle cancels the request, its GRANT_DROPPED after SETTLE_TIMEOUT and before STATE_CHANGED (the order of two
blocks' posts: log 18). The result byte of GRANT_RESOLVED is 9 or 2 as the mailbox's. -/
def Obligations.TensionSequencesEnd : Prop :=
  (∀ (n : Nat) (s : State), s.chip.mode = .running → s.chip.sup.up = true → s.chip.sup.ts = .tensioning →
     s.chip.sup.settle = some n → s.chip.set.gen.settle ≤ n → s.chip.gnt.request = none → s.chip.gnt.active = none →
     let both := s.chip.sup.clsSup = .inBand ∧ s.chip.sup.clsTup = .inBand
     let arms : Int := (if s.chip.sup.clsSup = .inBand then 0 else 1) + (if s.chip.sup.clsTup = .inBand then 0 else 2)
     ∃ t, exec .settleTimerExpiry s = .next t ∧ t.chip.sup.threaded = s.chip.sup.threaded ∧
       t.chip.sup.latch = s.chip.sup.latch ∧ t.chip.sup.trip = s.chip.sup.trip ∧ t.chip.sup.stop = s.chip.sup.stop ∧
       t.chip.sup.settle = none ∧ t.chip.trk = s.chip.trk ∧ t.chip.set = s.chip.set ∧ t.chip.cue = s.chip.cue ∧
       t.mem = s.mem ∧
       (both → t.chip.sup.ts = .held ∧
         t.chip.evt.posted = s.chip.evt.posted ++ [s.chip.event .stateChanged 3 s.chip.curTag 2]) ∧
       (¬ both → t.chip.sup.ts = .slacking ∧ t.chip.evt.posted = s.chip.evt.posted ++
         [s.chip.event .settleTimeout ((s.chip.sup.threaded.map Fin.val).getD 0) 0 arms,
           s.chip.event .stateChanged 6 s.chip.curTag 2])) ∧
  (∀ s : State, s.chip.sup.up = true → s.chip.sup.ts = .slacking → s.chip.sup.off = none → s.chip.drv.carry = .none →
     s.chip.sup.tension.value.1 = 0 → s.chip.gnt.active = none →
     ∃ t, exec .slackReferenceZero s = .next t ∧ t.chip.drv.sup.engaged = true ∧ t.chip.drv.tup.engaged = true ∧
       t.chip.trk = s.chip.trk ∧ t.chip.sup.threaded = s.chip.sup.threaded ∧ t.chip.set = s.chip.set ∧ t.mem = s.mem ∧
       (s.chip.set.gen.offDelay ≠ 0 → t.chip.sup.ts = .slacking ∧
         t.chip.sup.off = some ⟨0, s.chip.set.gen.offDelay⟩ ∧ t.chip.drv.sup.mode = .torque ∧
         t.chip.drv.tup.mode = .torque ∧ t.chip.drv.sup.torque = 0 ∧ t.chip.drv.tup.torque = 0) ∧
       (s.chip.set.gen.offDelay = 0 → t.chip.sup.ts = .threaded ∧ t.chip.drv.sup.mode = .off ∧
         t.chip.drv.tup.mode = .off)) ∧
  (∀ (o : OffDelay) (s : State), s.chip.sup.up = true → s.chip.sup.ts = .slacking → s.chip.sup.off = some o →
     o.limit ≤ o.elapsed → s.chip.gnt.active = none →
     ∃ t, exec .offDelayExpiry s = .next t ∧ t.chip.sup.ts = .threaded ∧ t.chip.sup.off = none ∧
       t.chip.drv.sup.engaged = true ∧ t.chip.drv.tup.engaged = true ∧ t.chip.drv.sup.mode = .off ∧
       t.chip.drv.tup.mode = .off ∧ t.chip.sup.threaded = s.chip.sup.threaded ∧ t.chip.trk = s.chip.trk ∧
       t.chip.set = s.chip.set ∧ t.chip.cue = s.chip.cue ∧ t.mem = s.mem) ∧
  (∀ (n : Nat) (chs : List Choice) (s : State), s.chip.mode = .running → s.chip.sup.up = true →
    s.chip.sup.ts = .tensioning → s.chip.sup.settle = some n → s.chip.set.gen.settle ≤ n →
    s.chip.gnt.request = some chs → s.chip.gnt.active = none → s.chip.gnt.trim = 0 →
    let both := s.chip.sup.clsSup = .inBand ∧ s.chip.sup.clsTup = .inBand
    let arms : Int := (if s.chip.sup.clsSup = .inBand then 0 else 1) + (if s.chip.sup.clsTup = .inBand then 0 else 2)
    let outcomes := (outcomesByte (chs.map (checkChoice s.chip))).toNat
    let entered := s.chip.event .stateChanged 3 s.chip.curTag 2
    let resolved (result position : Nat) := s.chip.event .grantResolved result 0 (outcomes + 256 * position : Nat)
    ∃ t, exec .settleTimerExpiry s = .next t ∧ t.chip.gnt.request = none ∧ t.chip.gnt.trim = 0 ∧
      t.chip.trk = s.chip.trk ∧ t.chip.set = s.chip.set ∧ t.chip.pln = s.chip.pln ∧ t.chip.cue = s.chip.cue ∧
      t.chip.mbx = s.chip.mbx ∧ t.mem = s.mem ∧
      (both → t.chip.sup.ts = .held ∧ t.chip.ntc = (s.chip.ntc.post .stateChanged).post .grantChanged) ∧
      (∀ g rest, both → passedChoices s.chip chs = g :: rest →
        t.chip.gnt.active = some g ∧ t.chip.gnt.fallback = rest ∧
        t.chip.evt.posted = s.chip.evt.posted ++ [entered, resolved 9 g.position]) ∧
      (both → passedChoices s.chip chs = [] →
        t.chip.gnt.active = none ∧ t.chip.evt.posted = s.chip.evt.posted ++ [entered, resolved 2 0]) ∧
      (¬ both → t.chip.sup.ts = .slacking ∧ t.chip.gnt.active = none ∧
        t.chip.evt.posted = s.chip.evt.posted ++
          [s.chip.event .settleTimeout ((s.chip.sup.threaded.map Fin.val).getD 0) 0 arms,
            s.chip.event .grantDropped 2 0 2, s.chip.event .stateChanged 6 s.chip.curTag 2] ∧
        t.chip.ntc = s.chip.ntc.post .stateChanged))

/-! ## Motion (chapters 4, 7 and 8) -/

/-- PINCH_MOVEMENT_END (R63, R64), judged by the stage: a movement that has lasted its time goes from GOING_IN to IN with
the capstan in RUN and a state that admits it, and otherwise to a full GOING_OUT; from GOING_OUT to OUT, where a held
capstan OFF is carried out. -/
def Obligations.PinchMovementEnds : Prop :=
  ∀ s : State, s.chip.sup.up = false → s.chip.eng.moveReq = false → s.chip.drv.pinchTime ≤ s.chip.drv.pinchSpent →
    let d := s.chip.drv
    let ends (x : Drive) := s.ends { s.chip with drv := x }
    (d.pinch = .goingIn → d.capRun = true → s.chip.stageState.admitsPinch = true →
      exec .pinchMovementEnd s = .next (ends { d with pinch := .pinched, pinchSpent := 0, pinchTime := 0 })) ∧
    (d.pinch = .goingIn → (d.capRun = false ∨ s.chip.stageState.admitsPinch = false) →
      exec .pinchMovementEnd s = .next (ends
        { d with pinch := .goingOut, pinchSpent := 0, pinchTime := s.chip.set.gen.pinchTime })) ∧
    (d.pinch = .goingOut → d.capOffHeld = false →
      exec .pinchMovementEnd s = .next (ends { d with pinch := .out, pinchSpent := 0, pinchTime := 0 })) ∧
    (d.pinch = .goingOut → d.capOffHeld = true →
      exec .pinchMovementEnd s = .next (ends { d with
        pinch := .out, pinchSpent := 0, pinchTime := 0, capRun := false, capSpeed := 0, capOffHeld := false }))

/-- PINCH_MOVEMENT_END in the running part, a movement in (R61, R63, R64, R123): where the stage reports IN to a PLAY in
PINCH_IN, a tape speed more than 2 % of the command away from the measured capstan speed is the PINCH_FAULT stop;
otherwise the phase is CAPSTAN with the duration timer started where there is one, and PINCH_OUT at once where a
position end is already reached; a movement that turns out instead is the PINCH_FAULT stop. Another segment is told
nothing.

PINCH_MOVEMENT_END in the running part, a movement out (R45, R54, R61, R115, R125): the pinch is OUT, and a held
capstan OFF is carried out; a stop or a catch that waited for it goes on, with the capstan OFF; a PLAY in PINCH_OUT
completes with the status its end condition gave, and is STARVED at the held speed with nothing behind it; a segment
in RELEASE begins its first phase (here a SPOOL or a WIND that does not complete at once, in RUN); otherwise only the
stage changes.

REFERENCE_SPEED_UPDATE of a PLAY (R119, R122, R123, R124), its target not fallen to 0: in LEAD_IN the reference speed
moves toward the play target, and at the target the capstan is ordered to RUN at it and the pinch in, which is
PINCH_IN, or the PINCH_FAULT stop where FLT_CAP stands with the capstan OFF; in PINCH_IN and CAPSTAN each change of
the reference speed is sent to the capstan; in PINCH_OUT the reference speed is held. -/
def Obligations.PlayPhases : Prop :=
  (∀ s : State, s.chip.sup.up = true → s.chip.sup.ts = .moving → s.chip.eng.moveReq = false →
     s.chip.drv.pinch = .goingIn → s.chip.drv.pinchTime ≤ s.chip.drv.pinchSpent →
     let d := s.chip.drv
     let inn : Drive := { d with pinch := .pinched, pinchSpent := 0, pinchTime := 0 }
     let full := s.chip.set.gen.pinchTime
     (∀ g, s.chip.eng.cur = some g → g.phase = .pinchIn → d.capRun = true →
       let away := 2 * d.capSpeed.natAbs < 100 * (s.chip.trk.tapeSpeed - d.measuredCapstan).natAbs
       let there := g.record.positionEnd = true ∧ reached s.chip.trk.position g.record.target g.dir = true
       let ends (g' : Seg) (x : Drive) := s.ends { s.chip with drv := x, eng := { s.chip.eng with cur := some g' } }
       (away → ∃ t, exec .pinchMovementEnd s = .next t ∧ Halted .pinchFault s t ∧ t.chip.eng.haltHold = true ∧
         t.chip.drv.pinch = .goingOut ∧ t.chip.drv.pinchTime = full) ∧
       (¬ away → ¬ there → exec .pinchMovementEnd s = .next (ends { g with
         phase := .capstan
         timer := if g.record.positionEnd = false ∧ g.record.duration ≠ 0 then some 0 else g.timer } inn)) ∧
       (¬ away → there → exec .pinchMovementEnd s = .next (ends
         { g with phase := .pinchOut, endStatus := some g.doneStatus }
         { d with pinch := .goingOut, pinchSpent := 0, pinchTime := full, capOffHeld := true }))) ∧
     (∀ g, s.chip.eng.cur = some g → g.phase = .pinchIn → d.capRun = false →
       ∃ t, exec .pinchMovementEnd s = .next t ∧ Halted .pinchFault s t ∧ t.chip.drv.pinch = .goingOut) ∧
     ((∀ g, s.chip.eng.cur = some g → g.phase ≠ .pinchIn) →
       exec .pinchMovementEnd s = .next (s.ends { s.chip with drv :=
         if d.capRun then inn else { d with pinch := .goingOut, pinchSpent := 0, pinchTime := full } }))) ∧
  (∀ s : State, s.chip.sup.up = true → s.chip.eng.moveReq = false → s.chip.drv.pinch = .goingOut →
     s.chip.drv.pinchTime ≤ s.chip.drv.pinchSpent →
     let d := s.chip.drv
     let out : Drive := if d.capOffHeld then
         { d with pinch := .out, pinchSpent := 0, pinchTime := 0, capRun := false, capSpeed := 0, capOffHeld := false }
       else { d with pinch := .out, pinchSpent := 0, pinchTime := 0 }
     let off : Drive :=
       { d with pinch := .out, pinchSpent := 0, pinchTime := 0, capRun := false, capSpeed := 0, capOffHeld := false }
     let hold := s.chip.eng.haltHold = true ∧ s.chip.sup.ts = .stopping
     (hold → exec .pinchMovementEnd s = .next (s.ends { s.chip with
       drv := off, eng := { s.chip.eng with haltHold := false } })) ∧
     (¬ hold → s.chip.sup.catchHold = true → exec .pinchMovementEnd s = .next (s.ends { s.chip with
       drv := off, sup := { s.chip.sup with catchHold := false } })) ∧
     (∀ g st, ¬ hold → s.chip.sup.catchHold = false → s.chip.eng.cur = some g → g.phase = .pinchOut →
       g.endStatus = some st → RunsOut g s.chip →
       ∃ t, exec .pinchMovementEnd s = .next t ∧ RanOut g st { s.chip with drv := out } t ∧ t.mem = s.mem) ∧
     (∀ g, ¬ hold → s.chip.sup.catchHold = false → s.chip.eng.cur = some g → g.phase = .release → g.loc = none →
       (g.kind = .wind ∨ (g.kind = .spool ∧ g.record.positionEnd = false ∧ g.record.duration = 0)) →
       s.chip.eng.ref ≠ 0 → s.chip.sup.ts = .moving →
       exec .pinchMovementEnd s = .next (s.ends { s.chip with
         drv := out, eng := { s.chip.eng with cur := some { g with phase := .run } } })) ∧
     (¬ hold → s.chip.sup.catchHold = false →
       (∀ g, s.chip.eng.cur = some g → g.phase ≠ .pinchOut ∧ g.phase ≠ .release) →
       exec .pinchMovementEnd s = .next (s.ends { s.chip with drv := out }))) ∧
  (∀ (g : Seg) (s : State), s.chip.mode ≠ .bypass → s.chip.sup.up = true → s.chip.sup.ts = .moving →
     s.chip.eng.est = .running → s.chip.eng.moveReq = false → s.chip.eng.cur = some g → g.kind = .play → g.loc = none →
     (g.phase = .leadIn ∨ g.phase = .pinchIn ∨ g.phase = .capstan ∨ g.phase = .pinchOut) → targetSpeed s.chip ≠ 0 →
     let e' := s.chip.eng.move (targetSpeed s.chip) (effectiveAccel s.chip)
     let there := e'.ref = targetSpeed s.chip
     ∃ t, exec .referenceSpeedUpdate s = .next t ∧ t.chip.gnt = s.chip.gnt ∧ t.chip.trk = s.chip.trk ∧ t.mem = s.mem ∧
       (g.phase = .leadIn → s.chip.drv.pinch = .out → ¬ there → t.chip.eng.ref = e'.ref ∧ t.chip.sup.ts = .moving ∧
         (∃ g', t.chip.eng.cur = some g' ∧ g'.phase = .leadIn) ∧ t.chip.drv.capRun = s.chip.drv.capRun) ∧
       (g.phase = .leadIn → s.chip.drv.pinch = .out → there → s.chip.pins.fltCap = false →
         t.chip.eng.ref = targetSpeed s.chip ∧ t.chip.sup.ts = .moving ∧
         (∃ g', t.chip.eng.cur = some g' ∧ g'.phase = .pinchIn ∧ g'.record = g.record) ∧ t.chip.drv.capRun = true ∧
         t.chip.drv.capSpeed = targetSpeed s.chip ∧ t.chip.drv.pinch = .goingIn ∧
         t.chip.drv.pinchTime = s.chip.set.gen.pinchTime ∧ t.chip.drv.pinchSpent = 0) ∧
       (g.phase = .leadIn → s.chip.drv.pinch = .out → there → s.chip.pins.fltCap = true → s.chip.drv.capRun = false →
         Halted .pinchFault s t ∧ t.chip.drv.capRun = false ∧ t.chip.drv.pinch = .out) ∧
       ((g.phase = .pinchIn ∨ g.phase = .capstan) → t.chip.eng.ref = e'.ref ∧ t.chip.sup.ts = .moving ∧
         (∃ g', t.chip.eng.cur = some g' ∧ g'.phase = g.phase) ∧
         (e'.ref ≠ s.chip.eng.ref → s.chip.pins.fltCap = false →
           t.chip.drv.capRun = true ∧ t.chip.drv.capSpeed = e'.ref)) ∧
       (g.phase = .pinchOut → t.chip.eng.ref = s.chip.eng.ref ∧ t.chip.sup.ts = .moving ∧
         (∃ g', t.chip.eng.cur = some g' ∧ g'.phase = .pinchOut) ∧ t.chip.drv.capSpeed = s.chip.drv.capSpeed))

/-- One update of the reference speed (R119; the fraction at the target: log 16): it ends at the target where it would
pass it, and otherwise moves by a hundredth of the acceleration, with the fraction carried.

REFERENCE_SPEED_UPDATE in the deceleration of a stop (R46; it is the command that carries the transport clock: log 4):
the reference speed moves toward 0 at the active grant's maximum acceleration, or the threaded profile's with none,
and ends there exactly.

The controlled stop ends (R47): at the SPEED_WINDOW_TICK (the millisecond of the stop's end: log 4) that finds the
reference speed 0 and both reels stopped, with nothing queued, the transport goes from STOPPING to HELD and the engine
to IDLE; the latch, the fault word and the grant stand. -/
def Obligations.ReferenceSpeedMoves : Prop :=
  (∀ (e : Engine) (target : Int) (a : Nat),
     let e' := e.move target a
     let q := (a + e.frac) / 100
     ((target - e.ref).natAbs ≤ q → e'.ref = target) ∧
     (q < (target - e.ref).natAbs → e.ref < target → e'.ref = e.ref + q ∧ e'.frac = (a + e.frac) % 100) ∧
     (q < (target - e.ref).natAbs → target ≤ e.ref → e'.ref = e.ref - q ∧ e'.frac = (a + e.frac) % 100) ∧
     e'.cur = e.cur ∧ e'.est = e.est ∧ e'.held = e.held ∧ e'.starve = e.starve) ∧
  (∀ s : State, s.chip.mode ≠ .bypass → s.chip.sup.up = true → s.chip.sup.ts = .stopping → s.chip.eng.haltHold = false →
     s.chip.eng.moveReq = false → s.chip.eng.cur = none →
     let a := match s.chip.gnt.active with
       | some g => g.choice.accel
       | none => s.chip.profile.maxAccel
     ∃ t, exec .referenceSpeedUpdate s = .next t ∧ t.chip.eng.ref = (s.chip.eng.move 0 a).ref ∧
       t.chip.eng.frac = (s.chip.eng.move 0 a).frac ∧ t.chip.sup.ts = .stopping ∧ t.chip.clock = s.chip.clock + 1 ∧
       t.chip.gnt = s.chip.gnt ∧ t.chip.pln = s.chip.pln ∧ t.chip.trk = s.chip.trk ∧ t.mem = s.mem) ∧
  (∀ s : State, s.chip.sup.up = true → s.chip.sup.ts = .stopping → s.chip.eng.ref = 0 → s.chip.eng.haltHold = false →
     s.chip.eng.moveReq = false → s.chip.eng.cur = none → s.chip.drv.carry = .none → s.chip.gnt.request = none →
     s.chip.pln.urgent.queued = 0 → s.chip.pln.main.queued = 0 →
     s.chip.trk.tick.reelsStopped = true →
     ∃ t, exec .speedWindowTick s = .next t ∧ t.chip.sup.ts = .held ∧ t.chip.eng.est = .idle ∧
       t.chip.eng.cur = none ∧ t.chip.sup.latch = s.chip.sup.latch ∧ t.chip.sup.stop = s.chip.sup.stop ∧
       t.chip.sup.trip = s.chip.sup.trip ∧ t.chip.gnt = s.chip.gnt ∧ t.chip.pln = s.chip.pln ∧ t.chip.cue = s.chip.cue ∧
       t.chip.set = s.chip.set ∧ t.chip.mbx = s.chip.mbx ∧ t.mem = s.mem)

/-- REFERENCE_SPEED_UPDATE with no segment current and the transport neither MOVING, STOPPING nor CATCHING: the transport
clock advances by a millisecond, with the running timers and the tension reference; the reference speed stands (R119,
R24, R26, R36, R184).

DURATION_TIMER_EXPIRY (R126, R132, R135): a DWELL in HOLD whose duration has run, with nothing queued and the
reference speed 0, is returned DONE, or CLIPPED where its mark is set, and the transport goes to HELD with the engine
IDLE.

STARVE_TIMER_EXPIRY (R31, R134): in STARVED, with the starve limit reached, the STARVED cause is taken: the stop
latch, the cause in the fault word, both rings empty, STOPPING with the engine HALTING at the speed it held. -/
def Obligations.ClockAndTimersTaken : Prop :=
  (∀ s : State, s.chip.mode ≠ .bypass → s.chip.eng.moveReq = false → s.chip.eng.cur = none →
     s.chip.sup.ts ≠ .moving → s.chip.sup.ts ≠ .stopping → s.chip.sup.ts ≠ .catching →
     exec .referenceSpeedUpdate s = .next (s.ends { s.chip with
       clock := s.chip.clock + 1
       sup := { s.chip.sup with
         brk := s.chip.sup.brk.map (· + 1)
         exc := s.chip.sup.exc.map (· + 1)
         settle := s.chip.sup.settle.map (· + 1)
         off := s.chip.sup.off.map fun o => { o with elapsed := o.elapsed + 1 }
         tension := if s.chip.sup.claimPending then s.chip.sup.tension else s.chip.sup.tension.tick }
       eng := { s.chip.eng with starve := s.chip.eng.starve.map (· + 1) }
       mon := if s.chip.mon.st = .disarmed then s.chip.mon else { s.chip.mon with elapsed := s.chip.mon.elapsed + 1 } })) ∧
  (∀ (g : Seg) (n : Nat) (s : State), s.chip.sup.up = true → s.chip.sup.ts = .moving → s.chip.eng.cur = some g →
     s.chip.eng.est = .running → s.chip.eng.moveReq = false → g.kind = .dwell → g.phase = .hold → g.timer = some n →
     g.record.duration ≠ 0 → g.record.duration ≤ n → s.chip.eng.ref = 0 → s.chip.pln.urgent.queued = 0 →
     s.chip.pln.main.queued = 0 → s.chip.gnt.request = none →
     ∃ t, exec .durationTimerExpiry s = .next t ∧ t.chip.sup.ts = .held ∧ t.chip.eng.cur = none ∧
       t.chip.eng.est = .idle ∧ t.chip.eng.ref = 0 ∧
       t.chip.pln.list = s.chip.pln.list ++
         [.ret g.ring g.slot (if g.clipped then .clipped else .done) s.chip.trk.position s.chip.clock] ∧
       t.chip.gnt = s.chip.gnt ∧ t.chip.trk = s.chip.trk ∧ t.chip.cue = s.chip.cue ∧ t.chip.set = s.chip.set ∧
       t.chip.sup.latch = s.chip.sup.latch ∧ t.mem = s.mem) ∧
  (∀ (n : Nat) (s : State), s.chip.sup.up = true → s.chip.sup.ts = .moving → s.chip.eng.est = .starved →
     s.chip.eng.cur = none → s.chip.eng.starve = some n → s.chip.set.gen.starve ≤ n →
     ∃ t, exec .starveTimerExpiry s = .next t ∧ t.chip.sup.ts = .stopping ∧ t.chip.sup.latch = true ∧
       t.chip.sup.stop = .starved ∧ t.chip.sup.trip = s.chip.sup.trip ∧ t.chip.eng.est = .halting ∧
       t.chip.eng.ref = s.chip.eng.ref ∧ t.chip.pln.urgent.queued = 0 ∧ t.chip.pln.main.queued = 0 ∧
       t.chip.gnt = s.chip.gnt ∧ t.chip.trk = s.chip.trk ∧ t.chip.cue = s.chip.cue ∧ t.chip.set = s.chip.set ∧
       t.mem = s.mem)

/-- A take from rest (R21, R92, R99, R104, R112, R114): HAND_OFF_SCREEN accepts a SPOOL or a WIND in HELD with the engine
IDLE, both rings empty, the pinch OUT, no end flag and the reference speed 0. The slot's view is CURRENT, the intake
and take index both stand past it, and the CURRENT mark is on the slot write list; the segment is in RUN with the
direction of its speed; the move request is made; the held write is released, or granted the memory port at once, with
its owner byte made PART, QUEUED. -/
def Obligations.TakeFromHeld : Prop :=
  ∀ (h : HandFetch) (p : HostPort) (k : Kind) (s : State), s.chip.sup.ts = .held → s.chip.eng.est = .idle →
    s.chip.eng.cur = none → s.chip.eng.ref = 0 → s.chip.trk.endFlag = .none → s.chip.drv.pinch = .out →
    s.chip.pln.fetch = some h → h.todo = [] → s.chip.bus.host = some p →
    screen s.chip h.record h.aborted = none → h.ring = .main → h.record.kind? = some k →
    (k = .wind ∨ (k = .spool ∧ h.record.positionEnd = false)) → h.record.speed ≠ 0 →
    s.chip.pln.urgent.queued = 0 → s.chip.pln.main.queued = 0 →
    s.chip.pln.main.take = s.chip.pln.main.intake → s.chip.pln.main.intake < s.chip.pln.main.slots.length →
    (∀ d, dirOf h.record.speed = some d → speedLimit s.chip d ≠ 0) →
    let data := withByte0 h.data 0x81
    ∃ t g, exec .handOffScreen s = .next t ∧ t.chip.eng.cur = some g ∧ g.ring = .main ∧
      g.slot = s.chip.pln.main.intake ∧ g.record = h.record ∧ g.kind = k ∧ g.phase = .run ∧
      g.dir = (if 0 < h.record.speed then some .forward else some .reverse) ∧ t.chip.eng.est = .running ∧
      t.chip.eng.moveReq = true ∧ t.chip.eng.ref = 0 ∧ t.chip.sup.ts = .held ∧
      (t.chip.pln.main.slot s.chip.pln.main.intake).view = .current ∧
      (t.chip.pln.main.slot s.chip.pln.main.intake).record = some h.record ∧
      t.chip.pln.main.intake = (s.chip.pln.main.intake + 1) % s.chip.pln.main.slots.length ∧
      t.chip.pln.main.take = t.chip.pln.main.intake ∧ t.chip.pln.main.queued = 0 ∧ t.chip.pln.fetch = none ∧
      t.chip.pln.list = s.chip.pln.list ++ [.mark .main s.chip.pln.main.intake] ∧
      (s.chip.bus.port ≠ none → t.chip.bus = { s.chip.bus with host := some { p with phase := .ready data (h.be ||| 1) } }) ∧
      (s.chip.bus.port = none → mailNext? s.chip = none → sweepNext? s.chip = none →
        (s.chip.bus.passOver < 6 ∨ s.chip.bus.queue = []) →
        t.chip.bus.port = some (.host p.cyc.addr.toNat p.cyc.write data (h.be ||| 1) false) ∧
        t.chip.bus.host = some { p with phase := .inPort } ∧ t.chip.bus.queue = s.chip.bus.queue) ∧
      t.chip.trk = s.chip.trk ∧ t.chip.gnt = s.chip.gnt ∧ t.mem = s.mem

/-- HAND_OFF_SCREEN accepted in MOVING, with both rings' queued slots none behind it (R92, R104, R107, R113 to R117,
R129, R135). A slot accepted into the urgent ring while a main slot is current preempts it (R115): the preempted slot
is returned SUPERSEDED, or, in PINCH_OUT, with the status its end gave it. A slot accepted behind an open segment of
its own ring ends it (R129): DONE, or CLIPPED where its mark is set. Either way the new slot is taken at once (R114):
its view is CURRENT, it stands in its first phase, or in RELEASE where the pinch is not OUT, with the reference speed
carried on; the return, then the CURRENT mark are on the slot write list, and after them, where an urgent record
carries FLUSH, the returns FLUSHED of the main ring's queued slots (R116). The capstan is ordered OFF and the pinch
out only where a PLAY leaves LEAD_IN, PINCH_IN or CAPSTAN by the preemption, or an open PLAY ends, which with its
pinch OUT it does at once (log 23).

The record goes on: its take does not complete it (GoesOn). An open PLAY with the pinch not OUT enters PINCH_OUT
instead, to be returned at its end, and the accepted slot waits QUEUED; and with neither a preemption nor an open end
the accepted slot waits QUEUED and nothing else moves (R117). -/
def Obligations.TakesInMotion : Prop :=
  (∀ (h : HandFetch) (p : HostPort) (g : Seg) (k : Kind) (s : State), AcceptsInMotion h p g s → GoesOn h.record k s.chip →
    let r := s.chip.pln.ring h.ring
    s.chip.pln.urgent.queued = 0 → r.queued = 0 → r.take = r.intake → r.intake < r.slots.length → (g.ring = h.ring → g.slot ≠ r.intake) →
    g.slot < (s.chip.pln.ring g.ring).slots.length →
    let preempts := h.ring = .urgent ∧ g.ring = .main
    let opens := h.ring = g.ring ∧ isOpen g.kind g.record = true ∧
      (g.kind = .play → g.phase ≠ .pinchOut ∧ s.chip.drv.pinch = .out)
    let offs := preempts ∧ (g.phase = .leadIn ∨ g.phase = .pinchIn ∨ g.phase = .capstan) ∨ opens ∧ g.kind = .play
    let st := if opens then g.doneStatus else if g.phase = .pinchOut then g.endStatus.getD .superseded else .superseded
    let flushes := h.ring = .urgent ∧ h.record.flush = true
    let d := s.chip.drv
    preempts ∨ opens →
    ∃ t, exec .handOffScreen s = .next t ∧ TakenInMotion h.ring r.intake h.record k s t ∧
      (t.chip.pln.ring h.ring).queued = 0 ∧ ((t.chip.pln.ring g.ring).slot g.slot).view = .host ∧
      t.chip.pln.list = s.chip.pln.list ++ [.ret g.ring g.slot st s.chip.trk.position s.chip.clock, .mark h.ring r.intake] ++
        (if flushes then s.chip.mainReturns .flushed else []) ∧
      t.chip.evt.posted = s.chip.evt.posted ++ g.reported st s.chip ∧
      (flushes → t.chip.pln.main.queued = 0 ∧ t.chip.pln.main.take = s.chip.pln.main.intake ∧
        t.chip.pln.main.intake = s.chip.pln.main.intake) ∧
      (h.ring = .urgent → ¬ flushes → t.chip.pln.main.queued = s.chip.pln.main.queued ∧
        t.chip.pln.main.take = s.chip.pln.main.take ∧ t.chip.pln.main.intake = s.chip.pln.main.intake) ∧
      (¬ offs → t.chip.drv.capRun = d.capRun ∧ t.chip.drv.capSpeed = d.capSpeed ∧ t.chip.drv.pinch = d.pinch ∧
        t.chip.drv.pinchTime = d.pinchTime ∧ t.chip.drv.pinchSpent = d.pinchSpent ∧ t.chip.drv.capOffHeld = d.capOffHeld) ∧
      (offs → (d.pinch = .out ∨ d.pinch = .goingOut) → t.chip.drv.capRun = false ∧ t.chip.drv.pinch = d.pinch) ∧
      (offs → (d.pinch = .goingIn ∨ d.pinch = .pinched) → t.chip.drv.capRun = d.capRun ∧
        t.chip.drv.capSpeed = d.capSpeed ∧ t.chip.drv.capOffHeld = true ∧ t.chip.drv.pinch = .goingOut ∧
        t.chip.drv.pinchTime = (if d.pinch = .goingIn then d.pinchSpent else s.chip.set.gen.pinchTime))) ∧
  ∀ (h : HandFetch) (p : HostPort) (g : Seg) (s : State), AcceptsInMotion h p g s →
    let c := s.chip.accepted h p
    let d := s.chip.drv
    (h.ring = g.ring → isOpen g.kind g.record = true → g.kind = .play → g.phase ≠ .pinchOut → d.pinch ≠ .out →
      exec .handOffScreen s = .next (s.ends { c with
        eng := { s.chip.eng with cur := some { g with phase := .pinchOut, endStatus := some g.doneStatus } }
        drv := if d.pinch = .goingOut then { d with capRun := false, capSpeed := 0, capOffHeld := false }
          else { d with
            pinch := .goingOut, pinchSpent := 0, capOffHeld := true
            pinchTime := if d.pinch = .goingIn then d.pinchSpent else s.chip.set.gen.pinchTime } })) ∧
    (¬ (h.ring = .urgent ∧ g.ring = .main) →
      ¬ (h.ring = g.ring ∧ isOpen g.kind g.record = true ∧ (g.kind = .play → g.phase ≠ .pinchOut)) →
      exec .handOffScreen s = .next (s.ends c))

/-- A take toward a flagged end (R114, R130): HAND_OFF_SCREEN accepts from HELD, with nothing queued and the reference
speed 0, a SPOOL, PLAY, WIND or LOCATE whose direction is that of the flagged end: the take completes it at once,
TAPE_END, or DONE for a WIND; its mark and then its return are on the slot write list, its view is HOST, and the
report follows where its record asks for one; the engine is IDLE, the transport still HELD with the move request
standing (R21; log 17).

DURATION_TIMER_EXPIRY (R113, R132, R133, R135): a SPOOL in RUN with no position end, or a DWELL in HOLD, whose
duration is over completes DONE, or CLIPPED where its mark is set, and the oldest queued slot, the urgent ring's
first, is taken at once with the reference speed carried on, where its take does not complete it and it is no open
segment with another queued behind it. With nothing queued, the reference speed not 0 and END_OF_RUN in the record,
the transport stops with cause END_OF_RUN (R133, R31). -/
def Obligations.TakesAtCompletion : Prop :=
  (∀ (h : HandFetch) (p : HostPort) (k : Kind) (d : Dir) (s : State), s.chip.mode = .running → s.chip.sup.ts = .held →
    s.chip.eng.est = .idle → s.chip.eng.cur = none → s.chip.eng.ref = 0 → s.chip.pln.fetch = some h → h.todo = [] →
    s.chip.bus.host = some p → screen s.chip h.record h.aborted = none → h.record.kind? = some k →
    (k = .spool ∨ k = .play ∨ k = .wind) ∧ dirOf h.record.speed = some d ∨
      k = .locate ∧ (∃ l, latchLocate s.chip h.record = .inl l ∧ dirOf (l.target - s.chip.trk.position) = some d) →
    s.chip.trk.endFlag = (if d = .forward then .forwardEnd else .reverseEnd) →
    s.chip.pln.urgent.queued = 0 → s.chip.pln.main.queued = 0 →
    let r := s.chip.pln.ring h.ring
    r.take = r.intake → r.intake < r.slots.length →
    let st := if k = .wind then Status.done else .tapeEnd
    ∃ t, exec .handOffScreen s = .next t ∧ t.chip.eng.cur = none ∧ t.chip.eng.est = .idle ∧ t.chip.eng.ref = 0 ∧
      t.chip.eng.moveReq = true ∧ t.chip.eng.finishReq = true ∧ t.chip.sup.ts = .held ∧
      t.chip.pln.list = s.chip.pln.list ++
        [.mark h.ring r.intake, .ret h.ring r.intake st s.chip.trk.position s.chip.clock] ∧
      ((t.chip.pln.ring h.ring).slot r.intake).view = .host ∧ (t.chip.pln.ring h.ring).queued = 0 ∧
      (t.chip.pln.ring h.ring).intake = (r.intake + 1) % r.slots.length ∧
      t.chip.evt.posted = s.chip.evt.posted ++ (if h.record.report then
        [s.chip.event .segmentReported st.code h.record.tag (slotOffset h.ring r.intake : Nat)] else []) ∧
      t.chip.trk = s.chip.trk ∧ t.chip.gnt = s.chip.gnt ∧ t.mem = s.mem) ∧
  (∀ (g : Seg) (n : Nat) (r : Record) (k : Kind) (id : RingId) (s : State), s.chip.mode = .running → s.chip.sup.ts = .moving →
    s.chip.eng.est = .running → s.chip.eng.cur = some g → g.timer = some n → g.record.duration ≠ 0 → g.record.duration ≤ n →
    (g.kind = .spool ∧ g.phase = .run ∧ g.record.positionEnd = false ∨ g.kind = .dwell ∧ g.phase = .hold) →
    (id = if s.chip.pln.urgent.queued ≠ 0 then .urgent else .main) →
    let q := s.chip.pln.ring id
    q.queued ≠ 0 → q.take < q.slots.length → (q.slot q.take).record = some r → ¬ (g.ring = id ∧ g.slot = q.take) →
    GoesOn r k s.chip → (isOpen k r = true → q.queued = 1) →
    ∃ t, exec .durationTimerExpiry s = .next t ∧ TakenInMotion id q.take r k s t ∧
      (t.chip.pln.ring id).queued = q.queued - 1 ∧ (t.chip.pln.ring id).intake = q.intake ∧
      t.chip.pln.list = s.chip.pln.list ++ [.ret g.ring g.slot g.doneStatus s.chip.trk.position s.chip.clock, .mark id q.take] ++
        (if id = .urgent ∧ r.flush = true then s.chip.mainReturns .flushed else []) ∧
      t.chip.evt.posted = s.chip.evt.posted ++ g.reported g.doneStatus s.chip ∧ t.chip.drv.pinch = s.chip.drv.pinch) ∧
  ∀ (g : Seg) (n : Nat) (s : State), s.chip.mode = .running → s.chip.sup.ts = .moving →
    s.chip.eng.est = .running → s.chip.eng.cur = some g → g.timer = some n → g.record.duration ≠ 0 → g.record.duration ≤ n →
    g.kind = .spool → g.phase = .run → g.record.positionEnd = false →
    s.chip.pln.urgent.queued = 0 → s.chip.pln.main.queued = 0 → s.chip.eng.ref ≠ 0 → g.record.endOfRun = true →
    ∃ t, exec .durationTimerExpiry s = .next t ∧ t.chip.sup.ts = .stopping ∧ t.chip.sup.stop = .endOfRun ∧
      t.chip.sup.latch = s.chip.sup.latch ∧ t.chip.sup.trip = s.chip.sup.trip ∧ t.chip.eng.est = .halting ∧
      t.chip.eng.cur = none ∧ t.chip.eng.ref = s.chip.eng.ref ∧
      t.chip.pln.list = s.chip.pln.list ++ [.ret g.ring g.slot g.doneStatus s.chip.trk.position s.chip.clock] ∧
      t.chip.evt.posted = s.chip.evt.posted ++ g.reported g.doneStatus s.chip ++
        [s.chip.event .stop 2 0 0, s.chip.event .stateChanged 5 0 4] ∧
      t.chip.trk = s.chip.trk ∧ t.chip.gnt = s.chip.gnt ∧ t.chip.set = s.chip.set ∧ t.mem = s.mem

/-- The target speed (R87, R118, R124), in every phase: its magnitude never exceeds the active grant's maximum speed, nor,
where the radius of the reel that pays tape out is known and within the near margin of the hub, the near speed; it is
0 with no grant, with no segment current outside STARVED, in RUNOUT and BRAKE, and, past PINCH_OUT's held speed (log
22), for a DWELL and a STOP. The play target of VARI is the record's play speed times (10,000 + trim) over 10,000
toward zero, and of another code its nominal speed, in the direction of the segment. -/
def Obligations.TargetWithinGrant : Prop :=
  (∀ c : Chip,
    let p := match c.gnt.threaded with
      | some i => c.set.prof i.val
      | none => Profile.default
    let near (r : Nat) := r ≠ 0 ∧ r ≤ p.hub + p.nearMargin
    (c.gnt.active = none → targetSpeed c = 0) ∧
    (∀ a, c.gnt.active = some a → (targetSpeed c).natAbs ≤ a.choice.maxSpeed ∧
      (0 < targetSpeed c → near c.trk.sup.radius → targetSpeed c ≤ p.nearSpeed) ∧
      (targetSpeed c < 0 → near c.trk.tup.radius → -targetSpeed c ≤ p.nearSpeed)) ∧
    (c.eng.cur = none → c.eng.est ≠ .starved → targetSpeed c = 0) ∧
    ∀ g, c.eng.cur = some g →
      (g.phase = .runout ∨ g.phase = .brake → targetSpeed c = 0) ∧
      (g.kind = .dwell ∨ g.kind = .stop → g.phase ≠ .pinchOut → g.phase ≠ .creep → targetSpeed c = 0)) ∧
  ∀ (c : Chip) (g : Seg) (d : Dir), g.dir = some d →
    let way (v : Int) : Int := match d with | .forward => v | .reverse => -v
    (g.record.playCode? = some .low → playTarget c g = way 1905) ∧
    (g.record.playCode? = some .mid → playTarget c g = way 3810) ∧
    (g.record.playCode? = some .high → playTarget c g = way 7620) ∧
    (g.record.playCode? = some .vari →
      playTarget c g = way (((g.record.speed.natAbs : Int) * (10000 + c.gnt.trim)).tdiv 10000))

/-- The judgement of a LOCATE in BRAKE at rest (R146, R147), at the SPEED_WINDOW_TICK whose own tape speed is 0 with
the reference speed 0 (the millisecond of R146: log 4), and at the REFERENCE_SPEED_UPDATE that brings or finds the
reference speed at 0 with the tape speed 0: within tolerance it completes DONE, or CLIPPED where its mark is set
(R121), which that update may set; outside it on the third approach MISSED; on an earlier one a LOCATE_RETRY event
carries the number of the approach about to begin and the signed error, and the retry is in CREEP toward the target
with the approach number risen by one, or, where the target lies beyond a flagged end, it completes TAPE_END after
that event (log 25). A completion with nothing queued leaves the engine IDLE and the transport HELD, the slot HOST and
returned (R132, R135). -/
def Obligations.LocateRetries : Prop :=
  (∀ (g : Seg) (l : Loc) (s : State), s.chip.mode = .running → s.chip.sup.up = true → s.chip.sup.ts = .moving →
    s.chip.eng.est = .running → s.chip.eng.cur = some g → g.loc = some l → g.phase = .brake →
    s.chip.trk.tick.tapeSpeed = 0 → s.chip.eng.ref = 0 → s.chip.drv.carry ≠ .expired →
    s.chip.pln.urgent.queued = 0 → s.chip.pln.main.queued = 0 → s.chip.gnt.request = none →
    ∃ t, exec .speedWindowTick s = .next t ∧ JudgedAtRest g l { s.chip with
      trk := s.chip.trk.tick
      drv := { s.chip.drv with
         capWin := (0 :: s.chip.drv.capWin).take 20
         pinchSpent := if s.chip.drv.pinch = .goingIn ∨ s.chip.drv.pinch = .goingOut then s.chip.drv.pinchSpent + 1
           else s.chip.drv.pinchSpent
         carryTimer := s.chip.drv.carryTimer.map (· + 1) } } s t) ∧
  ∀ (g : Seg) (l : Loc) (s : State), s.chip.mode = .running → s.chip.sup.up = true → s.chip.sup.ts = .moving →
    s.chip.eng.est = .running → s.chip.eng.cur = some g → g.loc = some l → g.phase = .brake →
    s.chip.trk.tapeSpeed = 0 → (s.chip.eng.move 0 (effectiveAccel s.chip)).ref = 0 →
    s.chip.pln.urgent.queued = 0 → s.chip.pln.main.queued = 0 → s.chip.gnt.request = none →
    let g' : Seg := { g with
      timer := g.timer.map (· + 1), clipped := g.clipped || decide (effectiveAccel s.chip < g.record.accel) }
    ∃ t p, exec .referenceSpeedUpdate s = .next t ∧ JudgedAtRest g' l { s.chip with
      clock := s.chip.clock + 1
      sup := s.chip.sup.tick
      mon := s.chip.mon.tick
      drv := { s.chip.drv with lifters := p }
      eng := { s.chip.eng with cur := some g', ref := 0, frac := 0, starve := s.chip.eng.starve.map (· + 1) } } s t

/-- The latch of a LOCATE at its take (R142, R143): MISSED with POSITION_VALID false; with USE_CUE, NO_CUE for an
absent entry and MISSED for a target outside the counter's range; otherwise the target, the tolerance, the approach
speed and the approach number 1, with the cue's offset, tolerance and approach limit where USE_CUE asks for them.

The take of a LOCATE from rest (R112, R142, R144): HAND_OFF_SCREEN accepts it in HELD with the engine IDLE, both rings
empty, the pinch OUT, no end flag, the reference speed 0 and its target limited to no less than 1: with its target
outside its tolerance it is current in APPROACH number 1 with the latch and the direction of the latched target;
within it, in BRAKE.

REFERENCE_SPEED_UPDATE of a LOCATE (R119, R143, R144, R145), where the reference speed after it or the tape speed is
not 0: the reference speed moves toward the approach speed in APPROACH, the creep speed in CREEP and 0 in BRAKE, the
first two signed by the direction and limited; where it changed, the phase is judged: BRAKE within tolerance, CREEP
from APPROACH where the speed points at the target and the remaining distance is at most the braking distance plus the
creep distance; in BRAKE it stays BRAKE. -/
def Obligations.LocateApproach : Prop :=
  (∀ (c : Chip) (r : Record),
     (c.trk.valid = false → latchLocate c r = .inr .missed) ∧
     (c.trk.valid = true → r.useCue = false →
       latchLocate c r = .inl ⟨r.target, r.tolerance, r.speed.natAbs, 1⟩) ∧
     (c.trk.valid = true → r.useCue = true → cueOf c r = none → latchLocate c r = .inr .noCue) ∧
     ∀ q, c.trk.valid = true → r.useCue = true → cueOf c r = some q →
       let target := q.position + r.offset
       let inRange := -16777216 ≤ target ∧ target ≤ 16777215
       (¬ inRange → latchLocate c r = .inr .missed) ∧
       (inRange → latchLocate c r = .inl ⟨target, if r.tolerance = 0 then q.tolerance else r.tolerance,
         if q.limit = 0 then r.speed.natAbs else min r.speed.natAbs q.limit, 1⟩)) ∧
  (∀ (h : HandFetch) (p : HostPort) (l : Loc) (s : State), s.chip.sup.ts = .held → s.chip.eng.est = .idle →
     s.chip.eng.cur = none → s.chip.eng.ref = 0 → s.chip.trk.endFlag = .none → s.chip.drv.pinch = .out →
     s.chip.pln.fetch = some h → h.todo = [] → s.chip.bus.host = some p →
     screen s.chip h.record h.aborted = none → h.ring = .main → h.record.kind? = some .locate →
     latchLocate s.chip h.record = .inl l → s.chip.pln.urgent.queued = 0 → s.chip.pln.main.queued = 0 →
     s.chip.pln.main.take = s.chip.pln.main.intake → s.chip.pln.main.intake < s.chip.pln.main.slots.length →
     l.ceiling ≠ 0 → (∀ d, speedLimit s.chip d ≠ 0) →
     let err := l.target - s.chip.trk.position
     ∃ t g, exec .handOffScreen s = .next t ∧ t.chip.eng.cur = some g ∧ g.kind = .locate ∧ g.loc = some l ∧
       l.approach = 1 ∧ g.slot = s.chip.pln.main.intake ∧
       g.dir = (if 0 < err then some .forward else if err < 0 then some .reverse else none) ∧
       g.phase = (if err.natAbs ≤ l.tolerance then .brake else .approach) ∧ t.chip.eng.moveReq = true ∧
       t.chip.sup.ts = .held ∧ t.chip.trk = s.chip.trk ∧ t.mem = s.mem) ∧
  (∀ (g : Seg) (l : Loc) (s : State), s.chip.mode ≠ .bypass → s.chip.sup.up = true → s.chip.sup.ts = .moving →
     s.chip.eng.est = .running → s.chip.eng.cur = some g → g.kind = .locate → g.loc = some l →
     (g.phase = .approach ∨ g.phase = .creep ∨ g.phase = .brake) → (g.phase ≠ .brake → targetSpeed s.chip ≠ 0) →
     let v := match g.phase with
       | .approach => signed g.dir l.ceiling
       | .creep => signed g.dir (min s.chip.profile.creepSpeed l.ceiling)
       | _ => 0
     let a := effectiveAccel s.chip
     let ref' := (s.chip.eng.move (limitTarget s.chip v) a).ref
     let left := (l.target - s.chip.trk.position).natAbs
     let near := g.dir ≠ none ∧ dirOf ref' = g.dir ∧
       left * (25 * a) ≤ ref'.natAbs * ref'.natAbs + s.chip.profile.creepDistance * (25 * a)
     (ref' ≠ 0 ∨ s.chip.trk.tapeSpeed ≠ 0) →
     ∃ t g', exec .referenceSpeedUpdate s = .next t ∧ t.chip.eng.ref = ref' ∧ t.chip.eng.cur = some g' ∧ g'.loc = g.loc ∧
       g'.dir = g.dir ∧ t.chip.sup.ts = .moving ∧ t.chip.trk = s.chip.trk ∧ t.mem = s.mem ∧
       (ref' = s.chip.eng.ref → g'.phase = g.phase) ∧
       (ref' ≠ s.chip.eng.ref → left ≤ l.tolerance → g'.phase = .brake) ∧
       (ref' ≠ s.chip.eng.ref → l.tolerance < left → g.phase = .approach → near → g'.phase = .creep) ∧
       (ref' ≠ s.chip.eng.ref → l.tolerance < left → ¬ (g.phase = .approach ∧ near) → g'.phase = g.phase))

/-! ## Start-up and resets (chapters 3, 4, 9 and 10) -/

/-- POWER_ON (R16, R72, R110, R166): the part stands in the power-on reset whatever it held, with the debounce started
where the path sensor reads present; the store and memory keep their content where no save was running (log 9); its
arm readings are 0 (log 8), and its working settings, notice mask, sampled strap and start time are the model's (log
11).

RESET_N_RELEASED (R151, R162, R163 to R165): with no host cycle at the port start-up begins, the transport clock at 0,
the window base sampled, the start count raised by one, what the store's coming reads get wrong taken (log 32), and
the 64 words of the tombstone posted, DOWN first: 12 in the master queue, 52 waiting (log 31). A host cycle that began
under the bypass is completed under it first: the bypass stays, and the end of that cycle begins start-up; the host's
next cycle is driven as it ends, with start-up begun, and the answer of the cycle before stands beside it (logs 36,
37). -/
def Obligations.PowerOnAndRelease : Prop :=
  (∀ (p : Pins) (s : State), s.chip.set.saving = false →
     exec (.powerOn p) s = .next (s.withChip { Chip.reset with
       pins := p
       free := s.chip.free + 1
       trk := if p.path then { Tracker.reset with path := .pending } else Tracker.reset
       set := { Store.reset with nv := s.chip.set.nv } })) ∧
  ((∀ (r : Release) (s : State), s.chip.mode = .bypass → s.chip.bus.queue = [] → s.chip.bus.wait = [] →
     s.chip.bus.port = none → s.chip.bus.host = none →
     ∃ t, exec (.resetNReleased r) s = .next t ∧ t.chip.mode = .startup ∧ t.chip.clock = 0 ∧ t.chip.bus.winsel = r.winsel ∧
       t.chip.bus.startCount = s.chip.bus.startCount + 1 ∧ t.chip.bus.ending = none ∧ t.chip.bus.queue.length = 12 ∧
       t.chip.bus.wait.length = 52 ∧
       (∀ k, k < 64 → (t.chip.bus.queue ++ t.chip.bus.wait)[k]? =
         some ⟨4 * k, if k = 0 then 15 else 0, 0xF⟩) ∧
       t.chip.set = { s.chip.set with coming := r.coming } ∧
       t.chip.drv = s.chip.drv ∧ t.chip.trk = s.chip.trk ∧ t.chip.sup = s.chip.sup ∧ t.mem = s.mem) ∧
   (∀ (r : Release) (s : State), s.chip.mode = .bypass → s.chip.bus.host ≠ none → s.chip.bus.port ≠ none →
     exec (.resetNReleased r) s = .next (s.withChip { s.chip with
       bus := { s.chip.bus with ending := some r.winsel }, set := { s.chip.set with coming := r.coming } })) ∧
   ∀ (w : BitVec 4) (a : Nat) (data : Word) (be : Enables) (y : Bool) (s : State), s.chip.mode = .bypass →
     s.chip.bus.ending = some w → s.chip.bus.port = some (.host a true data be y) →
     ∃ t, exec .memoryCycleDone s = .next t ∧ t.mem = s.mem.writeWord (a / 4 * 4) data be ∧ t.chip.mode = .startup ∧
       t.chip.clock = 0 ∧ t.chip.bus.winsel = w ∧ t.chip.bus.startCount = s.chip.bus.startCount + 1 ∧
       t.chip.bus.ending = none ∧ t.chip.bus.next = none ∧ t.chip.trk = s.chip.trk ∧
       (s.chip.bus.next = none ∨ s.chip.sup.up = false → t.chip.drv = s.chip.drv) ∧
       (s.chip.bus.next = none → t.chip.bus.host = none ∧ t.chip.bus.done = .wrote) ∧
       (∀ cy, s.chip.bus.next = some cy → t.chip.bus.prior = .wrote ∧
         (cy.write = true → 0x100000 * w.toNat ≤ cy.addr.toNat → cy.addr.toNat < 0x10000 + 0x100000 * w.toNat →
           t.chip.bus.host = none ∧ t.chip.bus.done = .wrote)))

/-- RESET_N_ASSERTED (R16, R68, R69, R72, R162, R166): the tracker and the stage's outputs stand; with no carry
standing the carry is HELD, its timer at 0, and a record is written of the transport state, the threaded profile, the
tension reference and brake-safe as they stood, or, before the supervisor has started, of UNTHREADED with no profile
and a tension of 0 (the record's brake-safe: the working settings' value); a standing carry is left as it is. The
plan, the engine, the grant, the cue table, the mailbox, the events, the notices and the silence monitor are in reset,
the queue is empty, the part is in bypass, and the start cause is RESET_PIN (R165).

RESET_N_ASSERTED in bypass: under the power-on reset, or after its release while a host cycle keeps the bypass, the
carry is HELD with a record of UNTHREADED where none stands (R68, R72); the awaited release is forgotten, and where
one was awaited the start cause is RESET_PIN (R165, R166). That an assertion there writes a carry record, and which
start cause it leaves, is the model's choice (log 11).

CARRY_EXPIRY (R71): after 40 ms the held carry is EXPIRED, the capstan OFF, the pinch out or going out, the lifters
UP; nothing is posted. -/
def Obligations.ResetKeepsOutputs : Prop :=
  (∀ s : State, s.chip.mode ≠ .bypass →
     let r : CarryRec := if s.chip.sup.up then
         ⟨s.chip.sup.ts, s.chip.sup.threaded, s.chip.sup.tension.value, s.chip.set.gen.brakeSafe⟩
       else ⟨.unthreaded, none, (0, 1), s.chip.set.gen.brakeSafe⟩
     ∃ t, exec .resetNAsserted s = .next t ∧ t.chip.mode = .bypass ∧ t.chip.trk = s.chip.trk ∧
       t.chip.drv = (if s.chip.drv.carry = .none then { s.chip.drv with
         carry := .held, carryTimer := some 0, carryRec := some r } else s.chip.drv) ∧
       t.chip.sup = .reset ∧ t.chip.gnt = .reset ∧ t.chip.pln = .reset ∧ t.chip.eng = .reset ∧ t.chip.cue = .reset ∧
       t.chip.mbx = .reset ∧ t.chip.evt = .reset ∧ t.chip.ntc.pending = 0 ∧ t.chip.mon = .reset ∧
       t.chip.bus.queue = [] ∧ t.chip.bus.passOver = 0 ∧ t.chip.bus.snap = none ∧ t.chip.bus.startCause = .resetPin ∧
       t.chip.bus.startCount = s.chip.bus.startCount ∧ t.chip.set.isOpen = false ∧ t.chip.pins = s.chip.pins ∧
       t.mem = s.mem) ∧
  (∀ s : State, s.chip.mode = .bypass → s.chip.sup.up = false →
     exec .resetNAsserted s = .next (s.withChip { s.chip with
       drv := if s.chip.drv.carry = .none then { s.chip.drv with
           carry := .held, carryTimer := some 0
           carryRec := some ⟨.unthreaded, none, (0, 1), s.chip.set.gen.brakeSafe⟩ }
         else s.chip.drv
       bus := { s.chip.bus with
         ending := none
         startCause := if s.chip.bus.ending = none then s.chip.bus.startCause else .resetPin } })) ∧
  (∀ (n : Nat) (s : State), s.chip.drv.carry = .held → s.chip.drv.carryTimer = some n → 40 ≤ n →
     ∃ d : Drive, exec .carryExpiry s = .next (s.withChip { s.chip with drv := d }) ∧ d.carry = .expired ∧
       d.carryTimer = none ∧ d.carryRec = s.chip.drv.carryRec ∧ d.capRun = false ∧ d.capSpeed = 0 ∧
       (d.pinch = .out ∨ d.pinch = .goingOut) ∧ d.lifters = .up ∧
       (s.chip.drv.atRest = true → d.sup = s.chip.drv.sup ∧ d.tup = s.chip.drv.tup))

/-- SETTINGS_LOAD (R164, R178, R183): the read gives the store's bytes but for what it gets wrong (log 32), and the
first that passes its check, whatever those before it gave, loads the working settings; a first or second failing read
changes nothing but the count of reads and what the coming reads get wrong; the third takes the defaults and posts
SETTINGS_DEFAULTED with detail 3 and the failing byte. A load sets the notice mask to the default mask and begins the
recovery sweep. -/
def Obligations.SettingsLoadTaken : Prop :=
  ∀ s : State, s.chip.mode = .startup → s.chip.set.loaded = false →
    let bytes := (s.chip.set.coming.headD []).foldl (fun bs e => bs.set e.1.toNat e.2) s.chip.set.nv
    let loaded := s.chip.set.load bytes
    (storePasses bytes = true →
      ∃ t, exec .settingsLoad s = .next t ∧ t.chip.set.loaded = true ∧ t.chip.set.gen = loaded.gen ∧
        t.chip.set.profs = loaded.profs ∧ t.chip.set.coming = s.chip.set.coming.tail ∧ t.chip.ntc.mask = loaded.gen.defaultMask ∧
        t.chip.pln.sweep = some 0 ∧ t.chip.evt.held = s.chip.evt.held ∧ t.chip.set.nv = s.chip.set.nv ∧
        t.chip.drv = s.chip.drv ∧ t.chip.trk = s.chip.trk ∧ t.chip.sup = s.chip.sup ∧ t.mem = s.mem) ∧
    (storePasses bytes = false → s.chip.set.reads + 1 < 3 → s.chip.bus.port ≠ none →
      exec .settingsLoad s = .next (s.withChip { s.chip with
        set := { s.chip.set with reads := s.chip.set.reads + 1, coming := s.chip.set.coming.tail } })) ∧
    (storePasses bytes = false → 3 ≤ s.chip.set.reads + 1 →
      ∃ t, exec .settingsLoad s = .next t ∧ t.chip.set.loaded = true ∧ t.chip.set.gen = General.default ∧
        t.chip.set.profs = List.replicate 8 Profile.default ∧ t.chip.ntc.mask = 0xFFFF ∧
        t.chip.evt.held = s.chip.evt.held ++
          [.event (s.chip.event .settingsDefaulted 3 0 ((bytes.getD 511 0).toNat : Int))] ∧
        t.chip.set.nv = s.chip.set.nv ∧ t.chip.set.coming = s.chip.set.coming.tail ∧ t.chip.drv = s.chip.drv ∧
        t.chip.trk = s.chip.trk ∧ t.mem = s.mem)

/-- SUPERVISOR_START with no carry and no fault input asserted (R18, R25, R51): THREADED where the path is PRESENT and
UNTHREADED otherwise, no threaded profile, both brakes ENGAGED and both drives OFF; it posts nothing.

SUPERVISOR_START with a carry still held of a transport that moved (R51, R70): CATCHING under the carried profile,
with the claim outstanding and the reel outputs as carried; nothing is posted.

SUPERVISOR_START with a carry still held of any other state (R51, R55, R57, R70): of UNTHREADED or THREADED, the path
says which the transport is in, the carried profile kept with the path PRESENT alone, the carry claimed, both brakes
ENGAGED and both drives OFF, nothing posted; of SLACKING, CATCH_CLAIMED and the step that the brakes show: with a reel
free the fall to 0 from the carried tension with the reel outputs as carried, with both brakes ENGAGED the off delay,
or THREADED at once at a delay of 0 (log 34); of TRIPPED, TRIPPED with no trip recorded, CATCH_CLAIMED, and the reels
that were carried unbraked braked as R30 has it.

SUPERVISOR_START with inputs asserted (R28, R34; the order of what it brings: log 34): FLT_CAP sets the latch, the
cause CAPSTAN_FAULT, its notice and STOP; with no carry each other input gives FAULT_INPUT and trips nothing; under a
carry of a transport that moved they claim it and trip it (log 20): POWER_LOSS where POWER_FAIL stands, a drive fault
beside it posting its own TRIP with FOLLOWING, and DRIVE_FAULT otherwise, with the side of the reels that show it. -/
def Obligations.SupervisorStarts : Prop :=
  (∀ s : State, s.chip.mode = .startup → s.chip.set.loaded = true → s.chip.sup = .reset → s.chip.drv.carry = .none →
     s.chip.pins.powerFail = false → s.chip.pins.fltSupply = false → s.chip.pins.fltTup = false →
     s.chip.pins.fltCap = false →
     ∃ t, exec .supervisorStart s = .next t ∧ t.chip.sup.up = true ∧
       t.chip.sup.ts = (if s.chip.trk.path = .present then .threaded else .unthreaded) ∧
       t.chip.sup.threaded = none ∧ t.chip.gnt.threaded = none ∧ t.chip.drv.sup.engaged = true ∧
       t.chip.drv.tup.engaged = true ∧ t.chip.drv.sup.mode = .off ∧ t.chip.drv.tup.mode = .off ∧
       t.chip.evt = s.chip.evt ∧ t.chip.ntc = s.chip.ntc ∧ t.chip.trk = s.chip.trk ∧ t.chip.pln = s.chip.pln ∧
       t.chip.set = s.chip.set ∧ t.mem = s.mem) ∧
  (∀ (r : CarryRec) (s : State), s.chip.mode = .startup → s.chip.set.loaded = true → s.chip.sup = .reset →
     s.chip.drv.carry = .held → s.chip.drv.carryRec = some r →
     (r.ts = .tensioning ∨ r.ts = .held ∨ r.ts = .moving ∨ r.ts = .stopping ∨ r.ts = .catching) →
     s.chip.pins.powerFail = false → s.chip.pins.fltSupply = false → s.chip.pins.fltTup = false →
     s.chip.pins.fltCap = false →
     ∃ t, exec .supervisorStart s = .next t ∧ t.chip.sup.up = true ∧ t.chip.sup.ts = .catching ∧
       t.chip.sup.claimPending = true ∧ t.chip.sup.threaded = r.threaded ∧ t.chip.gnt.threaded = r.threaded ∧
       t.chip.drv = s.chip.drv ∧ t.chip.evt = s.chip.evt ∧ t.chip.ntc = s.chip.ntc ∧ t.chip.trk = s.chip.trk ∧
       t.mem = s.mem) ∧
  (∀ (r : CarryRec) (s : State), s.chip.mode = .startup → s.chip.set.loaded = true → s.chip.sup = .reset →
     s.chip.drv.carry = .held → s.chip.drv.carryRec = some r → s.chip.pins.powerFail = false →
     s.chip.pins.fltSupply = false → s.chip.pins.fltTup = false → s.chip.pins.fltCap = false →
     let braked := s.chip.drv.sup.engaged = true ∧ s.chip.drv.tup.engaged = true
     let speed : Nat := max s.chip.trk.sup.surfaceSpeed s.chip.trk.tup.surfaceSpeed
     let claimed : Post := .event (s.chip.event .catchClaimed r.ts.code 0 speed)
     let index := if s.chip.trk.path = .present then r.threaded else none
     ∃ t, exec .supervisorStart s = .next t ∧ t.chip.sup.up = true ∧ t.chip.trk = s.chip.trk ∧ t.mem = s.mem ∧
       (r.ts = .unthreaded ∨ r.ts = .threaded →
         t.chip.sup.ts = (if s.chip.trk.path = .present then .threaded else .unthreaded) ∧ t.chip.sup.threaded = index ∧
         t.chip.gnt.threaded = index ∧ t.chip.drv.carry = .none ∧ t.chip.drv.carryTimer = none ∧
         t.chip.drv.sup.engaged = true ∧ t.chip.drv.tup.engaged = true ∧ t.chip.drv.sup.mode = .off ∧
         t.chip.drv.tup.mode = .off ∧ t.chip.evt = s.chip.evt ∧ t.chip.ntc = s.chip.ntc) ∧
       (r.ts = .slacking → t.chip.drv.carry = .none ∧ t.chip.drv.carryTimer = none ∧ t.chip.gnt.threaded = r.threaded ∧
         t.chip.sup.threaded = r.threaded ∧
         (¬ braked ∨ s.chip.set.gen.offDelay ≠ 0 → t.chip.drv.pinch = s.chip.drv.pinch ∧
           t.chip.drv.capRun = s.chip.drv.capRun) ∧
         (¬ braked → t.chip.sup.ts = .slacking ∧ t.chip.sup.tension.goal = 0 ∧ t.chip.sup.tension.elapsed = 0 ∧
           t.chip.sup.tension.num * r.tension.2 = r.tension.1 * t.chip.sup.tension.den ∧
           t.chip.drv.sup.engaged = s.chip.drv.sup.engaged ∧ t.chip.drv.tup.engaged = s.chip.drv.tup.engaged ∧
           t.chip.drv.sup.mode = s.chip.drv.sup.mode ∧ t.chip.drv.tup.mode = s.chip.drv.tup.mode ∧
           t.chip.evt.held = s.chip.evt.held ++ [claimed]) ∧
         (braked → s.chip.set.gen.offDelay ≠ 0 → t.chip.sup.ts = .slacking ∧
           t.chip.sup.off = some ⟨0, s.chip.set.gen.offDelay⟩ ∧ t.chip.drv.sup.engaged = true ∧
           t.chip.drv.tup.engaged = true ∧ t.chip.evt.held = s.chip.evt.held ++ [claimed]) ∧
         (braked → s.chip.set.gen.offDelay = 0 → PlanOk s → t.chip.sup.ts = .threaded ∧
           t.chip.drv.sup.mode = .off ∧ t.chip.drv.tup.mode = .off ∧ t.chip.evt.held = s.chip.evt.held ++
             [claimed, .event (s.chip.event .stateChanged 1 0 6), .notice .stateChanged])) ∧
       (r.ts = .tripped → t.chip.sup.ts = .tripped ∧ t.chip.sup.trip = .none ∧ t.chip.sup.side = .none ∧
         t.chip.sup.threaded = r.threaded ∧ t.chip.gnt.threaded = r.threaded ∧ t.chip.sup.tension.value.1 = 0 ∧
         t.chip.drv.carry = .none ∧ t.chip.drv.carryTimer = none ∧ t.chip.drv.pinch = s.chip.drv.pinch ∧
         t.chip.drv.capRun = s.chip.drv.capRun ∧ t.chip.evt.held = s.chip.evt.held ++ [claimed] ∧
         (s.chip.drv.sup.engaged = false → s.chip.drv.tup.engaged = false → s.chip.drv.sup.mode ≠ .off →
           s.chip.drv.tup.mode ≠ .off →
           let fastSup := decide (s.chip.set.gen.brakeSafe < s.chip.trk.sup.surfaceSpeed)
           let fastTup := decide (s.chip.set.gen.brakeSafe < s.chip.trk.tup.surfaceSpeed)
           Braked t.chip.drv.sup fastSup fastTup ∧ Braked t.chip.drv.tup fastTup fastSup))) ∧
  (∀ s : State, s.chip.mode = .startup → s.chip.set.loaded = true → s.chip.sup = .reset → PlanOk s →
     let pf := s.chip.pins.powerFail
     let fs := s.chip.pins.fltSupply
     let ft := s.chip.pins.fltTup
     let cap := s.chip.pins.fltCap
     let stop : List Post := if cap then [.notice .stopLatched, .event (s.chip.event .stop 6 0 2)] else []
     ∃ t, exec .supervisorStart s = .next t ∧ t.chip.sup.up = true ∧ t.chip.sup.latch = cap ∧
       t.chip.sup.stop = (if cap then .capstanFault else .none) ∧ t.chip.trk = s.chip.trk ∧ t.mem = s.mem ∧
       (s.chip.drv.carry = .none → t.chip.sup.trip = .none ∧
         t.chip.sup.ts = (if s.chip.trk.path = .present then .threaded else .unthreaded) ∧
         t.chip.evt.held = s.chip.evt.held ++ (if pf then [.event (s.chip.event .faultInput 1 0 0)] else []) ++
           (if fs then [.event (s.chip.event .faultInput 2 0 0)] else []) ++
           (if ft then [.event (s.chip.event .faultInput 3 0 0)] else []) ++ stop) ∧
       (∀ r, s.chip.drv.carry = .held → s.chip.drv.carryRec = some r →
         (r.ts = .tensioning ∨ r.ts = .held ∨ r.ts = .moving ∨ r.ts = .stopping ∨ r.ts = .catching) →
         (pf = true ∨ fs = true ∨ ft = true) → s.chip.gnt.request = none →
         let speed : Nat := max s.chip.trk.sup.surfaceSpeed s.chip.trk.tup.surfaceSpeed
         let side : Nat := if fs then (if ft then 3 else 1) else 2
         t.chip.sup.ts = .tripped ∧ t.chip.sup.trip = (if pf then .powerLoss else .driveFault) ∧
         t.chip.sup.side.code = (if pf then 0 else side) ∧ t.chip.drv.carry = .none ∧ t.chip.sup.claimPending = true ∧
         t.chip.evt.held = s.chip.evt.held ++ [.event (s.chip.event .catchClaimed r.ts.code 0 speed),
             .event (if pf then s.chip.event .trip 4 0 0 else s.chip.event .trip 5 0 side), .notice .tripped,
             .event (s.chip.event .stateChanged 7 0 8), .notice .stateChanged] ++
           (if pf ∧ (fs ∨ ft) then [.event (s.chip.event .trip 5 0 (side + 4))] else []) ++ stop))

/-- The claim (R52, R53, R54, R57), at the ARM_SAMPLE that completes the first sample of both arms in CATCHING under a
carry still held (that it is judged there, and that a claim that fails posts no STATE_CHANGED: log 20). It fails with
a surface speed above the catch limit or an arm SLACK or OVER: the carry is claimed, the transport is TRIPPED from its
start by CATCH_FAILED, side NONE, with CATCH_CLAIMED and TRIP and no STATE_CHANGED posted. Otherwise the catch
proceeds: CATCH_CLAIMED is posted, the tape speed is the reference speed, both drives are in TORQUE with the brakes
RELEASED, and the pinch goes out first where it is IN or going in, with the capstan OFF at once where it is not.

The end of a catch (R24, R55): at the SPEED_WINDOW_TICK (log 4), the first movement of the pinch being over (log 44),
that finds the reference speed 0 and both reels stopped the transport is HELD where both arms are IN, its tension
reference on the way to park, and SLACKING otherwise, its tension reference falling from nominal (wherever a movement
to nominal then stands: log 46); the latch, the fault word and the profile stand.

SUPERVISOR_START with a carry that expired under a transport in tension (R51, R53, R57, R71): TRIPPED from the start
by CATCH_FAILED, side NONE, under the carried profile; the reels stand where the stage's own stop has brought them,
one braked already staying braked; TRIP and its notice are posted, with no CATCH_CLAIMED and no STATE_CHANGED. -/
def Obligations.ClaimAndCatch : Prop :=
  (∀ (r : Reel) (v : BitVec 12) (k : CarryRec) (i : Fin 8) (s : State), s.chip.mode = .startup → s.chip.sup.up = true →
     s.chip.sup.ts = .catching → s.chip.sup.claimPending = true → s.chip.drv.carry = .held →
     s.chip.drv.carryRec = some k → s.chip.sup.threaded = some i →
     (match r with | .supply => s.chip.sup.seenTup | .takeup => s.chip.sup.seenSup) = true →
     let here := classOf (s.chip.set.prof i.val) v.toNat
     let other := match r with | .supply => s.chip.sup.clsTup | .takeup => s.chip.sup.clsSup
     let speed := max s.chip.trk.sup.surfaceSpeed s.chip.trk.tup.surfaceSpeed
     let fails := s.chip.set.gen.catchLimit < speed ∨ here = .slack ∨ here = .overLevel ∨ other = .slack ∨
       other = .overLevel
     let claimed : Post := .event (s.chip.event .catchClaimed k.ts.code 0 speed)
     ∃ t, exec (.armSample r v) s = .next t ∧ t.chip.drv.carry = .none ∧ t.chip.drv.carryTimer = none ∧
       t.chip.sup.claimPending = false ∧ t.chip.sup.threaded = some i ∧ t.chip.sup.latch = s.chip.sup.latch ∧
       t.chip.trk.position = s.chip.trk.position ∧ t.chip.trk.valid = s.chip.trk.valid ∧ t.chip.gnt = s.chip.gnt ∧
       t.chip.pln = s.chip.pln ∧ t.mem = s.mem ∧
       (fails → t.chip.sup.ts = .tripped ∧
         t.chip.sup.trip = (if s.chip.sup.trip = .none then .catchFailed else s.chip.sup.trip) ∧
         t.chip.sup.tension.value.1 = 0 ∧ t.chip.drv.capRun = false ∧
         (t.chip.drv.pinch = .out ∨ t.chip.drv.pinch = .goingOut) ∧ t.chip.drv.lifters = .up ∧
         t.chip.evt.held = s.chip.evt.held ++ [claimed, .event (s.chip.event .trip 6 0 0), .notice .tripped]) ∧
       (¬ fails → t.chip.sup.ts = .catching ∧ t.chip.eng.ref = s.chip.trk.tapeSpeed ∧ t.chip.drv.sup.mode = .torque ∧
         t.chip.drv.tup.mode = .torque ∧ t.chip.drv.sup.engaged = false ∧ t.chip.drv.tup.engaged = false ∧
         t.chip.evt.held = s.chip.evt.held ++ [claimed] ∧
         ((s.chip.drv.pinch = .pinched ∨ s.chip.drv.pinch = .goingIn) →
           t.chip.sup.catchHold = true ∧ t.chip.drv.pinch = .goingOut) ∧
         ((s.chip.drv.pinch = .out ∨ s.chip.drv.pinch = .goingOut) →
           t.chip.sup.catchHold = s.chip.sup.catchHold ∧ t.chip.drv.capRun = false))) ∧
  (∀ s : State, s.chip.mode = .running → s.chip.sup.up = true → s.chip.sup.ts = .catching →
     s.chip.sup.claimPending = false → s.chip.sup.catchHold = false → s.chip.eng.ref = 0 → s.chip.eng.moveReq = false →
     s.chip.eng.cur = none → s.chip.drv.carry = .none → s.chip.gnt.request = none → s.chip.gnt.active = none →
     s.chip.trk.tick.reelsStopped = true →
     let both := s.chip.sup.clsSup = .inBand ∧ s.chip.sup.clsTup = .inBand
     ∃ t, exec .speedWindowTick s = .next t ∧ t.chip.sup.latch = s.chip.sup.latch ∧ t.chip.sup.trip = s.chip.sup.trip ∧
       t.chip.sup.stop = s.chip.sup.stop ∧ t.chip.sup.threaded = s.chip.sup.threaded ∧ t.chip.trk = s.chip.trk.tick ∧
       t.chip.gnt.active = none ∧ t.chip.pln = s.chip.pln ∧ t.chip.set = s.chip.set ∧ t.mem = s.mem ∧
       (both → t.chip.sup.ts = .held ∧ t.chip.sup.tension = s.chip.sup.tension.moveTo s.chip.profile.park ∧
         t.chip.evt.posted = s.chip.evt.posted ++ [s.chip.event .stateChanged 3 0 8]) ∧
       (¬ both → t.chip.sup.ts = .slacking ∧ t.chip.sup.tension = ⟨s.chip.profile.nominal, 1, 0, 0⟩ ∧
         t.chip.evt.posted = s.chip.evt.posted ++ [s.chip.event .stateChanged 6 0 8])) ∧
  (∀ (k : CarryRec) (s : State), s.chip.mode = .startup → s.chip.set.loaded = true → s.chip.sup = .reset →
     s.chip.drv.carry = .expired → s.chip.drv.carryRec = some k → k.ts ≠ .unthreaded → k.ts ≠ .threaded →
     s.chip.pins.powerFail = false → s.chip.pins.fltSupply = false → s.chip.pins.fltTup = false →
     s.chip.pins.fltCap = false →
     ∃ t, exec .supervisorStart s = .next t ∧ t.chip.sup.up = true ∧ t.chip.sup.ts = .tripped ∧
       t.chip.sup.trip = .catchFailed ∧ t.chip.sup.side = .none ∧ t.chip.sup.stop = .none ∧ t.chip.sup.latch = false ∧
       t.chip.sup.threaded = k.threaded ∧ t.chip.gnt.threaded = k.threaded ∧ t.chip.drv.carry = .none ∧
       t.chip.drv.capRun = false ∧ (t.chip.drv.pinch = .out ∨ t.chip.drv.pinch = .goingOut) ∧
       (s.chip.drv.sup.follow = false → s.chip.drv.tup.follow = false → s.chip.drv.sup.mode ≠ .torque →
         s.chip.drv.tup.mode ≠ .torque →
         t.chip.drv.sup = s.chip.drv.sup ∧ t.chip.drv.tup = s.chip.drv.tup) ∧
       t.chip.evt.held = s.chip.evt.held ++ [.event (s.chip.event .trip 6 0 0), .notice .tripped] ∧
       t.chip.trk = s.chip.trk ∧ t.chip.pln = s.chip.pln ∧ t.mem = s.mem)

/-- RECOVERY_SWEEP_READ (R109): the read of a slot that shows OWN=PART posts the owner byte HOST, ABANDONED, alone, to
word 0 of the slot, and one that shows OWN=HOST posts nothing; the sweep goes on with the next slot (the write joins
the queue in the step of its post: log 31).

STARTUP_END (R165, R179): with every start-up write and read made, the part runs, the start time is the transport
time, and the RESET record, with the start cause as detail and the start count as value, is appended at the write
index, its four words to the master queue in the same step (log 31). The posts held until then are taken in their
order, behind the RESET record (R57, R165): each event waits as posted, and each notice follows EVENTS_WAITING; none
is held any more. -/
def Obligations.SweepAndStartupEnd : Prop :=
  (∀ (a n : Nat) (s : State), s.chip.bus.port = some (.sweepRead a n) → s.chip.pln.wait = [] →
     s.chip.bus.queue.length < 12 →
     let off := if n < 8 then 0x1000 + 32 * n else 0x2000 + 32 * (n - 8)
     ∃ t, exec .recoverySweepRead s = .next t ∧ t.chip.pln = { s.chip.pln with sweep := some (n + 1) } ∧
       t.chip.bus.queue = (if (s.mem.read (a + 0)).getLsbD 7 then s.chip.bus.queue ++ [⟨off, 0x18, 0x1⟩]
         else s.chip.bus.queue) ∧
       t.chip.trk = s.chip.trk ∧ t.chip.drv = s.chip.drv ∧ t.chip.sup = s.chip.sup ∧ t.chip.evt = s.chip.evt ∧
       t.mem = s.mem) ∧
  (∀ s : State, s.chip.mode = .startup → startupOver s.chip = true → EventsOk s → s.chip.evt.wait = [] →
     let events := s.chip.evt.held.filterMap fun p => match p with | .event e => some e | .notice _ => none
     let notices := s.chip.evt.held.filterMap fun p => match p with | .event _ => none | .notice k => some k
     ∃ t, exec .startupEnd s = .next t ∧ t.chip.mode = .running ∧ t.chip.bus.startTime = s.chip.clock ∧
       t.chip.evt.write = 1 ∧ t.chip.evt.consumed = 0 ∧ t.chip.evt.posted = events ∧ t.chip.evt.held = [] ∧
       t.chip.bus.queue = [⟨0x4000, halves (1 + 256 * s.chip.bus.startCause.code) 0, 0xF⟩, ⟨0x4004, s.chip.clock, 0xF⟩,
         ⟨0x4008, wordOfInt s.chip.trk.position, 0xF⟩, ⟨0x400C, BitVec.ofNat 32 s.chip.bus.startCount.toNat, 0xF⟩] ∧
       t.chip.ntc = notices.foldl NoticeUnit.post (s.chip.ntc.post .eventsWaiting) ∧ t.chip.trk = s.chip.trk ∧
       t.mem = s.mem)

/-! ## The plan rings (chapter 6) -/

/-- HAND_OFF (R94, R95, R96, R100): at a HOST slot at the intake index the write is held and the record's words are to be
fetched, word 0 too where the write does not enable all its bytes; at a HOST slot elsewhere it is refused REF_ORDER at
once, the write rewritten to OWN=HOST with the refusal, with its event and notice. -/
def Obligations.HandOffTaken : Prop :=
  ∀ (id : RingId) (slot : BitVec 6) (data : Word) (be : Enables) (s : State),
    (Instr.handOff id slot data be).wf = true →
    let off := slotOffset id slot.toNat
    let r := s.chip.pln.ring id
    WriteReady off s → (r.slot slot.toNat).view = .host →
    (slot.toNat = r.intake →
      exec (.handOff id slot data be) s = .next (s.ends { s.chip with
        pln := { s.chip.pln with fetch := some ⟨id, slot.toNat, data, be,
          if be = 0xF then [1, 2, 3, 4, 5, 6, 7] else [0, 1, 2, 3, 4, 5, 6, 7], [], false⟩ }
        bus := { s.chip.bus with
          host := some ⟨⟨BitVec.ofNat 24 (windowAddr s.chip off), true, data, be⟩, .screening⟩, done := .none } })) ∧
    (slot.toNat ≠ r.intake →
      exec (.handOff id slot data be) s = .next (s.ends
        ((({ s.chip with bus := s.chip.passing off data be (withByte0 data 0x40) (be ||| 1) } : Chip).posting
          [s.chip.event .segmentRefused 0x40 ((merge be data 0).toNat / 65536) off] [.segmentRefused]))))

/-- HAND_OFF_SCREEN (R95, R96, R100): once the fetch is over, a record that fails a check leaves the ring as it is,
and the held write goes to memory with OWN=HOST and the refusal code, with its event and notice.

HAND_OFF_SCREEN accepted in a state that takes no segment (R96, R99): every check passed in STOPPING, the slot is
QUEUED with the screened record, the intake index advances, the count rises by one, and the held write goes to memory
with OWN=PART and QUEUED; nothing is posted.

What the screen accepts (R96): the transport HELD, MOVING or STOPPING, the latch clear, a kind that names one, fields
in range, for a moving kind a grant active that allows the record, for a LOCATE a valid position and, with USE_CUE, a
cue, and a fetch that was not aborted; and it accepts every such record.

The ranges the screen holds a record's fields to (R97): acceleration 0 or 100 to 30,000, speeds to 120,000, durations
to 3,600,000 ms, a position end's target and a LOCATE's within the counter, a cue's offset within 24 bits and its
number at most 31, tolerances to 4095, the speeds that may not be 0, each for the kinds it is for. What a grant allows
(R98): the speed the record asks for (a PLAY's by its code), the acceleration, WIND, and the play code. -/
def Obligations.ScreenDecides : Prop :=
  (∀ (h : HandFetch) (p : HostPort) (code : RefCode) (s : State), s.chip.mode = .running →
     s.chip.pln.fetch = some h → h.todo = [] → s.chip.bus.host = some p → screen s.chip h.record h.aborted = some code →
     exec .handOffScreen s = .next (s.ends
       ((({ s.chip with
           pln := { s.chip.pln with fetch := none }
           bus := { s.chip.bus with host := some { p with
             phase := .ready (withByte0 h.data (BitVec.ofNat 8 code.code)) (h.be ||| 1) } } } : Chip).posting
         [s.chip.event .segmentRefused code.code h.record.tag (slotOffset h.ring h.slot)] [.segmentRefused])))) ∧
  (∀ (h : HandFetch) (p : HostPort) (s : State), s.chip.sup.ts = .stopping → s.chip.pln.fetch = some h → h.todo = [] →
     s.chip.bus.host = some p → screen s.chip h.record h.aborted = none →
     let r := s.chip.pln.ring h.ring
     exec .handOffScreen s = .next (s.ends { s.chip with
       pln := ({ s.chip.pln with fetch := none } : Plan).withRing h.ring { r with
         slots := r.slots.set r.intake ⟨.queued, some h.record⟩
         intake := (r.intake + 1) % r.slots.length
         queued := r.queued + 1 }
       bus := { s.chip.bus with host := some { p with phase := .ready (withByte0 h.data 0x81) (h.be ||| 1) } } })) ∧
  (∀ (c : Chip) (r : Record) (aborted : Bool), screen c r aborted = none ↔
     (c.sup.ts = .held ∨ c.sup.ts = .moving ∨ c.sup.ts = .stopping) ∧ c.sup.latch = false ∧
     ∃ k, r.kind? = some k ∧ fieldsOk k r = true ∧ (k.moving = true → c.gnt.active ≠ none) ∧
       (∀ g, c.gnt.active = some g → withinGrant g.choice k r = true) ∧
       (k = .locate → c.trk.valid = true) ∧ (k = .locate → r.useCue = true → cueOf c r ≠ none) ∧ aborted = false) ∧
  (∀ r : Record,
     let accel := r.accel = 0 ∨ (100 ≤ r.accel ∧ r.accel ≤ 30000)
     let speed := -120000 ≤ r.speed ∧ r.speed ≤ 120000
     let target := -16777216 ≤ r.target ∧ r.target ≤ 16777215
     let ending := (r.positionEnd = true → target) ∧ (r.positionEnd = false → r.duration ≤ 3600000)
     (fieldsOk .spool r = true ↔ accel ∧ speed ∧ ending) ∧
     (fieldsOk .play r = true ↔ accel ∧ r.playCode? ≠ none ∧ r.speed ≠ 0 ∧ speed ∧ ending) ∧
     (fieldsOk .locate r = true ↔ accel ∧ r.speed ≠ 0 ∧ speed ∧ r.tolerance ≤ 4095 ∧
       (r.useCue = true → 0 ≤ r.target ∧ r.target ≤ 31 ∧ -16777216 ≤ r.offset ∧ r.offset ≤ 16777215) ∧
       (r.useCue = false → target)) ∧
     (fieldsOk .dwell r = true ↔ accel ∧ r.duration ≤ 3600000) ∧ (fieldsOk .stop r = true ↔ accel) ∧
     (fieldsOk .wind r = true ↔ accel ∧ r.speed ≠ 0 ∧ speed)) ∧
  (∀ (g : Choice) (k : Kind) (r : Record),
     let asked : Nat := match k with
       | .spool | .wind | .locate => r.speed.natAbs
       | .play => match r.playCode? with
         | some .low => 1905 | some .mid => 3810 | some .high => 7620 | some .vari | none => r.speed.natAbs
       | .dwell | .stop => 0
     withinGrant g k r = true ↔ asked ≤ g.maxSpeed ∧ r.accel ≤ g.accel ∧ (k = .wind → g.wind = true) ∧
       (k = .play → (r.playCode? = some .low ∧ g.codes.getLsbD 0 = true) ∨ (r.playCode? = some .mid ∧ g.codes.getLsbD 1 = true) ∨
         (r.playCode? = some .high ∧ g.codes.getLsbD 2 = true) ∨ (r.playCode? = some .vari ∧ g.codes.getLsbD 3 = true)))

/-- RECALL (R102): OWN=HOST to the newest queued slot takes it back: the view is HOST, the intake index steps back,
the count falls by one, and the write goes to memory as RECALLED; nothing is posted.

SLOT_OWNED_WRITE (R94, R103): a write to a word of a CURRENT slot, or of a QUEUED one where it is no recall, is
dropped: memory and the rings stand, and WRITE_DROPPED carries SLOT_OWNED, the word's offset and the slot's tag; a
write to a HOST slot that is no hand-off passes as the host made it.

A flush of either ring (R107): each queued slot is returned with the status, oldest first, with the position and the
transport time; the take index moves to the intake index and the count is 0; the returned slots' views are HOST and
every other slot, the other ring and everything else stand.

SLACK_DOWN in HELD with no segment current flushes both rings (R42): the urgent ring's queued slots, then the main
ring's, are returned FLUSHED, and their views are HOST. -/
def Obligations.SlotsReturned : Prop :=
  (∀ (id : RingId) (slot : BitVec 6) (data : Word) (be : Enables) (s : State),
     (Instr.recall id slot data be).wf = true →
     let off := slotOffset id slot.toNat
     let r := s.chip.pln.ring id
     WriteReady off s → (r.slot slot.toNat).view = .queued →
     slot.toNat = (r.intake + (r.slots.length - 1)) % r.slots.length →
     exec (.recall id slot data be) s = .next (s.ends { s.chip with
       pln := s.chip.pln.withRing id { r with
         slots := r.slots.set slot.toNat ⟨.host, none⟩, intake := slot.toNat, queued := r.queued - 1 }
       bus := s.chip.passing off data be (withByte0 data 0x19) (be ||| 1) })) ∧
  (∀ (id : RingId) (slot : BitVec 6) (word : BitVec 3) (data : Word) (be : Enables) (s : State),
     (Instr.slotOwnedWrite id slot word data be).wf = true →
     let off := slotOffset id slot.toNat + 4 * word.toNat
     let r := s.chip.pln.ring id
     let x := r.slot slot.toNat
     WriteReady off s →
     let newest := (r.intake + (r.slots.length - 1)) % r.slots.length
     ((x.view = .current ∨ (x.view = .queued ∧
         ¬ (word = 0 ∧ be.getLsbD 0 = true ∧ data.getLsbD 7 = false ∧ slot.toNat = newest))) →
       exec (.slotOwnedWrite id slot word data be) s = .next (s.ends
         ((({ s.chip with bus := s.chip.dropping } : Chip).posting
           [s.chip.event .writeDropped 1 ((x.record.getD Record.blank).tag) off] [.writeDropped])))) ∧
     (x.view = .host → (word ≠ 0 ∨ be.getLsbD 0 = false ∨ data.getLsbD 7 = false) →
       exec (.slotOwnedWrite id slot word data be) s = .next (s.ends
         { s.chip with bus := s.chip.passing off data be data be }))) ∧
  (∀ (id : RingId) (st : Status) (c : Chip),
     let r := c.pln.ring id
     let f := flushRing id st c
     let r' := f.pln.ring id
     f.pln.list = c.pln.list ++ (List.range r.queued).map (fun k =>
       .ret id ((r.take + k) % r.slots.length) st c.trk.position c.clock) ∧
     r'.take = r.intake ∧ r'.intake = r.intake ∧ r'.queued = 0 ∧ r'.slots.length = r.slots.length ∧
     (∀ i, (∃ k, k < r.queued ∧ i = (r.take + k) % r.slots.length) → (r'.slot i).view = .host) ∧
     (∀ i, ¬ (∃ k, k < r.queued ∧ i = (r.take + k) % r.slots.length) → r'.slot i = r.slot i) ∧
     (∀ other, other ≠ id → f.pln.ring other = c.pln.ring other) ∧ { f with pln := c.pln } = c ∧
     f.pln.fetch = c.pln.fetch ∧ f.pln.sweep = c.pln.sweep ∧ f.pln.wait = c.pln.wait) ∧
  (∀ s : State, inRun cmdSlackDown s.chip = true → s.chip.sup.ts = .held → s.chip.eng.cur = none →
     let returns (id : RingId) := (List.range (s.chip.pln.ring id).queued).map fun k =>
       SlotWrite.ret id (((s.chip.pln.ring id).take + k) % (s.chip.pln.ring id).slots.length) .flushed
         s.chip.trk.position s.chip.clock
     ∃ t, exec .slackDown s = .next t ∧ t.chip.pln.list = s.chip.pln.list ++ returns .urgent ++ returns .main ∧
       ∀ id, (t.chip.pln.ring id).queued = 0 ∧ (t.chip.pln.ring id).take = (s.chip.pln.ring id).intake ∧
         (t.chip.pln.ring id).intake = (s.chip.pln.ring id).intake ∧
         ∀ k, k < (s.chip.pln.ring id).queued →
           ((t.chip.pln.ring id).slot (((s.chip.pln.ring id).take + k) % (s.chip.pln.ring id).slots.length)).view = .host)

/-! ## The lists, the queue and the memory port (chapters 6, 8, 9 and 11) -/

/-- SLOT_WRITE_LIST_PASS (R104, R105): a CURRENT mark passes as one write of the owner byte where the queue has room
for it; a return passes as word 6, word 7 and the owner byte where it has room for three; where the queue has less
room than its entry needs, whatever its length, the entry stays.

CUE_WRITE_LIST_PASS and WRITE_JOINS_QUEUE (R138, R156): the head group of the cue write list passes whole where the
queue has room for it, and the first write waiting at each of the six posters (events, mailbox, settings, grant,
start-up, sweep) joins where an entry is free; in start-up the mailbox's waits for the tombstone's and the cue table's
(log 26; joining: log 31); with no entry free it stays. -/
def Obligations.ListsJoinQueue : Prop :=
  (∀ (e : SlotWrite) (rest : List SlotWrite) (s : State), s.chip.pln.list = e :: rest → s.chip.bus.port ≠ none →
     (∀ id n, e = .mark id n → s.chip.bus.queue.length + 1 ≤ 12 →
       exec .slotWriteListPass s = .next (s.withChip { s.chip with
         pln := { s.chip.pln with list := rest }
         bus := { s.chip.bus with queue := s.chip.bus.queue ++ [⟨slotOffset id n, 0x82, 0x1⟩] } })) ∧
     (∀ id n st pos time, e = .ret id n st pos time → s.chip.bus.queue.length + 3 ≤ 12 →
       exec .slotWriteListPass s = .next (s.withChip { s.chip with
         pln := { s.chip.pln with list := rest }
         bus := { s.chip.bus with queue := s.chip.bus.queue ++ [⟨slotOffset id n + 24, wordOfInt pos, 0xF⟩,
           ⟨slotOffset id n + 28, time, 0xF⟩, ⟨slotOffset id n, BitVec.ofNat 32 st.code, 0x1⟩] } })) ∧
     (∀ id n, e = .mark id n → 12 < s.chip.bus.queue.length + 1 → exec .slotWriteListPass s = .next s) ∧
     (∀ id n st pos time, e = .ret id n st pos time → 12 < s.chip.bus.queue.length + 3 →
       exec .slotWriteListPass s = .next s)) ∧
  (∀ s : State, s.chip.mode = .running → s.chip.bus.port ≠ none →
     (∀ g rest, s.chip.cue.list = g :: rest → s.chip.bus.queue.length + g.length ≤ 12 →
       exec .cueWriteListPass s = .next (s.withChip { s.chip with
         cue := { s.chip.cue with list := rest }
         bus := { s.chip.bus with queue := s.chip.bus.queue ++ g } })) ∧
     (∀ g rest, s.chip.cue.list = g :: rest → 12 < s.chip.bus.queue.length + g.length →
       exec .cueWriteListPass s = .next s) ∧
     (∀ p, 12 ≤ s.chip.bus.queue.length → exec (.writeJoinsQueue p) s = .next s)) ∧
  (∀ s : State, s.chip.bus.port ≠ none → s.chip.bus.queue.length < 12 →
     let joined (w : PartWrite) : Bus := { s.chip.bus with queue := s.chip.bus.queue ++ [w] }
     (∀ w rest, s.chip.evt.wait = w :: rest →
       exec (.writeJoinsQueue .eventWriter) s = .next (s.withChip { s.chip with
         evt := { s.chip.evt with wait := rest }, bus := joined w })) ∧
     (∀ w rest, s.chip.mode = .running → s.chip.mbx.wait = w :: rest →
       exec (.writeJoinsQueue .mailbox) s = .next (s.withChip { s.chip with
         mbx := { s.chip.mbx with wait := rest }, bus := joined w })) ∧
     (∀ w rest, s.chip.set.wait = w :: rest →
       exec (.writeJoinsQueue .settings) s = .next (s.withChip { s.chip with
         set := { s.chip.set with wait := rest }, bus := joined w })) ∧
     (∀ w rest, s.chip.gnt.wait = w :: rest →
       exec (.writeJoinsQueue .grant) s = .next (s.withChip { s.chip with
         gnt := { s.chip.gnt with wait := rest }, bus := joined w })) ∧
     (∀ w rest, s.chip.bus.wait = w :: rest →
       exec (.writeJoinsQueue .startUp) s = .next (s.withChip { s.chip with bus := { joined w with wait := rest } })) ∧
     (∀ w rest, s.chip.pln.wait = w :: rest →
       exec (.writeJoinsQueue .sweep) s = .next (s.withChip { s.chip with
         pln := { s.chip.pln with wait := rest }, bus := joined w })) ∧
     (∀ w rest, s.chip.mode = .startup → s.chip.mbx.wait = w :: rest →
       (s.chip.bus.wait = [] ∧ s.chip.cue.list = [] → exec (.writeJoinsQueue .mailbox) s = .next (s.withChip { s.chip with
         mbx := { s.chip.mbx with wait := rest }, bus := joined w })) ∧
       (s.chip.bus.wait ≠ [] ∨ s.chip.cue.list ≠ [] → exec (.writeJoinsQueue .mailbox) s = .next s)))

/-- MEMORY_CYCLE_DONE (R95, R155, R156, R158, R159, R162), no end of a bypass standing: a part write at the port
writes its enabled bytes at its word and leaves the queue, with a pass-over count of 0 before the arbiter's next
grant; a host write writes the data the part released, and its cycle is completed; a host read answers the word memory
holds and writes nothing; a word of a hand-off's fetch joins what has been read. A cycle that a reset orphaned goes on
to its end, a write to its word, a read to no one (R162; log 28). The arbiter then grants the port again, every byte
of memory outside the word written stands, and nothing else changes. A cycle's word is the one its address lies in.

Where the host holds a next cycle, it is driven as a host cycle ends (logs 36, 37): what HOST_CYCLE does with it at
the part with the ended cycle's answer kept beside it. So an outside cycle driven back to back is granted over the
head of the queue with the pass-over count one higher, and at a count of six the head is granted instead (R159).

A word written reads back in its enabled bytes, and keeps its other bytes (R155, Conventions). -/
def Obligations.MemoryCycleCompletes : Prop :=
  (∀ s : State, MemoryOk s → NextOk s → (s.chip.mode ≠ .bypass ∨ s.chip.bus.ending = none) →
     let ends (m : Memory) (c : Chip) : Host.Outcome State Fault Refusal := .next { s with mem := m, chip := arbitrate c }
     let free : Bus := { s.chip.bus with port := none }
     let outside (a : Nat) (m : Memory) := ∀ x, x < a / 4 * 4 ∨ a / 4 * 4 + 4 ≤ x → m.read x = s.mem.read x
     let onward (cy : HostCyc) (m : Memory) (d : HostDone) := exec (.hostCycle cy.addr cy.write cy.data cy.be) { s with
       mem := m, chip := { s.chip with bus := { free with host := none, done := d, next := none, prior := d } } }
     (∀ a w, s.chip.bus.port = some (.part a w) →
       exec .memoryCycleDone s = ends (s.mem.writeWord (a / 4 * 4) w.data w.be)
         { s.chip with bus := { free with queue := s.chip.bus.queue.tail, passOver := 0 } } ∧
       outside a (s.mem.writeWord (a / 4 * 4) w.data w.be)) ∧
     (∀ a data be y, s.chip.bus.port = some (.host a true data be y) →
       let m := s.mem.writeWord (a / 4 * 4) data be
       outside a m ∧
       (s.chip.bus.next = none →
         exec .memoryCycleDone s = ends m { s.chip with bus := { free with host := none, done := .wrote } }) ∧
       (∀ cy, s.chip.bus.next = some cy → exec .memoryCycleDone s = onward cy m .wrote)) ∧
     (∀ a data be y, s.chip.bus.port = some (.host a false data be y) →
       let d : HostDone := .read (s.mem.readWord (a / 4 * 4))
       (s.chip.bus.next = none →
         exec .memoryCycleDone s = ends s.mem { s.chip with bus := { free with host := none, done := d } }) ∧
       (∀ cy, s.chip.bus.next = some cy → exec .memoryCycleDone s = onward cy s.mem d)) ∧
     (∀ a k h, s.chip.bus.port = some (.handRead a k) → s.chip.pln.fetch = some h →
       exec .memoryCycleDone s = ends s.mem { s.chip with
         pln := { s.chip.pln with fetch := some { h with
           todo := h.todo.tail, got := h.got ++ [(k, s.mem.readWord (a / 4 * 4))] } }
         bus := free }) ∧
     (∀ a data be, s.chip.bus.port = some (.orphanWrite a data be) →
       exec .memoryCycleDone s = ends (s.mem.writeWord (a / 4 * 4) data be) { s.chip with bus := free } ∧
       outside a (s.mem.writeWord (a / 4 * 4) data be)) ∧
     (s.chip.bus.port = some .orphanRead → exec .memoryCycleDone s = ends s.mem { s.chip with bus := free })) ∧
  (∀ (a : Nat) (write : Bool) (data : Word) (be : Enables) (y : Bool) (cy : HostCyc) (w : PartWrite) (ws : List PartWrite)
     (s : State), s.chip.mode = .running → s.chip.bus.port = some (.host a write data be y) → s.chip.bus.next = some cy →
     let base := 0x100000 * s.chip.bus.winsel.toNat
     (cy.addr.toNat < base ∨ 0x10000 + base ≤ cy.addr.toNat) → s.chip.bus.queue = w :: ws →
     (HandFetch.next? s.chip).or ((mailNext? s.chip).or (sweepNext? s.chip)) = none →
     ∃ t, exec .memoryCycleDone s = .next t ∧ t.chip.bus.queue = w :: ws ∧ t.chip.bus.next = none ∧
       (s.chip.bus.passOver < 6 →
         t.chip.bus.port = some (.host cy.addr.toNat cy.write cy.data cy.be false) ∧
         t.chip.bus.passOver = s.chip.bus.passOver + 1) ∧
       (6 ≤ s.chip.bus.passOver → t.chip.bus.port = some (.part (windowAddr s.chip w.offset) w) ∧
         t.chip.bus.passOver = s.chip.bus.passOver)) ∧
  (∀ (m : Memory) (a : Nat) (data : Word) (be : Enables), m.wf = true →
     (m.writeWord a data be).readWord a = merge be data (m.readWord a) ∧
     ∀ x, x < a ∨ a + 4 ≤ x → (m.writeWord a data be).read x = m.read x)

/-- MEMORY_RESPONSE_LIMIT (R160, R161): a host read is completed with 0xFFFFFFFF and memory stands; a part write is
dropped, the next moves to the head and memory stands; each posts MEMORY_FAULT with the word's address and what was
aborted, and its notice, but for an event record's write, which posts the notice alone. A host's window cycle made
under the bypass is not ended (log 28).

An aborted host write (R160, R161): it is completed to the host, every byte of memory outside its word stands (what
the word then holds: log 12), and MEMORY_FAULT carries HOST_WRITE. The host's next cycle is driven as an aborted one
ends (logs 36, 37). An aborted read of a hand-off's fetch gives 0xFFFFFFFF, the fetch goes on and is marked aborted
(FETCH_READ). An aborted read of the recovery sweep goes on to the next slot with nothing written, its event and
notice held until start-up ends (R165).

A cycle that a reset orphaned (R162; log 28) ends there with memory as it stands, nothing posted and nobody answered,
and the arbiter grants the port again. -/
def Obligations.MemoryLimitEnds : Prop :=
  (∀ s : State, s.chip.mode = .running → NextOk s →
    (∀ a data be, s.chip.bus.port = some (.host a false data be false) →
      (s.chip.bus.next = none →
        ∃ t, exec .memoryResponseLimit s = .next t ∧ t.mem = s.mem ∧ t.chip.bus.host = none ∧
          t.chip.bus.done = .read 0xFFFFFFFF ∧ t.chip.bus.queue = s.chip.bus.queue ∧
          t.chip.evt.posted = s.chip.evt.posted ++ [s.chip.event .memoryFault 1 0 (a / 4 * 4)] ∧
          t.chip.ntc = s.chip.ntc.post .memoryFault) ∧
      (∀ cy, s.chip.bus.next = some cy →
        exec .memoryResponseLimit s = exec (.hostCycle cy.addr cy.write cy.data cy.be) (s.withChip
          (({ s.chip with bus := { s.chip.bus with
              port := none, host := none, next := none, done := .read 0xFFFFFFFF, prior := .read 0xFFFFFFFF } } :
            Chip).posting [s.chip.event .memoryFault 1 0 (a / 4 * 4)] [.memoryFault])))) ∧
    (∀ a w, s.chip.bus.port = some (.part a w) → (w.offset < 0x4000 ∨ 0x4800 ≤ w.offset) →
      ∃ t, exec .memoryResponseLimit s = .next t ∧ t.mem = s.mem ∧ t.chip.bus.queue = s.chip.bus.queue.tail ∧
        t.chip.evt.posted = s.chip.evt.posted ++ [s.chip.event .memoryFault 3 0 (a / 4 * 4)] ∧
        t.chip.ntc = s.chip.ntc.post .memoryFault) ∧
    (∀ a w, s.chip.bus.port = some (.part a w) → 0x4000 ≤ w.offset → w.offset < 0x4800 →
      ∃ t, exec .memoryResponseLimit s = .next t ∧ t.mem = s.mem ∧ t.chip.bus.queue = s.chip.bus.queue.tail ∧
        t.chip.evt = s.chip.evt ∧ t.chip.ntc = s.chip.ntc.post .memoryFault)) ∧
  (∀ (a : Nat) (write : Bool) (data : Word) (be : Enables) (s : State),
    s.chip.bus.port = some (.host a write data be true) → exec .memoryResponseLimit s = .next s) ∧
  (∀ s : State, s.chip.mode = .running → NextOk s →
    (∀ a data be, s.chip.bus.port = some (.host a true data be false) → MemoryOk s →
      ∃ t u, exec .memoryResponseLimit s = .next t ∧ u.chip.bus.host = none ∧ u.chip.bus.next = none ∧
        (∀ x, x < a / 4 * 4 ∨ a / 4 * 4 + 4 ≤ x → u.mem.read x = s.mem.read x) ∧
        u.chip.bus.queue = s.chip.bus.queue ∧ u.chip.pln = s.chip.pln ∧ u.chip.gnt = s.chip.gnt ∧
        u.chip.mbx = s.chip.mbx ∧ u.chip.set = s.chip.set ∧ u.chip.mode = .running ∧
        u.chip.evt.posted = s.chip.evt.posted ++ [s.chip.event .memoryFault 2 0 (a / 4 * 4)] ∧
        u.chip.ntc = s.chip.ntc.post .memoryFault ∧
        (s.chip.bus.next = none → t = u ∧ t.chip.bus.done = .wrote) ∧
        (∀ cy, s.chip.bus.next = some cy → u.chip.bus.prior = .wrote ∧
          exec (.hostCycle cy.addr cy.write cy.data cy.be) u = .next t)) ∧
    (∀ a k h, s.chip.bus.port = some (.handRead a k) → s.chip.pln.fetch = some h →
      ∃ t, exec .memoryResponseLimit s = .next t ∧ t.mem = s.mem ∧
        t.chip.pln = { s.chip.pln with fetch := some { h with
          todo := h.todo.tail, got := h.got ++ [(k, 0xFFFFFFFF)], aborted := true } } ∧
        t.chip.bus.queue = s.chip.bus.queue ∧
        t.chip.evt.posted = s.chip.evt.posted ++ [s.chip.event .memoryFault 4 0 (a / 4 * 4)] ∧
        t.chip.ntc = s.chip.ntc.post .memoryFault)) ∧
  (∀ (a n : Nat) (s : State), s.chip.mode = .startup → NextOk s → s.chip.bus.port = some (.sweepRead a n) →
    ∃ t, exec .memoryResponseLimit s = .next t ∧ t.mem = s.mem ∧ t.chip.pln = { s.chip.pln with sweep := some (n + 1) } ∧
      t.chip.bus.queue = s.chip.bus.queue ∧ t.chip.evt.posted = s.chip.evt.posted ∧ t.chip.ntc = s.chip.ntc ∧
      t.chip.evt.held = s.chip.evt.held ++ [.event (s.chip.event .memoryFault 4 0 (a / 4 * 4)), .notice .memoryFault]) ∧
  (∀ s : State, NextOk s → (s.chip.mode ≠ .bypass ∨ s.chip.bus.ending = none) →
    (s.chip.bus.port = some .orphanRead ∨ ∃ a data be, s.chip.bus.port = some (.orphanWrite a data be)) →
    exec .memoryResponseLimit s = .next (s.withChip (arbitrate { s.chip with bus := { s.chip.bus with port := none } })))

/-- EVENT_APPEND (R180, R182): the oldest posted event is appended at the write index, its four words in order to the
queue where it has room (in the same step: log 31), with EVENTS_WAITING where the ring was empty; with 127 unread it
is dropped and counted, up to the count's maximum, and the first such drop is OVERRUN with its notice.

EVENT_CONSUMED_WRITE in OVERRUN (R180, R181, R182): a consumed index that leaves fewer than 127 records unread appends
the OVERRUN marker at once, its value the dropped count, with EVENTS_WAITING where none was unread; the state is
NORMAL and the count 0. One that leaves 127 unread changes only the index. -/
def Obligations.EventAppended : Prop :=
  (∀ (e : Event) (rest : List Event) (s : State), s.chip.mode = .running → s.chip.evt.posted = e :: rest →
     let unread := (s.chip.evt.write + 128 - s.chip.evt.consumed) % 128
     (unread < 127 → s.chip.evt.wait = [] → s.chip.bus.queue.length + 4 ≤ 12 → s.chip.bus.port ≠ none →
       exec .eventAppend s = .next (s.withChip { s.chip with
         evt := { s.chip.evt with posted := rest, write := (s.chip.evt.write + 1) % 128 }
         ntc := if unread = 0 then s.chip.ntc.post .eventsWaiting else s.chip.ntc
         bus := { s.chip.bus with queue := s.chip.bus.queue ++
           [⟨0x4000 + 16 * s.chip.evt.write, halves (e.kind.code + 256 * (e.detail % 256)) e.tag, 0xF⟩,
             ⟨0x4000 + 16 * s.chip.evt.write + 4, e.time, 0xF⟩,
             ⟨0x4000 + 16 * s.chip.evt.write + 8, wordOfInt e.position, 0xF⟩,
             ⟨0x4000 + 16 * s.chip.evt.write + 12, wordOfInt e.value, 0xF⟩] } })) ∧
     (unread = 127 → s.chip.bus.port ≠ none →
       exec .eventAppend s = .next (s.withChip { s.chip with
         evt := { s.chip.evt with
           posted := rest, overrun := true, dropped := min (s.chip.evt.dropped + 1) 0xFFFFFFFF }
         ntc := if s.chip.evt.overrun then s.chip.ntc else s.chip.ntc.post .eventOverrun }))) ∧
  (∀ (data : Word) (be : Enables) (s : State), WriteReady 0x110 s → s.chip.evt.overrun = true →
     let old := s.chip.evt.consumed
     let cand := (merge be data (BitVec.ofNat 32 old)).toNat
     let v := if cand ≤ 127 ∧ (cand + 128 - old) % 128 ≤ (s.chip.evt.write + 128 - old) % 128 then cand
       else s.chip.evt.write
     let unread := (s.chip.evt.write + 128 - v) % 128
     let off := 0x4000 + 16 * s.chip.evt.write
     let bus := s.chip.passing 0x110 data be (BitVec.ofNat 32 v) 0xF
     (unread < 127 → s.chip.evt.wait = [] → s.chip.bus.queue.length + 4 ≤ 12 →
       exec (.eventConsumedWrite data be) s = .next (s.ends { s.chip with
         evt := { s.chip.evt with
           consumed := v, overrun := false, dropped := 0, write := (s.chip.evt.write + 1) % 128 }
         ntc := if unread = 0 then s.chip.ntc.post .eventsWaiting else s.chip.ntc
         bus := { bus with queue := s.chip.bus.queue ++
           [⟨off, 2, 0xF⟩, ⟨off + 4, s.chip.clock, 0xF⟩, ⟨off + 8, wordOfInt s.chip.trk.position, 0xF⟩,
             ⟨off + 12, wordOfInt s.chip.evt.dropped, 0xF⟩] } })) ∧
     (127 ≤ unread →
       exec (.eventConsumedWrite data be) s = .next (s.ends { s.chip with
         evt := { s.chip.evt with consumed := v }, bus := bus })))

/-! ## The host's cycles (chapters 5, 8, 9, 10 and 11) -/

/-- The cue image's host cycles (R139, R157): past its holds a write is dropped and reaches no memory, with WRITE_DROPPED,
detail CUE_IMAGE, the word's offset and tag 0, and its notice, and the table stands; while a write of the part's own
to the word is pending it is held first (log 29). A read passes to memory where no hold stands and is held where one
does, the cue write list's among them; in reset every cycle passes unchanged; in start-up a write is dropped and a
read passes where no hold stands. -/
def Obligations.CueImageWriteDropped : Prop :=
  ∀ (word : BitVec 7) (data : Word) (be : Enables) (s : State), s.chip.bus.host = none →
    let off := 0x3000 + 4 * word.toNat
    let addr := BitVec.ofNat 24 (windowAddr s.chip off)
    let port (w : Bool) (ph : HostPhase) := s.ends { s.chip with
      bus := { s.chip.bus with host := some ⟨⟨addr, w, data, be⟩, ph⟩, done := .none } }
    (s.chip.mode = .running → heldCycle off true s.chip = false →
      exec (.cueImageWrite word data be) s = .next (s.ends
        ((({ s.chip with bus := s.chip.dropping } : Chip).posting
          [s.chip.event .writeDropped 2 0 off] [.writeDropped])))) ∧
    (s.chip.mode = .running → pendingWrite off s.chip = true →
      exec (.cueImageWrite word data be) s = .next (port true .held)) ∧
    (s.chip.mode = .running → heldCycle off false s.chip = false →
      exec (.hostCycle addr false data be) s = .next (port false (.ready data be))) ∧
    (s.chip.mode = .running → heldCycle off false s.chip = true →
      exec (.hostCycle addr false data be) s = .next (port false .held)) ∧
    (cueHold off s.chip = true → s.chip.mode = .running → heldCycle off false s.chip = true) ∧
    (s.chip.mode = .bypass → exec (.cueImageWrite word data be) s = .next (port true .bypassed)) ∧
    (s.chip.mode = .bypass → exec (.hostCycle addr false data be) s = .next (port false .bypassed)) ∧
    (s.chip.mode = .startup →
      exec (.cueImageWrite word data be) s = .next (s.ends { s.chip with bus := s.chip.dropping })) ∧
    (s.chip.mode = .startup → heldCycle off false s.chip = false →
      exec (.hostCycle addr false data be) s = .next (port false (.ready data be)))

/-- SETTINGS_IMAGE_WRITE (R173, R174; a write that changes other words: log 42): with settings closed, with a save or
a reload in RUN, in the general settings under a transport state that locks them, or in the threaded profile's entry
outside UNTHREADED, THREADED and TRIPPED, it is dropped with that detail, and no setting changes. Taken, in HELD too,
it gives the settings their clamped values, disarms the monitor where it enables a byte of the heartbeat period, and
reaches memory as the settings then stand, all bytes enabled.

The clamps of R174: whatever a taken write carries, the general settings stay in their ranges.

The clamps of R74 and R174 for a profile: from a profile that keeps its ranges, whatever a taken write carries leaves
one that keeps them: the tensions at most the maximum and that at most the width's ceiling, the arm levels in their
order, the radii, the margins, the speeds and the acceleration in their ranges.

What a taken write does to the working settings (R74, R174; the layout of 12.4): each field whose bytes it enables, in
the order of the offsets, takes the clamped value of its bytes, the written ones new and the others as they were,
against the fields taken before it; every other field stands. A word below 64 writes the general settings, one of
entry n profile n alone, and one past the entries nothing. -/
def Obligations.SettingsImageWriteTaken : Prop :=
  (∀ (word : BitVec 7) (data : Word) (be : Enables) (s : State),
     let p := 4 * word.toNat
     let off := 0x400 + p
     let ts := s.chip.sup.ts
     let still := ts = .unthreaded ∨ ts = .threaded ∨ ts = .tripped
     let mine := ∃ i : Fin 8, s.chip.sup.threaded = some i ∧ 64 + 48 * i.val ≤ p ∧ p < 64 + 48 * (i.val + 1)
     let dropped (detail : Nat) := s.ends
       ((({ s.chip with bus := s.chip.dropping } : Chip).posting [s.chip.event .writeDropped detail 0 off] [.writeDropped]))
     let new := s.chip.set.takeWrite p data be
     let c := postWrites .settings (s.chip.set.otherWrites new p) { s.chip with
       set := new, mon := if word = 3 ∧ (be.getLsbD 0 ∨ be.getLsbD 1) then ⟨.disarmed, 0⟩ else s.chip.mon }
     let write := exec (.settingsImageWrite word data be) s
     WriteReady off s →
     (s.chip.set.isOpen = false → write = .next (dropped 4)) ∧
     (s.chip.set.isOpen = true → s.chip.settingsBusy = true → write = .next (dropped 5)) ∧
     (s.chip.set.isOpen = true → s.chip.settingsBusy = false → word.toNat < 16 → ¬ still → ts ≠ .held →
       write = .next (dropped 6)) ∧
     (s.chip.set.isOpen = true → s.chip.settingsBusy = false → mine → ¬ still → write = .next (dropped 6)) ∧
     (s.chip.set.isOpen = true → s.chip.settingsBusy = false → (word.toNat < 16 → still ∨ ts = .held) → (still ∨ ¬ mine) →
       write = .next (s.ends { c with bus := c.passing off data be (new.imageWord p) 0xF }))) ∧
  (∀ (g : General) (p : Nat) (data : Word) (be : Enables),
     let ok (x : General) := 100 ≤ x.settle ∧ x.settle ≤ 3000 ∧ x.offDelay ≤ 1500 ∧ 40 ≤ x.pinchTime ∧ x.pinchTime ≤ 400 ∧
       5 ≤ x.breakTime ∧ x.breakTime ≤ 100 ∧ 50 ≤ x.excursion ∧ x.excursion ≤ 2000 ∧ x.starve ≤ 2000 ∧
       (x.period = 0 ∨ x.period = 50 ∨ x.period = 150 ∨ x.period = 400 ∨ x.period = 1200) ∧ x.catchLimit ≤ 120000 ∧
       x.brakeSafe ≤ 10000
     ok g → ok (writeFields generalFields p data be g)) ∧
  (∀ (x : Profile) (p : Nat) (data : Word) (be : Enables),
     let ceiling (w : Nat) : Nat := if w = 0 then 250 else if w = 1 then 400 else if w = 2 then 600 else 800
     let ok (x : Profile) := x.width ≤ 3 ∧ x.park ≤ x.maxTension ∧ x.nominal ≤ x.maxTension ∧ x.wind ≤ x.maxTension ∧
       x.maxTension ≤ ceiling x.width ∧ x.slack < x.low ∧ x.low < x.high ∧ x.high < x.overLevel ∧ x.overLevel ≤ 4095 ∧
       200 ≤ x.hub ∧ x.hub < x.full ∧ x.full ≤ 2000 ∧ x.hub + x.nearMargin ≤ x.full ∧ x.nearSpeed ≤ x.maxSpeed ∧
       x.maxSpeed ≤ 120000 ∧ x.lifterSpeed ≤ 120000 ∧ 100 ≤ x.maxAccel ∧ x.maxAccel ≤ 30000 ∧ 10 ≤ x.creepSpeed ∧
       x.creepSpeed ≤ 10000 ∧ x.creepDistance ≤ 32000
     ok x → ok (writeFields profileFields p data be x)) ∧
  (∀ (p : Nat) (data : Word) (be : Enables),
     let on (q : Nat) : Bool := decide (p ≤ q ∧ q < p + 4) && be.getLsbD (q - p)
     let byte (q old i : Nat) : Byte := if on (q + i) then byteOf data (q + i - p) else BitVec.ofNat 8 (old / 256 ^ i)
     let put (q n old : Nat) (clamp : Nat → Nat) : Nat :=
       if (List.range n).any (fun i => on (q + i)) then clamp (natOfBytes ((List.range n).map (byte q old))) else old
     let within (lo hi v : Nat) : Nat := min hi (max lo v)
     let between (lo hi old v : Nat) : Nat := if lo ≤ hi then within lo hi v else old
     let ceiling (w : Nat) : Nat := if w = 0 then 250 else if w = 1 then 400 else if w = 2 then 600 else 800
     let narrowest (t : Nat) : Nat := if t ≤ 250 then 0 else if t ≤ 400 then 1 else if t ≤ 600 then 2 else 3
     let wide (t v : Nat) : Nat := if ceiling (min v 3) < t then narrowest t else min v 3
     let most (x : Profile) : Nat := max x.park (max x.nominal x.wind)
     (∀ g : General, writeFields generalFields p data be g = {
       settle := put 0 2 g.settle (within 100 3000)
       offDelay := put 2 2 g.offDelay (within 0 1500)
       pinchTime := put 4 2 g.pinchTime (within 40 400)
       breakTime := put 6 2 g.breakTime (within 5 100)
       excursion := put 8 2 g.excursion (within 50 2000)
       starve := put 10 2 g.starve (within 0 2000)
       period := put 12 2 g.period fun v => if v = 0 ∨ v = 50 ∨ v = 150 ∨ v = 400 ∨ v = 1200 then v else 1200
       stopMode := put 14 1 g.stopMode.toNat id != 0
       catchLimit := put 16 4 g.catchLimit (within 0 120000)
       brakeSafe := put 20 2 g.brakeSafe (within 0 10000)
       defaultMask := BitVec.ofNat 16 (put 24 2 g.defaultMask.toNat id) }) ∧
     (∀ x : Profile, writeFields profileFields p data be x = List.foldl (fun (x : Profile) f => f x) x
       [ fun x => { x with label := BitVec.ofNat 64 (put 0 8 x.label.toNat id) },
         fun x => { x with valid := put 8 1 x.valid.toNat id != 0 },
         fun x => { x with width := put 9 1 x.width (wide x.maxTension) },
         fun x => { x with park := put 10 2 x.park fun v => min v x.maxTension },
         fun x => { x with nominal := put 12 2 x.nominal fun v => min v x.maxTension },
         fun x => { x with wind := put 14 2 x.wind fun v => min v x.maxTension },
         fun x => { x with maxTension := put 16 2 x.maxTension (within (most x) (ceiling x.width)) },
         fun x => { x with slack := put 18 2 x.slack fun v => if x.low = 0 then x.slack else min (x.low - 1) v },
         fun x => { x with low := put 20 2 x.low (between (x.slack + 1) (x.high - 1) x.low) },
         fun x => { x with high := put 22 2 x.high (between (x.low + 1) (x.overLevel - 1) x.high) },
         fun x => { x with overLevel := put 24 2 x.overLevel (between (x.high + 1) 4095 x.overLevel) },
         fun x => { x with hub := put 26 2 x.hub (within 200 (min (x.full - 1) (x.full - x.nearMargin))) },
         fun x => { x with full := put 28 2 x.full (within (max (x.hub + 1) (x.hub + x.nearMargin)) 2000) },
         fun x => { x with nearMargin := put 30 2 x.nearMargin fun v => min v (x.full - x.hub) },
         fun x => { x with nearSpeed := put 32 3 x.nearSpeed fun v => min v x.maxSpeed },
         fun x => { x with maxSpeed := put 35 3 x.maxSpeed (within x.nearSpeed 120000) },
         fun x => { x with lifterSpeed := put 38 3 x.lifterSpeed (within 0 120000) },
         fun x => { x with maxAccel := put 42 2 x.maxAccel (within 100 30000) },
         fun x => { x with creepSpeed := put 44 2 x.creepSpeed (within 10 10000) },
         fun x => { x with creepDistance := put 46 2 x.creepDistance (within 0 32000) } ])) ∧
  (∀ (s : Store) (p : Nat) (data : Word) (be : Enables),
     (p < 64 → s.takeWrite p data be = { s with gen := writeFields generalFields p data be s.gen }) ∧
     (∀ n, n < 8 → 64 + 48 * n ≤ p → p < 64 + 48 * (n + 1) → s.takeWrite p data be = { s with
       profs := s.profs.set n (writeFields profileFields (p - (64 + 48 * n)) data be (s.profs.getD n Profile.default)) }) ∧
     (448 ≤ p → s.takeWrite p data be = s))

/-- TRIM_WRITE (R89, R155): the enabled bytes replace those of the copy, the result is clamped to the grant's range, and
the write reaches memory with the clamped value, all bytes enabled; a clamp that changes the value posts TRIM_CLAMPED
with detail WRITE and the unclamped value, and the notice.

NOTICE_MASK_WRITE and NOTICE_CLEAR_WRITE (R155, R183): the enabled bytes of the mask are replaced and the members now
masked leave the set; the kinds written 1 in an enabled byte of the clear leave it; both reach memory as driven.

EVENT_CONSUMED_WRITE outside an overrun (R181): the candidate is taken where it is at most 127 and no further on than
the write index, and the write index is taken otherwise; it reaches memory with all bytes enabled; nothing is posted. -/
def Obligations.WindowRegistersWritten : Prop :=
  (∀ (data : Word) (be : Enables) (s : State), WriteReady 0x10C s →
     let want := (merge be data (wordOfInt s.chip.gnt.trim)).toInt
     let range : Int := (s.chip.gnt.variRange : Int)
     let new := if want < -range then -range else if range < want then range else want
     exec (.trimWrite data be) s = .next (s.ends
       ((({ s.chip with
           gnt := { s.chip.gnt with trim := new }
           bus := s.chip.passing 0x10C data be (wordOfInt new) 0xF } : Chip).posting
         (if new = want then [] else [s.chip.event .trimClamped 1 0 want]) (if new = want then [] else [.trimClamped]))))) ∧
  (∀ (data : Word) (be : Enables) (s : State),
     (WriteReady 0x104 s →
       let m := lowHalf (merge be data (BitVec.ofNat 32 s.chip.ntc.mask.toNat))
       exec (.noticeMaskWrite data be) s = .next (s.ends { s.chip with
         ntc := ⟨s.chip.ntc.pending &&& m, m⟩, bus := s.chip.passing 0x104 data be data be })) ∧
     (WriteReady 0x108 s →
       exec (.noticeClearWrite data be) s = .next (s.ends { s.chip with
         ntc := ⟨s.chip.ntc.pending &&& ~~~lowHalf (merge be data 0), s.chip.ntc.mask⟩
         bus := s.chip.passing 0x108 data be data be }))) ∧
  (∀ (data : Word) (be : Enables) (s : State), WriteReady 0x110 s → s.chip.evt.overrun = false →
     let old := s.chip.evt.consumed
     let cand := (merge be data (BitVec.ofNat 32 old)).toNat
     let v := if cand ≤ 127 ∧ (cand + 128 - old) % 128 ≤ (s.chip.evt.write + 128 - old) % 128 then cand
       else s.chip.evt.write
     exec (.eventConsumedWrite data be) s = .next (s.ends { s.chip with
       evt := { s.chip.evt with consumed := v }
       bus := s.chip.passing 0x110 data be (BitVec.ofNat 32 v) 0xF }))

/-- HEARTBEAT (R184, R185): the write reaches memory as driven; with the period not OFF the monitor is ARMED with its
timer at 0, and HEARTBEAT_RESUMED, with the time since the last heartbeat, is posted from SILENT; with the period OFF
a SILENT monitor is disarmed and another is left.

SILENCE_TIMER_EXPIRY (R185): ARMED with more than the period passed, the monitor is SILENT, with its event and notice;
in REPORT mode nothing else changes; before that, nothing changes.

SILENCE_TIMER_EXPIRY in STOP mode (R31, R185): a MOVING transport is STOPPING with HOST_SILENCE in the fault word, the
latch set and both rings empty; in any state but STOPPING the cause is recorded, and the latch is set in every state. -/
def Obligations.SilenceMonitor : Prop :=
  (∀ (data : Word) (be : Enables) (s : State), WriteReady 0x100 s →
     let bus := s.chip.passing 0x100 data be data be
     (s.chip.set.gen.period ≠ 0 →
       exec (.heartbeat data be) s = .next (s.ends ((({ s.chip with bus := bus, mon := ⟨.armed, 0⟩ } : Chip).posting
         (if s.chip.mon.st = .silent then [s.chip.event .heartbeatResumed 0 0 s.chip.mon.elapsed] else []) [])))) ∧
     (s.chip.set.gen.period = 0 →
       exec (.heartbeat data be) s = .next (s.ends { s.chip with
         bus := bus, mon := if s.chip.mon.st = .silent then ⟨.disarmed, 0⟩ else s.chip.mon }))) ∧
  (∀ s : State, s.chip.mode = .running →
     (s.chip.mon.st = .armed → s.chip.set.gen.period ≠ 0 → s.chip.set.gen.period < s.chip.mon.elapsed →
       s.chip.set.gen.stopMode = false →
       exec .silenceTimerExpiry s = .next (s.ends
         ((({ s.chip with mon := { s.chip.mon with st := .silent } } : Chip).posting
           [s.chip.event .hostSilence 0 0 s.chip.set.gen.period] [.hostSilence])))) ∧
     ((s.chip.mon.st ≠ .armed ∨ s.chip.mon.elapsed ≤ s.chip.set.gen.period) →
       exec .silenceTimerExpiry s = .next (s.ends s.chip))) ∧
  (∀ s : State, s.chip.mon.st = .armed → s.chip.set.gen.period ≠ 0 →
     s.chip.set.gen.period < s.chip.mon.elapsed → s.chip.set.gen.stopMode = true →
     ∃ t, exec .silenceTimerExpiry s = .next t ∧ t.chip.mon.st = .silent ∧ t.chip.sup.latch = true ∧
       t.chip.sup.stop = (if s.chip.sup.ts = .stopping then s.chip.sup.stop else .hostSilence) ∧
       t.chip.sup.ts = (if s.chip.sup.ts = .moving then .stopping else s.chip.sup.ts) ∧
       t.chip.pln.urgent.queued = 0 ∧ t.chip.pln.main.queued = 0 ∧ t.chip.trk = s.chip.trk ∧ t.chip.gnt = s.chip.gnt ∧
       t.chip.set = s.chip.set ∧ t.mem = s.mem)

/-- LIVE_WINDOW_READ and GROUP_HEAD_READ (R153, R154): answered at once with the word of 12.6, without memory; the
group head latches the six words and answers the position; in start-up word 0 answers STARTING and every other word 0.

The words of 12.6: the state word, the start record, the fault word, the arm classes with the threaded and the grant
unit's index, the reel drives and fault inputs, the stage, the grant, the trim and the speed limits, the rings, the
reference speed and the target speed (0 with no segment current), the event ring and the notices.

The remaining words: with a group latched words 4 to 9 answer the latch, and without one the live position, tape
speed, radii, status word and transport time (R154); the pulse rates (10), the arm readings (11), the tension
reference in its unit, with no choice of rounding where it is whole and one of the two whole numbers about it
otherwise (13; log 15), the measured capstan speed (17), the kind, phase and tag (27), the located target (30), and
the approach number, CLIPPED, the monitor and the queue's entries (31). -/
def Obligations.LiveWindowAnswers : Prop :=
  (∀ s : State, s.chip.bus.host = none →
     (∀ word : BitVec 6, s.chip.mode = .running → word ≠ 4 →
       exec (.liveWindowRead word) s = .next (s.ends { s.chip with
         bus := { s.chip.bus with host := none, done := .read (liveWord s.chip word.toNat) } })) ∧
     (∀ word : BitVec 6, s.chip.mode = .startup →
       exec (.liveWindowRead word) s = .next (s.ends { s.chip with
         bus := { s.chip.bus with host := none, done := .read (if word = 0 then 14 else 0) } })) ∧
     (s.chip.mode = .running →
       exec .groupHeadRead s = .next (s.ends { s.chip with
         bus := { s.chip.bus with
           host := none, done := .read (wordOfInt s.chip.trk.position)
           snap := some {
             position := wordOfInt s.chip.trk.position
             speed := wordOfInt s.chip.trk.tapeSpeed
             supRadius := BitVec.ofNat 32 s.chip.trk.sup.radius
             tupRadius := BitVec.ofNat 32 s.chip.trk.tup.radius
             status := statusWord s.chip
             time := s.chip.clock } } }))) ∧
  (∀ c : Chip,
     let w (a b d e : Nat) : Word := wordOf (BitVec.ofNat 8 a) (BitVec.ofNat 8 b) (BitVec.ofNat 8 d) (BitVec.ofNat 8 e)
     let bit (b : Bool) : Nat := if b then 1 else 0
     let ts : Nat := match c.sup.ts with
       | .unthreaded => 0 | .threaded => 1 | .tensioning => 2 | .held => 3 | .moving => 4 | .stopping => 5
       | .slacking => 6 | .tripped => 7 | .catching => 8
     let est : Nat := match c.eng.est with | .idle => 0 | .running => 1 | .starved => 2 | .halting => 3
     let mst : Nat := match c.mbx.st with | .idle => 0 | .fetch => 1 | .run => 2 | .reply => 3
     let trip : Nat := match c.sup.trip with
       | .none => 0 | .armOver => 1 | .tapeBreak => 2 | .pathLost => 3 | .powerLoss => 4 | .driveFault => 5 | .catchFailed => 6
     let side : Nat := match c.sup.side with | .none => 0 | .supply => 1 | .takeup => 2 | .both => 3
     let stop : Nat := match c.sup.stop with
       | .none => 0 | .tapeEnd => 1 | .endOfRun => 2 | .excursion => 3 | .starved => 4 | .pinchFault => 5
       | .capstanFault => 6 | .hostSilence => 7
     let cls (a : ArmClass) : Nat := match a with
       | .none => 0 | .slack => 1 | .low => 2 | .inBand => 3 | .high => 4 | .overLevel => 5
     let mode (m : DriveMode) : Nat := match m with | .off => 0 | .torque => 1 | .dynamic => 2
     let index (i : Option (Fin 8)) : Nat := match i with | some i => i.val | none => 0xFF
     let field (f : Choice → Word) : Word := match c.gnt.active with | some g => f g.choice | none => 0
     let range : BitVec 16 := match c.gnt.active with | some g => BitVec.ofNat 16 g.choice.vari | none => 0
     liveWord c 0 = w ts est mst (match c.mbx.cmd with | some cmd => cmd.code.toNat | none => 0) ∧
     liveWord c 1 = w (match c.bus.startCause with | .powerOn => 1 | .resetPin => 2) (bit c.set.isOpen)
       (c.bus.startCount.toNat % 256) (c.bus.startCount.toNat / 256) ∧
     liveWord c 2 = c.bus.startTime ∧ liveWord c 3 = w trip side stop (bit c.sup.latch) ∧
     liveWord c 12 = w (cls c.sup.clsSup) (cls c.sup.clsTup) (index c.sup.threaded) (index c.gnt.threaded) ∧
     liveWord c 14 = w (mode c.drv.sup.mode) (mode c.drv.tup.mode) (bit c.drv.sup.engaged + 2 * bit c.drv.tup.engaged)
       (bit c.pins.fltSupply + 2 * bit c.pins.fltTup + 4 * bit c.pins.fltCap + 8 * bit c.pins.powerFail) ∧
     liveWord c 15 = w (bit c.drv.capRun)
       (match c.drv.pinch with | .out => 0 | .goingIn => 1 | .pinched => 2 | .goingOut => 3)
       (match c.drv.lifters with | .up => 0 | .down => 1)
       (match c.drv.carry with | .none => 0 | .held => 1 | .expired => 2) ∧
     liveWord c 16 = BitVec.ofInt 32 c.drv.capSpeed ∧
     liveWord c 18 = w (bit c.gnt.active.isSome) (match c.gnt.active with | some g => g.position | none => 0)
       c.gnt.fallback.length (bit c.gnt.request.isSome) ∧
     liveWord c 19 = field (fun g => BitVec.ofNat 32 g.maxSpeed) ∧ liveWord c 20 = field (fun g => BitVec.ofNat 32 g.accel) ∧
     liveWord c 21 = field (fun g => w g.profile g.codes.toNat (bit g.wind) 0) ∧
     liveWord c 22 = BitVec.ofInt 16 c.gnt.trim ++ range ∧
     liveWord c 23 = BitVec.ofNat 32 (speedLimit c .forward) ∧ liveWord c 24 = BitVec.ofNat 32 (speedLimit c .reverse) ∧
     liveWord c 25 = w c.pln.urgent.intake c.pln.urgent.take c.pln.urgent.queued
       (match c.eng.cur with | none => 0 | some g => match g.ring with | .urgent => 1 | .main => 2) ∧
     liveWord c 26 = w c.pln.main.intake c.pln.main.take c.pln.main.queued
       (match c.eng.cur with | none => 0 | some g => g.slot) ∧
     liveWord c 28 = (match c.eng.cur with | none => 0 | some _ => BitVec.ofInt 32 (targetSpeed c)) ∧
     liveWord c 29 = BitVec.ofInt 32 c.eng.ref ∧
     liveWord c 32 = w c.evt.write c.evt.consumed (bit c.evt.overrun) 0 ∧
     liveWord c 33 = BitVec.ofNat 32 (min c.evt.dropped 0xFFFFFFFF) ∧ liveWord c 34 = c.ntc.mask ++ c.ntc.pending) ∧
  (∀ c : Chip,
     let w (a b d e : Nat) : Word := wordOf (BitVec.ofNat 8 a) (BitVec.ofNat 8 b) (BitVec.ofNat 8 d) (BitVec.ofNat 8 e)
     let bit (b : Bool) : Nat := if b then 1 else 0
     let flag : Nat := match c.trk.endFlag with | .none => 0 | .forwardEnd => 1 | .reverseEnd => 2
     let path : Nat := match c.trk.path with | .absent => 0 | .pending => 1 | .present => 2
     let last : Nat := match c.trk.lastDir with | none => 0 | some .forward => 1 | some .reverse => 2
     let phase (p : Phase) : Nat := match p with
       | .release => 1 | .run => 2 | .leadIn => 3 | .pinchIn => 4 | .capstan => 5 | .pinchOut => 6 | .settle => 7
       | .hold => 8 | .ramp => 9 | .runout => 10 | .approach => 11 | .creep => 12 | .brake => 13
     let monitor : Nat := match c.mon.st with | .disarmed => 0 | .armed => 1 | .silent => 2
     let loc (f : Loc → Nat) : Nat := match c.eng.cur with | none => 0 | some g => match g.loc with | none => 0 | some l => f l
     statusWord c = w (bit c.trk.valid) flag path (bit c.pins.leader + 2 * last) ∧
     (∀ x, c.bus.snap = some x → liveWord c 4 = x.position ∧ liveWord c 5 = x.speed ∧ liveWord c 6 = x.supRadius ∧
       liveWord c 7 = x.tupRadius ∧ liveWord c 8 = x.status ∧ liveWord c 9 = x.time) ∧
     (c.bus.snap = none → liveWord c 4 = BitVec.ofInt 32 c.trk.position ∧ liveWord c 5 = BitVec.ofInt 32 c.trk.tapeSpeed ∧
       liveWord c 6 = BitVec.ofNat 32 c.trk.sup.radius ∧ liveWord c 7 = BitVec.ofNat 32 c.trk.tup.radius ∧
       liveWord c 8 = statusWord c ∧ liveWord c 9 = c.clock) ∧
     liveWord c 10 = BitVec.ofNat 16 (min c.trk.tup.pulseRate 65535) ++ BitVec.ofNat 16 (min c.trk.sup.pulseRate 65535) ∧
     liveWord c 11 = BitVec.ofNat 16 c.trk.tup.arm.toNat ++ BitVec.ofNat 16 c.trk.sup.arm.toNat ∧
     (∀ n, c.sup.tension.value = (n, 1) → liveWord c 13 = (0 : BitVec 16) ++ BitVec.ofNat 16 (min n 65535)) ∧
     (∃ n, liveWord c 13 = (0 : BitVec 16) ++ BitVec.ofNat 16 (min n 65535) ∧
       (n = c.sup.tension.value.1 / c.sup.tension.value.2 ∨ n = c.sup.tension.value.1 / c.sup.tension.value.2 + 1)) ∧
     liveWord c 17 = BitVec.ofInt 32 c.drv.measuredCapstan ∧
     liveWord c 27 = (match c.eng.cur with
       | none => 0
       | some g => w ((byteOf g.record.w0 1).toNat % 8) (phase g.phase) (g.record.tag % 256) (g.record.tag / 256)) ∧
     liveWord c 30 = (match c.eng.cur with
       | none => 0
       | some g => match g.loc with | none => 0 | some l => BitVec.ofInt 32 l.target) ∧
     liveWord c 31 = w (loc Loc.approach) (match c.eng.cur with | none => 0 | some g => bit g.clipped) monitor
       c.bus.queue.length)

/-- HOST_CYCLE (R151, R152, R153, R162, R163): an outside cycle goes to the arbiter as it came; under the bypass every
cycle does; a write to the live window is dropped in silence; a window write in start-up is dropped.

While the port holds a host cycle the next one the host makes is kept behind it, the first that comes; a second is not
made (log 36).

HELD_CYCLE_RELEASE (R106, R138, R157): a held read of a window word outside the live window stays held while a write
of the part's own to that word waits anywhere, and goes to the arbiter as the host made it once none does. A held
write to the cue image is dropped at its release (R139), and the host's next cycle is then driven (logs 36, 37). -/
def Obligations.HostCyclePasses : Prop :=
  (∀ (addr : BitVec 24) (write : Bool) (data : Word) (be : Enables) (s : State), s.chip.bus.host = none →
     let base := 0x100000 * s.chip.bus.winsel.toNat
     let port (ph : HostPhase) := s.ends { s.chip with
       bus := { s.chip.bus with host := some ⟨⟨addr, write, data, be⟩, ph⟩, done := .none } }
     let drop := s.ends { s.chip with bus := s.chip.dropping }
     (s.chip.mode = .bypass → exec (.hostCycle addr write data be) s = .next (port .bypassed)) ∧
     (s.chip.mode ≠ .bypass → (addr.toNat < base ∨ 0x10000 + base ≤ addr.toNat) →
       exec (.hostCycle addr write data be) s = .next (port (.ready data be))) ∧
     (s.chip.mode ≠ .bypass → write = true → base ≤ addr.toNat → addr.toNat < 0x100 + base →
       exec (.hostCycle addr write data be) s = .next drop) ∧
     (s.chip.mode = .startup → write = true → base ≤ addr.toNat → addr.toNat < 0x10000 + base →
       exec (.hostCycle addr write data be) s = .next drop)) ∧
  (∀ (addr : BitVec 24) (write : Bool) (data : Word) (be : Enables) (s : State), s.chip.bus.host ≠ none →
     exec (.hostCycle addr write data be) s = .next (s.ends { s.chip with
       bus := { s.chip.bus with next := if s.chip.bus.next = none then some ⟨addr, write, data, be⟩ else s.chip.bus.next } })) ∧
  (∀ (h : HostPort) (off : Nat) (s : State), s.chip.mode = .running → s.chip.bus.host = some h → h.phase = .held →
     h.cyc.write = false → windowOffset s.chip h.cyc.addr.toNat = some off → 0x100 ≤ off →
     ((pendingWrite off s.chip || listHold off s.chip || cueHold off s.chip) = true →
       exec .heldCycleRelease s = .next (s.ends s.chip)) ∧
     ((pendingWrite off s.chip || listHold off s.chip || cueHold off s.chip) = false →
       exec .heldCycleRelease s = .next (s.ends { s.chip with
         bus := { s.chip.bus with host := some { h with phase := .ready h.cyc.data h.cyc.be } } }))) ∧
  (∀ (h : HostPort) (off : Nat) (s : State), s.chip.mode = .running → s.chip.bus.host = some h → h.phase = .held →
     h.cyc.write = true → windowOffset s.chip h.cyc.addr.toNat = some off → 0x3000 ≤ off → off < 0x3200 →
     heldCycle off true s.chip = false →
     let c := ({ s.chip with bus := s.chip.dropping } : Chip).posting [s.chip.event .writeDropped 2 0 off] [.writeDropped]
     (s.chip.bus.next = none → exec .heldCycleRelease s = .next (s.ends c)) ∧
     (∀ cy, s.chip.bus.next = some cy → exec .heldCycleRelease s =
       exec (.hostCycle cy.addr cy.write cy.data cy.be) (s.withChip { c with
         bus := { c.bus with next := none, prior := .wrote } })))

/-- A host write to the command word, past its holds (R168, R169): in IDLE its enabled bytes join the copy; a code of
0 passes and is no command; a code above 12 is answered UNKNOWN and a length the command does not allow BAD_LENGTH,
and the write passes at once; a command with no data and no check byte is in RUN; one that needs a fetch is in FETCH
of every word that holds a byte of its data or check, the write held until then. In RUN the write is dropped, with
WRITE_DROPPED, detail MAILBOX_BUSY, where the command is a SAVE_SETTINGS or RELOAD_SETTINGS that runs or would be
admitted, and held under any other command, which is decided at its dispatch (10.2; log 49). In FETCH, in REPLY, and
while a write of the part's own to the word is pending, it is held.

The lengths of 10.2 (R169): 1 for TENSION_UP and CLEAR_CUE, 16, 32, 48 or 64 for REQUEST_GRANT, 20 for SET_CUE, 4 for
SET_POSITION, and 0 for every other command.

The end of a command's fetch (R168, R169), at the completion of its last read: the host's write goes to the arbiter as
it was made; a read of the fetch that was aborted makes it REFUSED, MEMORY; with the check flag set a check byte that
is not the CRC-8 of the data makes it BAD_CHECK; otherwise the command is in RUN with its data. A last read ended at
the memory response limit makes it REFUSED, MEMORY, with MEMORY_FAULT, FETCH_READ. Before the last read the fetch goes
on.

MAILBOX_REPLY (R171): with the executing block's writes passed and room in the queue, the reply word and then the
command word as 0 are posted, all bytes enabled, the mailbox is IDLE with a copy of 0, and MAILBOX_DONE is posted. -/
def Obligations.CommandWordJudged : Prop :=
  (∀ (data : Word) (be : Enables) (s : State), s.chip.mode = .running → s.chip.bus.host = none →
     let addr := BitVec.ofNat 24 (windowAddr s.chip 0x200)
     let cyc := exec (.hostCycle addr true data be) s
     let port (ph : HostPhase) : Bus := { s.chip.bus with host := some ⟨⟨addr, true, data, be⟩, ph⟩, done := .none }
     let copy := merge be data s.chip.mbx.copy
     let code := byteOf copy 0
     let len := (byteOf copy 2).toNat
     let check := (byteOf copy 1).getLsbD 0
     let m : Mailbox := { s.chip.mbx with
       copy := copy, cmd := some ⟨code, check, len⟩, data := [], got := [], aborted := false }
     let words := (len + (if check then 1 else 0) + 3) / 4
     let ends (x : Mailbox) (ph : HostPhase) := s.ends { s.chip with mbx := x, bus := port ph }
     let ready := heldCycle 0x200 true s.chip = false
     (ready → s.chip.mbx.st = .idle → code = 0 →
       cyc = .next (ends { s.chip.mbx with copy := copy } (.ready data be))) ∧
     (ready → s.chip.mbx.st = .idle → 12 < code.toNat →
       cyc = .next (ends { m with st := .reply, reply := some ⟨.unknown, 0⟩ } (.ready data be))) ∧
     (ready → s.chip.mbx.st = .idle → code ≠ 0 → code.toNat ≤ 12 → lengthOk code len = false →
       cyc = .next (ends { m with st := .reply, reply := some ⟨.badLength, 0⟩ } (.ready data be))) ∧
     (ready → s.chip.mbx.st = .idle → code ≠ 0 → code.toNat ≤ 12 → lengthOk code len = true → words = 0 →
       cyc = .next (ends { m with st := .run } (.ready data be))) ∧
     (ready → s.chip.mbx.st = .idle → code ≠ 0 → code.toNat ≤ 12 → lengthOk code len = true → words ≠ 0 →
       cyc = .next (ends { m with st := .fetch, todo := (List.range words).map fun k => 0x208 + 4 * k } .fetching)) ∧
     (ready → s.chip.mbx.st = .run →
       cyc = .next (s.ends ((({ s.chip with bus := s.chip.dropping } : Chip).posting
         [s.chip.event .writeDropped 3 0 0x200] [.writeDropped])))) ∧
     (s.chip.mbx.st = .fetch ∨ s.chip.mbx.st = .reply ∨ (s.chip.mbx.st = .run ∧ s.chip.settingsBusy = false) ∨
         pendingWrite 0x200 s.chip = true →
       cyc = .next (s.ends { s.chip with bus := port .held }))) ∧
  (∀ c : Chip, c.settingsBusy = true ↔ c.mbx.st = .run ∧ (∃ cmd, c.mbx.cmd = some cmd ∧
     (cmd.code = cmdSaveSettings ∨ cmd.code = cmdReloadSettings)) ∧ (c.set.saving = true ∨ c.set.reloading = true ∨
     (c.set.isOpen = true ∧ c.trk.reelsStopped = true ∧
       (c.sup.ts = .unthreaded ∨ c.sup.ts = .threaded ∨ c.sup.ts = .held ∨ c.sup.ts = .tripped)))) ∧
  (∀ n, (lengthOk 1 n = true ↔ n = 1) ∧ (lengthOk 2 n = true ↔ n = 0) ∧
     (lengthOk 3 n = true ↔ n = 16 ∨ n = 32 ∨ n = 48 ∨ n = 64) ∧ (lengthOk 4 n = true ↔ n = 0) ∧
     (lengthOk 5 n = true ↔ n = 20) ∧ (lengthOk 6 n = true ↔ n = 1) ∧ (lengthOk 7 n = true ↔ n = 4) ∧
     ∀ c ∈ [8, 9, 10, 11, 12], (lengthOk (BitVec.ofNat 8 c) n = true ↔ n = 0)) ∧
  (∀ (a off : Nat) (todo : List Nat) (cmd : Cmd) (h : HostPort) (s : State), s.chip.mode = .running →
     s.chip.bus.port = some (.mailRead a) → s.chip.mbx.st = .fetch → s.chip.mbx.todo = off :: todo →
     s.chip.mbx.cmd = some cmd → s.chip.bus.host = some h → h.phase = .fetching →
     let w := s.mem.readWord (a / 4 * 4)
     let bytes := (s.chip.mbx.got ++ [w]).flatMap wordBytes
     let wrong := cmd.check = true ∧ bytes.getD cmd.length 0 ≠ crc8 (bytes.take cmd.length)
     let read : Mailbox := { s.chip.mbx with todo := todo, got := s.chip.mbx.got ++ [w] }
     let lost : Mailbox := { s.chip.mbx with todo := todo, got := s.chip.mbx.got ++ [0xFFFFFFFF], aborted := true }
     let free : Bus := { s.chip.bus with port := none }
     let released : Bus := { free with host := some { h with phase := .ready h.cyc.data h.cyc.be } }
     let ends (c : Chip) : Host.Outcome State Fault Refusal := .next (s.withChip (arbitrate c))
     let fault (c : Chip) := c.posting [s.chip.event .memoryFault 4 0 (a / 4 * 4)] [.memoryFault]
     (todo ≠ [] → exec .memoryCycleDone s = ends { s.chip with mbx := read, bus := free }) ∧
     (todo = [] → s.chip.mbx.aborted = true →
       exec .memoryCycleDone s = ends { s.chip with
         mbx := { read with st := .reply, reply := some ⟨.refused, 0x18⟩ }, bus := released }) ∧
     (todo = [] → s.chip.mbx.aborted = false → wrong →
       exec .memoryCycleDone s = ends { s.chip with
         mbx := { read with st := .reply, reply := some ⟨.badCheck, 0⟩ }, bus := released }) ∧
     (todo = [] → s.chip.mbx.aborted = false → ¬ wrong →
       exec .memoryCycleDone s = ends { s.chip with
         mbx := { read with st := .run, data := bytes.take cmd.length }, bus := released }) ∧
     (todo ≠ [] → exec .memoryResponseLimit s = ends (fault { s.chip with mbx := lost, bus := free })) ∧
     (todo = [] → exec .memoryResponseLimit s = ends (fault { s.chip with
       mbx := { lost with st := .reply, reply := some ⟨.refused, 0x18⟩ }, bus := released }))) ∧
  ∀ (r : Reply) (cmd : Cmd) (s : State), s.chip.mode = .running → s.chip.mbx.st = .reply →
    s.chip.mbx.reply = some r → s.chip.mbx.cmd = some cmd → blockPassed s.chip = true → s.chip.mbx.wait = [] →
    s.chip.bus.queue.length + 2 ≤ 12 →
    exec .mailboxReply s = .next (s.ends { s.chip with
      mbx := .reset
      ntc := s.chip.ntc.post .mailboxDone
      bus := { s.chip.bus with queue := s.chip.bus.queue ++
        [⟨0x204, wordOf (BitVec.ofNat 8 r.result.code) r.detail cmd.code 0, 0xF⟩, ⟨0x200, 0, 0xF⟩] } })

/-! ## The mailbox's commands (chapters 1, 2, 3, 5, 8 and 10) -/

/-- TENSION_UP refused (R38): BUSY in TENSIONING and SLACKING, NOT_THREADED in every other state but THREADED, BAD_PROFILE
for an index above 7 or an entry not valid, POWER while POWER_FAIL_N stands asserted; nothing else changes.

TENSION_UP accepted (R19, R24, R38, R39): with no fault input asserted the named profile is threaded, the transport is
TENSIONING with the settle timer at 0 and the reference rising from 0 to park, the lifters are UP, the capstan OFF,
both drives in TORQUE at 0 and both brakes RELEASED; the reply is DONE.

SLACK_DOWN (R42): accepted in HELD, both rings are empty, the transport SLACKING, the grant and the pending request
gone, the latch and the fault word as they were; in TENSIONING it is SLACKING too; in every other state it is BUSY and
changes nothing. -/
def Obligations.TensionCommandsTaken : Prop :=
  (∀ s : State, inRun cmdTensionUp s.chip = true →
     let answers (r : Result) (d : Byte) := s.ends { s.chip with mbx := s.chip.replied r d }
     let ts := s.chip.sup.ts
     let n := (s.chip.mbx.data.getD 0 0).toNat
     ((ts = .tensioning ∨ ts = .slacking) → exec .tensionUp s = .next (answers .busy 0)) ∧
     (ts ≠ .tensioning → ts ≠ .slacking → ts ≠ .threaded → exec .tensionUp s = .next (answers .refused 0x10)) ∧
     (ts = .threaded → (7 < n ∨ (s.chip.set.prof n).valid = false) → exec .tensionUp s = .next (answers .refused 0x11)) ∧
     (ts = .threaded → n ≤ 7 → (s.chip.set.prof n).valid = true → s.chip.pins.powerFail = true →
       exec .tensionUp s = .next (answers .refused 0x12))) ∧
  (∀ (i : Fin 8) (s : State), inRun cmdTensionUp s.chip = true → s.chip.mode = .running → s.chip.sup.up = true →
     s.chip.sup.ts = .threaded → (s.chip.mbx.data.getD 0 0).toNat = i.val → (s.chip.set.prof i.val).valid = true →
     s.chip.pins.powerFail = false → s.chip.pins.fltSupply = false → s.chip.pins.fltTup = false →
     s.chip.drv.carry = .none →
     ∃ t, exec .tensionUp s = .next t ∧ t.chip.sup.ts = .tensioning ∧ t.chip.sup.threaded = some i ∧
       t.chip.gnt.threaded = some i ∧ t.chip.sup.settle = some 0 ∧
       t.chip.sup.tension = ⟨0, 1, (s.chip.set.prof i.val).park, 0⟩ ∧ t.chip.drv.lifters = .up ∧
       t.chip.drv.capRun = false ∧ t.chip.drv.sup.mode = .torque ∧ t.chip.drv.tup.mode = .torque ∧
       t.chip.drv.sup.torque = 0 ∧ t.chip.drv.tup.torque = 0 ∧ t.chip.drv.sup.engaged = false ∧
       t.chip.drv.tup.engaged = false ∧ t.chip.mbx = s.chip.replied .done 0 ∧ t.chip.sup.latch = s.chip.sup.latch ∧
       t.chip.gnt.request = s.chip.gnt.request ∧ t.chip.trk = s.chip.trk ∧
       t.chip.evt.posted = s.chip.evt.posted ++ [s.chip.event .stateChanged 2 s.chip.curTag 1] ∧ t.mem = s.mem) ∧
  (∀ s : State, inRun cmdSlackDown s.chip = true →
     ((s.chip.sup.ts = .held ∨ s.chip.sup.ts = .tensioning) →
       ∃ t, exec .slackDown s = .next t ∧ t.chip.sup.ts = .slacking ∧ t.chip.gnt.active = none ∧
         t.chip.gnt.request = none ∧ (s.chip.sup.ts = .held → t.chip.pln.urgent.queued = 0 ∧ t.chip.pln.main.queued = 0) ∧
         t.chip.sup.latch = s.chip.sup.latch ∧ t.chip.sup.trip = s.chip.sup.trip ∧ t.chip.sup.stop = s.chip.sup.stop ∧
         t.chip.sup.threaded = s.chip.sup.threaded ∧ t.chip.mbx = s.chip.replied .done 0 ∧ t.chip.trk = s.chip.trk ∧
         t.chip.set = s.chip.set ∧ t.mem = s.mem) ∧
     (s.chip.sup.ts ≠ .held → s.chip.sup.ts ≠ .tensioning →
       exec .slackDown s = .next (s.ends { s.chip with mbx := s.chip.replied .busy 0 })))

/-- REQUEST_GRANT (R78, R79, R80, R187): BUSY in MOVING, STOPPING, CATCHING and SLACKING, NOT_THREADED in UNTHREADED and
TRIPPED; stored in THREADED and TENSIONING with DEFERRED; in HELD the first choice that passes is active, the later
ones that pass are the fallbacks in order, and the reply is GRANTED with the outcomes; with none passing, REFUSED with
them.

DROP_GRANT (R83): BUSY in MOVING and STOPPING; in HELD both rings are empty, the grant and its fallbacks are absent
and the trim 0, DONE with detail NOTHING where none was active; in THREADED and TENSIONING a pending request is
cancelled; otherwise DONE, NOTHING, with nothing changed. -/
def Obligations.GrantCommandsTaken : Prop :=
  (∀ s : State, inRun cmdRequestGrant s.chip = true →
     let ts := s.chip.sup.ts
     let chs := choicesOf s.chip.mbx.data
     let answers (r : Result) (d : Byte) := s.ends { s.chip with mbx := s.chip.replied r d }
     ((ts = .moving ∨ ts = .stopping ∨ ts = .catching ∨ ts = .slacking) → exec .requestGrant s = .next (answers .busy 0)) ∧
     ((ts = .unthreaded ∨ ts = .tripped) → exec .requestGrant s = .next (answers .refused 0x10)) ∧
     ((ts = .threaded ∨ ts = .tensioning) → s.chip.gnt.request = none →
       exec .requestGrant s = .next (s.ends { s.chip with
         mbx := s.chip.replied .deferred 0, gnt := { s.chip.gnt with request := some chs } })) ∧
     (ts = .held → passedChoices s.chip chs = [] →
       exec .requestGrant s = .next (answers .refused (outcomesByte (chs.map (checkChoice s.chip))))) ∧
     (∀ g rest, ts = .held → passedChoices s.chip chs = g :: rest →
       ∃ t, exec .requestGrant s = .next t ∧ t.chip.gnt.active = some g ∧ t.chip.gnt.fallback = rest ∧
         t.chip.mbx = s.chip.replied .granted (outcomesByte (chs.map (checkChoice s.chip))) ∧
         t.chip.sup.ts = .held ∧ t.chip.pln = s.chip.pln ∧ t.chip.trk = s.chip.trk ∧ t.mem = s.mem)) ∧
  (∀ s : State, inRun cmdDropGrant s.chip = true →
     let ts := s.chip.sup.ts
     ((ts = .moving ∨ ts = .stopping) →
       exec .dropGrant s = .next (s.ends { s.chip with mbx := s.chip.replied .busy 0 })) ∧
     (ts = .held → TrimOk s →
       ∃ t, exec .dropGrant s = .next t ∧ t.chip.gnt.active = none ∧ t.chip.gnt.trim = 0 ∧
         (s.chip.gnt.active ≠ none → t.chip.gnt.fallback = []) ∧ t.chip.pln.urgent.queued = 0 ∧
         t.chip.pln.main.queued = 0 ∧
         t.chip.mbx = s.chip.replied .done (if s.chip.gnt.active = none then 1 else 0) ∧ t.chip.sup.ts = .held ∧
         t.chip.trk = s.chip.trk ∧ t.chip.cue = s.chip.cue ∧ t.mem = s.mem) ∧
     (∀ q, (ts = .threaded ∨ ts = .tensioning) → s.chip.mode = .running → s.chip.gnt.request = some q →
       exec .dropGrant s = .next (s.ends
         ((({ s.chip with mbx := s.chip.replied .done 0, gnt := { s.chip.gnt with request := none } } : Chip).posting
           [s.chip.event .grantDropped 2 0 3] [])))) ∧
     (((ts = .threaded ∨ ts = .tensioning) ∧ s.chip.gnt.request = none ∨ ts = .unthreaded ∨ ts = .slacking ∨
         ts = .tripped ∨ ts = .catching) →
       exec .dropGrant s = .next (s.ends { s.chip with mbx := s.chip.replied .done 1 }))) ∧
  (∀ (c : Chip) (ch : Choice),
     let p := c.set.prof ch.profile
     let invalid := 7 < ch.profile ∨ p.valid = false ∨ ¬ (ch.accel = 0 ∨ (100 ≤ ch.accel ∧ ch.accel ≤ 30000)) ∨ 15 < ch.codes.toNat
     let mismatch := ∀ i : Fin 8, c.gnt.threaded = some i → i.val ≠ ch.profile
     let exceeds := p.maxSpeed < ch.maxSpeed ∨ p.maxAccel < ch.accel ∨ 2000 < ch.vari
     (invalid → checkChoice c ch = .invalid) ∧ (¬ invalid → mismatch → checkChoice c ch = .mismatch) ∧
     (¬ invalid → ¬ mismatch → exceeds → checkChoice c ch = .exceeds) ∧
     (¬ invalid → ¬ mismatch → ¬ exceeds → checkChoice c ch = .passed)) ∧
  (∀ (c : Chip) (chs : List Choice),
     let passed := passedChoices c chs
     passed.Pairwise (fun a b => a.position < b.position) ∧
     (∀ g, g ∈ passed ↔ ∃ ch, chs[g.position]? = some ch ∧ checkChoice c ch = .passed ∧
       g.choice = { ch with accel := if ch.accel = 0 then (c.set.prof ch.profile).maxAccel else ch.accel })) ∧
  (∀ os : List ChoiceOutcome, os.length ≤ 4 →
     let code (k : Nat) : Nat := match os[k]? with
       | some .passed => 0 | some .mismatch => 2 | some .exceeds => 3 | some .invalid | none => 1
     (outcomesByte os).toNat = code 0 + 4 * code 1 + 16 * code 2 + 64 * code 3)

/-- SET_CUE (R140): BAD_INDEX above 31; RANGE outside the ranges of R137; otherwise the entry takes the fields whole,
its group of four words joins the cue write list, CUE_SET is posted with the cue's position, and the reply is CREATED
or REPLACED.

CLEAR_CUE (R141): BAD_INDEX for 32..254; of an absent entry, or of 0xFF with none present, DONE, NOTHING, with nothing
changed; a present entry becomes absent, its group joins the cue write list, CUE_CLEARED is posted with value 1, and
the reply is DONE. Of 0xFF with entries present all are absent, the groups of the present ones join the list in the
order of their indices, CUE_CLEARED carries the index 0xFF and their number, and the reply is DONE.

A group's four words (R138, 12.5), all bytes enabled: of a present entry its label's two words, its position, and the
word with PRESENT, tolerance and speed limit last; of an absent one that word first, as 0, and then the other three,
as 0 (their content: log 47). -/
def Obligations.CueCommandsTaken : Prop :=
  (∀ s : State, inRun cmdSetCue s.chip = true → s.chip.mode = .running →
     let n := (s.chip.mbx.data.getD 0 0).toNat
     let tol := (s.chip.mbx.data.getD 2 0).toNat + 256 * (s.chip.mbx.data.getD 3 0).toNat
     let pos := (s.chip.mbx.word 4).toInt
     let lim := (s.chip.mbx.word 8).toNat
     let q : Cue := ⟨pos, tol, lim, BitVec.ofNat 64 (natOfBytes ((s.chip.mbx.data.drop 12).take 8))⟩
     let inRange := -16777216 ≤ pos ∧ pos ≤ 16777215 ∧ tol ≤ 4095 ∧ lim ≤ 65535
     let was := (s.chip.cue.cues.getD n none).isSome
     (31 < n → exec .setCue s = .next (s.ends { s.chip with mbx := s.chip.replied .refused 0x17 })) ∧
     (n ≤ 31 → ¬ inRange → exec .setCue s = .next (s.ends { s.chip with mbx := s.chip.replied .refused 0x13 })) ∧
     (n ≤ 31 → inRange →
       exec .setCue s = .next (s.ends
         ((({ s.chip with
             cue := ⟨s.chip.cue.cues.set n (some q), s.chip.cue.list ++ [presentGroup n q]⟩
             mbx := s.chip.replied .done (if was then 3 else 2) } : Chip).posting
           [⟨.cueSet, n, 0, s.chip.clock, pos, if was then 1 else 0⟩] []))))) ∧
  (∀ s : State, inRun cmdClearCue s.chip = true → s.chip.mode = .running →
     let n := (s.chip.mbx.data.getD 0 0).toNat
     (31 < n → n ≠ 0xFF → exec .clearCue s = .next (s.ends { s.chip with mbx := s.chip.replied .refused 0x17 })) ∧
     (n ≤ 31 → s.chip.cue.cues.getD n none = none →
       exec .clearCue s = .next (s.ends { s.chip with mbx := s.chip.replied .done 1 })) ∧
     (n ≤ 31 → s.chip.cue.cues.getD n none ≠ none →
       exec .clearCue s = .next (s.ends
         ((({ s.chip with
             cue := ⟨s.chip.cue.cues.set n none, s.chip.cue.list ++ [absentGroup n]⟩
             mbx := s.chip.replied .done 0 } : Chip).posting [s.chip.event .cueCleared n 0 1] [])))) ∧
     (n = 0xFF → (∀ k, k < 32 → s.chip.cue.cues.getD k none = none) →
       exec .clearCue s = .next (s.ends { s.chip with mbx := s.chip.replied .done 1 })) ∧
     let ps := (List.range 32).filter fun k => (s.chip.cue.cues.getD k none).isSome
     (n = 0xFF → ps ≠ [] → ∃ cues : List (Option Cue), (∀ k, k < 32 → cues.getD k none = none) ∧
       exec .clearCue s = .next (s.ends
         ((({ s.chip with
             cue := ⟨cues, s.chip.cue.list ++ ps.map absentGroup⟩
             mbx := s.chip.replied .done 0 } : Chip).posting [s.chip.event .cueCleared 0xFF 0 (ps.length : Nat)] []))))) ∧
  (∀ (n : Nat) (q : Cue), q.tolerance ≤ 4095 → q.limit ≤ 65535 →
     let off := 0x3000 + 16 * n
     presentGroup n q = [⟨off, q.label.extractLsb' 0 32, 0xF⟩, ⟨off + 4, q.label.extractLsb' 32 32, 0xF⟩,
       ⟨off + 8, BitVec.ofInt 32 q.position, 0xF⟩,
       ⟨off + 12, BitVec.ofNat 32 (q.tolerance + 0x8000 + 0x10000 * q.limit), 0xF⟩] ∧
     absentGroup n = [⟨off + 12, 0, 0xF⟩, ⟨off, 0, 0xF⟩, ⟨off + 4, 0, 0xF⟩, ⟨off + 8, 0, 0xF⟩])

/-- SET_POSITION (R4): BUSY in MOVING, STOPPING and CATCHING; NOT_THREADED while the path is not PRESENT; RANGE outside
the counter's range; otherwise the counter takes the value, POSITION_VALID is true, nothing else in the tracker
changes, and no event is posted.

CLEAR_FAULT (R37): in every case the fault word is cleared; with an amplifier fault input asserted CAUSE_ACTIVE; in
TRIPPED with a reel turning BUSY; in TRIPPED with both stopped THREADED or UNTHREADED by the path, the latch clear; in
any other state the latch is cleared, with detail NOTHING where it was clear already. -/
def Obligations.PositionAndFaultCommands : Prop :=
  (∀ s : State, inRun cmdSetPosition s.chip = true →
     let v := (s.chip.mbx.word 0).toInt
     let busy := s.chip.sup.ts = .moving ∨ s.chip.sup.ts = .stopping ∨ s.chip.sup.ts = .catching
     let inRange := -16777216 ≤ v ∧ v ≤ 16777215
     let answers (r : Result) (d : Byte) := s.ends { s.chip with mbx := s.chip.replied r d }
     (busy → exec .setPosition s = .next (answers .busy 0)) ∧
     (¬ busy → s.chip.trk.path ≠ .present → exec .setPosition s = .next (answers .refused 0x10)) ∧
     (¬ busy → s.chip.trk.path = .present → ¬ inRange → exec .setPosition s = .next (answers .refused 0x13)) ∧
     (¬ busy → s.chip.trk.path = .present → inRange →
       exec .setPosition s = .next (s.ends { s.chip with
         trk := { s.chip.trk with position := v, valid := true }, mbx := s.chip.replied .done 0 }))) ∧
  (∀ s : State, inRun cmdClearFault s.chip = true →
     let sup' := { s.chip.sup with trip := .none, side := .none, stop := .none }
     let flt := s.chip.pins.fltSupply || s.chip.pins.fltTup || s.chip.pins.fltCap
     let answers (x : Supervisor) (r : Result) (d : Byte) := s.ends { s.chip with sup := x, mbx := s.chip.replied r d }
     (flt = true → exec .clearFault s = .next (answers sup' .refused 0x14)) ∧
     (flt = false → s.chip.sup.ts = .tripped → s.chip.trk.reelsStopped = false →
       exec .clearFault s = .next (answers sup' .busy 0)) ∧
     (flt = false → s.chip.sup.ts = .tripped → s.chip.trk.reelsStopped = true →
       ∃ t, exec .clearFault s = .next t ∧
         t.chip.sup.ts = (if s.chip.trk.path = .present then .threaded else .unthreaded) ∧ t.chip.sup.latch = false ∧
         t.chip.sup.trip = .none ∧ t.chip.sup.side = .none ∧ t.chip.sup.stop = .none ∧
         t.chip.sup.threaded = (if s.chip.trk.path = .present then s.chip.sup.threaded else none) ∧
         t.chip.mbx = s.chip.replied .done 0 ∧ t.chip.trk = s.chip.trk ∧ t.chip.set = s.chip.set ∧ t.mem = s.mem) ∧
     (flt = false → s.chip.sup.ts ≠ .tripped → s.chip.sup.latch = true →
       exec .clearFault s = .next (answers { sup' with latch := false } .done 0)) ∧
     (flt = false → s.chip.sup.ts ≠ .tripped → s.chip.sup.latch = false →
       exec .clearFault s = .next (answers sup' .done 1)))

/-- OPEN_SETTINGS and CLOSE_SETTINGS (R172): each takes a length of 0 alone, and in every transport state settings become
open, or closed, with DONE, and detail NOTHING where they were so already; nothing else changes; settings are closed
after POWER_ON and after RESET_N_ASSERTED; the live window shows whether they are open. -/
def Obligations.SettingsOpenClose : Prop :=
  (∀ n, lengthOk cmdOpenSettings n = (n == 0) ∧ lengthOk cmdCloseSettings n = (n == 0)) ∧
  ∀ s : State,
    (inRun cmdOpenSettings s.chip = true →
      exec .openSettings s = .next (s.ends { s.chip with
        set := { s.chip.set with isOpen := true }
        mbx := s.chip.replied .done (if s.chip.set.isOpen then 1 else 0) })) ∧
    (inRun cmdCloseSettings s.chip = true →
      exec .closeSettings s = .next (s.ends { s.chip with
        set := { s.chip.set with isOpen := false }
        mbx := s.chip.replied .done (if s.chip.set.isOpen then 0 else 1) })) ∧
    (∀ p, ∃ t, exec (.powerOn p) s = .next t ∧ t.chip.set.isOpen = false) ∧
    (s.chip.mode ≠ .bypass → ∃ t, exec .resetNAsserted s = .next t ∧ t.chip.set.isOpen = false) ∧
    byteOf (liveWord s.chip 1) 1 = (if s.chip.set.isOpen then 1 else 0)

/-- SAVE_SETTINGS and RELOAD_SETTINGS (R175, R177): LOCKED with settings closed; NOT_STOPPED where the transport is
not UNTHREADED, THREADED, HELD or TRIPPED or a reel turns; otherwise the save, or the reload, runs, and the mailbox
stays in RUN.

SAVE_COMPLETE (R170, R173, R175): the store holds the image of the working settings, with its CRC-8, and passes its
check; the reply is DONE.

RELOAD_STORE_READ (R177, R178): the read gives the store's bytes but for what it gets wrong (log 32); the first read
that passes its check is taken, whatever the reads before it gave. A failing first or second read changes nothing but
the reads made and coming; a third gives STORE_BAD with the settings unchanged; a passing read with the transport no
longer admitted gives NOT_STOPPED; one that is admitted, with no grant active, makes the loaded settings the working
settings, with DONE.

The re-check of an active grant after a reload (R85), each choice checked afresh against the loaded settings: where
all pass nothing of the grant changes; fallbacks that fail leave the list, with GRANT_DERATED, detail RELOAD, the
active choice's own position and no notice; where the active choice fails, the first fallback that passes is active,
with GRANT_DERATED, its position and GRANT_CHANGED; where none passes, both rings are emptied FLUSHED and the grant is
absent, with GRANT_DROPPED, detail ACTIVE, value SETTINGS, and GRANT_CHANGED. The trim is clamped to the new range,
with TRIM_CLAMPED, detail GRANT, where that changes it.

The image (12.4): 512 bytes; each field of the general settings and of each profile's entry stands little-endian at
its offset, every byte between and after them 0, the CRC-8 of bytes 0 to 510 last; an image word is its four bytes;
and settings in their ranges, loaded from their own image, come back as they were (R178). -/
def Obligations.StoreCommandsTaken : Prop :=
  (∀ s : State, s.chip.set.saving = false → s.chip.set.reloading = false →
     let calm := (s.chip.sup.ts = .unthreaded ∨ s.chip.sup.ts = .threaded ∨ s.chip.sup.ts = .held ∨
       s.chip.sup.ts = .tripped) ∧ s.chip.trk.reelsStopped = true
     let answers (r : Result) (d : Byte) := s.ends { s.chip with mbx := s.chip.replied r d }
     (inRun cmdSaveSettings s.chip = true →
       (s.chip.set.isOpen = false → exec .saveSettings s = .next (answers .locked 0)) ∧
       (s.chip.set.isOpen = true → ¬ calm → exec .saveSettings s = .next (answers .refused 0x15)) ∧
       (s.chip.set.isOpen = true → calm →
         exec .saveSettings s = .next (s.ends { s.chip with set := { s.chip.set with saving := true } }))) ∧
     (inRun cmdReloadSettings s.chip = true →
       (s.chip.set.isOpen = false → exec .reloadSettings s = .next (answers .locked 0)) ∧
       (s.chip.set.isOpen = true → ¬ calm → exec .reloadSettings s = .next (answers .refused 0x15)) ∧
       (s.chip.set.isOpen = true → calm →
         exec .reloadSettings s = .next (s.ends { s.chip with
           set := { s.chip.set with reloading := true, reads := 0 } })))) ∧
  (∀ s : State, s.chip.set.saving = true →
     exec .saveComplete s = .next (s.ends { s.chip with
       set := { s.chip.set with nv := s.chip.set.image, saving := false }, mbx := s.chip.replied .done 0 }) ∧
     (s.chip.set.profs.length = 8 → storePasses s.chip.set.image = true)) ∧
  (∀ s : State, s.chip.set.reloading = true →
     let bytes := (s.chip.set.coming.headD []).foldl (fun bs e => bs.set e.1.toNat e.2) s.chip.set.nv
     let loaded := s.chip.set.load bytes
     let ended := { s.chip.set with reloading := false, reads := 0, coming := s.chip.set.coming.tail }
     (storePasses bytes = false → s.chip.set.reads + 1 < 3 →
       exec .reloadStoreRead s = .next (s.ends { s.chip with
         set := { s.chip.set with reads := s.chip.set.reads + 1, coming := s.chip.set.coming.tail } })) ∧
     (storePasses bytes = false → 3 ≤ s.chip.set.reads + 1 →
       exec .reloadStoreRead s = .next (s.ends { s.chip with
         set := ended, mbx := s.chip.replied .refused 0x16 })) ∧
     (storePasses bytes = true → s.chip.admitsStore = false →
       exec .reloadStoreRead s = .next (s.ends { s.chip with
         set := ended, mbx := s.chip.replied .refused 0x15 })) ∧
     (storePasses bytes = true → s.chip.admitsStore = true → s.chip.gnt.active = none →
       ∃ t, exec .reloadStoreRead s = .next t ∧ t.chip.set.gen = loaded.gen ∧ t.chip.set.coming = s.chip.set.coming.tail ∧
         t.chip.set.profs = loaded.profs ∧ t.chip.set.reloading = false ∧ t.chip.set.nv = s.chip.set.nv ∧
         t.chip.set.isOpen = s.chip.set.isOpen ∧ t.chip.mbx = s.chip.replied .done 0 ∧
         t.chip.mon = (if loaded.gen.period = s.chip.set.gen.period then s.chip.mon else ⟨.disarmed, 0⟩) ∧
         t.chip.ntc = s.chip.ntc ∧ t.chip.trk = s.chip.trk ∧ t.chip.pln = s.chip.pln ∧ t.mem = s.mem)) ∧
  (∀ (a : Granted) (s : State), s.chip.mode = .running → s.chip.set.reloading = true →
     let bytes := (s.chip.set.coming.headD []).foldl (fun bs e => bs.set e.1.toNat e.2) s.chip.set.nv
     storePasses bytes = true → s.chip.admitsStore = true → s.chip.gnt.active = some a →
     let passes (g : Granted) := checkChoice { s.chip with set := s.chip.set.load bytes } g.choice == .passed
     let kept := s.chip.gnt.fallback.filter passes
     let clamps (range : Nat) (trim : Int) := trim = max (-(range : Int)) (min (range : Int) s.chip.gnt.trim)
     let trimmed := s.chip.event .trimClamped 2 0 s.chip.gnt.trim
     ∃ t, exec .reloadStoreRead s = .next t ∧ t.chip.set.profs = (s.chip.set.load bytes).profs ∧
       t.chip.mbx = s.chip.replied .done 0 ∧ t.chip.sup.ts = s.chip.sup.ts ∧ t.chip.trk = s.chip.trk ∧ t.mem = s.mem ∧
       (passes a = true → kept = s.chip.gnt.fallback →
         t.chip.gnt = s.chip.gnt ∧ t.chip.evt = s.chip.evt ∧ t.chip.ntc = s.chip.ntc ∧ t.chip.pln = s.chip.pln) ∧
       (passes a = true → kept ≠ s.chip.gnt.fallback →
         t.chip.gnt = { s.chip.gnt with fallback := kept } ∧
         t.chip.evt.posted = s.chip.evt.posted ++ [s.chip.event .grantDerated 2 0 a.position] ∧
         t.chip.ntc = s.chip.ntc ∧ t.chip.pln = s.chip.pln) ∧
       (∀ g rest, passes a = false → kept = g :: rest →
         t.chip.gnt.active = some g ∧ t.chip.gnt.fallback = rest ∧ clamps g.choice.vari t.chip.gnt.trim ∧
         t.chip.evt.posted = s.chip.evt.posted ++ [s.chip.event .grantDerated 2 0 g.position] ++
           (if t.chip.gnt.trim = s.chip.gnt.trim then [] else [trimmed]) ∧
         t.chip.ntc = (if t.chip.gnt.trim = s.chip.gnt.trim then s.chip.ntc.post .grantChanged
           else (s.chip.ntc.post .grantChanged).post .trimClamped) ∧ t.chip.pln = s.chip.pln) ∧
       (passes a = false → kept = [] → s.chip.eng.cur = none →
         t.chip.gnt.active = none ∧ t.chip.gnt.fallback = [] ∧ t.chip.gnt.trim = 0 ∧ t.chip.pln.urgent.queued = 0 ∧
         t.chip.pln.main.queued = 0 ∧
         t.chip.evt.posted = s.chip.evt.posted ++ [s.chip.event .grantDropped 1 0 4] ++
           (if s.chip.gnt.trim = 0 then [] else [trimmed]) ∧
         t.chip.ntc = (if s.chip.gnt.trim = 0 then s.chip.ntc.post .grantChanged
           else (s.chip.ntc.post .trimClamped).post .grantChanged))) ∧
  (∀ s : Store, s.profs.length = 8 →
     let holds (base : Nat) (e : Nat × Nat × Nat) := ∀ i, i < e.2.1 →
       s.image.getD (base + e.1 + i) 0 = BitVec.ofNat 8 (e.2.2 / 256 ^ i)
     let g := s.gen
     let gOk := 100 ≤ g.settle ∧ g.settle ≤ 3000 ∧ g.offDelay ≤ 1500 ∧ 40 ≤ g.pinchTime ∧ g.pinchTime ≤ 400 ∧
       5 ≤ g.breakTime ∧ g.breakTime ≤ 100 ∧ 50 ≤ g.excursion ∧ g.excursion ≤ 2000 ∧ g.starve ≤ 2000 ∧
       (g.period = 0 ∨ g.period = 50 ∨ g.period = 150 ∨ g.period = 400 ∨ g.period = 1200) ∧ g.catchLimit ≤ 120000 ∧
       g.brakeSafe ≤ 10000
     let ceiling (w : Nat) : Nat := if w = 0 then 250 else if w = 1 then 400 else if w = 2 then 600 else 800
     let ok (x : Profile) := x.width ≤ 3 ∧ x.park ≤ x.maxTension ∧ x.nominal ≤ x.maxTension ∧ x.wind ≤ x.maxTension ∧
       x.maxTension ≤ ceiling x.width ∧ x.slack < x.low ∧ x.low < x.high ∧ x.high < x.overLevel ∧ x.overLevel ≤ 4095 ∧
       200 ≤ x.hub ∧ x.hub < x.full ∧ x.full ≤ 2000 ∧ x.hub + x.nearMargin ≤ x.full ∧ x.nearSpeed ≤ x.maxSpeed ∧
       x.maxSpeed ≤ 120000 ∧ x.lifterSpeed ≤ 120000 ∧ 100 ≤ x.maxAccel ∧ x.maxAccel ≤ 30000 ∧ 10 ≤ x.creepSpeed ∧
       x.creepSpeed ≤ 10000 ∧ x.creepDistance ≤ 32000
     s.image.length = 512 ∧
     (∀ e ∈ [(0, 2, g.settle), (2, 2, g.offDelay), (4, 2, g.pinchTime), (6, 2, g.breakTime), (8, 2, g.excursion),
         (10, 2, g.starve), (12, 2, g.period), (14, 1, g.stopMode.toNat), (15, 1, 0), (16, 4, g.catchLimit),
         (20, 2, g.brakeSafe), (22, 2, 0), (24, 2, g.defaultMask.toNat), (26, 38, 0), (448, 63, 0)], holds 0 e) ∧
     (∀ n x, s.profs[n]? = some x → ∀ e ∈ [(0, 8, x.label.toNat), (8, 1, x.valid.toNat), (9, 1, x.width), (10, 2, x.park),
         (12, 2, x.nominal), (14, 2, x.wind), (16, 2, x.maxTension), (18, 2, x.slack), (20, 2, x.low), (22, 2, x.high),
         (24, 2, x.overLevel), (26, 2, x.hub), (28, 2, x.full), (30, 2, x.nearMargin), (32, 3, x.nearSpeed),
         (35, 3, x.maxSpeed), (38, 3, x.lifterSpeed), (41, 1, 0), (42, 2, x.maxAccel), (44, 2, x.creepSpeed),
         (46, 2, x.creepDistance)], holds (64 + 48 * n) e) ∧
     s.image.getD 511 0 = crc8 (s.image.take 511) ∧
     (∀ p, s.imageWord p = wordOf (s.image.getD p 0) (s.image.getD (p + 1) 0) (s.image.getD (p + 2) 0)
       (s.image.getD (p + 3) 0)) ∧
     (gOk → (∀ x ∈ s.profs, ok x) → s.load s.image = s))

/-- The CRC-8 (R170): 0 of no bytes; each byte in turn is exclusive-ored into the register, which then eight times is
shifted left by one and, where its top bit was 1, exclusive-ored with 0x07. Of the byte 0x00 it is 0x00, of 0x01 0x07,
of 0x31 to 0x39 0xF4. The store passes where the CRC-8 of its bytes 0..510 is byte 511; a command's check passes where
the byte after its data is the CRC-8 of the data, and one of length 0 where the byte at 0x0208 is 0. -/
def Obligations.CrcIsRule : Prop :=
  let shift (r : Byte) : Byte := if r.getLsbD 7 then (r <<< 1) ^^^ 0x07 else r <<< 1
  crc8 [] = 0 ∧ (∀ bs b, crc8 (bs ++ [b]) = Nat.repeat shift 8 (crc8 bs ^^^ b)) ∧
    crc8 [0x00] = 0x00 ∧ crc8 [0x01] = 0x07 ∧
    crc8 [0x31, 0x32, 0x33, 0x34, 0x35, 0x36, 0x37, 0x38, 0x39] = 0xF4 ∧
    (∀ nv : List Byte, storePasses nv = true ↔ crc8 (nv.take 511) = nv.getD 511 0) ∧
    (∀ (c : Chip) (cmd : Cmd), c.mbx.cmd = some cmd → cmd.check = true → c.mbx.aborted = false →
      let bytes := c.mbx.got.flatMap wordBytes
      (bytes.getD cmd.length 0 = crc8 (bytes.take cmd.length) → (fetchJudged c).mbx.st = .run) ∧
      (bytes.getD cmd.length 0 ≠ crc8 (bytes.take cmd.length) →
        (fetchJudged c).mbx = { c.mbx with st := .reply, reply := some ⟨.badCheck, 0⟩ })) ∧
    ∀ (c : Chip) (cmd : Cmd) (w : Word), c.mbx.cmd = some cmd → cmd.length = 0 → cmd.check = true → c.mbx.got = [w] →
      c.mbx.aborted = false → byteOf w 0 = 0 → (fetchJudged c).mbx.st = .run
end

