-- ==== Sys2Proof/Laws/State.lean ====
section
/-! SUPPORT. One lemma for each field of the part and each update of one block, and for the state's own updates. -/

namespace Sys2Proof.Laws

open Sys2Proof.Machine

@[simp] theorem onTrk_mode (f : Tracker → Tracker) (c : Chip) : (onTrk f c).mode = c.mode := rfl
@[simp] theorem onTrk_clock (f : Tracker → Tracker) (c : Chip) : (onTrk f c).clock = c.clock := rfl
@[simp] theorem onTrk_pins (f : Tracker → Tracker) (c : Chip) : (onTrk f c).pins = c.pins := rfl
@[simp] theorem onTrk_free (f : Tracker → Tracker) (c : Chip) : (onTrk f c).free = c.free := rfl
@[simp] theorem onTrk_trk (f : Tracker → Tracker) (c : Chip) : (onTrk f c).trk = f c.trk := rfl
@[simp] theorem onTrk_sup (f : Tracker → Tracker) (c : Chip) : (onTrk f c).sup = c.sup := rfl
@[simp] theorem onTrk_drv (f : Tracker → Tracker) (c : Chip) : (onTrk f c).drv = c.drv := rfl
@[simp] theorem onTrk_gnt (f : Tracker → Tracker) (c : Chip) : (onTrk f c).gnt = c.gnt := rfl
@[simp] theorem onTrk_pln (f : Tracker → Tracker) (c : Chip) : (onTrk f c).pln = c.pln := rfl
@[simp] theorem onTrk_eng (f : Tracker → Tracker) (c : Chip) : (onTrk f c).eng = c.eng := rfl
@[simp] theorem onTrk_cue (f : Tracker → Tracker) (c : Chip) : (onTrk f c).cue = c.cue := rfl
@[simp] theorem onTrk_mbx (f : Tracker → Tracker) (c : Chip) : (onTrk f c).mbx = c.mbx := rfl
@[simp] theorem onTrk_set (f : Tracker → Tracker) (c : Chip) : (onTrk f c).set = c.set := rfl
@[simp] theorem onTrk_evt (f : Tracker → Tracker) (c : Chip) : (onTrk f c).evt = c.evt := rfl
@[simp] theorem onTrk_ntc (f : Tracker → Tracker) (c : Chip) : (onTrk f c).ntc = c.ntc := rfl
@[simp] theorem onTrk_mon (f : Tracker → Tracker) (c : Chip) : (onTrk f c).mon = c.mon := rfl
@[simp] theorem onTrk_bus (f : Tracker → Tracker) (c : Chip) : (onTrk f c).bus = c.bus := rfl

@[simp] theorem onSup_mode (f : Supervisor → Supervisor) (c : Chip) : (onSup f c).mode = c.mode := rfl
@[simp] theorem onSup_clock (f : Supervisor → Supervisor) (c : Chip) : (onSup f c).clock = c.clock := rfl
@[simp] theorem onSup_pins (f : Supervisor → Supervisor) (c : Chip) : (onSup f c).pins = c.pins := rfl
@[simp] theorem onSup_free (f : Supervisor → Supervisor) (c : Chip) : (onSup f c).free = c.free := rfl
@[simp] theorem onSup_trk (f : Supervisor → Supervisor) (c : Chip) : (onSup f c).trk = c.trk := rfl
@[simp] theorem onSup_sup (f : Supervisor → Supervisor) (c : Chip) : (onSup f c).sup = f c.sup := rfl
@[simp] theorem onSup_drv (f : Supervisor → Supervisor) (c : Chip) : (onSup f c).drv = c.drv := rfl
@[simp] theorem onSup_gnt (f : Supervisor → Supervisor) (c : Chip) : (onSup f c).gnt = c.gnt := rfl
@[simp] theorem onSup_pln (f : Supervisor → Supervisor) (c : Chip) : (onSup f c).pln = c.pln := rfl
@[simp] theorem onSup_eng (f : Supervisor → Supervisor) (c : Chip) : (onSup f c).eng = c.eng := rfl
@[simp] theorem onSup_cue (f : Supervisor → Supervisor) (c : Chip) : (onSup f c).cue = c.cue := rfl
@[simp] theorem onSup_mbx (f : Supervisor → Supervisor) (c : Chip) : (onSup f c).mbx = c.mbx := rfl
@[simp] theorem onSup_set (f : Supervisor → Supervisor) (c : Chip) : (onSup f c).set = c.set := rfl
@[simp] theorem onSup_evt (f : Supervisor → Supervisor) (c : Chip) : (onSup f c).evt = c.evt := rfl
@[simp] theorem onSup_ntc (f : Supervisor → Supervisor) (c : Chip) : (onSup f c).ntc = c.ntc := rfl
@[simp] theorem onSup_mon (f : Supervisor → Supervisor) (c : Chip) : (onSup f c).mon = c.mon := rfl
@[simp] theorem onSup_bus (f : Supervisor → Supervisor) (c : Chip) : (onSup f c).bus = c.bus := rfl

@[simp] theorem onDrive_mode (f : Drive → Drive) (c : Chip) : (onDrive f c).mode = c.mode := rfl
@[simp] theorem onDrive_clock (f : Drive → Drive) (c : Chip) : (onDrive f c).clock = c.clock := rfl
@[simp] theorem onDrive_pins (f : Drive → Drive) (c : Chip) : (onDrive f c).pins = c.pins := rfl
@[simp] theorem onDrive_free (f : Drive → Drive) (c : Chip) : (onDrive f c).free = c.free := rfl
@[simp] theorem onDrive_trk (f : Drive → Drive) (c : Chip) : (onDrive f c).trk = c.trk := rfl
@[simp] theorem onDrive_sup (f : Drive → Drive) (c : Chip) : (onDrive f c).sup = c.sup := rfl
@[simp] theorem onDrive_drv (f : Drive → Drive) (c : Chip) : (onDrive f c).drv = f c.drv := rfl
@[simp] theorem onDrive_gnt (f : Drive → Drive) (c : Chip) : (onDrive f c).gnt = c.gnt := rfl
@[simp] theorem onDrive_pln (f : Drive → Drive) (c : Chip) : (onDrive f c).pln = c.pln := rfl
@[simp] theorem onDrive_eng (f : Drive → Drive) (c : Chip) : (onDrive f c).eng = c.eng := rfl
@[simp] theorem onDrive_cue (f : Drive → Drive) (c : Chip) : (onDrive f c).cue = c.cue := rfl
@[simp] theorem onDrive_mbx (f : Drive → Drive) (c : Chip) : (onDrive f c).mbx = c.mbx := rfl
@[simp] theorem onDrive_set (f : Drive → Drive) (c : Chip) : (onDrive f c).set = c.set := rfl
@[simp] theorem onDrive_evt (f : Drive → Drive) (c : Chip) : (onDrive f c).evt = c.evt := rfl
@[simp] theorem onDrive_ntc (f : Drive → Drive) (c : Chip) : (onDrive f c).ntc = c.ntc := rfl
@[simp] theorem onDrive_mon (f : Drive → Drive) (c : Chip) : (onDrive f c).mon = c.mon := rfl
@[simp] theorem onDrive_bus (f : Drive → Drive) (c : Chip) : (onDrive f c).bus = c.bus := rfl

@[simp] theorem onGnt_mode (f : GrantUnit → GrantUnit) (c : Chip) : (onGnt f c).mode = c.mode := rfl
@[simp] theorem onGnt_clock (f : GrantUnit → GrantUnit) (c : Chip) : (onGnt f c).clock = c.clock := rfl
@[simp] theorem onGnt_pins (f : GrantUnit → GrantUnit) (c : Chip) : (onGnt f c).pins = c.pins := rfl
@[simp] theorem onGnt_free (f : GrantUnit → GrantUnit) (c : Chip) : (onGnt f c).free = c.free := rfl
@[simp] theorem onGnt_trk (f : GrantUnit → GrantUnit) (c : Chip) : (onGnt f c).trk = c.trk := rfl
@[simp] theorem onGnt_sup (f : GrantUnit → GrantUnit) (c : Chip) : (onGnt f c).sup = c.sup := rfl
@[simp] theorem onGnt_drv (f : GrantUnit → GrantUnit) (c : Chip) : (onGnt f c).drv = c.drv := rfl
@[simp] theorem onGnt_gnt (f : GrantUnit → GrantUnit) (c : Chip) : (onGnt f c).gnt = f c.gnt := rfl
@[simp] theorem onGnt_pln (f : GrantUnit → GrantUnit) (c : Chip) : (onGnt f c).pln = c.pln := rfl
@[simp] theorem onGnt_eng (f : GrantUnit → GrantUnit) (c : Chip) : (onGnt f c).eng = c.eng := rfl
@[simp] theorem onGnt_cue (f : GrantUnit → GrantUnit) (c : Chip) : (onGnt f c).cue = c.cue := rfl
@[simp] theorem onGnt_mbx (f : GrantUnit → GrantUnit) (c : Chip) : (onGnt f c).mbx = c.mbx := rfl
@[simp] theorem onGnt_set (f : GrantUnit → GrantUnit) (c : Chip) : (onGnt f c).set = c.set := rfl
@[simp] theorem onGnt_evt (f : GrantUnit → GrantUnit) (c : Chip) : (onGnt f c).evt = c.evt := rfl
@[simp] theorem onGnt_ntc (f : GrantUnit → GrantUnit) (c : Chip) : (onGnt f c).ntc = c.ntc := rfl
@[simp] theorem onGnt_mon (f : GrantUnit → GrantUnit) (c : Chip) : (onGnt f c).mon = c.mon := rfl
@[simp] theorem onGnt_bus (f : GrantUnit → GrantUnit) (c : Chip) : (onGnt f c).bus = c.bus := rfl

@[simp] theorem onPln_mode (f : Plan → Plan) (c : Chip) : (onPln f c).mode = c.mode := rfl
@[simp] theorem onPln_clock (f : Plan → Plan) (c : Chip) : (onPln f c).clock = c.clock := rfl
@[simp] theorem onPln_pins (f : Plan → Plan) (c : Chip) : (onPln f c).pins = c.pins := rfl
@[simp] theorem onPln_free (f : Plan → Plan) (c : Chip) : (onPln f c).free = c.free := rfl
@[simp] theorem onPln_trk (f : Plan → Plan) (c : Chip) : (onPln f c).trk = c.trk := rfl
@[simp] theorem onPln_sup (f : Plan → Plan) (c : Chip) : (onPln f c).sup = c.sup := rfl
@[simp] theorem onPln_drv (f : Plan → Plan) (c : Chip) : (onPln f c).drv = c.drv := rfl
@[simp] theorem onPln_gnt (f : Plan → Plan) (c : Chip) : (onPln f c).gnt = c.gnt := rfl
@[simp] theorem onPln_pln (f : Plan → Plan) (c : Chip) : (onPln f c).pln = f c.pln := rfl
@[simp] theorem onPln_eng (f : Plan → Plan) (c : Chip) : (onPln f c).eng = c.eng := rfl
@[simp] theorem onPln_cue (f : Plan → Plan) (c : Chip) : (onPln f c).cue = c.cue := rfl
@[simp] theorem onPln_mbx (f : Plan → Plan) (c : Chip) : (onPln f c).mbx = c.mbx := rfl
@[simp] theorem onPln_set (f : Plan → Plan) (c : Chip) : (onPln f c).set = c.set := rfl
@[simp] theorem onPln_evt (f : Plan → Plan) (c : Chip) : (onPln f c).evt = c.evt := rfl
@[simp] theorem onPln_ntc (f : Plan → Plan) (c : Chip) : (onPln f c).ntc = c.ntc := rfl
@[simp] theorem onPln_mon (f : Plan → Plan) (c : Chip) : (onPln f c).mon = c.mon := rfl
@[simp] theorem onPln_bus (f : Plan → Plan) (c : Chip) : (onPln f c).bus = c.bus := rfl

@[simp] theorem onEng_mode (f : Engine → Engine) (c : Chip) : (onEng f c).mode = c.mode := rfl
@[simp] theorem onEng_clock (f : Engine → Engine) (c : Chip) : (onEng f c).clock = c.clock := rfl
@[simp] theorem onEng_pins (f : Engine → Engine) (c : Chip) : (onEng f c).pins = c.pins := rfl
@[simp] theorem onEng_free (f : Engine → Engine) (c : Chip) : (onEng f c).free = c.free := rfl
@[simp] theorem onEng_trk (f : Engine → Engine) (c : Chip) : (onEng f c).trk = c.trk := rfl
@[simp] theorem onEng_sup (f : Engine → Engine) (c : Chip) : (onEng f c).sup = c.sup := rfl
@[simp] theorem onEng_drv (f : Engine → Engine) (c : Chip) : (onEng f c).drv = c.drv := rfl
@[simp] theorem onEng_gnt (f : Engine → Engine) (c : Chip) : (onEng f c).gnt = c.gnt := rfl
@[simp] theorem onEng_pln (f : Engine → Engine) (c : Chip) : (onEng f c).pln = c.pln := rfl
@[simp] theorem onEng_eng (f : Engine → Engine) (c : Chip) : (onEng f c).eng = f c.eng := rfl
@[simp] theorem onEng_cue (f : Engine → Engine) (c : Chip) : (onEng f c).cue = c.cue := rfl
@[simp] theorem onEng_mbx (f : Engine → Engine) (c : Chip) : (onEng f c).mbx = c.mbx := rfl
@[simp] theorem onEng_set (f : Engine → Engine) (c : Chip) : (onEng f c).set = c.set := rfl
@[simp] theorem onEng_evt (f : Engine → Engine) (c : Chip) : (onEng f c).evt = c.evt := rfl
@[simp] theorem onEng_ntc (f : Engine → Engine) (c : Chip) : (onEng f c).ntc = c.ntc := rfl
@[simp] theorem onEng_mon (f : Engine → Engine) (c : Chip) : (onEng f c).mon = c.mon := rfl
@[simp] theorem onEng_bus (f : Engine → Engine) (c : Chip) : (onEng f c).bus = c.bus := rfl

@[simp] theorem onMbx_mode (f : Mailbox → Mailbox) (c : Chip) : (onMbx f c).mode = c.mode := rfl
@[simp] theorem onMbx_clock (f : Mailbox → Mailbox) (c : Chip) : (onMbx f c).clock = c.clock := rfl
@[simp] theorem onMbx_pins (f : Mailbox → Mailbox) (c : Chip) : (onMbx f c).pins = c.pins := rfl
@[simp] theorem onMbx_free (f : Mailbox → Mailbox) (c : Chip) : (onMbx f c).free = c.free := rfl
@[simp] theorem onMbx_trk (f : Mailbox → Mailbox) (c : Chip) : (onMbx f c).trk = c.trk := rfl
@[simp] theorem onMbx_sup (f : Mailbox → Mailbox) (c : Chip) : (onMbx f c).sup = c.sup := rfl
@[simp] theorem onMbx_drv (f : Mailbox → Mailbox) (c : Chip) : (onMbx f c).drv = c.drv := rfl
@[simp] theorem onMbx_gnt (f : Mailbox → Mailbox) (c : Chip) : (onMbx f c).gnt = c.gnt := rfl
@[simp] theorem onMbx_pln (f : Mailbox → Mailbox) (c : Chip) : (onMbx f c).pln = c.pln := rfl
@[simp] theorem onMbx_eng (f : Mailbox → Mailbox) (c : Chip) : (onMbx f c).eng = c.eng := rfl
@[simp] theorem onMbx_cue (f : Mailbox → Mailbox) (c : Chip) : (onMbx f c).cue = c.cue := rfl
@[simp] theorem onMbx_mbx (f : Mailbox → Mailbox) (c : Chip) : (onMbx f c).mbx = f c.mbx := rfl
@[simp] theorem onMbx_set (f : Mailbox → Mailbox) (c : Chip) : (onMbx f c).set = c.set := rfl
@[simp] theorem onMbx_evt (f : Mailbox → Mailbox) (c : Chip) : (onMbx f c).evt = c.evt := rfl
@[simp] theorem onMbx_ntc (f : Mailbox → Mailbox) (c : Chip) : (onMbx f c).ntc = c.ntc := rfl
@[simp] theorem onMbx_mon (f : Mailbox → Mailbox) (c : Chip) : (onMbx f c).mon = c.mon := rfl
@[simp] theorem onMbx_bus (f : Mailbox → Mailbox) (c : Chip) : (onMbx f c).bus = c.bus := rfl

@[simp] theorem onSet_mode (f : Store → Store) (c : Chip) : (onSet f c).mode = c.mode := rfl
@[simp] theorem onSet_clock (f : Store → Store) (c : Chip) : (onSet f c).clock = c.clock := rfl
@[simp] theorem onSet_pins (f : Store → Store) (c : Chip) : (onSet f c).pins = c.pins := rfl
@[simp] theorem onSet_free (f : Store → Store) (c : Chip) : (onSet f c).free = c.free := rfl
@[simp] theorem onSet_trk (f : Store → Store) (c : Chip) : (onSet f c).trk = c.trk := rfl
@[simp] theorem onSet_sup (f : Store → Store) (c : Chip) : (onSet f c).sup = c.sup := rfl
@[simp] theorem onSet_drv (f : Store → Store) (c : Chip) : (onSet f c).drv = c.drv := rfl
@[simp] theorem onSet_gnt (f : Store → Store) (c : Chip) : (onSet f c).gnt = c.gnt := rfl
@[simp] theorem onSet_pln (f : Store → Store) (c : Chip) : (onSet f c).pln = c.pln := rfl
@[simp] theorem onSet_eng (f : Store → Store) (c : Chip) : (onSet f c).eng = c.eng := rfl
@[simp] theorem onSet_cue (f : Store → Store) (c : Chip) : (onSet f c).cue = c.cue := rfl
@[simp] theorem onSet_mbx (f : Store → Store) (c : Chip) : (onSet f c).mbx = c.mbx := rfl
@[simp] theorem onSet_set (f : Store → Store) (c : Chip) : (onSet f c).set = f c.set := rfl
@[simp] theorem onSet_evt (f : Store → Store) (c : Chip) : (onSet f c).evt = c.evt := rfl
@[simp] theorem onSet_ntc (f : Store → Store) (c : Chip) : (onSet f c).ntc = c.ntc := rfl
@[simp] theorem onSet_mon (f : Store → Store) (c : Chip) : (onSet f c).mon = c.mon := rfl
@[simp] theorem onSet_bus (f : Store → Store) (c : Chip) : (onSet f c).bus = c.bus := rfl

@[simp] theorem onEvt_mode (f : EventWriter → EventWriter) (c : Chip) : (onEvt f c).mode = c.mode := rfl
@[simp] theorem onEvt_clock (f : EventWriter → EventWriter) (c : Chip) : (onEvt f c).clock = c.clock := rfl
@[simp] theorem onEvt_pins (f : EventWriter → EventWriter) (c : Chip) : (onEvt f c).pins = c.pins := rfl
@[simp] theorem onEvt_free (f : EventWriter → EventWriter) (c : Chip) : (onEvt f c).free = c.free := rfl
@[simp] theorem onEvt_trk (f : EventWriter → EventWriter) (c : Chip) : (onEvt f c).trk = c.trk := rfl
@[simp] theorem onEvt_sup (f : EventWriter → EventWriter) (c : Chip) : (onEvt f c).sup = c.sup := rfl
@[simp] theorem onEvt_drv (f : EventWriter → EventWriter) (c : Chip) : (onEvt f c).drv = c.drv := rfl
@[simp] theorem onEvt_gnt (f : EventWriter → EventWriter) (c : Chip) : (onEvt f c).gnt = c.gnt := rfl
@[simp] theorem onEvt_pln (f : EventWriter → EventWriter) (c : Chip) : (onEvt f c).pln = c.pln := rfl
@[simp] theorem onEvt_eng (f : EventWriter → EventWriter) (c : Chip) : (onEvt f c).eng = c.eng := rfl
@[simp] theorem onEvt_cue (f : EventWriter → EventWriter) (c : Chip) : (onEvt f c).cue = c.cue := rfl
@[simp] theorem onEvt_mbx (f : EventWriter → EventWriter) (c : Chip) : (onEvt f c).mbx = c.mbx := rfl
@[simp] theorem onEvt_set (f : EventWriter → EventWriter) (c : Chip) : (onEvt f c).set = c.set := rfl
@[simp] theorem onEvt_evt (f : EventWriter → EventWriter) (c : Chip) : (onEvt f c).evt = f c.evt := rfl
@[simp] theorem onEvt_ntc (f : EventWriter → EventWriter) (c : Chip) : (onEvt f c).ntc = c.ntc := rfl
@[simp] theorem onEvt_mon (f : EventWriter → EventWriter) (c : Chip) : (onEvt f c).mon = c.mon := rfl
@[simp] theorem onEvt_bus (f : EventWriter → EventWriter) (c : Chip) : (onEvt f c).bus = c.bus := rfl

@[simp] theorem onMon_mode (f : Monitor → Monitor) (c : Chip) : (onMon f c).mode = c.mode := rfl
@[simp] theorem onMon_clock (f : Monitor → Monitor) (c : Chip) : (onMon f c).clock = c.clock := rfl
@[simp] theorem onMon_pins (f : Monitor → Monitor) (c : Chip) : (onMon f c).pins = c.pins := rfl
@[simp] theorem onMon_free (f : Monitor → Monitor) (c : Chip) : (onMon f c).free = c.free := rfl
@[simp] theorem onMon_trk (f : Monitor → Monitor) (c : Chip) : (onMon f c).trk = c.trk := rfl
@[simp] theorem onMon_sup (f : Monitor → Monitor) (c : Chip) : (onMon f c).sup = c.sup := rfl
@[simp] theorem onMon_drv (f : Monitor → Monitor) (c : Chip) : (onMon f c).drv = c.drv := rfl
@[simp] theorem onMon_gnt (f : Monitor → Monitor) (c : Chip) : (onMon f c).gnt = c.gnt := rfl
@[simp] theorem onMon_pln (f : Monitor → Monitor) (c : Chip) : (onMon f c).pln = c.pln := rfl
@[simp] theorem onMon_eng (f : Monitor → Monitor) (c : Chip) : (onMon f c).eng = c.eng := rfl
@[simp] theorem onMon_cue (f : Monitor → Monitor) (c : Chip) : (onMon f c).cue = c.cue := rfl
@[simp] theorem onMon_mbx (f : Monitor → Monitor) (c : Chip) : (onMon f c).mbx = c.mbx := rfl
@[simp] theorem onMon_set (f : Monitor → Monitor) (c : Chip) : (onMon f c).set = c.set := rfl
@[simp] theorem onMon_evt (f : Monitor → Monitor) (c : Chip) : (onMon f c).evt = c.evt := rfl
@[simp] theorem onMon_ntc (f : Monitor → Monitor) (c : Chip) : (onMon f c).ntc = c.ntc := rfl
@[simp] theorem onMon_mon (f : Monitor → Monitor) (c : Chip) : (onMon f c).mon = f c.mon := rfl
@[simp] theorem onMon_bus (f : Monitor → Monitor) (c : Chip) : (onMon f c).bus = c.bus := rfl

@[simp] theorem onBus_mode (f : Bus → Bus) (c : Chip) : (onBus f c).mode = c.mode := rfl
@[simp] theorem onBus_clock (f : Bus → Bus) (c : Chip) : (onBus f c).clock = c.clock := rfl
@[simp] theorem onBus_pins (f : Bus → Bus) (c : Chip) : (onBus f c).pins = c.pins := rfl
@[simp] theorem onBus_free (f : Bus → Bus) (c : Chip) : (onBus f c).free = c.free := rfl
@[simp] theorem onBus_trk (f : Bus → Bus) (c : Chip) : (onBus f c).trk = c.trk := rfl
@[simp] theorem onBus_sup (f : Bus → Bus) (c : Chip) : (onBus f c).sup = c.sup := rfl
@[simp] theorem onBus_drv (f : Bus → Bus) (c : Chip) : (onBus f c).drv = c.drv := rfl
@[simp] theorem onBus_gnt (f : Bus → Bus) (c : Chip) : (onBus f c).gnt = c.gnt := rfl
@[simp] theorem onBus_pln (f : Bus → Bus) (c : Chip) : (onBus f c).pln = c.pln := rfl
@[simp] theorem onBus_eng (f : Bus → Bus) (c : Chip) : (onBus f c).eng = c.eng := rfl
@[simp] theorem onBus_cue (f : Bus → Bus) (c : Chip) : (onBus f c).cue = c.cue := rfl
@[simp] theorem onBus_mbx (f : Bus → Bus) (c : Chip) : (onBus f c).mbx = c.mbx := rfl
@[simp] theorem onBus_set (f : Bus → Bus) (c : Chip) : (onBus f c).set = c.set := rfl
@[simp] theorem onBus_evt (f : Bus → Bus) (c : Chip) : (onBus f c).evt = c.evt := rfl
@[simp] theorem onBus_ntc (f : Bus → Bus) (c : Chip) : (onBus f c).ntc = c.ntc := rfl
@[simp] theorem onBus_mon (f : Bus → Bus) (c : Chip) : (onBus f c).mon = c.mon := rfl
@[simp] theorem onBus_bus (f : Bus → Bus) (c : Chip) : (onBus f c).bus = f c.bus := rfl

@[simp] theorem onChip_chip (s : State) (f : Chip → Chip) : (s.onChip f).chip = f s.chip := rfl
@[simp] theorem onChip_mem (s : State) (f : Chip → Chip) : (s.onChip f).mem = s.mem := rfl
@[simp] theorem onChip_pending (s : State) (f : Chip → Chip) : (s.onChip f).pending = s.pending := rfl
@[simp] theorem popped_chip (s : State) (q : List Instr) : (s.popped q).chip = s.chip := rfl
@[simp] theorem popped_mem (s : State) (q : List Instr) : (s.popped q).mem = s.mem := rfl
@[simp] theorem popped_pending (s : State) (q : List Instr) : (s.popped q).pending = q := rfl

end Sys2Proof.Laws
end

