-- ==== Sys2Proof/Laws/Done.lean ====
section
/-! SUPPORT. What the end of a command (`done`: `tail`, then the arbiter) can change, said once. -/

namespace Sys2Proof.Laws

open Sys2Proof.Machine

theorem markClipped_plain (c : Chip) : (markClipped c).plain = c.plain := by
  simp only [markClipped, onSeg, onEng, Chip.plain, Option.map_map]
  rfl

theorem askLifters_plain (c : Chip) : (askLifters c).plain = c.plain := by
  simp only [askLifters]
  split
  · split
    · rfl
    · rfl
  · rfl

theorem retarget_plain (c : Chip) : (retarget c).plain = c.plain := by
  simp only [retarget]
  split
  · split
    · rfl
    · rfl
  · rfl

theorem torqued_torque (o : ReelOut) (t : Int) : { o.torqued t with torque := 0 } = { o with torque := 0 } := by
  simp only [ReelOut.torqued]; split <;> rfl

theorem formTorques_plain (c : Chip) : (formTorques c).plain = c.plain := by
  simp only [formTorques]
  split
  · simp only [Chip.plain, onDrive, torqued_torque]
  · rfl

theorem tail_plain (c : Chip) : (tail c).plain = c.plain := by
  simp only [tail]
  split
  · rw [formTorques_plain, retarget_plain, askLifters_plain, markClipped_plain]
  · rfl

/-! The end before the arbiter leaves the path as it stands. -/

theorem askLifters_bus (c : Chip) : (askLifters c).bus = c.bus := by
  simp only [askLifters, orderLifters, onDrive]; repeat' split
  all_goals rfl

theorem retarget_bus (c : Chip) : (retarget c).bus = c.bus := by
  simp only [retarget, onSup]; repeat' split
  all_goals rfl

theorem formTorques_bus (c : Chip) : (formTorques c).bus = c.bus := by
  simp only [formTorques, onDrive]; split <;> rfl

@[simp] theorem tail_bus (c : Chip) : (tail c).bus = c.bus := by
  unfold tail
  split
  · rw [formTorques_bus, retarget_bus, askLifters_bus]; rfl
  · rfl

theorem grant_plain (b : Bus) (cy : Cycle) :
    { b.grant cy with port := none, passOver := 0, host := (b.grant cy).host.map fun h => ⟨h.cyc, .held⟩ } =
      ({ b with port := none, passOver := 0, host := b.host.map fun h => ⟨h.cyc, .held⟩ } : Bus) := by
  cases cy <;> simp [Bus.grant, HostPort.atPort, Function.comp_def]

theorem arbitrate_plain (c : Chip) : (arbitrate c).plain = c.plain := by
  simp only [arbitrate]
  split
  · rfl
  · split
    · simp only [Chip.plain, onBus, grant_plain]
    · rfl

theorem done_plain (c : Chip) : (done c).plain = c.plain := (arbitrate_plain _).trans (tail_plain c)

/-- Two parts that are one but for what a command's end may change agree in every other block. -/
theorem plain_blocks {a b : Chip} (h : a.plain = b.plain) :
    a.mode = b.mode ∧ a.clock = b.clock ∧ a.pins = b.pins ∧ a.trk = b.trk ∧ a.gnt = b.gnt ∧ a.pln = b.pln ∧
      a.cue = b.cue ∧ a.mbx = b.mbx ∧ a.set = b.set ∧ a.evt = b.evt ∧ a.ntc = b.ntc ∧ a.mon = b.mon := by
  simp only [Chip.plain, Chip.mk.injEq] at h
  tauto

@[simp] theorem done_mode (c : Chip) : (done c).mode = c.mode := (plain_blocks (done_plain c)).1
@[simp] theorem done_clock (c : Chip) : (done c).clock = c.clock := (plain_blocks (done_plain c)).2.1
@[simp] theorem done_pins (c : Chip) : (done c).pins = c.pins := (plain_blocks (done_plain c)).2.2.1
@[simp] theorem done_trk (c : Chip) : (done c).trk = c.trk := (plain_blocks (done_plain c)).2.2.2.1
@[simp] theorem done_gnt (c : Chip) : (done c).gnt = c.gnt := (plain_blocks (done_plain c)).2.2.2.2.1
@[simp] theorem done_pln (c : Chip) : (done c).pln = c.pln := (plain_blocks (done_plain c)).2.2.2.2.2.1
@[simp] theorem done_cue (c : Chip) : (done c).cue = c.cue := (plain_blocks (done_plain c)).2.2.2.2.2.2.1
@[simp] theorem done_mbx (c : Chip) : (done c).mbx = c.mbx := (plain_blocks (done_plain c)).2.2.2.2.2.2.2.1
@[simp] theorem done_set (c : Chip) : (done c).set = c.set := (plain_blocks (done_plain c)).2.2.2.2.2.2.2.2.1
@[simp] theorem done_evt (c : Chip) : (done c).evt = c.evt := (plain_blocks (done_plain c)).2.2.2.2.2.2.2.2.2.1
@[simp] theorem done_ntc (c : Chip) : (done c).ntc = c.ntc := (plain_blocks (done_plain c)).2.2.2.2.2.2.2.2.2.2.1
@[simp] theorem done_mon (c : Chip) : (done c).mon = c.mon := (plain_blocks (done_plain c)).2.2.2.2.2.2.2.2.2.2.2

@[simp] theorem done_ts (c : Chip) : (done c).sup.ts = c.sup.ts := (congrArg (fun c : Chip => c.sup.ts) (done_plain c) :)
@[simp] theorem done_up (c : Chip) : (done c).sup.up = c.sup.up := (congrArg (fun c : Chip => c.sup.up) (done_plain c) :)
@[simp] theorem done_threaded (c : Chip) : (done c).sup.threaded = c.sup.threaded :=
  (congrArg (fun c : Chip => c.sup.threaded) (done_plain c) :)
@[simp] theorem done_clsSup (c : Chip) : (done c).sup.clsSup = c.sup.clsSup := (congrArg (fun c : Chip => c.sup.clsSup) (done_plain c) :)
@[simp] theorem done_clsTup (c : Chip) : (done c).sup.clsTup = c.sup.clsTup := (congrArg (fun c : Chip => c.sup.clsTup) (done_plain c) :)
@[simp] theorem done_brk (c : Chip) : (done c).sup.brk = c.sup.brk := (congrArg (fun c : Chip => c.sup.brk) (done_plain c) :)
@[simp] theorem done_exc (c : Chip) : (done c).sup.exc = c.sup.exc := (congrArg (fun c : Chip => c.sup.exc) (done_plain c) :)
@[simp] theorem done_settle (c : Chip) : (done c).sup.settle = c.sup.settle := (congrArg (fun c : Chip => c.sup.settle) (done_plain c) :)
@[simp] theorem done_off (c : Chip) : (done c).sup.off = c.sup.off := (congrArg (fun c : Chip => c.sup.off) (done_plain c) :)
@[simp] theorem done_latch (c : Chip) : (done c).sup.latch = c.sup.latch := (congrArg (fun c : Chip => c.sup.latch) (done_plain c) :)
@[simp] theorem done_trip (c : Chip) : (done c).sup.trip = c.sup.trip := (congrArg (fun c : Chip => c.sup.trip) (done_plain c) :)
@[simp] theorem done_side (c : Chip) : (done c).sup.side = c.sup.side := (congrArg (fun c : Chip => c.sup.side) (done_plain c) :)
@[simp] theorem done_stop (c : Chip) : (done c).sup.stop = c.sup.stop := (congrArg (fun c : Chip => c.sup.stop) (done_plain c) :)
@[simp] theorem done_claimPending (c : Chip) : (done c).sup.claimPending = c.sup.claimPending :=
  (congrArg (fun c : Chip => c.sup.claimPending) (done_plain c) :)
@[simp] theorem done_catchHold (c : Chip) : (done c).sup.catchHold = c.sup.catchHold :=
  (congrArg (fun c : Chip => c.sup.catchHold) (done_plain c) :)

@[simp] theorem done_capRun (c : Chip) : (done c).drv.capRun = c.drv.capRun := (congrArg (fun c : Chip => c.drv.capRun) (done_plain c) :)
@[simp] theorem done_capSpeed (c : Chip) : (done c).drv.capSpeed = c.drv.capSpeed :=
  (congrArg (fun c : Chip => c.drv.capSpeed) (done_plain c) :)
@[simp] theorem done_pinch (c : Chip) : (done c).drv.pinch = c.drv.pinch := (congrArg (fun c : Chip => c.drv.pinch) (done_plain c) :)
@[simp] theorem done_carry (c : Chip) : (done c).drv.carry = c.drv.carry := (congrArg (fun c : Chip => c.drv.carry) (done_plain c) :)
@[simp] theorem done_supMode (c : Chip) : (done c).drv.sup.mode = c.drv.sup.mode :=
  (congrArg (fun c : Chip => c.drv.sup.mode) (done_plain c) :)
@[simp] theorem done_tupMode (c : Chip) : (done c).drv.tup.mode = c.drv.tup.mode :=
  (congrArg (fun c : Chip => c.drv.tup.mode) (done_plain c) :)
@[simp] theorem done_supEngaged (c : Chip) : (done c).drv.sup.engaged = c.drv.sup.engaged :=
  (congrArg (fun c : Chip => c.drv.sup.engaged) (done_plain c) :)
@[simp] theorem done_tupEngaged (c : Chip) : (done c).drv.tup.engaged = c.drv.tup.engaged :=
  (congrArg (fun c : Chip => c.drv.tup.engaged) (done_plain c) :)

@[simp] theorem done_est (c : Chip) : (done c).eng.est = c.eng.est := (congrArg (fun c : Chip => c.eng.est) (done_plain c) :)
@[simp] theorem done_ref (c : Chip) : (done c).eng.ref = c.eng.ref := (congrArg (fun c : Chip => c.eng.ref) (done_plain c) :)
@[simp] theorem done_frac (c : Chip) : (done c).eng.frac = c.eng.frac := (congrArg (fun c : Chip => c.eng.frac) (done_plain c) :)
@[simp] theorem done_moveReq (c : Chip) : (done c).eng.moveReq = c.eng.moveReq := (congrArg (fun c : Chip => c.eng.moveReq) (done_plain c) :)

/-- The end of a command makes no segment current and ends none. -/
theorem done_cur_none (c : Chip) : (done c).eng.cur = none ↔ c.eng.cur = none := by
  have h : (done c).eng.cur.isNone = c.eng.cur.isNone := by
    simpa [Chip.plain] using congrArg (fun c : Chip => c.eng.cur.isNone) (done_plain c)
  rw [← Option.isNone_iff_eq_none, h, Option.isNone_iff_eq_none]

@[simp] theorem done_queue (c : Chip) : (done c).bus.queue = c.bus.queue := (congrArg (fun c : Chip => c.bus.queue) (done_plain c) :)
@[simp] theorem done_done (c : Chip) : (done c).bus.done = c.bus.done := (congrArg (fun c : Chip => c.bus.done) (done_plain c) :)
@[simp] theorem done_snap (c : Chip) : (done c).bus.snap = c.bus.snap := (congrArg (fun c : Chip => c.bus.snap) (done_plain c) :)
@[simp] theorem done_startTime (c : Chip) : (done c).bus.startTime = c.bus.startTime :=
  (congrArg (fun c : Chip => c.bus.startTime) (done_plain c) :)

/-- The host port is free after the end of a command where it was before. -/
theorem done_host_none (c : Chip) : (done c).bus.host = none ↔ c.bus.host = none := by
  have h : (done c).bus.host.isNone = c.bus.host.isNone := by
    simpa [Chip.plain] using congrArg (fun c : Chip => c.bus.host.isNone) (done_plain c)
  rw [← Option.isNone_iff_eq_none, h, Option.isNone_iff_eq_none]

end Sys2Proof.Laws
end

