-- ==== Sys2Proof/Laws/Posts.lean ====
section
/-! SUPPORT. What the posts of Machine/Flags.lean can change, said once: an event changes the event writer alone, a notice
the notice set (or, in start-up, the posts held), a write the queue or what waits at its block; and what each is in a running
part. -/

namespace Sys2Proof.Laws

open Sys2Proof.Machine

@[simp] theorem postNotice_mode (k : Notice) (c : Chip) : (postNotice k c).mode = c.mode := by
  simp only [postNotice]; split <;> rfl
@[simp] theorem postNotice_clock (k : Notice) (c : Chip) : (postNotice k c).clock = c.clock := by
  simp only [postNotice]; split <;> rfl
@[simp] theorem postNotice_pins (k : Notice) (c : Chip) : (postNotice k c).pins = c.pins := by
  simp only [postNotice]; split <;> rfl
@[simp] theorem postNotice_free (k : Notice) (c : Chip) : (postNotice k c).free = c.free := by
  simp only [postNotice]; split <;> rfl
@[simp] theorem postNotice_trk (k : Notice) (c : Chip) : (postNotice k c).trk = c.trk := by
  simp only [postNotice]; split <;> rfl
@[simp] theorem postNotice_sup (k : Notice) (c : Chip) : (postNotice k c).sup = c.sup := by
  simp only [postNotice]; split <;> rfl
@[simp] theorem postNotice_drv (k : Notice) (c : Chip) : (postNotice k c).drv = c.drv := by
  simp only [postNotice]; split <;> rfl
@[simp] theorem postNotice_gnt (k : Notice) (c : Chip) : (postNotice k c).gnt = c.gnt := by
  simp only [postNotice]; split <;> rfl
@[simp] theorem postNotice_pln (k : Notice) (c : Chip) : (postNotice k c).pln = c.pln := by
  simp only [postNotice]; split <;> rfl
@[simp] theorem postNotice_eng (k : Notice) (c : Chip) : (postNotice k c).eng = c.eng := by
  simp only [postNotice]; split <;> rfl
@[simp] theorem postNotice_cue (k : Notice) (c : Chip) : (postNotice k c).cue = c.cue := by
  simp only [postNotice]; split <;> rfl
@[simp] theorem postNotice_mbx (k : Notice) (c : Chip) : (postNotice k c).mbx = c.mbx := by
  simp only [postNotice]; split <;> rfl
@[simp] theorem postNotice_set (k : Notice) (c : Chip) : (postNotice k c).set = c.set := by
  simp only [postNotice]; split <;> rfl
@[simp] theorem postNotice_mon (k : Notice) (c : Chip) : (postNotice k c).mon = c.mon := by
  simp only [postNotice]; split <;> rfl
@[simp] theorem postNotice_bus (k : Notice) (c : Chip) : (postNotice k c).bus = c.bus := by
  simp only [postNotice]; split <;> rfl

/-- A notice in a running part. -/
theorem postNotice_running {c : Chip} (h : c.mode = .running) (k : Notice) :
    postNotice k c = { c with ntc := c.ntc.post k } := by simp only [postNotice, h]

@[simp] theorem postEventAt_mode (k : EventKind) (d t : Nat) (v p : Int) (c : Chip) :
    (postEventAt k d t v p c).mode = c.mode := by
  simp only [postEventAt]; split <;> rfl
@[simp] theorem postEventAt_clock (k : EventKind) (d t : Nat) (v p : Int) (c : Chip) :
    (postEventAt k d t v p c).clock = c.clock := by
  simp only [postEventAt]; split <;> rfl
@[simp] theorem postEventAt_pins (k : EventKind) (d t : Nat) (v p : Int) (c : Chip) :
    (postEventAt k d t v p c).pins = c.pins := by
  simp only [postEventAt]; split <;> rfl
@[simp] theorem postEventAt_free (k : EventKind) (d t : Nat) (v p : Int) (c : Chip) :
    (postEventAt k d t v p c).free = c.free := by
  simp only [postEventAt]; split <;> rfl
@[simp] theorem postEventAt_trk (k : EventKind) (d t : Nat) (v p : Int) (c : Chip) :
    (postEventAt k d t v p c).trk = c.trk := by
  simp only [postEventAt]; split <;> rfl
@[simp] theorem postEventAt_sup (k : EventKind) (d t : Nat) (v p : Int) (c : Chip) :
    (postEventAt k d t v p c).sup = c.sup := by
  simp only [postEventAt]; split <;> rfl
@[simp] theorem postEventAt_drv (k : EventKind) (d t : Nat) (v p : Int) (c : Chip) :
    (postEventAt k d t v p c).drv = c.drv := by
  simp only [postEventAt]; split <;> rfl
@[simp] theorem postEventAt_gnt (k : EventKind) (d t : Nat) (v p : Int) (c : Chip) :
    (postEventAt k d t v p c).gnt = c.gnt := by
  simp only [postEventAt]; split <;> rfl
@[simp] theorem postEventAt_pln (k : EventKind) (d t : Nat) (v p : Int) (c : Chip) :
    (postEventAt k d t v p c).pln = c.pln := by
  simp only [postEventAt]; split <;> rfl
@[simp] theorem postEventAt_eng (k : EventKind) (d t : Nat) (v p : Int) (c : Chip) :
    (postEventAt k d t v p c).eng = c.eng := by
  simp only [postEventAt]; split <;> rfl
@[simp] theorem postEventAt_cue (k : EventKind) (d t : Nat) (v p : Int) (c : Chip) :
    (postEventAt k d t v p c).cue = c.cue := by
  simp only [postEventAt]; split <;> rfl
@[simp] theorem postEventAt_mbx (k : EventKind) (d t : Nat) (v p : Int) (c : Chip) :
    (postEventAt k d t v p c).mbx = c.mbx := by
  simp only [postEventAt]; split <;> rfl
@[simp] theorem postEventAt_set (k : EventKind) (d t : Nat) (v p : Int) (c : Chip) :
    (postEventAt k d t v p c).set = c.set := by
  simp only [postEventAt]; split <;> rfl
@[simp] theorem postEventAt_ntc (k : EventKind) (d t : Nat) (v p : Int) (c : Chip) :
    (postEventAt k d t v p c).ntc = c.ntc := by
  simp only [postEventAt]; split <;> rfl
@[simp] theorem postEventAt_mon (k : EventKind) (d t : Nat) (v p : Int) (c : Chip) :
    (postEventAt k d t v p c).mon = c.mon := by
  simp only [postEventAt]; split <;> rfl
@[simp] theorem postEventAt_bus (k : EventKind) (d t : Nat) (v p : Int) (c : Chip) :
    (postEventAt k d t v p c).bus = c.bus := by
  simp only [postEventAt]; split <;> rfl

/-- An event in a running part. -/
theorem postEventAt_running {c : Chip} (h : c.mode = .running) (k : EventKind) (d t : Nat) (v p : Int) :
    postEventAt k d t v p c =
      { c with evt := { c.evt with posted := c.evt.posted ++ [⟨k, d, t, c.clock, p, v⟩] } } := by
  simp only [postEventAt, h]; rfl

/-- An event with the tape position, in a running part. -/
theorem postEvent_running {c : Chip} (h : c.mode = .running) (k : EventKind) (d t : Nat) (v : Int) :
    postEvent k d t v c =
      { c with evt := { c.evt with posted := c.evt.posted ++ [c.event k d t v] } } := postEventAt_running h k d t v _

@[simp] theorem postEvent_mode (k : EventKind) (d t : Nat) (v : Int) (c : Chip) :
    (postEvent k d t v c).mode = c.mode := postEventAt_mode k d t v _ c
@[simp] theorem postEvent_clock (k : EventKind) (d t : Nat) (v : Int) (c : Chip) :
    (postEvent k d t v c).clock = c.clock := postEventAt_clock k d t v _ c
@[simp] theorem postEvent_pins (k : EventKind) (d t : Nat) (v : Int) (c : Chip) :
    (postEvent k d t v c).pins = c.pins := postEventAt_pins k d t v _ c
@[simp] theorem postEvent_free (k : EventKind) (d t : Nat) (v : Int) (c : Chip) :
    (postEvent k d t v c).free = c.free := postEventAt_free k d t v _ c
@[simp] theorem postEvent_trk (k : EventKind) (d t : Nat) (v : Int) (c : Chip) :
    (postEvent k d t v c).trk = c.trk := postEventAt_trk k d t v _ c
@[simp] theorem postEvent_sup (k : EventKind) (d t : Nat) (v : Int) (c : Chip) :
    (postEvent k d t v c).sup = c.sup := postEventAt_sup k d t v _ c
@[simp] theorem postEvent_drv (k : EventKind) (d t : Nat) (v : Int) (c : Chip) :
    (postEvent k d t v c).drv = c.drv := postEventAt_drv k d t v _ c
@[simp] theorem postEvent_gnt (k : EventKind) (d t : Nat) (v : Int) (c : Chip) :
    (postEvent k d t v c).gnt = c.gnt := postEventAt_gnt k d t v _ c
@[simp] theorem postEvent_pln (k : EventKind) (d t : Nat) (v : Int) (c : Chip) :
    (postEvent k d t v c).pln = c.pln := postEventAt_pln k d t v _ c
@[simp] theorem postEvent_eng (k : EventKind) (d t : Nat) (v : Int) (c : Chip) :
    (postEvent k d t v c).eng = c.eng := postEventAt_eng k d t v _ c
@[simp] theorem postEvent_cue (k : EventKind) (d t : Nat) (v : Int) (c : Chip) :
    (postEvent k d t v c).cue = c.cue := postEventAt_cue k d t v _ c
@[simp] theorem postEvent_mbx (k : EventKind) (d t : Nat) (v : Int) (c : Chip) :
    (postEvent k d t v c).mbx = c.mbx := postEventAt_mbx k d t v _ c
@[simp] theorem postEvent_set (k : EventKind) (d t : Nat) (v : Int) (c : Chip) :
    (postEvent k d t v c).set = c.set := postEventAt_set k d t v _ c
@[simp] theorem postEvent_ntc (k : EventKind) (d t : Nat) (v : Int) (c : Chip) :
    (postEvent k d t v c).ntc = c.ntc := postEventAt_ntc k d t v _ c
@[simp] theorem postEvent_mon (k : EventKind) (d t : Nat) (v : Int) (c : Chip) :
    (postEvent k d t v c).mon = c.mon := postEventAt_mon k d t v _ c
@[simp] theorem postEvent_bus (k : EventKind) (d t : Nat) (v : Int) (c : Chip) :
    (postEvent k d t v c).bus = c.bus := postEventAt_bus k d t v _ c

@[simp] theorem postTrackerEvent_mode (k : EventKind) (d : Nat) (c : Chip) : (postTrackerEvent k d c).mode = c.mode := by
  simp only [postTrackerEvent]; split <;> simp
@[simp] theorem postTrackerEvent_clock (k : EventKind) (d : Nat) (c : Chip) : (postTrackerEvent k d c).clock = c.clock := by
  simp only [postTrackerEvent]; split <;> simp
@[simp] theorem postTrackerEvent_pins (k : EventKind) (d : Nat) (c : Chip) : (postTrackerEvent k d c).pins = c.pins := by
  simp only [postTrackerEvent]; split <;> simp
@[simp] theorem postTrackerEvent_free (k : EventKind) (d : Nat) (c : Chip) : (postTrackerEvent k d c).free = c.free := by
  simp only [postTrackerEvent]; split <;> simp
@[simp] theorem postTrackerEvent_trk (k : EventKind) (d : Nat) (c : Chip) : (postTrackerEvent k d c).trk = c.trk := by
  simp only [postTrackerEvent]; split <;> simp
@[simp] theorem postTrackerEvent_sup (k : EventKind) (d : Nat) (c : Chip) : (postTrackerEvent k d c).sup = c.sup := by
  simp only [postTrackerEvent]; split <;> simp
@[simp] theorem postTrackerEvent_drv (k : EventKind) (d : Nat) (c : Chip) : (postTrackerEvent k d c).drv = c.drv := by
  simp only [postTrackerEvent]; split <;> simp
@[simp] theorem postTrackerEvent_gnt (k : EventKind) (d : Nat) (c : Chip) : (postTrackerEvent k d c).gnt = c.gnt := by
  simp only [postTrackerEvent]; split <;> simp
@[simp] theorem postTrackerEvent_pln (k : EventKind) (d : Nat) (c : Chip) : (postTrackerEvent k d c).pln = c.pln := by
  simp only [postTrackerEvent]; split <;> simp
@[simp] theorem postTrackerEvent_eng (k : EventKind) (d : Nat) (c : Chip) : (postTrackerEvent k d c).eng = c.eng := by
  simp only [postTrackerEvent]; split <;> simp
@[simp] theorem postTrackerEvent_cue (k : EventKind) (d : Nat) (c : Chip) : (postTrackerEvent k d c).cue = c.cue := by
  simp only [postTrackerEvent]; split <;> simp
@[simp] theorem postTrackerEvent_mbx (k : EventKind) (d : Nat) (c : Chip) : (postTrackerEvent k d c).mbx = c.mbx := by
  simp only [postTrackerEvent]; split <;> simp
@[simp] theorem postTrackerEvent_set (k : EventKind) (d : Nat) (c : Chip) : (postTrackerEvent k d c).set = c.set := by
  simp only [postTrackerEvent]; split <;> simp
@[simp] theorem postTrackerEvent_ntc (k : EventKind) (d : Nat) (c : Chip) : (postTrackerEvent k d c).ntc = c.ntc := by
  simp only [postTrackerEvent]; split <;> simp
@[simp] theorem postTrackerEvent_mon (k : EventKind) (d : Nat) (c : Chip) : (postTrackerEvent k d c).mon = c.mon := by
  simp only [postTrackerEvent]; split <;> simp
@[simp] theorem postTrackerEvent_bus (k : EventKind) (d : Nat) (c : Chip) : (postTrackerEvent k d c).bus = c.bus := by
  simp only [postTrackerEvent]; split <;> simp
@[simp] theorem postTrackerNotice_mode (k : Notice) (c : Chip) : (postTrackerNotice k c).mode = c.mode := by
  simp only [postTrackerNotice]; split <;> simp
@[simp] theorem postTrackerNotice_clock (k : Notice) (c : Chip) : (postTrackerNotice k c).clock = c.clock := by
  simp only [postTrackerNotice]; split <;> simp
@[simp] theorem postTrackerNotice_pins (k : Notice) (c : Chip) : (postTrackerNotice k c).pins = c.pins := by
  simp only [postTrackerNotice]; split <;> simp
@[simp] theorem postTrackerNotice_free (k : Notice) (c : Chip) : (postTrackerNotice k c).free = c.free := by
  simp only [postTrackerNotice]; split <;> simp
@[simp] theorem postTrackerNotice_trk (k : Notice) (c : Chip) : (postTrackerNotice k c).trk = c.trk := by
  simp only [postTrackerNotice]; split <;> simp
@[simp] theorem postTrackerNotice_sup (k : Notice) (c : Chip) : (postTrackerNotice k c).sup = c.sup := by
  simp only [postTrackerNotice]; split <;> simp
@[simp] theorem postTrackerNotice_drv (k : Notice) (c : Chip) : (postTrackerNotice k c).drv = c.drv := by
  simp only [postTrackerNotice]; split <;> simp
@[simp] theorem postTrackerNotice_gnt (k : Notice) (c : Chip) : (postTrackerNotice k c).gnt = c.gnt := by
  simp only [postTrackerNotice]; split <;> simp
@[simp] theorem postTrackerNotice_pln (k : Notice) (c : Chip) : (postTrackerNotice k c).pln = c.pln := by
  simp only [postTrackerNotice]; split <;> simp
@[simp] theorem postTrackerNotice_eng (k : Notice) (c : Chip) : (postTrackerNotice k c).eng = c.eng := by
  simp only [postTrackerNotice]; split <;> simp
@[simp] theorem postTrackerNotice_cue (k : Notice) (c : Chip) : (postTrackerNotice k c).cue = c.cue := by
  simp only [postTrackerNotice]; split <;> simp
@[simp] theorem postTrackerNotice_mbx (k : Notice) (c : Chip) : (postTrackerNotice k c).mbx = c.mbx := by
  simp only [postTrackerNotice]; split <;> simp
@[simp] theorem postTrackerNotice_set (k : Notice) (c : Chip) : (postTrackerNotice k c).set = c.set := by
  simp only [postTrackerNotice]; split <;> simp
@[simp] theorem postTrackerNotice_mon (k : Notice) (c : Chip) : (postTrackerNotice k c).mon = c.mon := by
  simp only [postTrackerNotice]; split <;> simp
@[simp] theorem postTrackerNotice_bus (k : Notice) (c : Chip) : (postTrackerNotice k c).bus = c.bus := by
  simp only [postTrackerNotice]; split <;> simp

@[simp] theorem postWrite_mode (p : Poster) (w : PartWrite) (c : Chip) : (postWrite p w c).mode = c.mode := by
  simp only [postWrite]; split
  · rfl
  · cases p <;> rfl
@[simp] theorem postWrite_clock (p : Poster) (w : PartWrite) (c : Chip) : (postWrite p w c).clock = c.clock := by
  simp only [postWrite]; split
  · rfl
  · cases p <;> rfl
@[simp] theorem postWrite_pins (p : Poster) (w : PartWrite) (c : Chip) : (postWrite p w c).pins = c.pins := by
  simp only [postWrite]; split
  · rfl
  · cases p <;> rfl
@[simp] theorem postWrite_free (p : Poster) (w : PartWrite) (c : Chip) : (postWrite p w c).free = c.free := by
  simp only [postWrite]; split
  · rfl
  · cases p <;> rfl
@[simp] theorem postWrite_trk (p : Poster) (w : PartWrite) (c : Chip) : (postWrite p w c).trk = c.trk := by
  simp only [postWrite]; split
  · rfl
  · cases p <;> rfl
@[simp] theorem postWrite_sup (p : Poster) (w : PartWrite) (c : Chip) : (postWrite p w c).sup = c.sup := by
  simp only [postWrite]; split
  · rfl
  · cases p <;> rfl
@[simp] theorem postWrite_drv (p : Poster) (w : PartWrite) (c : Chip) : (postWrite p w c).drv = c.drv := by
  simp only [postWrite]; split
  · rfl
  · cases p <;> rfl
@[simp] theorem postWrite_eng (p : Poster) (w : PartWrite) (c : Chip) : (postWrite p w c).eng = c.eng := by
  simp only [postWrite]; split
  · rfl
  · cases p <;> rfl
@[simp] theorem postWrite_cue (p : Poster) (w : PartWrite) (c : Chip) : (postWrite p w c).cue = c.cue := by
  simp only [postWrite]; split
  · rfl
  · cases p <;> rfl
@[simp] theorem postWrite_ntc (p : Poster) (w : PartWrite) (c : Chip) : (postWrite p w c).ntc = c.ntc := by
  simp only [postWrite]; split
  · rfl
  · cases p <;> rfl
@[simp] theorem postWrite_mon (p : Poster) (w : PartWrite) (c : Chip) : (postWrite p w c).mon = c.mon := by
  simp only [postWrite]; split
  · rfl
  · cases p <;> rfl

/-- A write posted by the grant unit leaves the grant and the trim. -/
theorem postWrite_grant (w : PartWrite) (c : Chip) :
    (postWrite .grant w c).gnt.active = c.gnt.active ∧ (postWrite .grant w c).gnt.fallback = c.gnt.fallback ∧
      (postWrite .grant w c).gnt.trim = c.gnt.trim ∧ (postWrite .grant w c).gnt.request = c.gnt.request ∧
      (postWrite .grant w c).gnt.threaded = c.gnt.threaded := by
  simp only [postWrite]; split <;> exact ⟨rfl, rfl, rfl, rfl, rfl⟩

end Sys2Proof.Laws
end

