-- ==== Sys2Proof/Laws/Frames.lean ====
section
/-! SUPPORT. What each shared operation of the part leaves as it was: one lemma for each operation, naming the blocks it does
not touch. -/

namespace Sys2Proof.Laws

open Sys2Proof.Machine

@[simp] theorem postGrantWrite_frame (w : PartWrite) (c : Chip) :
    (postWrite .grant w c).pln = c.pln ∧ (postWrite .grant w c).mbx = c.mbx ∧ (postWrite .grant w c).set = c.set := by
  simp only [postWrite]; split <;> exact ⟨rfl, rfl, rfl⟩

@[simp] theorem onDrive_frame (f : Drive → Drive) (c : Chip) :
    (onDrive f c).mode = c.mode ∧ (onDrive f c).clock = c.clock ∧ (onDrive f c).pins = c.pins ∧
    (onDrive f c).free = c.free ∧ (onDrive f c).trk = c.trk ∧ (onDrive f c).sup = c.sup ∧ (onDrive f c).gnt = c.gnt ∧
    (onDrive f c).pln = c.pln ∧ (onDrive f c).eng = c.eng ∧ (onDrive f c).cue = c.cue ∧ (onDrive f c).mbx = c.mbx ∧
    (onDrive f c).set = c.set ∧ (onDrive f c).evt = c.evt ∧ (onDrive f c).ntc = c.ntc ∧ (onDrive f c).mon = c.mon ∧
    (onDrive f c).bus = c.bus := ⟨rfl, rfl, rfl, rfl, rfl, rfl, rfl, rfl, rfl, rfl, rfl, rfl, rfl, rfl, rfl, rfl⟩

@[simp] theorem setLatch_frame (c : Chip) :
    (setLatch c).mode = c.mode ∧ (setLatch c).clock = c.clock ∧ (setLatch c).pins = c.pins ∧ (setLatch c).free =
    c.free ∧ (setLatch c).trk = c.trk ∧ (setLatch c).drv = c.drv ∧ (setLatch c).gnt = c.gnt ∧ (setLatch c).pln = c.pln
    ∧ (setLatch c).eng = c.eng ∧ (setLatch c).cue = c.cue ∧ (setLatch c).mbx = c.mbx ∧ (setLatch c).set = c.set ∧
    (setLatch c).mon = c.mon ∧ (setLatch c).bus = c.bus := by
  unfold setLatch
  try dsimp only
  split <;> simp

@[simp] theorem reclampTrim_frame (c : Chip) :
    (reclampTrim c).mode = c.mode ∧ (reclampTrim c).clock = c.clock ∧ (reclampTrim c).pins = c.pins ∧ (reclampTrim
    c).free = c.free ∧ (reclampTrim c).trk = c.trk ∧ (reclampTrim c).sup = c.sup ∧ (reclampTrim c).drv = c.drv ∧
    (reclampTrim c).pln = c.pln ∧ (reclampTrim c).eng = c.eng ∧ (reclampTrim c).cue = c.cue ∧ (reclampTrim c).mbx =
    c.mbx ∧ (reclampTrim c).set = c.set ∧ (reclampTrim c).mon = c.mon := by
  simp [reclampTrim, apply_ite Chip.mode, apply_ite Chip.clock, apply_ite Chip.pins, apply_ite Chip.free, apply_ite
  Chip.trk, apply_ite Chip.sup, apply_ite Chip.drv, apply_ite Chip.pln, apply_ite Chip.eng, apply_ite Chip.cue,
  apply_ite Chip.mbx, apply_ite Chip.set, apply_ite Chip.mon]

@[simp] theorem setGrant_frame (x : Option Granted) (l : List Granted) (c : Chip) :
    (setGrant x l c).mode = c.mode ∧ (setGrant x l c).clock = c.clock ∧ (setGrant x l c).pins = c.pins ∧ (setGrant x l
    c).free = c.free ∧ (setGrant x l c).trk = c.trk ∧ (setGrant x l c).sup = c.sup ∧ (setGrant x l c).drv = c.drv ∧
    (setGrant x l c).pln = c.pln ∧ (setGrant x l c).eng = c.eng ∧ (setGrant x l c).cue = c.cue ∧ (setGrant x l c).mbx
    = c.mbx ∧ (setGrant x l c).set = c.set ∧ (setGrant x l c).mon = c.mon := by
  simp [setGrant]

@[simp] theorem dropActive_frame (v : Int) (c : Chip) :
    (dropActive v c).mode = c.mode ∧ (dropActive v c).clock = c.clock ∧ (dropActive v c).pins = c.pins ∧ (dropActive v
    c).free = c.free ∧ (dropActive v c).trk = c.trk ∧ (dropActive v c).sup = c.sup ∧ (dropActive v c).drv = c.drv ∧
    (dropActive v c).pln = c.pln ∧ (dropActive v c).eng = c.eng ∧ (dropActive v c).cue = c.cue ∧ (dropActive v c).mbx
    = c.mbx ∧ (dropActive v c).set = c.set ∧ (dropActive v c).mon = c.mon := by
  unfold dropActive
  try dsimp only
  split <;> simp

@[simp] theorem cancelPending_frame (v : Int) (c : Chip) :
    (cancelPending v c).mode = c.mode ∧ (cancelPending v c).clock = c.clock ∧ (cancelPending v c).pins = c.pins ∧
    (cancelPending v c).free = c.free ∧ (cancelPending v c).trk = c.trk ∧ (cancelPending v c).sup = c.sup ∧
    (cancelPending v c).drv = c.drv ∧ (cancelPending v c).pln = c.pln ∧ (cancelPending v c).eng = c.eng ∧
    (cancelPending v c).cue = c.cue ∧ (cancelPending v c).mbx = c.mbx ∧ (cancelPending v c).set = c.set ∧
    (cancelPending v c).mon = c.mon ∧ (cancelPending v c).bus = c.bus := by
  unfold cancelPending
  try dsimp only
  split <;> simp

@[simp] theorem evaluateRequest_frame (l : List Choice) (c : Chip) :
    (evaluateRequest l c).mode = c.mode ∧ (evaluateRequest l c).clock = c.clock ∧ (evaluateRequest l c).pins = c.pins
    ∧ (evaluateRequest l c).free = c.free ∧ (evaluateRequest l c).trk = c.trk ∧ (evaluateRequest l c).sup = c.sup ∧
    (evaluateRequest l c).drv = c.drv ∧ (evaluateRequest l c).pln = c.pln ∧ (evaluateRequest l c).eng = c.eng ∧
    (evaluateRequest l c).cue = c.cue ∧ (evaluateRequest l c).mbx = c.mbx ∧ (evaluateRequest l c).set = c.set ∧
    (evaluateRequest l c).mon = c.mon := by
  unfold evaluateRequest
  try dsimp only
  split <;> simp

@[simp] theorem resolvePending_frame (c : Chip) :
    (resolvePending c).mode = c.mode ∧ (resolvePending c).clock = c.clock ∧ (resolvePending c).pins = c.pins ∧
    (resolvePending c).free = c.free ∧ (resolvePending c).trk = c.trk ∧ (resolvePending c).sup = c.sup ∧
    (resolvePending c).drv = c.drv ∧ (resolvePending c).pln = c.pln ∧ (resolvePending c).eng = c.eng ∧ (resolvePending
    c).cue = c.cue ∧ (resolvePending c).mbx = c.mbx ∧ (resolvePending c).set = c.set ∧ (resolvePending c).mon = c.mon
    := by
  unfold resolvePending
  try dsimp only
  split <;> (try split) <;> simp

@[simp] theorem flushRing_frame (i : RingId) (st : Status) (c : Chip) :
    (flushRing i st c).mode = c.mode ∧ (flushRing i st c).clock = c.clock ∧ (flushRing i st c).pins = c.pins ∧
    (flushRing i st c).free = c.free ∧ (flushRing i st c).trk = c.trk ∧ (flushRing i st c).sup = c.sup ∧ (flushRing i
    st c).drv = c.drv ∧ (flushRing i st c).gnt = c.gnt ∧ (flushRing i st c).eng = c.eng ∧ (flushRing i st c).cue =
    c.cue ∧ (flushRing i st c).mbx = c.mbx ∧ (flushRing i st c).set = c.set ∧ (flushRing i st c).evt = c.evt ∧
    (flushRing i st c).ntc = c.ntc ∧ (flushRing i st c).mon = c.mon ∧ (flushRing i st c).bus = c.bus := by
  simp [flushRing]

@[simp] theorem flushBoth_frame (st : Status) (c : Chip) :
    (flushBoth st c).mode = c.mode ∧ (flushBoth st c).clock = c.clock ∧ (flushBoth st c).pins = c.pins ∧ (flushBoth st
    c).free = c.free ∧ (flushBoth st c).trk = c.trk ∧ (flushBoth st c).sup = c.sup ∧ (flushBoth st c).drv = c.drv ∧
    (flushBoth st c).gnt = c.gnt ∧ (flushBoth st c).eng = c.eng ∧ (flushBoth st c).cue = c.cue ∧ (flushBoth st c).mbx
    = c.mbx ∧ (flushBoth st c).set = c.set ∧ (flushBoth st c).evt = c.evt ∧ (flushBoth st c).ntc = c.ntc ∧ (flushBoth
    st c).mon = c.mon ∧ (flushBoth st c).bus = c.bus := by
  simp [flushBoth]

@[simp] theorem endCur_frame (st : Status) (c : Chip) :
    (endCur st c).mode = c.mode ∧ (endCur st c).clock = c.clock ∧ (endCur st c).pins = c.pins ∧ (endCur st c).free =
    c.free ∧ (endCur st c).trk = c.trk ∧ (endCur st c).sup = c.sup ∧ (endCur st c).drv = c.drv ∧ (endCur st c).gnt =
    c.gnt ∧ (endCur st c).cue = c.cue ∧ (endCur st c).mbx = c.mbx ∧ (endCur st c).set = c.set ∧ (endCur st c).mon =
    c.mon ∧ (endCur st c).bus = c.bus := by
  unfold endCur
  try dsimp only
  split <;> (try split) <;> simp

@[simp] theorem enterGrant_frame (n : TState) (c : Chip) :
    (enterGrant n c).mode = c.mode ∧ (enterGrant n c).clock = c.clock ∧ (enterGrant n c).pins = c.pins ∧ (enterGrant n
    c).free = c.free ∧ (enterGrant n c).trk = c.trk ∧ (enterGrant n c).sup = c.sup ∧ (enterGrant n c).drv = c.drv ∧
    (enterGrant n c).pln = c.pln ∧ (enterGrant n c).eng = c.eng ∧ (enterGrant n c).cue = c.cue ∧ (enterGrant n c).mbx
    = c.mbx ∧ (enterGrant n c).set = c.set ∧ (enterGrant n c).mon = c.mon := by
  simp [enterGrant, apply_ite Chip.mode, apply_ite Chip.clock, apply_ite Chip.pins, apply_ite Chip.free, apply_ite
  Chip.trk, apply_ite Chip.sup, apply_ite Chip.drv, apply_ite Chip.pln, apply_ite Chip.eng, apply_ite Chip.cue,
  apply_ite Chip.mbx, apply_ite Chip.set, apply_ite Chip.mon]

@[simp] theorem unthread_frame (c : Chip) :
    (unthread c).mode = c.mode ∧ (unthread c).clock = c.clock ∧ (unthread c).pins = c.pins ∧ (unthread c).free =
    c.free ∧ (unthread c).trk = c.trk ∧ (unthread c).drv = c.drv ∧ (unthread c).pln = c.pln ∧ (unthread c).eng = c.eng
    ∧ (unthread c).cue = c.cue ∧ (unthread c).mbx = c.mbx ∧ (unthread c).set = c.set ∧ (unthread c).evt = c.evt ∧
    (unthread c).ntc = c.ntc ∧ (unthread c).mon = c.mon ∧ (unthread c).bus = c.bus := by
  simp [unthread]

@[simp] theorem idleEngine_frame (c : Chip) :
    (idleEngine c).mode = c.mode ∧ (idleEngine c).clock = c.clock ∧ (idleEngine c).pins = c.pins ∧ (idleEngine c).free
    = c.free ∧ (idleEngine c).trk = c.trk ∧ (idleEngine c).sup = c.sup ∧ (idleEngine c).drv = c.drv ∧ (idleEngine
    c).gnt = c.gnt ∧ (idleEngine c).pln = c.pln ∧ (idleEngine c).cue = c.cue ∧ (idleEngine c).mbx = c.mbx ∧
    (idleEngine c).set = c.set ∧ (idleEngine c).evt = c.evt ∧ (idleEngine c).ntc = c.ntc ∧ (idleEngine c).mon = c.mon
    ∧ (idleEngine c).bus = c.bus := by
  simp [idleEngine]

@[simp] theorem enterStage_frame (n : TState) (c : Chip) :
    (enterStage n c).mode = c.mode ∧ (enterStage n c).clock = c.clock ∧ (enterStage n c).pins = c.pins ∧ (enterStage n
    c).free = c.free ∧ (enterStage n c).trk = c.trk ∧ (enterStage n c).sup = c.sup ∧ (enterStage n c).gnt = c.gnt ∧
    (enterStage n c).pln = c.pln ∧ (enterStage n c).eng = c.eng ∧ (enterStage n c).cue = c.cue ∧ (enterStage n c).mbx
    = c.mbx ∧ (enterStage n c).set = c.set ∧ (enterStage n c).evt = c.evt ∧ (enterStage n c).ntc = c.ntc ∧ (enterStage
    n c).mon = c.mon ∧ (enterStage n c).bus = c.bus := by
  unfold enterStage
  cases n <;> simp [TState.admitsPinch]

@[simp] theorem enter_frame (n : TState) (c : Chip) :
    (enter n c).mode = c.mode ∧ (enter n c).clock = c.clock ∧ (enter n c).pins = c.pins ∧ (enter n c).free = c.free ∧
    (enter n c).trk = c.trk ∧ (enter n c).pln = c.pln ∧ (enter n c).cue = c.cue ∧ (enter n c).mbx = c.mbx ∧ (enter n
    c).set = c.set ∧ (enter n c).mon = c.mon := by
  simp [enter, apply_ite Chip.mode, apply_ite Chip.clock, apply_ite Chip.pins, apply_ite Chip.free, apply_ite
  Chip.trk, apply_ite Chip.pln, apply_ite Chip.cue, apply_ite Chip.mbx, apply_ite Chip.set, apply_ite Chip.mon]

/-- The supervisor after an entry: its own fields, the threaded index and the classes gone in UNTHREADED. -/
theorem enter_sup (n : TState) (c : Chip) : ∃ p, (enter n c).sup =
    (if n = .unthreaded then { c.sup with threaded := none, clsSup := .none, clsTup := .none } else c.sup).entered n p := by
  refine ⟨?_, ?_⟩
  swap
  · simp only [enter, apply_ite Chip.sup, resolvePending_frame, idleEngine_frame, enterStage_frame, postNotice_sup,
      postEvent_sup, onSup_sup, ite_self, enterGrant_frame]
    simp only [unthread, onGnt_sup, onSup_sup, enterGrant_frame]
    rfl

/-- The state entered; the stop latch, the fault word and a claim outstanding stand. -/
@[simp] theorem enter_supFrame (n : TState) (c : Chip) : (enter n c).sup.ts = n ∧ (enter n c).sup.latch = c.sup.latch ∧
    (enter n c).sup.trip = c.sup.trip ∧ (enter n c).sup.side = c.sup.side ∧ (enter n c).sup.stop = c.sup.stop ∧
    (enter n c).sup.up = c.sup.up ∧ (enter n c).sup.claimPending = c.sup.claimPending ∧
    (enter n c).sup.threaded = (if n = .unthreaded then none else c.sup.threaded) ∧
    (enter n c).sup.clsSup = (if n = .unthreaded then .none else c.sup.clsSup) ∧
    (enter n c).sup.clsTup = (if n = .unthreaded then .none else c.sup.clsTup) ∧
    (enter n c).sup.off = none ∧ (enter n c).sup.settle = if n = .tensioning then some 0 else none := by
  obtain ⟨p, h⟩ := enter_sup n c
  rw [h]
  by_cases hn : n = .unthreaded <;> simp [hn, Supervisor.entered]

@[simp] theorem emergencyBoth_frame (c : Chip) :
    (emergencyBoth c).mode = c.mode ∧ (emergencyBoth c).clock = c.clock ∧ (emergencyBoth c).pins = c.pins ∧
    (emergencyBoth c).free = c.free ∧ (emergencyBoth c).trk = c.trk ∧ (emergencyBoth c).sup = c.sup ∧ (emergencyBoth
    c).gnt = c.gnt ∧ (emergencyBoth c).pln = c.pln ∧ (emergencyBoth c).eng = c.eng ∧ (emergencyBoth c).cue = c.cue ∧
    (emergencyBoth c).mbx = c.mbx ∧ (emergencyBoth c).set = c.set ∧ (emergencyBoth c).evt = c.evt ∧ (emergencyBoth
    c).ntc = c.ntc ∧ (emergencyBoth c).mon = c.mon ∧ (emergencyBoth c).bus = c.bus := by
  simp -implicitDefEqProofs only [emergencyBoth, onDrive_frame, and_self]

@[simp] theorem orderLifters_frame (p : Lifters) (c : Chip) :
    (orderLifters p c).mode = c.mode ∧ (orderLifters p c).clock = c.clock ∧ (orderLifters p c).pins = c.pins ∧
    (orderLifters p c).free = c.free ∧ (orderLifters p c).trk = c.trk ∧ (orderLifters p c).sup = c.sup ∧ (orderLifters
    p c).gnt = c.gnt ∧ (orderLifters p c).pln = c.pln ∧ (orderLifters p c).eng = c.eng ∧ (orderLifters p c).cue =
    c.cue ∧ (orderLifters p c).mbx = c.mbx ∧ (orderLifters p c).set = c.set ∧ (orderLifters p c).evt = c.evt ∧
    (orderLifters p c).ntc = c.ntc ∧ (orderLifters p c).mon = c.mon ∧ (orderLifters p c).bus = c.bus := by
  simp -implicitDefEqProofs only [orderLifters, onDrive_frame, and_self]

@[simp] theorem followBoth_frame (c : Chip) :
    (followBoth c).mode = c.mode ∧ (followBoth c).clock = c.clock ∧ (followBoth c).pins = c.pins ∧ (followBoth
    c).free = c.free ∧ (followBoth c).trk = c.trk ∧ (followBoth c).sup = c.sup ∧ (followBoth c).gnt = c.gnt ∧
    (followBoth c).pln = c.pln ∧ (followBoth c).eng = c.eng ∧ (followBoth c).cue = c.cue ∧ (followBoth c).mbx =
    c.mbx ∧ (followBoth c).set = c.set ∧ (followBoth c).evt = c.evt ∧ (followBoth c).ntc = c.ntc ∧ (followBoth
    c).mon = c.mon ∧ (followBoth c).bus = c.bus := by
  simp -implicitDefEqProofs only [followBoth, onDrive_frame, and_self]

@[simp] theorem tripReels_frame (o : Bool) (c : Chip) :
    (tripReels o c).mode = c.mode ∧ (tripReels o c).clock = c.clock ∧ (tripReels o c).pins = c.pins ∧ (tripReels o
    c).free = c.free ∧ (tripReels o c).trk = c.trk ∧ (tripReels o c).sup = c.sup ∧ (tripReels o c).gnt = c.gnt ∧
    (tripReels o c).pln = c.pln ∧ (tripReels o c).eng = c.eng ∧ (tripReels o c).cue = c.cue ∧ (tripReels o c).mbx
    = c.mbx ∧ (tripReels o c).set = c.set ∧ (tripReels o c).evt = c.evt ∧ (tripReels o c).ntc = c.ntc ∧ (tripReels
    o c).mon = c.mon ∧ (tripReels o c).bus = c.bus := by
  unfold tripReels
  cases o <;> simp -implicitDefEqProofs

@[simp] theorem tripOutputs_frame (o : Bool) (c : Chip) :
    (tripOutputs o c).mode = c.mode ∧ (tripOutputs o c).clock = c.clock ∧ (tripOutputs o c).pins = c.pins ∧
    (tripOutputs o c).free = c.free ∧ (tripOutputs o c).trk = c.trk ∧ (tripOutputs o c).sup = c.sup ∧ (tripOutputs
    o c).gnt = c.gnt ∧ (tripOutputs o c).pln = c.pln ∧ (tripOutputs o c).eng = c.eng ∧ (tripOutputs o c).cue =
    c.cue ∧ (tripOutputs o c).mbx = c.mbx ∧ (tripOutputs o c).set = c.set ∧ (tripOutputs o c).evt = c.evt ∧
    (tripOutputs o c).ntc = c.ntc ∧ (tripOutputs o c).mon = c.mon ∧ (tripOutputs o c).bus = c.bus := by
  simp -implicitDefEqProofs only [tripOutputs, orderLifters_frame, onDrive_frame, tripReels_frame, and_self]

@[simp] theorem losePosition_frame (d : Nat) (c : Chip) :
    (losePosition d c).mode = c.mode ∧ (losePosition d c).clock = c.clock ∧ (losePosition d c).pins = c.pins ∧
    (losePosition d c).free = c.free ∧ (losePosition d c).sup = c.sup ∧ (losePosition d c).drv = c.drv ∧ (losePosition
    d c).gnt = c.gnt ∧ (losePosition d c).pln = c.pln ∧ (losePosition d c).eng = c.eng ∧ (losePosition d c).cue =
    c.cue ∧ (losePosition d c).mbx = c.mbx ∧ (losePosition d c).set = c.set ∧ (losePosition d c).ntc = c.ntc ∧
    (losePosition d c).mon = c.mon ∧ (losePosition d c).bus = c.bus := by
  simp [losePosition, apply_ite Chip.mode, apply_ite Chip.clock, apply_ite Chip.pins, apply_ite Chip.free, apply_ite
  Chip.sup, apply_ite Chip.drv, apply_ite Chip.gnt, apply_ite Chip.pln, apply_ite Chip.eng, apply_ite Chip.cue,
  apply_ite Chip.mbx, apply_ite Chip.set, apply_ite Chip.ntc, apply_ite Chip.mon, apply_ite Chip.bus]

@[simp] theorem claimCarry_frame (c : Chip) :
    (claimCarry c).mode = c.mode ∧ (claimCarry c).clock = c.clock ∧ (claimCarry c).pins = c.pins ∧ (claimCarry c).free
    = c.free ∧ (claimCarry c).trk = c.trk ∧ (claimCarry c).sup = c.sup ∧ (claimCarry c).gnt = c.gnt ∧ (claimCarry
    c).pln = c.pln ∧ (claimCarry c).eng = c.eng ∧ (claimCarry c).cue = c.cue ∧ (claimCarry c).mbx = c.mbx ∧
    (claimCarry c).set = c.set ∧ (claimCarry c).ntc = c.ntc ∧ (claimCarry c).mon = c.mon ∧ (claimCarry c).bus = c.bus
    := by
  unfold claimCarry
  try dsimp only
  split <;> simp

@[simp] theorem latchAndFlush_frame (k : StopCause) (c : Chip) :
    (latchAndFlush k c).mode = c.mode ∧ (latchAndFlush k c).clock = c.clock ∧ (latchAndFlush k c).pins = c.pins ∧
    (latchAndFlush k c).free = c.free ∧ (latchAndFlush k c).trk = c.trk ∧ (latchAndFlush k c).drv = c.drv ∧
    (latchAndFlush k c).gnt = c.gnt ∧ (latchAndFlush k c).eng = c.eng ∧ (latchAndFlush k c).cue = c.cue ∧
    (latchAndFlush k c).mbx = c.mbx ∧ (latchAndFlush k c).set = c.set ∧ (latchAndFlush k c).mon = c.mon ∧
    (latchAndFlush k c).bus = c.bus := by
  simp [latchAndFlush, apply_ite Chip.mode, apply_ite Chip.clock, apply_ite Chip.pins, apply_ite Chip.free, apply_ite
  Chip.trk, apply_ite Chip.drv, apply_ite Chip.gnt, apply_ite Chip.eng, apply_ite Chip.cue, apply_ite Chip.mbx,
  apply_ite Chip.set, apply_ite Chip.mon, apply_ite Chip.bus]

@[simp] theorem haltEntry_frame (c : Chip) :
    (haltEntry c).mode = c.mode ∧ (haltEntry c).clock = c.clock ∧ (haltEntry c).pins = c.pins ∧ (haltEntry c).free =
    c.free ∧ (haltEntry c).trk = c.trk ∧ (haltEntry c).sup = c.sup ∧ (haltEntry c).gnt = c.gnt ∧ (haltEntry c).pln =
    c.pln ∧ (haltEntry c).cue = c.cue ∧ (haltEntry c).mbx = c.mbx ∧ (haltEntry c).set = c.set ∧ (haltEntry c).evt =
    c.evt ∧ (haltEntry c).ntc = c.ntc ∧ (haltEntry c).mon = c.mon ∧ (haltEntry c).bus = c.bus := by
  simp [haltEntry, apply_ite Chip.mode, apply_ite Chip.clock, apply_ite Chip.pins, apply_ite Chip.free, apply_ite
  Chip.trk, apply_ite Chip.sup, apply_ite Chip.gnt, apply_ite Chip.pln, apply_ite Chip.cue, apply_ite Chip.mbx,
  apply_ite Chip.set, apply_ite Chip.evt, apply_ite Chip.ntc, apply_ite Chip.mon, apply_ite Chip.bus]

@[simp] theorem endTaken_frame (st : Status) (c : Chip) :
    (endTaken st c).mode = c.mode ∧ (endTaken st c).clock = c.clock ∧ (endTaken st c).pins = c.pins ∧ (endTaken st
    c).free = c.free ∧ (endTaken st c).trk = c.trk ∧ (endTaken st c).sup = c.sup ∧ (endTaken st c).drv = c.drv ∧
    (endTaken st c).gnt = c.gnt ∧ (endTaken st c).cue = c.cue ∧ (endTaken st c).mbx = c.mbx ∧ (endTaken st c).set =
    c.set ∧ (endTaken st c).mon = c.mon ∧ (endTaken st c).bus = c.bus := by
  unfold endTaken
  try dsimp only
  split <;> simp

@[simp] theorem stopMoving_frame (k : StopCause) (c : Chip) :
    (stopMoving k c).mode = c.mode ∧ (stopMoving k c).clock = c.clock ∧ (stopMoving k c).pins = c.pins ∧ (stopMoving k
    c).free = c.free ∧ (stopMoving k c).trk = c.trk ∧ (stopMoving k c).cue = c.cue ∧ (stopMoving k c).mbx = c.mbx ∧
    (stopMoving k c).set = c.set ∧ (stopMoving k c).mon = c.mon := by
  simp [stopMoving]

@[simp] theorem stopCause_frame (k : StopCause) (c : Chip) :
    (stopCause k c).mode = c.mode ∧ (stopCause k c).clock = c.clock ∧ (stopCause k c).pins = c.pins ∧ (stopCause k
    c).free = c.free ∧ (stopCause k c).trk = c.trk ∧ (stopCause k c).cue = c.cue ∧ (stopCause k c).mbx = c.mbx ∧
    (stopCause k c).set = c.set ∧ (stopCause k c).mon = c.mon := by
  unfold stopCause
  split <;> simp
  all_goals split <;> simp

@[simp] theorem tripPosition_frame (k : TripCause) (c : Chip) :
    (tripPosition k c).mode = c.mode ∧ (tripPosition k c).clock = c.clock ∧ (tripPosition k c).pins = c.pins ∧
    (tripPosition k c).sup = c.sup ∧ (tripPosition k c).drv = c.drv ∧ (tripPosition k c).gnt = c.gnt ∧ (tripPosition k
    c).cue = c.cue ∧ (tripPosition k c).mbx = c.mbx ∧ (tripPosition k c).set = c.set ∧ (tripPosition k c).mon = c.mon
    ∧ (tripPosition k c).bus = c.bus := by
  unfold tripPosition
  dsimp only
  split <;> simp
  all_goals split <;> simp

@[simp] theorem tripNow_frame (k : TripCause) (i : Side) (c : Chip) :
    (tripNow k i c).mode = c.mode ∧ (tripNow k i c).clock = c.clock ∧ (tripNow k i c).pins = c.pins ∧ (tripNow k i
    c).cue = c.cue ∧ (tripNow k i c).mbx = c.mbx ∧ (tripNow k i c).set = c.set ∧ (tripNow k i c).mon = c.mon := by
  simp [tripNow, apply_ite Chip.mode, apply_ite Chip.clock, apply_ite Chip.pins, apply_ite Chip.cue, apply_ite
  Chip.mbx, apply_ite Chip.set, apply_ite Chip.mon]

@[simp] theorem trip_frame (k : TripCause) (i : Side) (c : Chip) :
    (trip k i c).mode = c.mode ∧ (trip k i c).clock = c.clock ∧ (trip k i c).pins = c.pins ∧ (trip k i c).cue = c.cue
    ∧ (trip k i c).mbx = c.mbx ∧ (trip k i c).set = c.set ∧ (trip k i c).mon = c.mon := by
  unfold trip
  try dsimp only
  split <;> simp

@[simp] theorem reply_frame (r : Result) (d : Byte) (c : Chip) :
    (reply r d c).mode = c.mode ∧ (reply r d c).clock = c.clock ∧ (reply r d c).pins = c.pins ∧ (reply r d c).free =
    c.free ∧ (reply r d c).trk = c.trk ∧ (reply r d c).sup = c.sup ∧ (reply r d c).drv = c.drv ∧ (reply r d c).gnt =
    c.gnt ∧ (reply r d c).pln = c.pln ∧ (reply r d c).eng = c.eng ∧ (reply r d c).cue = c.cue ∧ (reply r d c).set =
    c.set ∧ (reply r d c).evt = c.evt ∧ (reply r d c).ntc = c.ntc ∧ (reply r d c).mon = c.mon ∧ (reply r d c).bus =
    c.bus := by
  simp [reply]

@[simp] theorem release_frame (w : Word) (be : Enables) (c : Chip) :
    (release w be c).mode = c.mode ∧ (release w be c).clock = c.clock ∧ (release w be c).pins = c.pins ∧ (release w be
    c).free = c.free ∧ (release w be c).trk = c.trk ∧ (release w be c).sup = c.sup ∧ (release w be c).drv = c.drv ∧
    (release w be c).gnt = c.gnt ∧ (release w be c).pln = c.pln ∧ (release w be c).eng = c.eng ∧ (release w be c).cue
    = c.cue ∧ (release w be c).mbx = c.mbx ∧ (release w be c).set = c.set ∧ (release w be c).evt = c.evt ∧ (release w
    be c).ntc = c.ntc ∧ (release w be c).mon = c.mon := by
  simp [release, hostPhase]

@[simp] theorem dropWrite_frame (c : Chip) :
    (dropWrite c).mode = c.mode ∧ (dropWrite c).clock = c.clock ∧ (dropWrite c).pins = c.pins ∧ (dropWrite c).free =
    c.free ∧ (dropWrite c).trk = c.trk ∧ (dropWrite c).sup = c.sup ∧ (dropWrite c).drv = c.drv ∧ (dropWrite c).gnt =
    c.gnt ∧ (dropWrite c).pln = c.pln ∧ (dropWrite c).eng = c.eng ∧ (dropWrite c).cue = c.cue ∧ (dropWrite c).mbx =
    c.mbx ∧ (dropWrite c).set = c.set ∧ (dropWrite c).evt = c.evt ∧ (dropWrite c).ntc = c.ntc ∧ (dropWrite c).mon =
    c.mon := by
  simp [dropWrite, completeHost]

@[simp] theorem hostPhase_frame (p : HostPhase) (c : Chip) :
    (hostPhase p c).mode = c.mode ∧ (hostPhase p c).clock = c.clock ∧ (hostPhase p c).pins = c.pins ∧ (hostPhase p
    c).free = c.free ∧ (hostPhase p c).trk = c.trk ∧ (hostPhase p c).sup = c.sup ∧ (hostPhase p c).drv = c.drv ∧
    (hostPhase p c).gnt = c.gnt ∧ (hostPhase p c).pln = c.pln ∧ (hostPhase p c).eng = c.eng ∧ (hostPhase p c).cue =
    c.cue ∧ (hostPhase p c).mbx = c.mbx ∧ (hostPhase p c).set = c.set ∧ (hostPhase p c).evt = c.evt ∧ (hostPhase p
    c).ntc = c.ntc ∧ (hostPhase p c).mon = c.mon := by
  simp [hostPhase]

@[simp] theorem completeHost_frame (d : HostDone) (c : Chip) :
    (completeHost d c).mode = c.mode ∧ (completeHost d c).clock = c.clock ∧ (completeHost d c).pins = c.pins ∧
    (completeHost d c).free = c.free ∧ (completeHost d c).trk = c.trk ∧ (completeHost d c).sup = c.sup ∧ (completeHost
    d c).drv = c.drv ∧ (completeHost d c).gnt = c.gnt ∧ (completeHost d c).pln = c.pln ∧ (completeHost d c).eng =
    c.eng ∧ (completeHost d c).cue = c.cue ∧ (completeHost d c).mbx = c.mbx ∧ (completeHost d c).set = c.set ∧
    (completeHost d c).evt = c.evt ∧ (completeHost d c).ntc = c.ntc ∧ (completeHost d c).mon = c.mon := by
  simp [completeHost]

@[simp] theorem postWriteDropped_frame (d n t : Nat) (c : Chip) :
    (postWriteDropped d n t c).mode = c.mode ∧ (postWriteDropped d n t c).clock = c.clock ∧ (postWriteDropped d n t
    c).pins = c.pins ∧ (postWriteDropped d n t c).free = c.free ∧ (postWriteDropped d n t c).trk = c.trk ∧
    (postWriteDropped d n t c).sup = c.sup ∧ (postWriteDropped d n t c).drv = c.drv ∧ (postWriteDropped d n t c).gnt =
    c.gnt ∧ (postWriteDropped d n t c).pln = c.pln ∧ (postWriteDropped d n t c).eng = c.eng ∧ (postWriteDropped d n t
    c).cue = c.cue ∧ (postWriteDropped d n t c).mbx = c.mbx ∧ (postWriteDropped d n t c).set = c.set ∧
    (postWriteDropped d n t c).mon = c.mon ∧ (postWriteDropped d n t c).bus = c.bus := by
  simp [postWriteDropped]

@[simp] theorem postRefused_frame (i : RingId) (n : Nat) (k : RefCode) (t : Nat) (c : Chip) :
    (postRefused i n k t c).mode = c.mode ∧ (postRefused i n k t c).clock = c.clock ∧ (postRefused i n k t c).pins =
    c.pins ∧ (postRefused i n k t c).free = c.free ∧ (postRefused i n k t c).trk = c.trk ∧ (postRefused i n k t c).sup
    = c.sup ∧ (postRefused i n k t c).drv = c.drv ∧ (postRefused i n k t c).gnt = c.gnt ∧ (postRefused i n k t c).pln
    = c.pln ∧ (postRefused i n k t c).eng = c.eng ∧ (postRefused i n k t c).cue = c.cue ∧ (postRefused i n k t c).mbx
    = c.mbx ∧ (postRefused i n k t c).set = c.set ∧ (postRefused i n k t c).mon = c.mon ∧ (postRefused i n k t c).bus
    = c.bus := by
  simp [postRefused]

@[simp] theorem postMemoryFault_frame (d n : Nat) (c : Chip) :
    (postMemoryFault d n c).mode = c.mode ∧ (postMemoryFault d n c).clock = c.clock ∧ (postMemoryFault d n c).pins =
    c.pins ∧ (postMemoryFault d n c).free = c.free ∧ (postMemoryFault d n c).trk = c.trk ∧ (postMemoryFault d n c).sup
    = c.sup ∧ (postMemoryFault d n c).drv = c.drv ∧ (postMemoryFault d n c).gnt = c.gnt ∧ (postMemoryFault d n c).pln
    = c.pln ∧ (postMemoryFault d n c).eng = c.eng ∧ (postMemoryFault d n c).cue = c.cue ∧ (postMemoryFault d n c).mbx
    = c.mbx ∧ (postMemoryFault d n c).set = c.set ∧ (postMemoryFault d n c).mon = c.mon ∧ (postMemoryFault d n c).bus
    = c.bus := by
  simp [postMemoryFault]

@[simp] theorem returnPlan_frame (c : Chip) :
    (returnPlan c).mode = c.mode ∧ (returnPlan c).clock = c.clock ∧ (returnPlan c).pins = c.pins ∧ (returnPlan c).free
    = c.free ∧ (returnPlan c).trk = c.trk ∧ (returnPlan c).sup = c.sup ∧ (returnPlan c).drv = c.drv ∧ (returnPlan
    c).gnt = c.gnt ∧ (returnPlan c).cue = c.cue ∧ (returnPlan c).mbx = c.mbx ∧ (returnPlan c).set = c.set ∧
    (returnPlan c).mon = c.mon ∧ (returnPlan c).bus = c.bus := by
  simp [returnPlan]

end Sys2Proof.Laws
end

