-- ==== Sys2Proof/Laws/Host.lean ====
section
/-! SUPPORT. What a host cycle to a window word comes to, said once: its offset, and for a running part with the port free
and no hold, the disposal of its region. -/

namespace Sys2Proof.Laws

open Sys2Proof.Machine

/-- The full address of a window word fits the 24 address lines. -/
theorem windowAddr_lt (c : Chip) {off : Nat} (h : off < 0x10000) : windowAddr c off < 2 ^ 24 := by
  have := c.bus.winsel.isLt
  simp only [windowAddr]; omega

/-- An address in the window names its word. -/
theorem windowOffset_in {c : Chip} {a : Nat}
    (h : 0x100000 * c.bus.winsel.toNat ≤ a ∧ a < 0x10000 + 0x100000 * c.bus.winsel.toNat) :
    windowOffset c a = some ((a - 0x100000 * c.bus.winsel.toNat) / 4 * 4) := by
  unfold windowOffset; exact if_pos h

/-- An address outside the window names none. -/
theorem windowOffset_out {c : Chip} {a : Nat}
    (h : ¬ (0x100000 * c.bus.winsel.toNat ≤ a ∧ a < 0x10000 + 0x100000 * c.bus.winsel.toNat)) :
    windowOffset c a = none := by
  unfold windowOffset; exact if_neg h

/-- The address of a window word names that word. -/
theorem windowOffset_windowAddr (c : Chip) {off : Nat} (h : off < 0x10000) (h4 : off % 4 = 0) :
    windowOffset c (BitVec.ofNat 24 (windowAddr c off)).toNat = some off := by
  rw [BitVec.toNat_ofNat, Nat.mod_eq_of_lt (windowAddr_lt c h)]
  have hb : 0x100000 * c.bus.winsel.toNat ≤ windowAddr c off ∧
      windowAddr c off < 0x10000 + 0x100000 * c.bus.winsel.toNat := by
    simp only [windowAddr]; omega
  have he : (windowAddr c off - 0x100000 * c.bus.winsel.toNat) / 4 * 4 = off := by
    simp only [windowAddr]; omega
  rw [windowOffset_in hb, he]

/-- The part with a host cycle newly at its host port. -/
def arrived (cy : HostCyc) (c : Chip) : Chip := onBus (fun b => { b with host := some ⟨cy, .held⟩, done := .none }) c

/-- Holds do not look at the host port. -/
@[simp] theorem heldCycle_arrived (cy : HostCyc) (off : Nat) (w : Bool) (c : Chip) :
    heldCycle off w (arrived cy c) = heldCycle off w c := rfl

/-- Neither does the window. -/
theorem windowOffset_arrived (cy : HostCyc) (a : Nat) (c : Chip) :
    windowOffset (arrived cy c) a = windowOffset c a := by
  have hb : (arrived cy c).bus.winsel = c.bus.winsel := rfl
  by_cases h : 0x100000 * c.bus.winsel.toNat ≤ a ∧ a < 0x10000 + 0x100000 * c.bus.winsel.toNat
  · have h' := h
    rw [← hb] at h'
    rw [windowOffset_in h, windowOffset_in h', hb]
  · have h' := h
    rw [← hb] at h'
    rw [windowOffset_out h, windowOffset_out h']

/-- The cycle newly at the port. -/
theorem arrived_host (cy : HostCyc) (c : Chip) : (arrived cy c).bus.host = some ⟨cy, .held⟩ := rfl

/-- The mode stands. -/
theorem arrived_mode (cy : HostCyc) (c : Chip) : (arrived cy c).mode = c.mode := rfl

/-- A cycle that finds a running part with its port free is classified. -/
theorem startCycle_classify {c : Chip} {cy : HostCyc} (hm : c.mode = .running) (hh : c.bus.host = none) :
    startCycle cy c = classify (arrived cy c) := by
  unfold startCycle; rw [hh]; dsimp only; unfold driveCycle; rw [hm]; rfl

/-- A cycle that finds one at the port is the host's next. -/
theorem startCycle_next {c : Chip} {cy : HostCyc} {h : HostPort} (hh : c.bus.host = some h) :
    startCycle cy c = onBus (·.queueNext cy) c := by
  unfold startCycle; rw [hh]

/-- With no next cycle the host drives none. -/
theorem driveNext_none {c : Chip} (h : c.bus.next = none) : driveNext c = c ∧ driveOn c = c := by
  unfold driveNext driveOn; rw [h]; cases c.bus.host <;> exact ⟨rfl, rfl⟩

/-- With a cycle still at the port the host drives none. -/
theorem driveNext_busy {c : Chip} {h : HostPort} (hh : c.bus.host = some h) : driveNext c = c ∧ driveOn c = c := by
  unfold driveNext driveOn; rw [hh]; exact ⟨rfl, rfl⟩

/-- The host's next cycle driven at the free port. -/
theorem driveNext_some {c : Chip} {cy : HostCyc} (hh : c.bus.host = none) (h : c.bus.next = some cy) :
    driveNext c = driveCycle cy (onBus (fun b => { b with next := none, prior := b.done }) c) ∧
      driveOn c = tail (driveCycle cy (onBus (fun b => { b with next := none, prior := b.done }) c)) := by
  unfold driveOn driveNext; rw [hh, h]; exact ⟨rfl, rfl⟩

/-- Where a next cycle stands only behind one at the port, none is driven. -/
theorem driveNext_ok {c : Chip} (h : c.bus.next ≠ none → c.bus.host ≠ none) : driveNext c = c ∧ driveOn c = c := by
  cases hn : c.bus.next with
  | none => exact driveNext_none hn
  | some cy =>
    cases hh : c.bus.host with
    | none => exact absurd hh (h (by rw [hn]; exact Option.some_ne_none cy))
    | some p => exact driveNext_busy hh

/-- A fetch's read goes first (R158). -/
theorem granted?_fetch {c : Chip} {r : Machine.Cycle}
    (h : (HandFetch.next? c).or ((mailNext? c).or (sweepNext? c)) = some r) : granted? c = some r := by
  unfold granted?; rw [← Option.or_assoc, ← Option.or_assoc, Option.or_assoc (o₁ := HandFetch.next? c), h]; rfl

/-- With no fetch's read, the host and the queue (R158). -/
theorem granted?_idle {c : Chip} (h : (HandFetch.next? c).or ((mailNext? c).or (sweepNext? c)) = none) :
    granted? c = match hostNext? c, c.bus.queue with
      | some h, [] => some h
      | some h, w :: _ => if c.bus.passOver < passOverLimit then some h else some (.part (windowAddr c w.offset) w)
      | none, w :: _ =>
        if releaseDue c ∧ c.bus.passOver < passOverLimit then none else some (.part (windowAddr c w.offset) w)
      | none, [] => none := by
  unfold granted?; rw [← Option.or_assoc, ← Option.or_assoc, Option.or_assoc (o₁ := HandFetch.next? c), h]; rfl

/-- A cycle at the port is taken by the window offset its address names. -/
theorem classify_port {c : Chip} {h : HostPort} (hp : c.bus.host = some h) :
    classify c = classifyAt h c (windowOffset c h.cyc.addr.toNat) := by
  simp only [classify, hp]

/-- What becomes of a cycle to a window word. -/
theorem classifyAt_some (h : HostPort) (c : Chip) (off : Nat) : classifyAt h c (some off) =
    if off < 0x100 then disposeLive h.cyc off c
    else if heldCycle off h.cyc.write c then hostPhase .held c
    else if c.mode = .startup then disposeStartup h.cyc c
    else disposeRunning h.cyc off c := rfl

/-- A cycle to a window word above the live window on which no hold stands is disposed of. -/
theorem classify_at {c : Chip} {h : HostPort} {off : Nat} (hp : c.bus.host = some h)
    (hw : windowOffset c h.cyc.addr.toNat = some off) (hl : ¬ off < 0x100)
    (hd : heldCycle off h.cyc.write c = false) :
    classify c = if c.mode = .startup then disposeStartup h.cyc c else disposeRunning h.cyc off c := by
  rw [classify_port hp, hw, classifyAt_some, if_neg hl, hd]; rfl

/-- A host write is disposed of as its word gives. -/
theorem disposeRunning_write {cy : HostCyc} (h : cy.write = true) (off : Nat) (c : Chip) :
    disposeRunning cy off c = windowWrite off cy.data cy.be c := by
  unfold disposeRunning; exact if_pos h

/-- A host write to a window word above the live window, with the port free and no hold, is taken as its region gives. -/
theorem startCycle_write {c : Chip} {off : Nat} (h : off < 0x10000) (h4 : off % 4 = 0) (hl : 0x100 ≤ off)
    (hm : c.mode = .running) (hh : c.bus.host = none) (hd : heldCycle off true c = false) (data : Word) (be : Enables) :
    startCycle (windowCycle off true data be c) c =
      windowWrite off data be (arrived (windowCycle off true data be c) c) := by
  have hw : windowOffset (arrived (windowCycle off true data be c) c) (windowCycle off true data be c).addr.toNat =
      some off := by
    rw [windowOffset_arrived]; exact windowOffset_windowAddr c h h4
  have hd' : heldCycle off true (arrived (windowCycle off true data be c) c) = false := by
    rw [heldCycle_arrived]; exact hd
  have hm' : (arrived (windowCycle off true data be c) c).mode = .running := by rw [arrived_mode]; exact hm
  have hp := arrived_host (windowCycle off true data be c) c
  have hl' : ¬ off < 0x100 := by omega
  have h1 : (windowCycle off true data be c).write = true := rfl
  have h2 : (windowCycle off true data be c).data = data := rfl
  have h3 : (windowCycle off true data be c).be = be := rfl
  rw [startCycle_classify hm hh]
  generalize arrived (windowCycle off true data be c) c = x at hw hd' hm' hp ⊢
  generalize windowCycle off true data be c = y at hw hp h1 h2 h3 ⊢
  rw [classify_at hp hw hl' (by rw [h1]; exact hd'), hm', disposeRunning_write h1, h2, h3]
  exact if_neg (by decide)

/-- As `startCycle_write`, for a whole host write. -/
theorem hostWriteStep_eq {c : Chip} {off : Nat} (h : off < 0x10000) (h4 : off % 4 = 0) (hl : 0x100 ≤ off)
    (hm : c.mode = .running) (hh : c.bus.host = none) (hd : heldCycle off true c = false) (data : Word) (be : Enables) :
    hostWriteStep off data be c = done (windowWrite off data be (arrived (windowCycle off true data be c) c)) := by
  rw [hostWriteStep, hostStep, startCycle_write h h4 hl hm hh hd]

/-- A slot's words lie in its ring, and name the slot and the word. -/
theorem slotOf_slotOffset (id : RingId) {slot word : Nat} (hs : slot < id.size) (hw : word < 8) :
    slotOf (slotOffset id slot + 4 * word) = some (id, slot, word) := by
  cases id <;> simp only [RingId.size] at hs
  · have h1 : 0x1000 ≤ slotOffset .urgent slot + 4 * word ∧ slotOffset .urgent slot + 4 * word < 0x1100 := by
      simp only [slotOffset]; omega
    have h2 : (slotOffset .urgent slot + 4 * word - 0x1000) / 32 = slot := by simp only [slotOffset]; omega
    have h3 : (slotOffset .urgent slot + 4 * word - 0x1000) % 32 / 4 = word := by simp only [slotOffset]; omega
    simp [slotOf, h1, h2, h3]
  · have h0 : ¬ (0x1000 ≤ slotOffset .main slot + 4 * word ∧ slotOffset .main slot + 4 * word < 0x1100) := by
      simp only [slotOffset]; omega
    have h1 : 0x2000 ≤ slotOffset .main slot + 4 * word ∧ slotOffset .main slot + 4 * word < 0x2800 := by
      simp only [slotOffset]; omega
    have h2 : (slotOffset .main slot + 4 * word - 0x2000) / 32 = slot := by simp only [slotOffset]; omega
    have h3 : (slotOffset .main slot + 4 * word - 0x2000) % 32 / 4 = word := by simp only [slotOffset]; omega
    simp [slotOf, h0, h1, h2, h3]

/-- A slot's words lie in the window above the live window. -/
theorem slotOffset_range (id : RingId) {slot word : Nat} (hs : slot < id.size) (hw : word < 8) :
    slotOffset id slot + 4 * word < 0x10000 ∧ (slotOffset id slot + 4 * word) % 4 = 0 ∧
      0x100 ≤ slotOffset id slot + 4 * word := by
  cases id <;> simp only [RingId.size, slotOffset] at hs ⊢ <;> omega

/-- A host write to a word of a slot, with the port free and no hold, is decided by the intake. -/
theorem slotWriteStep_eq {c : Chip} (id : RingId) {slot word : Nat} (hs : slot < id.size) (hw : word < 8)
    (hm : c.mode = .running) (hh : c.bus.host = none) (hd : heldCycle (slotOffset id slot + 4 * word) true c = false)
    (data : Word) (be : Enables) :
    hostWriteStep (slotOffset id slot + 4 * word) data be c =
      done (writeSlot id slot word data be
        (arrived (windowCycle (slotOffset id slot + 4 * word) true data be c) c)) := by
  obtain ⟨h1, h2, h3⟩ := slotOffset_range id hs hw
  rw [hostWriteStep_eq h1 h2 h3 hm hh hd]
  simp only [windowWrite, slotOf_slotOffset id hs hw]

end Sys2Proof.Laws
end

