-- ==== Sys2Proof/Laws/Keeps.lean ====
section
/-! SUPPORT. What always stands, kept by each operation of the part: `Kept a c` says that whatever of it stood in `a` stands
in `c`, and one lemma for each operation carries it through. -/

namespace Sys2Proof.Laws

open Sys2Proof Sys2Proof.Machine

/-! ## The stage -/

/-- What stands of a stage in `a` stands in `d`: the brake law, the torques, the pinch law (R58, R59, R64). -/
structure DriveKept (a d : Drive) : Prop where
  brakes : a.brakeLaw = true → d.brakeLaw = true
  torques : a.sup.torqueOk ∧ a.tup.torqueOk → d.sup.torqueOk ∧ d.tup.torqueOk
  pinch : (a.pinch = .pinched → a.capRun = true) → d.pinch = .pinched → d.capRun = true

theorem DriveKept.refl (d : Drive) : DriveKept d d := ⟨id, id, id⟩

theorem DriveKept.trans {a b d : Drive} (h : DriveKept a b) (k : DriveKept b d) : DriveKept a d :=
  ⟨k.brakes ∘ h.brakes, k.torques ∘ h.torques, k.pinch ∘ h.pinch⟩


theorem driveKept_carryOutOffs (d : Drive) : DriveKept d d.carryOutOffs := by
  unfold Drive.carryOutOffs
  split
  · rename_i h
    simp only [Drive.bothEngaged, Bool.and_eq_true] at h
    refine ⟨fun _ => ?_, fun k => ?_, id⟩
    · simp only [Drive.brakeLaw, Drive.bothEngaged, ReelOut.dropHeld, ReelOut.offNow]
      split <;> split <;> simp [h]
    · simp only [ReelOut.torqueOk, ReelOut.dropHeld, ReelOut.offNow] at k ⊢
      constructor
      · split <;> [exact fun _ => rfl; exact k.1]
      · split <;> [exact fun _ => rfl; exact k.2]
  · exact .refl d

theorem driveKept_carryOutReleases (d : Drive) : DriveKept d d.carryOutReleases := by
  unfold Drive.carryOutReleases
  split
  · rename_i h
    simp only [Drive.bothDriven, Bool.and_eq_true, bne_iff_ne] at h
    refine ⟨fun _ => ?_, fun k => ?_, id⟩
    · simp only [Drive.brakeLaw, Drive.bothDriven, ReelOut.releaseHeld]
      split <;> split <;> simp [h]
    · simp only [ReelOut.torqueOk, ReelOut.releaseHeld] at k ⊢
      constructor
      · split <;> exact k.1
      · split <;> exact k.2
  · exact .refl d

/-- The brake part of an order keeps the brake law. -/
theorem driveKept_brakePart (d : Drive) (r : Reel) (e : Bool) : DriveKept d (d.brakePart r e) := by
  unfold Drive.brakePart
  cases e
  · rw [if_neg Bool.false_ne_true]
    split
    · rename_i h
      simp only [Drive.bothDriven, Bool.and_eq_true, bne_iff_ne] at h
      cases r <;> exact ⟨fun _ => by simp [Drive.brakeLaw, Drive.bothDriven, Drive.withReel, Drive.reel, h], id, id⟩
    · split
      · cases r <;> exact ⟨id, id, id⟩
      · exact .refl d
  · rw [if_pos rfl]
    refine DriveKept.trans ?_ (driveKept_carryOutOffs _)
    cases r <;>
      exact ⟨by simp only [Drive.brakeLaw, Drive.bothEngaged, Drive.bothDriven, Drive.withReel, Drive.reel]
                cases d.sup.engaged <;> cases d.tup.engaged <;> simp, id, id⟩

/-- The drive part of an order keeps the brake law. -/
theorem driveKept_drivePart (d : Drive) (r : Reel) (m : DriveMode) (t : Int) : DriveKept d (d.drivePart r m t) := by
  unfold Drive.drivePart
  cases m <;> dsimp only
  · split
    · rename_i h
      simp only [Drive.bothEngaged, Bool.and_eq_true] at h
      cases r <;>
        exact ⟨fun _ => by simp [Drive.brakeLaw, Drive.bothEngaged, Drive.withReel, Drive.reel, ReelOut.offNow, h],
          fun k => by simp_all [ReelOut.torqueOk, Drive.withReel, Drive.reel, ReelOut.offNow], id⟩
    · cases r <;>
        exact ⟨by simp only [Drive.brakeLaw, Drive.bothEngaged, Drive.bothDriven, Drive.withReel, Drive.reel]
                  cases d.sup.mode <;> cases d.tup.mode <;> simp +decide,
          fun k => by simp_all [ReelOut.torqueOk, Drive.withReel, Drive.reel], id⟩
  all_goals
    refine DriveKept.trans ?_ (driveKept_carryOutReleases _)
    cases r <;>
      exact ⟨by simp only [Drive.brakeLaw, Drive.bothEngaged, Drive.bothDriven, Drive.withReel, Drive.reel]
                cases d.sup.mode <;> cases d.tup.mode <;> simp +decide,
        fun k => by simp_all [ReelOut.torqueOk, Drive.withReel, Drive.reel], id⟩

theorem driveKept_order (d : Drive) (r : Reel) (m : DriveMode) (t : Int) (e : Bool) : DriveKept d (d.order r m t e) := by
  simp only [Drive.order]; split
  · exact (driveKept_brakePart _ _ _).trans (driveKept_drivePart _ _ _ _)
  · exact (driveKept_drivePart _ _ _ _).trans (driveKept_brakePart _ _ _)

theorem driveKept_followed (d : Drive) (r : Reel) (b : Bool) : DriveKept d (d.followed r b) := by
  cases r <;> exact ⟨id, id, id⟩

theorem driveKept_emergency (d : Drive) (r : Reel) (x y : Nat) : DriveKept d (d.emergency r x y) := by
  simp only [Drive.emergency]; split <;> exact (driveKept_order _ _ _ _ _).trans (driveKept_followed _ _ _)

theorem driveKept_followReel (d : Drive) (r : Reel) (x y : Nat) : DriveKept d (d.followReel r x y) := by
  simp only [Drive.followReel]; split
  · exact (driveKept_order _ _ _ _ _).trans (driveKept_followed _ _ _)
  · exact .refl d

theorem driveKept_orderBoth (d : Drive) (m : DriveMode) (t : Int) (e : Bool) : DriveKept d (d.orderBoth m t e) :=
  (driveKept_order _ _ _ _ _).trans (driveKept_order _ _ _ _ _)

theorem driveKept_pinchAway (d : Drive) (n : Nat) : DriveKept d (d.pinchAway n) := by
  simp only [Drive.pinchAway]; split <;> exact ⟨id, id, by simp_all⟩

theorem driveKept_release (d : Drive) (n : Nat) : DriveKept d (d.release n) := by
  simp only [Drive.release, Drive.capstanStop, Drive.pinchAway]; split <;> exact ⟨id, id, by simp_all⟩

theorem driveKept_capstanOff (d : Drive) (n : Nat) : DriveKept d (d.capstanOff n) := by
  simp only [Drive.capstanOff, Drive.capstanStop, Drive.pinchAway]
  split <;> (try split) <;> exact ⟨id, id, by simp_all⟩

theorem driveKept_capstanRun (d : Drive) (v : Int) : DriveKept d (d.capstanRun v) := ⟨id, id, fun _ _ => rfl⟩

theorem driveKept_pinchInRequest (d : Drive) (b : Bool) (n : Nat) : DriveKept d (d.pinchInRequest b n) := by
  simp only [Drive.pinchInRequest]; split
  · exact ⟨id, id, by simp⟩
  · exact .refl d

theorem driveKept_pinchEnds (d : Drive) (b : Bool) (n : Nat) : DriveKept d (d.pinchEnds b n) := by
  simp only [Drive.pinchEnds, Drive.capstanStop]; split <;> (try split) <;> exact ⟨id, id, by simp_all⟩

theorem driveKept_capstanStop (d : Drive) (h : d.pinch = .out) : DriveKept d d.capstanStop :=
  ⟨id, id, by simp [Drive.capstanStop, h]⟩

/-! ## The part -/

/-- The event ring as R179 and R182 leave it: its indices in the ring, a full ring and a dropped event under an overrun,
and nothing of it outside a running part. -/
def evtOk (c : Chip) : Prop :=
  (c.evt.write < 128 ∧ c.evt.consumed < 128) ∧
  (c.evt.overrun = true → (c.evt.write + 128 - c.evt.consumed) % 128 = 127 ∧ 0 < c.evt.dropped) ∧
  (c.evt.overrun = false → c.evt.dropped = 0) ∧
  (c.mode ≠ .running → c.evt.write = 0 ∧ c.evt.consumed = 0 ∧ c.evt.overrun = false ∧ c.evt.posted = [])

/-- The writer as `evtOk` reads it. -/
def evtView (e : EventWriter) : Nat × Nat × Bool × Nat × List Event :=
  (e.write, e.consumed, e.overrun, e.dropped, e.posted)

theorem evtOk_same {c d : Chip} (h : evtView d.evt = evtView c.evt) (k : d.mode = c.mode) (x : evtOk c) : evtOk d := by
  simp only [evtView, Prod.mk.injEq] at h
  obtain ⟨h1, h2, h3, h4, h5⟩ := h
  unfold evtOk at x ⊢
  rw [h1, h2, h3, h4, h5, k]; exact x

/-- A writer at reset is in order in every mode. -/
theorem evtOk_reset (c : Chip) (h : evtView c.evt = (0, 0, false, 0, [])) : evtOk c := by
  simp only [evtView, Prod.mk.injEq] at h
  obtain ⟨h1, h2, h3, h4, h5⟩ := h
  unfold evtOk
  rw [h1, h2, h3, h4, h5]; simp

/-- What stands in `a` stands in `c`. -/
structure Kept (a c : Chip) : Prop where
  drive : DriveKept a.drv c.drv
  position : (-16777216 ≤ a.trk.position ∧ a.trk.position ≤ 16777215) →
    -16777216 ≤ c.trk.position ∧ c.trk.position ≤ 16777215
  valid : (a.trk.valid = true → a.trk.path = .present) → c.trk.valid = true → c.trk.path = .present
  trim : (-(a.gnt.variRange : Int) ≤ a.gnt.trim ∧ a.gnt.trim ≤ (a.gnt.variRange : Int)) →
    -(c.gnt.variRange : Int) ≤ c.gnt.trim ∧ c.gnt.trim ≤ (c.gnt.variRange : Int)
  queue : a.bus.queue.length ≤ 12 → c.bus.queue.length ≤ 12
  notices : (a.ntc.pending &&& ~~~a.ntc.mask = 0 ∧ (a.mode ≠ .running → a.ntc.pending = 0)) →
    c.ntc.pending &&& ~~~c.ntc.mask = 0 ∧ (c.mode ≠ .running → c.ntc.pending = 0)
  events : evtOk a → evtOk c

theorem Kept.refl (c : Chip) : Kept c c := ⟨.refl _, id, id, id, id, id, id⟩

theorem Kept.trans {a b c : Chip} (h : Kept a b) (k : Kept b c) : Kept a c :=
  ⟨h.drive.trans k.drive, k.position ∘ h.position, k.valid ∘ h.valid, k.trim ∘ h.trim, k.queue ∘ h.queue,
    k.notices ∘ h.notices, k.events ∘ h.events⟩

/-- A change of the blocks of which nothing here is said. -/
theorem Kept.same {a c : Chip} (h : Kept a c) {d : Chip} (h1 : d.drv = c.drv) (h2 : d.trk.position = c.trk.position)
    (h3 : d.trk.valid = c.trk.valid) (h4 : d.trk.path = c.trk.path) (h5 : d.gnt.trim = c.gnt.trim)
    (h6 : d.gnt.active = c.gnt.active) (h7 : d.bus.queue = c.bus.queue) (h8 : d.ntc = c.ntc) (h9 : d.mode = c.mode)
    (h10 : evtView d.evt = evtView c.evt) : Kept a d := by
  obtain ⟨k1, k2, k3, k4, k5, k6, k7⟩ := h
  refine ⟨by rwa [h1], by rwa [h2], by rwa [h3, h4], ?_, by rwa [h7], by rwa [h8, h9],
    evtOk_same h10 h9 ∘ k7⟩
  simp only [GrantUnit.variRange, h5, h6] at k4 ⊢; exact k4

theorem kept_onDrive {a c : Chip} {f : Drive → Drive} (h : Kept a c) (k : DriveKept c.drv (f c.drv)) :
    Kept a (onDrive f c) := h.trans ⟨k, id, id, id, id, id, id⟩

theorem kept_onSup {a c : Chip} (f : Supervisor → Supervisor) (h : Kept a c) : Kept a (onSup f c) := by
  exact h.same rfl rfl rfl rfl rfl rfl rfl rfl rfl rfl

theorem kept_onPln {a c : Chip} (f : Plan → Plan) (h : Kept a c) : Kept a (onPln f c) := by
  exact h.same rfl rfl rfl rfl rfl rfl rfl rfl rfl rfl

theorem kept_onEng {a c : Chip} (f : Engine → Engine) (h : Kept a c) : Kept a (onEng f c) := by
  exact h.same rfl rfl rfl rfl rfl rfl rfl rfl rfl rfl

theorem kept_onMbx {a c : Chip} (f : Mailbox → Mailbox) (h : Kept a c) : Kept a (onMbx f c) := by
  exact h.same rfl rfl rfl rfl rfl rfl rfl rfl rfl rfl

theorem kept_onSet {a c : Chip} (f : Store → Store) (h : Kept a c) : Kept a (onSet f c) := by
  exact h.same rfl rfl rfl rfl rfl rfl rfl rfl rfl rfl

theorem kept_onEvt {a c : Chip} (f : EventWriter → EventWriter) (h : Kept a c) (k : evtOk a → evtOk (onEvt f c)) :
    Kept a (onEvt f c) :=
  ⟨h.drive, h.position, h.valid, h.trim, h.queue, h.notices, k⟩

theorem kept_onMon {a c : Chip} (f : Monitor → Monitor) (h : Kept a c) : Kept a (onMon f c) := by
  exact h.same rfl rfl rfl rfl rfl rfl rfl rfl rfl rfl

theorem kept_postNotice {a c : Chip} (k : Notice) (h : Kept a c) : Kept a (postNotice k c) := by
  refine h.trans ?_
  simp only [postNotice]
  split
  · refine ⟨.refl _, id, id, id, id, fun n => ⟨?_, by simp_all⟩, id⟩
    have := n.1
    simp only [NoticeUnit.post]
    apply BitVec.eq_of_getLsbD_eq
    intro i hi
    have := congrArg (fun x : BitVec 16 => x.getLsbD i) this
    simp only [BitVec.getLsbD_and, BitVec.getLsbD_or, BitVec.getLsbD_not, hi, decide_true,
      Bool.true_and] at this ⊢
    revert this
    cases c.ntc.pending.getLsbD i <;> cases c.ntc.mask.getLsbD i <;> simp
  · exact (Kept.refl c).same rfl rfl rfl rfl rfl rfl rfl rfl rfl rfl
  · exact .refl c

theorem kept_postEventAt {a c : Chip} (k : EventKind) (d t : Nat) (v p : Int) (h : Kept a c) : Kept a (postEventAt k d t v p c) := by
  simp only [postEventAt]
  split
  · rename_i hm
    exact ⟨h.drive, h.position, h.valid, h.trim, h.queue, h.notices, fun x =>
      ⟨(h.events x).1, (h.events x).2.1, (h.events x).2.2.1, fun hn => absurd hm hn⟩⟩
  · exact h.same rfl rfl rfl rfl rfl rfl rfl rfl rfl rfl
  · exact h

theorem kept_postEvent {a c : Chip} (k : EventKind) (d t : Nat) (v : Int) (h : Kept a c) : Kept a (postEvent k d t v c) := by
  exact kept_postEventAt _ _ _ _ _ h

theorem kept_postTrackerEvent {a c : Chip} (k : EventKind) (d : Nat) (h : Kept a c) : Kept a (postTrackerEvent k d c) := by
  simp only [postTrackerEvent]
  repeat' first
    | with_reducible assumption
    | with_reducible apply kept_postEvent
    | split

theorem kept_postTrackerNotice {a c : Chip} (k : Notice) (h : Kept a c) : Kept a (postTrackerNotice k c) := by
  simp only [postTrackerNotice]
  repeat' first
    | with_reducible assumption
    | with_reducible apply kept_postNotice
    | split

theorem kept_setLatch {a c : Chip} (h : Kept a c) : Kept a (setLatch c) := by
  simp only [setLatch]; split
  · exact h
  · exact kept_postNotice _ (h.same rfl rfl rfl rfl rfl rfl rfl rfl rfl rfl)

theorem kept_withWaiting {a c : Chip} (p : Poster) (ws : List PartWrite) (h : Kept a c) : Kept a (withWaiting p ws c) := by
  cases p <;> exact h.same rfl rfl rfl rfl rfl rfl rfl rfl rfl rfl

theorem kept_postWrite {a c : Chip} (p : Poster) (w : PartWrite) (h : Kept a c) : Kept a (postWrite p w c) := by
  simp only [postWrite]; split
  · rename_i hq
    refine h.trans ⟨.refl _, id, id, id, fun _ => ?_, id, id⟩
    simp only [List.length_append, List.length_singleton, queueDepth] at hq ⊢
    omega
  · exact kept_withWaiting _ _ h

theorem kept_postWrites {a c : Chip} (p : Poster) (ws : List PartWrite) (h : Kept a c) : Kept a (postWrites p ws c) := by
  induction ws generalizing c with
  | nil => exact h
  | cons w ws ih => exact ih (kept_postWrite p w h)

theorem clampInt_range (m : Nat) (v : Int) : -(m : Int) ≤ clampInt m v ∧ clampInt m v ≤ (m : Int) := by
  simp only [clampInt]; omega

/-- After a re-clamp the trim lies in the grant's range (R90). -/
theorem reclampTrim_trim (c : Chip) : -((reclampTrim c).gnt.variRange : Int) ≤ (reclampTrim c).gnt.trim ∧
    (reclampTrim c).gnt.trim ≤ ((reclampTrim c).gnt.variRange : Int) := by
  unfold reclampTrim; dsimp only; split
  · rename_i he
    rw [← he]; exact clampInt_range _ _
  · obtain ⟨w1, _, w3, _⟩ := postWrite_grant ⟨trimOffset, wordOfInt (clampInt c.gnt.variRange c.gnt.trim), allBytes⟩
      (onGnt (fun g => { g with trim := clampInt c.gnt.variRange c.gnt.trim }) c)
    simp only [postNotice_gnt, postEvent_gnt]
    rw [w3]
    have hv : ∀ g : GrantUnit, g.active = c.gnt.active → g.variRange = c.gnt.variRange := fun g hg => by
      simp only [GrantUnit.variRange, hg]
    rw [hv _ w1]; exact clampInt_range _ _


theorem kept_reclampTrim {a c : Chip} (h : Kept a c) : Kept a (reclampTrim c) := by
  refine h.trans ?_
  have t := reclampTrim_trim c
  unfold reclampTrim at t ⊢
  dsimp only at t ⊢
  split
  · exact .refl c
  · refine kept_postNotice _ (kept_postEvent _ _ _ _ (kept_postWrite _ _ ?_))
    exact ⟨.refl _, id, id, fun _ => clampInt_range _ _, id, id, id⟩

theorem kept_setGrant {a c : Chip} (x : Option Granted) (l : List Granted) (h : Kept a c) : Kept a (setGrant x l c) := by
  have k := kept_reclampTrim (.refl (onGnt (fun g => { g with active := x, fallback := l }) c))
  exact h.trans ⟨k.drive, k.position, k.valid, fun _ => reclampTrim_trim _, k.queue, k.notices, k.events⟩

theorem kept_onGnt {a c : Chip} {f : GrantUnit → GrantUnit} (h : Kept a c) (h1 : (f c.gnt).trim = c.gnt.trim)
    (h2 : (f c.gnt).active = c.gnt.active) : Kept a (onGnt f c) := h.same rfl rfl rfl rfl h1 h2 rfl rfl rfl rfl

theorem kept_free {a c : Chip} (n : Nat) (h : Kept a c) : Kept a { c with free := n } :=
  h.same rfl rfl rfl rfl rfl rfl rfl rfl rfl rfl

theorem kept_pins {a c : Chip} (p : Pins) (h : Kept a c) : Kept a { c with pins := p } :=
  h.same rfl rfl rfl rfl rfl rfl rfl rfl rfl rfl

theorem kept_measures {a c : Chip} {f : Tracker → Tracker} (h : Kept a c) (h1 : (f c.trk).position = c.trk.position)
    (h2 : (f c.trk).valid = c.trk.valid) (h3 : (f c.trk).path = c.trk.path) : Kept a (onTrk f c) :=
  h.same rfl h1 h2 h3 rfl rfl rfl rfl rfl rfl

theorem kept_dropActive {a c : Chip} (v : Int) (h : Kept a c) : Kept a (dropActive v c) := by
  unfold dropActive
  repeat' first
    | with_reducible assumption
    | with_reducible apply kept_postEvent
    | with_reducible apply kept_setGrant
    | split

theorem kept_cancelPending {a c : Chip} (v : Int) (h : Kept a c) : Kept a (cancelPending v c) := by
  unfold cancelPending
  repeat' first
    | with_reducible assumption
    | with_reducible apply kept_postEvent
    | refine kept_onGnt ?_ rfl rfl
    | split

theorem kept_evaluateRequest {a c : Chip} (l : List Choice) (h : Kept a c) : Kept a (evaluateRequest l c) := by
  unfold evaluateRequest
  repeat' first
    | with_reducible assumption
    | with_reducible apply kept_setGrant
    | split

theorem kept_resolvePending {a c : Chip} (h : Kept a c) : Kept a (resolvePending c) := by
  unfold resolvePending
  repeat' first
    | with_reducible assumption
    | with_reducible apply kept_postNotice
    | with_reducible apply kept_postEvent
    | with_reducible apply kept_evaluateRequest
    | refine kept_onGnt ?_ rfl rfl
    | split

theorem kept_derateTo {a c : Chip} (g : Granted) (l : List Granted) (h : Kept a c) : Kept a (derateTo g l c) := by
  unfold derateTo
  repeat' first
    | with_reducible assumption
    | with_reducible apply kept_postNotice
    | with_reducible apply kept_postEvent
    | with_reducible apply kept_setGrant

theorem kept_recheckGrant {a c : Chip} (h : Kept a c) : Kept a (recheckGrant c) := by
  unfold recheckGrant
  repeat' first
    | with_reducible assumption
    | with_reducible apply kept_postNotice
    | with_reducible apply kept_postEvent
    | with_reducible apply kept_setGrant
    | refine kept_onGnt ?_ rfl rfl
    | split
    | dsimp only

theorem kept_flushRing {a c : Chip} (i : RingId) (st : Status) (h : Kept a c) : Kept a (flushRing i st c) := by
  unfold flushRing
  repeat' first
    | with_reducible assumption
    | with_reducible apply kept_onPln

theorem kept_flushBoth {a c : Chip} (st : Status) (h : Kept a c) : Kept a (flushBoth st c) := by
  unfold flushBoth
  repeat' first
    | with_reducible assumption
    | with_reducible apply kept_flushRing

theorem kept_endCur {a c : Chip} (st : Status) (h : Kept a c) : Kept a (endCur st c) := by
  unfold endCur
  repeat' first
    | with_reducible assumption
    | with_reducible apply kept_onPln
    | with_reducible apply kept_onEng
    | with_reducible apply kept_postNotice
    | with_reducible apply kept_postEvent
    | split

theorem kept_postRefused {a c : Chip} (i : RingId) (n : Nat) (k : RefCode) (t : Nat) (h : Kept a c) : Kept a (postRefused i n k t c) := by
  unfold postRefused
  repeat' first
    | with_reducible assumption
    | with_reducible apply kept_postNotice
    | with_reducible apply kept_postEvent

theorem kept_retarget {a c : Chip} (h : Kept a c) : Kept a (retarget c) := by
  unfold retarget
  repeat' first
    | with_reducible assumption
    | with_reducible apply kept_onSup
    | split

theorem driveKept_torqued (d : Drive) (x y : Int) :
    DriveKept d { d with sup := d.sup.torqued x, tup := d.tup.torqued y } := by
  refine ⟨?_, fun k => ?_, id⟩
  · simp only [Drive.brakeLaw, Drive.bothEngaged, Drive.bothDriven, ReelOut.torqued]
    split <;> split <;> exact id
  · simp only [ReelOut.torqueOk, ReelOut.torqued] at k ⊢
    constructor
    · split
      · rename_i hm; exact fun hn => absurd hm hn
      · exact k.1
    · split
      · rename_i hm; exact fun hn => absurd hm hn
      · exact k.2

theorem kept_formTorques {a c : Chip} (h : Kept a c) : Kept a (formTorques c) := by
  unfold formTorques; split
  · exact kept_free _ (kept_onDrive h (driveKept_torqued _ (torqueOf c .supply) (torqueOf c .takeup)))
  · exact h

theorem kept_enterGrant {a c : Chip} (n : TState) (h : Kept a c) : Kept a (enterGrant n c) := by
  unfold enterGrant
  repeat' first
    | with_reducible assumption
    | with_reducible apply kept_dropActive
    | with_reducible apply kept_cancelPending
    | split

theorem kept_unthread {a c : Chip} (h : Kept a c) : Kept a (unthread c) := by
  unfold unthread
  repeat' first
    | with_reducible assumption
    | with_reducible apply kept_onSup
    | refine kept_onGnt ?_ rfl rfl

theorem kept_idleEngine {a c : Chip} (h : Kept a c) : Kept a (idleEngine c) := by
  unfold idleEngine
  repeat' first
    | with_reducible assumption
    | with_reducible apply kept_onEng

theorem kept_enterStage {a c : Chip} (n : TState) (h : Kept a c) : Kept a (enterStage n c) := by
  unfold enterStage
  repeat' first
    | with_reducible assumption
    | refine kept_onDrive ?_ (driveKept_release _ _)
    | refine kept_onDrive ?_ (driveKept_orderBoth _ _ _ _)
    | split

theorem kept_enter {a c : Chip} (n : TState) (h : Kept a c) : Kept a (enter n c) := by
  unfold enter
  repeat' first
    | with_reducible assumption
    | with_reducible apply kept_onSup
    | with_reducible apply kept_postNotice
    | with_reducible apply kept_postEvent
    | with_reducible apply kept_resolvePending
    | with_reducible apply kept_enterGrant
    | with_reducible apply kept_unthread
    | with_reducible apply kept_idleEngine
    | with_reducible apply kept_enterStage
    | split

theorem kept_claimCarry {a c : Chip} (h : Kept a c) : Kept a (claimCarry c) := by
  unfold claimCarry
  repeat' first
    | with_reducible assumption
    | with_reducible apply kept_postEvent
    | refine kept_onDrive ?_ (⟨id, id, id⟩)
    | split

theorem kept_losePosition {a c : Chip} (d : Nat) (h : Kept a c) : Kept a (losePosition d c) := by
  unfold losePosition; split
  · refine kept_postTrackerEvent _ _ (h.trans ⟨.refl _, id, fun _ k => ?_, id, id, id, id⟩)
    simp at k
  · exact h

theorem kept_tripPosition {a c : Chip} (k : TripCause) (h : Kept a c) : Kept a (tripPosition k c) := by
  unfold tripPosition
  cases k
  case tapeBreak =>
    dsimp only
    refine kept_losePosition _ (kept_free _ ?_)
    split
    · exact kept_endCur _ h
    · exact h
  case pathLost => exact kept_losePosition _ h
  all_goals exact h

theorem kept_emergencyBoth {a c : Chip} (h : Kept a c) : Kept a (emergencyBoth c) :=
  kept_onDrive h ((driveKept_emergency _ _ _ _).trans (driveKept_emergency _ _ _ _))

theorem kept_orderLifters {a c : Chip} (p : Lifters) (h : Kept a c) : Kept a (orderLifters p c) :=
  kept_onDrive h ⟨id, id, id⟩

theorem kept_followBoth {a c : Chip} (h : Kept a c) : Kept a (followBoth c) :=
  kept_onDrive h ((driveKept_followReel _ _ _ _).trans (driveKept_followReel _ _ _ _))

theorem kept_tripReels {a c : Chip} (o : Bool) (h : Kept a c) : Kept a (tripReels o c) := by
  unfold tripReels
  split
  · exact kept_followBoth h
  · exact kept_emergencyBoth h

theorem kept_tripOutputs {a c : Chip} (o : Bool) (h : Kept a c) : Kept a (tripOutputs o c) := by
  unfold tripOutputs
  repeat' first
    | with_reducible assumption
    | with_reducible apply kept_tripReels
    | with_reducible apply kept_orderLifters
    | refine kept_onDrive ?_ (driveKept_release _ _)

theorem kept_tripNow {a c : Chip} (k : TripCause) (i : Side) (h : Kept a c) : Kept a (tripNow k i c) := by
  unfold tripNow
  repeat' first
    | with_reducible assumption
    | with_reducible apply kept_onSup
    | with_reducible apply kept_postNotice
    | with_reducible apply kept_postEvent
    | with_reducible apply kept_flushBoth
    | with_reducible apply kept_endCur
    | with_reducible apply kept_idleEngine
    | with_reducible apply kept_enter
    | with_reducible apply kept_claimCarry
    | with_reducible apply kept_tripPosition
    | with_reducible apply kept_tripOutputs
    | split

theorem kept_failStart {a c : Chip} (o : Bool) (h : Kept a c) : Kept a (failStart o c) := by
  unfold failStart
  exact kept_postNotice _ (kept_postEvent _ _ _ _ (kept_onSup _ (kept_idleEngine (kept_tripOutputs o h))))

theorem kept_trip {a c : Chip} (k : TripCause) (i : Side) (h : Kept a c) : Kept a (trip k i c) := by
  unfold trip
  repeat' first
    | with_reducible assumption
    | with_reducible apply kept_postEvent
    | with_reducible apply kept_tripNow
    | split

theorem kept_latchAndFlush {a c : Chip} (k : StopCause) (h : Kept a c) : Kept a (latchAndFlush k c) := by
  unfold latchAndFlush
  repeat' first
    | with_reducible assumption
    | with_reducible apply kept_setLatch
    | with_reducible apply kept_flushBoth
    | split

theorem kept_haltEntry {a c : Chip} (h : Kept a c) : Kept a (haltEntry c) := by
  unfold haltEntry
  repeat' first
    | with_reducible assumption
    | with_reducible apply kept_onEng
    | refine kept_onDrive ?_ (driveKept_pinchAway _ _)
    | refine kept_onDrive ?_ (driveKept_capstanOff _ _)
    | split

theorem kept_stopMoving {a c : Chip} (k : StopCause) (h : Kept a c) : Kept a (stopMoving k c) := by
  unfold stopMoving
  repeat' first
    | with_reducible assumption
    | with_reducible apply kept_onSup
    | with_reducible apply kept_onEng
    | with_reducible apply kept_postEvent
    | with_reducible apply kept_endCur
    | with_reducible apply kept_enter
    | with_reducible apply kept_latchAndFlush
    | with_reducible apply kept_haltEntry

theorem kept_endTaken {a c : Chip} (st : Status) (h : Kept a c) : Kept a (endTaken st c) := by
  unfold endTaken
  repeat' first
    | with_reducible assumption
    | with_reducible apply kept_endCur
    | with_reducible apply kept_idleEngine
    | split

theorem kept_stopCause {a c : Chip} (k : StopCause) (h : Kept a c) : Kept a (stopCause k c) := by
  unfold stopCause
  repeat' first
    | with_reducible assumption
    | with_reducible apply kept_onSup
    | with_reducible apply kept_postEvent
    | with_reducible apply kept_latchAndFlush
    | with_reducible apply kept_stopMoving
    | with_reducible apply kept_endTaken
    | split

theorem kept_tripStanding {a c : Chip} (h : Kept a c) : Kept a (tripStanding c) := by
  unfold tripStanding
  repeat' first
    | with_reducible assumption
    | with_reducible apply kept_trip
    | split
    | dsimp only

theorem kept_tensionOrders {a c : Chip} (h : Kept a c) : Kept a (tensionOrders c) := by
  unfold tensionOrders
  repeat' first
    | with_reducible assumption
    | with_reducible apply kept_orderLifters
    | refine kept_onDrive ?_ (driveKept_orderBoth _ _ _ _)

theorem kept_engageBrakes {a c : Chip} (h : Kept a c) : Kept a (engageBrakes c) := by
  unfold engageBrakes
  repeat' first
    | with_reducible assumption
    | with_reducible apply kept_onSup
    | with_reducible apply kept_enter
    | refine kept_onDrive ?_ (driveKept_orderBoth _ _ _ _)
    | split
    | dsimp only

theorem kept_catchBegin {a c : Chip} (h : Kept a c) : Kept a (catchBegin c) := by
  unfold catchBegin
  dsimp only
  split
  · exact kept_onSup _ (kept_onDrive (kept_onDrive (kept_onEng _ h) (driveKept_orderBoth _ _ _ _)) (driveKept_pinchAway _ _))
  · exact kept_onDrive (kept_onDrive (kept_onEng _ h) (driveKept_orderBoth _ _ _ _)) (driveKept_capstanOff _ _)

theorem kept_askLifters {a c : Chip} (h : Kept a c) : Kept a (askLifters c) := by
  unfold askLifters
  repeat' first
    | with_reducible assumption
    | with_reducible apply kept_orderLifters
    | split

theorem kept_onSeg {a c : Chip} (f : Seg → Seg) (h : Kept a c) : Kept a (onSeg f c) := by
  unfold onSeg
  repeat' first
    | with_reducible assumption
    | with_reducible apply kept_onEng

theorem kept_toPhase {a c : Chip} (p : Phase) (h : Kept a c) : Kept a (toPhase p c) := by
  unfold toPhase
  repeat' first
    | with_reducible assumption
    | with_reducible apply kept_onSeg

theorem kept_markClipped {a c : Chip} (h : Kept a c) : Kept a (markClipped c) := by
  unfold markClipped
  repeat' first
    | with_reducible assumption
    | with_reducible apply kept_onSeg

theorem kept_orderCapstanRun {a c : Chip} (v : Int) (h : Kept a c) : Kept a ((orderCapstanRun v c).1) := by
  unfold orderCapstanRun
  repeat' first
    | with_reducible assumption
    | refine kept_onDrive ?_ (driveKept_capstanRun _ _)
    | split
    | dsimp only

theorem kept_leadInEnds {a c : Chip} (h : Kept a c) : Kept a ((leadInEnds c).1) := by
  unfold leadInEnds
  repeat' first
    | with_reducible assumption
    | with_reducible apply kept_toPhase
    | with_reducible apply kept_orderCapstanRun
    | refine kept_onDrive ?_ (driveKept_pinchInRequest _ _ _)
    | split
    | dsimp only

theorem kept_startTimer {a c : Chip} (h : Kept a c) : Kept a (startTimer c) := by
  unfold startTimer
  repeat' first
    | with_reducible assumption
    | with_reducible apply kept_onSeg

theorem kept_judgeLocate {a c : Chip} (r : Option Dir) (h : Kept a c) : Kept a (judgeLocate r c) := by
  unfold judgeLocate
  repeat' first
    | with_reducible assumption
    | with_reducible apply kept_toPhase
    | split

theorem kept_judgeSpeed {a c : Chip} (b : Bool) (g : Seg) (h : Kept a c) : Kept a (judgeSpeed b c g).1 := by
  unfold judgeSpeed
  repeat' first
    | with_reducible assumption
    | with_reducible apply kept_leadInEnds
    | with_reducible apply kept_startTimer
    | with_reducible apply kept_toPhase
    | with_reducible apply kept_judgeLocate
    | refine kept_onDrive ?_ (driveKept_capstanOff _ _)
    | split
    | dsimp only

theorem kept_aim {a c : Chip} (h : Kept a c) : Kept a (aim c) := kept_onSeg _ h

theorem kept_begin {a c : Chip} (h : Kept a c) : Kept a ((begin c).1) := by
  unfold begin
  repeat' first
    | with_reducible assumption
    | with_reducible apply kept_aim
    | with_reducible apply kept_toPhase
    | with_reducible apply kept_markClipped
    | with_reducible apply kept_judgeSpeed
    | split
    | dsimp only

theorem kept_playEnds {a c : Chip} (st : Status) (h : Kept a c) : Kept a ((playEnds st c).1) := by
  unfold playEnds
  repeat' first
    | with_reducible assumption
    | with_reducible apply kept_onSeg
    | refine kept_onDrive ?_ (driveKept_capstanOff _ _)
    | split
    | dsimp only

theorem kept_openEnds {a c : Chip} (g : Seg) (h : Kept a c) : Kept a ((openEnds g c).1) := by
  unfold openEnds
  repeat' first
    | with_reducible assumption
    | with_reducible apply kept_playEnds
    | split

theorem kept_takeSlot {a c : Chip} (i : RingId) (r : Record) (h : Kept a c) : Kept a (takeSlot i r c) := by
  unfold takeSlot
  repeat' first
    | with_reducible assumption
    | with_reducible apply kept_onPln
    | with_reducible apply kept_flushRing
    | split

theorem kept_judgeTake {a c : Chip} (g : Seg) (h : Kept a c) : Kept a ((judgeTake g c).1) := by
  unfold judgeTake
  repeat' first
    | with_reducible assumption
    | with_reducible apply kept_markClipped
    | with_reducible apply kept_begin
    | with_reducible apply kept_openEnds
    | split
    | dsimp only

theorem kept_takeOne {a c : Chip} (i : RingId) (h : Kept a c) : Kept a ((takeOne i c).1) := by
  unfold takeOne
  repeat' first
    | with_reducible assumption
    | with_reducible apply kept_onEng
    | with_reducible apply kept_takeSlot
    | with_reducible apply kept_judgeTake
    | refine kept_onDrive ?_ (driveKept_release _ _)
    | split
    | dsimp only

theorem kept_finishRun {a c : Chip} (h : Kept a c) : Kept a (finishRun c) := by
  unfold finishRun
  repeat' first
    | with_reducible assumption
    | with_reducible apply kept_onEng
    | with_reducible apply kept_enter
    | split
    | dsimp only

theorem kept_starveNow {a c : Chip} (t : Nat) (h : Kept a c) : Kept a (starveNow t c) := by
  unfold starveNow
  repeat' first
    | with_reducible assumption
    | with_reducible apply kept_onEng
    | with_reducible apply kept_postNotice
    | with_reducible apply kept_postEvent
    | with_reducible apply kept_stopCause
    | split
    | dsimp only

theorem kept_nothingQueued {a c : Chip} (b : Bool) (t : Nat) (h : Kept a c) : Kept a (nothingQueued b t c) := by
  unfold nothingQueued
  repeat' first
    | with_reducible assumption
    | with_reducible apply kept_onEng
    | with_reducible apply kept_stopCause
    | with_reducible apply kept_finishRun
    | with_reducible apply kept_starveNow
    | split

theorem kept_outcome {a : Chip} {after : Bool → Nat → Chip → Chip} (ha : ∀ b t c, Kept a c → Kept a (after b t c))
    {p : Chip × SegOut} (h : Kept a p.1) : Kept a (outcome after p) := by
  unfold outcome
  dsimp only
  split
  · exact h
  · exact ha _ _ _ (kept_endCur _ h)
  · exact kept_stopCause _ (kept_endCur _ h)
  · exact kept_stopCause _ h

theorem kept_follow {a : Chip} (n : Nat) : ∀ (b : Bool) (t : Nat) (c : Chip), Kept a c → Kept a (follow n b t c) := by
  induction n with
  | zero => intro b t c h; exact h
  | succ n ih =>
    intro b t c h
    unfold follow
    repeat' first
      | exact kept_outcome ih (kept_takeOne _ h)
      | exact kept_nothingQueued _ _ h
      | exact h
      | split

theorem kept_settle {a : Chip} {p : Chip × SegOut} (h : Kept a p.1) : Kept a (settle p) := kept_outcome (kept_follow 80) h

theorem kept_complete {a c : Chip} (st : Status) (h : Kept a c) : Kept a (complete st c) := kept_settle (p := (c, _)) h

theorem kept_takeQueued {a c : Chip} (h : Kept a c) : Kept a (takeQueued c) := by
  unfold takeQueued
  repeat' first
    | with_reducible assumption
    | with_reducible apply kept_takeOne
    | with_reducible apply kept_settle
    | split

theorem kept_preempt {a c : Chip} (g : Seg) (h : Kept a c) : Kept a (preempt g c) := by
  unfold preempt
  repeat' first
    | with_reducible assumption
    | with_reducible apply kept_endCur
    | with_reducible apply kept_takeOne
    | with_reducible apply kept_settle
    | refine kept_onDrive ?_ (driveKept_capstanOff _ _)
    | split

theorem kept_gained {a c : Chip} (i : RingId) (h : Kept a c) : Kept a (gained i c) := by
  unfold gained
  repeat' first
    | with_reducible assumption
    | with_reducible apply kept_openEnds
    | with_reducible apply kept_settle
    | with_reducible apply kept_takeQueued
    | with_reducible apply kept_preempt
    | split

theorem kept_settleMoves {a c : Chip} (h : Kept a c) : Kept a (settleMoves c) := by
  unfold settleMoves
  repeat' first
    | with_reducible assumption
    | with_reducible apply kept_onEng
    | with_reducible apply kept_enter
    | split
    | dsimp only

theorem kept_judgeCurrent {a c : Chip} (b : Bool) (h : Kept a c) : Kept a (judgeCurrent b c) := by
  unfold judgeCurrent
  repeat' first
    | with_reducible assumption
    | with_reducible apply kept_judgeSpeed
    | with_reducible apply kept_settle
    | split

theorem kept_rollCurrent {a c : Chip} (d : Dir) (h : Kept a c) : Kept a (rollCurrent d c) := by
  unfold rollCurrent
  repeat' first
    | with_reducible assumption
    | with_reducible apply kept_judgeLocate
    | with_reducible apply kept_playEnds
    | with_reducible apply kept_settle
    | with_reducible apply kept_complete
    | split
    | dsimp only

theorem kept_locateLost {a c : Chip} (h : Kept a c) : Kept a (locateLost c) := by
  unfold locateLost
  repeat' first
    | with_reducible assumption
    | with_reducible apply kept_complete
    | split

theorem kept_judgeBrake {a c : Chip} (h : Kept a c) : Kept a (judgeBrake c) := by
  unfold judgeBrake
  repeat' first
    | with_reducible assumption
    | with_reducible apply kept_postEvent
    | with_reducible apply kept_onSeg
    | with_reducible apply kept_complete
    | split
    | dsimp only

theorem kept_newEndFlag {a c : Chip} (h : Kept a c) : Kept a (newEndFlag c) := by
  unfold newEndFlag
  repeat' first
    | with_reducible assumption
    | with_reducible apply kept_stopCause
    | with_reducible apply kept_toPhase
    | with_reducible apply kept_judgeCurrent
    | split

theorem kept_pinchInReport {a c : Chip} (h : Kept a c) : Kept a (pinchInReport c) := by
  unfold pinchInReport
  repeat' first
    | with_reducible assumption
    | with_reducible apply kept_stopCause
    | with_reducible apply kept_toPhase
    | with_reducible apply kept_startTimer
    | with_reducible apply kept_playEnds
    | with_reducible apply kept_settle
    | split
    | dsimp only

theorem kept_pinchTurnReport {a c : Chip} (h : Kept a c) : Kept a (pinchTurnReport c) := by
  unfold pinchTurnReport
  repeat' first
    | with_reducible assumption
    | with_reducible apply kept_stopCause
    | split

theorem kept_pinchOutReport {a c : Chip} (h : Kept a c) (hp : c.drv.pinch = .out) : Kept a (pinchOutReport c) := by
  unfold pinchOutReport
  have k : Kept a (onDrive (·.capstanStop) c) := kept_onDrive h (driveKept_capstanStop _ hp)
  repeat' first
    | with_reducible assumption
    | with_reducible apply kept_complete
    | with_reducible apply kept_settle
    | with_reducible apply kept_begin
    | with_reducible apply kept_onEng
    | with_reducible apply kept_onSup
    | split

theorem kept_durationEnds {a c : Chip} (h : Kept a c) : Kept a (durationEnds c) := by
  unfold durationEnds
  repeat' first
    | with_reducible assumption
    | with_reducible apply kept_playEnds
    | with_reducible apply kept_settle
    | with_reducible apply kept_complete
    | split

theorem kept_moveReference {a c : Chip} (h : Kept a c) : Kept a (moveReference c) := by
  unfold moveReference
  repeat' first
    | with_reducible assumption
    | with_reducible apply kept_onEng
    | with_reducible apply kept_orderCapstanRun
    | refine kept_onDrive ?_ (driveKept_release _ _)
    | split
    | dsimp only

theorem kept_starvedAtRest {a c : Chip} (h : Kept a c) : Kept a (starvedAtRest c) := by
  unfold starvedAtRest
  repeat' first
    | with_reducible assumption
    | with_reducible apply kept_finishRun
    | split

theorem kept_updateReference {a c : Chip} (h : Kept a c) : Kept a (updateReference c) := by
  unfold updateReference
  repeat' first
    | with_reducible assumption
    | with_reducible apply kept_onEng
    | with_reducible apply kept_markClipped
    | with_reducible apply kept_askLifters
    | with_reducible apply kept_judgeCurrent
    | with_reducible apply kept_moveReference
    | with_reducible apply kept_starvedAtRest
    | split

theorem kept_tail {a c : Chip} (h : Kept a c) : Kept a (tail c) := by
  unfold tail
  repeat' first
    | with_reducible assumption
    | with_reducible apply kept_retarget
    | with_reducible apply kept_formTorques
    | with_reducible apply kept_askLifters
    | with_reducible apply kept_markClipped
    | split

theorem kept_arbitrate {a c : Chip} (h : Kept a c) : Kept a (arbitrate c) := by
  unfold arbitrate
  split
  · exact h
  · split
    · rename_i cy _
      cases cy <;> exact h.same rfl rfl rfl rfl rfl rfl rfl rfl rfl rfl
    · exact h

theorem kept_done {a c : Chip} (h : Kept a c) : Kept a (done c) := by
  unfold done
  repeat' first
    | with_reducible assumption
    | with_reducible apply kept_tail
    | with_reducible apply kept_arbitrate

/-- The host port and the memory port are nothing here. -/
theorem kept_onBus {a c : Chip} {f : Bus → Bus} (h : Kept a c) (h1 : (f c.bus).queue = c.bus.queue) : Kept a (onBus f c) :=
  h.same rfl rfl rfl rfl rfl rfl h1 rfl rfl rfl

theorem kept_completeHost {a c : Chip} (d : HostDone) (h : Kept a c) : Kept a (completeHost d c) := by
  unfold completeHost
  repeat' first
    | with_reducible assumption
    | with_reducible apply kept_done
    | refine kept_onBus ?_ rfl

theorem kept_hostPhase {a c : Chip} (p : HostPhase) (h : Kept a c) : Kept a (hostPhase p c) := by
  unfold hostPhase
  repeat' first
    | with_reducible assumption
    | refine kept_onBus ?_ rfl

theorem kept_release {a c : Chip} (w : Word) (be : Enables) (h : Kept a c) : Kept a (release w be c) := by
  unfold release
  repeat' first
    | with_reducible assumption
    | with_reducible apply kept_hostPhase

theorem kept_dropWrite {a c : Chip} (h : Kept a c) : Kept a (dropWrite c) := by
  unfold dropWrite
  repeat' first
    | with_reducible assumption
    | with_reducible apply kept_completeHost

/-- The part's own writes leave the mode, the mask and the set. -/
theorem postWrites_mode (p : Poster) (ws : List PartWrite) (c : Chip) :
    (postWrites p ws c).mode = c.mode ∧ (postWrites p ws c).ntc = c.ntc := by
  induction ws generalizing c with
  | nil => exact ⟨rfl, rfl⟩
  | cons w ws ih =>
    obtain ⟨h1, h2⟩ := ih (postWrite p w c)
    exact ⟨by rw [← postWrite_mode p w c]; exact h1, by rw [← postWrite_ntc p w c]; exact h2⟩

/-- Of the writer the part's own writes change only what waits. -/
theorem postWrites_evt (p : Poster) (ws : List PartWrite) (c : Chip) :
    ∃ w, (postWrites p ws c).evt = { c.evt with wait := w } := by
  induction ws generalizing c with
  | nil => exact ⟨_, rfl⟩
  | cons y ys ih =>
    obtain ⟨w, h⟩ := ih (postWrite p y c)
    have : ∃ w, (postWrite p y c).evt = { c.evt with wait := w } := by
      simp only [postWrite]; split
      · exact ⟨_, rfl⟩
      · cases p <;> exact ⟨_, rfl⟩
    obtain ⟨w', h'⟩ := this
    exact ⟨w, by rw [postWrites, List.foldl_cons, ← postWrites, h, h']⟩

theorem appendRecord_mode (e : Event) (c : Chip) : (appendRecord e c).mode = c.mode := by
  unfold appendRecord
  dsimp only
  split
  · rw [postNotice_mode, onEvt_mode, (postWrites_mode _ _ _).1]
  · rw [onEvt_mode, (postWrites_mode _ _ _).1]

/-- A record is appended in a running part with room, outside an overrun (R179). -/
theorem kept_appendRecord {a c : Chip} (e : Event) (h : Kept a c) (hm : evtOk a → c.mode = .running)
    (hu : evtOk a → c.evt.overrun = false) : Kept a (appendRecord e c) := by
  unfold appendRecord
  obtain ⟨w, hw⟩ := postWrites_evt .eventWriter (recordWrites c.evt.write e) c
  have hmm := (postWrites_mode .eventWriter (recordWrites c.evt.write e) c).1
  have k : Kept a (onEvt (fun w => { w with write := (w.write + 1) % eventRecords })
      (postWrites .eventWriter (recordWrites c.evt.write e) c)) := by
    refine kept_onEvt _ (kept_postWrites _ _ h) fun x => ?_
    have y := h.events x
    unfold evtOk onEvt
    dsimp only
    rw [hw, hmm]
    refine ⟨⟨Nat.mod_lt _ (by decide), y.1.2⟩, fun z => ?_, y.2.2.1, fun z => absurd (hm x) z⟩
    dsimp only at z; rw [hu x] at z; cases z
  dsimp only
  split
  · exact kept_postNotice _ k
  · exact k

theorem kept_takeEvent {a c : Chip} (e : Event) (h : Kept a c) (hm : evtOk a → c.mode = .running) : Kept a (takeEvent e c) := by
  unfold takeEvent
  split
  · rename_i hu
    refine kept_appendRecord e h hm fun x => ?_
    have y := h.events x
    cases ho : c.evt.overrun with
    | false => rfl
    | true =>
      have := (y.2.1 ho).1
      simp only [EventWriter.unread, eventRecords] at hu; omega
  · rename_i hu
    have k : Kept a (onEvt (fun w => { w with overrun := true, dropped := capped 32 (w.dropped + 1) }) c) := by
      refine kept_onEvt _ h fun x => ?_
      have y := (h.events x).1
      refine ⟨y, fun _ => ⟨?_, ?_⟩, fun z => (by cases z), fun z => absurd (hm x) z⟩
      · simp only [onEvt, EventWriter.unread, eventRecords] at hu ⊢; omega
      · simp only [onEvt, capped]; omega
    dsimp only
    split
    · exact kept_postNotice _ k
    · exact k

theorem consumedAfter_lt {e : EventWriter} (h : e.write < 128 ∧ e.consumed < 128) (w : Word) (be : Enables) :
    e.consumedAfter w be < 128 := by
  unfold EventWriter.consumedAfter; dsimp only; split
  · omega
  · exact h.1

/-- A consumed write ends an overrun where it makes room, with its marker (R182). -/
theorem kept_writeConsumed {a c : Chip} (w : Word) (be : Enables) (h : Kept a c) (hm : c.mode = .running) :
    Kept a (writeConsumed w be c) := by
  unfold writeConsumed overrunMarker
  dsimp only
  split
  · have k : Kept a (release (BitVec.ofNat 32 (c.evt.consumedAfter w be)) allBytes (onEvt (fun e =>
        { e with consumed := c.evt.consumedAfter w be, overrun := false, dropped := 0 }) c)) := by
      refine kept_release _ _ (kept_onEvt _ h fun x => ?_)
      have y := h.events x
      exact ⟨⟨y.1.1, consumedAfter_lt y.1 w be⟩, fun z => (by cases z), fun _ => rfl, fun z => absurd hm z⟩
    exact kept_appendRecord _ k (fun _ => hm) fun _ => rfl
  · rename_i hu
    refine kept_release _ _ (kept_onEvt _ h fun x => ?_)
    have y := h.events x
    refine ⟨⟨y.1.1, consumedAfter_lt y.1 w be⟩, fun z => ⟨?_, (y.2.1 z).2⟩, y.2.2.1, fun z => absurd hm z⟩
    have hx : ¬ (c.evt.write + 128 - c.evt.consumedAfter w be) % 128 < 127 := fun q => hu ⟨z, q⟩
    show (c.evt.write + 128 - c.evt.consumedAfter w be) % 128 = 127
    omega

theorem kept_writeTrim {a c : Chip} (w : Word) (be : Enables) (h : Kept a c) : Kept a (writeTrim w be c) := by
  unfold writeTrim
  have k : Kept a (release (wordOfInt (clampInt c.gnt.variRange (merge be w (wordOfInt c.gnt.trim)).toInt)) allBytes
      (onGnt (fun g => { g with trim := clampInt c.gnt.variRange (merge be w (wordOfInt c.gnt.trim)).toInt }) c)) :=
    kept_release _ _ (h.trans ⟨.refl _, id, id, fun _ => clampInt_range _ _, id, id, id⟩)
  dsimp only
  split
  · exact k
  · exact kept_postNotice _ (kept_postEvent _ _ _ _ k)

theorem bits_in (p m : BitVec 16) : p &&& m &&& ~~~m = 0 := by
  rw [BitVec.and_assoc, BitVec.and_not_self]; simp

theorem kept_writeMask {a c : Chip} (w : Word) (be : Enables) (h : Kept a c) : Kept a (writeMask w be c) := by
  unfold writeMask
  refine kept_release _ _ (h.trans ⟨.refl _, id, id, id, id, fun n => ⟨bits_in _ _, fun hm => ?_⟩, id⟩)
  simp [n.2 hm]

theorem kept_writeClear {a c : Chip} (w : Word) (be : Enables) (h : Kept a c) : Kept a (writeClear w be c) := by
  unfold writeClear
  refine kept_release _ _ (h.trans ⟨.refl _, id, id, id, id, fun n => ⟨?_, fun hm => ?_⟩, id⟩)
  · have k := n.1
    simp only []
    rw [BitVec.and_assoc, BitVec.and_comm (~~~_) (~~~_), ← BitVec.and_assoc, k]; simp
  · simp [n.2 hm]

theorem kept_beat {a c : Chip} (h : Kept a c) : Kept a (beat c) := by
  unfold beat
  repeat' first
    | with_reducible assumption
    | with_reducible apply kept_onMon
    | with_reducible apply kept_postEvent
    | split

theorem kept_writeHeartbeat {a c : Chip} (w : Word) (be : Enables) (h : Kept a c) : Kept a (writeHeartbeat w be c) := by
  unfold writeHeartbeat
  repeat' first
    | with_reducible assumption
    | with_reducible apply kept_release
    | with_reducible apply kept_beat

theorem kept_reply {a c : Chip} (r : Result) (d : Byte) (h : Kept a c) : Kept a (reply r d c) := by
  unfold reply
  repeat' first
    | with_reducible assumption
    | with_reducible apply kept_onMbx

theorem kept_takeCommand {a c : Chip} (w : Word) (be : Enables) (h : Kept a c) : Kept a (takeCommand w be c) := by
  unfold takeCommand
  repeat' first
    | with_reducible assumption
    | with_reducible apply kept_onMbx
    | with_reducible apply kept_hostPhase
    | with_reducible apply kept_release
    | with_reducible apply kept_reply
    | split
    | dsimp only

theorem kept_postWriteDropped {a c : Chip} (d o t : Nat) (h : Kept a c) : Kept a (postWriteDropped d o t c) := by
  unfold postWriteDropped
  repeat' first
    | with_reducible assumption
    | with_reducible apply kept_postNotice
    | with_reducible apply kept_postEvent

theorem kept_writeCommand {a c : Chip} (w : Word) (be : Enables) (h : Kept a c) : Kept a (writeCommand w be c) := by
  unfold writeCommand
  repeat' first
    | with_reducible assumption
    | with_reducible apply kept_hostPhase
    | with_reducible apply kept_dropWrite
    | with_reducible apply kept_takeCommand
    | with_reducible apply kept_postWriteDropped
    | split

theorem kept_releaseCommand {a c : Chip} (h : Kept a c) : Kept a (releaseCommand c) := by
  unfold releaseCommand
  repeat' first
    | with_reducible assumption
    | with_reducible apply kept_release
    | split

theorem kept_fetchJudged {a c : Chip} (h : Kept a c) : Kept a (fetchJudged c) := by
  unfold fetchJudged
  repeat' first
    | with_reducible assumption
    | with_reducible apply kept_onMbx
    | with_reducible apply kept_reply
    | with_reducible apply kept_releaseCommand
    | split
    | dsimp only

theorem kept_mailRead {a c : Chip} (w : Word) (b : Bool) (h : Kept a c) : Kept a (mailRead w b c) := by
  unfold mailRead
  repeat' first
    | with_reducible assumption
    | with_reducible apply kept_onMbx
    | with_reducible apply kept_fetchJudged
    | split
    | dsimp only

theorem kept_writeSlot {a c : Chip} (i : RingId) (n k : Nat) (w : Word) (be : Enables) (h : Kept a c) : Kept a (writeSlot i n k w be c) := by
  unfold writeSlot
  repeat' first
    | with_reducible assumption
    | with_reducible apply kept_onPln
    | with_reducible apply kept_postRefused
    | with_reducible apply kept_hostPhase
    | with_reducible apply kept_release
    | with_reducible apply kept_dropWrite
    | with_reducible apply kept_postWriteDropped
    | split
    | dsimp only

theorem kept_takeImageWrite {a c : Chip} (p : Nat) (w : Word) (be : Enables) (h : Kept a c) : Kept a (takeImageWrite p w be c) := by
  unfold takeImageWrite
  repeat' first
    | with_reducible assumption
    | with_reducible apply kept_onSet
    | with_reducible apply kept_onMon
    | with_reducible apply kept_postWrites
    | split

theorem kept_writeImage {a c : Chip} (p : Nat) (w : Word) (be : Enables) (h : Kept a c) : Kept a (writeImage p w be c) := by
  unfold writeImage
  repeat' first
    | with_reducible assumption
    | with_reducible apply kept_release
    | with_reducible apply kept_dropWrite
    | with_reducible apply kept_postWriteDropped
    | with_reducible apply kept_takeImageWrite
    | split

theorem kept_windowWrite {a c : Chip} (o : Nat) (w : Word) (be : Enables) (h : Kept a c) (hm : c.mode = .running) : Kept a (windowWrite o w be c) := by
  unfold windowWrite
  repeat' first
    | with_reducible assumption
    | with_reducible apply kept_release
    | with_reducible apply kept_dropWrite
    | with_reducible apply kept_writeConsumed
    | with_reducible apply kept_writeTrim
    | with_reducible apply kept_writeMask
    | with_reducible apply kept_writeClear
    | with_reducible apply kept_writeHeartbeat
    | with_reducible apply kept_postWriteDropped
    | with_reducible apply kept_writeCommand
    | with_reducible apply kept_writeSlot
    | with_reducible apply kept_writeImage
    | split

theorem kept_readLive {a c : Chip} (k : Nat) (h : Kept a c) : Kept a (readLive k c) := by
  unfold readLive
  repeat' first
    | with_reducible assumption
    | with_reducible apply kept_completeHost
    | refine kept_onBus ?_ rfl
    | split

theorem kept_disposeRunning {a c : Chip} (cy : HostCyc) (o : Nat) (h : Kept a c) (hm : c.mode = .running) : Kept a (disposeRunning cy o c) := by
  unfold disposeRunning
  repeat' first
    | with_reducible assumption
    | with_reducible apply kept_release
    | with_reducible apply kept_windowWrite
    | split

theorem kept_disposeStartup {a c : Chip} (cy : HostCyc) (h : Kept a c) : Kept a (disposeStartup cy c) := by
  unfold disposeStartup
  repeat' first
    | with_reducible assumption
    | with_reducible apply kept_release
    | with_reducible apply kept_dropWrite
    | split

theorem kept_disposeLive {a c : Chip} (cy : HostCyc) (o : Nat) (h : Kept a c) : Kept a (disposeLive cy o c) := by
  unfold disposeLive
  repeat' first
    | with_reducible assumption
    | with_reducible apply kept_completeHost
    | with_reducible apply kept_dropWrite
    | with_reducible apply kept_readLive
    | split

theorem kept_classifyAt {a c : Chip} (p : HostPort) (o : Option Nat) (h : Kept a c) (hb : c.mode ≠ .bypass) : Kept a (classifyAt p c o) := by
  cases o with
  | none => exact kept_release _ _ h
  | some o =>
    show Kept a (if o < 0x100 then disposeLive p.cyc o c
      else if heldCycle o p.cyc.write c then hostPhase .held c
      else if c.mode = .startup then disposeStartup p.cyc c
      else disposeRunning p.cyc o c)
    have hr : ¬ c.mode = .startup → c.mode = .running := fun hs => by
      cases hm : c.mode
      · exact absurd hm hb
      · exact absurd hm hs
      · rfl
    split
    · exact kept_disposeLive _ _ h
    · split
      · exact kept_hostPhase _ h
      · split
        · exact kept_disposeStartup _ h
        · rename_i hs; exact kept_disposeRunning _ _ h (hr hs)

theorem kept_classify {a c : Chip} (h : Kept a c) (hb : c.mode ≠ .bypass) : Kept a (classify c) := by
  unfold classify
  split
  · exact h
  · exact kept_classifyAt _ _ h hb

theorem kept_driveCycle {a c : Chip} (cy : HostCyc) (h : Kept a c) : Kept a (driveCycle cy c) := by
  unfold driveCycle
  split
  · exact kept_onBus h rfl
  all_goals
    rename_i hm
    exact kept_classify (kept_onBus h rfl) (by show c.mode ≠ _; rw [hm]; exact Mode.noConfusion)

theorem kept_startCycle {a c : Chip} (cy : HostCyc) (h : Kept a c) : Kept a (startCycle cy c) := by
  unfold startCycle
  split
  · exact kept_onBus h rfl
  · exact kept_driveCycle cy h

theorem kept_postMemoryFault {a c : Chip} (d n : Nat) (h : Kept a c) : Kept a (postMemoryFault d n c) := by
  unfold postMemoryFault
  repeat' first
    | with_reducible assumption
    | with_reducible apply kept_postNotice
    | with_reducible apply kept_postEvent

theorem kept_handRead {a c : Chip} (k : Nat) (w : Word) (b : Bool) (h : Kept a c) : Kept a (handRead k w b c) := by
  unfold handRead
  repeat' first
    | with_reducible assumption
    | with_reducible apply kept_onPln

theorem kept_sweepRead {a c : Chip} (n : Nat) (w : Word) (h : Kept a c) : Kept a (sweepRead n w c) := by
  unfold sweepRead
  repeat' first
    | with_reducible assumption
    | with_reducible apply kept_onPln
    | with_reducible apply kept_postWrite
    | split

theorem kept_queueHeadGone {a c : Chip} (h : Kept a c) : Kept a (queueHeadGone c) := by
  refine h.trans ⟨.refl _, id, id, id, fun k => ?_, id, id⟩
  simp only [queueHeadGone, onBus, List.length_tail] at k ⊢; omega

theorem kept_freePort {a c : Chip} (h : Kept a c) : Kept a (freePort c) := by
  unfold freePort
  repeat' first
    | with_reducible assumption
    | refine kept_onBus ?_ rfl

theorem kept_cycleDone {a c : Chip} (cy : Cycle) (w : Word) (h : Kept a c) : Kept a (cycleDone cy w c) := by
  unfold cycleDone
  repeat' first
    | with_reducible assumption
    | with_reducible apply kept_completeHost
    | with_reducible apply kept_mailRead
    | with_reducible apply kept_handRead
    | with_reducible apply kept_sweepRead
    | with_reducible apply kept_queueHeadGone
    | split

theorem kept_cycleAborted {a c : Chip} (cy : Cycle) (h : Kept a c) : Kept a (cycleAborted cy c) := by
  unfold cycleAborted
  cases cy with
  | host n w d b y => exact kept_postMemoryFault _ _ (kept_completeHost _ (kept_free _ h))
  | part n w =>
    dsimp only
    split
    · exact kept_postNotice _ (kept_queueHeadGone h)
    · exact kept_postMemoryFault _ _ (kept_queueHeadGone h)
  | handRead n k => exact kept_postMemoryFault _ _ (kept_handRead _ _ _ h)
  | mailRead n => exact kept_mailRead _ _ (kept_postMemoryFault _ _ h)
  | sweepRead n k => exact kept_postMemoryFault _ _ (kept_onPln _ h)
  | orphanWrite n d b => exact h
  | orphanRead => exact h

/-! ## The commands -/

theorem kept_count {a c : Chip} (b : Bool) (d : Dir) (h : Kept a c) : Kept a (onTrk (·.count b d) c) := by
  refine h.trans ⟨.refl _, fun k => ?_, fun k => ?_, id, id, id, id⟩
  · simp only [onTrk_trk]
    have : (c.trk.count b d).position = if c.trk.sticks d then c.trk.position else c.trk.position + unitOf d := by
      unfold Tracker.count; dsimp only; split <;> rfl
    rw [this]
    split
    · exact k
    · rename_i hs
      cases d <;> simp only [Tracker.sticks, decide_eq_true_eq, unitOf] at hs ⊢ <;> omega
  · simp only [onTrk_trk]
    have h1 : (c.trk.count b d).valid = (c.trk.valid && !c.trk.sticks d) := by
      unfold Tracker.count; dsimp only; split <;> rfl
    have h2 : (c.trk.count b d).path = c.trk.path := by
      unfold Tracker.count; dsimp only; split <;> rfl
    rw [h1, h2]; intro hv; simp at hv; exact k hv.1

theorem kept_rollPosts {a c : Chip} (t : Tracker) (d : Dir) (h : Kept a c) : Kept a (rollPosts t d c) := by
  unfold rollPosts
  repeat' first
    | with_reducible assumption
    | with_reducible apply kept_postTrackerEvent
    | split
    | dsimp only

theorem kept_rollStep {a c : Chip} (d : Dir) (h : Kept a c) : Kept a (rollStep d c) := by
  unfold rollStep
  repeat' first
    | with_reducible assumption
    | with_reducible apply kept_settleMoves
    | with_reducible apply kept_rollCurrent
    | with_reducible apply kept_locateLost
    | with_reducible apply kept_rollPosts
    | with_reducible apply kept_count
    | split
    | dsimp only

theorem kept_followReels {a c : Chip} (h : Kept a c) : Kept a (followReels c) := by
  unfold followReels
  split
  · exact kept_followBoth h
  · exact h

theorem kept_stopEnd {a c : Chip} (h : Kept a c) : Kept a (stopEnd c) := by
  unfold stopEnd
  repeat' first
    | with_reducible assumption
    | with_reducible apply kept_idleEngine
    | with_reducible apply kept_enter
    | with_reducible apply kept_takeQueued
    | split

theorem kept_catchEnd {a c : Chip} (h : Kept a c) : Kept a (catchEnd c) := by
  unfold catchEnd
  repeat' first
    | with_reducible assumption
    | with_reducible apply kept_enter
    | split

theorem kept_tickStep {a c : Chip} (h : Kept a c) : Kept a (tickStep c) := by
  unfold tickStep
  exact kept_judgeBrake (kept_catchEnd (kept_stopEnd (kept_followReels
    (kept_onDrive (kept_measures (kept_settleMoves h) rfl rfl rfl) ⟨id, id, id⟩))))

theorem kept_setPathPin {a c : Chip} (b : Bool) (h : Kept a c) : Kept a (setPathPin b c) := by
  unfold setPathPin
  repeat' first
    | with_reducible assumption
    | with_reducible apply kept_pins

theorem kept_pathPresentStep {a c : Chip} (h : Kept a c) : Kept a (pathPresentStep c) := by
  unfold pathPresentStep
  dsimp only
  split
  · rename_i hp
    refine (kept_setPathPin true h).trans ⟨.refl _, id, fun k hv => ?_, id, id, id, id⟩
    have := k hv
    rw [hp] at this; cases this
  · exact kept_setPathPin true h

theorem kept_postTapePath {a c : Chip} (d : Nat) (h : Kept a c) : Kept a (postTapePath d c) := by
  unfold postTapePath
  repeat' first
    | with_reducible assumption
    | with_reducible apply kept_postTrackerEvent
    | with_reducible apply kept_postTrackerNotice

theorem kept_debounceStep {a c : Chip} (h : Kept a c) : Kept a (debounceStep c) := by
  unfold debounceStep
  split
  · have k : Kept a (onTrk (fun t => { t with path := .present, debounce := 0 }) c) :=
      h.trans ⟨.refl _, id, fun _ _ => rfl, id, id, id, id⟩
    dsimp only
    split
    · exact kept_enter _ (kept_postTapePath _ k)
    · exact kept_postTapePath _ k
  · exact h

theorem kept_absenceTold {a c : Chip} (h : Kept a c) : Kept a (absenceTold c) := by
  unfold absenceTold
  repeat' first
    | with_reducible assumption
    | with_reducible apply kept_enter
    | with_reducible apply kept_trip
    | split

theorem kept_lose {a c : Chip} (h : Kept a c) : Kept a (onTrk (·.lose) c) := by
  refine h.trans ⟨.refl _, id, fun _ k => ?_, id, id, id, id⟩
  simp [Tracker.lose] at k

theorem kept_pathLostStep {a c : Chip} (h : Kept a c) : Kept a (pathLostStep c) := by
  unfold pathLostStep
  repeat' first
    | with_reducible assumption
    | with_reducible apply kept_postTrackerEvent
    | with_reducible apply kept_endCur
    | with_reducible apply kept_postTapePath
    | with_reducible apply kept_absenceTold
    | with_reducible apply kept_lose
    | split

theorem kept_pathAbsentStep {a c : Chip} (h : Kept a c) : Kept a (pathAbsentStep c) := by
  unfold pathAbsentStep
  have k := kept_setPathPin false h
  dsimp only
  split
  · exact k
  · rename_i hp
    refine k.trans ⟨.refl _, id, fun k hv => ?_, id, id, id, id⟩
    have := k hv
    rw [hp] at this; cases this
  · exact kept_pathLostStep k

theorem kept_endSensorStep {a c : Chip} (b : Bool) (h : Kept a c) : Kept a (endSensorStep b c) := by
  have k (x : Chip) (hx : Kept a x) (f : EndFlag) (d : Nat) : Kept a (newEndFlag (postTrackerNotice .tapeEnd
      (postTrackerEvent .endFlag d (onTrk (fun t => { t with endFlag := f }) x)))) :=
    kept_newEndFlag (kept_postTrackerNotice _ (kept_postTrackerEvent _ _ (kept_measures hx rfl rfl rfl)))
  unfold endSensorStep
  cases b
  · simp only [Bool.false_eq_true, if_false, false_and]
    split <;> exact kept_pins _ h
  · have k2 : Kept a (onTrk (fun t => { t with clearing := 0 }) { c with pins := { c.pins with leader := true } }) :=
      kept_measures (kept_pins _ h) rfl rfl rfl
    simp only [if_true]
    split
    · split
      · exact k _ k2 _ _
      · exact k2
    · exact k2

theorem kept_judgeClaim {a c : Chip} (h : Kept a c) : Kept a (judgeClaim c) := by
  unfold judgeClaim claimJudged
  repeat' first
    | with_reducible assumption
    | with_reducible apply kept_onSup
    | with_reducible apply kept_claimCarry
    | with_reducible apply kept_trip
    | with_reducible apply kept_failStart
    | with_reducible apply kept_catchBegin
    | split

theorem kept_sampleTaken {a c : Chip} (r : Reel) (v : BitVec 12) (h : Kept a c) : Kept a (sampleTaken r v c) := by
  unfold sampleTaken
  repeat' first
    | with_reducible assumption
    | with_reducible apply kept_onSup
    | with_reducible apply kept_trip
    | with_reducible apply kept_judgeClaim
    | split
    | dsimp only

theorem kept_armRead {a c : Chip} (r : Reel) (v : BitVec 12) (h : Kept a c) : Kept a (onTrk (·.armRead r v) c) := by
  cases r <;> exact h.same rfl rfl rfl rfl rfl rfl rfl rfl rfl rfl

theorem kept_tachPulse {a c : Chip} (r : Reel) (h : Kept a c) : Kept a (onTrk (·.tachPulse r) c) := by
  cases r <;> exact h.same rfl rfl rfl rfl rfl rfl rfl rfl rfl rfl

theorem kept_armStep {a c : Chip} (r : Reel) (v : BitVec 12) (h : Kept a c) : Kept a (armStep r v c) := by
  unfold armStep
  repeat' first
    | with_reducible assumption
    | with_reducible apply kept_sampleTaken
    | with_reducible apply kept_armRead
    | split
    | dsimp only

theorem kept_inputCause {a c : Chip} (d : Nat) (k : TripCause) (i : Side) (h : Kept a c) : Kept a (inputCause d k i c) := by
  unfold inputCause
  repeat' first
    | with_reducible assumption
    | with_reducible apply kept_postEvent
    | with_reducible apply kept_trip
    | split

theorem kept_powerFailStep {a c : Chip} (h : Kept a c) : Kept a (powerFailStep c) := by
  unfold powerFailStep
  split
  · exact h
  · exact kept_inputCause _ _ _ (kept_pins _ h)

theorem kept_driveFaultStep {a c : Chip} (r : Reel) (h : Kept a c) : Kept a (driveFaultStep r c) := by
  unfold driveFaultStep
  cases r <;>
    (dsimp only
     split
     · exact h
     · exact kept_inputCause _ _ _ (kept_pins _ h))

theorem kept_fltCapStep {a c : Chip} (h : Kept a c) : Kept a (fltCapStep c) := by
  unfold fltCapStep
  split
  · exact h
  · have k := kept_onDrive (f := fun d => d.release c.pinchFull) (kept_pins { c.pins with fltCap := true } h)
      (driveKept_release _ _)
    dsimp only
    split
    · exact kept_stopCause _ k
    · exact k

theorem kept_breakStep {a c : Chip} (h : Kept a c) : Kept a (breakStep c) := by
  unfold breakStep
  repeat' first
    | with_reducible assumption
    | with_reducible apply kept_trip
    | split

theorem kept_derateRequest {a c : Chip} (h : Kept a c) : Kept a (derateRequest c) := by
  unfold derateRequest
  repeat' first
    | with_reducible assumption
    | with_reducible apply kept_derateTo
    | with_reducible apply kept_stopCause
    | split

theorem kept_excursionStep {a c : Chip} (h : Kept a c) : Kept a (excursionStep c) := by
  unfold excursionStep
  repeat' first
    | with_reducible assumption
    | with_reducible apply kept_onSup
    | with_reducible apply kept_postEvent
    | with_reducible apply kept_derateRequest
    | split
    | dsimp only

theorem kept_settleStep {a c : Chip} (h : Kept a c) : Kept a (settleStep c) := by
  unfold settleStep
  repeat' first
    | with_reducible assumption
    | with_reducible apply kept_postEvent
    | with_reducible apply kept_enter
    | split

theorem kept_slackZeroStep {a c : Chip} (h : Kept a c) : Kept a (slackZeroStep c) := by
  unfold slackZeroStep
  repeat' first
    | with_reducible assumption
    | with_reducible apply kept_engageBrakes
    | split

theorem kept_offDelayStep {a c : Chip} (h : Kept a c) : Kept a (offDelayStep c) := by
  unfold offDelayStep
  repeat' first
    | with_reducible assumption
    | with_reducible apply kept_enter
    | refine kept_onDrive ?_ (driveKept_orderBoth _ _ _ _)
    | split

theorem kept_pinchReport {a c : Chip} (w : Pinch) (h : Kept a c) : Kept a (pinchReport w c) := by
  unfold pinchReport
  split
  · split
    · exact kept_pinchInReport h
    · exact kept_pinchTurnReport h
    · rename_i hp; exact kept_pinchOutReport h hp
    · exact h
  · exact h

theorem kept_pinchStep {a c : Chip} (h : Kept a c) : Kept a (pinchStep c) := by
  unfold pinchStep
  repeat' first
    | with_reducible assumption
    | with_reducible apply kept_settleMoves
    | with_reducible apply kept_pinchReport
    | refine kept_onDrive ?_ (driveKept_pinchEnds _ _ _)
    | split
    | dsimp only

theorem kept_clockTick {a c : Chip} (h : Kept a c) : Kept a (clockTick c) := by
  unfold clockTick
  repeat' first
    | with_reducible assumption
    | exact h.same rfl rfl rfl rfl rfl rfl rfl rfl rfl rfl

theorem kept_referenceStep {a c : Chip} (h : Kept a c) : Kept a (referenceStep c) := by
  unfold referenceStep
  repeat' first
    | with_reducible assumption
    | with_reducible apply kept_settleMoves
    | with_reducible apply kept_judgeBrake
    | with_reducible apply kept_updateReference
    | with_reducible apply kept_clockTick
    | split

theorem kept_durationStep {a c : Chip} (h : Kept a c) : Kept a (durationStep c) := by
  unfold durationStep
  repeat' first
    | with_reducible assumption
    | with_reducible apply kept_settleMoves
    | with_reducible apply kept_durationEnds
    | split
    | dsimp only

theorem kept_starveStep {a c : Chip} (h : Kept a c) : Kept a (starveStep c) := by
  unfold starveStep
  repeat' first
    | with_reducible assumption
    | with_reducible apply kept_stopCause
    | split

theorem kept_silenceStep {a c : Chip} (h : Kept a c) : Kept a (silenceStep c) := by
  unfold silenceStep
  repeat' first
    | with_reducible assumption
    | with_reducible apply kept_onMon
    | with_reducible apply kept_postNotice
    | with_reducible apply kept_postEvent
    | with_reducible apply kept_stopCause
    | split
    | dsimp only

theorem kept_powerOnChip (p : Pins) (c : Chip) : Kept c (powerOnChip p c) := by
  refine ⟨⟨fun _ => rfl, fun _ => ⟨fun _ => rfl, fun _ => rfl⟩, fun _ k => by cases k⟩, fun _ => ?_, fun _ => ?_, fun _ => ?_,
    fun _ => by simp [powerOnChip, Chip.reset, Bus.reset],
    fun _ => by simp [powerOnChip, Chip.reset, NoticeUnit.reset], fun _ => evtOk_reset _ rfl⟩
  · simp only [powerOnChip]; split <;> simp [Tracker.reset]
  · simp only [powerOnChip]; split <;> simp [Tracker.reset]
  · simp [powerOnChip, Chip.reset, GrantUnit.reset, GrantUnit.variRange]

theorem driveKept_assertCarry (d : Drive) (r : CarryRec) : DriveKept d (d.assertCarry r) := by
  unfold Drive.assertCarry; split <;> exact ⟨id, id, id⟩

theorem kept_assertResetStep (c : Chip) : Kept c (assertResetStep c) := by
  unfold assertResetStep
  split
  · exact ⟨driveKept_assertCarry _ _, id, id, id, id, id, id⟩
  · refine kept_arbitrate ⟨driveKept_assertCarry _ _, id, id, fun _ => ?_, fun _ => ?_,
      fun _ => by simp [Chip.reset, NoticeUnit.reset], fun _ => evtOk_reset _ rfl⟩
    · simp [Chip.reset, GrantUnit.reset, GrantUnit.variRange]
    · simp [Bus.assertReset, Bus.reset]

theorem kept_bypassEnds {a c : Chip} (h : Kept a c) : Kept a (bypassEnds c) := by
  refine h.trans ?_
  unfold bypassEnds
  split
  · split
    · rename_i hm
      refine kept_postWrites _ _ ⟨.refl _, id, id, id, id, fun n => ⟨n.1, fun _ => n.2 ?_⟩,
        fun n => ⟨n.1, n.2.1, n.2.2.1, fun _ => n.2.2.2 ?_⟩⟩ <;> (rw [hm.1]; exact Mode.noConfusion)
    · exact .refl c
  · exact .refl c

theorem kept_releaseResetStep (w : Release) (c : Chip) : Kept c (releaseResetStep w c) := by
  unfold releaseResetStep
  split
  · exact kept_arbitrate (kept_bypassEnds ((Kept.refl c).same rfl rfl rfl rfl rfl rfl rfl rfl rfl rfl))
  · exact .refl c

theorem kept_takeDefaultMask {a c : Chip} (h : Kept a c) (hm : c.mode = .startup) : Kept a (takeDefaultMask c) := by
  refine h.trans ⟨.refl _, id, id, id, id, fun n => ?_, id⟩
  have k := n.2 (by rw [hm]; exact Mode.noConfusion)
  simp [takeDefaultMask, k]

theorem kept_clearCueImage {a c : Chip} (h : Kept a c) : Kept a (clearCueImage c) :=
  h.same rfl rfl rfl rfl rfl rfl rfl rfl rfl rfl

theorem clearCueImage_mode (c : Chip) : (clearCueImage c).mode = c.mode := rfl

theorem kept_settingsLoaded {a c : Chip} (h : Kept a c) (hm : c.mode = .startup) : Kept a (settingsLoaded c) := by
  unfold settingsLoaded
  refine kept_onPln _ (kept_takeDefaultMask (kept_postWrites _ _ (kept_clearCueImage (kept_postWrites _ _ (kept_onSet _ h)))) ?_)
  rw [(postWrites_mode _ _ _).1, clearCueImage_mode, postImage, (postWrites_mode _ _ _).1, onSet_mode]
  exact hm

theorem kept_loadStep {a c : Chip} (h : Kept a c) : Kept a (loadStep c) := by
  unfold loadStep
  split
  · rename_i hm
    extract_lets
    split
    · exact kept_settingsLoaded (kept_onSet _ (kept_onSet _ h)) hm.1
    · split
      · exact kept_onSet _ (kept_onSet _ h)
      · exact kept_settingsLoaded (kept_postEvent _ _ _ _ (kept_onSet _ (kept_onSet _ (kept_onSet _ h))))
          ((postEvent_mode _ _ _ _ _).trans hm.1)
  · exact h

theorem kept_carryExpiryStep {a c : Chip} (h : Kept a c) : Kept a (carryExpiryStep c) := by
  unfold carryExpiryStep
  split
  · have k : Kept a (orderLifters .up (onDrive (fun d => d.release c.pinchFull)
        (onDrive (fun d => { d with carry := .expired, carryTimer := none }) c))) :=
      kept_orderLifters _ (kept_onDrive (kept_onDrive h ⟨id, id, id⟩) (driveKept_release _ _))
    dsimp only
    split
    · exact k
    · exact kept_emergencyBoth k
  · exact h

theorem kept_startIn {a c : Chip} (t : TState) (i : Option (Fin 8)) (r : Ramp) (h : Kept a c) : Kept a (startIn t i r c) := by
  unfold startIn
  repeat' first
    | with_reducible assumption
    | with_reducible apply kept_onSup
    | refine kept_onGnt ?_ rfl rfl

theorem kept_startFromPath {a c : Chip} (i : Option (Fin 8)) (h : Kept a c) : Kept a (startFromPath i c) := by
  unfold startFromPath
  repeat' first
    | with_reducible assumption
    | with_reducible apply kept_startIn
    | refine kept_onDrive ?_ (driveKept_orderBoth _ _ _ _)

theorem kept_resumeSlack {a c : Chip} (r : CarryRec) (h : Kept a c) : Kept a (resumeSlack r c) := by
  unfold resumeSlack
  repeat' first
    | with_reducible assumption
    | with_reducible apply kept_claimCarry
    | with_reducible apply kept_engageBrakes
    | with_reducible apply kept_startIn
    | split
    | dsimp only

theorem kept_takeOver {a c : Chip} (r : CarryRec) (h : Kept a c) : Kept a (takeOver r c) := by
  unfold takeOver
  exact kept_failStart _ (kept_startIn _ _ _ (kept_onDrive h ⟨id, id, id⟩))

theorem kept_firstState {a c : Chip} (h : Kept a c) : Kept a (firstState c) := by
  unfold firstState
  repeat' first
    | with_reducible assumption
    | with_reducible apply kept_onSup
    | with_reducible apply kept_claimCarry
    | with_reducible apply kept_emergencyBoth
    | with_reducible apply kept_startIn
    | with_reducible apply kept_startFromPath
    | with_reducible apply kept_resumeSlack
    | with_reducible apply kept_takeOver
    | refine kept_onDrive ?_ (⟨id, id, id⟩)
    | split

theorem kept_startInputs {a c : Chip} (h : Kept a c) : Kept a (startInputs c) := by
  unfold startInputs
  repeat' first
    | with_reducible assumption
    | with_reducible apply kept_postEvent
    | with_reducible apply kept_stopCause
    | with_reducible apply kept_tripStanding
    | split
    | dsimp only

theorem kept_startStep {a c : Chip} (h : Kept a c) : Kept a (startStep c) := by
  unfold startStep
  repeat' first
    | with_reducible assumption
    | with_reducible apply kept_firstState
    | with_reducible apply kept_startInputs
    | split

theorem kept_makePost {a c : Chip} (p : Post) (h : Kept a c) (hm : c.mode = .running) :
    Kept a (makePost p c) ∧ (makePost p c).mode = .running := by
  cases p with
  | event e =>
    exact ⟨⟨h.drive, h.position, h.valid, h.trim, h.queue, h.notices, fun x =>
      ⟨(h.events x).1, (h.events x).2.1, (h.events x).2.2.1, fun hn => absurd hm hn⟩⟩, hm⟩
  | notice k =>
    have e : makePost (.notice k) c = postNotice k c := by rw [postNotice_running hm]; rfl
    exact ⟨by rw [e]; exact kept_postNotice _ h, hm⟩

theorem kept_startupEndStep {a c : Chip} (h : Kept a c) : Kept a (startupEndStep c) := by
  unfold startupEndStep
  split
  · rename_i hs
    have hn : c.mode ≠ .running := by
      simp only [startupOver, Bool.and_eq_true, beq_iff_eq] at hs
      obtain ⟨⟨⟨⟨⟨⟨⟨⟨⟨hs, _⟩, _⟩, _⟩, _⟩, _⟩, _⟩, _⟩, _⟩, _⟩ := hs
      rw [hs]; exact Mode.noConfusion
    have k : Kept a { c with mode := .running, bus := { c.bus with startTime := c.clock }, evt := { c.evt with held := [] } } :=
      h.trans ⟨.refl _, id, id, id, id, fun n => ⟨n.1, fun hn => absurd rfl hn⟩,
        fun x => ⟨x.1, x.2.1, x.2.2.1, fun y => absurd rfl y⟩⟩
    have hm := appendRecord_mode (resetRecord { c with mode := .running, bus := { c.bus with startTime := c.clock }, evt := { c.evt with held := [] } })
      { c with mode := .running, bus := { c.bus with startTime := c.clock }, evt := { c.evt with held := [] } }
    have k2 := kept_appendRecord (resetRecord { c with mode := .running, bus := { c.bus with startTime := c.clock }, evt := { c.evt with held := [] } }) k
      (fun _ => rfl) fun x => ((h.events x).2.2.2 hn).2.2.1
    dsimp only
    generalize appendRecord _ _ = x at hm k2 ⊢
    generalize c.evt.held = l
    induction l generalizing x with
    | nil => exact k2
    | cons p ps ih => exact ih _ (kept_makePost p k2 hm).2 (kept_makePost p k2 hm).1
  · exact h

theorem kept_hostStep {a c : Chip} (cy : HostCyc) (h : Kept a c) : Kept a (hostStep cy c) := kept_done (kept_startCycle cy h)

theorem kept_driveNext {a c : Chip} (h : Kept a c) : Kept a (driveNext c) := by
  unfold driveNext
  split
  · exact kept_driveCycle _ (kept_onBus h rfl)
  · exact h

theorem kept_driveOn {a c : Chip} (h : Kept a c) : Kept a (driveOn c) := by
  unfold driveOn
  split
  · exact kept_tail (kept_driveNext h)
  · exact h

theorem kept_heldReleaseStep {a c : Chip} (h : Kept a c) : Kept a (heldReleaseStep c) := by
  unfold heldReleaseStep
  split
  · split
    · rename_i hr; exact kept_driveNext (kept_classify h hr.2)
    · exact h
  · exact h

theorem kept_screenDecided {a c : Chip} (f : HandFetch) (h : Kept a c) : Kept a (screenDecided f c) := by
  unfold screenDecided
  repeat' first
    | with_reducible assumption
    | with_reducible apply kept_onPln
    | with_reducible apply kept_postRefused
    | with_reducible apply kept_gained
    | with_reducible apply kept_release
    | split
    | dsimp only

theorem kept_screenStep {a c : Chip} (h : Kept a c) : Kept a (screenStep c) := by
  unfold screenStep
  repeat' first
    | with_reducible assumption
    | with_reducible apply kept_screenDecided
    | split

theorem kept_join {a c : Chip} (ws : List PartWrite) (h : Kept a c) (hr : c.bus.room ws.length = true) :
    Kept a (onBus (·.join ws) c) := by
  refine h.trans ⟨.refl _, id, id, id, fun _ => ?_, id, id⟩
  have hr := of_decide_eq_true hr
  simp only [onBus_bus, Bus.join, List.length_append]; exact hr

theorem kept_slotPassStep {a c : Chip} (h : Kept a c) : Kept a (slotPassStep c) := by
  unfold slotPassStep
  split
  · split
    · rename_i hr; exact kept_join _ (kept_onPln _ h) hr
    · exact h
  · exact h

theorem kept_cuePassStep {a c : Chip} (h : Kept a c) : Kept a (cuePassStep c) := by
  unfold cuePassStep
  split
  · split
    · rename_i hr; exact kept_join _ (h.same rfl rfl rfl rfl rfl rfl rfl rfl rfl rfl) hr.1
    · exact h
  · exact h

theorem kept_joinStep {a c : Chip} (p : Poster) (h : Kept a c) : Kept a (joinStep p c) := by
  unfold joinStep
  split
  · split
    · rename_i hr; exact kept_join _ (kept_withWaiting _ _ h) (by cases p <;> exact hr.1)
    · exact h
  · exact h

theorem kept_appendStep {a c : Chip} (h : Kept a c) : Kept a (appendStep c) := by
  unfold appendStep
  split
  · rename_i e rest hp
    have hm (x : evtOk a) : c.mode = .running := by
      by_contra hn
      have := ((h.events x).2.2.2 hn).2.2.2
      rw [hp] at this; cases this
    exact kept_takeEvent e (kept_onEvt _ h fun x =>
      ⟨(h.events x).1, (h.events x).2.1, (h.events x).2.2.1, fun z => absurd (hm x) z⟩) hm
  · exact h

theorem kept_tensionUpNow {a c : Chip} (i : Fin 8) (h : Kept a c) : Kept a (tensionUpNow i c) := by
  unfold tensionUpNow
  repeat' first
    | with_reducible assumption
    | with_reducible apply kept_onSup
    | with_reducible apply kept_enter
    | with_reducible apply kept_tripStanding
    | with_reducible apply kept_tensionOrders
    | refine kept_onGnt ?_ rfl rfl

theorem kept_tensionUpStep {a c : Chip} (h : Kept a c) : Kept a (tensionUpStep c) := by
  unfold tensionUpStep
  repeat' first
    | with_reducible assumption
    | with_reducible apply kept_reply
    | with_reducible apply kept_tensionUpNow
    | split

theorem kept_returnPlan {a c : Chip} (h : Kept a c) : Kept a (returnPlan c) := by
  unfold returnPlan
  repeat' first
    | with_reducible assumption
    | with_reducible apply kept_flushBoth
    | with_reducible apply kept_endTaken

theorem kept_slackDownStep {a c : Chip} (h : Kept a c) : Kept a (slackDownStep c) := by
  unfold slackDownStep
  repeat' first
    | with_reducible assumption
    | with_reducible apply kept_enter
    | with_reducible apply kept_reply
    | with_reducible apply kept_returnPlan
    | split

theorem kept_clearFaultStep {a c : Chip} (h : Kept a c) : Kept a (clearFaultStep c) := by
  unfold clearFaultStep
  repeat' first
    | with_reducible assumption
    | with_reducible apply kept_onSup
    | with_reducible apply kept_enter
    | with_reducible apply kept_reply
    | split
    | dsimp only

theorem kept_deferRequest {a c : Chip} (h : Kept a c) : Kept a (deferRequest c) := by
  unfold deferRequest
  repeat' first
    | with_reducible assumption
    | with_reducible apply kept_cancelPending
    | with_reducible apply kept_reply
    | refine kept_onGnt ?_ rfl rfl

theorem kept_evaluateNow {a c : Chip} (h : Kept a c) : Kept a (evaluateNow c) := by
  unfold evaluateNow
  repeat' first
    | with_reducible assumption
    | with_reducible apply kept_evaluateRequest
    | with_reducible apply kept_reply
    | split
    | dsimp only

theorem kept_requestGrantStep {a c : Chip} (h : Kept a c) : Kept a (requestGrantStep c) := by
  unfold requestGrantStep
  repeat' first
    | with_reducible assumption
    | with_reducible apply kept_reply
    | with_reducible apply kept_deferRequest
    | with_reducible apply kept_evaluateNow
    | split

theorem kept_dropGrantStep {a c : Chip} (h : Kept a c) : Kept a (dropGrantStep c) := by
  unfold dropGrantStep
  repeat' first
    | with_reducible assumption
    | with_reducible apply kept_dropActive
    | with_reducible apply kept_cancelPending
    | with_reducible apply kept_reply
    | with_reducible apply kept_returnPlan
    | split

theorem kept_setCueStep {a c : Chip} (h : Kept a c) : Kept a (setCueStep c) := by
  unfold setCueStep
  repeat' first
    | with_reducible assumption
    | with_reducible apply kept_postEventAt
    | with_reducible apply kept_reply
    | exact h.same rfl rfl rfl rfl rfl rfl rfl rfl rfl rfl
    | split
    | dsimp only

theorem kept_clearCueStep {a c : Chip} (h : Kept a c) : Kept a (clearCueStep c) := by
  unfold clearCueStep
  repeat' first
    | with_reducible assumption
    | with_reducible apply kept_postEvent
    | with_reducible apply kept_reply
    | exact h.same rfl rfl rfl rfl rfl rfl rfl rfl rfl rfl
    | split
    | dsimp only

theorem kept_setPositionStep {a c : Chip} (h : Kept a c) : Kept a (setPositionStep c) := by
  unfold setPositionStep
  dsimp only
  split
  · exact kept_reply _ _ h
  · split
    · exact kept_reply _ _ h
    · split
      · exact kept_reply _ _ h
      · rename_i hp hv
        simp only [ne_eq, not_not] at hp
        simp only [positionInRange, decide_eq_false_iff_not, not_not] at hv
        exact kept_reply _ _ (h.trans ⟨.refl _, fun _ => hv, fun _ _ => hp, id, id, id, id⟩)

theorem kept_openSettingsStep {a c : Chip} (h : Kept a c) : Kept a (openSettingsStep c) := by
  unfold openSettingsStep
  repeat' first
    | with_reducible assumption
    | with_reducible apply kept_onSet
    | with_reducible apply kept_reply

theorem kept_closeSettingsStep {a c : Chip} (h : Kept a c) : Kept a (closeSettingsStep c) := by
  unfold closeSettingsStep
  repeat' first
    | with_reducible assumption
    | with_reducible apply kept_onSet
    | with_reducible apply kept_reply

theorem kept_admitStore {a c : Chip} (f : Store → Store) (h : Kept a c) : Kept a (admitStore (onSet f) c) := by
  unfold admitStore
  repeat' first
    | exact h
    | exact kept_reply _ _ h
    | exact kept_onSet _ h
    | split

theorem kept_saveCompleteStep {a c : Chip} (h : Kept a c) : Kept a (saveCompleteStep c) := by
  unfold saveCompleteStep
  repeat' first
    | with_reducible assumption
    | with_reducible apply kept_onSet
    | with_reducible apply kept_reply
    | split

theorem kept_endReload {a c : Chip} (h : Kept a c) : Kept a (endReload c) := by
  unfold endReload
  repeat' first
    | with_reducible assumption
    | with_reducible apply kept_onSet

theorem kept_recheck {a c : Chip} (h : Kept a c) : Kept a (recheck c) := by
  unfold recheck
  repeat' first
    | with_reducible assumption
    | with_reducible apply kept_postNotice
    | with_reducible apply kept_dropActive
    | with_reducible apply kept_recheckGrant
    | with_reducible apply kept_returnPlan
    | split

theorem kept_adoptSettings {a c : Chip} (bs : List Byte) (h : Kept a c) : Kept a (adoptSettings bs c) := by
  unfold adoptSettings
  repeat' first
    | with_reducible assumption
    | with_reducible apply kept_onSet
    | with_reducible apply kept_onMon
    | with_reducible apply kept_postWrites
    | with_reducible apply kept_reply
    | with_reducible apply kept_endReload
    | with_reducible apply kept_recheck
    | split

theorem kept_reloadReadStep {a c : Chip} (h : Kept a c) : Kept a (reloadReadStep c) := by
  unfold reloadReadStep
  repeat' first
    | with_reducible assumption
    | with_reducible apply kept_onSet
    | with_reducible apply kept_reply
    | with_reducible apply kept_endReload
    | with_reducible apply kept_adoptSettings
    | split
    | dsimp only

theorem kept_replyStep {a c : Chip} (h : Kept a c) : Kept a (replyStep c) := by
  unfold replyStep
  repeat' first
    | with_reducible assumption
    | with_reducible apply kept_onMbx
    | with_reducible apply kept_postNotice
    | with_reducible apply kept_postWrites
    | split

theorem kept_whenRun {c : Chip} (n : Byte) {f : Chip → Chip} (h : Kept c (f c)) : Kept c (whenRun n f c) := by
  unfold whenRun
  split
  · exact kept_done h
  · exact .refl c

/-- Whatever of what always stands stood before a command stands after it. -/
theorem exec_kept (i : Instr) {s t : State} (h : exec i s = .next t) : Kept s.chip t.chip := by
  have r := Kept.refl s.chip
  have hw (o : Nat) (w : Word) (be : Enables) : Kept s.chip (hostWriteStep o w be s.chip) := kept_hostStep _ r
  cases i <;> simp only [exec] at h <;> injection h with h <;> subst h
  case powerOn p => exact kept_powerOnChip p s.chip
  case resetNAsserted => exact kept_assertResetStep s.chip
  case resetNReleased w => exact kept_releaseResetStep w s.chip
  case settingsLoad => exact kept_arbitrate (kept_loadStep r)
  case supervisorStart => exact kept_done (kept_startStep r)
  case carryExpiry => exact kept_carryExpiryStep r
  case recoverySweepRead =>
    unfold sweepStep
    split
    · exact kept_arbitrate (kept_sweepRead _ _ (kept_freePort r))
    · exact r
  case startupEnd => exact kept_done (kept_startupEndStep r)
  case rollerCount d => exact kept_done (kept_rollStep d r)
  case tachPulse x => exact kept_done (kept_tachPulse x r)
  case capstanPulse => exact kept_onDrive (f := fun d => { d with capWin := bumpNat d.capWin }) r ⟨id, id, id⟩
  case speedWindowTick => exact kept_done (kept_tickStep r)
  case pathSensorPresent => exact kept_pathPresentStep r
  case pathDebounceExpiry => exact kept_done (kept_debounceStep r)
  case pathAbsent => exact kept_done (kept_pathAbsentStep r)
  case endSensorLeader b => exact kept_done (kept_endSensorStep b r)
  case armSample x v => exact kept_done (kept_armStep x v r)
  case powerFail => exact kept_done (kept_powerFailStep r)
  case driveFault x => exact kept_done (kept_driveFaultStep x r)
  case fltCap => exact kept_done (kept_fltCapStep r)
  case faultInputReleased p => exact kept_pins _ r
  case breakTimerExpiry => exact kept_done (kept_breakStep r)
  case excursionTimerExpiry => exact kept_done (kept_excursionStep r)
  case settleTimerExpiry => exact kept_done (kept_settleStep r)
  case slackReferenceZero => exact kept_done (kept_slackZeroStep r)
  case offDelayExpiry => exact kept_done (kept_offDelayStep r)
  case pinchMovementEnd => exact kept_done (kept_pinchStep r)
  case referenceSpeedUpdate => exact kept_done (kept_referenceStep r)
  case durationTimerExpiry => exact kept_done (kept_durationStep r)
  case starveTimerExpiry => exact kept_done (kept_starveStep r)
  case handOffScreen => exact kept_done (kept_screenStep r)
  case slotWriteListPass => exact kept_arbitrate (kept_slotPassStep r)
  case cueWriteListPass => exact kept_arbitrate (kept_cuePassStep r)
  case silenceTimerExpiry => exact kept_done (kept_silenceStep r)
  case eventAppend => exact kept_arbitrate (kept_appendStep r)
  case heldCycleRelease => exact kept_done (kept_heldReleaseStep r)
  case writeJoinsQueue p => exact kept_arbitrate (kept_joinStep p r)
  case memoryCycleDone =>
    unfold memoryDoneStep
    split
    · exact kept_arbitrate (kept_driveOn (kept_bypassEnds (kept_cycleDone _ _ (kept_freePort r))))
    · exact r
  case memoryResponseLimit =>
    unfold memoryLimitStep
    split
    · split
      · exact r
      · exact kept_arbitrate (kept_driveOn (kept_bypassEnds (kept_cycleAborted _ (kept_freePort r))))
    · exact r
  case tensionUp => exact kept_whenRun _ (kept_tensionUpStep r)
  case slackDown => exact kept_whenRun _ (kept_slackDownStep r)
  case requestGrant => exact kept_whenRun _ (kept_requestGrantStep r)
  case dropGrant => exact kept_whenRun _ (kept_dropGrantStep r)
  case setCue => exact kept_whenRun _ (kept_setCueStep r)
  case clearCue => exact kept_whenRun _ (kept_clearCueStep r)
  case setPosition => exact kept_whenRun _ (kept_setPositionStep r)
  case clearFault => exact kept_whenRun _ (kept_clearFaultStep r)
  case openSettings => exact kept_whenRun _ (kept_openSettingsStep r)
  case closeSettings => exact kept_whenRun _ (kept_closeSettingsStep r)
  case saveSettings => exact kept_whenRun _ (kept_admitStore _ r)
  case saveComplete => exact kept_done (kept_saveCompleteStep r)
  case reloadSettings => exact kept_whenRun _ (kept_admitStore _ r)
  case reloadStoreRead => exact kept_done (kept_reloadReadStep r)
  case mailboxReply => exact kept_done (kept_replyStep r)
  all_goals first | exact hw _ _ _ | exact kept_hostStep _ r
end Sys2Proof.Laws
end

