-- ==== Sys2Proof/Laws/Effects.lean ====
section
/-! SUPPORT. What the steps of the tape path, the segment engine and the supervisor come to where a statement meets them:
each lemma says once what an operation leaves or makes in the cases the statements name. -/

namespace Sys2Proof.Laws

open Sys2Proof Sys2Proof.Machine

/-- With no move request standing nothing is settled. -/
theorem settleMoves_idle {c : Chip} (h : c.eng.moveReq = false) : settleMoves c = c := by simp [settleMoves, h]

/-- The tracker's posts of a count, as `Chip.rolled` writes them. -/
theorem rolled_eq (d : Dir) (c : Chip) :
    rollPosts c.trk d (onTrk (·.count c.pins.leader d) c) = c.rolled d := by
  simp only [rollPosts, Chip.rolled, postTrackerEvent, onTrk]
  by_cases hm : c.mode = .running
  · by_cases h1 : c.trk.sticks d = true ∧ c.trk.valid = true <;>
      by_cases h2 : c.trk.endFlag ≠ .none ∧ (c.trk.count c.pins.leader d).endFlag = .none <;>
      simp [hm, h1, h2, postEvent_running, Chip.posting, Chip.event]
  · simp [hm]

/-- A count leaves every block but the tracker and the posts. -/
theorem rolled_frame (d : Dir) (c : Chip) : (c.rolled d).mode = c.mode ∧ (c.rolled d).sup = c.sup ∧ (c.rolled d).drv = c.drv ∧
   (c.rolled d).eng = c.eng ∧ (c.rolled d).pln = c.pln ∧ (c.rolled d).gnt = c.gnt ∧ (c.rolled d).set = c.set ∧
   (c.rolled d).trk = c.trk.count c.pins.leader d ∧ (c.rolled d).cue = c.cue ∧ (c.rolled d).mbx = c.mbx := by
  simp only [Chip.rolled]; split <;> simp [Chip.posting]

/-- ROLLER_COUNT with no move request standing. -/
theorem rollStep_eq (d : Dir) (c : Chip) (h : c.eng.moveReq = false) : rollStep d c =
   if (c.rolled d).locateCurrent ∧ (c.rolled d).trk.valid = false then locateLost (c.rolled d) else rollCurrent d (c.rolled d) := by
  simp only [rollStep, settleMoves_idle h, rolled_eq]

theorem abandonSlow_pulses (v : Int) (m : ReelMeasure) : (abandonSlow v m).pulses = m.pulses := by unfold abandonSlow; split <;> rfl

theorem abandonSlow_radius (v : Int) (m : ReelMeasure) : (abandonSlow v m).radius = m.radius := by unfold abandonSlow; split <;> rfl

theorem abandonSlow_arm (v : Int) (m : ReelMeasure) : (abandonSlow v m).arm = m.arm := by unfold abandonSlow; split <;> rfl

/-- Below 500 mm/s the revolution in progress is abandoned. -/
theorem abandonSlow_rev (v : Int) (m : ReelMeasure) : (abandonSlow v m).rev = if v.natAbs < 500 then none else m.rev := by
  unfold abandonSlow; split <;> rfl

/-- The end of the current segment in a running part. -/
theorem endCur_some (st : Status) (c : Chip) (g : Seg) (hc : c.eng.cur = some g) (hm : c.mode = .running) :
    endCur st c = ({ c with
      pln := { c.pln.withRing g.ring ((c.pln.ring g.ring).withSlot g.slot ⟨.host, none⟩) with
        list := c.pln.list ++ [.ret g.ring g.slot st c.trk.position c.clock] }
      eng := { c.eng with cur := none } } : Chip).posting
      (if g.record.report then [c.event .segmentReported st.code g.record.tag (slotOffset g.ring g.slot : Nat)] else [])
      (if g.record.report then [.segmentReported] else []) := by
  simp only [endCur, hc]
  split
  · rw [postNotice_running (by simp [hm]), postEvent_running (by simp [hm])]
    simp [Chip.posting, Chip.event, onPln, onEng]
  · simp [Chip.posting, onPln, onEng]

/-- A completion with nothing queued starves. -/
theorem complete_runsOut (g : Seg) (st : Status) (c : Chip) (hc : c.eng.cur = some g) (h : RunsOut g c) :
    complete st c = starveNow g.record.tag (endCur st c) := by
  obtain ⟨hm, ht, he, hu, hq, hr, hf, hs⟩ := h
  have e := endCur_some st c g hc hm
  have q : (endCur st c).pln.urgent.queued = 0 ∧ (endCur st c).pln.main.queued = 0 := by
    rw [e]; cases hg : g.ring <;> simp [Chip.posting, Plan.withRing, Plan.ring, Ring.withSlot, hu, hq]
  have he' : (endCur st c).eng = { c.eng with cur := none } := by rw [e]; rfl
  simp only [complete, settle, outcome, Chip.curRecord, hc, Option.map_some, Option.getD_some]
  rw [follow, if_pos (by simp [canTake, ht, he', he])]
  simp only [nextRing, q, ne_eq, not_true_eq_false, if_false]
  rw [nothingQueued, if_neg (by simp [he', hf])]
  simp [hr]

theorem done_held (c : Chip) : (done c).eng.held = c.eng.held := (congrArg (fun c : Chip => c.eng.held) (done_plain c) :)

theorem done_starve (c : Chip) : (done c).eng.starve = c.eng.starve := (congrArg (fun c : Chip => c.eng.starve) (done_plain c) :)

/-- What the host finds after it. -/
theorem ends_runsOut (g : Seg) (st : Status) (c : Chip) (s : State) (hc : c.eng.cur = some g) (h : RunsOut g c) :
    RanOut g st c (s.ends (complete st c)) := by
  have h' := h
  obtain ⟨hm, ht, he, hu, hq, hr, hf, hs⟩ := h
  rw [complete_runsOut g st c hc h', endCur_some st c g hc hm]
  simp only [starveNow]
  rw [if_neg (by simp [Chip.posting, hs])]
  rw [postNotice_running (by simp [hm, Chip.posting]), postEvent_running (by simp [hm, Chip.posting])]
  have hcur := done_cur_none
  refine ⟨⟨?_, ?_, ?_, ?_, ?_⟩, ⟨?_, ?_, ?_, ?_⟩, ?_, ?_, ?_, ⟨?_, ?_, ?_, ?_, ?_⟩⟩ <;>
   simp [State.ends, Chip.posting, Chip.event, onEng, ht, done_held, done_starve, done_cur_none, Ring.slot, Ring.withSlot]
  cases g.ring <;> simp +contextual [Plan.ring, Plan.withRing]

theorem runsOut_rolled {g : Seg} {c : Chip} (d : Dir) (h : RunsOut g c) : RunsOut g (c.rolled d) := by
  have f := rolled_frame d c
  simpa only [RunsOut, f] using h

/-- After a flush nothing is queued. -/
theorem flushBoth_queued (st : Status) (c : Chip) :
    (flushBoth st c).pln.urgent.queued = 0 ∧ (flushBoth st c).pln.main.queued = 0 := by
  simp [flushBoth, flushRing, Plan.ring, Plan.withRing, Ring.flushed, onPln]

/-- What an entry leaves of the engine. -/
theorem enter_eng (n : TState) (c : Chip) : (enter n c).eng = if n.dropsGrant then Engine.reset else c.eng := by
  simp only [enter]; cases n <;> simp [TState.dropsGrant, idleEngine]

/-- The states that keep the grants. -/
theorem enter_gnt (n : TState) (c : Chip) (h : n = .moving ∨ n = .stopping ∨ n = .tensioning) : (enter n c).gnt = c.gnt := by
  rcases h with h | h | h <;> subst h <;> simp [enter, enterGrant, TState.dropsGrant]

/-- The latch a cause sets. -/
theorem latchAndFlush_sup (k : StopCause) (c : Chip) :
    (latchAndFlush k c).sup = { c.sup with latch := c.sup.latch || k.latches } := by
  have e : (setLatch c).sup = { c.sup with latch := true } := by
    unfold setLatch; split
    · rename_i h; rw [← h]
    · simp
  simp only [latchAndFlush]
  cases k.latches <;> simp [e]

theorem setLatch_pln (c : Chip) : (setLatch c).pln = c.pln := by simp

theorem latchAndFlush_pln (k : StopCause) (c : Chip) :
    (k.latches = false → (latchAndFlush k c).pln = c.pln) ∧
    (k.latches = true → (latchAndFlush k c).pln.urgent.queued = 0 ∧ (latchAndFlush k c).pln.main.queued = 0) := by
  refine ⟨fun h => by simp [latchAndFlush, h], fun h => ?_⟩
  simp only [latchAndFlush, h, if_true]; exact flushBoth_queued _ _

theorem haltEntry_eng (c : Chip) : (haltEntry c).eng = { c.eng with haltHold := c.drv.pinchOn } := by
  simp only [haltEntry]; split <;> simp_all

/-- A cause taken in MOVING (R31). -/
theorem stopMoving_sup (k : StopCause) (c : Chip) :
    (stopMoving k c).sup.ts = .stopping ∧ (stopMoving k c).sup.stop = k ∧ (stopMoving k c).sup.trip = c.sup.trip ∧
    (stopMoving k c).sup.latch = (c.sup.latch || k.latches) ∧ (stopMoving k c).gnt = c.gnt := by
  simp [stopMoving, latchAndFlush_sup, enter_gnt]

theorem endCur_eng (st : Status) (c : Chip) : (endCur st c).eng = { c.eng with cur := none } := by
  simp only [endCur]; split
  · rename_i h; simp [← h]
  · split <;> simp

/-- What a cause in MOVING leaves of the engine. -/
theorem stopMoving_eng (k : StopCause) (c : Chip) :
    (stopMoving k c).eng = { (c.eng.halted) with haltHold := c.drv.pinchOn } := by
  simp only [stopMoving, enter_eng, postEvent_eng, haltEntry_eng]
  simp [TState.dropsGrant, Engine.halted, endCur_eng]

/-- A latching cause leaves nothing queued. -/
theorem stopMoving_pln (k : StopCause) (c : Chip) :
    (k.latches = false → (stopMoving k c).pln = (endCur k.endStatus c).pln) ∧
    (k.latches = true → (stopMoving k c).pln.urgent.queued = 0 ∧ (stopMoving k c).pln.main.queued = 0) := by
  have h (x : Chip) := latchAndFlush_pln k x
  refine ⟨fun hk => ?_, fun hk => ?_⟩
  · simp only [stopMoving, enter_frame, postEvent_pln, haltEntry_frame, (h _).1 hk, onEng_pln]
    simp only [endCur]; simp only [onSup_eng]; split
    · rfl
    · split <;> simp [onPln]
  · simp only [stopMoving, enter_frame, postEvent_pln, haltEntry_frame]
    exact (h _).2 hk

theorem done_pinchTime (c : Chip) : (done c).drv.pinchTime = c.drv.pinchTime := (congrArg (fun c : Chip => c.drv.pinchTime) (done_plain c) :)

/-- The mark is made once. -/
theorem markClipped_idem (c : Chip) : markClipped (markClipped c) = markClipped c := by
  simp only [markClipped, onSeg, onEng]
  cases h : c.eng.cur with
  | none => simp
  | some g =>
    have : ∀ b, clips { c with eng := { c.eng with cur := some { g with clipped := b } } } { g with clipped := b } = clips c g := by
      intro b; rfl
    simp [this]

theorem done_markClipped (c : Chip) (h : c.sup.up = true) : done (markClipped c) = done c := by
  have : (markClipped c).sup = c.sup := rfl
  simp only [done, tail, this, h, if_true, markClipped_idem]

/-- A latching cause taken in MOVING, as the statements write it. -/
theorem halted_stopMoving (k : StopCause) (hk : k.latches = true) (s : State) (c : Chip) (h1 : c.sup.trip = s.chip.sup.trip)
  (h2 : c.gnt = s.chip.gnt) (h3 : c.cue = s.chip.cue) (h4 : c.set = s.chip.set) : Halted k s (s.ends (stopMoving k c)) := by
  have a := stopMoving_sup k c
  have b := stopMoving_eng k c
  have p := (stopMoving_pln k c).2 hk
  refine ⟨⟨?_, ?_, ?_, ?_⟩, ⟨?_, ?_⟩, ⟨?_, ?_⟩, ⟨?_, ?_, ?_, ?_⟩⟩ <;>
    simp [State.ends, a, b, p, h1, h2, h3, h4, hk, done_cur_none, Engine.halted]

/-- A cause in MOVING takes the pinch away, or stops the capstan. -/
theorem stopMoving_drv (k : StopCause) (c : Chip) : (stopMoving k c).drv =
   if c.drv.pinchOn then c.drv.pinchAway c.pinchFull else c.drv.capstanOff c.pinchFull := by
  have e (x : Chip) : (enter .stopping x).drv = x.drv := by simp [enter, enterStage, TState.admitsPinch, TState.dropsGrant]
  have h (x : Chip) : (haltEntry x).drv = if x.drv.pinchOn then x.drv.pinchAway x.pinchFull else x.drv.capstanOff x.pinchFull := by
    simp only [haltEntry]; split <;> simp
  simp only [stopMoving, e, postEvent_drv, h, latchAndFlush_frame, onEng_drv, endCur_frame, onSup_drv, Chip.pinchFull, onEng_set, onSup_set]

/-- Asking the lifters changes the lifters alone. -/
theorem askLifters_drv (c : Chip) : ∃ p, askLifters c = { c with drv := { c.drv with lifters := p } } := by
  simp only [askLifters]
  split
  · split
    · exact ⟨_, rfl⟩
    · exact ⟨c.drv.lifters, rfl⟩
  · exact ⟨c.drv.lifters, rfl⟩

/-- The end of a command leaves the current segment but for its mark. -/
theorem done_cur (c : Chip) (g : Seg) (h : c.eng.cur = some g) : ∃ b, (done c).eng.cur = some { g with clipped := b } := by
  have h1 := congrArg (fun c : Chip => c.eng.cur) (done_plain c)
  simp only [Chip.plain, h, Option.map_some] at h1
  cases hd : (done c).eng.cur with
  | none => simp [hd] at h1
  | some g' =>
    simp only [hd, Option.map_some, Option.some.injEq] at h1
    refine ⟨g'.clipped, congrArg some ?_⟩
    cases g; cases g'; simp_all

/-- The move of the reference speed after a tick. -/
theorem tick_move (e : Engine) (v : Int) (a : Nat) : e.tick.move v a =
    { e with ref := (e.move v a).ref, frac := (e.move v a).frac, cur := e.tick.cur, starve := e.tick.starve } := by
  by_cases h : (v - e.ref).natAbs ≤ (a + e.frac) / 100 <;> simp [Engine.move, Engine.tick, h]

/-- The state of a MOVING update after the move of the reference speed, the lifters asked and the mark made. -/
theorem update_moving (g : Seg) (s : State) (hm : s.chip.mode ≠ .bypass) (ht : s.chip.sup.ts = .moving)
    (hg : s.chip.eng.cur = some g) (hp : g.phase ≠ .release) :
    ∃ (d : Drive) (b : Bool) (tm : Option Nat) (c : Chip),
      let e' := s.chip.eng.move (targetSpeed s.chip) (effectiveAccel s.chip)
      let ref' := if g.phase = .pinchOut then s.chip.eng.ref else e'.ref
      let frac' := if g.phase = .pinchOut then s.chip.eng.frac else e'.frac
      let g' : Seg := { g with clipped := b, timer := tm }
      c.eng = { s.chip.eng with cur := some g', ref := ref', frac := frac', starve := tickTimer s.chip.eng.starve } ∧
      d = { s.chip.drv with lifters := d.lifters } ∧
      c.drv = (if (g.phase = .pinchIn ∨ g.phase = .capstan) ∧ ref' ≠ s.chip.eng.ref ∧ s.chip.pins.fltCap = false then
        d.capstanRun ref' else d) ∧ c.sup = s.chip.sup.tick ∧ c.trk = s.chip.trk ∧ c.gnt = s.chip.gnt ∧ c.cue = s.chip.cue ∧
      c.set = s.chip.set ∧ c.pins = s.chip.pins ∧ c.pln = s.chip.pln ∧ c.mode = s.chip.mode ∧
      exec .referenceSpeedUpdate s = .next (s.ends (judgeBrake (starvedAtRest (judgeCurrent (decide (ref' ≠ s.chip.eng.ref)) c)))) := by
  have htick : targetSpeed (clockTick s.chip) = targetSpeed s.chip := by
    simp only [targetSpeed, clockTick, Engine.tick, hg, Option.map_some]; rfl
  have hacc : effectiveAccel (clockTick s.chip) = effectiveAccel s.chip := by
    simp only [effectiveAccel, clockTick, Engine.tick, hg, Option.map_some]; rfl
  set k := moveReference (clockTick s.chip) with hkk
  have hmv : k = (let g1 : Seg := { g with timer := tickTimer g.timer }
      let c1 := clockTick s.chip
      if g.phase = .pinchOut then c1 else
      let e2 := c1.eng.move (targetSpeed s.chip) (effectiveAccel s.chip)
      { c1 with eng := e2, drv := if (g.phase = .pinchIn ∨ g.phase = .capstan) ∧ e2.ref ≠ s.chip.eng.ref ∧ s.chip.pins.fltCap = false then c1.drv.capstanRun e2.ref else c1.drv }) := by
    have hc1 : (clockTick s.chip).eng.cur = some { g with timer := tickTimer g.timer } := by simp [clockTick, Engine.tick, hg]
    simp only [hkk, moveReference, hc1, hp, false_or]
    split
    · rfl
    · rw [htick, hacc]
      simp only [onEng, orderCapstanRun, onDrive]
      have : (clockTick s.chip).eng.ref = s.chip.eng.ref := rfl
      rw [this]
      have hs : (clockTick s.chip).sup.ts = .moving := ht
      have hpn : (clockTick s.chip).pins = s.chip.pins := rfl
      by_cases h : (g.phase = .pinchIn ∨ g.phase = .capstan) ∧ ((clockTick s.chip).eng.move (targetSpeed s.chip) (effectiveAccel s.chip)).ref ≠ s.chip.eng.ref
      · refine (if_pos h).trans ?_
        simp only [hs, hpn]
        cases hf : s.chip.pins.fltCap <;> simp [h]
      · refine (if_neg h).trans ?_
        have h' : ¬ ((g.phase = .pinchIn ∨ g.phase = .capstan) ∧ ((clockTick s.chip).eng.move (targetSpeed s.chip) (effectiveAccel s.chip)).ref ≠ s.chip.eng.ref ∧ s.chip.pins.fltCap = false) := fun ⟨a, b, c⟩ => h ⟨a, b⟩
        simp only [if_neg h']
  obtain ⟨p, hl⟩ := askLifters_drv (markClipped k)
  have hcur : k.eng.cur = some { g with timer := tickTimer g.timer } := by
    rw [hmv]; dsimp only; split
    · simp [clockTick, Engine.tick, hg]
    · simp [Engine.move, clockTick, Engine.tick, hg]; split <;> rfl
  have hx : exec .referenceSpeedUpdate s = .next (s.ends (judgeBrake (starvedAtRest (judgeCurrent (decide ((askLifters (markClipped k)).eng.ref ≠ s.chip.eng.ref)) (askLifters (markClipped k)))))) := by
    have hs : settleMoves s.chip = s.chip := by simp [settleMoves, ht]
    simp only [exec, execReferenceSpeedUpdate, State.onChip, State.ends, referenceStep, hs]
    have : (clockTick s.chip).sup.ts = .moving := ht
    simp only [updateReference, this, hm, if_false]
    rfl
  have hct : (clockTick s.chip).eng = s.chip.eng.tick := rfl
  have hke : k.eng = if g.phase = .pinchOut then s.chip.eng.tick else s.chip.eng.tick.move (targetSpeed s.chip) (effectiveAccel s.chip) := by
    rw [hmv]; dsimp only; split <;> rfl
  have href : (askLifters (markClipped k)).eng.ref = if g.phase = .pinchOut then s.chip.eng.ref else (s.chip.eng.move (targetSpeed s.chip) (effectiveAccel s.chip)).ref := by
    rw [hl]; simp only [markClipped, onSeg, onEng]; rw [hke]; split
    · rfl
    · rw [tick_move]
  refine ⟨{ s.chip.drv with lifters := p }, g.clipped || clips k { g with timer := tickTimer g.timer }, tickTimer g.timer, askLifters (markClipped k), ?_⟩
  intro e' ref' frac' g'
  refine ⟨?_, rfl, ?_, ?_, ?_, ?_, ?_, ?_, ?_, ?_, ?_, ?_⟩
  · rw [hl]; simp only [markClipped, onSeg, onEng, hcur, Option.map_some]
    simp only [ref', frac', g', e', hke]
    by_cases hh : g.phase = .pinchOut
    · simp only [if_pos hh]; simp [Engine.tick]
    · simp only [if_neg hh, tick_move]; simp [Engine.tick]
  · rw [hl]; simp only [markClipped, onSeg, onEng]
    rw [hmv]; dsimp only
    by_cases hh : g.phase = .pinchOut
    · simp [hh, clockTick]
    · have e1 : ((clockTick s.chip).eng.move (targetSpeed s.chip) (effectiveAccel s.chip)).ref = ref' := by
        simp only [ref', if_neg hh, e', hct, tick_move]
      simp only [if_neg hh, e1]
      split <;> rfl
  · rw [hl]; simp only [markClipped, onSeg, onEng]; rw [hmv]; dsimp only; split <;> rfl
  · rw [hl]; simp only [markClipped, onSeg, onEng]; rw [hmv]; dsimp only; split <;> rfl
  · rw [hl]; simp only [markClipped, onSeg, onEng]; rw [hmv]; dsimp only; split <;> rfl
  · rw [hl]; simp only [markClipped, onSeg, onEng]; rw [hmv]; dsimp only; split <;> rfl
  · rw [hl]; simp only [markClipped, onSeg, onEng]; rw [hmv]; dsimp only; split <;> rfl
  · rw [hl]; simp only [markClipped, onSeg, onEng]; rw [hmv]; dsimp only; split <;> rfl
  · rw [hl]; simp only [markClipped, onSeg, onEng]; rw [hmv]; dsimp only; split <;> rfl
  · rw [hl]; simp only [markClipped, onSeg, onEng]; rw [hmv]; dsimp only; split <;> rfl
  · rw [hx, href]

theorem done_capstan (c : Chip) : (done c).drv.capRun = c.drv.capRun ∧ (done c).drv.capSpeed = c.drv.capSpeed ∧
  (done c).drv.pinch = c.drv.pinch ∧ (done c).drv.pinchSpent = c.drv.pinchSpent :=
  ⟨(congrArg (fun c : Chip => c.drv.capRun) (done_plain c) :), (congrArg (fun c : Chip => c.drv.capSpeed) (done_plain c) :),
   (congrArg (fun c : Chip => c.drv.pinch) (done_plain c) :), (congrArg (fun c : Chip => c.drv.pinchSpent) (done_plain c) :)⟩

theorem judgeBrake_idle {c : Chip} (h : ∀ g, c.eng.cur = some g → g.phase ≠ .brake) : judgeBrake c = c := by
  simp only [judgeBrake]; split
  · rename_i g hg; split
    · rename_i hp; exact absurd hp (h g hg)
    · rfl
  · rfl

theorem starved_idle {c : Chip} (h : c.eng.est ≠ .starved) : starvedAtRest c = c := by simp [starvedAtRest, h]

theorem limitTarget_eq {c c' : Chip} (h1 : c.gnt = c'.gnt) (h2 : c.trk = c'.trk) (h3 : c.set = c'.set) (v : Int) :
    limitTarget c v = limitTarget c' v := by
  obtain ⟨⟩ := c; obtain ⟨⟩ := c'; simp only at h1 h2 h3; subst h1 h2 h3; rfl

theorem fallenToZero_moving {c : Chip} {g : Seg} (h : limitTarget c (unlimitedTarget c g) ≠ 0) : fallenToZero c g = false := by
  simp only [fallenToZero, decide_eq_false_iff_not]; exact fun k => h k.2.2

/-- The end of a lead-in: the capstan runs and the pinch is asked in, or a pinch fault stops the transport (R123). -/
theorem leadInEnds_eq (c : Chip) (g : Seg) (hg : c.eng.cur = some g) (ht : c.sup.ts = .moving) :
    let c1 : Chip := if c.pins.fltCap then c else { c with drv := c.drv.capstanRun c.eng.ref }
    settle (leadInEnds c) = if c1.drv.pinchInOk true then
      { c1 with drv := c1.drv.pinchInRequest true c.set.gen.pinchTime, eng := { c.eng with cur := some { g with phase := .pinchIn } } }
      else stopMoving .pinchFault c1 := by
  intro c1
  have h1 : (orderCapstanRun c.eng.ref c).1 = c1 := by
    simp only [orderCapstanRun, ht, c1]; cases c.pins.fltCap <;> simp [onDrive]
  have h2 : c1.sup = c.sup ∧ c1.eng = c.eng ∧ c1.set = c.set := by simp only [c1]; split <;> simp
  have hb : (c1.sup.ts == TState.moving) = true := by rw [h2.1, ht]; rfl
  simp only [leadInEnds, h1, hb]
  by_cases hok : c1.drv.pinchInOk true = true
  · simp only [hok, if_true]
    simp [settle, outcome, toPhase, onSeg, onEng, onDrive, h2, hg, Chip.pinchFull]
  · simp only [hok]
    simp [settle, outcome, stopCause, h2, ht]

theorem effectiveAccel_eq {c c' : Chip} (h1 : c.gnt = c'.gnt) (h2 : c.set = c'.set) (h3 : c.sup.threaded = c'.sup.threaded)
    (h4 : c.eng.cur.map Seg.record = c'.eng.cur.map Seg.record) : effectiveAccel c = effectiveAccel c' := by
  have hp : c.profile = c'.profile := by simp only [Chip.profile, h2, h3]
  have hs : stopAccel c = stopAccel c' := by simp only [stopAccel, h1, hp]
  simp only [effectiveAccel]
  cases hc : c.eng.cur <;> cases hc' : c'.eng.cur <;> simp_all [recordAccel]

/-- The judgement of a LOCATE with no count (R144). -/
theorem judgeLocate_none {c : Chip} {g : Seg} {l : Loc} (hc : c.eng.cur = some g) (hl : g.loc = some l)
    (hp : g.phase = .approach ∨ g.phase = .creep) :
    judgeLocate none c = { c with eng := { c.eng with cur := some { g with
      phase := if withinTolerance c l then .brake else if g.phase = .approach ∧ nearTarget c g l then .creep else g.phase } } } := by
  obtain ⟨ring, slot, rec, kind, dir, phase, est, cl, tm, loc⟩ := g
  simp only at hl hp
  subst hl
  have h0 : (withinTolerance c l || (dir != none && none == dir && reached c.trk.position l.target dir)) = withinTolerance c l := by
    cases dir <;> simp
  have hid : ∀ g, c.eng.cur = some g → c = { c with eng := { c.eng with cur := some g } } := fun g h => by rw [← h]
  simp only [judgeLocate, hc]
  rcases hp with h | h <;> subst h <;> simp only [h0, toPhase, onSeg, onEng, hc, Option.map_some]
  · split
    · rfl
    · simp only [true_and]; split
      · rfl
      · exact hid _ hc
  · split
    · rfl
    · simp only [reduceCtorEq, false_and, if_false]; exact hid _ hc

theorem limitTarget_ne {c : Chip} {v : Int} (h : v ≠ 0) (k : ∀ d, speedLimit c d ≠ 0) : limitTarget c v ≠ 0 := by
  simp only [limitTarget, dirOf]
  rcases lt_trichotomy v 0 with h1 | h1 | h1
  · rw [if_neg (by omega), if_pos h1]; have := k .reverse; simp only [clampInt]; omega
  · exact absurd h1 h
  · rw [if_pos h1]; have := k .forward; simp only [clampInt]; omega

theorem nearTarget_atRest (c : Chip) (g : Seg) (l : Loc) (h : c.eng.ref = 0) : nearTarget c g l = false := by
  simp only [nearTarget, h, decide_eq_false_iff_not]
  rintro ⟨h1, h2, _⟩
  exact h1 (h2 ▸ rfl)

/-- The engine's part of a LOCATE's take from rest. -/
theorem judgeTake_locate (c : Chip) (g : Seg) (l : Loc) (hg : c.eng.cur = some g) (hl : g.loc = some l) (hk : g.kind = .locate)
    (hf : c.trk.endFlag = .none) (hr : c.eng.ref = 0) (hp : c.drv.pinch = .out) (hs : ∀ d, speedLimit c d ≠ 0) :
    ∃ b, judgeTake g c = ({ c with eng := { c.eng with cur := some { g with
      clipped := b, dir := dirOf (l.target - c.trk.position), phase := (if withinTolerance c l then .brake else .approach) } } }, .goes) := by
  obtain ⟨ring, slot, rec, kind, dir, phase, est, cl, tm, loc⟩ := g
  simp only at hl hk
  subst hl hk
  have ha : ∀ d, endAhead c.trk.endFlag d = false := by intro d; rw [hf]; rfl
  simp only [judgeTake, ha, allowedNow]
  simp only [markClipped, onSeg, onEng, hg, Option.map_some, Option.getD_some, Seg.open?, isOpen, hp]
  simp only [Bool.false_eq_true, if_false, Bool.not_true, reduceCtorEq, false_and, ne_eq, not_true_eq_false]
  simp only [begin, aim, toPhase, onSeg, onEng, markClipped, Option.map_some, firstPhase]
  unfold judgeSpeed
  rw [if_neg]
  · simp only [if_true]
    have e : ∀ b : Bool, judgeLocate none ({ c with eng := { c.eng with cur := some ⟨ring, slot, rec, .locate,
        dirOf (l.target - c.trk.position), .approach, est, b, tm, some l⟩ } } : Chip) =
        { c with eng := { c.eng with cur := some ⟨ring, slot, rec, .locate,
        dirOf (l.target - c.trk.position), (if withinTolerance c l then .brake else .approach), est, b, tm, some l⟩ } } := by
      intro b
      rw [judgeLocate_none (l := l) rfl rfl (Or.inl rfl)]
      have hn : ∀ x : Chip, ∀ y, x.eng.ref = c.eng.ref → nearTarget x y l = false := fun x y k => nearTarget_atRest _ _ _ (k.trans hr)
      have hw : ∀ e : Engine, withinTolerance { c with eng := e } l = withinTolerance c l := fun e => decide_eq_decide.mpr Iff.rfl
      simp only [hn, Bool.false_eq_true, and_false, if_false, hw]
    exact ⟨_, congrArg (·, SegOut.goes) (e _)⟩
  · rintro ⟨h1, -⟩
    simp only [fallenToZero, decide_eq_true_eq] at h1
    exact limitTarget_ne h1.2.1 hs h1.2.2

theorem getD_set_slot (r : Ring) (i : Nat) (x : Slot) (h : i < r.slots.length) : (r.slots.set i x).getD i ⟨.host, none⟩ = x := by
  simp [h]

theorem speedLimit_eq {c c' : Chip} (h1 : c.gnt = c'.gnt) (h2 : c.trk = c'.trk) (h3 : c.set = c'.set) (d : Dir) :
    speedLimit c d = speedLimit c' d := by
  obtain ⟨⟩ := c; obtain ⟨⟩ := c'; simp only at h1 h2 h3; subst h1 h2 h3; rfl

theorem followReel_off (d : Drive) (r : Reel) (a b : Nat) (h : (d.reel r).follow = false) : d.followReel r a b = d := by
  simp [Drive.followReel, h]

/-- A start that fails its claim (R53). -/
theorem failStart_eq (o : Bool) (c : Chip) (h : c.mode = .startup) :
    failStart o c = { c with
      drv := (tripOutputs o c).drv
      sup := (c.sup.tripWord .catchFailed .none).entered .tripped c.profile
      eng := Engine.reset
      evt := { c.evt with held := c.evt.held ++ [.event (c.event .trip 6 0 0), .notice .tripped] } } := by
  have hf : ∀ c : Chip, tripOutputs o c = { c with drv := (tripOutputs o c).drv } := by
    intro c; simp only [tripOutputs, tripReels, orderLifters, onDrive, followBoth, emergencyBoth]; cases o <;> rfl
  simp only [failStart]
  rw [hf c]
  simp [idleEngine, onEng, onSup, postNotice, postEvent, postEventAt, h, Chip.event, eventNow, TripCause.code, Side.code, Chip.profile]

/-! ## The stage beside its reels -/

/-- What a reel order leaves of the stage beside the reels. -/
structure StageSame (a b : Drive) : Prop where
  carry : a.carry = b.carry
  timer : a.carryTimer = b.carryTimer
  record : a.carryRec = b.carryRec
  pinch : a.pinch = b.pinch
  spent : a.pinchSpent = b.pinchSpent
  time : a.pinchTime = b.pinchTime
  run : a.capRun = b.capRun
  speed : a.capSpeed = b.capSpeed
  offHeld : a.capOffHeld = b.capOffHeld
  win : a.capWin = b.capWin
  lifters : a.lifters = b.lifters

theorem stageSame_refl (a : Drive) : StageSame a a := ⟨rfl, rfl, rfl, rfl, rfl, rfl, rfl, rfl, rfl, rfl, rfl⟩

theorem StageSame.trans {a b c : Drive} (h : StageSame a b) (k : StageSame b c) : StageSame a c := by
  obtain ⟨⟩ := h; obtain ⟨⟩ := k; constructor <;> simp_all only

theorem stage_order (d : Drive) (r : Reel) (m : DriveMode) (t : Int) (b : Bool) : StageSame (d.order r m t b) d := by
  have h1 : ∀ d : Drive, ∀ o, StageSame (d.withReel r o) d := by intro d o; cases r <;> exact ⟨rfl, rfl, rfl, rfl, rfl, rfl, rfl, rfl, rfl, rfl, rfl⟩
  have h2 : ∀ d : Drive, StageSame d.carryOutOffs d := by intro d; simp only [Drive.carryOutOffs]; split <;> exact ⟨rfl, rfl, rfl, rfl, rfl, rfl, rfl, rfl, rfl, rfl, rfl⟩
  have h3 : ∀ d : Drive, StageSame d.carryOutReleases d := by intro d; simp only [Drive.carryOutReleases]; split <;> exact ⟨rfl, rfl, rfl, rfl, rfl, rfl, rfl, rfl, rfl, rfl, rfl⟩
  have h4 : ∀ d : Drive, StageSame (d.drivePart r m t) d := by
    intro d; simp only [Drive.drivePart]; split
    · exact (h3 _).trans (h1 _ _)
    · exact (h3 _).trans (h1 _ _)
    · split <;> exact h1 _ _
  have h5 : ∀ d : Drive, StageSame (d.brakePart r b) d := by
    intro d; simp only [Drive.brakePart]; split
    · exact (h2 _).trans (h1 _ _)
    · split
      · exact h1 _ _
      · split
        · exact h1 _ _
        · exact ⟨rfl, rfl, rfl, rfl, rfl, rfl, rfl, rfl, rfl, rfl, rfl⟩
  cases b
  · simp only [Drive.order, Bool.false_eq_true, if_false]; exact (h5 _).trans (h4 _)
  · simp only [Drive.order, if_true]; exact (h4 _).trans (h5 _)

theorem stage_followed (d : Drive) (r : Reel) (b : Bool) : StageSame (d.followed r b) d := by cases r <;> exact ⟨rfl, rfl, rfl, rfl, rfl, rfl, rfl, rfl, rfl, rfl, rfl⟩

theorem stage_followReel (d : Drive) (r : Reel) (a b : Nat) : StageSame (d.followReel r a b) d := by
  simp only [Drive.followReel]; split
  · exact (stage_followed _ _ _).trans (stage_order _ _ _ _ _)
  · exact ⟨rfl, rfl, rfl, rfl, rfl, rfl, rfl, rfl, rfl, rfl, rfl⟩

theorem stage_emergency (d : Drive) (r : Reel) (a b : Nat) : StageSame (d.emergency r a b) d := by
  simp only [Drive.emergency]; split <;> exact (stage_followed _ _ _).trans (stage_order _ _ _ _ _)

theorem stage_tripReels (o : Bool) (c : Chip) : StageSame (tripReels o c).drv c.drv := by
  simp only [tripReels]; split
  · exact (stage_followReel _ _ _ _).trans (stage_followReel _ _ _ _)
  · exact (stage_emergency _ _ _ _).trans (stage_emergency _ _ _ _)

/-- The stage after the outputs of a trip, beside the reels. -/
theorem tripOutputs_drv (o : Bool) (c : Chip) : (tripOutputs o c).drv.carry = c.drv.carry ∧ (tripOutputs o c).drv.capRun = false ∧
    ((tripOutputs o c).drv.pinch = .out ∨ (tripOutputs o c).drv.pinch = .goingOut) ∧ (tripOutputs o c).drv.lifters = .up ∧
    (tripOutputs o c).drv.sup = (tripReels o c).drv.sup ∧ (tripOutputs o c).drv.tup = (tripReels o c).drv.tup ∧
    (tripOutputs o c).drv.carryTimer = c.drv.carryTimer := by
  obtain ⟨h1, h2, -⟩ := stage_tripReels o c
  simp only [tripOutputs, orderLifters, onDrive, Drive.release, Drive.capstanStop, Drive.pinchAway]
  cases (tripReels o c).drv.pinch <;> simp [h1, h2]

/-- A reel not in TORQUE keeps its output at the end of a command. -/
theorem done_reels (c : Chip) (h1 : c.drv.sup.mode ≠ .torque) (h2 : c.drv.tup.mode ≠ .torque) :
    (done c).drv.sup = c.drv.sup ∧ (done c).drv.tup = c.drv.tup := by
  have ha : ∀ c : Chip, (arbitrate c).drv = c.drv := by
    intro c; simp only [arbitrate]; split
    · rfl
    · split <;> rfl
  simp only [done, ha, tail]; split
  · obtain ⟨p, hp⟩ := askLifters_drv (markClipped c)
    rw [hp]
    have : ∀ c : Chip, (retarget c).drv = c.drv := by intro c; simp only [retarget]; split <;> (try split) <;> rfl
    simp only [formTorques]; split <;> simp [onDrive, this, ReelOut.torqued, markClipped, onSeg, onEng, h1, h2]
  · simp

/-- A tension reference at rest at 0 stays. -/
theorem retarget_idle (c : Chip) (h : c.sup.tension = .zero) (g : tensionGoal c = some 0) : (retarget c) = c := by
  simp only [retarget, g, h, Ramp.zero, if_true]

theorem done_zero (c : Chip) (h : c.sup.tension = .zero) (ht : c.sup.ts = .tripped ∨ c.sup.ts = .threaded ∨ c.sup.ts = .unthreaded) :
    (done c).sup = c.sup := by
  have ha : ∀ c : Chip, (arbitrate c).sup = c.sup := by
    intro c; simp only [arbitrate]; split
    · rfl
    · split <;> rfl
  simp only [done, ha, tail]; split
  · obtain ⟨p, hp⟩ := askLifters_drv (markClipped c)
    rw [hp, retarget_idle]
    · simp only [formTorques]; split <;> rfl
    · exact h
    · rcases ht with k | k | k <;> simp [tensionGoal, markClipped, onSeg, onEng, k]
  · rfl

/-- The end of a command leaves the supervisor where the tension reference aims as it should. -/
theorem done_sup (c : Chip) (h : ∀ g, tensionGoal c = some g → c.sup.tension.goal = g) : (done c).sup = c.sup := by
  have ha : ∀ c : Chip, (arbitrate c).sup = c.sup := by
    intro c; simp only [arbitrate]; split
    · rfl
    · split <;> rfl
  simp only [done, ha, tail]; split
  · obtain ⟨p, hp⟩ := askLifters_drv (markClipped c)
    rw [hp]
    have hg : tensionGoal ({ markClipped c with drv := { (markClipped c).drv with lifters := p } } : Chip) = tensionGoal c := by
      have : Chip.windCurrent ({ markClipped c with drv := { (markClipped c).drv with lifters := p } } : Chip) = Chip.windCurrent c := by
        simp only [Chip.windCurrent, markClipped, onSeg, onEng]; cases c.eng.cur <;> rfl
      simp only [tensionGoal, this]; rfl
    have hr : retarget ({ markClipped c with drv := { (markClipped c).drv with lifters := p } } : Chip) = { markClipped c with drv := { (markClipped c).drv with lifters := p } } := by
      simp only [retarget, hg]
      split
      · rename_i g hg'
        exact if_pos (h g hg')
      · rfl
    rw [hr]
    simp only [formTorques]; split <;> rfl
  · rfl

set_option maxHeartbeats 4000000 in
/-- Both reels in TORQUE, brakes released. -/
theorem orderBoth_released (d : Drive) : (d.orderBoth .torque 0 false).sup.mode = .torque ∧ (d.orderBoth .torque 0 false).tup.mode = .torque ∧
    (d.orderBoth .torque 0 false).sup.engaged = false ∧ (d.orderBoth .torque 0 false).tup.engaged = false := by
  obtain ⟨⟨m1, t1, e1, r1, o1, f1⟩, ⟨m2, t2, e2, r2, o2, f2⟩, _⟩ := d
  cases m1 <;> cases m2 <;> cases e1 <;> cases e2 <;> cases r1 <;> cases r2 <;> exact ⟨rfl, rfl, rfl, rfl⟩

theorem stage_orderBoth (d : Drive) (m : DriveMode) (t : Int) (b : Bool) : StageSame (d.orderBoth m t b) d :=
  (stage_order _ _ _ _ _).trans (stage_order _ _ _ _ _)

/-- In TRIPPED the lifters are not asked. -/
theorem done_lifters (c : Chip) (h : c.sup.ts = .tripped) : (done c).drv.lifters = c.drv.lifters := by
  have ha : ∀ c : Chip, (arbitrate c).drv = c.drv := by
    intro c; simp only [arbitrate]; split
    · rfl
    · split <;> rfl
  have hl : askLifters (markClipped c) = markClipped c := by
    have : (markClipped c).sup.ts = .tripped := h
    simp only [askLifters, lifterOrder, this]
  have : ∀ c : Chip, (retarget c).drv = c.drv := by intro c; simp only [retarget]; split <;> (try split) <;> rfl
  simp only [done, ha, tail, hl]; split
  · simp only [formTorques]; split <;> simp [onDrive, this, markClipped, onSeg, onEng]
  · simp

end Sys2Proof.Laws
end

