-- ==== Sys2Proof/Laws/Memory.lean ====
section
/-! SUPPORT. What the memory operations can do: the canonical form is kept, the byte written reads back, every other byte
reads as before. -/

namespace Sys2Proof.Laws

open Sys2Proof.Machine

/-- A lower bound of a listing lies below an address. -/
def Below (lo : Option Nat) (a : Nat) : Prop := ∀ l, lo = some l → l < a

theorem risesFrom_cons {lo : Option Nat} {k : Nat} {b : Byte} {rest : Memory} :
    Memory.risesFrom lo ((k, b) :: rest) = true ↔
      Below lo k ∧ b ≠ Memory.unlisted ∧ Memory.risesFrom (some k) rest = true := by
  cases lo <;> simp [Memory.risesFrom, Below, and_assoc]

theorem risesFrom_weaken {lo : Option Nat} {k : Nat} {m : Memory} (h : Memory.risesFrom (some k) m = true)
    (hk : Below lo k) : Memory.risesFrom lo m = true := by
  cases m with
  | nil => cases lo <;> rfl
  | cons c rest =>
    obtain ⟨a, b⟩ := c
    rw [risesFrom_cons] at h ⊢
    exact ⟨fun l hl => lt_trans (hk l hl) (h.1 k rfl), h.2⟩

theorem risesFrom_writeByte {m : Memory} : ∀ {lo : Option Nat} {a : Nat} {v : Byte},
    Memory.risesFrom lo m = true → Below lo a → Memory.risesFrom lo (m.writeByte a v) = true := by
  induction m with
  | nil =>
    intro lo a v _ ha
    by_cases hv : v = Memory.unlisted
    · simp [Memory.writeByte, hv, Memory.risesFrom]
    · simp only [Memory.writeByte, hv, if_false]
      exact risesFrom_cons.2 ⟨ha, hv, rfl⟩
  | cons c rest ih =>
    obtain ⟨k, b⟩ := c
    intro lo a v h ha
    have h' := risesFrom_cons.1 h
    simp only [Memory.writeByte]
    split_ifs with h1 h2 h3 h4
    · exact h
    · exact risesFrom_cons.2 ⟨ha, h2, risesFrom_cons.2 ⟨fun l hl => by cases hl; exact h1, h'.2⟩⟩
    · exact risesFrom_weaken h'.2.2 h'.1
    · exact risesFrom_cons.2 ⟨ha, h4, by rw [h3]; exact h'.2.2⟩
    · exact risesFrom_cons.2 ⟨h'.1, h'.2.1, ih h'.2.2 fun l hl => by cases hl; omega⟩

/-- One byte written keeps the canonical form. -/
theorem wf_writeByte {m : Memory} (h : m.wf = true) (a : Nat) (v : Byte) : (m.writeByte a v).wf = true :=
  risesFrom_writeByte h fun _ hl => by cases hl

theorem wf_writeIf {m : Memory} (h : m.wf = true) (en : Bool) (a : Nat) (v : Byte) : (m.writeIf en a v).wf = true := by
  cases en
  · exact h
  · exact wf_writeByte h a v

/-- A word written keeps the canonical form. -/
theorem wf_writeWord {m : Memory} (h : m.wf = true) (a : Nat) (d : Word) (be : Enables) :
    (m.writeWord a d be).wf = true :=
  wf_writeIf (wf_writeIf (wf_writeIf (wf_writeIf h _ _ _) _ _ _) _ _ _) _ _ _

/-- A completed cycle keeps the canonical form. -/
theorem wf_cycleWrites {m : Memory} (h : m.wf = true) (cy : Cycle) : (cycleWrites cy m).wf = true := by
  cases cy with
  | host a w d b y => cases w <;> first | exact h | exact wf_writeWord h _ _ _
  | part a w => exact wf_writeWord h _ _ _
  | orphanWrite a d b => exact wf_writeWord h _ _ _
  | handRead a k => exact h
  | mailRead a => exact h
  | sweepRead a n => exact h
  | orphanRead => exact h

/-- A cycle ended at the limit keeps the canonical form. -/
theorem wf_cycleLost {m : Memory} (h : m.wf = true) (cy : Cycle) (f : Nat) : (cycleLost cy f m).wf = true := by
  cases cy with
  | host a w d b y => cases w <;> first | exact h | exact wf_writeWord h _ _ _
  | part a w => exact h
  | orphanWrite a d b => exact h
  | handRead a k => exact h
  | mailRead a => exact h
  | sweepRead a n => exact h
  | orphanRead => exact h

theorem read_above {m : Memory} : ∀ {k a : Nat}, Memory.risesFrom (some k) m = true → a ≤ k →
    m.read a = Memory.unlisted := by
  induction m with
  | nil => intros; rfl
  | cons c rest ih =>
    obtain ⟨k', b⟩ := c
    intro k a h ha
    have h' := risesFrom_cons.1 h
    have hk := h'.1 k rfl
    simp only [Memory.read]
    rw [if_neg (by omega)]
    exact ih h'.2.2 (by omega)

theorem read_writeByte_from {m : Memory} : ∀ {lo : Option Nat} {a x : Nat} {v : Byte},
    Memory.risesFrom lo m = true → (m.writeByte a v).read x = if x = a then v else m.read x := by
  induction m with
  | nil =>
    intro lo a x v _
    by_cases hv : v = Memory.unlisted <;> by_cases hx : x = a <;> simp [Memory.writeByte, Memory.read, hv, hx]
  | cons c rest ih =>
    obtain ⟨k, b⟩ := c
    intro lo a x v h
    have h' := risesFrom_cons.1 h
    simp only [Memory.writeByte]
    have hk : ∀ y, y ≤ k → Memory.read rest y = Memory.unlisted := fun y hy => read_above h'.2.2 hy
    have hr := ih (a := a) (x := x) (v := v) h'.2.2
    by_cases hx : x = a
    · subst hx
      rw [if_pos rfl] at hr ⊢
      split_ifs with h1 h2 h3 h4
      · rw [Memory.read, if_neg (by omega), hk x (by omega), h2]
      · rw [Memory.read, if_pos rfl]
      · rw [hk x (by omega), h4]
      · rw [Memory.read, if_pos rfl]
      · rw [Memory.read, if_neg (by omega), hr]
    · rw [if_neg hx] at hr ⊢
      split_ifs with h1 h2 h3 h4
      · rfl
      · rw [Memory.read, if_neg hx]
      · rw [Memory.read, if_neg (by omega)]
      · rw [Memory.read, if_neg hx, Memory.read, if_neg (by omega)]
      · rw [Memory.read, Memory.read, hr]

/-- The byte written reads back. -/
theorem read_writeByte_same {m : Memory} (h : m.wf = true) (a : Nat) (v : Byte) : (m.writeByte a v).read a = v := by
  rw [read_writeByte_from h, if_pos rfl]

/-- Every other byte reads as before. -/
theorem read_writeByte_other {m : Memory} (h : m.wf = true) {a x : Nat} (v : Byte) (hx : x ≠ a) :
    (m.writeByte a v).read x = m.read x := by
  rw [read_writeByte_from h, if_neg hx]

theorem read_writeIf {m : Memory} (h : m.wf = true) (en : Bool) (a x : Nat) (v : Byte) :
    (m.writeIf en a v).read x = if en = true ∧ x = a then v else m.read x := by
  cases en
  · simp [Memory.writeIf]
  · simp only [Memory.writeIf, if_true, true_and]; exact read_writeByte_from h

/-- A word written leaves every byte outside the word as it was. -/
theorem read_writeWord_other {m : Memory} (h : m.wf = true) {a x : Nat} (d : Word) (be : Enables)
    (hx : x < a ∨ a + 4 ≤ x) : (m.writeWord a d be).read x = m.read x := by
  have h0 := wf_writeIf h (be.getLsbD 0) a (byteOf d 0)
  have h1 := wf_writeIf h0 (be.getLsbD 1) (a + 1) (byteOf d 1)
  have h2 := wf_writeIf h1 (be.getLsbD 2) (a + 2) (byteOf d 2)
  rw [Memory.writeWord, read_writeIf h2, read_writeIf h1, read_writeIf h0, read_writeIf h]
  rw [if_neg (by omega), if_neg (by omega), if_neg (by omega), if_neg (by omega)]

end Sys2Proof.Laws
end

