-- ==== Sys2Proof/Laws/Settings.lean ====
section
/-! SUPPORT. The settings' bytes: what a write leaves of one field, where each record's bytes stand in the image of 12.4,
and that records in their ranges come back from their bytes. -/

namespace Sys2Proof.Laws

open Sys2Proof.Machine

/-- What a write leaves of one field (R174): with a byte enabled inside it, the clamped value of its bytes, the written ones
new and the others as they were; else the field as it was. -/
theorem fieldWrite_eq {α : Type} (f : Machine.Field α) (p : Nat) (data : Word) (be : Enables) (x : α)
    (h : f.raw x (f.get x) = x) :
    f.write p data be x = f.raw x (if (List.range f.size).any (fun i => enablesByte p be (f.pos + i)) then
      f.clamp x (natOfBytes ((List.range f.size).map fun i =>
        if enablesByte p be (f.pos + i) then byteOf data (f.pos + i - p) else f.byte x i)) else f.get x) := by
  unfold Machine.Field.write Machine.Field.put
  split
  · rfl
  · exact h.symm

/-- The tension ceilings by width (R74), as a chain of cases. -/
theorem widthCeiling_eq (w : Nat) : widthCeiling w =
    if w = 0 then 250 else if w = 1 then 400 else if w = 2 then 600 else 800 := by
  unfold widthCeiling
  match w with
  | 0 => rfl
  | 1 => rfl
  | 2 => rfl
  | n + 3 => rw [if_neg (by omega), if_neg (by omega), if_neg (by omega)]; rfl

/-- The general settings take 64 bytes (12.4). -/
theorem generalBytes_length (g : General) : (generalBytes g).length = 64 := by simp [generalBytes]
/-- A profile entry takes 48 bytes (12.4). -/
theorem profileBytes_length (x : Profile) : (profileBytes x).length = 48 := by simp [profileBytes]

/-- The entries of a list of profiles take 48 bytes each. -/
theorem entryBytes_length (ps : List Profile) : (ps.flatMap profileBytes).length = 48 * ps.length := by
  induction ps with
  | nil => rfl
  | cons p ps ih => simp [ih, profileBytes_length]; omega

/-- Byte i of entry n in the entries' bytes. -/
theorem entryBytes_at (ps : List Profile) : ∀ (n i : Nat) (x : Profile), ps[n]? = some x → i < 48 →
    (ps.flatMap profileBytes)[48 * n + i]? = (profileBytes x)[i]? := by
  induction ps with
  | nil => intro n i x h; simp at h
  | cons p ps ih =>
    intro n i x h hi
    rw [List.flatMap_cons]
    cases n with
    | zero =>
      rw [List.getElem?_append_left (by rw [profileBytes_length]; omega)]
      simp at h; subst h; simp
    | succ n =>
      rw [List.getElem?_append_right (by rw [profileBytes_length]; omega), profileBytes_length]
      rw [show 48 * (n + 1) + i - 48 = 48 * n + i by omega]
      exact ih n i x (by simpa using h) hi

/-- An image with eight profiles has 511 bytes before its CRC (12.4). -/
theorem body_length (s : Store) (h : s.profs.length = 8) : s.body.length = 511 := by
  simp [Store.body, generalBytes_length, -List.length_flatMap, entryBytes_length, h]

/-- The image's first 64 bytes are the general settings'. -/
theorem image_general (s : Store) (q : Nat) (hq : q < 64) : s.image[q]? = (generalBytes s.gen)[q]? := by
  unfold Store.image Store.body
  rw [List.append_assoc, List.append_assoc, List.getElem?_append_left (by rw [generalBytes_length]; exact hq)]

/-- Byte i of profile n's entry stands at 64 + 48 n + i of the image (12.4). -/
theorem image_profile (s : Store) (h : s.profs.length = 8) (n i : Nat) (x : Profile)
    (hx : s.profs[n]? = some x) (hi : i < 48) :
    s.image[64 + 48 * n + i]? = (profileBytes x)[i]? := by
  have hn : n < 8 := by rw [← h]; exact (List.getElem?_eq_some_iff.mp hx).1
  unfold Store.image Store.body
  rw [List.append_assoc, List.append_assoc, List.getElem?_append_right (by rw [generalBytes_length]; omega),
    generalBytes_length,
    List.getElem?_append_left (by rw [entryBytes_length]; omega), ← entryBytes_at s.profs n i x hx hi]
  congr 1; omega

/-- Bytes 448 to 510 of the image are 0 (12.4). -/
theorem image_padding (s : Store) (h : s.profs.length = 8) (q : Nat) (h1 : 448 ≤ q) (h2 : q < 511) :
    s.image[q]? = some 0 := by
  unfold Store.image Store.body
  rw [List.append_assoc, List.append_assoc, List.getElem?_append_right (by rw [generalBytes_length]; omega),
    generalBytes_length,
    List.getElem?_append_right (by rw [entryBytes_length]; omega), entryBytes_length,
    List.getElem?_append_left (by simp; omega)]
  rw [List.getElem?_replicate, if_pos (by omega)]

/-- A byte of a profile entry is the byte of the field that lies there. -/
theorem profileBytes_at (x : Profile) (i : Nat) (h : i < 48) :
    (profileBytes x)[i]? = some (fieldByte profileFields x i) := by
  simp [profileBytes, h]
/-- A byte of the general settings is the byte of the field that lies there. -/
theorem generalBytes_at (x : General) (i : Nat) (h : i < 64) :
    (generalBytes x)[i]? = some (fieldByte generalFields x i) := by
  simp [generalBytes, h]

/-- The little-endian digits of a number, read back. -/
theorem natOfBytes_digits (n : Nat) :
    ∀ v, natOfBytes ((List.range n).map fun i => BitVec.ofNat 8 (v / 256 ^ i)) = v % 256 ^ n := by
  induction n with
  | zero => intro v; simp [natOfBytes, Nat.mod_one]
  | succ n ih =>
    intro v
    rw [List.range_succ_eq_map, List.map_cons, List.map_map, natOfBytes]
    have : ((fun i => BitVec.ofNat 8 (v / 256 ^ i)) ∘ Nat.succ) = fun i => BitVec.ofNat 8 (v / 256 / 256 ^ i) := by
      funext i; simp only [Function.comp, Nat.succ_eq_add_one, Nat.pow_succ', Nat.div_div_eq_div_mul]
    rw [this, ih]
    simp only [Nat.pow_zero, Nat.div_one, BitVec.toNat_ofNat]
    have e := Nat.mod_mul (x := v) (a := 256) (b := 256 ^ n)
    rw [show 256 ^ (n + 1) = 256 * 256 ^ n from Nat.pow_succ', e]

/-- A field's bytes where they stand in a longer list, read back. -/
theorem natOfBytes_field {bs : List Byte} {p n v : Nat}
    (h : ∀ i, i < n → bs[p + i]? = some (BitVec.ofNat 8 (v / 256 ^ i))) (hv : v < 256 ^ n) :
    natOfBytes ((bs.drop p).take n) = v := by
  have e : (bs.drop p).take n = (List.range n).map fun i => BitVec.ofNat 8 (v / 256 ^ i) := by
    apply List.ext_getElem?
    intro i
    by_cases hi : i < n
    · rw [List.getElem?_take, if_pos hi, List.getElem?_drop, h i hi]; simp [hi]
    · rw [List.getElem?_take, if_neg hi]; simp [hi]
  rw [e, natOfBytes_digits, Nat.mod_eq_of_lt hv]

set_option maxRecDepth 20000 in
/-- General settings in their ranges, written out as bytes and loaded, are the same: no clamp of R172 moves them. -/
theorem loadFields_general (g x : General) (h :
       100 ≤ g.settle ∧ g.settle ≤ 3000 ∧ g.offDelay ≤ 1500 ∧ 40 ≤ g.pinchTime ∧ g.pinchTime ≤ 400 ∧
       5 ≤ g.breakTime ∧ g.breakTime ≤ 100 ∧ 50 ≤ g.excursion ∧ g.excursion ≤ 2000 ∧ g.starve ≤ 2000 ∧
       (g.period = 0 ∨ g.period = 50 ∨ g.period = 150 ∨ g.period = 400 ∨ g.period = 1200) ∧ g.catchLimit ≤ 120000 ∧
       g.brakeSafe ≤ 10000) : loadFields generalFields (generalBytes g) x = g := by
  have rd (p n v : Nat) (hl : p + n ≤ 64)
      (h : ∀ i, i < n → fieldByte generalFields g (p + i) = BitVec.ofNat 8 (v / 256 ^ i)) (hv : v < 256 ^ n) :
      natOfBytes (((generalBytes g).drop p).take n) = v :=
    natOfBytes_field (fun i hi => by rw [generalBytes_at _ _ (by omega), h i hi]) hv
  have b0 := rd 0 2 g.settle (by omega) (by intro i hi; interval_cases i <;> rfl) (by omega)
  have b2 := rd 2 2 g.offDelay (by omega) (by intro i hi; interval_cases i <;> rfl) (by omega)
  have b4 := rd 4 2 g.pinchTime (by omega) (by intro i hi; interval_cases i <;> rfl) (by omega)
  have b6 := rd 6 2 g.breakTime (by omega) (by intro i hi; interval_cases i <;> rfl) (by omega)
  have b8 := rd 8 2 g.excursion (by omega) (by intro i hi; interval_cases i <;> rfl) (by omega)
  have b10 := rd 10 2 g.starve (by omega) (by intro i hi; interval_cases i <;> rfl) (by omega)
  have b12 := rd 12 2 g.period (by omega) (by intro i hi; interval_cases i <;> rfl) (by omega)
  have b14 := rd 14 1 g.stopMode.toNat (by omega) (by intro i hi; interval_cases i <;> rfl) (by cases g.stopMode <;> decide)
  have b16 := rd 16 4 g.catchLimit (by omega) (by intro i hi; interval_cases i <;> rfl) (by omega)
  have b20 := rd 20 2 g.brakeSafe (by omega) (by intro i hi; interval_cases i <;> rfl) (by omega)
  have b24 := rd 24 2 g.defaultMask.toNat (by omega) (by intro i hi; interval_cases i <;> rfl) (by omega)
  have hs : (g.stopMode.toNat != 0) = g.stopMode := by cases g.stopMode <;> rfl
  have e : generalFields.foldl (fun x f => f.raw x (natOfBytes (((generalBytes g).drop f.pos).take f.size))) x = g := by
    simp only [generalFields, ranged, unclamped, List.foldl, b0, b2, b4, b6, b8, b10, b12, b14, b16, b20, b24, hs,
      BitVec.ofNat_toNat, BitVec.setWidth_eq]
  unfold loadFields
  dsimp only
  rw [e]
  have cl (lo hi v : Nat) (h1 : lo ≤ v) (h2 : v ≤ hi) : clampNat lo hi v = v := by unfold clampNat; omega
  obtain ⟨k1, k2, k3, k4, k5, k6, k7, k8, k9, k10, k11, k12, k13⟩ := h
  have hp : clampPeriod g.period = g.period := by unfold clampPeriod; rw [if_pos k11]
  simp only [generalFields, ranged, unclamped, List.foldl, Machine.Field.put]
  rw [cl _ _ _ k1 k2, cl _ _ _ (Nat.zero_le _) k3,
    cl _ _ _ k4 k5, cl _ _ _ k6 k7, cl _ _ _ k8 k9, cl _ _ _ (Nat.zero_le _) k10,
    hp, cl _ _ _ (Nat.zero_le _) k12, cl _ _ _ (Nat.zero_le _) k13, hs]
  simp

set_option maxRecDepth 20000 in
/-- A profile in its ranges, written out as bytes and loaded, is the same: no clamp of R74 moves it. -/
theorem loadFields_profile (g x : Profile) (h :
       g.width ≤ 3 ∧ g.park ≤ g.maxTension ∧ g.nominal ≤ g.maxTension ∧ g.wind ≤ g.maxTension ∧
       g.maxTension ≤ widthCeiling g.width ∧ g.slack < g.low ∧ g.low < g.high ∧ g.high < g.overLevel ∧ g.overLevel ≤ 4095 ∧
       200 ≤ g.hub ∧ g.hub < g.full ∧ g.full ≤ 2000 ∧ g.hub + g.nearMargin ≤ g.full ∧ g.nearSpeed ≤ g.maxSpeed ∧
       g.maxSpeed ≤ 120000 ∧ g.lifterSpeed ≤ 120000 ∧ 100 ≤ g.maxAccel ∧ g.maxAccel ≤ 30000 ∧ 10 ≤ g.creepSpeed ∧
       g.creepSpeed ≤ 10000 ∧ g.creepDistance ≤ 32000) : loadFields profileFields (profileBytes g) x = g := by
  have rd (p n v : Nat) (hl : p + n ≤ 48)
      (h : ∀ i, i < n → fieldByte profileFields g (p + i) = BitVec.ofNat 8 (v / 256 ^ i)) (hv : v < 256 ^ n) :
      natOfBytes (((profileBytes g).drop p).take n) = v :=
    natOfBytes_field (fun i hi => by rw [profileBytes_at _ _ (by omega), h i hi]) hv
  obtain ⟨k1, k2, k3, k4, k5, k6, k7, k8, k9, k10, k11, k12, k13, k14, k15, k16, k17, k18, k19, k20, k21⟩ := h
  have hc : widthCeiling g.width ≤ 800 := by unfold widthCeiling; split <;> omega
  have b0 := rd 0 8 g.label.toNat (by omega) (by intro i hi; interval_cases i <;> rfl) (by omega)
  have b8 := rd 8 1 g.valid.toNat (by omega) (by intro i hi; interval_cases i <;> rfl) (by cases g.valid <;> decide)
  have b9 := rd 9 1 g.width (by omega) (by intro i hi; interval_cases i <;> rfl) (by omega)
  have b10 := rd 10 2 g.park (by omega) (by intro i hi; interval_cases i <;> rfl) (by omega)
  have b12 := rd 12 2 g.nominal (by omega) (by intro i hi; interval_cases i <;> rfl) (by omega)
  have b14 := rd 14 2 g.wind (by omega) (by intro i hi; interval_cases i <;> rfl) (by omega)
  have b16 := rd 16 2 g.maxTension (by omega) (by intro i hi; interval_cases i <;> rfl) (by omega)
  have b18 := rd 18 2 g.slack (by omega) (by intro i hi; interval_cases i <;> rfl) (by omega)
  have b20 := rd 20 2 g.low (by omega) (by intro i hi; interval_cases i <;> rfl) (by omega)
  have b22 := rd 22 2 g.high (by omega) (by intro i hi; interval_cases i <;> rfl) (by omega)
  have b24 := rd 24 2 g.overLevel (by omega) (by intro i hi; interval_cases i <;> rfl) (by omega)
  have b26 := rd 26 2 g.hub (by omega) (by intro i hi; interval_cases i <;> rfl) (by omega)
  have b28 := rd 28 2 g.full (by omega) (by intro i hi; interval_cases i <;> rfl) (by omega)
  have b30 := rd 30 2 g.nearMargin (by omega) (by intro i hi; interval_cases i <;> rfl) (by omega)
  have b32 := rd 32 3 g.nearSpeed (by omega) (by intro i hi; interval_cases i <;> rfl) (by omega)
  have b35 := rd 35 3 g.maxSpeed (by omega) (by intro i hi; interval_cases i <;> rfl) (by omega)
  have b38 := rd 38 3 g.lifterSpeed (by omega) (by intro i hi; interval_cases i <;> rfl) (by omega)
  have b42 := rd 42 2 g.maxAccel (by omega) (by intro i hi; interval_cases i <;> rfl) (by omega)
  have b44 := rd 44 2 g.creepSpeed (by omega) (by intro i hi; interval_cases i <;> rfl) (by omega)
  have b46 := rd 46 2 g.creepDistance (by omega) (by intro i hi; interval_cases i <;> rfl) (by omega)
  have hs : (g.valid.toNat != 0) = g.valid := by cases g.valid <;> rfl
  have e : profileFields.foldl (fun x f => f.raw x (natOfBytes (((profileBytes g).drop f.pos).take f.size))) x = g := by
    simp only [profileFields, ranged, unclamped, List.foldl, b0, b8, b9, b10, b12, b14, b16, b18, b20, b22, b24, b26, b28,
      b30, b32, b35, b38, b42, b44, b46, hs, BitVec.ofNat_toNat, BitVec.setWidth_eq]
  unfold loadFields
  dsimp only
  rw [e]
  have cl (lo hi v : Nat) (h1 : lo ≤ v) (h2 : v ≤ hi) : clampNat lo hi v = v := by unfold clampNat; omega
  have cv (lo hi old v : Nat) (h1 : lo ≤ v) (h2 : v ≤ hi) : clampLevel lo hi old v = v := by
    unfold clampLevel; rw [if_pos (by omega)]; exact cl _ _ _ h1 h2
  have stay : ∀ f ∈ profileFields, f.put g (f.get g) = g := by
    intro f hf
    simp only [profileFields, List.mem_cons, List.not_mem_nil, or_false] at hf
    rcases hf with rfl | rfl | rfl | rfl | rfl | rfl | rfl | rfl | rfl | rfl
      | rfl | rfl | rfl | rfl | rfl | rfl | rfl | rfl | rfl | rfl
    all_goals simp only [Machine.Field.put, ranged, unclamped, clampWidth]
    · simp
    · rw [hs]
    · rw [Nat.min_eq_left k1, if_neg (by omega)]
    · rw [Nat.min_eq_left k2]
    · rw [Nat.min_eq_left k3]
    · rw [Nat.min_eq_left k4]
    · rw [cl _ _ _ (by omega) k5]
    · rw [if_neg (by omega), cv _ _ _ _ (by omega) (by omega)]
    · rw [cv _ _ _ _ (by omega) (by omega)]
    · rw [cv _ _ _ _ (by omega) (by omega)]
    · rw [cv _ _ _ _ (by omega) (by omega)]
    · rw [cl _ _ _ (by omega) (by omega)]
    · rw [cl _ _ _ (by omega) (by omega)]
    · rw [Nat.min_eq_left (by omega)]
    · rw [Nat.min_eq_left (by omega)]
    · rw [cl _ _ _ (by omega) (by omega)]
    · rw [cl _ _ _ (by omega) (by omega)]
    · rw [cl _ _ _ (by omega) (by omega)]
    · rw [cl _ _ _ (by omega) (by omega)]
    · rw [cl _ _ _ (by omega) (by omega)]
  revert stay
  generalize profileFields = fs
  intro stay
  induction fs with
  | nil => rfl
  | cons f fs ih =>
    rw [List.foldl_cons, stay f (List.mem_cons_self ..)]
    exact ih fun f hf => stay f (List.mem_cons_of_mem _ hf)

end Sys2Proof.Laws
end

