-- ==== Sys2Proof/Laws/Takes.lean ====
section
/-! SUPPORT. What takes, completions, the judgement at rest and the resolution of a pending request come to where a
statement meets them: each lemma says once what an operation leaves or makes. -/

namespace Sys2Proof.Laws

open Sys2Proof Sys2Proof.Machine

/-- What freeing slots makes of a ring: those slots HOST and empty, every other slot and the indices as they stood. -/
theorem ring_free (is : List Nat) (r : Ring) : (r.free is).take = r.take ∧ (r.free is).intake = r.intake ∧
    (r.free is).queued = r.queued ∧ (r.free is).slots.length = r.slots.length ∧
    (∀ i ∈ is, ((r.free is).slot i).view = .host) ∧ (∀ i, i ∉ is → (r.free is).slot i = r.slot i) := by
  have key : ∀ (is : List Nat) (r : Ring), (r.free is).take = r.take ∧ (r.free is).intake = r.intake ∧
      (r.free is).queued = r.queued ∧ (r.free is).slots.length = r.slots.length ∧
      (∀ i, (r.free is).slot i = if i ∈ is then ⟨.host, none⟩ else r.slot i) := by
    intro is; induction is with
    | nil => intro r; simp [Ring.free]
    | cons j is ih =>
      intro r
      obtain ⟨h1, h2, h3, h4, h5⟩ := ih (r.withSlot j ⟨.host, none⟩)
      have e : r.free (j :: is) = (r.withSlot j ⟨.host, none⟩).free is := rfl
      rw [e]
      refine ⟨h1, h2, h3, by rw [h4]; simp [Ring.withSlot], fun i => ?_⟩
      rw [h5]
      simp only [List.mem_cons]
      by_cases hi : i ∈ is
      · simp [hi]
      · simp only [hi, if_false, or_false, Ring.slot, Ring.withSlot, List.getD_eq_getElem?_getD, List.getElem?_set]
        by_cases hj : j = i
        · subst hj; simp only [if_true]; split <;> rfl
        · rw [if_neg hj, if_neg (fun h => hj h.symm)]
  obtain ⟨h1, h2, h3, h4, h5⟩ := key is r
  exact ⟨h1, h2, h3, h4, fun i hi => by rw [h5, if_pos hi], fun i hi => by rw [h5, if_neg hi]⟩

/-- A HOST slot stays HOST across a flush. -/
theorem flushed_host (r : Ring) (i : Nat) (h : (r.slot i).view = .host) : (r.flushed.slot i).view = .host := by
  obtain ⟨h1, h2, h3, h4, h5, h6⟩ := ring_free r.queuedSlots r
  by_cases hi : i ∈ r.queuedSlots
  · exact h5 i hi
  · show ((r.free r.queuedSlots).slot i).view = _
    rw [h6 i hi, h]

/-- The trim stays where it is 0. -/
theorem setGrant_zero (a : Option Granted) (f : List Granted) (c : Chip) (h : c.gnt.trim = 0) :
    setGrant a f c = { c with gnt := { c.gnt with active := a, fallback := f } } := by
  simp only [setGrant, reclampTrim, onGnt, h, clampInt]
  split
  · rfl
  · rename_i hh; exfalso; apply hh; omega

/-- A pending request resolved in a running part with no trim (R81). -/
theorem resolvePending_running (chs : List Choice) (c : Chip) (hm : c.mode = .running) (hr : c.gnt.request = some chs) (h0 : c.gnt.trim = 0) :
    resolvePending c = (match passedChoices c chs with
      | g :: rest => { c with gnt := { c.gnt with request := none, active := some g, fallback := rest } }
      | [] => { c with gnt := { c.gnt with request := none } } : Chip).posting
        [c.event .grantResolved (match passedChoices c chs with | _ :: _ => 9 | [] => 2) 0
          ((outcomesByte (chs.map (checkChoice c))).toNat + 256 * (match passedChoices c chs with | g :: _ => g.position | [] => 0) : Nat)]
        [.grantChanged] := by
  have hk : ∀ c' : Chip, c'.set = c.set → c'.gnt.threaded = c.gnt.threaded → passedChoices c' chs = passedChoices c chs := by
    intro c' h1 h2
    have : ∀ ch, checkChoice c' ch = checkChoice c ch := by intro ch; simp only [checkChoice, h1, h2]
    simp only [passedChoices, this, recordChoice, h1]
  simp only [resolvePending, hr, evaluateRequest]
  have hp := hk
  cases hq : passedChoices c chs with
  | nil =>
    simp only
    rw [hk]
    · rw [hq]
      simp only
      rw [postNotice_running (by simp [hm]), postEvent_running (by simp [hm])]
      simp [Chip.posting, onGnt, Chip.event, requestOutcomes, Result.code]
    · simp
    · simp [onGnt]
  | cons g rest =>
    simp only
    rw [hk]
    · rw [hq]
      simp only
      rw [postNotice_running (by simp [hm]), postEvent_running (by simp [hm])]
      rw [setGrant_zero _ _ _ (by simp [onGnt, h0])]
      simp [Chip.posting, onGnt, Chip.event, requestOutcomes, Result.code]
    · simp
    · simp [onGnt]

/-- The rings and the slot write list after the current segment has ended. -/
theorem endCur_rings (st : Status) (c : Chip) (g : Seg) (hc : c.eng.cur = some g) :
    (endCur st c).pln.ring g.ring = (c.pln.ring g.ring).withSlot g.slot ⟨.host, none⟩ ∧
    (∀ o, o ≠ g.ring → (endCur st c).pln.ring o = c.pln.ring o) ∧
    (endCur st c).pln.list = c.pln.list ++ [.ret g.ring g.slot st c.trk.position c.clock] := by
  have hr : ∀ (pl : Plan) (id : RingId) (x : Ring) (l : List SlotWrite), ({ pl.withRing id x with list := l } : Plan).ring id = x := by
    intro pl id x l; cases id <;> rfl
  have ho : ∀ (pl : Plan) (id o : RingId) (x : Ring) (l : List SlotWrite), o ≠ id → ({ pl.withRing id x with list := l } : Plan).ring o = pl.ring o := by
    intro pl id o x l h; cases id <;> cases o <;> first | exact absurd rfl h | rfl
  have e : (endCur st c).pln = { c.pln.withRing g.ring ((c.pln.ring g.ring).withSlot g.slot ⟨.host, none⟩) with
      list := c.pln.list ++ [.ret g.ring g.slot st c.trk.position c.clock] } := by
    simp only [endCur, hc]; split <;> simp [onPln]
  rw [e]
  exact ⟨hr _ _ _ _, fun o h => ho _ _ _ _ _ h, rfl⟩

/-- An end lies ahead on the way from one position to another. -/
theorem endAhead_iff (f : EndFlag) (p q : Int) (h : p ≠ q) : endAhead f (dirOf (q - p)) = true ↔
   (f = .forwardEnd ∧ p < q ∨ f = .reverseEnd ∧ q < p) := by
  simp only [dirOf]
  rcases lt_trichotomy p q with k | k | k
  · rw [if_pos (by omega)]; cases f <;> (simp [endAhead, k]; try omega)
  · exact absurd k h
  · rw [if_neg (by omega), if_pos (by omega)]; cases f <;> (simp [endAhead, k]; try omega)

/-- A completion at zero speed with nothing queued. -/
theorem complete_rests (g : Seg) (st : Status) (c : Chip) (hc : c.eng.cur = some g) (hm : c.mode = .running)
    (ht : c.sup.ts = .moving) (he : c.eng.est ≠ .halting) (hr : c.eng.ref = 0) (hu : c.pln.urgent.queued = 0)
    (hq : c.pln.main.queued = 0) :
    complete st c = enter .held (onEng (fun e => { e with est := .idle, held := 0, starve := none, frac := 0 }) (endCur st c)) := by
  have e := endCur_some st c g hc hm
  have q : (endCur st c).pln.urgent.queued = 0 ∧ (endCur st c).pln.main.queued = 0 := by
    rw [e]; cases hg : g.ring <;> simp [Chip.posting, Plan.withRing, Plan.ring, Ring.withSlot, hu, hq]
  have he' : (endCur st c).eng = { c.eng with cur := none } := by rw [e]; rfl
  simp only [complete, settle, outcome, Chip.curRecord, hc, Option.map_some, Option.getD_some]
  rw [follow, if_pos (by simp [canTake, ht, he', he])]
  simp only [nextRing, q, ne_eq, not_true_eq_false, if_false]
  rw [nothingQueued, if_pos (by simp [he', hr]), finishRun, if_pos (by simp [ht])]

/-- What the host finds after it, with events posted before it. -/
theorem ends_rests (g : Seg) (st : Status) (c0 : Chip) (es : List Event) (s : State) (hc : c0.eng.cur = some g) (hm : c0.mode = .running)
    (ht : c0.sup.ts = .moving) (he : c0.eng.est ≠ .halting) (hr : c0.eng.ref = 0) (hu : c0.pln.urgent.queued = 0)
    (hq : c0.pln.main.queued = 0) (hg : c0.gnt.request = none) : RestedHeld g st es c0 (s.ends (complete st (c0.posting es []))) := by
  have hk : c0.posting es [] = { c0 with evt := { c0.evt with posted := c0.evt.posted ++ es } } := rfl
  rw [complete_rests g st (c0.posting es []) hc hm ht he hr hu hq]
  rw [endCur_some st (c0.posting es []) g hc hm]
  set x := onEng (fun e => { e with est := .idle, held := 0, starve := none, frac := 0 }) _ with hx
  have h1 : x.gnt.request = none := by simpa [hx, Chip.posting, onEng] using hg
  have h2 : x.mode = .running := by simpa [hx, Chip.posting, onEng] using hm
  have hh : ∃ sup drv, enter .held x = ({ x with sup := sup, drv := drv } : Chip).posting [x.event .stateChanged 3 x.curTag x.sup.ts.code] [.stateChanged]
      ∧ sup.ts = .held ∧ sup.latch = x.sup.latch ∧ sup.stop = x.sup.stop ∧ sup.trip = x.sup.trip := by
    refine ⟨x.sup.entered .held x.profile, (enterStage .held x).drv, ?_, rfl, rfl, rfl, rfl⟩
    simp only [enter, enterGrant, TState.dropsGrant, if_false, if_true, reduceCtorEq, false_and, Bool.false_eq_true]
    rw [postNotice_running (by simp [h2]), postEvent_running (by simp [h2])]
    simp only [resolvePending]
    have : ∀ c : Chip, (enterStage .held c).gnt = c.gnt := by intro c; rfl
    simp only [this, onSup, h1]
    rfl
  obtain ⟨sup, drv, e, a1, a2, a3, a4⟩ := hh
  rw [e]
  refine ⟨?_, ?_, ?_, ?_, ?_, ?_⟩
  · simp [State.ends, Chip.posting, done_cur_none, hx, onEng, hr]
  · simp [State.ends, Chip.posting, a1, a2, a3, a4, hx, onEng]
  · simp [State.ends, Chip.posting, hx, onEng]
  · intro hl
    simp only [State.ends, Chip.posting, hx, onEng, done_pln]
    cases hgr : g.ring <;> simp_all [Plan.ring, Plan.withRing, Ring.slot, Ring.withSlot]
  · simp [State.ends, Chip.posting, Seg.reported, hx, onEng, Chip.event, Chip.curTag, ht, TState.code]
  · simp [State.ends, Chip.posting, hx, onEng]

/-- The judgement of a LOCATE at rest, in its four cases. -/
theorem judged_atRest (g : Seg) (l : Loc) (c : Chip) (s : State) (hm : c.mode = .running)
    (ht : c.sup.ts = .moving) (he : c.eng.est ≠ .halting) (hc : c.eng.cur = some g) (hl : g.loc = some l) (hp : g.phase = .brake)
    (hr : c.eng.ref = 0) (hv : c.trk.tapeSpeed = 0) (hu : c.pln.urgent.queued = 0)
    (hq : c.pln.main.queued = 0) (hg : c.gnt.request = none) : JudgedAtRest g l c s (s.ends (judgeBrake c)) := by
  have hj : judgeBrake c = if withinTolerance c l then complete (doneOr g) c
        else if 3 ≤ l.approach then complete .missed c
        else
          let err := l.target - c.trk.position
          let c := postEvent .locateRetry (l.approach + 1) g.record.tag err c
          if endAhead c.trk.endFlag (dirOf err) then complete .tapeEnd c
          else onSeg (fun s => { s with
            phase := .creep, dir := dirOf err, loc := some { l with approach := l.approach + 1 } }) c := by
    simp only [judgeBrake, hc, hl, hp, ht, hr, hv]; rfl
  have hd : doneOr g = g.doneStatus := rfl
  have key := fun st es => ends_rests g st c es s hc hm ht he hr hu hq hg
  have k0 := fun st => key st []
  have e0 : c.posting [] [] = c := by simp [Chip.posting]
  rw [e0] at k0
  have hpost : ∀ v, postEvent .locateRetry (l.approach + 1) g.record.tag v c = c.posting [c.event .locateRetry (l.approach + 1) g.record.tag v] [] := by
    intro v; rw [postEvent_running hm]; rfl
  have hwt : withinTolerance c l = decide ((l.target - c.trk.position).natAbs ≤ l.tolerance) := rfl
  refine ⟨fun h => ?_, fun h h3 => ?_, fun h h3 hf => ?_, fun h h3 hf => ?_⟩
  · rw [hj, if_pos (by simpa [hwt] using h), hd]; exact k0 _
  · rw [hj, if_neg (by simp [hwt]; omega), if_pos h3]; exact k0 _
  · rw [hj, if_neg (by simp [hwt]; omega), if_neg (by omega)]
    have hne : c.trk.position ≠ l.target := by rintro k; rw [k] at h; simp at h
    simp only [hpost]
    have : (c.posting [c.event .locateRetry (l.approach + 1) g.record.tag (l.target - c.trk.position)] []).trk = c.trk := rfl
    rw [this, if_pos ((endAhead_iff _ _ _ hne).2 hf)]
    exact key _ _
  · rw [hj, if_neg (by simp [hwt]; omega), if_neg (by omega)]
    have hne : c.trk.position ≠ l.target := by rintro k; rw [k] at h; simp at h
    simp only [hpost]
    have : (c.posting [c.event .locateRetry (l.approach + 1) g.record.tag (l.target - c.trk.position)] []).trk = c.trk := rfl
    rw [this, if_neg (fun k => hf ((endAhead_iff _ _ _ hne).1 k))]
    have hdir : dirOf (l.target - c.trk.position) = if c.trk.position < l.target then some .forward else some .reverse := by
      rcases lt_trichotomy c.trk.position l.target with k | k | k
      · rw [dirOf, if_pos (by omega), if_pos k]
      · exact absurd k hne
      · rw [dirOf, if_neg (by omega), if_pos (by omega), if_neg (by omega)]
    simp [onSeg, onEng, hdir, Chip.posting, hc]

/-- The millisecond update of a LOCATE in BRAKE, up to the judgement. -/
theorem update_brake (g : Seg) (s : State) (hm : s.chip.mode ≠ .bypass) (ht : s.chip.sup.ts = .moving)
    (he : s.chip.eng.est = .running) (hc : s.chip.eng.cur = some g) (hp : g.phase = .brake) :
    ∃ p, exec .referenceSpeedUpdate s = .next (s.ends (judgeBrake { s.chip with
      clock := s.chip.clock + 1
      sup := s.chip.sup.tick
      mon := s.chip.mon.tick
      drv := { s.chip.drv with lifters := p }
      eng := { s.chip.eng with
        cur := some { g with
          timer := g.timer.map (· + 1), clipped := g.clipped || decide (effectiveAccel s.chip < g.record.accel) }
        ref := (s.chip.eng.move 0 (effectiveAccel s.chip)).ref
        frac := (s.chip.eng.move 0 (effectiveAccel s.chip)).frac
        starve := s.chip.eng.starve.map (· + 1) } })) := by
  have hs : settleMoves s.chip = s.chip := by simp [settleMoves, ht]
  have hlz : ∀ c, limitTarget c 0 = 0 := fun c => rfl
  have hmv : moveReference (clockTick s.chip) = { clockTick s.chip with eng := (clockTick s.chip).eng.move 0 (effectiveAccel s.chip) } := by
    have hc1 : (clockTick s.chip).eng.cur = some { g with timer := tickTimer g.timer } := by simp [clockTick, Engine.tick, hc]
    have h0 : targetSpeed (clockTick s.chip) = 0 := by simp [targetSpeed, hc1, unlimitedTarget, hp, hlz]
    have ha : effectiveAccel (clockTick s.chip) = effectiveAccel s.chip :=
      effectiveAccel_eq rfl rfl rfl (by simp [clockTick, Engine.tick, hc])
    simp only [moveReference, hc1, hp, h0, ha]
    simp [onEng]
  have hkt : markClipped (moveReference (clockTick s.chip)) = { s.chip with
      clock := s.chip.clock + 1
      sup := s.chip.sup.tick
      mon := s.chip.mon.tick
      eng := { s.chip.eng with
        cur := some { g with
          timer := g.timer.map (· + 1), clipped := g.clipped || decide (effectiveAccel s.chip < g.record.accel) }
        ref := (s.chip.eng.move 0 (effectiveAccel s.chip)).ref
        frac := (s.chip.eng.move 0 (effectiveAccel s.chip)).frac
        starve := s.chip.eng.starve.map (· + 1) } } := by
    rw [hmv]
    simp only [markClipped, onSeg, onEng, clockTick]
    rw [tick_move]
    simp only [Engine.tick, hc, Option.map_some, tickTimer]
    have : ∀ c : Chip, ∀ g' : Seg, g'.phase = .brake → g'.record = g.record → c.gnt = s.chip.gnt → c.set = s.chip.set → c.sup.threaded = s.chip.sup.threaded →
      clips c g' = decide (effectiveAccel s.chip < g.record.accel) := by
      intro c g' h1 h2 h3 h4 h5
      have hpr : c.profile = s.chip.profile := by simp only [Chip.profile, h4, h5]
      have hst : stopAccel c = stopAccel s.chip := by simp only [stopAccel, h3, hpr]
      have e : recordAccel c g.record = effectiveAccel s.chip := by
        simp only [effectiveAccel, hc, recordAccel, hst, h3]
      simp [clips, unlimitedTarget, h1, h2, hlz, e]
    rw [this] <;> first | rfl | exact hp
  obtain ⟨p, hl⟩ := askLifters_drv (markClipped (moveReference (clockTick s.chip)))
  rw [hkt] at hl
  have hbr : ∀ c : Chip, ∀ g' : Seg, ∀ m, c.eng.cur = some g' → g'.phase = .brake → judgeCurrent m c = c := by
    intro c g' m h1 h2
    have : fallenToZero c g' = false := by simp [fallenToZero, unlimitedTarget, h2]
    simp only [judgeCurrent, h1]; split
    · simp [judgeSpeed, this, h2, settle, outcome]
    · rfl
  refine ⟨p, ?_⟩
  simp only [exec, execReferenceSpeedUpdate, State.onChip, State.ends, referenceStep, hs, hm, if_false]
  have h1 : (clockTick s.chip).sup.ts = .moving := ht
  simp only [updateReference, h1, hkt, hl]
  rw [hbr _ { g with timer := g.timer.map (· + 1), clipped := g.clipped || decide (effectiveAccel s.chip < g.record.accel) } _ rfl hp,
    starved_idle]
  simp [he]

/-- A move that ends at 0 keeps no fraction. -/
theorem move_frac_zero (e : Engine) (a : Nat) (h : (e.move 0 a).ref = 0) : (e.move 0 a).frac = 0 := by
  simp only [Engine.move] at h ⊢
  split
  · rfl
  · rename_i k; simp only [k, if_false] at h
    exfalso; split at h <;> omega

/-- The play target by what it reads. -/
theorem playTarget_eq {c c' : Chip} {g g' : Seg} (h1 : c.gnt = c'.gnt) (h2 : g.record = g'.record) (h3 : g.dir = g'.dir) :
    playTarget c g = playTarget c' g' := by
  simp only [playTarget, h1, h2, h3]

/-- The intake's part of a take changes the intake alone. -/
theorem takeSlot_frame (id : RingId) (r : Record) (c : Chip) : ∃ p, takeSlot id r c = { c with pln := p } := by
  simp only [takeSlot]; split
  · exact ⟨_, rfl⟩
  · exact ⟨_, rfl⟩

/-- A take lowers the count of its ring by one. -/
theorem takeSlot_queued (id : RingId) (r : Record) (c : Chip) :
    ((takeSlot id r c).pln.ring id).queued = (c.pln.ring id).queued - 1 := by
  simp only [takeSlot]; split
  · rename_i h; obtain ⟨rfl, -⟩ := h; rfl
  · cases id <;> rfl

/-- The rings after a take. -/
theorem takeSlot_ring (id : RingId) (r : Record) (c : Chip) :
    let q := c.pln.ring id
    let q' := (takeSlot id r c).pln.ring id
    q'.take = (q.take + 1) % q.slots.length ∧ q'.queued = q.queued - 1 ∧
      (q.take < q.slots.length → (q'.slot q.take).view = .current) ∧
      (∀ i, i ≠ q.take → q'.slot i = q.slot i) ∧
      (takeSlot id r c).pln.list = c.pln.list ++ [.mark id q.take] ++
        (if id = .urgent ∧ r.flush = true then c.mainReturns .flushed else []) ∧
      (id = .urgent → r.flush = true → (takeSlot id r c).pln.main = c.pln.main.flushed) ∧
      (id = .urgent → r.flush = false → (takeSlot id r c).pln.main = c.pln.main) ∧
      (id = .main → (takeSlot id r c).pln.urgent = c.pln.urgent) := by
  intro q q'
  have hv : ∀ r : Ring, (r.take < r.slots.length → ((r.taken).slot r.take).view = .current) ∧ (∀ i, i ≠ r.take → (r.taken).slot i = r.slot i) := by
    intro r; refine ⟨fun h => ?_, fun i h => ?_⟩
    · simp [Ring.taken, Ring.slot, Ring.withSlot, h]
    · simp [Ring.taken, Ring.slot, Ring.withSlot, Ne.symm h]
  have hq : q' = q.taken := by
    simp only [q', q, takeSlot]; split
    · rename_i h; obtain ⟨rfl, -⟩ := h; rfl
    · cases id <;> rfl
  refine ⟨by rw [hq]; rfl, by rw [hq]; rfl, by rw [hq]; exact (hv q).1, by rw [hq]; exact (hv q).2, ?_, ?_, ?_, ?_⟩
  · simp only [takeSlot]
    split
    · rename_i h; obtain ⟨rfl, -⟩ := h
      simp [flushRing, onPln, Plan.ring, Plan.withRing, Chip.mainReturns, Ring.queuedSlots, q]
    · simp [onPln, q]
  · rintro rfl h; simp only [takeSlot, h, and_self, if_true]; rfl
  · rintro rfl h; simp only [takeSlot, h]; rfl
  · rintro rfl; simp only [takeSlot]; rfl

/-- A first phase begun goes on, but for a timer it may start. -/
theorem judgeSpeed_first {c : Chip} {g : Seg} (hc : c.eng.cur = some g)
    (h0 : c.eng.ref ≠ 0 ∨ (g.kind = .spool ∨ g.kind = .wind) ∧ limitTarget c g.record.speed ≠ 0) (hp : g.phase = firstPhase g.kind)
    (hk : g.kind ≠ .locate) (ht : g.kind = .play → c.eng.ref ≠ targetSpeed c) :
    ∃ tm, judgeSpeed true c g = ({ c with eng := { c.eng with cur := some { g with timer := tm } } }, .goes) := by
  have hid : c = { c with eng := { c.eng with cur := some { g with timer := g.timer } } } := by
    obtain ⟨⟩ := c; rename_i eng _ _ _ _ _ _ _; obtain ⟨⟩ := eng; simp_all
  obtain ⟨ring, slot, rec, kind, dir, phase, es, cl, tm, loc⟩ := g
  simp only at hp hk ht
  subst hp
  have hfz : ¬ (fallenToZero c ⟨ring, slot, rec, kind, dir, firstPhase kind, es, cl, tm, loc⟩ = true ∧ c.eng.ref = 0) := by
    rintro ⟨a, b⟩
    rcases h0 with h0 | ⟨hkk, h0⟩
    · exact h0 b
    · simp only [fallenToZero, decide_eq_true_eq] at a
      rcases hkk with hkk | hkk <;> subst hkk <;> exact h0 a.2.2
  have hz : kind = .spool → ¬ (rec.speed = 0 ∧ c.eng.ref = 0) := by
    rintro hks ⟨a, b⟩
    rcases h0 with h0 | ⟨-, h0⟩
    · exact h0 b
    · simp only [a] at h0; exact h0 rfl
  have hr : kind ≠ .spool → kind ≠ .wind → c.eng.ref ≠ 0 := by
    intro a b; rcases h0 with h0 | ⟨h0 | h0, -⟩
    · exact h0
    · exact absurd h0 a
    · exact absurd h0 b
  unfold judgeSpeed
  simp only [hfz, if_false]
  cases kind with
  | locate => exact absurd rfl hk
  | spool =>
    simp only [firstPhase, hz rfl, if_false]
    split
    · exact ⟨_, congrArg (·, SegOut.goes) hid⟩
    · split
      · simp only [startTimer, onSeg, onEng, hc, Option.map_some]; exact ⟨_, rfl⟩
      · exact ⟨_, congrArg (·, SegOut.goes) hid⟩
  | play =>
    simp only [firstPhase, ht rfl, false_and, if_false]
    exact ⟨_, congrArg (·, SegOut.goes) hid⟩
  | dwell =>
    simp only [firstPhase, hr (by decide) (by decide), if_false]
    exact ⟨_, congrArg (·, SegOut.goes) hid⟩
  | stop =>
    simp only [firstPhase, hr (by decide) (by decide), if_false]
    exact ⟨_, congrArg (·, SegOut.goes) hid⟩
  | wind => simp only [firstPhase]; exact ⟨_, congrArg (·, SegOut.goes) hid⟩

/-- A take that goes on (R114, R115). -/
theorem takeOne_goes {id : RingId} {c : Chip} {r : Record} {k : Kind} (h : GoesOn r k c)
    (hr : ((c.pln.ring id).slot (c.pln.ring id).take).record = some r)
    (ho : isOpen k r = true → (c.pln.ring id).queued = 1) :
    ∃ b tm, takeOne id c = ({ takeSlot id r c with
      eng := c.eng.took ⟨id, (c.pln.ring id).take, r, k, r.way k,
        if c.drv.pinch = .out then firstPhase k else .release, none, b, tm, none⟩ (c.sup.ts == .held) }, .goes) := by
  obtain ⟨⟨h1, h2⟩, h3, h4, h5, h6, h7, h8⟩ := h
  obtain ⟨p, hp⟩ := takeSlot_frame id r c
  have hq := takeSlot_queued id r c
  rw [hp] at hq
  have hd : takeDir { c with pln := p } k r none = r.way k := by
    simp only [takeDir, Record.way]; cases k <;> simp_all
  have hah : endAhead c.trk.endFlag (r.way k) = false := by
    cases he : c.trk.endFlag <;> cases hw : r.way k with
    | none => rfl
    | some d => cases d <;> simp_all [endAhead]
  have hno : ∀ e1 e2 : Bool, e1 = true → ¬ (k = .spool ∧ r.positionEnd = true ∧ reached c.trk.position r.target (r.way k) = true) := by
    rintro - - - ⟨a, b, e⟩
    subst a
    have hw : r.way .spool = dirOf r.speed := rfl
    have := h7 rfl b
    rw [hw] at e
    rcases lt_trichotomy r.speed 0 with q | q | q
    · rw [dirOf, if_neg (by omega), if_pos q] at e; simp [reached] at e; omega
    · rw [q] at e; simp [reached, dirOf] at e
    · rw [dirOf, if_pos q] at e; simp [reached] at e; omega
  have hno := hno true true rfl
  have hal : ∀ e : Engine, allowedNow { c with pln := p, eng := e } k r = true := by
    intro e; simp only [allowedNow]
    cases k with
    | play => obtain ⟨a, co, e1, e2, e3⟩ := h5 rfl; simp [e1, e2, e3]
    | wind => obtain ⟨a, e1, e2⟩ := h6 rfl; simp [e1, e2]
    | _ => rfl
  have key : ∀ (ph : Phase), ph = (if c.drv.pinch = .out then firstPhase k else .release) → ∃ b tm, judgeTake ⟨id, (c.pln.ring id).take, r, k, r.way k, ph, none, false, none, none⟩
      { c with pln := p, eng := c.eng.took ⟨id, (c.pln.ring id).take, r, k, r.way k, ph, none, false, none, none⟩ (c.sup.ts == .held) } =
      ({ c with pln := p, eng := c.eng.took ⟨id, (c.pln.ring id).take, r, k, r.way k, ph, none, b, tm, none⟩ (c.sup.ts == .held) }, .goes) := by
    intro ph hph
    simp only [judgeTake, hah, Engine.took, hal, Bool.not_true, Bool.false_eq_true, if_false]
    simp only [markClipped, onSeg, onEng, Option.map_some, Option.getD_some, hno, if_false]
    have hs1 : ¬ (k = .stop ∧ c.eng.ref = 0) := by
      rintro ⟨a, b⟩; subst a
      rcases h3 with h3 | ⟨h3 | h3, -⟩
      · exact h3 b
      · exact absurd h3 (by decide)
      · exact absurd h3 (by decide)
    have hs2 : ∀ b : Bool, ¬ (Seg.open? ⟨id, (c.pln.ring id).take, r, k, r.way k, ph, none, b, none, none⟩ = true ∧ (p.ring id).queued ≠ 0) := by
      rintro b' ⟨a, b⟩
      exact b (hq.trans (by rw [ho a]))
    simp only [hs1, hs2, if_false]
    by_cases hpi : c.drv.pinch = .out
    · rw [if_pos hpi] at hph
      subst hph
      simp only [hpi, ne_eq, not_true_eq_false, if_false]
      simp only [begin, aim, toPhase, onSeg, onEng, markClipped, Option.map_some]
      have hj : ∀ (e : Engine) (b : Bool), e.cur = some ⟨id, (c.pln.ring id).take, r, k, r.way k, firstPhase k, none, b, none, none⟩ → e.ref = c.eng.ref →
          ∃ tm, judgeSpeed true { c with pln := p, eng := e } ⟨id, (c.pln.ring id).take, r, k, r.way k, firstPhase k, none, b, none, none⟩ =
            ({ c with pln := p, eng := { e with cur := some ⟨id, (c.pln.ring id).take, r, k, r.way k, firstPhase k, none, b, tm, none⟩ } }, .goes) := by
        intro e b e1 e2
        refine judgeSpeed_first (c := { c with pln := p, eng := e }) e1 (by
          simp only [e2, limitTarget_eq (c := { c with pln := p, eng := e }) (c' := c) rfl rfl rfl]; exact h3) rfl h2 ?_
        rintro hk a
        simp only at hk; subst hk
        refine h8 rfl hpi ⟨id, (c.pln.ring id).take, r, .play, r.way .play, .leadIn, none, false, none, none⟩ rfl rfl ?_
        simp only [e2] at a
        rw [a]
        simp only [targetSpeed, e1]
        rfl
      exact ⟨_, hj _ _ rfl rfl⟩
    · simp only [hpi, ne_eq, not_false_eq_true, if_true]
      exact ⟨_, _, rfl⟩
  obtain ⟨b, tm, hk⟩ := key _ rfl
  refine ⟨b, tm, ?_⟩
  simp only [takeOne, hr, Option.getD_some, h1, hp, h2, if_false, hd]
  exact hk

/-- Whether a record goes on, by what that reads. -/
theorem goesOn_congr {r : Record} {k : Kind} {c c' : Chip} (h : GoesOn r k c) (h1 : c'.eng.ref = c.eng.ref) (h2 : c'.trk = c.trk)
    (h3 : c'.gnt = c.gnt) (h4 : c'.set = c.set) (h5 : c'.drv.pinch = .out → c.drv.pinch = .out) : GoesOn r k c' := by
  obtain ⟨a1, a2, a3, a4, a5, a6, a7⟩ := h
  have hl : ∀ v, limitTarget c' v = limitTarget c v := limitTarget_eq h3 h2 h4
  refine ⟨a1, ?_, ?_, ?_, ?_, ?_, ?_⟩
  · rw [h1, hl]; exact a2
  · rw [h2]; exact a3
  · rw [h3]; exact a4
  · rw [h3]; exact a5
  · rw [h2]; exact a6
  · intro x y g e1 e2
    rw [hl, h1, playTarget_eq (c := c') (c' := c) (g := g) (g' := g) h3 rfl rfl]
    exact a7 x (h5 y) g e1 e2

/-- A slot gained under a current segment in MOVING (R117). -/
theorem gained_seg (id : RingId) (c : Chip) (g : Seg) (ht : c.sup.ts = .moving) (he : c.eng.est = .running) (hc : c.eng.cur = some g) :
    gained id c = if id = .urgent ∧ g.ring = .main then preempt g c
      else if id = g.ring ∧ g.open? then settle (openEnds g c) else c := by
  simp only [gained, hc]; rw [if_pos (by simp [canTake, ht, he])]

/-- An open PLAY with the pinch OUT ends at once. -/
theorem openEnds_out (c : Chip) (g : Seg) (hc : c.eng.cur = some g) (hk : g.kind = .play) (hp : g.phase ≠ .pinchOut)
    (ho : c.drv.pinch = .out) : openEnds g c = ({ c with
      drv := c.drv.capstanOff c.pinchFull
      eng := { c.eng with cur := some { g with phase := .pinchOut, endStatus := some (doneOr g) } } }, .ends (doneOr g)) := by
  have h1 : (c.drv.capstanOff c.pinchFull).pinch = .out := by simp [Drive.capstanOff, ho, Drive.capstanStop]
  simp only [openEnds, hk, if_true, hp, if_false, playEnds, onSeg, onEng, onDrive, hc, Option.map_some]
  simp only [h1, if_true]

/-- The phase of a take, as the statements write it. -/
theorem phase_taken (k : Kind) {a b : Pinch} (h : a = b) : (if b = .out then firstPhase k else Phase.release) =
    (if a ≠ .out then .release else match k with
      | .spool | .wind => .run | .play => .leadIn | .dwell => .settle | .stop => .ramp | .locate => .approach) := by
  subst h; cases a <;> cases k <;> rfl

/-- A take in MOVING that goes on, as the statements write it. -/
theorem taken_of_takeOne {id : RingId} {x : Chip} {r : Record} {k : Kind} {s : State} (hgo : GoesOn r k x)
    (h1 : x.trk = s.chip.trk) (h2 : x.gnt = s.chip.gnt) (h3 : x.cue = s.chip.cue) (h4 : x.set = s.chip.set) (h5 : x.mbx = s.chip.mbx)
    (h6 : x.sup = s.chip.sup) (h7 : x.eng.ref = s.chip.eng.ref) (h8 : s.chip.sup.ts = .moving)
    (hl : (x.pln.ring id).slots.length = (s.chip.pln.ring id).slots.length) (hlt : (x.pln.ring id).take < (x.pln.ring id).slots.length)
    (hr : ((x.pln.ring id).slot (x.pln.ring id).take).record = some r) (ho : isOpen k r = true → (x.pln.ring id).queued = 1) :
    TakenInMotion id (x.pln.ring id).take r k s (s.ends (takeOne id x).1) ∧
    (s.ends (takeOne id x).1).chip.pln = (takeSlot id r x).pln ∧ (s.ends (takeOne id x).1).chip.evt = x.evt ∧
    (s.ends (takeOne id x).1).chip.drv.pinch = x.drv.pinch ∧ (takeOne id x).2 = .goes := by
  obtain ⟨b, tm, htk⟩ := takeOne_goes hgo hr ho
  obtain ⟨k1, k2, k3, k4, k5, k6, k7, k8⟩ := takeSlot_ring id r x
  obtain ⟨pl, hpl⟩ := takeSlot_frame id r x
  rw [htk]
  rw [hpl] at k1 k2 k3 k4 k5 k6 k7 k8 ⊢
  simp only at k1 k2 k3 k4 k5 k6 k7 k8
  obtain ⟨b', hb'⟩ := done_cur ({ x with
      pln := pl
      eng := x.eng.took ⟨id, (x.pln.ring id).take, r, k, r.way k,
        if x.drv.pinch = .out then firstPhase k else .release, none, b, tm, none⟩ (x.sup.ts == .held) }) _ rfl
  have hdc := (done_capstan ({ x with
      pln := pl
      eng := x.eng.took ⟨id, (x.pln.ring id).take, r, k, r.way k,
        if x.drv.pinch = .out then firstPhase k else .release, none, b, tm, none⟩ (x.sup.ts == .held) })).2.2.1
  refine ⟨⟨⟨_, hb', rfl, rfl, rfl, rfl, rfl, phase_taken k hdc⟩, ?_, ?_, ?_, ?_, ?_⟩, ?_, ?_, hdc, rfl⟩
  · simp [State.ends, Engine.took, h7]
  · simp only [State.ends, done_pln]; exact k3 hlt
  · simp only [State.ends, done_pln]; rw [k1, hl]
  · simp [State.ends, h6, h8]
  · simp only [State.ends, done_trk, done_gnt, done_cue, done_set, done_mbx, h1, h2, h3, h4, h5, and_self]
  · simp only [State.ends, done_pln]
  · simp only [State.ends, done_evt]

/-- The latch of a LOCATE by what it reads. -/
theorem latchLocate_congr {c c' : Chip} (h1 : c'.trk = c.trk) (h2 : c'.cue = c.cue) (r : Record) : latchLocate c' r = latchLocate c r := by
  simp only [latchLocate, h1, cueOf, h2]

/-- A take toward a flagged end (R130). -/
theorem takeOne_flagged {id : RingId} {c : Chip} {r : Record} {k : Kind} {d : Dir} (h1 : r.kind? = some k)
    (hd : (k = .spool ∨ k = .play ∨ k = .wind) ∧ dirOf r.speed = some d ∨
      k = .locate ∧ (∃ l, latchLocate c r = .inl l ∧ dirOf (l.target - c.trk.position) = some d))
    (he : c.trk.endFlag = (if d = .forward then .forwardEnd else .reverseEnd)) (h0 : c.eng.ref = 0)
    (hr : ((c.pln.ring id).slot (c.pln.ring id).take).record = some r) :
    ∃ g : Seg, g.ring = id ∧ g.slot = (c.pln.ring id).take ∧ g.record = r ∧
      takeOne id c = ({ takeSlot id r c with eng := c.eng.took g (c.sup.ts == .held) },
        .ends (if k = .wind then .done else .tapeEnd)) := by
  obtain ⟨p, hp⟩ := takeSlot_frame id r c
  have hea : endAhead c.trk.endFlag (some d) = true := by rw [he]; cases d <;> rfl
  have hez : endAhead c.trk.endFlag (dirOf 0) = false := by cases c.trk.endFlag <;> rfl
  have key : ∀ g : Seg, g.dir = some d → g.kind = k →
      judgeTake g (onEng (·.took g (c.sup.ts == .held)) { c with pln := p }) =
        (onEng (·.took g (c.sup.ts == .held)) { c with pln := p }, .ends (if k = .wind then .done else .tapeEnd)) := by
    intro g a b
    simp only [judgeTake, onEng, Engine.took, a, b, hea, if_true, h0, hez]; rfl
  rcases hd with ⟨hk, hd⟩ | ⟨hk, l, hl, hd⟩
  · have hkl : k ≠ .locate := by rcases hk with h | h | h <;> rw [h] <;> decide
    have htd : takeDir { c with pln := p } k r none = some d := by
      simp only [takeDir]; rcases hk with h | h | h <;> subst h <;> exact hd
    refine ⟨⟨id, (c.pln.ring id).take, r, k, some d, if c.drv.pinch = .out then firstPhase k else .release, none, false, none, none⟩,
      rfl, rfl, rfl, ?_⟩
    simp only [takeOne, hr, Option.getD_some, h1, hp, hkl, if_false, htd]
    exact key _ rfl rfl
  · have hll : latchLocate { c with pln := p } r = .inl l := (latchLocate_congr (c := c) rfl rfl r).trans hl
    have htd : takeDir { c with pln := p } .locate r (some l) = some d := hd
    subst hk
    refine ⟨⟨id, (c.pln.ring id).take, r, .locate, some d, if c.drv.pinch = .out then firstPhase .locate else .release, none, false, none,
      some l⟩, rfl, rfl, rfl, ?_⟩
    simp only [takeOne, hr, Option.getD_some, h1, hp, if_true, hll, htd]
    exact key _ rfl rfl

/-- The posts of a stop that neither latches nor ends a segment. -/
theorem stopMoving_posts (k : StopCause) (c : Chip) (hk : k.latches = false) (hm : c.mode = .running) (hc : c.eng.cur = none) :
    (stopMoving k c).evt.posted = c.evt.posted ++ [c.event .stop k.code 0 0, c.event .stateChanged 5 0 c.sup.ts.code] := by
  have e1 : endCur k.endStatus (onSup (fun s => { s with stop := k }) c) = onSup (fun s => { s with stop := k }) c := by
    simp [endCur, hc]
  have e2 : ∀ c, latchAndFlush k c = c := by intro c; simp [latchAndFlush, hk]
  have e3 : ∀ c : Chip, ∃ d b, haltEntry c = { c with drv := d, eng := { c.eng with haltHold := b } } := by
    intro c; simp only [haltEntry]; split <;> exact ⟨_, _, rfl⟩
  simp only [stopMoving, e1, e2]
  obtain ⟨d, b, e⟩ := e3 (onEng (·.halted) (onSup (fun s => { s with stop := k }) c))
  rw [e]
  simp only [enter, enterGrant, TState.dropsGrant]
  rw [postEvent_running (by simp [onEng, onSup, hm])]
  simp only [Bool.false_eq_true, if_false, false_and]
  rw [postNotice_running (by simp [onEng, onSup, hm]), postEvent_running (by simp [onEng, onSup, hm])]
  simp [enterStage, TState.admitsPinch, onEng, onSup, Chip.event, Chip.curTag, Engine.halted, hc, TState.code]

/-- A duration that has run out completes a SPOOL in RUN and a DWELL in HOLD. -/
theorem duration_ends (g : Seg) (n : Nat) (s : State) (ht : s.chip.sup.ts = .moving) (he : s.chip.eng.est = .running)
    (hc : s.chip.eng.cur = some g) (htm : g.timer = some n) (h0 : g.record.duration ≠ 0) (h1 : g.record.duration ≤ n)
    (hk : g.kind = .spool ∧ g.phase = .run ∧ g.record.positionEnd = false ∨ g.kind = .dwell ∧ g.phase = .hold) :
    exec .durationTimerExpiry s = .next (s.ends (complete g.doneStatus s.chip)) := by
  have hs : settleMoves s.chip = s.chip := by simp [settleMoves, ht]
  have hct : canTake s.chip = true := by simp [canTake, ht, he]
  simp only [exec, execDurationTimerExpiry, State.onChip, State.ends, durationStep, hs, hct, if_true, durationEnds, hc, htm]
  rw [if_pos ⟨h0, h1⟩]
  have hd : doneOr g = g.doneStatus := rfl
  rcases hk with ⟨a, b, c⟩ | ⟨a, b⟩
  · simp only [a, b, hd]; simp_all
  · simp only [a, b, hd]

theorem done_capOffHeld (c : Chip) : (done c).drv.capOffHeld = c.drv.capOffHeld := (congrArg (fun c : Chip => c.drv.capOffHeld) (done_plain c) :)

theorem done_finishReq (c : Chip) : (done c).eng.finishReq = c.eng.finishReq := (congrArg (fun c : Chip => c.eng.finishReq) (done_plain c) :)

end Sys2Proof.Laws
end

