-- ==== Sys2Proof/Tests/Slice0.lean ====
section
/-! SUPPORT. Tests: the ill-formed terms the check refuses, the spec's own worked values, one step of a command on a small
state, and for each statement a state that meets its hypotheses (`witness_<statement>`), at the ends of its ranges where it
has ranges. -/

namespace Sys2Proof.Machine

set_option Elab.async false

/-! ## Small states -/

/-- A state of a part. -/
def tSt (c : Chip) : State := ⟨c, [], []⟩

/-- The part a command leaves. -/
def tAfter (i : Instr) (s : State) : Chip :=
  match exec i s with
  | .next t => t.chip
  | .fault _ | .refused _ => s.chip

/-- A running part with no tape, all notices asked for. -/
def tRun : Chip :=
  { Chip.reset with
    mode := .running
    sup := { Supervisor.reset with up := true }
    set := { Store.reset with loaded := true }
    pln := { Plan.reset with sweep := some 72 }
    ntc := ⟨0, 0xFFFF⟩ }

/-- A running part with tape, in a transport state, both reels driven and released. -/
def tIn (ts : TState) : Chip :=
  { tRun with
    trk := { Tracker.reset with path := .present, valid := true, position := 100 }
    sup := { tRun.sup with ts := ts, threaded := some 0, tension := Ramp.at (60, 1), clsSup := .inBand, clsTup := .inBand }
    gnt := { GrantUnit.reset with threaded := some 0 }
    drv := { Drive.reset with
      sup := { ReelOut.reset with mode := .torque, torque := 10, engaged := false }
      tup := { ReelOut.reset with mode := .torque, torque := 10, engaged := false } } }

/-- A part in start-up with its settings loaded and its supervisor not started. -/
def tStart : Chip := { Chip.reset with mode := .startup, set := { Store.reset with loaded := true } }

/-- A part with a command in RUN. -/
def tSay (code : Byte) (data : List Byte) (c : Chip) : Chip :=
  { c with mbx := { Mailbox.reset with st := .run, cmd := some ⟨code, false, data.length⟩, data := data } }

/-- A choice that the default profile passes. -/
def tChoice : Choice := ⟨0, 0xF, true, 50000, 2000, 1000⟩

/-- A part with an active grant and a fallback. -/
def tGrant (c : Chip) : Chip :=
  { c with gnt := { c.gnt with active := some ⟨tChoice, 0⟩, fallback := [⟨{ tChoice with maxSpeed := 20000 }, 2⟩] } }

/-- A part that has valid profile 0. -/
def tValid (c : Chip) : Chip :=
  { c with set := { c.set with profs := { Profile.default with valid := true } :: List.replicate 7 Profile.default } }

/-- A record of a kind at a speed. -/
def tRec (k : Kind) (speed : Int) : Record :=
  ⟨withByte0 (BitVec.ofNat 32 (0x70000 + 256 * k.code)) 0x80, wordOfInt speed, 0, 0, 0, 0⟩

/-- A part whose main slot 0 is queued with a record. -/
def tQueued (c : Chip) : Chip :=
  { c with pln := { c.pln with main := (Ring.reset 64).accept (tRec .spool 3000) } }

/-- A segment context. -/
def tSeg (k : Kind) (ph : Phase) (speed : Int) : Seg :=
  { ring := .main, slot := 0, record := tRec k speed, kind := k, dir := dirOf speed, phase := ph
    endStatus := none, clipped := false, timer := none, loc := none }

/-- A DWELL of 50 ms whose timer has run for a time. -/
def tDwell (n : Nat) : Seg :=
  let g := tSeg .dwell .hold 0
  { g with record := { g.record with w4 := 50 }, timer := some n }

/-- A part with a segment current. -/
def tCur (g : Seg) (c : Chip) : Chip := { c with eng := { c.eng with est := .running, cur := some g } }

/-- A part with a cycle of the host's at the memory port. -/
def tPort (cy : Cycle) (c : Chip) : Chip := { c with bus := { c.bus with port := some cy } }

/-- A part with a host cycle at the host port. -/
def tHost (cy : HostCyc) (ph : HostPhase) (c : Chip) : Chip := { c with bus := { c.bus with host := some ⟨cy, ph⟩ } }

/-! ## The check on operands -/

theorem test_wf_refuses_a_slot_beyond_the_urgent_ring : (Instr.handOff .urgent 8 0x80 0xF).wf = false := by decide
theorem test_wf_takes_the_last_urgent_slot : (Instr.handOff .urgent 7 0x80 0xF).wf = true := by decide
theorem test_wf_refuses_a_hand_off_without_the_owner_byte : (Instr.handOff .main 0 0x80 0xE).wf = false := by decide
theorem test_wf_refuses_a_hand_off_to_the_host : (Instr.handOff .main 0 0x10 0xF).wf = false := by decide
theorem test_wf_refuses_a_recall_beyond_the_urgent_ring : (Instr.recall .urgent 63 0 0xF).wf = false := by decide
theorem test_wf_refuses_a_recall_without_the_owner_byte : (Instr.recall .main 0 0 0xE).wf = false := by decide
theorem test_wf_refuses_a_recall_that_gives_the_slot_away : (Instr.recall .main 0 0x80 0xF).wf = false := by decide
theorem test_wf_refuses_a_slot_write_beyond_the_urgent_ring : (Instr.slotOwnedWrite .urgent 8 0 0 0xF).wf = false := by
  decide
theorem test_wf_refuses_a_live_read_of_the_group_head : (Instr.liveWindowRead 4).wf = false := by decide

/-! ## Worked values -/

theorem test_no_word_spells_a_command : decodeTableWord 32 0x80 = none := rfl
theorem test_crc_of_the_nine_digits :
    crc8 [0x31, 0x32, 0x33, 0x34, 0x35, 0x36, 0x37, 0x38, 0x39] = 0xF4 := by decide +kernel

theorem test_crc_of_zeros : ∀ n, crc8 (List.replicate n 0) = 0 := by
  intro n
  induction n with
  | zero => rfl
  | succ n ih => rw [List.replicate_succ]; exact ih

/-- A store of 511 zeros and a last byte. -/
def tStore (last : Byte) : List Byte := List.replicate 511 0 ++ [last]

theorem test_zeros_before_a_byte (n : Nat) (b : Byte) :
    (List.replicate n 0 ++ [b]).take n = List.replicate n (0 : Byte) ∧ (List.replicate n 0 ++ [b]).getD n 0 = b := by
  constructor
  · rw [List.take_append_of_le_length (by simp), List.take_of_length_le (by simp)]
  · simp [List.getD_eq_getElem?_getD]

theorem test_store_passes_by_its_last_byte (b : Byte) : storePasses (tStore b) = ((0 : Byte) == b) := by
  unfold storePasses tStore
  rw [(test_zeros_before_a_byte 511 b).1, (test_zeros_before_a_byte 511 b).2, test_crc_of_zeros]

theorem test_radius_estimates : radiusOf 3770 = 750 ∧ radiusOf 1130 = 225 ∧ radiusOf 9050 = 1800 ∧ radiusOf 0 = 200 ∧
    radiusOf 20000 = 2000 := by decide +kernel
theorem test_tombstone_shows_down : tombstone.head? = some ⟨0, 0x0000000F, 0xF⟩ ∧ tombstone.length = 64 := by decide +kernel
theorem test_image_is_128_words : Store.reset.imageWrites.length = 128 := by decide +kernel
theorem test_little_endian_word : wordOf 0x11 0x22 0x33 0x44 = 0x44332211 := by decide
theorem test_disabled_bytes_stand : merge 0x5 0xAABBCCDD 0x11223344 = 0x11BB33DD := by decide

/-! ## The queue and what always stands -/

theorem witness_StepRunsFront : ∃ (s : State) (i : Instr) (rest : List Instr), s.pending = i :: rest :=
  ⟨{ State.reset with pending := [.capstanPulse] }, _, _, rfl⟩

theorem witness_StepKeeps : ∃ s t : State, MemoryOk s ∧ NoticesOk s ∧ BrakesOk s ∧ TorquesOk s ∧ PinchOk s ∧ PositionOk s ∧
    ValidOk s ∧ TrimOk s ∧ QueueOk s ∧ LocateOk s ∧ s.pending ≠ [] ∧ step s = .next t :=
  ⟨{ tSt (tIn .held) with pending := [.capstanPulse], mem := [(5, 1)] }, _, by unfold MemoryOk; decide,
    by unfold NoticesOk; decide, by unfold BrakesOk; decide, by unfold TorquesOk ReelOut.torqueOk; decide,
    by unfold PinchOk; decide, by unfold PositionOk; decide, by unfold ValidOk; decide, by unfold TrimOk; decide,
    by unfold QueueOk; decide, by unfold LocateOk; decide, by decide, rfl⟩

/-- A stopping part in overrun, its last urgent slot and first three main slots queued. -/
def tFull : Chip :=
  { tIn .stopping with
    pln := { tRun.pln with
      urgent := ⟨List.replicate 7 ⟨.host, none⟩ ++ [⟨.queued, none⟩], 0, 7, 1⟩
      main := ⟨List.replicate 3 ⟨.queued, none⟩ ++ List.replicate 61 ⟨.host, none⟩, 3, 0, 3⟩ }
    evt := { EventWriter.reset with write := 3, consumed := 4, overrun := true, dropped := 1 } }

theorem test_rings_of_tFull : tFull.pln.urgent.Ok 8 ∧ tFull.pln.main.Ok 64 := by
  have u : ∀ i, i < 8 → ((tFull.pln.urgent.slot i).view = .queued ↔ ∃ k, k < 1 ∧ i = (7 + k) % 8) := by decide +kernel
  have m : ∀ i, i < 64 → ((tFull.pln.main.slot i).view = .queued ↔ ∃ k, k < 3 ∧ i = (0 + k) % 64) := by decide +kernel
  exact ⟨⟨by decide +kernel, by decide, by decide, by decide, u⟩, ⟨by decide +kernel, by decide, by decide, by decide, m⟩⟩

theorem witness_StepKeepsPlan : ∃ s t : State, PlanOk s ∧ s.chip.pln.main.queued = 3 ∧ s.pending ≠ [] ∧ step s = .next t := by
  refine ⟨{ tSt tFull with pending := [.capstanPulse] }, _, ?_, rfl, by decide, rfl⟩
  have none : tFull.eng.cur = none := rfl
  have fetch : tFull.pln.fetch = Option.none := rfl
  have port : tFull.bus.port = Option.none := rfl
  have urgent : ∀ i, i < 8 → (tFull.pln.urgent.slot i).view ≠ .current := by decide +kernel
  have main : ∀ i, i < 64 → (tFull.pln.main.slot i).view ≠ .current := by decide +kernel
  refine ⟨test_rings_of_tFull.1, test_rings_of_tFull.2, fun g h => ?_, fun id i hi => ?_, fun h => ?_, fun _ => rfl,
    by decide, by decide, fun g h => ?_, fun a w d b y h => ?_, fun h => absurd rfl h⟩
  · exact absurd (none.symm.trans h) (by simp)
  · refine ⟨fun h => ?_, fun ⟨g, h, _⟩ => absurd (none.symm.trans h) (by simp)⟩
    cases id
    · exact absurd h (urgent i hi)
    · exact absurd h (main i hi)
  · exact absurd (Or.inr (Or.inr rfl)) h
  · exact absurd (fetch.symm.trans h) (by simp)
  · exact absurd (port.symm.trans h) (by simp)

/-- A part with its plan and its path in reset and its supervisor not started keeps the laws of the plan. -/
theorem test_plan_before_the_start (c : Chip) (hp : c.pln = .reset) (he : c.eng.cur = none) (hg : c.gnt.active = none)
    (hs : c.sup = .reset) (hb : c.bus = .reset) : PlanOk (tSt c) := by
  have u : ∀ i, i < 8 → ((Plan.reset.urgent.slot i).view = .queued ↔ ∃ k, k < 0 ∧ i = (0 + k) % 8) := by decide +kernel
  have m : ∀ i, i < 64 → ((Plan.reset.main.slot i).view = .queued ↔ ∃ k, k < 0 ∧ i = (0 + k) % 64) := by decide +kernel
  have u' : ∀ i, i < 8 → (Plan.reset.urgent.slot i).view ≠ .current := by decide +kernel
  have m' : ∀ i, i < 64 → (Plan.reset.main.slot i).view ≠ .current := by decide +kernel
  refine ⟨?_, ?_, fun g h => ?_, fun id i hi => ?_, fun _ => ⟨?_, ?_, he, hg⟩, fun _ => he, fun _ => ?_, fun h => ?_,
    fun g h => ?_, fun a w d b y h => ?_, fun h => ?_⟩
  all_goals simp only [tSt, hp, hs, hb] at *
  · exact ⟨by decide +kernel, by decide, by decide, by decide, u⟩
  · exact ⟨by decide +kernel, by decide, by decide, by decide, m⟩
  · simp [he] at h
  · cases id
    · exact ⟨fun h => absurd h (u' i hi), fun ⟨g, h, _⟩ => by simp [he] at h⟩
    · exact ⟨fun h => absurd h (m' i hi), fun ⟨g, h, _⟩ => by simp [he] at h⟩
  · rfl
  · rfl
  · rfl
  · exact absurd h (by decide)
  · exact absurd h (by simp [Plan.reset])
  · exact absurd h (by simp [Bus.reset])
  · exact absurd rfl h

theorem witness_StepKeepsEventsAndLocate :
    (∃ s t : State, EventsOk s ∧ s.chip.evt.overrun = true ∧ s.pending ≠ [] ∧ step s = .next t) ∧
    (∃ s t : State, LocateOk s ∧ s.chip.locateCurrent = true ∧ s.pending ≠ [] ∧ step s = .next t) :=
  ⟨⟨{ tSt tFull with pending := [.capstanPulse] }, _, by constructor <;> decide, rfl, by decide, rfl⟩,
    ⟨{ tSt (tCur (tSeg .locate .brake 9000) (tIn .moving)) with pending := [.capstanPulse] }, _, by unfold LocateOk; decide,
      by decide, by decide, rfl⟩⟩

theorem witness_EndOfCommand :
    (∃ c : Chip, c.sup.up = false ∧ c.drv.carry ≠ .none ∧ c.drv.sup.mode ≠ .torque ∧ c.drv.tup.mode ≠ .torque) ∧
    (∃ (c : Chip) (g : Seg), c.sup.up = true ∧ c.drv.carry = .none ∧ c.sup.ts = .moving ∧ c.eng.cur = some g ∧
      g.kind = .play) ∧
    (∃ (c : Chip) (g : Seg), c.sup.up = true ∧ c.drv.carry = .none ∧ c.sup.ts = .moving ∧ c.eng.cur = some g ∧
      g.kind ≠ .play ∧ g.phase ≠ .release ∧ c.profile.lifterSpeed + 1 = c.eng.ref.natAbs) ∧
    (∃ c : Chip, c.sup.up = true ∧ c.drv.carry = .none ∧ c.sup.ts = .moving ∧ c.eng.cur = none ∧ c.eng.est = .starved ∧
      c.eng.ref.natAbs = c.profile.lifterSpeed) :=
  ⟨⟨{ tStart with drv := { Drive.reset with carry := .held } }, by decide⟩,
    ⟨tCur (tSeg .play .capstan 3810) (tIn .moving), tSeg .play .capstan 3810, by decide +kernel⟩,
    ⟨{ tIn .moving with eng := { Engine.reset with est := .running, cur := some (tSeg .spool .run 9000), ref := 8001 } },
      tSeg .spool .run 9000, by decide +kernel⟩,
    ⟨{ tIn .moving with eng := { Engine.reset with est := .starved, ref := -8000 } }, by decide +kernel⟩⟩

theorem test_lifters_at_the_lifter_speed :
    (done { tIn .moving with eng := { Engine.reset with est := .starved, ref := -8000 } }).drv.lifters = .down ∧
    (done { tIn .moving with eng := { Engine.reset with est := .starved, ref := -8001 } }).drv.lifters = .up := by
  decide +kernel

/-- A driven part in a state, the supply arm at a reading, the tape at so many counts in the last millisecond. -/
def tPull (ts : TState) (arm : BitVec 12) (counts : Int) (tension : Ramp) : Chip :=
  { tIn ts with
    trk := { (tIn ts).trk with
      sup := { ReelMeasure.reset with arm := arm, radius := 1000 }, rollWin := counts :: List.replicate 39 0 }
    sup := { (tIn ts).sup with tension := tension } }

theorem witness_TensionAndTorque :
    (∃ r : Ramp, r.den ≠ 0 ∧ r.elapsed = 249) ∧ (∃ r : Ramp, r.den ≠ 0 ∧ r.elapsed = 250) ∧
    (∃ (x : Supervisor) (n : TState), n = .slacking ∧ x.ts ≠ .catching) ∧
    (∃ (x : Supervisor) (n : TState), n = .slacking ∧ x.ts = .catching) ∧
    (∀ ts : TState, ∃ c : Chip, c.sup.up = true ∧ c.sup.ts = ts) ∧
    (∃ (c : Chip) (g : Seg), c.sup.up = true ∧ c.sup.ts = .moving ∧ c.eng.cur = some g ∧ g.kind = .wind) ∧
    (∃ c : Chip, c.sup.up = true ∧ c.sup.ts = .catching ∧ c.sup.claimPending = true) ∧
    (∃ c : Chip, c.sup.up = true ∧ c.drv.carry = .none ∧ ((done c).drv.reel .supply).mode = .torque ∧
      (done c).sup.tension.value.1 = 0) ∧
    (∀ arm ∈ [2049, 2050, 2051], ∃ c : Chip, c.sup.up = true ∧ c.drv.carry = .none ∧ c.sup.ts = .held ∧
      ((done c).drv.reel .supply).mode = .torque ∧ (done c).sup.tension.value.1 ≠ 0 ∧
      2 * (c.trk.reel .supply).arm.toNat + 4100 = 2 * arm + c.profile.low + c.profile.high) ∧
    (∀ n ∈ [-1, 0, 1], ∃ c : Chip, c.sup.up = true ∧ c.drv.carry = .none ∧ c.sup.ts = .moving ∧ c.drv.capRun = false ∧
      ((done c).drv.reel .supply).mode = .torque ∧ (done c).sup.tension.value.1 ≠ 0 ∧
      2 * (c.trk.reel .supply).arm.toNat = c.profile.low + c.profile.high ∧ c.eng.ref = 0 ∧
      c.trk.rollWin.sum = n) := by
  refine ⟨⟨⟨1, 2, 60, 249⟩, by decide⟩, ⟨⟨1, 2, 60, 250⟩, by decide⟩, ⟨(tIn .held).sup, .slacking, by decide⟩,
    ⟨(tIn .catching).sup, .slacking, by decide⟩, fun ts => ⟨tIn ts, rfl, rfl⟩,
    ⟨tCur (tSeg .wind .run 3000) (tIn .moving), tSeg .wind .run 3000, by decide⟩,
    ⟨{ tIn .catching with sup := { (tIn .catching).sup with claimPending := true } }, by decide⟩,
    ⟨tPull .slacking 2050 0 .zero, by decide +kernel⟩, fun arm h => ?_, fun n h => ?_⟩
  · simp only [List.mem_cons, List.not_mem_nil, or_false] at h
    rcases h with rfl | rfl | rfl
    exacts [⟨tPull .held 2049 0 (Ramp.at (60, 1)), by decide +kernel⟩, ⟨tPull .held 2050 0 (Ramp.at (60, 1)), by decide +kernel⟩,
      ⟨tPull .held 2051 0 (Ramp.at (60, 1)), by decide +kernel⟩]
  · simp only [List.mem_cons, List.not_mem_nil, or_false] at h
    rcases h with rfl | rfl | rfl
    exacts [⟨tPull .moving 2050 (-1) (Ramp.at (110, 1)), by decide +kernel⟩,
      ⟨tPull .moving 2050 0 (Ramp.at (110, 1)), by decide +kernel⟩, ⟨tPull .moving 2050 1 (Ramp.at (110, 1)), by decide +kernel⟩]

theorem test_tension_and_torque :
    (⟨0, 1, 60, 125⟩ : Ramp).value.1 = 30 * (⟨0, 1, 60, 125⟩ : Ramp).value.2 ∧
    (done (tPull .held 2050 0 (Ramp.at (60, 1)))).drv.sup.torque = 60000 ∧
    (done (tPull .slacking 2050 0 .zero)).drv.sup.torque = 0 := by decide +kernel

/-- A queued part write of a test. -/
def tWrite : PartWrite := ⟨0x4000, 7, 0xF⟩

/-- A part with a host cycle waiting at the arbiter over a queue. -/
def tArb (n : Nat) (q : List PartWrite) : Chip :=
  { tRun with bus := { Bus.reset with queue := q, passOver := n, host := some ⟨⟨0x8000, false, 0, 0xF⟩, .ready 0 0xF⟩ } }

/-- A part with a held read of a word whose last waiting write has been made, over a queue of another word's write. -/
def tDue (n : Nat) : Chip :=
  { tRun with bus := { Bus.reset with queue := [tWrite], passOver := n, host := some ⟨⟨0x2000, false, 0, 0xF⟩, .held⟩ } }

theorem witness_ArbiterGrants :
    (∃ (c : Chip) (r : Cycle), c.bus.port = none ∧ (HandFetch.next? c).or ((mailNext? c).or (sweepNext? c)) = some r) ∧
    (∃ (c : Chip) (h : Cycle), c.bus.port = none ∧ (HandFetch.next? c).or ((mailNext? c).or (sweepNext? c)) = none ∧
      hostNext? c = some h ∧ c.bus.passOver = 5 ∧ c.bus.queue ≠ []) ∧
    (∃ (c : Chip) (h : Cycle), c.bus.port = none ∧ (HandFetch.next? c).or ((mailNext? c).or (sweepNext? c)) = none ∧
      hostNext? c = some h ∧ c.bus.passOver = 6 ∧ c.bus.queue ≠ []) ∧
    (∃ (c : Chip) (h : Cycle), c.bus.port = none ∧ (HandFetch.next? c).or ((mailNext? c).or (sweepNext? c)) = none ∧
      hostNext? c = some h ∧ c.bus.passOver = 6 ∧ c.bus.queue = []) ∧
    (∃ c : Chip, c.bus.port = none ∧ (HandFetch.next? c).or ((mailNext? c).or (sweepNext? c)) = none ∧
      hostNext? c = none ∧ c.bus.queue = []) ∧
    (∀ n ∈ [5, 6], ∃ c : Chip, c.bus.port = none ∧ (HandFetch.next? c).or ((mailNext? c).or (sweepNext? c)) = none ∧
      hostNext? c = none ∧ c.bus.queue ≠ [] ∧ releaseDue c = true ∧ c.bus.passOver = n) :=
  ⟨⟨{ tRun with pln := { Plan.reset with sweep := some 71 } }, .sweepRead 0x27E0 71, by decide +kernel⟩,
    ⟨tArb 5 [tWrite], .host 0x8000 false 0 0xF false, by decide +kernel⟩,
    ⟨tArb 6 [tWrite], .host 0x8000 false 0 0xF false, by decide +kernel⟩,
    ⟨tArb 6 [], .host 0x8000 false 0 0xF false, by decide +kernel⟩, ⟨tRun, by decide +kernel⟩,
    fun n h => by
      simp only [List.mem_cons, List.not_mem_nil, or_false] at h
      rcases h with rfl | rfl
      · exact ⟨tDue 5, by decide +kernel⟩
      · exact ⟨tDue 6, by decide +kernel⟩⟩

theorem test_arbiter_passes_the_queue_over_six_times :
    (arbitrate (tArb 5 [tWrite])).bus.port = some (.host 0x8000 false 0 0xF false) ∧
    (arbitrate (tArb 5 [tWrite])).bus.passOver = 6 ∧
    (arbitrate (tArb 6 [tWrite])).bus.port = some (.part 0x4000 tWrite) := by decide +kernel

/-- The example of chapter 9: the write that held the read completes, and the read goes to memory before the next write. -/
theorem test_the_released_read_goes_before_the_queue :
    (tAfter .memoryCycleDone (tSt (tPort (.part 0x2000 ⟨0x2000, 5, 0xF⟩) { tDue 0 with
      bus := { (tDue 0).bus with queue := [⟨0x2000, 5, 0xF⟩, tWrite] } }))).bus = (tDue 0).bus ∧
    (tAfter .heldCycleRelease (tSt (tDue 0))).bus.port = some (.host 0x2000 false 0 0xF false) ∧
    (arbitrate (tDue 6)).bus.port = some (.part 0x4000 tWrite) := by decide +kernel

/-! ## The tape path -/

/-- A running part with the counter at a place. -/
def tAt (p : Int) (valid : Bool) : State := tSt { tRun with trk := { Tracker.reset with position := p, valid := valid } }

/-- A moving part with a segment current at a reference speed, the counter at a place. -/
def tGo (g : Seg) (ref pos : Int) : Chip :=
  { tIn .moving with
    trk := { (tIn .moving).trk with position := pos }
    eng := { Engine.reset with est := .running, cur := some g, ref := ref } }

/-- A segment that ends at a position. -/
def tEnd (k : Kind) (ph : Phase) (target : Int) : Seg :=
  let g := tSeg k ph 3000
  { g with record := { g.record with w0 := g.record.w0 ||| 0x8000, w3 := wordOfInt target } }

/-- A LOCATE in a phase. -/
def tLocIn (ph : Phase) (target : Int) : Seg := { tSeg .locate ph 9000 with loc := some ⟨target, 5, 9000, 1⟩ }

theorem witness_RollerCountTaken_tracker :
    (∃ s : State, s.chip.eng.cur = none ∧ s.chip.eng.moveReq = false ∧ s.chip.mode ≠ .running) ∧
    (∀ v : Bool, ∃ s : State, s.chip.eng.cur = none ∧ s.chip.eng.moveReq = false ∧ s.chip.mode = .running ∧
      s.chip.trk.sticks .forward = true ∧ s.chip.trk.valid = v) ∧
    (∃ s : State, s.chip.eng.cur = none ∧ s.chip.eng.moveReq = false ∧ s.chip.mode = .running ∧
      s.chip.trk.endFlag ≠ .none ∧ (s.chip.trk.count s.chip.pins.leader .reverse).endFlag = .none) ∧
    (∃ t : Tracker, 16777215 = t.position) ∧ (∃ t : Tracker, t.position = 16777214 ∧ ¬ 16777215 ≤ t.position) ∧
    (∃ t : Tracker, t.position = -16777216) ∧ (∃ t : Tracker, t.position = -16777215 ∧ ¬ t.position ≤ -16777216) ∧
    (∃ (t : Tracker) (m : RevMeasure), t.endFlag = .none ∧ t.rollWin ≠ [] ∧ (t.reel .supply).rev = some m ∧
      (t.count false .forward).tapeSpeed = 468) ∧
    (∀ f : Option Dir, ∃ (t : Tracker) (m : RevMeasure), (t.reel .supply).rev = some m ∧ m.first = f ∧
      (t.count false .forward).tapeSpeed = 500) := by
  refine ⟨⟨tSt tStart, by decide⟩, fun v => ⟨tAt 16777215 v, by cases v <;> decide⟩,
    ⟨tSt { tRun with trk := { Tracker.reset with endFlag := .forwardEnd, clearing := 79 } }, by decide +kernel⟩,
    ⟨{ Tracker.reset with position := 16777215 }, rfl⟩, ⟨{ Tracker.reset with position := 16777214 }, by decide⟩,
    ⟨{ Tracker.reset with position := -16777216 }, rfl⟩, ⟨{ Tracker.reset with position := -16777215 }, by decide⟩,
    ⟨{ Tracker.reset with
        rollWin := 14 :: List.replicate 39 0, sup := { ReelMeasure.reset with rev := some ⟨3, 4, none⟩ } },
      ⟨3, 4, none⟩, by decide +kernel⟩,
    fun f => ⟨{ Tracker.reset with
        rollWin := 15 :: List.replicate 39 0, sup := { ReelMeasure.reset with rev := some ⟨3, 4, f⟩ } },
      ⟨3, 4, f⟩, rfl, rfl, by cases f <;> [skip; (rename_i d; cases d)] <;> decide +kernel⟩⟩

theorem witness_RollerCountTaken_segment :
    (∃ (g : Seg) (s : State), s.chip.eng.moveReq = false ∧ s.chip.eng.cur = some g ∧ g.kind = .spool ∧ g.phase = .run ∧
      g.record.positionEnd = true ∧ g.dir = some .forward ∧ g.record.target = (s.chip.rolled .forward).trk.position ∧
      dirOf s.chip.eng.ref = some .forward ∧ RunsOut g s.chip) ∧
    (∃ (g : Seg) (s : State), s.chip.eng.moveReq = false ∧ s.chip.eng.cur = some g ∧ g.kind = .play ∧ g.phase = .capstan ∧
      g.record.positionEnd = true ∧ g.dir = some .forward ∧ g.record.target = (s.chip.rolled .forward).trk.position ∧
      s.chip.drv.pinch = .pinched) ∧
    (∃ (g : Seg) (s : State), s.chip.eng.moveReq = false ∧ s.chip.eng.cur = some g ∧ g.kind = .spool ∧ g.phase = .run ∧
      g.record.positionEnd = true ∧ g.dir = some .forward ∧ g.record.target = (s.chip.rolled .forward).trk.position + 1) :=
  ⟨⟨tEnd .spool .run 101, tSt (tGo (tEnd .spool .run 101) 3000 100), by unfold RunsOut; decide +kernel⟩,
    ⟨tEnd .play .capstan 101, tSt { tGo (tEnd .play .capstan 101) 3810 100 with
      drv := { (tIn .moving).drv with capRun := true, pinch := .pinched } }, by decide +kernel⟩,
    ⟨tEnd .spool .run 102, tSt (tGo (tEnd .spool .run 102) 3000 100), by decide +kernel⟩⟩

theorem witness_RollerCountTaken_locate :
    (∃ (g : Seg) (s : State), s.chip.eng.moveReq = false ∧ s.chip.eng.cur = some g ∧ g.kind = .locate ∧
      s.chip.trk.valid = true ∧ (s.chip.rolled .forward).trk.valid = false ∧ RunsOut g s.chip) ∧
    (∀ ph : Phase, ∃ (g : Seg) (l : Loc) (s : State), s.chip.eng.moveReq = false ∧ s.chip.eng.cur = some g ∧
      g.kind = .locate ∧ g.loc = some l ∧ g.phase = ph ∧ (s.chip.rolled .forward).trk.valid = true ∧
      (l.target - (s.chip.rolled .forward).trk.position).natAbs = l.tolerance) ∧
    (∀ far ∈ [false, true], ∃ (g : Seg) (l : Loc) (s : State), s.chip.eng.moveReq = false ∧ s.chip.eng.cur = some g ∧
      g.kind = .locate ∧ g.loc = some l ∧ g.phase = .approach ∧ (s.chip.rolled .forward).trk.valid = true ∧
      l.tolerance < (l.target - (s.chip.rolled .forward).trk.position).natAbs ∧ g.dir = some .forward ∧
      dirOf s.chip.eng.ref = g.dir ∧ (s.chip.rolled .forward).trk.position < l.target ∧
      (let c := s.chip.rolled .forward
       let k := 25 * effectiveAccel c
       decide (c.eng.ref.natAbs * c.eng.ref.natAbs + c.profile.creepDistance * k <
        (l.target - c.trk.position).natAbs * k) = far)) ∧
    (∃ (g : Seg) (l : Loc) (s : State), s.chip.eng.moveReq = false ∧ s.chip.eng.cur = some g ∧ g.kind = .locate ∧
      g.loc = some l ∧ g.phase = .creep ∧ (s.chip.rolled .forward).trk.valid = true ∧
      l.tolerance + 1 = (l.target - (s.chip.rolled .forward).trk.position).natAbs) := by
  refine ⟨⟨tLocIn .creep 0, tSt (tGo (tLocIn .creep 0) 3000 16777215), by unfold RunsOut; decide +kernel⟩,
    fun ph => ⟨tLocIn ph 106, ⟨106, 5, 9000, 1⟩, tSt (tGo (tLocIn ph 106) 3000 100), by cases ph <;> decide +kernel⟩,
    fun far h => ?_, ⟨tLocIn .creep 107, ⟨107, 5, 9000, 1⟩, tSt (tGo (tLocIn .creep 107) 500 100), by decide +kernel⟩⟩
  simp only [List.mem_cons, List.not_mem_nil, or_false] at h
  rcases h with rfl | rfl
  exacts [⟨tLocIn .approach 600, ⟨600, 5, 9000, 1⟩, tSt (tGrant (tGo (tLocIn .approach 600) 3000 100)), by decide +kernel⟩,
    ⟨tLocIn .approach 700, ⟨700, 5, 9000, 1⟩, tSt (tGrant (tGo (tLocIn .approach 700) 3000 100)), by decide +kernel⟩]

theorem test_roller_count_ends_a_segment :
    (tAfter (.rollerCount .forward) (tSt (tGo (tEnd .spool .run 101) 3000 100))).eng.est = .starved ∧
    (tAfter (.rollerCount .forward) (tSt (tGo (tEnd .spool .run 102) 3000 100))).eng.est = .running ∧
    ((tAfter (.rollerCount .forward) (tSt (tGo (tLocIn .approach 106) 3000 100))).eng.cur.map Seg.phase) = some .brake := by
  decide +kernel

theorem test_roller_count_sticks_at_the_end :
    (tAfter (.rollerCount .forward) (tAt 16777215 true)).trk.position = 16777215 ∧
    (tAfter (.rollerCount .forward) (tAt 16777215 true)).trk.valid = false ∧
    (tAfter (.rollerCount .reverse) (tAt (-16777216) true)).trk.position = -16777216 ∧
    (tAfter (.rollerCount .reverse) (tAt 0 true)).trk.position = -1 := by decide +kernel

/-- A part with a revolution measure of the supply reel. -/
def tRev (n : Nat) : State :=
  tSt { tRun with trk := { Tracker.reset with sup := { ReelMeasure.reset with rev := some ⟨n, 3770, some .forward⟩ } } }

/-- A part whose tape has moved so many counts in the last millisecond. -/
def tFast (n : Int) : State :=
  tSt { tRun with trk := { Tracker.reset with rollWin := n :: List.replicate 39 0 } }

theorem witness_TachPulseTaken :
    (∃ (s : State) (b : Nat) (bs : List Nat), (s.chip.trk.reel .supply).pulses = b :: bs ∧
      (s.chip.trk.reel .supply).rev = none ∧ s.chip.trk.tapeSpeed = 500) ∧
    (∃ s : State, (s.chip.trk.reel .supply).rev = none ∧ s.chip.trk.tapeSpeed = 468) ∧
    (∃ (s : State) (v : RevMeasure), (s.chip.trk.reel .supply).rev = some v ∧ v.pulses + 1 = 255) ∧
    (∃ (s : State) (v : RevMeasure), (s.chip.trk.reel .supply).rev = some v ∧ v.pulses + 1 = 256) ∧
    (∃ n, 200 < radiusOf n ∧ radiusOf n < 2000) ∧ radiusOf 1008 = 201 ∧ radiusOf 10050 = 1999 :=
  ⟨⟨tFast 16, 0, List.replicate 99 0, by decide +kernel⟩, ⟨tFast 15, by decide +kernel⟩,
    ⟨tRev 254, ⟨254, 3770, some .forward⟩, by decide +kernel⟩, ⟨tRev 255, ⟨255, 3770, some .forward⟩, by decide +kernel⟩,
    ⟨3770, by decide +kernel⟩, by decide +kernel, by decide +kernel⟩

theorem test_tach_pulse_completes_a_revolution :
    (tAfter (.tachPulse .supply) (tRev 255)).trk.sup.radius = 750 ∧
    (tAfter (.tachPulse .supply) (tRev 254)).trk.sup.radius = 0 := by decide +kernel

theorem witness_CapstanPulseAndTick :
    (∃ (s : State) (b : Nat) (bs : List Nat), s.chip.drv.capWin = b :: bs) ∧
    (∃ s : State, s.chip.eng.moveReq = false ∧ s.chip.drv.carry ≠ .expired ∧ s.chip.sup.ts ≠ .tripped ∧
      s.chip.sup.ts = .stopping ∧ s.chip.trk.tick.reelsStopped = true ∧ s.chip.eng.ref = 1) ∧
    (∃ s : State, s.chip.eng.moveReq = false ∧ s.chip.drv.carry ≠ .expired ∧ s.chip.sup.ts ≠ .tripped ∧
      s.chip.sup.ts = .catching ∧ s.chip.sup.claimPending = true ∧ s.chip.eng.cur = none) ∧
    (∃ (g : Seg) (s : State), s.chip.eng.moveReq = false ∧ s.chip.drv.carry ≠ .expired ∧ s.chip.sup.ts = .moving ∧
      s.chip.eng.cur = some g ∧ g.phase = .brake ∧ s.chip.eng.ref = 0 ∧ s.chip.trk.tick.tapeSpeed = 31) ∧
    (∃ t : Tracker, t.path = .pending ∧ t.tick.tapeSpeed = 500) ∧ (∃ t : Tracker, t.tick.tapeSpeed = 468) :=
  ⟨⟨tSt tRun, 0, List.replicate 19 0, by decide +kernel⟩,
    ⟨tSt { tIn .stopping with eng := { Engine.reset with est := .halting, ref := 1 } }, by decide +kernel⟩,
    ⟨tSt { tIn .catching with sup := { (tIn .catching).sup with claimPending := true } }, by decide +kernel⟩,
    ⟨tLocIn .brake 106, tSt { tGo (tLocIn .brake 106) 0 100 with
      trk := { (tIn .moving).trk with rollWin := 1 :: List.replicate 39 0 } }, by decide +kernel⟩,
    ⟨{ Tracker.reset with path := .pending, rollWin := 16 :: List.replicate 39 0 }, by decide +kernel⟩,
    ⟨{ Tracker.reset with rollWin := 15 :: List.replicate 39 0 }, by decide +kernel⟩⟩

theorem test_capstan_pulse_with_a_reverse_command :
    (tAfter .capstanPulse (tSt { tRun with drv := { Drive.reset with capRun := true, capSpeed := -3810 } })).drv.measuredCapstan
      = -5 := by decide +kernel

/-- A running part whose debounce has run for a time. -/
def tPend (n : Nat) (c : Chip) : Chip := { c with trk := { c.trk with path := .pending, valid := false, debounce := n } }

theorem witness_PathSensorTaken_present :
    (∃ s : State, s.chip.mode = .running ∧ s.chip.trk.path = .pending ∧ s.chip.trk.debounce = 80 ∧ s.chip.sup.up = false) ∧
    (∃ s : State, s.chip.mode = .running ∧ s.chip.trk.path = .pending ∧ s.chip.trk.debounce = 80 ∧ s.chip.sup.up = true ∧
      s.chip.sup.ts ≠ .unthreaded) ∧
    (∃ s : State, s.chip.mode = .running ∧ s.chip.trk.path = .pending ∧ s.chip.trk.debounce = 80 ∧ s.chip.sup.up = true ∧
      s.chip.sup.ts = .unthreaded ∧ s.chip.gnt.active = none) :=
  ⟨⟨tSt (tPend 80 { tRun with sup := .reset }), by decide +kernel⟩, ⟨tSt (tPend 80 (tIn .tripped)), by decide +kernel⟩,
    ⟨tSt (tPend 80 tRun), by decide +kernel⟩⟩

theorem test_debounce_takes_80_ms :
    (tAfter .pathDebounceExpiry (tSt (tPend 79 tRun))).trk.path = .pending ∧
    (tAfter .pathDebounceExpiry (tSt (tPend 80 tRun))).trk.path = .present ∧
    (tAfter .pathDebounceExpiry (tSt (tPend 80 tRun))).sup.ts = .threaded := by decide +kernel

theorem test_path_present_starts_the_debounce :
    (tAfter .pathSensorPresent (tSt tRun)).trk.path = .pending := by decide +kernel

theorem witness_PathSensorTaken_absent :
    (∃ s : State, s.chip.trk.path = .absent) ∧ (∃ s : State, s.chip.trk.path = .pending) ∧
    (∃ s : State, s.chip.trk.path = .present ∧ s.chip.sup.up = true ∧ s.chip.sup.ts = .threaded) ∧
    (∃ s : State, Tensed s ∧ s.chip.sup.claimPending = false ∧ s.chip.trk.path = .present) :=
  ⟨⟨tSt tRun, by decide⟩, ⟨tSt (tPend 0 tRun), by decide⟩, ⟨tSt (tIn .threaded), by decide⟩,
    ⟨tSt (tIn .catching), by unfold Tensed; decide⟩⟩

theorem test_path_absent_trips_under_tension :
    (tAfter .pathAbsent (tSt (tIn .moving))).sup.ts = .tripped ∧
    (tAfter .pathAbsent (tSt (tIn .moving))).sup.trip = .pathLost ∧
    (tAfter .pathAbsent (tSt (tIn .moving))).trk.position = 100 ∧
    (tAfter .pathAbsent (tSt (tIn .moving))).trk.valid = false := by decide +kernel

/-- A tracker near a flagged end. -/
def tFlag (n : Nat) : Tracker := { Tracker.reset with endFlag := .forwardEnd, clearing := n }

theorem witness_EndFlagSetAndCleared :
    (∃ s : State, s.chip.mode = .running ∧ s.chip.sup.ts ≠ .moving ∧ s.chip.trk.lastDir = some .reverse ∧
      s.chip.pins.leader = false ∧ s.chip.trk.endFlag = .none) ∧
    (∃ s : State, s.chip.mode = .running ∧ s.chip.sup.ts ≠ .moving ∧ s.chip.trk.lastDir = none) ∧
    (∃ (t : Tracker) (d : Dir), t.endFlag = .forwardEnd ∧ d = .reverse ∧ t.clearing + 1 = 79) ∧
    (∃ (t : Tracker) (d : Dir), t.endFlag = .forwardEnd ∧ d = .reverse ∧ t.clearing < 80 ∧ t.clearing + 1 = 80) ∧
    (∃ (t : Tracker) (d : Dir), t.endFlag = .forwardEnd ∧ d = .forward ∧ t.clearing = 0) :=
  ⟨⟨tSt { tRun with trk := { Tracker.reset with lastDir := some .reverse } }, by decide⟩, ⟨tSt tRun, by decide⟩,
    ⟨tFlag 78, .reverse, by decide⟩, ⟨tFlag 79, .reverse, by decide⟩, ⟨tFlag 0, .forward, by decide⟩⟩

/-- A moving part, the tape last seen going forward, with an engine as given. -/
def tForward (e : Engine) : State :=
  tSt { tIn .moving with trk := { (tIn .moving).trk with lastDir := some .forward }, eng := e }

theorem witness_EndFlagSetAndCleared_moving :
    (∃ (g : Seg) (s : State), s.chip.mode = .running ∧ s.chip.sup.up = true ∧ s.chip.sup.ts = .moving ∧
      s.chip.trk.lastDir = some .forward ∧ s.chip.pins.leader = false ∧ s.chip.trk.endFlag = .none ∧
      s.chip.eng.cur = some g ∧ g.kind = .wind ∧ g.phase = .run ∧ g.dir = some .forward ∧ s.chip.eng.ref ≠ 0) ∧
    (∃ (g : Seg) (s : State), s.chip.mode = .running ∧ s.chip.sup.up = true ∧ s.chip.sup.ts = .moving ∧
      s.chip.trk.lastDir = some .forward ∧ s.chip.pins.leader = false ∧ s.chip.trk.endFlag = .none ∧
      s.chip.eng.cur = some g ∧ g.phase ≠ .runout ∧ g.kind = .wind ∧ g.phase = .run ∧ g.dir = some .reverse) ∧
    (∀ est ∈ [EngState.starved, .idle], ∃ s : State, s.chip.mode = .running ∧ s.chip.sup.up = true ∧
      s.chip.sup.ts = .moving ∧ s.chip.trk.lastDir = some .forward ∧ s.chip.pins.leader = false ∧
      s.chip.trk.endFlag = .none ∧ s.chip.eng.cur = none ∧ s.chip.eng.est = est) := by
  refine ⟨⟨tSeg .wind .run 3000, tForward { Engine.reset with est := .running, cur := some (tSeg .wind .run 3000), ref := 3000 },
      by decide +kernel⟩,
    ⟨tSeg .wind .run (-3000), tForward { Engine.reset with est := .running, cur := some (tSeg .wind .run (-3000)) },
      by decide +kernel⟩, fun est _ => ⟨tForward { Engine.reset with est := est }, rfl, rfl, rfl, rfl, rfl, rfl, rfl, rfl⟩⟩

theorem test_an_end_flag_stops_a_spool :
    (tAfter (.endSensorLeader true) (tForward { Engine.reset with est := .running, cur := some (tSeg .spool .run 3000) })).sup.stop
      = .tapeEnd := by decide +kernel

theorem test_end_flag_clears_at_the_80th_count :
    ((tFlag 78).count false .reverse).endFlag = .forwardEnd ∧ ((tFlag 79).count false .reverse).endFlag = .none ∧
    ((tFlag 79).count true .reverse).clearing = 0 ∧ ((tFlag 0).count false .forward).clearing = 0 := by decide +kernel

theorem test_leader_sets_the_flag_of_the_last_direction :
    (tAfter (.endSensorLeader true) (tSt { tRun with trk := { Tracker.reset with lastDir := some .reverse } })).trk.endFlag
      = .reverseEnd := by decide +kernel

theorem witness_ArmSampleTaken :
    (∃ p : Profile, p.slack < p.low ∧ p.low < p.high ∧ p.high < p.overLevel) ∧
    (∃ (s : State) (v : BitVec 12), s.chip.sup.up = true ∧ s.chip.sup.claimPending = false ∧ s.chip.sup.ts.runsBreak = false ∧
      s.chip.sup.threaded = none ∧ v = 0xFFF) ∧
    (∃ (s : State) (v : BitVec 12), s.chip.sup.up = true ∧ s.chip.sup.claimPending = false ∧ s.chip.sup.ts.runsBreak = true ∧
      s.chip.sup.slackArm = false ∧ classOf (s.chip.set.prof 0) v.toNat = .slack) ∧
    (∃ (s : State) (v : BitVec 12), s.chip.sup.up = true ∧ s.chip.sup.claimPending = false ∧ s.chip.sup.ts.runsBreak = true ∧
      s.chip.sup.slackArm = true ∧ s.chip.sup.clsSup = .slack ∧ classOf (s.chip.set.prof 0) v.toNat = .low) :=
  ⟨⟨Profile.default, by decide⟩, ⟨tSt tRun, 0xFFF, by decide⟩, ⟨tSt (tIn .held), 400, by decide +kernel⟩,
    ⟨tSt { tIn .held with sup := { (tIn .held).sup with clsSup := .slack, brk := some 3 } }, 401, by decide +kernel⟩⟩

theorem witness_ArmSampleTaken_excursion :
    (∃ s : State, s.chip.sup.up = true ∧ s.chip.sup.claimPending = false ∧ s.chip.sup.ts = .tensioning ∧
      s.chip.sup.exc = some 3) ∧
    (∃ (s : State) (v : BitVec 12), s.chip.sup.up = true ∧ s.chip.sup.claimPending = false ∧ s.chip.sup.ts = .held ∧
      s.chip.sup.clsSup = .high ∧ s.chip.sup.exc = some 3 ∧ classOf (s.chip.set.prof 0) v.toNat = .inBand) ∧
    (∃ (s : State) (v : BitVec 12), s.chip.sup.up = true ∧ s.chip.sup.claimPending = false ∧ s.chip.sup.ts = .moving ∧
      s.chip.sup.clsSup = .inBand ∧ s.chip.sup.clsTup = .inBand ∧ classOf (s.chip.set.prof 0) v.toNat = .low) ∧
    (∃ (s : State) (v : BitVec 12), s.chip.sup.up = true ∧ s.chip.sup.claimPending = false ∧ s.chip.sup.ts = .stopping ∧
      s.chip.sup.clsSup = .high ∧ classOf (s.chip.set.prof 0) v.toNat = .low) :=
  ⟨⟨tSt { tIn .tensioning with sup := { (tIn .tensioning).sup with exc := some 3 } }, by decide⟩,
    ⟨tSt { tIn .held with sup := { (tIn .held).sup with clsSup := .high, exc := some 3 } }, 2599, by decide +kernel⟩,
    ⟨tSt (tIn .moving), 1500, by decide +kernel⟩,
    ⟨tSt { tIn .stopping with sup := { (tIn .stopping).sup with clsSup := .high } }, 1500, by decide +kernel⟩⟩

theorem test_arm_classes_at_the_levels :
    [400, 401, 1500, 1501, 2599, 2600, 3599, 3600].map (classOf Profile.default) =
      [.slack, .low, .low, .inBand, .inBand, .high, .high, .overLevel] := by decide +kernel

theorem test_arm_sample_starts_the_break_timer :
    (tAfter (.armSample .supply 400) (tSt (tIn .held))).sup.brk = some 0 ∧
    (tAfter (.armSample .supply 401) (tSt (tIn .held))).sup.brk = none := by decide +kernel

theorem test_arm_sample_starts_and_stops_the_excursion_timer :
    (tAfter (.armSample .supply 1500) (tSt (tIn .held))).sup.exc = some 0 ∧
    (tAfter (.armSample .supply 1501) (tSt { tIn .held with
      sup := { (tIn .held).sup with clsSup := .high, exc := some 3 } })).sup.exc = none := by decide +kernel

/-! ## Trips, stops and faults -/

/-- A part whose break timer has run for a time, the supply arm alone SLACK. -/
def tBreak (n : Nat) : State :=
  tSt { tIn .moving with sup := { (tIn .moving).sup with clsSup := .slack, brk := some n } }

/-- A part in a state with both arms in their classes. -/
def tArms (ts : TState) (supply takeup : ArmClass) (brk : Option Nat) : State :=
  tSt { tIn ts with sup := { (tIn ts).sup with clsSup := supply, clsTup := takeup, brk := brk } }

theorem witness_TripsTaken :
    (∀ r : Reel, ∀ both : Bool, ∃ (v : BitVec 12) (i : Fin 8) (s : State), Tensed s ∧ s.chip.sup.claimPending = false ∧
      s.chip.sup.threaded = some i ∧ classOf (s.chip.set.prof i.val) v.toNat = .overLevel ∧
      (match r with | .supply => s.chip.sup.clsTup | .takeup => s.chip.sup.clsSup) = (if both then .overLevel else .inBand) ∧
      s.chip.sup.tense = true) ∧
    (∃ (v : BitVec 12) (i : Fin 8) (s : State), Tensed s ∧ s.chip.sup.claimPending = false ∧ s.chip.sup.threaded = some i ∧
      classOf (s.chip.set.prof i.val) v.toNat = .overLevel ∧ s.chip.sup.ts = .catching ∧ s.chip.sup.tense = false) ∧
    (∃ s : State, Tensed s ∧ s.chip.sup.claimPending = false ∧ s.chip.pins.fltSupply = false ∧ s.chip.pins.fltTup = true) ∧
    (∀ p ∈ [(ArmClass.slack, ArmClass.inBand), (.inBand, .slack), (.slack, .slack)], ∃ (n : Nat) (s : State),
      s.chip.sup.up = true ∧ s.chip.sup.ts.runsBreak = true ∧ s.chip.sup.claimPending = false ∧ s.chip.sup.brk = some n ∧
      s.chip.set.gen.breakTime = n ∧ s.chip.sup.clsSup = p.1 ∧ s.chip.sup.clsTup = p.2) :=
  ⟨fun r both => ⟨3600, 0, tArms .slacking (if both then .overLevel else .inBand) (if both then .overLevel else .inBand) none, by
      cases r <;> cases both <;> (unfold Tensed; decide +kernel)⟩,
    ⟨3600, 0, tSt { tIn .catching with sup := { (tIn .catching).sup with tension := .zero } }, by
      unfold Tensed; decide +kernel⟩,
    ⟨tSt { tIn .held with pins := { noInputs with fltTup := true } }, by unfold Tensed; decide +kernel⟩,
    fun p _ => ⟨20, tArms .moving p.1 p.2 (some 20), rfl, rfl, rfl, rfl, rfl, rfl, rfl⟩⟩

theorem test_both_arms_trip_with_both_sides :
    (tAfter (.armSample .takeup 3600) (tArms .held .overLevel .inBand none)).sup.side = .both ∧
    (tAfter (.armSample .takeup 3600) (tArms .held .inBand .inBand none)).sup.side = .takeup ∧
    (tAfter .breakTimerExpiry (tArms .moving .slack .slack (some 20))).sup.side = .both ∧
    (tAfter .breakTimerExpiry (tArms .moving .inBand .slack (some 20))).sup.side = .takeup := by decide +kernel

theorem test_break_timer_expires_at_the_break_time :
    (tAfter .breakTimerExpiry (tBreak 19)).sup.ts = .moving ∧ (tAfter .breakTimerExpiry (tBreak 20)).sup.ts = .tripped ∧
    (tAfter .breakTimerExpiry (tBreak 20)).sup.trip = .tapeBreak ∧
    (tAfter .breakTimerExpiry (tBreak 20)).sup.side = .supply := by decide +kernel

theorem test_drive_fault_of_both_reels :
    (tAfter (.driveFault .supply) (tSt { tIn .held with pins := { noInputs with fltTup := true } })).sup.side = .both := by
  decide +kernel

theorem witness_PowerFailTaken :
    (∃ s : State, s.chip.pins.powerFail = false ∧ Tensed s ∧ s.chip.sup.claimPending = false ∧
      s.chip.drv.sup.engaged = false ∧ s.chip.drv.tup.engaged = false ∧ s.chip.drv.sup.mode ≠ .off ∧
      s.chip.drv.tup.mode ≠ .off ∧ s.chip.drv.carry = .none) ∧
    (∃ s : State, s.chip.pins.powerFail = false ∧ s.chip.mode = .running ∧ s.chip.sup.up = true ∧
      s.chip.sup.ts = .unthreaded) ∧
    (∃ s : State, s.chip.pins.powerFail = false ∧ s.chip.mode = .running ∧ s.chip.sup.up = true ∧ s.chip.sup.ts = .threaded) ∧
    (∃ s : State, s.chip.pins.powerFail = false ∧ s.chip.mode = .running ∧ s.chip.sup.up = true ∧ s.chip.sup.ts = .tripped) ∧
    (∃ s : State, s.chip.pins.powerFail = true) :=
  ⟨⟨tSt (tIn .tensioning), by unfold Tensed; decide +kernel⟩, ⟨tSt tRun, by decide⟩, ⟨tSt (tIn .threaded), by decide⟩,
    ⟨tSt (tIn .tripped), by decide⟩, ⟨tSt { tRun with pins := { noInputs with powerFail := true } }, by decide⟩⟩

theorem test_power_fail_brakes_a_stopped_transport :
    (tAfter .powerFail (tSt (tIn .held))).sup.trip = .powerLoss ∧ (tAfter .powerFail (tSt (tIn .held))).drv.sup.mode = .off ∧
    (tAfter .powerFail (tSt (tIn .held))).drv.sup.engaged = true := by decide +kernel

theorem witness_CapstanFaultTaken :
    (∃ s : State, s.chip.pins.fltCap = false ∧ s.chip.sup.up = true ∧ s.chip.sup.ts = .moving) ∧
    (∃ s : State, s.chip.pins.fltCap = false ∧ s.chip.sup.up = true ∧ s.chip.sup.ts = .stopping) ∧
    (∃ s : State, s.chip.pins.fltCap = false ∧ s.chip.sup.up = true ∧ s.chip.sup.ts = .tripped) :=
  ⟨⟨tSt (tIn .moving), by decide⟩, ⟨tSt (tIn .stopping), by decide⟩, ⟨tSt (tIn .tripped), by decide⟩⟩

theorem test_capstan_fault_stops_a_moving_transport :
    (tAfter .fltCap (tSt (tIn .moving))).sup.ts = .stopping ∧ (tAfter .fltCap (tSt (tIn .moving))).sup.latch = true ∧
    (tAfter (.faultInputReleased .fltCap) (tSt (tAfter .fltCap (tSt (tIn .moving))))).pins.fltCap = false := by decide +kernel

/-- A part whose excursion timer has run for a time, the supply arm HIGH. -/
def tExc (ts : TState) (n : Nat) : State :=
  tSt (tGrant { tIn ts with sup := { (tIn ts).sup with clsSup := .high, exc := some n } })

theorem witness_ExcursionTaken :
    (∃ (n : Nat) (s : State), s.chip.mode = .running ∧ s.chip.sup.up = true ∧ s.chip.sup.exc = some n ∧
      s.chip.set.gen.excursion = n ∧ s.chip.sup.ts = .held) ∧
    (∃ (n : Nat) (s : State), s.chip.mode = .running ∧ s.chip.sup.up = true ∧ s.chip.sup.exc = some n ∧
      s.chip.set.gen.excursion = n ∧ s.chip.sup.ts = .stopping) ∧
    (∃ (n : Nat) (s : State) (g : Granted) (rest : List Granted), s.chip.mode = .running ∧ s.chip.sup.up = true ∧
      s.chip.sup.exc = some n ∧ s.chip.set.gen.excursion = n ∧ s.chip.sup.ts = .moving ∧ s.chip.gnt.fallback = g :: rest) :=
  ⟨⟨400, tExc .held 400, by decide +kernel⟩, ⟨400, tExc .stopping 400, by decide +kernel⟩,
    ⟨400, tExc .moving 400, ⟨{ tChoice with maxSpeed := 20000 }, 2⟩, [], by decide +kernel⟩⟩

theorem witness_ExcursionTaken_stop :
    ∃ (n : Nat) (s : State) (g : Seg), s.chip.mode = .running ∧ s.chip.sup.up = true ∧ s.chip.sup.exc = some n ∧
      s.chip.set.gen.excursion = n ∧ s.chip.sup.ts = .moving ∧ s.chip.gnt.fallback = [] ∧ s.chip.eng.cur = some g :=
  ⟨400, tSt (tCur (tDwell 0) { tIn .moving with sup := { (tIn .moving).sup with clsSup := .high, exc := some 400 } }), tDwell 0,
    by decide +kernel⟩

theorem test_an_excursion_with_no_fallback_stops :
    (tAfter .excursionTimerExpiry (tSt (tCur (tDwell 0) { tIn .moving with
      sup := { (tIn .moving).sup with clsSup := .high, exc := some 400 } }))).sup.stop = .excursion := by decide +kernel

theorem test_excursion_derates_the_grant :
    ((tAfter .excursionTimerExpiry (tExc .moving 400)).gnt.active.map Granted.position) = some 2 ∧
    ((tAfter .excursionTimerExpiry (tExc .moving 399)).gnt.active.map Granted.position) = some 0 := by decide +kernel

/-- A part whose settle timer has run for a time. -/
def tSettle (n : Nat) (cl : ArmClass) : State :=
  tSt { tIn .tensioning with sup := { (tIn .tensioning).sup with clsTup := cl, settle := some n } }

/-- A part in SLACKING with the reference at 0 and an off-delay setting. -/
def tSlack (delay : Nat) (off : Option OffDelay) : State :=
  tSt { tIn .slacking with
    sup := { (tIn .slacking).sup with tension := .zero, off := off }
    set := { Store.reset with loaded := true, gen := { General.default with offDelay := delay } } }

theorem witness_TensionSequencesEnd :
    (∃ (n : Nat) (s : State), s.chip.mode = .running ∧ s.chip.sup.up = true ∧ s.chip.sup.ts = .tensioning ∧
      s.chip.sup.settle = some n ∧ s.chip.set.gen.settle = n ∧ s.chip.gnt.request = none ∧ s.chip.gnt.active = none ∧
      s.chip.sup.clsSup = .inBand ∧ s.chip.sup.clsTup = .inBand) ∧
    (∃ (n : Nat) (s : State), s.chip.mode = .running ∧ s.chip.sup.up = true ∧ s.chip.sup.ts = .tensioning ∧
      s.chip.sup.settle = some n ∧ s.chip.set.gen.settle = n ∧ s.chip.gnt.request = none ∧ s.chip.gnt.active = none ∧
      s.chip.sup.clsTup = .low) ∧
    (∀ d ∈ [0, 300], ∃ s : State, s.chip.sup.up = true ∧ s.chip.sup.ts = .slacking ∧ s.chip.sup.off = none ∧
      s.chip.drv.carry = .none ∧ s.chip.sup.tension.value.1 = 0 ∧ s.chip.gnt.active = none ∧ s.chip.set.gen.offDelay = d) ∧
    (∃ (o : OffDelay) (s : State), s.chip.sup.up = true ∧ s.chip.sup.ts = .slacking ∧ s.chip.sup.off = some o ∧
      o.limit = o.elapsed ∧ s.chip.gnt.active = none) := by
  refine ⟨⟨800, tSettle 800 .inBand, by decide +kernel⟩, ⟨800, tSettle 800 .low, by decide +kernel⟩, fun d hd => ?_,
    ⟨⟨300, 300⟩, tSlack 300 (some ⟨300, 300⟩), by decide +kernel⟩⟩
  simp only [List.mem_cons, List.not_mem_nil, or_false] at hd
  rcases hd with rfl | rfl
  exacts [⟨tSlack 0 none, by decide +kernel⟩, ⟨tSlack 300 none, by decide +kernel⟩]

/-- A part at the end of its settle time that was asked for a grant of a profile, the take-up arm in a class. -/
def tWaiting (profile : Nat) (cl : ArmClass) : State :=
  let s := tSettle 800 cl
  { s with chip := { tValid s.chip with
    gnt := { GrantUnit.reset with threaded := some 0, request := some [{ tChoice with profile := profile }, tChoice] } } }

theorem witness_TensionSequencesEnd_request :
    ∀ profile ∈ [0, 1, 8], ∀ cl ∈ [ArmClass.inBand, .low], ∃ (n : Nat) (chs : List Choice) (s : State),
      s.chip.mode = .running ∧ s.chip.sup.up = true ∧ s.chip.sup.ts = .tensioning ∧ s.chip.sup.settle = some n ∧
      s.chip.set.gen.settle = n ∧ s.chip.gnt.request = some chs ∧ s.chip.gnt.active = none ∧ s.chip.gnt.trim = 0 ∧
      s.chip.sup.clsSup = .inBand ∧ s.chip.sup.clsTup = cl ∧
      (passedChoices s.chip chs).map Granted.position = (if profile = 0 then [0, 1] else [1]) := by
  intro profile h cl h'
  refine ⟨800, [{ tChoice with profile := profile }, tChoice], tWaiting profile cl, ?_⟩
  simp only [List.mem_cons, List.not_mem_nil, or_false] at h h'
  rcases h with rfl | rfl | rfl <;> rcases h' with rfl | rfl <;> decide +kernel

theorem witness_TensionSequencesEnd_refused :
    ∃ (chs : List Choice) (s : State), s.chip.mode = .running ∧ s.chip.sup.up = true ∧ s.chip.sup.ts = .tensioning ∧
      s.chip.sup.settle = some 800 ∧ s.chip.set.gen.settle = 800 ∧ s.chip.gnt.request = some chs ∧
      s.chip.gnt.active = none ∧ s.chip.gnt.trim = 0 ∧ s.chip.sup.clsSup = .inBand ∧ s.chip.sup.clsTup = .inBand ∧
      passedChoices s.chip chs = [] :=
  ⟨[tChoice], tSt { (tSettle 800 .inBand).chip with
    gnt := { GrantUnit.reset with threaded := some 0, request := some [tChoice] } }, by decide +kernel⟩

theorem test_a_request_is_resolved_at_the_end_of_tensioning :
    (tAfter .settleTimerExpiry (tWaiting 8 .inBand)).evt.posted.map Event.value = [2, 0x151] ∧
    (tAfter .settleTimerExpiry (tWaiting 8 .inBand)).gnt.active = some ⟨tChoice, 1⟩ ∧
    (tAfter .settleTimerExpiry (tWaiting 8 .low)).evt.posted.map Event.detail = [0, 2, 6] := by decide +kernel

theorem test_settle_timer_decides :
    (tAfter .settleTimerExpiry (tSettle 799 .inBand)).sup.ts = .tensioning ∧
    (tAfter .settleTimerExpiry (tSettle 800 .inBand)).sup.ts = .held ∧
    (tAfter .settleTimerExpiry (tSettle 800 .low)).sup.ts = .slacking := by decide +kernel

theorem test_slack_down_ends_in_threaded :
    (tAfter .slackReferenceZero (tSlack 0 none)).sup.ts = .threaded ∧
    (tAfter .slackReferenceZero (tSlack 300 none)).sup.off = some ⟨0, 300⟩ ∧
    (tAfter .offDelayExpiry (tSlack 300 (some ⟨299, 300⟩))).sup.ts = .slacking ∧
    (tAfter .offDelayExpiry (tSlack 300 (some ⟨300, 300⟩))).drv.sup.mode = .off := by decide +kernel

/-! ## Motion -/

/-- A stage with a pinch movement that has lasted its time. -/
def tPinch (p : Pinch) (run held : Bool) (ts : TState) : State :=
  tSt { tRun with
    sup := .reset
    drv := { Drive.reset with
      pinch := p, pinchSpent := 120, pinchTime := 120, capRun := run, capOffHeld := held
      carry := .held, carryRec := some ⟨ts, some 0, (60, 1), 3000⟩ } }

theorem witness_PinchMovementEnds :
    (∃ s : State, s.chip.sup.up = false ∧ s.chip.eng.moveReq = false ∧ s.chip.drv.pinchTime = s.chip.drv.pinchSpent ∧
      s.chip.drv.pinch = .goingIn ∧ s.chip.drv.capRun = true ∧ s.chip.stageState.admitsPinch = true) ∧
    (∃ s : State, s.chip.sup.up = false ∧ s.chip.eng.moveReq = false ∧ s.chip.drv.pinchTime = s.chip.drv.pinchSpent ∧
      s.chip.drv.pinch = .goingIn ∧ s.chip.drv.capRun = false) ∧
    (∃ s : State, s.chip.sup.up = false ∧ s.chip.eng.moveReq = false ∧ s.chip.drv.pinchTime = s.chip.drv.pinchSpent ∧
      s.chip.drv.pinch = .goingIn ∧ s.chip.stageState.admitsPinch = false) ∧
    (∃ s : State, s.chip.sup.up = false ∧ s.chip.eng.moveReq = false ∧ s.chip.drv.pinchTime = s.chip.drv.pinchSpent ∧
      s.chip.drv.pinch = .goingOut ∧ s.chip.drv.capOffHeld = false) ∧
    (∃ s : State, s.chip.sup.up = false ∧ s.chip.eng.moveReq = false ∧ s.chip.drv.pinchTime = s.chip.drv.pinchSpent ∧
      s.chip.drv.pinch = .goingOut ∧ s.chip.drv.capOffHeld = true) :=
  ⟨⟨tPinch .goingIn true false .moving, by decide⟩, ⟨tPinch .goingIn false false .moving, by decide⟩,
    ⟨tPinch .goingIn true false .held, by decide⟩, ⟨tPinch .goingOut true false .moving, by decide⟩,
    ⟨tPinch .goingOut true true .moving, by decide⟩⟩

theorem test_pinch_goes_in_only_where_the_state_admits_it :
    (tAfter .pinchMovementEnd (tPinch .goingIn true false .moving)).drv.pinch = .pinched ∧
    (tAfter .pinchMovementEnd (tPinch .goingIn true false .held)).drv.pinch = .goingOut ∧
    (tAfter .pinchMovementEnd (tPinch .goingOut true true .moving)).drv.capRun = false := by decide +kernel

/-- A play segment at 3810 in a phase, one that ends at a position or not. -/
def tPlays (ph : Phase) (end_ : Option Int) : Seg :=
  let g := match end_ with
    | some p => tEnd .play ph p
    | none => tSeg .play ph 3810
  { g with record := { g.record with w5 := 0x20000 } }

/-- A stage with a pinch movement that has lasted its time, the capstan in RUN or not. -/
def tRoller (p : Pinch) (run held : Bool) : Drive :=
  { (tIn .moving).drv with pinch := p, pinchSpent := 120, pinchTime := 120, capRun := run, capOffHeld := held }

/-- A moving part in a play phase, the pinch moving in, the tape at so many counts in the last millisecond. -/
def tInward (g : Seg) (run : Bool) (counts : Int) : State :=
  tSt { tGo g 3810 100 with
    trk := { (tIn .moving).trk with rollWin := counts :: List.replicate 39 0 }
    drv := { tRoller .goingIn run false with capWin := 0 :: List.replicate 19 0 } }

theorem witness_PlayPhases_in :
    (∀ n ∈ [0, 1], ∃ (g : Seg) (s : State), s.chip.sup.up = true ∧ s.chip.sup.ts = .moving ∧ s.chip.eng.moveReq = false ∧
      s.chip.drv.pinch = .goingIn ∧ s.chip.drv.pinchTime = s.chip.drv.pinchSpent ∧ s.chip.eng.cur = some g ∧
      g.phase = .pinchIn ∧ s.chip.drv.capRun = true ∧ g.record.positionEnd = false ∧ s.chip.drv.capSpeed = 0 ∧
      (s.chip.trk.tapeSpeed - s.chip.drv.measuredCapstan).natAbs = 31 * n) ∧
    (∀ target ∈ [100, 101], ∃ (g : Seg) (s : State), s.chip.sup.up = true ∧ s.chip.sup.ts = .moving ∧
      s.chip.eng.moveReq = false ∧ s.chip.drv.pinch = .goingIn ∧ s.chip.drv.pinchTime = s.chip.drv.pinchSpent ∧
      s.chip.eng.cur = some g ∧ g.phase = .pinchIn ∧ s.chip.drv.capRun = true ∧ g.record.positionEnd = true ∧
      s.chip.trk.position = 100 ∧ g.record.target = target ∧ g.dir = some .forward ∧
      s.chip.trk.tapeSpeed = s.chip.drv.measuredCapstan) ∧
    (∃ (g : Seg) (s : State), s.chip.sup.up = true ∧ s.chip.sup.ts = .moving ∧ s.chip.eng.moveReq = false ∧
      s.chip.drv.pinch = .goingIn ∧ s.chip.drv.pinchTime = s.chip.drv.pinchSpent ∧ s.chip.eng.cur = some g ∧
      g.phase = .pinchIn ∧ s.chip.drv.capRun = false) ∧
    (∀ run : Bool, ∃ s : State, s.chip.sup.up = true ∧ s.chip.sup.ts = .moving ∧ s.chip.eng.moveReq = false ∧
      s.chip.drv.pinch = .goingIn ∧ s.chip.drv.pinchTime = s.chip.drv.pinchSpent ∧ s.chip.eng.cur = none ∧
      s.chip.drv.capRun = run) := by
  refine ⟨fun n h => ?_, fun target h => ?_, ⟨tPlays .pinchIn none, tInward (tPlays .pinchIn none) false 0, by decide +kernel⟩,
    fun run => ⟨tSt { tIn .moving with drv := tRoller .goingIn run false }, rfl, rfl, rfl, rfl, rfl, rfl, rfl⟩⟩
  · simp only [List.mem_cons, List.not_mem_nil, or_false] at h
    rcases h with rfl | rfl
    exacts [⟨tPlays .pinchIn none, tInward (tPlays .pinchIn none) true 0, by decide +kernel⟩,
      ⟨tPlays .pinchIn none, tInward (tPlays .pinchIn none) true 1, by decide +kernel⟩]
  · simp only [List.mem_cons, List.not_mem_nil, or_false] at h
    rcases h with rfl | rfl
    exacts [⟨tPlays .pinchIn (some 100), tInward (tPlays .pinchIn (some 100)) true 0, by decide +kernel⟩,
      ⟨tPlays .pinchIn (some 101), tInward (tPlays .pinchIn (some 101)) true 0, by decide +kernel⟩]

theorem test_the_pinch_check :
    (tAfter .pinchMovementEnd (tInward (tPlays .pinchIn none) true 0)).eng.cur.map Seg.phase = some .capstan ∧
    (tAfter .pinchMovementEnd (tInward (tPlays .pinchIn none) true 1)).sup.stop = .pinchFault ∧
    (tAfter .pinchMovementEnd (tInward (tPlays .pinchIn (some 100)) true 0)).eng.cur.map Seg.phase = some .pinchOut := by
  decide +kernel

/-- A part in a state whose pinch movement out has lasted its time, with an engine as given. -/
def tOutward (ts : TState) (held : Bool) (e : Engine) : State :=
  tSt { tIn ts with drv := tRoller .goingOut true held, eng := e }

/-- A running engine with a segment, at a reference speed. -/
def tRuns (g : Seg) (ref : Int) : Engine := { Engine.reset with est := .running, cur := some g, ref := ref }

theorem witness_PlayPhases_out :
    (∃ s : State, s.chip.sup.up = true ∧ s.chip.eng.moveReq = false ∧ s.chip.drv.pinch = .goingOut ∧
      s.chip.drv.pinchTime = s.chip.drv.pinchSpent ∧ s.chip.eng.haltHold = true ∧ s.chip.sup.ts = .stopping) ∧
    (∃ s : State, s.chip.sup.up = true ∧ s.chip.eng.moveReq = false ∧ s.chip.drv.pinch = .goingOut ∧
      s.chip.drv.pinchTime = s.chip.drv.pinchSpent ∧ s.chip.eng.haltHold = false ∧ s.chip.sup.catchHold = true) ∧
    (∃ (g : Seg) (st : Status) (s : State), s.chip.sup.up = true ∧ s.chip.eng.moveReq = false ∧
      s.chip.drv.pinch = .goingOut ∧ s.chip.drv.pinchTime = s.chip.drv.pinchSpent ∧ s.chip.eng.haltHold = false ∧
      s.chip.sup.catchHold = false ∧ s.chip.eng.cur = some g ∧ g.phase = .pinchOut ∧ g.endStatus = some st ∧
      RunsOut g s.chip) ∧
    (∀ k ∈ [Kind.wind, .spool], ∃ (g : Seg) (s : State), s.chip.sup.up = true ∧ s.chip.eng.moveReq = false ∧
      s.chip.drv.pinch = .goingOut ∧ s.chip.drv.pinchTime = s.chip.drv.pinchSpent ∧ s.chip.eng.haltHold = false ∧
      s.chip.sup.catchHold = false ∧ s.chip.eng.cur = some g ∧ g.phase = .release ∧ g.loc = none ∧ g.kind = k ∧
      g.record.positionEnd = false ∧ g.record.duration = 0 ∧ s.chip.eng.ref ≠ 0 ∧ s.chip.sup.ts = .moving) ∧
    (∀ held : Bool, ∃ s : State, s.chip.sup.up = true ∧ s.chip.eng.moveReq = false ∧ s.chip.drv.pinch = .goingOut ∧
      s.chip.drv.pinchTime = s.chip.drv.pinchSpent ∧ s.chip.eng.haltHold = false ∧ s.chip.sup.catchHold = false ∧
      s.chip.eng.cur = none ∧ s.chip.drv.capOffHeld = held) := by
  refine ⟨⟨tOutward .stopping true { Engine.reset with haltHold := true }, by decide⟩,
    ⟨tSt { (tOutward .catching true .reset).chip with sup := { (tIn .catching).sup with catchHold := true } }, by decide⟩,
    ⟨{ tPlays .pinchOut none with endStatus := some .done }, .done,
      tOutward .moving true (tRuns { tPlays .pinchOut none with endStatus := some .done } 3810), by unfold RunsOut; decide +kernel⟩,
    fun k h => ?_, fun held => ⟨tOutward .held held .reset, rfl, rfl, rfl, rfl, rfl, rfl, rfl, rfl⟩⟩
  simp only [List.mem_cons, List.not_mem_nil, or_false] at h
  rcases h with rfl | rfl
  exacts [⟨tSeg .wind .release 3000, tOutward .moving true (tRuns (tSeg .wind .release 3000) 3810), by decide +kernel⟩,
    ⟨tSeg .spool .release 3000, tOutward .moving true (tRuns (tSeg .spool .release 3000) 3810), by decide +kernel⟩]

theorem test_a_release_ends_with_the_pinch_out :
    (tAfter .pinchMovementEnd (tOutward .moving true (tRuns (tSeg .wind .release 3000) 3810))).eng.cur.map Seg.phase =
      some .run ∧
    (tAfter .pinchMovementEnd (tOutward .moving true (tRuns { tPlays .pinchOut none with endStatus := some .done } 3810))).pln.list
      = [.ret .main 0 .done 100 0] := by decide +kernel

/-- A moving part with a grant, in a play phase, at a reference speed, with the capstan fault asserted or not. -/
def tLead (ph : Phase) (ref : Int) (fault : Bool) : State :=
  tSt { tGrant (tGo (tPlays ph none) ref 100) with pins := { noInputs with fltCap := fault } }

theorem witness_PlayPhases_update :
    ∀ ph ∈ [Phase.leadIn, .pinchIn, .capstan, .pinchOut], ∀ ref ∈ ([3789, 3790] : List Int), ∀ fault : Bool,
      ∃ (g : Seg) (s : State), s.chip.mode ≠ .bypass ∧ s.chip.sup.up = true ∧ s.chip.sup.ts = .moving ∧
        s.chip.eng.est = .running ∧ s.chip.eng.moveReq = false ∧ s.chip.eng.cur = some g ∧ g.kind = .play ∧ g.loc = none ∧
        g.phase = ph ∧ targetSpeed s.chip ≠ 0 ∧ s.chip.drv.pinch = .out ∧ s.chip.pins.fltCap = fault ∧
        s.chip.drv.capRun = false ∧
        (ph ≠ .pinchOut → ((s.chip.eng.move (targetSpeed s.chip) (effectiveAccel s.chip)).ref = targetSpeed s.chip ↔
          ref = 3790)) := by
  intro ph h ref h' fault
  refine ⟨tPlays ph none, tLead ph ref fault, ?_⟩
  simp only [List.mem_cons, List.not_mem_nil, or_false] at h h'
  rcases h with rfl | rfl | rfl | rfl <;> rcases h' with rfl | rfl <;> cases fault <;> decide +kernel

theorem test_a_play_leads_in :
    (tAfter .referenceSpeedUpdate (tLead .leadIn 3789 false)).eng.cur.map Seg.phase = some .leadIn ∧
    (tAfter .referenceSpeedUpdate (tLead .leadIn 3790 false)).eng.cur.map Seg.phase = some .pinchIn ∧
    (tAfter .referenceSpeedUpdate (tLead .leadIn 3790 false)).drv.capSpeed = 3810 ∧
    (tAfter .referenceSpeedUpdate (tLead .leadIn 3790 true)).sup.stop = .pinchFault := by decide +kernel

/-- A stopping part at a reference speed. -/
def tStop (ref : Int) : State :=
  tSt { tGrant (tIn .stopping) with eng := { Engine.reset with est := .halting, ref := ref } }

theorem witness_ReferenceSpeedMoves :
    (∃ (e : Engine) (target : Int) (a : Nat), (target - e.ref).natAbs = (a + e.frac) / 100) ∧
    (∃ (e : Engine) (target : Int) (a : Nat), (a + e.frac) / 100 + 1 = (target - e.ref).natAbs ∧ e.ref < target) ∧
    (∃ (e : Engine) (target : Int) (a : Nat), (a + e.frac) / 100 + 1 = (target - e.ref).natAbs ∧ target ≤ e.ref) ∧
    (∃ (s : State) (g : Granted), s.chip.mode ≠ .bypass ∧ s.chip.sup.up = true ∧ s.chip.sup.ts = .stopping ∧
      s.chip.eng.haltHold = false ∧ s.chip.eng.moveReq = false ∧ s.chip.eng.cur = none ∧ s.chip.gnt.active = some g) ∧
    (∃ s : State, s.chip.sup.up = true ∧ s.chip.sup.ts = .stopping ∧ s.chip.eng.ref = 0 ∧ s.chip.eng.haltHold = false ∧
      s.chip.eng.moveReq = false ∧ s.chip.eng.cur = none ∧ s.chip.drv.carry = .none ∧ s.chip.gnt.request = none ∧
      s.chip.pln.urgent.queued = 0 ∧ s.chip.pln.main.queued = 0 ∧ s.chip.trk.tick.reelsStopped = true) :=
  ⟨⟨{ Engine.reset with ref := 100 }, 120, 2000, by decide⟩, ⟨{ Engine.reset with ref := 100 }, 121, 2000, by decide⟩,
    ⟨{ Engine.reset with ref := 121 }, 100, 2000, by decide⟩, ⟨tStop 500, ⟨tChoice, 0⟩, by decide +kernel⟩,
    ⟨tStop 0, by decide +kernel⟩⟩

theorem test_reference_speed_carries_its_fraction :
    (({ Engine.reset with ref := 100, frac := 60 } : Engine).move 1000 150).ref = 102 ∧
    (({ Engine.reset with ref := 100, frac := 60 } : Engine).move 1000 150).frac = 10 := by decide +kernel

theorem test_controlled_stop_ends_in_held :
    (tAfter .speedWindowTick (tStop 0)).sup.ts = .held ∧ (tAfter .referenceSpeedUpdate (tStop 500)).eng.ref = 480 := by
  decide +kernel

theorem witness_ClockAndTimersTaken_clock : ∃ s : State, s.chip.mode ≠ .bypass ∧ s.chip.eng.moveReq = false ∧ s.chip.eng.cur = none ∧
    s.chip.sup.ts ≠ .moving ∧ s.chip.sup.ts ≠ .stopping ∧ s.chip.sup.ts ≠ .catching := ⟨tSt (tIn .held), by decide⟩

/-- A STARVED part. -/
def tStarved (n : Nat) : State :=
  tSt { tIn .moving with eng := { Engine.reset with est := .starved, ref := 300, held := 300, starve := some n } }

theorem witness_ClockAndTimersTaken_timers :
    (∃ (g : Seg) (n : Nat) (s : State), s.chip.sup.up = true ∧ s.chip.sup.ts = .moving ∧ s.chip.eng.cur = some g ∧
      s.chip.eng.est = .running ∧ s.chip.eng.moveReq = false ∧ g.kind = .dwell ∧ g.phase = .hold ∧ g.timer = some n ∧
      g.record.duration ≠ 0 ∧ g.record.duration = n ∧ s.chip.eng.ref = 0 ∧ s.chip.pln.urgent.queued = 0 ∧
      s.chip.pln.main.queued = 0 ∧ s.chip.gnt.request = none) ∧
    (∃ (n : Nat) (s : State), s.chip.sup.up = true ∧ s.chip.sup.ts = .moving ∧ s.chip.eng.est = .starved ∧
      s.chip.eng.cur = none ∧ s.chip.eng.starve = some n ∧ s.chip.set.gen.starve = n) :=
  ⟨⟨tDwell 50, 50, tSt (tCur (tDwell 50) (tIn .moving)), by decide +kernel⟩, ⟨250, tStarved 250, by decide +kernel⟩⟩

theorem test_a_dwell_ends_at_its_duration :
    (tAfter .durationTimerExpiry (tSt (tCur (tDwell 49) (tIn .moving)))).eng.cur.isSome = true ∧
    (tAfter .durationTimerExpiry (tSt (tCur (tDwell 50) (tIn .moving)))).sup.ts = .held := by decide +kernel

theorem test_starving_stops_the_transport :
    (tAfter .starveTimerExpiry (tStarved 249)).sup.ts = .moving ∧
    (tAfter .starveTimerExpiry (tStarved 250)).sup.stop = .starved := by decide +kernel

/-- A hand-off whose fetch is over. -/
def tFetch (r : Record) : HandFetch :=
  ⟨.main, 0, r.w0, 0xF, [], [(1, r.w1), (2, r.w2), (3, r.w3), (4, r.w4), (5, r.w5)], false⟩

/-- The host port of a hand-off being screened. -/
def tScreening : HostPort := ⟨⟨0x2000, true, (tRec .spool 3000).w0, 0xF⟩, .screening⟩

/-- A part with a hand-off of a record to screen. -/
def tScreen (r : Record) (c : Chip) : State :=
  tSt { c with pln := { c.pln with fetch := some (tFetch r) }, bus := { c.bus with host := some tScreening } }

theorem witness_TakeFromHeld :
    ∃ (h : HandFetch) (p : HostPort) (k : Kind) (s : State), (s.chip.sup.ts = .held ∧ s.chip.eng.est = .idle ∧
      s.chip.eng.cur = none ∧ s.chip.eng.ref = 0 ∧ s.chip.trk.endFlag = .none ∧ s.chip.drv.pinch = .out ∧
      s.chip.pln.fetch = some h ∧ h.todo = [] ∧ s.chip.bus.host = some p ∧
      screen s.chip h.record h.aborted = none ∧ h.ring = .main ∧ h.record.kind? = some k ∧
      (k = .wind ∨ (k = .spool ∧ h.record.positionEnd = false)) ∧ h.record.speed ≠ 0 ∧
      s.chip.pln.urgent.queued = 0 ∧ s.chip.pln.main.queued = 0 ∧
      s.chip.pln.main.take = s.chip.pln.main.intake ∧ s.chip.pln.main.intake < s.chip.pln.main.slots.length) ∧
      ∀ d, dirOf h.record.speed = some d → speedLimit s.chip d ≠ 0 :=
  ⟨tFetch (tRec .spool 3000), tScreening, .spool, tScreen (tRec .spool 3000) (tGrant (tIn .held)), by decide +kernel,
    fun d _ => by cases d <;> decide +kernel⟩

theorem test_a_take_in_held_asks_to_move :
    (tAfter .handOffScreen (tScreen (tRec .spool 3000) (tGrant (tIn .held)))).eng.moveReq = true ∧
    (tAfter .handOffScreen (tScreen (tRec .spool 3000) (tGrant (tIn .held)))).pln.list = [.mark .main 0] ∧
    (tAfter .referenceSpeedUpdate (tSt (tAfter .handOffScreen (tScreen (tRec .spool 3000) (tGrant (tIn .held)))))).sup.ts
      = .moving := by decide +kernel

/-- A hand-off of a record in MOVING, to a ring, with a segment current at a reference speed, a main slot queued or none. -/
def tTakes (id : RingId) (r : Record) (g : Seg) (queued : Bool) (d : Drive) : State :=
  let c := tGrant (tCur g (tIn .moving))
  tSt { c with
    eng := { c.eng with ref := 2000 }
    drv := d
    pln := { (if queued then (tQueued c).pln else c.pln) with fetch := some { tFetch r with ring := id } }
    bus := { c.bus with host := some tScreening } }

/-- A SPOOL with a flag of its record's first word set. -/
def tFlagged (flag : Word) : Record := { tRec .spool 3000 with w0 := (tRec .spool 3000).w0 ||| flag }

theorem test_goes_on (r : Record) (c : Chip) (h : (r.kind? = some .spool ∧ r.speed = 3000 ∧ r.positionEnd = false) ∧
    c.trk.endFlag = .none ∧ limitTarget c 3000 ≠ 0) : GoesOn r .spool c := by
  obtain ⟨⟨hk, hs, hp⟩, he, hl⟩ := h
  exact ⟨⟨hk, by decide⟩, .inr ⟨.inl rfl, by rw [hs]; exact hl⟩, by simp [he], by simp, by simp, by simp [hp], by simp⟩

theorem witness_TakesInMotion_preempts :
    ∀ flag ∈ ([0, 0x2000] : List Word), ∀ x ∈ [(Phase.run, Pinch.out), (.leadIn, .out), (.pinchIn, .goingIn),
      (.capstan, .pinched), (.pinchOut, .goingOut)],
      ∃ (h : HandFetch) (p : HostPort) (g : Seg) (s : State), AcceptsInMotion h p g s ∧ GoesOn h.record .spool s.chip ∧
        h.record.flush = (flag == 0x2000) ∧ s.chip.pln.urgent.queued = 0 ∧
        s.chip.pln.urgent.take = s.chip.pln.urgent.intake ∧
        s.chip.pln.urgent.intake < s.chip.pln.urgent.slots.length ∧ g.slot < (s.chip.pln.ring g.ring).slots.length ∧
        h.ring = .urgent ∧ g.ring = .main ∧ g.phase = x.1 ∧ s.chip.drv.pinch = x.2 ∧ s.chip.pln.main.queued = 1 := by
  intro flag h x h'
  refine ⟨{ tFetch (tFlagged flag) with ring := .urgent }, tScreening, tPlays x.1 none,
    tTakes .urgent (tFlagged flag) (tPlays x.1 none) true { (tIn .moving).drv with pinch := x.2 }, ?_⟩
  simp only [List.mem_cons, List.not_mem_nil, or_false] at h h'
  refine ⟨⟨rfl, ⟨rfl, rfl, rfl⟩, ⟨rfl, rfl, rfl⟩, ?_⟩, test_goes_on _ _ ?_, ?_⟩
  · rcases h with rfl | rfl <;> rcases h' with rfl | rfl | rfl | rfl | rfl <;> decide +kernel
  · rcases h with rfl | rfl <;> rcases h' with rfl | rfl | rfl | rfl | rfl <;> decide +kernel
  · rcases h with rfl | rfl <;> rcases h' with rfl | rfl | rfl | rfl | rfl <;> decide +kernel

/-- A segment of the main ring's slot 5. -/
def tFifth (g : Seg) : Seg := { g with slot := 5 }

theorem witness_TakesInMotion_opens :
    ∀ x ∈ [(Kind.spool, Phase.run), (.dwell, .settle), (.dwell, .hold), (.play, .leadIn)], ∀ ref ∈ ([2000, 9000] : List Int),
      ∃ (h : HandFetch) (p : HostPort) (g : Seg) (s : State), AcceptsInMotion h p g s ∧
        GoesOn h.record .spool s.chip ∧ (s.chip.pln.ring h.ring).queued = 0 ∧ s.chip.pln.urgent.queued = 0 ∧
        (s.chip.pln.ring h.ring).take = (s.chip.pln.ring h.ring).intake ∧
        (s.chip.pln.ring h.ring).intake < (s.chip.pln.ring h.ring).slots.length ∧
        g.slot ≠ (s.chip.pln.ring h.ring).intake ∧ g.slot < (s.chip.pln.ring g.ring).slots.length ∧ h.ring = g.ring ∧
        isOpen g.kind g.record = true ∧ g.kind = x.1 ∧ g.phase = x.2 ∧ s.chip.drv.pinch = .out ∧
        h.record.speed + ref ≠ 0 := by
  intro x h' ref h''
  refine ⟨tFetch (tFlagged 0), tScreening, tFifth (tSeg x.1 x.2 0),
    tTakes .main (tFlagged 0) (tFifth (tSeg x.1 x.2 0)) false (tIn .moving).drv, ?_⟩
  simp only [List.mem_cons, List.not_mem_nil, or_false] at h' h''
  refine ⟨⟨rfl, ⟨rfl, rfl, rfl⟩, ⟨rfl, rfl, rfl⟩, ?_⟩, test_goes_on _ _ ?_, ?_⟩
  · rcases h' with rfl | rfl | rfl | rfl <;> decide +kernel
  · rcases h' with rfl | rfl | rfl | rfl <;> decide +kernel
  · rcases h' with rfl | rfl | rfl | rfl <;> rcases h'' with rfl | rfl <;> decide +kernel

theorem witness_TakesInMotion_waits :
    (∀ pinch ∈ [Pinch.goingIn, .pinched, .goingOut], ∃ (h : HandFetch) (p : HostPort) (g : Seg) (s : State),
      AcceptsInMotion h p g s ∧ h.ring = g.ring ∧ isOpen g.kind g.record = true ∧ g.kind = .play ∧ g.phase ≠ .pinchOut ∧
      s.chip.drv.pinch = pinch) ∧
    (∃ (h : HandFetch) (p : HostPort) (g : Seg) (s : State), AcceptsInMotion h p g s ∧ h.ring = .main ∧ g.ring = .urgent) ∧
    (∃ (h : HandFetch) (p : HostPort) (g : Seg) (s : State), AcceptsInMotion h p g s ∧ h.ring = .main ∧ g.ring = .main ∧
      isOpen g.kind g.record = false) ∧
    (∃ (h : HandFetch) (p : HostPort) (g : Seg) (s : State), AcceptsInMotion h p g s ∧ h.ring = g.ring ∧
      isOpen g.kind g.record = true ∧ g.kind = .play ∧ g.phase = .pinchOut) := by
  refine ⟨fun pinch h => ⟨tFetch (tFlagged 0), tScreening, tFifth (tPlays .capstan none),
    tTakes .main (tFlagged 0) (tFifth (tPlays .capstan none)) false { (tIn .moving).drv with pinch := pinch },
    ⟨rfl, ⟨rfl, rfl, rfl⟩, ⟨rfl, rfl, rfl⟩, by cases pinch <;> decide +kernel⟩, rfl, by decide +kernel, rfl, by decide, rfl⟩,
    ⟨tFetch (tFlagged 0), tScreening, { tSeg .dwell .hold 0 with ring := .urgent },
      tTakes .main (tFlagged 0) { tSeg .dwell .hold 0 with ring := .urgent } false (tIn .moving).drv,
      ⟨rfl, ⟨rfl, rfl, rfl⟩, ⟨rfl, rfl, rfl⟩, by decide +kernel⟩, rfl, rfl⟩,
    ⟨tFetch (tFlagged 0), tScreening, tFifth (tDwell 3),
      tTakes .main (tFlagged 0) (tFifth (tDwell 3)) false (tIn .moving).drv,
      ⟨rfl, ⟨rfl, rfl, rfl⟩, ⟨rfl, rfl, rfl⟩, by decide +kernel⟩, rfl, rfl, by decide +kernel⟩,
    ⟨tFetch (tFlagged 0), tScreening, tFifth (tPlays .pinchOut none),
      tTakes .main (tFlagged 0) (tFifth (tPlays .pinchOut none)) false { (tIn .moving).drv with pinch := .goingOut },
      ⟨rfl, ⟨rfl, rfl, rfl⟩, ⟨rfl, rfl, rfl⟩, by decide +kernel⟩, rfl, by decide +kernel, rfl, rfl⟩⟩

theorem test_an_urgent_slot_preempts_and_flushes :
    (tAfter .handOffScreen (tTakes .urgent (tFlagged 0x2000) (tFifth (tSeg .spool .run 2000)) true (tIn .moving).drv)).pln.list
      = [.ret .main 5 .superseded 100 0, .mark .urgent 0, .ret .main 0 .flushed 100 0] := by decide +kernel

/-- A record of a kind that runs toward an end. -/
def tToward (k : Kind) (d : Dir) : Record :=
  let r := tRec k (signed (some d) 3000)
  if k = .locate then { r with w3 := wordOfInt (100 + signed (some d) 50), w5 := 5, w1 := wordOfInt 9000 }
  else { r with w5 := 0x20000 }

/-- A part in HELD with a grant, an end flagged. -/
def tFlagAt (d : Dir) : Chip :=
  let c := tGrant (tIn .held)
  { c with trk := { c.trk with endFlag := if d = .forward then .forwardEnd else .reverseEnd } }

/-- A segment of main slot 5 whose 50 ms are over, with a flag of its record's first word set. -/
def tTimed (k : Kind) (ph : Phase) (flag : Word) : Seg :=
  let g := tFifth (tSeg k ph 2000)
  { g with record := { g.record with w0 := g.record.w0 ||| flag, w4 := 50 }, timer := some 50 }

theorem witness_TakesAtCompletion_flagged :
    ∀ k ∈ [Kind.spool, .play, .wind, .locate], ∀ d : Dir, ∃ (h : HandFetch) (p : HostPort) (s : State),
      s.chip.mode = .running ∧ s.chip.sup.ts = .held ∧ s.chip.eng.est = .idle ∧ s.chip.eng.cur = none ∧ s.chip.eng.ref = 0 ∧
      s.chip.pln.fetch = some h ∧ h.todo = [] ∧ s.chip.bus.host = some p ∧ screen s.chip h.record h.aborted = none ∧
      h.record.kind? = some k ∧
      (k ≠ .locate ∧ dirOf h.record.speed = some d ∨ k = .locate ∧
        latchLocate s.chip h.record = .inl ⟨h.record.target, 5, 9000, 1⟩ ∧
        dirOf (h.record.target - s.chip.trk.position) = some d) ∧
      s.chip.trk.endFlag = (if d = .forward then .forwardEnd else .reverseEnd) ∧ s.chip.pln.urgent.queued = 0 ∧
      s.chip.pln.main.queued = 0 ∧ (s.chip.pln.ring h.ring).take = (s.chip.pln.ring h.ring).intake ∧
      (s.chip.pln.ring h.ring).intake < (s.chip.pln.ring h.ring).slots.length := by
  intro k hk d
  refine ⟨tFetch (tToward k d), tScreening, tScreen (tToward k d) (tFlagAt d), ?_⟩
  simp only [List.mem_cons, List.not_mem_nil, or_false] at hk
  rcases hk with rfl | rfl | rfl | rfl <;> cases d <;> decide +kernel

theorem witness_TakesAtCompletion_next :
    ∀ x ∈ [(Kind.spool, Phase.run), (.dwell, .hold)], ∃ (g : Seg) (n : Nat) (s : State), s.chip.mode = .running ∧
      s.chip.sup.ts = .moving ∧ s.chip.eng.est = .running ∧ s.chip.eng.cur = some g ∧ g.timer = some n ∧
      g.record.duration ≠ 0 ∧ g.record.duration = n ∧ g.kind = x.1 ∧ g.phase = x.2 ∧ g.record.positionEnd = false ∧
      s.chip.pln.urgent.queued = 0 ∧ s.chip.pln.main.queued = 1 ∧
      s.chip.pln.main.take < s.chip.pln.main.slots.length ∧
      (s.chip.pln.main.slot s.chip.pln.main.take).record = some (tFlagged 0) ∧ g.slot ≠ s.chip.pln.main.take ∧
      GoesOn (tFlagged 0) .spool s.chip := by
  intro x h
  refine ⟨tTimed x.1 x.2 0, 50, tSt (tQueued (tGrant (tGo (tTimed x.1 x.2 0) 2000 100))), ?_⟩
  simp only [List.mem_cons, List.not_mem_nil, or_false] at h
  rcases h with rfl | rfl <;>
    exact ⟨rfl, rfl, rfl, rfl, rfl, by decide +kernel, by decide +kernel, rfl, rfl, by decide +kernel, by decide +kernel,
      by decide +kernel, by decide +kernel, by decide +kernel, by decide +kernel,
      test_goes_on _ _ (by decide +kernel)⟩

theorem witness_TakesAtCompletion_end_of_run :
    ∃ (g : Seg) (n : Nat) (s : State), s.chip.mode = .running ∧ s.chip.sup.ts = .moving ∧ s.chip.eng.est = .running ∧
      s.chip.eng.cur = some g ∧ g.timer = some n ∧ g.record.duration ≠ 0 ∧ g.record.duration = n ∧ g.kind = .spool ∧
      g.phase = .run ∧ g.record.positionEnd = false ∧ s.chip.pln.urgent.queued = 0 ∧ s.chip.pln.main.queued = 0 ∧
      s.chip.eng.ref ≠ 0 ∧ g.record.endOfRun = true :=
  ⟨tTimed .spool .run 0x800, 50, tSt (tGrant (tGo (tTimed .spool .run 0x800) 2000 100)), by decide +kernel⟩

theorem test_takes_at_completion :
    (tAfter .durationTimerExpiry (tSt (tQueued (tGrant (tGo (tTimed .spool .run 0) 2000 100))))).pln.list =
      [.ret .main 5 .done 100 0, .mark .main 0] ∧
    (tAfter .durationTimerExpiry (tSt (tGrant (tGo (tTimed .spool .run 0x800) 2000 100)))).sup.stop = .endOfRun ∧
    (tAfter .handOffScreen (tScreen (tToward .spool .forward) (tFlagAt .forward))).pln.list =
      [.mark .main 0, .ret .main 0 .tapeEnd 100 0] := by decide +kernel

/-- A PLAY of a code at a speed. -/
def tPlay (code : Nat) (speed : Int) : Seg :=
  let g := tSeg .play .capstan speed
  { g with record := { g.record with w5 := BitVec.ofNat 32 (0x10000 * code) } }

/-- A moving part with a grant, both packs at the near margin. -/
def tNear (v : Int) : Chip :=
  let c := tGrant (tGo (tSeg .spool .run v) 0 100)
  { c with trk := { c.trk with
    sup := { ReelMeasure.reset with radius := 450 }, tup := { ReelMeasure.reset with radius := 450 } } }

theorem witness_TargetWithinGrant :
    (∃ c : Chip, c.gnt.active = none ∧ c.eng.cur ≠ none) ∧
    (∀ fwd : Bool, ∃ (c : Chip) (a : Granted), c.gnt.active = some a ∧
      (if fwd then 0 < targetSpeed c ∧ c.trk.sup.radius = Profile.default.hub + Profile.default.nearMargin
       else targetSpeed c < 0 ∧ c.trk.tup.radius = Profile.default.hub + Profile.default.nearMargin) ∧
      c.gnt.threaded = some 0 ∧ c.set.prof 0 = Profile.default) ∧
    (∃ c : Chip, c.eng.cur = none ∧ c.eng.est ≠ .starved) ∧
    (∃ (c : Chip) (g : Seg), c.eng.cur = some g ∧ g.phase = .runout) ∧
    (∃ (c : Chip) (g : Seg), c.eng.cur = some g ∧ g.kind = .dwell ∧ g.phase = .release) ∧
    (∀ d : Dir, ∀ k ∈ [PlayCode.low, .mid, .high, .vari], ∃ g : Seg, g.dir = some d ∧ g.record.playCode? = some k) := by
  refine ⟨⟨tCur (tSeg .spool .run 9000) (tIn .moving), by decide⟩, fun fwd => ?_, ⟨tIn .held, by decide⟩,
    ⟨tCur (tSeg .wind .runout 9000) (tIn .moving), tSeg .wind .runout 9000, by decide⟩,
    ⟨tCur (tSeg .dwell .release 0) (tIn .moving), tSeg .dwell .release 0, by decide⟩, fun d k h => ?_⟩
  · cases fwd
    · exact ⟨tNear (-9000), ⟨tChoice, 0⟩, by decide +kernel⟩
    · exact ⟨tNear 9000, ⟨tChoice, 0⟩, by decide +kernel⟩
  · simp only [List.mem_cons, List.not_mem_nil, or_false] at h
    rcases h with rfl | rfl | rfl | rfl <;> cases d
    exacts [⟨tPlay 1 3800, by decide +kernel⟩, ⟨tPlay 1 (-3800), by decide +kernel⟩, ⟨tPlay 2 3800, by decide +kernel⟩,
      ⟨tPlay 2 (-3800), by decide +kernel⟩, ⟨tPlay 3 3800, by decide +kernel⟩, ⟨tPlay 3 (-3800), by decide +kernel⟩,
      ⟨tPlay 4 3800, by decide +kernel⟩, ⟨tPlay 4 (-3800), by decide +kernel⟩]

theorem test_vari_target_follows_the_trim :
    playTarget { tIn .moving with gnt := { GrantUnit.reset with trim := 350 } } (tPlay 4 3810) = 3943 := by decide +kernel

theorem test_limits_lower_a_target :
    targetSpeed (tCur (tSeg .spool .run 90000) (tGrant (tIn .moving))) = 50000 ∧
    targetSpeed (tCur (tSeg .spool .run (-90000)) (tGrant (tIn .moving))) = -50000 := by decide +kernel

/-- A LOCATE in BRAKE. -/
def tLoc (target : Int) (approach : Nat) : Seg :=
  { tSeg .locate .brake 9000 with loc := some ⟨target, 5, 9000, approach⟩ }

/-- A LOCATE in BRAKE at rest at 100, with an end flagged or not. -/
def tRest (target : Int) (approach : Nat) (flag : EndFlag) : State :=
  let c := tCur (tLoc target approach) (tIn .moving)
  tSt { c with trk := { c.trk with endFlag := flag } }

theorem witness_LocateRetries :
    ∀ x ∈ ([(105, 1, .none), (95, 3, .none), (106, 3, .none), (106, 2, .forwardEnd), (94, 1, .reverseEnd), (106, 2, .none),
      (94, 1, .forwardEnd)] : List (Int × Nat × EndFlag)), ∃ (g : Seg) (l : Loc) (s : State), s.chip.mode = .running ∧
      s.chip.sup.up = true ∧ s.chip.sup.ts = .moving ∧ s.chip.eng.est = .running ∧ s.chip.eng.cur = some g ∧
      g.loc = some l ∧ g.phase = .brake ∧ s.chip.trk.tick.tapeSpeed = 0 ∧ s.chip.trk.tapeSpeed = 0 ∧ s.chip.eng.ref = 0 ∧
      (s.chip.eng.move 0 (effectiveAccel s.chip)).ref = 0 ∧ s.chip.drv.carry ≠ .expired ∧ s.chip.pln.urgent.queued = 0 ∧
      s.chip.pln.main.queued = 0 ∧ s.chip.gnt.request = none ∧ l.target = x.1 ∧ l.approach = x.2.1 ∧ l.tolerance = 5 ∧
      s.chip.trk.position = 100 ∧ s.chip.trk.endFlag = x.2.2 := by
  intro x h
  refine ⟨tLoc x.1 x.2.1, ⟨x.1, 5, 9000, x.2.1⟩, tRest x.1 x.2.1 x.2.2, ?_⟩
  simp only [List.mem_cons, List.not_mem_nil, or_false] at h
  rcases h with rfl | rfl | rfl | rfl | rfl | rfl | rfl <;> decide +kernel

theorem test_a_locate_is_judged_at_rest :
    (tAfter .speedWindowTick (tRest 105 1 .none)).pln.list = [.ret .main 0 .done 100 0] ∧
    (tAfter .speedWindowTick (tRest 106 2 .forwardEnd)).pln.list = [.ret .main 0 .tapeEnd 100 0] ∧
    (tAfter .referenceSpeedUpdate (tRest 106 3 .none)).pln.list = [.ret .main 0 .missed 100 1] ∧
    ((tAfter .referenceSpeedUpdate (tRest 106 2 .none)).eng.cur.map Seg.phase) = some .creep := by decide +kernel

theorem test_locate_within_tolerance_is_done :
    ((judgeBrake (tCur (tLoc 105 2) (tIn .moving))).pln.list) = [.ret .main 0 .done 100 0] ∧
    ((judgeBrake (tCur (tLoc 106 3) (tIn .moving))).pln.list) = [.ret .main 0 .missed 100 0] ∧
    ((judgeBrake (tCur (tLoc 106 2) (tIn .moving))).eng.cur.map Seg.phase) = some .creep := by decide +kernel

/-- The record of a LOCATE of a target, of tolerance 5, or of a cue at an offset. -/
def tWhere (cue : Bool) (target : Int) : Record :=
  let r := tRec .locate 9000
  if cue then { r with w0 := r.w0 ||| 0x4000, w3 := 31, w4 := wordOfInt target } else { r with w3 := wordOfInt target, w5 := 5 }

/-- A part with cue 31 set. -/
def tCueAt (position : Int) (c : Chip) : Chip :=
  { c with cue := ⟨(List.replicate 32 none).set 31 (some ⟨position, 5, 0, 0⟩), []⟩ }

theorem witness_LocateApproach_latch :
    (∃ c : Chip, c.trk.valid = false) ∧ (∃ (c : Chip) (r : Record), c.trk.valid = true ∧ r.useCue = false) ∧
    (∃ (c : Chip) (r : Record), c.trk.valid = true ∧ r.useCue = true ∧ cueOf c r = none) ∧
    (∀ offset ∈ ([0, 1] : List Int), ∃ (c : Chip) (r : Record) (q : Cue), c.trk.valid = true ∧ r.useCue = true ∧
      cueOf c r = some q ∧ q.position + r.offset = 16777215 + offset) ∧
    (∀ offset ∈ ([0, -1] : List Int), ∃ (c : Chip) (r : Record) (q : Cue), c.trk.valid = true ∧ r.useCue = true ∧
      cueOf c r = some q ∧ q.position + r.offset = -16777216 + offset) := by
  refine ⟨⟨tRun, by decide⟩, ⟨tIn .held, tWhere false 500, by decide +kernel⟩, ⟨tIn .held, tWhere true 0, by decide +kernel⟩,
    fun offset h => ?_, fun offset h => ?_⟩
  all_goals simp only [List.mem_cons, List.not_mem_nil, or_false] at h
  · rcases h with rfl | rfl
    exacts [⟨tCueAt 16777215 (tIn .held), tWhere true 0, ⟨16777215, 5, 0, 0⟩, by decide +kernel⟩,
      ⟨tCueAt 16777215 (tIn .held), tWhere true 1, ⟨16777215, 5, 0, 0⟩, by decide +kernel⟩]
  · rcases h with rfl | rfl
    exacts [⟨tCueAt (-16777216) (tIn .held), tWhere true 0, ⟨-16777216, 5, 0, 0⟩, by decide +kernel⟩,
      ⟨tCueAt (-16777216) (tIn .held), tWhere true (-1), ⟨-16777216, 5, 0, 0⟩, by decide +kernel⟩]

theorem witness_LocateApproach_take :
    ∀ target ∈ ([94, 95, 105, 106] : List Int), ∃ (h : HandFetch) (p : HostPort) (l : Loc) (s : State),
      (s.chip.sup.ts = .held ∧ s.chip.eng.est = .idle ∧ s.chip.eng.cur = none ∧ s.chip.eng.ref = 0 ∧
      s.chip.trk.endFlag = .none ∧ s.chip.drv.pinch = .out ∧ s.chip.pln.fetch = some h ∧ h.todo = [] ∧
      s.chip.bus.host = some p ∧ screen s.chip h.record h.aborted = none ∧ h.ring = .main ∧
      h.record.kind? = some .locate ∧ latchLocate s.chip h.record = .inl l ∧ s.chip.pln.urgent.queued = 0 ∧
      s.chip.pln.main.queued = 0 ∧ s.chip.pln.main.take = s.chip.pln.main.intake ∧
      s.chip.pln.main.intake < s.chip.pln.main.slots.length ∧ l.ceiling ≠ 0 ∧ l.target = target ∧ l.tolerance = 5 ∧
      s.chip.trk.position = 100) ∧ ∀ d, speedLimit s.chip d ≠ 0 := by
  intro target h
  refine ⟨tFetch (tWhere false target), tScreening, ⟨target, 5, 9000, 1⟩, tScreen (tWhere false target) (tGrant (tIn .held)), ?_⟩
  simp only [List.mem_cons, List.not_mem_nil, or_false] at h
  rcases h with rfl | rfl | rfl | rfl <;> exact ⟨by decide +kernel, fun d => by cases d <;> decide +kernel⟩

theorem witness_LocateApproach_update :
    (∀ ph ∈ [Phase.approach, .creep, .brake], ∀ target ∈ ([105, 106, 700] : List Int), ∀ ref ∈ ([3000, 9000] : List Int),
      ∃ (g : Seg) (l : Loc) (s : State), s.chip.mode ≠ .bypass ∧ s.chip.sup.up = true ∧ s.chip.sup.ts = .moving ∧
        s.chip.eng.est = .running ∧ s.chip.eng.cur = some g ∧ g.kind = .locate ∧ g.loc = some l ∧ g.phase = ph ∧
        (g.phase ≠ .brake → targetSpeed s.chip ≠ 0) ∧ s.chip.eng.ref = ref ∧ l.target = target ∧ l.tolerance = 5 ∧
        s.chip.trk.position = 100 ∧ g.dir = some .forward ∧
        (s.chip.eng.move (targetSpeed s.chip) (effectiveAccel s.chip)).ref ≠ 0) ∧
    (∃ s : State, s.chip.eng.ref = 9000 ∧ (s.chip.eng.move (targetSpeed s.chip) (effectiveAccel s.chip)).ref = 9000) ∧
    (∃ (g : Seg) (s : State), s.chip.eng.cur = some g ∧ g.phase = .brake ∧ s.chip.eng.ref = 1 ∧ s.chip.trk.tapeSpeed ≠ 0 ∧
      (s.chip.eng.move 0 (effectiveAccel s.chip)).ref = 0) := by
  refine ⟨fun ph h target h' ref h'' => ⟨tLocIn ph target, ⟨target, 5, 9000, 1⟩, tSt (tGrant (tGo (tLocIn ph target) ref 100)), ?_⟩,
    ⟨tSt (tGrant (tGo (tLocIn .approach 700) 9000 100)), by decide +kernel⟩,
    ⟨tLocIn .brake 105, tSt { tGrant (tGo (tLocIn .brake 105) 1 100) with
      trk := { Tracker.reset with position := 100, rollWin := 1 :: List.replicate 39 0 } }, by decide +kernel⟩⟩
  simp only [List.mem_cons, List.not_mem_nil, or_false] at h h' h''
  rcases h with rfl | rfl | rfl <;> rcases h' with rfl | rfl | rfl <;> rcases h'' with rfl | rfl <;> decide +kernel

theorem test_a_locate_is_judged_where_the_speed_changes :
    (tAfter .referenceSpeedUpdate (tSt (tGrant (tGo (tLocIn .approach 105) 9000 100)))).eng.cur.map Seg.phase = some .approach ∧
    (tAfter .referenceSpeedUpdate (tSt (tGrant (tGo (tLocIn .approach 105) 3000 100)))).eng.cur.map Seg.phase = some .brake ∧
    (tAfter .referenceSpeedUpdate (tSt (tGrant (tGo (tLocIn .approach 106) 3000 100)))).eng.cur.map Seg.phase = some .creep := by
  decide +kernel

/-! ## Start-up and resets -/

/-- A part in reset with a host write at the memory port. -/
def tBypassed (ending : Option (BitVec 4)) : Chip :=
  tPort (.host 0x8000 true 5 0xF true) (tHost ⟨0x8000, true, 5, 0xF⟩ .inPort
    { Chip.reset with bus := { Bus.reset with ending := ending } })

/-- A part whose host drives a cycle as the one at its port ends. -/
def tNext (cy : HostCyc) (c : Chip) : Chip := { c with bus := { c.bus with next := some cy } }

theorem witness_PowerOnAndRelease :
    (∃ s : State, s.chip.set.saving = false) ∧
    (∃ s : State, s.chip.mode = .bypass ∧ s.chip.bus.queue = [] ∧ s.chip.bus.wait = [] ∧ s.chip.bus.port = none ∧
      s.chip.bus.host = none) ∧
    (∃ s : State, s.chip.mode = .bypass ∧ s.chip.bus.host ≠ none ∧ s.chip.bus.port ≠ none) ∧
    (∃ (w : BitVec 4) (a : Nat) (data : Word) (be : Enables) (y : Bool) (s : State), s.chip.mode = .bypass ∧
      s.chip.bus.ending = some w ∧ s.chip.bus.port = some (.host a true data be y) ∧ s.chip.bus.next = none) ∧
    (∀ d ∈ [0, 0xFFFF], ∃ (w : BitVec 4) (a : Nat) (data : Word) (be : Enables) (y : Bool) (cy : HostCyc) (s : State),
      s.chip.mode = .bypass ∧ s.chip.bus.ending = some w ∧ s.chip.bus.port = some (.host a true data be y) ∧
      s.chip.bus.next = some cy ∧ cy.write = true ∧ cy.addr.toNat = 0x100000 * w.toNat + d) :=
  ⟨⟨State.reset, by decide +kernel⟩, ⟨State.reset, by decide +kernel⟩, ⟨tSt (tBypassed none), by decide +kernel⟩,
    ⟨3, 0x8000, 5, 0xF, true, tSt (tBypassed (some 3)), by decide +kernel⟩,
    fun d h => ⟨3, 0x8000, 5, 0xF, true, ⟨BitVec.ofNat 24 (0x300000 + d), true, 9, 0xF⟩,
      tSt (tNext ⟨BitVec.ofNat 24 (0x300000 + d), true, 9, 0xF⟩ (tBypassed (some 3))), by
        simp only [List.mem_cons, List.not_mem_nil, or_false] at h
        rcases h with rfl | rfl <;> decide +kernel⟩⟩

theorem test_a_bypass_ends_between_host_cycles :
    (tAfter (.resetNReleased ⟨3, []⟩) (tSt (tBypassed none))).mode = .bypass ∧
    (tAfter .memoryCycleDone (tSt (tBypassed (some 3)))).mode = .startup ∧
    (tAfter .memoryCycleDone (tSt (tNext ⟨0x300000, true, 9, 0xF⟩ (tBypassed (some 3))))).bus.host = none := by decide +kernel

theorem test_release_samples_the_window_base :
    (tAfter (.resetNReleased ⟨3, []⟩) State.reset).bus.port = some (.part 0x300000 ⟨0, 15, 0xF⟩) ∧
    (tAfter (.resetNReleased ⟨3, [[(7, 9)]]⟩) State.reset).set.coming = [[(7, 9)]] ∧
    (tAfter (.resetNReleased ⟨3, []⟩) State.reset).bus.startCount = 1 := by decide +kernel

theorem test_power_on_starts_the_debounce :
    (tAfter (.powerOn { noInputs with path := true }) State.reset).trk.path = .pending := by decide +kernel

/-- A part in reset with a carry held for a time. -/
def tCarry (ts : TState) (n : Nat) : State :=
  tSt { Chip.reset with
    drv := { (tIn .held).drv with carry := .held, carryTimer := some n, carryRec := some ⟨ts, some 0, (110, 1), 3000⟩ } }

theorem witness_ResetKeepsOutputs :
    (∃ s : State, s.chip.mode ≠ .bypass ∧ s.chip.sup.up = true ∧ s.chip.drv.carry = .none) ∧
    (∃ s : State, s.chip.mode ≠ .bypass ∧ s.chip.sup.up = true ∧ s.chip.drv.carry ≠ .none) ∧
    (∃ (n : Nat) (s : State), s.chip.drv.carry = .held ∧ s.chip.drv.carryTimer = some n ∧ n = 40) ∧
    (∃ (n : Nat) (s : State), s.chip.drv.carry = .held ∧ s.chip.drv.carryTimer = some n ∧ 40 ≤ n ∧
      s.chip.drv.atRest = true) :=
  ⟨⟨tSt (tIn .moving), by decide⟩,
    ⟨tSt { tIn .catching with drv := { (tIn .catching).drv with carry := .held } }, by decide⟩,
    ⟨40, tCarry .moving 40, by decide⟩,
    ⟨41, tSt { Chip.reset with drv := { Drive.reset with carry := .held, carryTimer := some 41 } }, by decide⟩⟩

theorem witness_ResetKeepsOutputs_early :
    (∃ s : State, s.chip.mode ≠ .bypass ∧ s.chip.sup.up = false ∧ s.chip.drv.carry = .none) ∧
    (∀ carry : CarryStatus, ∀ ending ∈ [none, some (3 : BitVec 4)], ∃ s : State, s.chip.mode = .bypass ∧ s.chip.sup.up = false ∧
      s.chip.drv.carry = carry ∧ s.chip.bus.ending = ending ∧ s.chip.bus.startCause = .powerOn) := by
  refine ⟨⟨tSt tStart, by decide⟩, fun carry ending h => ⟨tSt { tBypassed ending with drv := { Drive.reset with carry := carry } }, ?_⟩⟩
  simp only [List.mem_cons, List.not_mem_nil, or_false] at h
  rcases h with rfl | rfl <;> cases carry <;> decide +kernel

theorem test_an_assertion_under_the_power_on_reset_carries :
    (tAfter .resetNAsserted (tSt (tBypassed (some 3)))).drv.carryRec = some ⟨.unthreaded, none, (0, 1), 3000⟩ ∧
    (tAfter .resetNAsserted (tSt (tBypassed (some 3)))).bus.startCause = .resetPin ∧
    (tAfter .resetNAsserted (tSt (tBypassed none))).bus.startCause = .powerOn := by decide +kernel

theorem test_carry_lasts_40_ms :
    (tAfter .resetNAsserted (tSt (tIn .moving))).drv.carry = .held ∧ (tAfter .carryExpiry (tCarry .moving 39)).drv.carry = .held ∧
    (tAfter .carryExpiry (tCarry .moving 40)).drv.carry = .expired := by decide +kernel

/-- A part in start-up before its settings load, with a store and the reads made. -/
def tLoad (nv : List Byte) (n : Nat) (coming : List ReadErrors) : Chip :=
  { Chip.reset with mode := .startup, set := { Store.reset with nv := nv, reads := n, coming := coming } }

/-- What a read gets wrong that makes the last byte of a store 0. -/
def tWrong : ReadErrors := [(511, 0)]

theorem test_the_last_byte_set (n : Nat) (a b : Byte) :
    (List.replicate n (0 : Byte) ++ [a]).set n b = List.replicate n 0 ++ [b] := by
  rw [List.set_append_right _ _ (by simp)]; simp

theorem test_a_read_gets_its_errors :
    tWrong.foldl (fun bs e => bs.set e.1.toNat e.2) (tStore 1) = tStore 0 := by
  have h : (511 : BitVec 9).toNat = 511 := rfl
  simp only [tWrong, tStore, List.foldl_cons, List.foldl_nil, h]
  exact test_the_last_byte_set 511 1 0

theorem witness_SettingsLoadTaken :
    (∃ s : State, s.chip.mode = .startup ∧ s.chip.set.loaded = false ∧ s.chip.set.coming = [tWrong] ∧
      storePasses ((s.chip.set.coming.headD []).foldl (fun bs e => bs.set e.1.toNat e.2) s.chip.set.nv) = true ∧
      storePasses s.chip.set.nv = false ∧ s.chip.set.reads = 2) ∧
    (∃ s : State, s.chip.mode = .startup ∧ s.chip.set.loaded = false ∧
      storePasses ((s.chip.set.coming.headD []).foldl (fun bs e => bs.set e.1.toNat e.2) s.chip.set.nv) = false ∧
      s.chip.set.reads + 1 = 2 ∧ s.chip.bus.port ≠ none) ∧
    (∃ s : State, s.chip.mode = .startup ∧ s.chip.set.loaded = false ∧
      storePasses ((s.chip.set.coming.headD []).foldl (fun bs e => bs.set e.1.toNat e.2) s.chip.set.nv) = false ∧ s.chip.set.reads + 1 = 3) :=
  ⟨⟨tSt (tLoad (tStore 1) 2 [tWrong]), rfl, rfl, rfl,
      (congrArg storePasses test_a_read_gets_its_errors).trans (test_store_passes_by_its_last_byte 0),
      test_store_passes_by_its_last_byte 1, rfl⟩,
    ⟨tSt (tPort .orphanRead (tLoad (tStore 1) 1 [])), rfl, rfl, test_store_passes_by_its_last_byte 1, rfl, by decide⟩,
    ⟨tSt (tLoad (tStore 1) 2 []), rfl, rfl, test_store_passes_by_its_last_byte 1, rfl⟩⟩

/-- A part in start-up with a carry held of a state. -/
def tCaught (ts : TState) : State :=
  tSt { tStart with
    drv := { (tIn .held).drv with carry := .held, carryTimer := some 5, carryRec := some ⟨ts, some 0, (110, 1), 3000⟩ } }

/-- A part in start-up under a carry of a state, the path in a state. -/
def tOnPath (p : PathState) (ts : TState) : State :=
  let s := tCaught ts
  tSt { s.chip with trk := { s.chip.trk with path := p } }

/-- A part in start-up under a carry of SLACKING with both brakes ENGAGED, at an off delay. -/
def tBrakedSlack (delay : Nat) : State :=
  let s := tCaught .slacking
  let on (o : ReelOut) : ReelOut := { o with engaged := true, torque := 0 }
  tSt { s.chip with
    drv := { s.chip.drv with sup := on s.chip.drv.sup, tup := on s.chip.drv.tup }
    set := { s.chip.set with gen := { s.chip.set.gen with offDelay := delay } } }

/-- A part in start-up with its inputs as given, under a carry of a state or with its carry as given. -/
def tShown (p : Pins) (carry : CarryStatus) (ts : TState) : State :=
  let s := tCaught ts
  tSt { s.chip with pins := p, drv := { s.chip.drv with carry := carry } }

theorem witness_SupervisorStarts :
    (∃ s : State, s.chip.mode = .startup ∧ s.chip.set.loaded = true ∧ s.chip.sup = .reset ∧ s.chip.drv.carry = .none ∧
      s.chip.pins = noInputs ∧ s.chip.trk.path ≠ .present) ∧
    (∃ s : State, s.chip.mode = .startup ∧ s.chip.set.loaded = true ∧ s.chip.sup = .reset ∧ s.chip.drv.carry = .none ∧
      s.chip.pins = noInputs ∧ s.chip.trk.path = .present) ∧
    (∃ (r : CarryRec) (s : State), s.chip.mode = .startup ∧ s.chip.set.loaded = true ∧ s.chip.sup = .reset ∧
      s.chip.drv.carry = .held ∧ s.chip.drv.carryRec = some r ∧ r.ts = .moving ∧ s.chip.pins = noInputs) ∧
    (∀ ts ∈ [TState.unthreaded, .threaded, .slacking, .tripped], ∀ p ∈ [PathState.absent, .present], ∃ (r : CarryRec) (s : State),
      s.chip.mode = .startup ∧ s.chip.set.loaded = true ∧ s.chip.sup = .reset ∧ s.chip.drv.carry = .held ∧
      s.chip.drv.carryRec = some r ∧ s.chip.pins = noInputs ∧ r.ts = ts ∧ s.chip.trk.path = p ∧
      s.chip.drv.sup.engaged = false ∧ s.chip.drv.tup.engaged = false ∧ s.chip.drv.sup.mode ≠ .off ∧
      s.chip.drv.tup.mode ≠ .off) ∧
    (∀ n ∈ [0, 300], ∃ (r : CarryRec) (s : State), s.chip.mode = .startup ∧ s.chip.set.loaded = true ∧
      s.chip.sup = .reset ∧ s.chip.drv.carry = .held ∧ s.chip.drv.carryRec = some r ∧ s.chip.pins = noInputs ∧
      r.ts = .slacking ∧ s.chip.drv.sup.engaged = true ∧ s.chip.drv.tup.engaged = true ∧ s.chip.set.gen.offDelay = n ∧
      PlanOk s) ∧
    (∀ p : Pins, ∀ carry ∈ [CarryStatus.none, .held], ∃ s : State, s.chip.mode = .startup ∧ s.chip.set.loaded = true ∧
      s.chip.sup = .reset ∧ PlanOk s ∧ s.chip.pins = p ∧ s.chip.drv.carry = carry ∧ s.chip.gnt.request = none ∧
      ∃ r, s.chip.drv.carryRec = some r ∧ r.ts = .moving) :=
  ⟨⟨tSt tStart, by decide⟩, ⟨tSt { tStart with trk := { Tracker.reset with path := .present } }, by decide⟩,
    ⟨⟨.moving, some 0, (110, 1), 3000⟩, tCaught .moving, by decide⟩,
    fun ts _ p _ => ⟨⟨ts, some 0, (110, 1), 3000⟩, tOnPath p ts, rfl, rfl, rfl, rfl, rfl, rfl, rfl, rfl, rfl, rfl,
      DriveMode.noConfusion, DriveMode.noConfusion⟩,
    fun n _ => ⟨⟨.slacking, some 0, (110, 1), 3000⟩, tBrakedSlack n, rfl, rfl, rfl, rfl, rfl, rfl, rfl, rfl, rfl, rfl,
      test_plan_before_the_start _ rfl rfl rfl rfl rfl⟩,
    fun p carry _ => ⟨tShown p carry .moving, rfl, rfl, rfl, test_plan_before_the_start _ rfl rfl rfl rfl rfl, rfl, rfl, rfl,
      _, rfl, rfl⟩⟩

theorem test_supervisor_starts_in_catching :
    (tAfter .supervisorStart (tCaught .moving)).sup.ts = .catching ∧
    (tAfter .supervisorStart (tCaught .threaded)).sup.ts = .unthreaded ∧
    (tAfter .supervisorStart (tCaught .slacking)).sup.ts = .slacking ∧
    (tAfter .supervisorStart (tBrakedSlack 0)).sup.ts = .threaded := by decide +kernel

theorem test_supervisor_starts_with_inputs_asserted :
    (tAfter .supervisorStart (tShown { noInputs with fltSupply := true, fltCap := true } .held .moving)).sup.side = .supply ∧
    (tAfter .supervisorStart (tShown { noInputs with powerFail := true } .held .moving)).sup.trip = .powerLoss ∧
    (tAfter .supervisorStart (tShown { noInputs with powerFail := true } .none .moving)).sup.trip = .none := by
  decide +kernel

/-- A part in start-up that has begun in CATCHING under a carry still held, the supply arm sampled: the take-up reel at so
many pulses in the last millisecond, the pinch at a place. -/
def tClaim (pulses : Nat) (cl : ArmClass) (p : Pinch) : State :=
  let c := tCaught .moving
  { c with chip := { c.chip with
    sup := { (tIn .catching).sup with claimPending := true, seenSup := true, clsSup := cl }
    trk := { c.chip.trk with tup := { ReelMeasure.reset with pulses := pulses :: List.replicate 99 0 } }
    drv := { c.chip.drv with pinch := p, capRun := p = .pinched } } }

theorem witness_ClaimAndCatch_claim :
    (∃ (k : CarryRec) (i : Fin 8) (s : State), s.chip.mode = .startup ∧ s.chip.sup.up = true ∧ s.chip.sup.ts = .catching ∧
      s.chip.sup.claimPending = true ∧ s.chip.drv.carry = .held ∧ s.chip.drv.carryRec = some k ∧
      s.chip.sup.threaded = some i ∧ s.chip.sup.seenSup = true ∧
      s.chip.set.gen.catchLimit < max s.chip.trk.sup.surfaceSpeed s.chip.trk.tup.surfaceSpeed) ∧
    (∀ cl ∈ [ArmClass.slack, .overLevel, .low], ∀ p : Pinch, ∃ (k : CarryRec) (i : Fin 8) (s : State),
      s.chip.mode = .startup ∧ s.chip.sup.up = true ∧ s.chip.sup.ts = .catching ∧ s.chip.sup.claimPending = true ∧
      s.chip.drv.carry = .held ∧ s.chip.drv.carryRec = some k ∧ s.chip.sup.threaded = some i ∧
      s.chip.sup.seenSup = true ∧ s.chip.sup.clsSup = cl ∧ s.chip.drv.pinch = p ∧
      max s.chip.trk.sup.surfaceSpeed s.chip.trk.tup.surfaceSpeed ≤ s.chip.set.gen.catchLimit ∧
      classOf (s.chip.set.prof i.val) 2050 = .inBand) := by
  refine ⟨⟨⟨.moving, some 0, (110, 1), 3000⟩, 0, tClaim 1000 .low .out, by decide +kernel⟩, fun cl h p =>
    ⟨⟨.moving, some 0, (110, 1), 3000⟩, 0, tClaim 0 cl p, ?_⟩⟩
  simp only [List.mem_cons, List.not_mem_nil, or_false] at h
  rcases h with rfl | rfl | rfl <;> cases p <;> decide +kernel

theorem test_the_claim_is_judged :
    (tAfter (.armSample .takeup 2050) (tClaim 0 .low .pinched)).sup.catchHold = true ∧
    (tAfter (.armSample .takeup 2050) (tClaim 0 .slack .out)).sup.ts = .tripped ∧
    (tAfter (.armSample .takeup 2050) (tClaim 0 .slack .out)).evt.held.length = 3 := by decide +kernel

/-- A part at the end of a catch, the take-up arm in a class. -/
def tCatchEnd (cl : ArmClass) : State := tSt { tIn .catching with sup := { (tIn .catching).sup with clsTup := cl } }

/-- A part in start-up with a carry that expired in HELD. -/
def tExpired (d : Drive) : State :=
  tSt { tStart with drv := { d with carry := .expired, carryRec := some ⟨.held, some 0, (110, 1), 3000⟩ } }

theorem witness_ClaimAndCatch_end :
    (∀ cl : ArmClass, ∃ s : State, s.chip.mode = .running ∧ s.chip.sup.up = true ∧ s.chip.sup.ts = .catching ∧
      s.chip.sup.claimPending = false ∧ s.chip.sup.catchHold = false ∧ s.chip.eng.ref = 0 ∧ s.chip.eng.moveReq = false ∧
      s.chip.eng.cur = none ∧ s.chip.drv.carry = .none ∧ s.chip.gnt.request = none ∧ s.chip.gnt.active = none ∧
      s.chip.trk.tick.reelsStopped = true ∧ s.chip.sup.clsSup = .inBand ∧ s.chip.sup.clsTup = cl) ∧
    (∃ (k : CarryRec) (s : State), s.chip.mode = .startup ∧ s.chip.set.loaded = true ∧ s.chip.sup = .reset ∧
      s.chip.drv.carry = .expired ∧ s.chip.drv.carryRec = some k ∧ k.ts ≠ .unthreaded ∧ k.ts ≠ .threaded ∧
      s.chip.pins = noInputs) ∧
    (∃ (k : CarryRec) (s : State), s.chip.mode = .startup ∧ s.chip.set.loaded = true ∧ s.chip.sup = .reset ∧
      s.chip.drv.carry = .expired ∧ s.chip.drv.carryRec = some k ∧ k.ts ≠ .unthreaded ∧ k.ts ≠ .threaded ∧
      s.chip.pins = noInputs ∧ s.chip.drv.sup.follow = false ∧ s.chip.drv.tup.follow = false ∧
      s.chip.drv.sup.mode ≠ .torque ∧ s.chip.drv.tup.mode ≠ .torque) :=
  ⟨fun cl => ⟨tCatchEnd cl, by cases cl <;> decide +kernel⟩,
    ⟨⟨.held, some 0, (110, 1), 3000⟩, tExpired (tIn .held).drv, by decide +kernel⟩,
    ⟨⟨.held, some 0, (110, 1), 3000⟩, tExpired .reset, by decide +kernel⟩⟩

theorem test_a_catch_ends_by_the_arms :
    (tAfter .speedWindowTick (tCatchEnd .inBand)).sup.ts = .held ∧ (tAfter .speedWindowTick (tCatchEnd .low)).sup.ts = .slacking ∧
    (tAfter .supervisorStart (tExpired .reset)).sup.ts = .tripped := by decide +kernel

/-- A TRIPPED part whose claim judgement is still to be made, the supply arm sampled. -/
def tJudge : State :=
  tSt { tIn .tripped with sup := { (tIn .tripped).sup with trip := .powerLoss, claimPending := true, seenSup := true } }

theorem test_a_claim_that_fails_after_a_trip_posts_its_event :
    ((tAfter (.armSample .takeup 0) tJudge).evt.posted.map fun e => (e.kind, e.detail, e.value)) = [(.trip, 6, 4)] ∧
    (tAfter (.armSample .takeup 0) tJudge).sup.trip = .powerLoss ∧
    (tAfter (.armSample .takeup 2000) tJudge).evt.posted = [] := by decide +kernel

/-- A part whose sweep read is at the port. -/
def tSweep (n : Nat) (m : Memory) : State :=
  ⟨tPort (.sweepRead (if n < 8 then 0x1000 + 32 * n else 0x2000 + 32 * (n - 8)) n)
    { tStart with pln := { Plan.reset with sweep := some n } }, m, []⟩

/-- A part at the end of its start-up. -/
def tStarted : Chip :=
  { tStart with sup := { Supervisor.reset with up := true }, pln := { Plan.reset with sweep := some 72 } }

/-- Posts held until start-up ends. -/
def tHeldPosts : List Post := [.event (tRun.event .catchClaimed 4 0 0), .notice .tripped]

theorem witness_SweepAndStartupEnd :
    (∃ (a n : Nat) (s : State), s.chip.bus.port = some (.sweepRead a n) ∧ s.chip.pln.wait = [] ∧
      s.chip.bus.queue.length < 12 ∧ (s.mem.read (a + 0)).getLsbD 7 = true ∧ n = 71) ∧
    (∃ (a n : Nat) (s : State), s.chip.bus.port = some (.sweepRead a n) ∧ s.chip.pln.wait = [] ∧
      s.chip.bus.queue.length < 12 ∧ (s.mem.read (a + 0)).getLsbD 7 = false ∧ n = 7) ∧
    (∀ held ∈ [[], tHeldPosts], ∃ s : State, s.chip.mode = .startup ∧ startupOver s.chip = true ∧ EventsOk s ∧
      s.chip.evt.wait = [] ∧ s.chip.evt.held = held) :=
  ⟨⟨0x27E0, 71, tSweep 71 [(0x27E0, 0x81)], by decide +kernel⟩, ⟨0x10E0, 7, tSweep 7 [(0x10E0, 0x10)], by decide +kernel⟩,
    fun held _ => ⟨tSt { tStarted with evt := { EventWriter.reset with held := held } }, rfl, rfl,
      ⟨by simp [tSt, EventWriter.reset], by simp [tSt, EventWriter.reset], by simp [tSt, EventWriter.reset],
        fun h => absurd h Bool.false_ne_true, fun _ => rfl, fun _ => ⟨rfl, rfl, rfl, rfl⟩⟩, rfl, rfl⟩⟩

theorem test_sweep_returns_a_slot_left_with_the_part :
    (tAfter .recoverySweepRead (tSweep 71 [(0x27E0, 0x81)])).bus.queue = [⟨0x27E0, 0x18, 0x1⟩] ∧
    (tAfter .recoverySweepRead (tSweep 7 [(0x10E0, 0x10)])).pln.sweep = some 8 := by decide +kernel

theorem test_startup_ends_with_the_reset_record :
    (tAfter .startupEnd (tSt tStarted)).mode = .running ∧
    ((tAfter .startupEnd (tSt tStarted)).bus.queue.map PartWrite.data) = [0x101, 0, 0, 0] ∧
    (tAfter .startupEnd (tSt { tStarted with evt := { EventWriter.reset with held := tHeldPosts } })).evt.posted =
      [tRun.event .catchClaimed 4 0 0] := by decide +kernel

/-! ## The plan rings -/

/-- A part whose main slot 0 is current. -/
def tCurrent (c : Chip) : Chip :=
  { c with pln := { c.pln with main := ((Ring.reset 64).accept (tRec .spool 3000)).taken } }

theorem witness_HandOffTaken :
    (∃ (id : RingId) (slot : BitVec 6) (data : Word) (be : Enables) (s : State),
      (Instr.handOff id slot data be).wf = true ∧ WriteReady (slotOffset id slot.toNat) s ∧
      ((s.chip.pln.ring id).slot slot.toNat).view = .host ∧ slot.toNat = (s.chip.pln.ring id).intake ∧ be = 0xF) ∧
    (∃ (id : RingId) (slot : BitVec 6) (data : Word) (be : Enables) (s : State),
      (Instr.handOff id slot data be).wf = true ∧ WriteReady (slotOffset id slot.toNat) s ∧
      ((s.chip.pln.ring id).slot slot.toNat).view = .host ∧ slot.toNat = (s.chip.pln.ring id).intake ∧ be ≠ 0xF) ∧
    (∃ (id : RingId) (slot : BitVec 6) (data : Word) (be : Enables) (s : State),
      (Instr.handOff id slot data be).wf = true ∧ WriteReady (slotOffset id slot.toNat) s ∧
      ((s.chip.pln.ring id).slot slot.toNat).view = .host ∧ slot.toNat ≠ (s.chip.pln.ring id).intake) :=
  ⟨⟨.main, 0, 0x180, 0xF, tSt (tIn .held), by unfold WriteReady; decide +kernel⟩,
    ⟨.urgent, 0, 0x80, 0x1, tSt (tIn .held), by unfold WriteReady; decide +kernel⟩,
    ⟨.main, 63, 0x180, 0xF, tSt (tIn .held), by unfold WriteReady; decide +kernel⟩⟩

theorem test_a_hand_off_fetches_its_words :
    ((tAfter (.handOff .main 0 0x180 0xF) (tSt (tIn .held))).pln.fetch.map HandFetch.todo) = some [1, 2, 3, 4, 5, 6, 7] ∧
    ((tAfter (.handOff .main 0 0x180 0x1) (tSt (tIn .held))).pln.fetch.map HandFetch.todo) = some [0, 1, 2, 3, 4, 5, 6, 7] ∧
    (tAfter (.handOff .main 0 0x180 0xF) (tSt (tIn .held))).bus.port = some (.handRead 0x2004 1) := by decide +kernel

theorem test_a_hand_off_out_of_order_is_refused :
    ((tAfter (.handOff .main 1 0x180 0xF) (tSt (tIn .held))).evt.posted.map Event.detail) = [0x40] ∧
    (tAfter (.handOff .main 1 0x180 0xF) (tSt (tIn .held))).bus.port = some (.host 0x2020 true 0x140 0xF false) := by
  decide +kernel

theorem witness_ScreenDecides :
    (∃ (h : HandFetch) (p : HostPort) (code : RefCode) (s : State), s.chip.mode = .running ∧ s.chip.pln.fetch = some h ∧
      h.todo = [] ∧ s.chip.bus.host = some p ∧ screen s.chip h.record h.aborted = some code) ∧
    (∃ (h : HandFetch) (p : HostPort) (s : State), s.chip.sup.ts = .stopping ∧ s.chip.pln.fetch = some h ∧ h.todo = [] ∧
      s.chip.bus.host = some p ∧ screen s.chip h.record h.aborted = none) :=
  ⟨⟨tFetch (tRec .spool 3000), tScreening, .noGrant, tScreen (tRec .spool 3000) (tIn .held), by decide +kernel⟩,
    ⟨tFetch (tRec .spool 3000), tScreening, tScreen (tRec .spool 3000) (tGrant (tIn .stopping)), by decide +kernel⟩⟩

theorem test_screen_in_its_order :
    screen (tIn .threaded) (tRec .spool 3000) false = some .notReady ∧
    screen { tIn .held with sup := { (tIn .held).sup with latch := true } } (tRec .spool 3000) false = some .latched ∧
    screen (tIn .held) ⟨0x80, 0, 0, 0, 0, 0⟩ false = some .kind ∧
    screen (tIn .held) (tRec .spool 120001) false = some .field ∧ screen (tIn .held) (tRec .spool 3000) false = some .noGrant ∧
    screen (tGrant (tIn .held)) (tRec .spool 50001) false = some .overGrant ∧
    screen (tGrant (tIn .held)) (tRec .spool 50000) true = some .memory ∧
    screen (tGrant (tIn .held)) (tRec .spool 50000) false = none := by decide +kernel

theorem test_fields_at_the_ends_of_their_ranges :
    ([0, 99, 100, 30000, 30001].map fun a => fieldsOk .stop { tRec .stop 0 with w2 := a }) = [true, false, true, true, false] ∧
    ([0, 1, -120000, 120000, 120001].map fun v => fieldsOk .wind (tRec .wind v)) = [false, true, true, true, false] ∧
    ([3600000, 3600001].map fun d => fieldsOk .dwell { tRec .dwell 0 with w4 := d }) = [true, false] ∧
    ([4095, 4096].map fun x => fieldsOk .locate { tRec .locate 1 with w5 := x }) = [true, false] ∧
    (([16777215, 16777216, -16777216, -16777217] : List Int).map fun p => fieldsOk .locate { tRec .locate 1 with w3 := wordOfInt p })
      = [true, false, true, false] ∧
    ([31, 32].map fun n => fieldsOk .locate { tWhere true 0 with w3 := n }) = [true, false] ∧
    ([0, 1, 4, 5].map fun k => fieldsOk .play { tRec .play 1 with w5 := BitVec.ofNat 32 (0x10000 * k) }) =
      [false, true, true, false] := by decide +kernel

theorem test_grant_terms :
    ([50000, 50001].map fun v => withinGrant tChoice .spool (tRec .spool v)) = [true, false] ∧
    ([2000, 2001].map fun a => withinGrant tChoice .stop { tRec .stop 0 with w2 := a }) = [true, false] ∧
    withinGrant { tChoice with wind := false } .wind (tRec .wind 3000) = false ∧
    ([1, 2, 3, 4].map fun k => withinGrant { tChoice with codes := 0x5 } .play (tPlay k 3000).record) =
      [true, false, true, false] := by decide +kernel

theorem witness_SlotsReturned :
    (∃ (id : RingId) (slot : BitVec 6) (data : Word) (be : Enables) (s : State),
      (Instr.recall id slot data be).wf = true ∧ WriteReady (slotOffset id slot.toNat) s ∧
      ((s.chip.pln.ring id).slot slot.toNat).view = .queued ∧
      slot.toNat = ((s.chip.pln.ring id).intake + ((s.chip.pln.ring id).slots.length - 1)) %
        (s.chip.pln.ring id).slots.length) ∧
    (∃ (id : RingId) (slot : BitVec 6) (word : BitVec 3) (data : Word) (be : Enables) (s : State),
      (Instr.slotOwnedWrite id slot word data be).wf = true ∧ WriteReady (slotOffset id slot.toNat + 4 * word.toNat) s ∧
      ((s.chip.pln.ring id).slot slot.toNat).view = .current) ∧
    (∃ (id : RingId) (slot : BitVec 6) (word : BitVec 3) (data : Word) (be : Enables) (s : State),
      (Instr.slotOwnedWrite id slot word data be).wf = true ∧ WriteReady (slotOffset id slot.toNat + 4 * word.toNat) s ∧
      ((s.chip.pln.ring id).slot slot.toNat).view = .queued ∧ word = 7) ∧
    (∃ (id : RingId) (slot : BitVec 6) (word : BitVec 3) (data : Word) (be : Enables) (s : State),
      (Instr.slotOwnedWrite id slot word data be).wf = true ∧ WriteReady (slotOffset id slot.toNat + 4 * word.toNat) s ∧
      ((s.chip.pln.ring id).slot slot.toNat).view = .host ∧ word = 0 ∧ be.getLsbD 0 = true ∧ data.getLsbD 7 = false) :=
  ⟨⟨.main, 0, 0, 0xF, tSt (tQueued (tIn .held)), by unfold WriteReady; decide +kernel⟩,
    ⟨.main, 0, 0, 0, 0xF, tSt (tCurrent (tIn .moving)), by unfold WriteReady; decide +kernel⟩,
    ⟨.main, 0, 7, 0, 0xF, tSt (tQueued (tIn .held)), by unfold WriteReady; decide +kernel⟩,
    ⟨.urgent, 7, 0, 0x10, 0xF, tSt (tIn .held), by unfold WriteReady; decide +kernel⟩⟩

theorem witness_SlotsReturned_slackDown :
    ∃ s : State, inRun cmdSlackDown s.chip = true ∧ s.chip.sup.ts = .held ∧ s.chip.eng.cur = none ∧
      s.chip.pln.main.queued = 1 := ⟨tSt (tSay 2 [] (tQueued (tIn .held))), by decide +kernel⟩

theorem test_slack_down_returns_the_queued_slots :
    (tAfter .slackDown (tSt (tSay 2 [] (tQueued (tIn .held))))).pln.list = [.ret .main 0 .flushed 100 0] ∧
    ((tAfter .slackDown (tSt (tSay 2 [] (tQueued (tIn .held))))).pln.main.slot 0).view = .host := by decide +kernel

theorem test_recall_takes_the_newest_slot_back :
    (tAfter (.recall .main 0 0 0xF) (tSt (tQueued (tIn .held)))).pln.main.queued = 0 ∧
    (tAfter (.recall .main 0 0 0xF) (tSt (tQueued (tIn .held)))).bus.port = some (.host 0x2000 true 0x19 0xF false) := by
  decide +kernel

theorem test_a_current_slot_takes_no_write :
    (tAfter (.slotOwnedWrite .main 0 3 5 0xF) (tSt (tCurrent (tIn .moving)))).bus.done = .wrote ∧
    ((tAfter (.slotOwnedWrite .main 0 3 5 0xF) (tSt (tCurrent (tIn .moving)))).evt.posted.map Event.value) = [0x200C] := by
  decide +kernel

/-! ## The lists, the queue and the memory port -/

/-- A part whose memory port is taken, with a queue of a length. -/
def tBusy (n : Nat) (c : Chip) : Chip :=
  tPort .orphanRead { c with bus := { c.bus with queue := List.replicate n tWrite } }

/-- An entry of the slot write list. -/
def tRet : SlotWrite := .ret .main 63 .done (-5) 9

theorem witness_ListsJoinQueue :
    (∃ (rest : List SlotWrite) (s : State), s.chip.pln.list = .mark .main 0 :: rest ∧ s.chip.bus.port ≠ none ∧
      s.chip.bus.queue.length + 1 = 12) ∧
    (∃ (rest : List SlotWrite) (s : State), s.chip.pln.list = tRet :: rest ∧ s.chip.bus.port ≠ none ∧
      s.chip.bus.queue.length + 3 = 12) ∧
    (∃ (rest : List SlotWrite) (s : State), s.chip.pln.list = tRet :: rest ∧ s.chip.bus.port ≠ none ∧
      s.chip.bus.queue.length = 12) ∧
    (∃ (g : List PartWrite) (rest : List (List PartWrite)) (s : State), s.chip.mode = .running ∧ s.chip.bus.port ≠ none ∧
      s.chip.cue.list = g :: rest ∧ s.chip.bus.queue.length + g.length = 12) ∧
    (∃ (g : List PartWrite) (rest : List (List PartWrite)) (s : State), s.chip.mode = .running ∧ s.chip.bus.port ≠ none ∧
      s.chip.cue.list = g :: rest ∧ s.chip.bus.queue.length + g.length = 13) ∧
    (∃ (w v : PartWrite) (rest rest' : List PartWrite) (s : State), s.chip.mode = .running ∧ s.chip.bus.port ≠ none ∧
      s.chip.evt.wait = w :: rest ∧ s.chip.mbx.wait = v :: rest' ∧ s.chip.bus.queue.length = 11) ∧
    (∃ s : State, s.chip.mode = .running ∧ s.chip.bus.port ≠ none ∧ s.chip.bus.queue.length = 12) :=
  ⟨⟨[], tSt (tBusy 11 { tRun with pln := { tRun.pln with list := [.mark .main 0] } }), by decide⟩,
    ⟨[], tSt (tBusy 9 { tRun with pln := { tRun.pln with list := [tRet] } }), by decide⟩,
    ⟨[], tSt (tBusy 12 { tRun with pln := { tRun.pln with list := [tRet] } }), by decide⟩,
    ⟨absentGroup 31, [], tSt (tBusy 8 { tRun with cue := { tRun.cue with list := [absentGroup 31] } }), by decide⟩,
    ⟨absentGroup 0, [], tSt (tBusy 9 { tRun with cue := { tRun.cue with list := [absentGroup 0] } }), by decide⟩,
    ⟨tWrite, tWrite, [], [], tSt (tBusy 11 { tRun with
      evt := { tRun.evt with wait := [tWrite] }, mbx := { tRun.mbx with wait := [tWrite] } }), by decide⟩,
    ⟨tSt (tBusy 12 tRun), by decide⟩⟩

/-- A part with a write waiting at each poster, the memory port taken. -/
def tWaits (n : Nat) (c : Chip) : Chip :=
  let c := tBusy n c
  { c with
    evt := { c.evt with wait := [tWrite] }
    mbx := { c.mbx with wait := [tWrite] }
    set := { c.set with wait := [tWrite] }
    gnt := { c.gnt with wait := [tWrite] }
    pln := { c.pln with wait := [tWrite] }
    bus := { c.bus with wait := [tWrite] } }

theorem witness_ListsJoinQueue_room :
    (∃ (rest : List SlotWrite) (s : State), s.chip.pln.list = .mark .main 0 :: rest ∧ s.chip.bus.port ≠ none ∧
      s.chip.bus.queue.length = 12) ∧
    (∀ n ∈ [10, 11, 12], ∃ (rest : List SlotWrite) (s : State), s.chip.pln.list = tRet :: rest ∧ s.chip.bus.port ≠ none ∧
      s.chip.bus.queue.length = n) ∧
    (∃ (w : PartWrite) (rest : List PartWrite) (s : State), s.chip.mode = .running ∧ s.chip.bus.port ≠ none ∧
      s.chip.bus.queue.length = 11 ∧ s.chip.evt.wait = w :: rest ∧ s.chip.mbx.wait = w :: rest ∧
      s.chip.set.wait = w :: rest ∧ s.chip.gnt.wait = w :: rest ∧ s.chip.bus.wait = w :: rest ∧ s.chip.pln.wait = w :: rest) ∧
    (∀ clear : Bool, ∃ (w : PartWrite) (rest : List PartWrite) (s : State), s.chip.mode = .startup ∧ s.chip.bus.port ≠ none ∧
      s.chip.bus.queue.length = 11 ∧ s.chip.mbx.wait = w :: rest ∧ (s.chip.bus.wait = [] ∧ s.chip.cue.list = [] ↔ clear)) := by
  refine ⟨⟨[], tSt (tBusy 12 { tRun with pln := { tRun.pln with list := [.mark .main 0] } }), by decide⟩, fun n h => ?_,
    ⟨tWrite, [], tSt (tWaits 11 tRun), by decide⟩, fun clear => ?_⟩
  · refine ⟨[], tSt (tBusy n { tRun with pln := { tRun.pln with list := [tRet] } }), ?_⟩
    simp only [List.mem_cons, List.not_mem_nil, or_false] at h
    rcases h with rfl | rfl | rfl <;> decide
  · cases clear
    exacts [⟨tWrite, [], tSt (tWaits 11 tStart), by decide⟩,
      ⟨tWrite, [], tSt (tBusy 11 { tStart with mbx := { Mailbox.reset with wait := [tWrite] } }), by decide⟩]

theorem test_a_return_passes_whole :
    ((tAfter .slotWriteListPass (tSt (tBusy 9 { tRun with pln := { tRun.pln with list := [tRet] } }))).bus.queue.drop 9) =
      [⟨0x27F8, 0xFFFFFFFB, 0xF⟩, ⟨0x27FC, 9, 0xF⟩, ⟨0x27E0, 0x10, 0x1⟩] ∧
    (tAfter .slotWriteListPass (tSt (tBusy 10 { tRun with pln := { tRun.pln with list := [tRet] } }))).bus.queue.length = 10 := by
  decide +kernel

/-- A running part with a host cycle at the memory port, the host's next behind it, over a queue passed over so often. -/
def tBack (write : Bool) (n : Nat) : State :=
  tSt (tNext ⟨0x10000, false, 0, 0xF⟩ (tPort (.host 0x8000 write 0 0xF false) (tHost ⟨0x8000, write, 0, 0xF⟩ .inPort
    { tRun with bus := { Bus.reset with queue := [tWrite], passOver := n } })))

theorem witness_MemoryCycleCompletes :
    (∃ (s : State) (a : Nat) (w : PartWrite), MemoryOk s ∧ s.chip.mode ≠ .bypass ∧ s.chip.bus.port = some (.part a w)) ∧
    (∃ (s : State) (a : Nat) (data : Word) (be : Enables) (y : Bool), MemoryOk s ∧ s.chip.mode = .bypass ∧
      s.chip.bus.ending = none ∧ s.chip.bus.port = some (.host a true data be y)) ∧
    (∃ (s : State) (a : Nat) (data : Word) (be : Enables) (y : Bool), MemoryOk s ∧ s.chip.mode ≠ .bypass ∧
      s.chip.bus.port = some (.host a false data be y)) ∧
    (∃ (s : State) (a k : Nat) (h : HandFetch), MemoryOk s ∧ s.chip.mode ≠ .bypass ∧
      s.chip.bus.port = some (.handRead a k) ∧ s.chip.pln.fetch = some h) ∧
    (∃ m : Memory, m.wf = true ∧ m ≠ []) ∧
    (∀ write : Bool, ∃ (s : State) (a : Nat) (data : Word) (be : Enables) (y : Bool) (cy : HostCyc), MemoryOk s ∧ NextOk s ∧
      s.chip.mode ≠ .bypass ∧ s.chip.bus.port = some (.host a write data be y) ∧ s.chip.bus.next = some cy) ∧
    (∃ (s : State) (a : Nat) (data : Word) (be : Enables), MemoryOk s ∧ NextOk s ∧ s.chip.mode = .bypass ∧
      s.chip.bus.ending = none ∧ s.chip.bus.port = some (.orphanWrite a data be)) ∧
    (∃ s : State, MemoryOk s ∧ NextOk s ∧ s.chip.mode = .bypass ∧ s.chip.bus.ending = none ∧
      s.chip.bus.port = some .orphanRead) ∧
    (∀ n ∈ [5, 6], ∃ (a : Nat) (data : Word) (be : Enables) (y : Bool) (cy : HostCyc) (w : PartWrite) (s : State),
      s.chip.mode = .running ∧ s.chip.bus.port = some (.host a false data be y) ∧ s.chip.bus.next = some cy ∧
      0x10000 + 0x100000 * s.chip.bus.winsel.toNat = cy.addr.toNat ∧ s.chip.bus.queue = [w] ∧
      (HandFetch.next? s.chip).or ((mailNext? s.chip).or (sweepNext? s.chip)) = none ∧ s.chip.bus.passOver = n) :=
  ⟨⟨tSt (tPort (.part 0x4000 tWrite) (tBusy 1 tRun)), 0x4000, tWrite, by unfold MemoryOk; decide⟩,
    ⟨tSt (tBypassed none), 0x8000, 5, 0xF, true, by unfold MemoryOk; decide⟩,
    ⟨⟨tPort (.host 2 false 0 0xF true) tRun, [(0, 1), (3, 9)], []⟩, 2, 0, 0xF, true, by unfold MemoryOk; decide⟩,
    ⟨tSt (tPort (.handRead 0x2004 1) (tScreen (tRec .spool 3000) tRun).chip), 0x2004, 1, tFetch (tRec .spool 3000), by
      unfold MemoryOk; decide⟩,
    ⟨[(0, 1), (3, 9)], by decide⟩,
    fun write => ⟨tBack write 0, 0x8000, 0, 0xF, false, ⟨0x10000, false, 0, 0xF⟩, rfl, fun _ => Option.some_ne_none _,
      Mode.noConfusion, rfl, rfl⟩,
    ⟨tSt (tPort (.orphanWrite 0x4000 7 0xF) Chip.reset), 0x4000, 7, 0xF, by unfold MemoryOk; decide, fun h => absurd rfl h,
      rfl, rfl, rfl⟩,
    ⟨tSt (tPort .orphanRead Chip.reset), by unfold MemoryOk; decide, fun h => absurd rfl h, rfl, rfl, rfl⟩,
    fun n h => ⟨0x8000, 0, 0xF, false, ⟨0x10000, false, 0, 0xF⟩, tWrite, tBack false n, by
      simp only [List.mem_cons, List.not_mem_nil, or_false] at h
      rcases h with rfl | rfl <;> decide +kernel⟩⟩

/-- Six host cycles driven back to back pass the head of the queue over, and then it is granted (R159). -/
theorem test_six_host_cycles_then_the_head :
    (tAfter .memoryCycleDone (tBack false 5)).bus.port = some (.host 0x10000 false 0 0xF false) ∧
    (tAfter .memoryCycleDone (tBack false 5)).bus.passOver = 6 ∧
    (tAfter .memoryCycleDone (tBack false 6)).bus.port = some (.part 0x4000 tWrite) := by decide +kernel

theorem test_memory_answers_a_read :
    (tAfter .memoryCycleDone ⟨tPort (.host 2 false 0 0xF true) tRun, [(0, 1), (3, 9)], []⟩).bus.done = .read 0x09000001 := by
  decide +kernel

theorem test_memory_keeps_its_form :
    Memory.writeWord [(0, 1), (3, 9)] 0 0x00330000 0xD = [(2, 0x33)] ∧ Memory.writeByte [(3, 9)] 1 4 = [(1, 4), (3, 9)] := by
  decide +kernel

theorem witness_MemoryLimitEnds :
    (∃ (s : State) (a : Nat) (data : Word) (be : Enables), s.chip.mode = .running ∧
      s.chip.bus.port = some (.host a false data be false)) ∧
    (∃ (s : State) (a : Nat) (w : PartWrite), s.chip.mode = .running ∧ s.chip.bus.port = some (.part a w) ∧
      w.offset = 0x3FFC) ∧
    (∃ (s : State) (a : Nat) (w : PartWrite), s.chip.mode = .running ∧ s.chip.bus.port = some (.part a w) ∧
      w.offset = 0x4800) ∧
    (∃ (s : State) (a : Nat) (w : PartWrite), s.chip.mode = .running ∧ s.chip.bus.port = some (.part a w) ∧
      w.offset = 0x4000) ∧
    (∃ (s : State) (a : Nat) (w : PartWrite), s.chip.mode = .running ∧ s.chip.bus.port = some (.part a w) ∧
      w.offset = 0x47FC) ∧
    (∃ (s : State) (a : Nat) (w : Bool) (data : Word) (be : Enables), s.chip.bus.port = some (.host a w data be true)) :=
  ⟨⟨tSt (tPort (.host 0x8000 false 0 0xF false) tRun), 0x8000, 0, 0xF, by decide⟩,
    ⟨tSt (tPort (.part 0x3FFC ⟨0x3FFC, 0, 0xF⟩) tRun), 0x3FFC, ⟨0x3FFC, 0, 0xF⟩, by decide⟩,
    ⟨tSt (tPort (.part 0x4800 ⟨0x4800, 0, 0xF⟩) tRun), 0x4800, ⟨0x4800, 0, 0xF⟩, by decide⟩,
    ⟨tSt (tPort (.part 0x4000 ⟨0x4000, 0, 0xF⟩) tRun), 0x4000, ⟨0x4000, 0, 0xF⟩, by decide⟩,
    ⟨tSt (tPort (.part 0x47FC ⟨0x47FC, 0, 0xF⟩) tRun), 0x47FC, ⟨0x47FC, 0, 0xF⟩, by decide⟩,
    ⟨tSt (tBypassed none), 0x8000, true, 5, 0xF, by decide⟩⟩

theorem witness_MemoryLimitEnds_others :
    (∃ (s : State) (a : Nat) (data : Word) (be : Enables), s.chip.mode = .running ∧ MemoryOk s ∧
      s.chip.bus.port = some (.host a true data be false)) ∧
    (∃ (s : State) (a k : Nat) (h : HandFetch), s.chip.mode = .running ∧ s.chip.bus.port = some (.handRead a k) ∧
      s.chip.pln.fetch = some h) ∧
    (∃ (s : State) (a : Nat), s.chip.mode = .startup ∧ NextOk s ∧ s.chip.bus.port = some (.sweepRead a 71)) ∧
    (∀ write : Bool, ∃ (s : State) (a : Nat) (data : Word) (be : Enables) (cy : HostCyc), s.chip.mode = .running ∧
      NextOk s ∧ MemoryOk s ∧ s.chip.bus.port = some (.host a write data be false) ∧ s.chip.bus.next = some cy) ∧
    (∃ (s : State) (a : Nat) (data : Word) (be : Enables), NextOk s ∧ s.chip.mode = .bypass ∧ s.chip.bus.ending = none ∧
      s.chip.bus.port = some (.orphanWrite a data be)) :=
  ⟨⟨tSt (tPort (.host 0x8003 true 5 0x8 false) tRun), 0x8003, 5, 0x8, by unfold MemoryOk; decide⟩,
    ⟨tSt (tPort (.handRead 0x2004 1) (tScreen (tRec .spool 3000) tRun).chip), 0x2004, 1, tFetch (tRec .spool 3000), by decide⟩,
    ⟨tSt (tPort (.sweepRead 0x27E0 71) tStart), 0x27E0, rfl, fun h => absurd rfl h, rfl⟩,
    fun write => ⟨tBack write 0, 0x8000, 0, 0xF, ⟨0x10000, false, 0, 0xF⟩, rfl, fun _ => Option.some_ne_none _,
      rfl, rfl, rfl⟩,
    ⟨tSt (tPort (.orphanWrite 0x4000 7 0xF) Chip.reset), 0x4000, 7, 0xF, fun h => absurd rfl h, rfl, rfl, rfl⟩⟩

theorem test_aborted_reads_go_on :
    ((tAfter .memoryResponseLimit (tSt (tPort (.handRead 0x2004 1) (tScreen (tRec .spool 3000) tRun).chip))).pln.fetch.map
      HandFetch.aborted) = some true ∧
    (tAfter .memoryResponseLimit (tSt (tPort (.sweepRead 0x27E0 71) tStart))).pln.sweep = some 72 := by decide +kernel

theorem test_an_aborted_read_answers_ones :
    (tAfter .memoryResponseLimit (tSt (tPort (.host 0x8002 false 0 0xF false) tRun))).bus.done = .read 0xFFFFFFFF ∧
    ((tAfter .memoryResponseLimit (tSt (tPort (.host 0x8002 false 0 0xF false) tRun))).evt.posted.map Event.value) =
      [0x8000] := by decide +kernel

/-- A part with an event posted and some records unread, its memory port taken. -/
def tEvents (write : Nat) : State :=
  tSt (tBusy 8 { tRun with evt := { EventWriter.reset with write := write, posted := [⟨.cueSet, 3, 7, 5, -1, 1⟩] } })

/-- A part in overrun with 127 records unread and 9 events dropped. -/
def tOverrun : State :=
  tSt (tBusy 8 { tRun with evt := { EventWriter.reset with write := 127, overrun := true, dropped := 9 } })

theorem witness_EventAppended :
    (∃ (e : Event) (rest : List Event) (s : State), s.chip.mode = .running ∧ s.chip.evt.posted = e :: rest ∧
      s.chip.evt.write = 0 ∧ s.chip.evt.consumed = 0 ∧ s.chip.evt.wait = [] ∧ s.chip.bus.queue.length + 4 = 12 ∧
      s.chip.bus.port ≠ none) ∧
    (∃ (e : Event) (rest : List Event) (s : State), s.chip.mode = .running ∧ s.chip.evt.posted = e :: rest ∧
      (s.chip.evt.write + 128 - s.chip.evt.consumed) % 128 = 126 ∧ s.chip.evt.wait = [] ∧
      s.chip.bus.queue.length + 4 = 12 ∧ s.chip.bus.port ≠ none) ∧
    (∃ (e : Event) (rest : List Event) (s : State), s.chip.mode = .running ∧ s.chip.evt.posted = e :: rest ∧
      (s.chip.evt.write + 128 - s.chip.evt.consumed) % 128 = 127 ∧ s.chip.bus.port ≠ none) ∧
    (∃ s : State, WriteReady 0x110 s ∧ s.chip.evt.overrun = true ∧ s.chip.evt.wait = [] ∧
      s.chip.bus.queue.length + 4 = 12) :=
  ⟨⟨⟨.cueSet, 3, 7, 5, -1, 1⟩, [], tEvents 0, by decide +kernel⟩, ⟨⟨.cueSet, 3, 7, 5, -1, 1⟩, [], tEvents 126, by decide +kernel⟩,
    ⟨⟨.cueSet, 3, 7, 5, -1, 1⟩, [], tEvents 127, by decide +kernel⟩, ⟨tOverrun, by unfold WriteReady; decide +kernel⟩⟩

theorem test_an_overrun_ends_with_its_marker :
    ((tAfter (.eventConsumedWrite 1 0xF) tOverrun).bus.queue.drop 8).map PartWrite.data = [2, 0, 0, 9] ∧
    (tAfter (.eventConsumedWrite 1 0xF) tOverrun).evt.overrun = false ∧
    (tAfter (.eventConsumedWrite 0 0xF) tOverrun).evt.overrun = true := by decide +kernel

theorem test_event_record_words :
    ((tAfter .eventAppend (tEvents 0)).bus.queue.drop 8) =
      [⟨0x4000, 0x00070317, 0xF⟩, ⟨0x4004, 5, 0xF⟩, ⟨0x4008, 0xFFFFFFFF, 0xF⟩, ⟨0x400C, 1, 0xF⟩] ∧
    (tAfter .eventAppend (tEvents 127)).evt.dropped = 1 ∧ (tAfter .eventAppend (tEvents 127)).evt.overrun = true := by
  decide +kernel

/-! ## The host's cycles -/

/-- A part in HELD with settings open. -/
def tOpen (ts : TState) : Chip := { tIn ts with set := { Store.reset with loaded := true, isOpen := true } }

theorem witness_CueImageWriteDropped :
    (∃ s : State, s.chip.bus.host = none ∧ s.chip.mode = .running ∧ heldCycle 0x3000 true s.chip = false ∧
      heldCycle 0x3000 false s.chip = false) ∧
    (∃ s : State, s.chip.bus.host = none ∧ s.chip.mode = .running ∧ pendingWrite 0x31FC s.chip = true) ∧
    (∃ s : State, s.chip.bus.host = none ∧ s.chip.mode = .running ∧ heldCycle 0x31FC false s.chip = true ∧
      heldCycle 0x31FC true s.chip = false ∧ cueHold 0x31FC s.chip = true) ∧
    (∃ s : State, s.chip.bus.host = none ∧ s.chip.mode = .bypass) ∧
    (∃ s : State, s.chip.bus.host = none ∧ s.chip.mode = .startup ∧ heldCycle 0x3000 false s.chip = false) :=
  ⟨⟨tSt tRun, by decide +kernel⟩,
    ⟨tSt { tRun with bus := { Bus.reset with queue := [⟨0x31FC, 0, 0xF⟩] } }, by decide +kernel⟩,
    ⟨tSt { tRun with cue := { tRun.cue with list := [absentGroup 31] } }, by decide +kernel⟩,
    ⟨State.reset, by decide +kernel⟩, ⟨tSt tStart, by decide +kernel⟩⟩

theorem test_cue_image_write_is_dropped :
    (tAfter (.cueImageWrite 127 9 0xF) (tSt tRun)).bus.port = none ∧
    ((tAfter (.cueImageWrite 127 9 0xF) (tSt tRun)).evt.posted.map Event.value) = [0x31FC] := by decide +kernel

/-- The general settings in their ranges. -/
def tInRange (x : General) : Prop :=
  100 ≤ x.settle ∧ x.settle ≤ 3000 ∧ x.offDelay ≤ 1500 ∧ 40 ≤ x.pinchTime ∧ x.pinchTime ≤ 400 ∧
    5 ≤ x.breakTime ∧ x.breakTime ≤ 100 ∧ 50 ≤ x.excursion ∧ x.excursion ≤ 2000 ∧ x.starve ≤ 2000 ∧
    (x.period = 0 ∨ x.period = 50 ∨ x.period = 150 ∨ x.period = 400 ∨ x.period = 1200) ∧ x.catchLimit ≤ 120000 ∧
    x.brakeSafe ≤ 10000

theorem witness_SettingsImageWriteTaken :
    (∃ s : State, WriteReady 0x400 s ∧ s.chip.set.isOpen = false) ∧
    (∃ s : State, WriteReady 0x400 s ∧ s.chip.set.isOpen = true ∧ s.chip.settingsBusy = true) ∧
    (∃ s : State, WriteReady 0x43C s ∧ s.chip.set.isOpen = true ∧ s.chip.settingsBusy = false ∧ s.chip.sup.ts = .moving) ∧
    (∃ (i : Fin 8) (s : State), WriteReady 0x440 s ∧ s.chip.set.isOpen = true ∧ s.chip.settingsBusy = false ∧
      s.chip.sup.threaded = some i ∧ 64 + 48 * i.val = 0x40 ∧ s.chip.sup.ts = .held) ∧
    (∃ s : State, WriteReady 0x43C s ∧ s.chip.set.isOpen = true ∧ s.chip.settingsBusy = false ∧ s.chip.sup.ts = .held) ∧
    (∃ (i : Fin 8) (s : State), WriteReady 0x470 s ∧ s.chip.set.isOpen = true ∧ s.chip.settingsBusy = false ∧
      s.chip.sup.threaded = some i ∧ 64 + 48 * (i.val + 1) = 0x70 ∧ s.chip.sup.ts = .moving) ∧
    (∃ s : State, WriteReady 0x5FC s ∧ s.chip.set.isOpen = true ∧ s.chip.settingsBusy = false ∧ s.chip.sup.ts = .threaded) ∧
    tInRange .default ∧ (Profile.default.park ≤ Profile.default.maxTension ∧ Profile.default.maxTension ≤ 600 ∧
      Profile.default.width = 2 ∧ Profile.default.slack < Profile.default.low ∧ Profile.default.low < Profile.default.high ∧
      Profile.default.high < Profile.default.overLevel ∧ Profile.default.hub + Profile.default.nearMargin ≤ Profile.default.full) ∧
    (∀ p ∈ [64, 447], ∃ n, n < 8 ∧ 64 + 48 * n ≤ p ∧ p < 64 + 48 * (n + 1)) :=
  ⟨⟨tSt (tIn .held), by unfold WriteReady; decide +kernel⟩,
    ⟨tSt (tSay 11 [] (tOpen .held)), by unfold WriteReady; decide +kernel⟩,
    ⟨tSt (tOpen .moving), by unfold WriteReady; decide +kernel⟩,
    ⟨0, tSt (tOpen .held), by unfold WriteReady; decide +kernel⟩, ⟨tSt (tOpen .held), by unfold WriteReady; decide +kernel⟩,
    ⟨0, tSt (tOpen .moving), by unfold WriteReady; decide +kernel⟩,
    ⟨tSt (tOpen .threaded), by unfold WriteReady; decide +kernel⟩, by unfold tInRange; decide, by decide,
    fun p h => ⟨(p - 64) / 48, by simp only [List.mem_cons, List.not_mem_nil, or_false] at h; omega⟩⟩

theorem test_the_threaded_entry_is_locked_in_held :
    ((tAfter (.settingsImageWrite 16 5 0xF) (tSt (tOpen .held))).evt.posted.map Event.detail) = [6] := by decide +kernel

theorem test_settings_are_clamped :
    (writeFields generalFields 0 0xFFFF0000 0xF General.default).settle = 100 ∧
    (writeFields generalFields 0 0xFFFF0000 0xF General.default).offDelay = 1500 ∧
    (writeFields generalFields 12 51 0x3 General.default).period = 1200 ∧
    (writeFields profileFields 16 0x01F40000 0x3 Profile.default).maxTension = 110 ∧
    (writeFields profileFields 8 0x0400 0x2 Profile.default).width = 3 ∧
    (writeFields profileFields 8 0xFFFF0000 0xC Profile.default).park = Profile.default.maxTension := by decide +kernel

theorem test_settings_write_dropped_when_closed :
    ((tAfter (.settingsImageWrite 0 5 0xF) (tSt (tIn .threaded))).evt.posted.map Event.detail) = [4] ∧
    ((tAfter (.settingsImageWrite 127 5 0xF) (tSt (tOpen .threaded))).evt.posted.map Event.detail) = [] := by decide +kernel

theorem witness_WindowRegistersWritten_trim : ∃ s : State, WriteReady 0x10C s ∧ s.chip.gnt.variRange = 1000 :=
  ⟨tSt (tGrant (tIn .held)), by unfold WriteReady; decide +kernel⟩

theorem test_trim_is_clamped :
    (tAfter (.trimWrite 1000 0xF) (tSt (tGrant (tIn .held)))).gnt.trim = 1000 ∧
    (tAfter (.trimWrite 1000 0xF) (tSt (tGrant (tIn .held)))).evt.posted = [] ∧
    (tAfter (.trimWrite 1001 0xF) (tSt (tGrant (tIn .held)))).bus.port = some (.host 0x10C true 1000 0xF false) ∧
    (tAfter (.trimWrite 0xFFFFFFFF 0xF) (tSt (tIn .held))).gnt.trim = 0 := by decide +kernel

/-- A part with a heartbeat period of 50 ms and a monitor. -/
def tMon (st : MonState) (n : Nat) (stop : Bool) (ts : TState) : State :=
  tSt { tIn ts with
    set := { Store.reset with loaded := true, gen := { General.default with period := 50, stopMode := stop } }
    mon := ⟨st, n⟩ }

theorem witness_SilenceMonitor :
    (∃ s : State, WriteReady 0x100 s ∧ s.chip.set.gen.period ≠ 0 ∧ s.chip.mon.st = .silent) ∧
    (∃ s : State, WriteReady 0x100 s ∧ s.chip.set.gen.period = 0) ∧
    (∃ s : State, s.chip.mode = .running ∧ s.chip.mon.st = .armed ∧ s.chip.set.gen.period ≠ 0 ∧
      s.chip.set.gen.period + 1 = s.chip.mon.elapsed ∧ s.chip.set.gen.stopMode = false) ∧
    (∃ s : State, s.chip.mode = .running ∧ s.chip.mon.st = .armed ∧ s.chip.mon.elapsed = s.chip.set.gen.period) ∧
    (∃ s : State, s.chip.mon.st = .armed ∧ s.chip.set.gen.period ≠ 0 ∧ s.chip.set.gen.period < s.chip.mon.elapsed ∧
      s.chip.set.gen.stopMode = true) :=
  ⟨⟨tMon .silent 80 false .held, by unfold WriteReady; decide +kernel⟩, ⟨tSt (tIn .held), by unfold WriteReady; decide +kernel⟩,
    ⟨tMon .armed 51 false .held, by decide⟩, ⟨tMon .armed 50 false .held, by decide⟩,
    ⟨tMon .armed 51 true .moving, by decide⟩⟩

theorem test_silence_stops_the_transport :
    (tAfter .silenceTimerExpiry (tMon .armed 50 true .moving)).sup.ts = .moving ∧
    (tAfter .silenceTimerExpiry (tMon .armed 51 true .moving)).sup.ts = .stopping ∧
    (tAfter (.heartbeat 1 0xF) (tMon .silent 80 false .held)).mon = ⟨.armed, 0⟩ := by decide +kernel

theorem witness_WindowRegistersWritten_words :
    (∃ s : State, WriteReady 0x104 s ∧ WriteReady 0x108 s ∧ WriteReady 0x110 s ∧ s.chip.evt.overrun = false) :=
  ⟨tSt tRun, by unfold WriteReady; decide +kernel⟩

/-- A part with notices pending and an event ring of 5 written, 2 consumed. -/
def tNotes : State :=
  tSt { tRun with ntc := ⟨0x0018, 0xFFFF⟩, evt := { EventWriter.reset with write := 5, consumed := 2 } }

theorem test_notice_words :
    (tAfter (.noticeMaskWrite 0xFFF7 0xF) tNotes).ntc = ⟨0x0010, 0xFFF7⟩ ∧
    (tAfter (.noticeClearWrite 0x0010 0xF) tNotes).ntc = ⟨0x0008, 0xFFFF⟩ ∧
    (tAfter (.noticeClearWrite 0x0010 0xE) tNotes).ntc = ⟨0x0018, 0xFFFF⟩ := by decide +kernel

theorem test_consumed_index_at_its_bounds :
    (tAfter (.eventConsumedWrite 5 0xF) tNotes).evt.consumed = 5 ∧ (tAfter (.eventConsumedWrite 4 0xF) tNotes).evt.consumed = 4 ∧
    (tAfter (.eventConsumedWrite 6 0xF) tNotes).evt.consumed = 5 ∧
    (tAfter (.eventConsumedWrite 200 0xF) tNotes).evt.consumed = 5 := by decide +kernel

theorem witness_LiveWindowAnswers :
    (∃ (s : State) (word : BitVec 6), s.chip.bus.host = none ∧ s.chip.mode = .running ∧ word ≠ 4) ∧
    (∃ s : State, s.chip.bus.host = none ∧ s.chip.mode = .startup) := ⟨⟨tSt tRun, 63, by decide⟩, ⟨tSt tStart, by decide⟩⟩

theorem witness_LiveWindowAnswers_words :
    (∃ (c : Chip) (x : Snap), c.bus.snap = some x) ∧ (∃ c : Chip, c.bus.snap = none) ∧
    (∃ (c : Chip) (n : Nat), c.sup.tension.value = (n, 1)) ∧ (∃ c : Chip, c.sup.tension.value.2 ≠ 1) ∧
    (∃ (c : Chip) (g : Seg) (l : Loc), c.eng.cur = some g ∧ g.loc = some l) :=
  ⟨⟨{ tIn .held with bus := { Bus.reset with snap := some ⟨7, 8, 9, 10, 11, 12⟩ } }, ⟨7, 8, 9, 10, 11, 12⟩, by decide⟩,
    ⟨tIn .held, by decide⟩, ⟨tIn .held, 60, by decide⟩,
    ⟨{ tIn .held with sup := { (tIn .held).sup with tension := ⟨0, 1, 60, 3⟩ } }, by decide⟩,
    ⟨tCur (tLoc 105 2) (tIn .moving), tLoc 105 2, ⟨105, 5, 9000, 2⟩, by decide⟩⟩

theorem test_live_window_words :
    (tAfter (.liveWindowRead 0) (tSt (tIn .moving))).bus.done = .read 4 ∧
    (tAfter (.liveWindowRead 12) (tSt (tIn .held))).bus.done = .read 0x00000303 ∧
    (tAfter (.liveWindowRead 12) (tSt tRun)).bus.done = .read 0xFFFF0000 ∧
    (tAfter (.liveWindowRead 63) (tSt tRun)).bus.done = .read 0 := by decide +kernel

theorem test_segment_words :
    liveWord (tCur (tLoc 105 2) (tIn .moving)) 27 = 0x00070D02 ∧ liveWord (tCur (tLoc 105 2) (tIn .moving)) 30 = 105 ∧
    liveWord (tCur (tLoc 105 2) (tIn .moving)) 31 = 2 ∧ liveWord (tIn .held) 13 = 60 ∧
    liveWord (tIn .held) 8 = 0x00020001 := by decide +kernel

theorem test_group_head_latches :
    (tAfter .groupHeadRead (tSt (tIn .held))).bus.done = .read 100 ∧
    (tAfter (.liveWindowRead 4) (tSt { tIn .held with bus := { Bus.reset with snap := some ⟨7, 8, 9, 10, 11, 12⟩ } })).bus.done
      = .read 100 ∧
    (tAfter (.liveWindowRead 5) (tSt { tIn .held with bus := { Bus.reset with snap := some ⟨7, 8, 9, 10, 11, 12⟩ } })).bus.done
      = .read 8 := by decide +kernel

/-- A held read of a word of the plan ring. -/
def tHeld (c : Chip) : State := tSt (tHost ⟨0x2000, false, 0, 0xF⟩ .held c)

/-- A host cycle outside the window. -/
def tOutside : HostCyc := ⟨0x10000, false, 0, 0xF⟩

/-- A held write to the cue image, with or without a next cycle. -/
def tHeldCue (addr : BitVec 24) (next : Option HostCyc) : State :=
  let c := tHost ⟨addr, true, 5, 0xF⟩ .held tRun
  tSt { c with bus := { c.bus with next := next } }

theorem witness_HostCyclePasses :
    (∃ s : State, s.chip.bus.host = none ∧ s.chip.mode = .bypass) ∧
    (∃ (addr : BitVec 24) (s : State), s.chip.bus.host = none ∧ s.chip.mode ≠ .bypass ∧
      addr.toNat + 1 = 0x100000 * s.chip.bus.winsel.toNat) ∧
    (∃ (addr : BitVec 24) (s : State), s.chip.bus.host = none ∧ s.chip.mode ≠ .bypass ∧
      0x10000 + 0x100000 * s.chip.bus.winsel.toNat = addr.toNat) ∧
    (∃ (addr : BitVec 24) (s : State), s.chip.bus.host = none ∧ s.chip.mode ≠ .bypass ∧
      0x100000 * s.chip.bus.winsel.toNat ≤ addr.toNat ∧ addr.toNat + 1 = 0x100 + 0x100000 * s.chip.bus.winsel.toNat) ∧
    (∃ (addr : BitVec 24) (s : State), s.chip.bus.host = none ∧ s.chip.mode = .startup ∧
      0x100000 * s.chip.bus.winsel.toNat ≤ addr.toNat ∧ addr.toNat + 1 = 0x10000 + 0x100000 * s.chip.bus.winsel.toNat) ∧
    (∃ (h : HostPort) (off : Nat) (s : State), s.chip.mode = .running ∧ s.chip.bus.host = some h ∧ h.phase = .held ∧
      h.cyc.write = false ∧ windowOffset s.chip h.cyc.addr.toNat = some off ∧ 0x100 ≤ off ∧
      (pendingWrite off s.chip || listHold off s.chip || cueHold off s.chip) = true) ∧
    (∃ (h : HostPort) (off : Nat) (s : State), s.chip.mode = .running ∧ s.chip.bus.host = some h ∧ h.phase = .held ∧
      h.cyc.write = false ∧ windowOffset s.chip h.cyc.addr.toNat = some off ∧ 0x100 ≤ off ∧
      (pendingWrite off s.chip || listHold off s.chip || cueHold off s.chip) = false) ∧
    (∀ next ∈ [none, some tOutside], ∃ s : State, s.chip.bus.host ≠ none ∧ s.chip.bus.next = next) ∧
    (∀ addr ∈ ([0x3000, 0x31FC] : List (BitVec 24)), ∀ next ∈ [none, some tOutside], ∃ (h : HostPort) (off : Nat) (s : State),
      s.chip.mode = .running ∧ s.chip.bus.host = some h ∧ h.phase = .held ∧ h.cyc.write = true ∧
      windowOffset s.chip h.cyc.addr.toNat = some off ∧ off = addr.toNat ∧ heldCycle off true s.chip = false ∧
      s.chip.bus.next = next) :=
  ⟨⟨State.reset, by decide +kernel⟩, ⟨0x1FFFFF, tSt { tRun with bus := { Bus.reset with winsel := 2 } }, by decide +kernel⟩,
    ⟨0x10000, tSt tRun, by decide +kernel⟩, ⟨0xFF, tSt tRun, by decide +kernel⟩, ⟨0xFFFF, tSt tStart, by decide +kernel⟩,
    ⟨⟨⟨0x2000, false, 0, 0xF⟩, .held⟩, 0x2000, tHeld { tRun with pln := { tRun.pln with list := [.mark .main 0] } }, by
      decide +kernel⟩,
    ⟨⟨⟨0x2000, false, 0, 0xF⟩, .held⟩, 0x2000, tHeld tRun, by decide +kernel⟩,
    fun next _ => ⟨tHeldCue 0x3000 next, by simp [tHeldCue, tSt, tHost], rfl⟩,
    fun addr h next k => ⟨⟨⟨addr, true, 5, 0xF⟩, .held⟩, addr.toNat, tHeldCue addr next, by
      simp only [List.mem_cons, List.not_mem_nil, or_false] at h k
      rcases h with rfl | rfl <;> rcases k with rfl | rfl <;> decide +kernel⟩⟩

theorem test_host_cycles :
    (tAfter (.hostCycle 0xF0 true 5 0xF) (tSt tRun)).bus.done = .wrote ∧
    (tAfter (.hostCycle 0x10000 true 5 0xF) (tSt tRun)).bus.port = some (.host 0x10000 true 5 0xF false) ∧
    (tAfter (.hostCycle 0x200 true 0x00000009 0xF) (tSt tRun)).mbx.st = .run ∧
    (tAfter (.hostCycle 0x200 true 0x00010009 0xF) (tSt tRun)).mbx.reply = some ⟨.badLength, 0⟩ ∧
    (tAfter .heldCycleRelease (tHeld tRun)).bus.port = some (.host 0x2000 false 0 0xF false) := by decide +kernel

theorem test_a_next_cycle_follows_the_one_at_the_port :
    (tAfter (.hostCycle 0x10000 false 0 0xF) (tHeld tRun)).bus.next = some tOutside ∧
    (tAfter .heldCycleRelease (tHeldCue 0x3000 (some tOutside))).bus.port = some (.host 0x10000 false 0 0xF false) ∧
    (tAfter .heldCycleRelease (tHeldCue 0x3000 (some tOutside))).bus.prior = .wrote := by decide +kernel

/-- A running part whose mailbox is in a state. -/
def tMail (st : MbState) : Chip := { tRun with mbx := { Mailbox.reset with st := st, cmd := some ⟨1, true, 1⟩ } }

theorem witness_CommandWordJudged_write :
    (∀ w ∈ ([0, 0x0000000D, 0x00000001, 0x00000009, 0x00010001] : List Word), ∃ s : State, s.chip.mode = .running ∧
      s.chip.bus.host = none ∧ heldCycle 0x200 true s.chip = false ∧ s.chip.mbx.st = .idle ∧
      merge 0xF w s.chip.mbx.copy = w) ∧
    (byteOf 0x0000000D 0).toNat = 13 ∧ lengthOk (byteOf 0x00000001 0) (byteOf 0x00000001 2).toNat = false ∧
    lengthOk (byteOf 0x00000009 0) (byteOf 0x00000009 2).toNat = true ∧
    lengthOk (byteOf 0x00010001 0) (byteOf 0x00010001 2).toNat = true ∧
    (∃ s : State, s.chip.mode = .running ∧ s.chip.bus.host = none ∧ heldCycle 0x200 true s.chip = false ∧
      s.chip.mbx.st = .run) ∧
    (∃ s : State, s.chip.mode = .running ∧ s.chip.bus.host = none ∧ s.chip.mbx.st = .run ∧ s.chip.settingsBusy = false) ∧
    (∀ st ∈ [MbState.fetch, .reply], ∃ s : State, s.chip.mode = .running ∧ s.chip.bus.host = none ∧ s.chip.mbx.st = st) ∧
    (∃ s : State, s.chip.mode = .running ∧ s.chip.bus.host = none ∧ pendingWrite 0x200 s.chip = true) :=
  ⟨fun w h => ⟨tSt tRun, rfl, rfl, by decide +kernel, rfl, by
      simp only [List.mem_cons, List.not_mem_nil, or_false] at h
      rcases h with rfl | rfl | rfl | rfl | rfl <;> decide +kernel⟩, by decide +kernel, by decide +kernel,
    by decide +kernel, by decide +kernel, ⟨tSt (tSay 11 [] (tOpen .held)), by decide +kernel⟩,
    ⟨tSt (tMail .run), by decide +kernel⟩, fun st _ => ⟨tSt (tMail st), rfl, rfl, rfl⟩,
    ⟨tSt { tRun with bus := { Bus.reset with queue := [⟨0x200, 0, 0xF⟩] } }, by decide +kernel⟩⟩

theorem test_only_a_save_or_reload_meets_a_collision :
    (tAfter (.hostCycle 0x200 true 2 0xF) (tSt (tSay 11 [] (tOpen .held)))).bus.done = .wrote ∧
    ((tAfter (.hostCycle 0x200 true 2 0xF) (tSt (tMail .run))).bus.host.map HostPort.phase) = some .held ∧
    ((tAfter (.hostCycle 0x200 true 2 0xF) (tSt (tSay 11 [] (tOpen .moving)))).bus.host.map HostPort.phase) = some .held := by
  decide +kernel

/-- A part whose mailbox waits for a word of its fetch. -/
def tReading (todo : List Nat) (aborted : Bool) (m : Memory) : State :=
  ⟨tPort (.mailRead 0x208) (tHost ⟨0x200, true, 0x00010101, 0xF⟩ .fetching
    { tMail .fetch with mbx := { (tMail .fetch).mbx with todo := 0x208 :: todo, aborted := aborted } }), m, []⟩

theorem witness_CommandWordJudged_fetch :
    ∀ todo ∈ [[], [0x20C]], ∀ aborted : Bool, ∀ check ∈ ([0x06, 0x07] : List Byte),
      ∃ (a : Nat) (cmd : Cmd) (h : HostPort) (s : State), s.chip.mode = .running ∧ s.chip.bus.port = some (.mailRead a) ∧
        s.chip.mbx.st = .fetch ∧ s.chip.mbx.todo = 0x208 :: todo ∧ s.chip.mbx.cmd = some cmd ∧ s.chip.bus.host = some h ∧
        h.phase = .fetching ∧ s.chip.mbx.aborted = aborted ∧ cmd.check = true ∧ cmd.length = 1 ∧
        s.mem.read (a / 4 * 4) = 1 ∧ s.mem.read (a / 4 * 4 + 1) = check ∧ s.chip.mbx.got = [] ∧ crc8 [1] = 7 := by
  intro todo _ aborted check hc
  refine ⟨0x208, ⟨1, true, 1⟩, ⟨⟨0x200, true, 0x00010101, 0xF⟩, .fetching⟩, tReading todo aborted [(0x208, 1), (0x209, check)],
    rfl, rfl, rfl, rfl, rfl, rfl, rfl, rfl, rfl, rfl, rfl, ?_, rfl, by decide +kernel⟩
  simp only [List.mem_cons, List.not_mem_nil, or_false] at hc
  rcases hc with rfl | rfl <;> rfl

theorem test_a_fetch_ends :
    (tAfter .memoryCycleDone (tReading [] false [(0x208, 1), (0x209, 7)])).mbx.st = .run ∧
    (tAfter .memoryCycleDone (tReading [] false [(0x208, 1), (0x209, 6)])).mbx.reply = some ⟨.badCheck, 0⟩ ∧
    (tAfter .memoryResponseLimit (tReading [] false [])).mbx.reply = some ⟨.refused, 0x18⟩ ∧
    (tAfter .memoryCycleDone (tReading [0x20C] false [(0x208, 1)])).mbx.st = .fetch := by decide +kernel

/-! ## The mailbox's commands -/

theorem witness_TensionCommandsTaken_up :
    (∃ s : State, inRun cmdTensionUp s.chip = true ∧ s.chip.sup.ts = .tensioning) ∧
    (∃ s : State, inRun cmdTensionUp s.chip = true ∧ s.chip.sup.ts = .slacking) ∧
    (∃ s : State, inRun cmdTensionUp s.chip = true ∧ s.chip.sup.ts = .held) ∧
    (∃ s : State, inRun cmdTensionUp s.chip = true ∧ s.chip.sup.ts = .threaded ∧ (s.chip.mbx.data.getD 0 0).toNat = 8) ∧
    (∃ s : State, inRun cmdTensionUp s.chip = true ∧ s.chip.sup.ts = .threaded ∧ (s.chip.mbx.data.getD 0 0).toNat = 7 ∧
      (s.chip.set.prof 7).valid = false) ∧
    (∃ s : State, inRun cmdTensionUp s.chip = true ∧ s.chip.sup.ts = .threaded ∧ (s.chip.mbx.data.getD 0 0).toNat = 0 ∧
      (s.chip.set.prof 0).valid = true ∧ s.chip.pins.powerFail = true) ∧
    (∃ s : State, inRun cmdTensionUp s.chip = true ∧ s.chip.mode = .running ∧ s.chip.sup.up = true ∧
      s.chip.sup.ts = .threaded ∧ (s.chip.mbx.data.getD 0 0).toNat = 0 ∧ (s.chip.set.prof 0).valid = true ∧
      s.chip.pins = noInputs ∧ s.chip.drv.carry = .none) :=
  ⟨⟨tSt (tSay 1 [0] (tIn .tensioning)), by decide +kernel⟩, ⟨tSt (tSay 1 [0] (tIn .slacking)), by decide +kernel⟩,
    ⟨tSt (tSay 1 [0] (tIn .held)), by decide +kernel⟩, ⟨tSt (tSay 1 [8] (tIn .threaded)), by decide +kernel⟩,
    ⟨tSt (tSay 1 [7] (tIn .threaded)), by decide +kernel⟩,
    ⟨tSt (tSay 1 [0] { tValid (tIn .threaded) with pins := { noInputs with powerFail := true } }), by decide +kernel⟩,
    ⟨tSt (tSay 1 [0] (tValid (tIn .threaded))), by decide +kernel⟩⟩

theorem test_tension_up :
    (tAfter .tensionUp (tSt (tSay 1 [0] (tValid (tIn .threaded))))).sup.ts = .tensioning ∧
    (tAfter .tensionUp (tSt (tSay 1 [0] (tIn .threaded)))).mbx.reply = some ⟨.refused, 0x11⟩ := by decide +kernel

theorem witness_TensionCommandsTaken_down :
    (∃ s : State, inRun cmdSlackDown s.chip = true ∧ s.chip.sup.ts = .held) ∧
    (∃ s : State, inRun cmdSlackDown s.chip = true ∧ s.chip.sup.ts = .tensioning) ∧
    (∃ s : State, inRun cmdSlackDown s.chip = true ∧ s.chip.sup.ts ≠ .held ∧ s.chip.sup.ts ≠ .tensioning) :=
  ⟨⟨tSt (tSay 2 [] (tIn .held)), by decide⟩, ⟨tSt (tSay 2 [] (tIn .tensioning)), by decide⟩,
    ⟨tSt (tSay 2 [] (tIn .moving)), by decide⟩⟩

theorem test_slack_down_drops_the_grant :
    (tAfter .slackDown (tSt (tSay 2 [] (tGrant (tIn .held))))).gnt.active = none ∧
    (tAfter .slackDown (tSt (tSay 2 [] (tGrant (tIn .held))))).sup.ts = .slacking ∧
    (tAfter .slackDown (tSt (tSay 2 [] (tIn .moving)))).mbx.reply = some ⟨.busy, 0⟩ := by decide +kernel

/-- The 16 bytes of a choice of a profile, at 50,000 with an acceleration of 2000 and a varispeed range of 1000. -/
def tBytes (profile : Byte) : List Byte :=
  [profile, 0xF, 1, 0, 0x50, 0xC3, 0, 0, 0xD0, 0x07, 0, 0, 0xE8, 0x03, 0, 0]

/-- A part asked for a grant of two choices, in a state. -/
def tAsk (ts : TState) (a b : Byte) : Chip := tSay 3 (tBytes a ++ tBytes b) (tValid (tIn ts))

theorem witness_GrantCommandsTaken :
    (∃ s : State, inRun cmdRequestGrant s.chip = true ∧ s.chip.sup.ts = .catching) ∧
    (∃ s : State, inRun cmdRequestGrant s.chip = true ∧ s.chip.sup.ts = .unthreaded) ∧
    (∃ s : State, inRun cmdRequestGrant s.chip = true ∧ s.chip.sup.ts = .tensioning ∧ s.chip.gnt.request = none) ∧
    (∃ s : State, inRun cmdRequestGrant s.chip = true ∧ s.chip.sup.ts = .held ∧
      passedChoices s.chip (choicesOf s.chip.mbx.data) = []) ∧
    (∃ (g : Granted) (rest : List Granted) (s : State), inRun cmdRequestGrant s.chip = true ∧ s.chip.sup.ts = .held ∧
      passedChoices s.chip (choicesOf s.chip.mbx.data) = g :: rest) ∧
    (∃ s : State, inRun cmdDropGrant s.chip = true ∧ s.chip.sup.ts = .moving) ∧
    (∃ s : State, inRun cmdDropGrant s.chip = true ∧ s.chip.sup.ts = .held ∧ TrimOk s ∧ s.chip.gnt.active ≠ none) ∧
    (∃ (q : List Choice) (s : State), inRun cmdDropGrant s.chip = true ∧ s.chip.sup.ts = .threaded ∧
      s.chip.mode = .running ∧ s.chip.gnt.request = some q) ∧
    (∃ s : State, inRun cmdDropGrant s.chip = true ∧ s.chip.sup.ts = .threaded ∧ s.chip.gnt.request = none) ∧
    (∃ s : State, inRun cmdDropGrant s.chip = true ∧ s.chip.sup.ts = .catching) :=
  ⟨⟨tSt (tAsk .catching 0 0), by decide +kernel⟩, ⟨tSt (tAsk .unthreaded 0 0), by decide +kernel⟩,
    ⟨tSt (tAsk .tensioning 0 0), by decide +kernel⟩, ⟨tSt (tAsk .held 8 1), by decide +kernel⟩,
    ⟨⟨tChoice, 1⟩, [], tSt (tAsk .held 8 0), by decide +kernel⟩, ⟨tSt (tSay 4 [] (tIn .moving)), by decide +kernel⟩,
    ⟨tSt (tSay 4 [] (tGrant (tIn .held))), by unfold TrimOk; decide +kernel⟩,
    ⟨[tChoice], tSt (tSay 4 [] { tIn .threaded with gnt := { GrantUnit.reset with request := some [tChoice] } }), by
      decide +kernel⟩,
    ⟨tSt (tSay 4 [] (tIn .threaded)), by decide +kernel⟩, ⟨tSt (tSay 4 [] (tIn .catching)), by decide +kernel⟩⟩

theorem witness_GrantCommandsTaken_checks :
    let c := tValid (tIn .held)
    [{ tChoice with profile := 8 }, { tChoice with profile := 1 }, { tChoice with accel := 99 }, { tChoice with codes := 16 }].map
      (checkChoice c) = List.replicate 4 .invalid ∧
    checkChoice { c with gnt := { c.gnt with threaded := some 1 } } tChoice = .mismatch ∧
    [{ tChoice with maxSpeed := 120001 }, { tChoice with vari := 2001 }].map (checkChoice c) = List.replicate 2 .exceeds ∧
    [tChoice, { tChoice with accel := 0 }, { tChoice with accel := 100, vari := 2000, codes := 15 }].map (checkChoice c) =
      List.replicate 3 .passed ∧
    outcomesByte [.passed, .mismatch, .exceeds, .invalid] = 0x78 := by decide +kernel

theorem test_a_grant_of_the_second_choice :
    (tAfter .requestGrant (tSt (tAsk .held 8 0))).mbx.reply = some ⟨.granted, 0x51⟩ ∧
    (tAfter .requestGrant (tSt (tAsk .held 8 0))).gnt.active = some ⟨tChoice, 1⟩ ∧
    (tAfter .requestGrant (tSt (tAsk .threaded 8 0))).mbx.reply = some ⟨.deferred, 0⟩ := by decide +kernel

theorem test_drop_grant :
    (tAfter .dropGrant (tSt (tSay 4 [] (tGrant (tIn .held))))).gnt.active = none ∧
    (tAfter .dropGrant (tSt (tSay 4 [] (tIn .held)))).mbx.reply = some ⟨.done, 1⟩ := by decide +kernel

/-- The data of a SET_CUE of an index at position −2, tolerance 5, limit 9000. -/
def tCueBytes (n : Byte) : List Byte :=
  [n, 0, 5, 0, 0xFE, 0xFF, 0xFF, 0xFF, 0x28, 0x23, 0, 0] ++ List.replicate 8 0x20

/-- A cue. -/
def tCue : Cue := ⟨-2, 5, 9000, 0x2020202020202020⟩

/-- A part with cue 31 set. -/
def tCued (c : Chip) : Chip := { c with cue := ⟨(List.replicate 32 none).set 31 (some tCue), []⟩ }

/-- The data of a SET_CUE of index 0 with the tolerance 4096. -/
def tBadCue : List Byte := [0, 0, 0, 0x10] ++ List.replicate 16 0

theorem witness_CueCommandsTaken :
    (∃ s : State, inRun cmdSetCue s.chip = true ∧ s.chip.mode = .running ∧ (s.chip.mbx.data.getD 0 0).toNat = 32) ∧
    (∃ s : State, inRun cmdSetCue s.chip = true ∧ s.chip.mode = .running ∧ (s.chip.mbx.data.getD 0 0).toNat = 0 ∧
      (s.chip.mbx.data.getD 2 0).toNat + 256 * (s.chip.mbx.data.getD 3 0).toNat = 4096) ∧
    (∃ s : State, inRun cmdSetCue s.chip = true ∧ s.chip.mode = .running ∧ (s.chip.mbx.data.getD 0 0).toNat = 31 ∧
      (s.chip.mbx.word 4).toInt = -2 ∧ (s.chip.mbx.data.getD 2 0).toNat + 256 * (s.chip.mbx.data.getD 3 0).toNat = 5 ∧
      (s.chip.mbx.word 8).toNat = 9000 ∧ s.chip.cue.cues.getD 31 none = none) ∧
    (∃ s : State, inRun cmdClearCue s.chip = true ∧ s.chip.mode = .running ∧ (s.chip.mbx.data.getD 0 0).toNat = 254) ∧
    (∃ s : State, inRun cmdClearCue s.chip = true ∧ s.chip.mode = .running ∧ (s.chip.mbx.data.getD 0 0).toNat = 31 ∧
      s.chip.cue.cues.getD 31 none = none) ∧
    (∃ s : State, inRun cmdClearCue s.chip = true ∧ s.chip.mode = .running ∧ (s.chip.mbx.data.getD 0 0).toNat = 31 ∧
      s.chip.cue.cues.getD 31 none ≠ none) ∧
    (∃ s : State, inRun cmdClearCue s.chip = true ∧ s.chip.mode = .running ∧ (s.chip.mbx.data.getD 0 0).toNat = 0xFF ∧
      ∀ k, k < 32 → s.chip.cue.cues.getD k none = none) ∧
    (∃ s : State, inRun cmdClearCue s.chip = true ∧ s.chip.mode = .running ∧ (s.chip.mbx.data.getD 0 0).toNat = 0xFF ∧
      (List.range 32).filter (fun k => (s.chip.cue.cues.getD k none).isSome) = [31]) ∧
    (∃ q : Cue, q.tolerance = 4095 ∧ q.limit = 65535) :=
  ⟨⟨tSt (tSay 5 (tCueBytes 32) tRun), by decide +kernel⟩, ⟨tSt (tSay 5 tBadCue tRun), by decide +kernel⟩,
    ⟨tSt (tSay 5 (tCueBytes 31) tRun), by decide +kernel⟩, ⟨tSt (tSay 6 [254] tRun), by decide +kernel⟩,
    ⟨tSt (tSay 6 [31] tRun), by decide +kernel⟩, ⟨tSt (tSay 6 [31] (tCued tRun)), by decide +kernel⟩,
    ⟨tSt (tSay 6 [0xFF] tRun), by decide +kernel⟩, ⟨tSt (tSay 6 [0xFF] (tCued tRun)), by decide +kernel⟩,
    ⟨⟨-2, 4095, 65535, 0⟩, by decide⟩⟩

theorem test_set_cue :
    (tAfter .setCue (tSt (tSay 5 (tCueBytes 31) tRun))).cue.cues.getD 31 none = some tCue ∧
    ((tAfter .setCue (tSt (tSay 5 (tCueBytes 31) tRun))).cue.list.map (·.map PartWrite.data)) =
      [[0x20202020, 0x20202020, 0xFFFFFFFE, 0x23288005]] ∧
    (tAfter .setCue (tSt (tSay 5 (tCueBytes 31) (tCued tRun)))).mbx.reply = some ⟨.done, 3⟩ ∧
    (tAfter .setCue (tSt (tSay 5 tBadCue tRun))).mbx.reply = some ⟨.refused, 0x13⟩ := by decide +kernel

theorem test_clear_cue :
    (tAfter .clearCue (tSt (tSay 6 [0xFF] (tCued tRun)))).cue.cues = List.replicate 32 none ∧
    ((tAfter .clearCue (tSt (tSay 6 [0xFF] (tCued tRun)))).evt.posted.map Event.value) = [1] ∧
    (tAfter .clearCue (tSt (tSay 6 [0xFF] tRun))).mbx.reply = some ⟨.done, 1⟩ := by decide +kernel

/-- A part in TRIPPED with a reel turning or not. -/
def tTripped (turning : Bool) : Chip :=
  { tIn .tripped with trk := { (tIn .tripped).trk with
    sup := { ReelMeasure.reset with pulses := turning.toNat :: List.replicate 99 0 } } }

theorem witness_PositionAndFaultCommands :
    (∃ s : State, inRun cmdSetPosition s.chip = true ∧ s.chip.sup.ts = .catching) ∧
    (∃ s : State, inRun cmdSetPosition s.chip = true ∧ s.chip.sup.ts = .unthreaded ∧ s.chip.trk.path ≠ .present) ∧
    (∃ s : State, inRun cmdSetPosition s.chip = true ∧ s.chip.sup.ts = .held ∧ s.chip.trk.path = .present ∧
      (s.chip.mbx.word 0).toInt = 16777216) ∧
    (∃ s : State, inRun cmdSetPosition s.chip = true ∧ s.chip.sup.ts = .held ∧ s.chip.trk.path = .present ∧
      (s.chip.mbx.word 0).toInt = -16777216) ∧
    (∃ s : State, inRun cmdClearFault s.chip = true ∧ s.chip.pins.fltCap = true) ∧
    (∃ s : State, inRun cmdClearFault s.chip = true ∧ s.chip.pins = noInputs ∧ s.chip.sup.ts = .tripped ∧
      s.chip.trk.reelsStopped = false) ∧
    (∃ s : State, inRun cmdClearFault s.chip = true ∧ s.chip.pins = noInputs ∧ s.chip.sup.ts = .tripped ∧
      s.chip.trk.reelsStopped = true) ∧
    (∃ s : State, inRun cmdClearFault s.chip = true ∧ s.chip.pins = noInputs ∧ s.chip.sup.ts ≠ .tripped ∧
      s.chip.sup.latch = true) ∧
    (∃ s : State, inRun cmdClearFault s.chip = true ∧ s.chip.pins = noInputs ∧ s.chip.sup.ts ≠ .tripped ∧
      s.chip.sup.latch = false) :=
  ⟨⟨tSt (tSay 7 [0, 0, 0, 0] (tIn .catching)), by decide +kernel⟩, ⟨tSt (tSay 7 [0, 0, 0, 0] tRun), by decide +kernel⟩,
    ⟨tSt (tSay 7 [0, 0, 0, 1] (tIn .held)), by decide +kernel⟩, ⟨tSt (tSay 7 [0, 0, 0, 0xFF] (tIn .held)), by decide +kernel⟩,
    ⟨tSt (tSay 8 [] { tIn .held with pins := { noInputs with fltCap := true } }), by decide +kernel⟩,
    ⟨tSt (tSay 8 [] (tTripped true)), by decide +kernel⟩, ⟨tSt (tSay 8 [] (tTripped false)), by decide +kernel⟩,
    ⟨tSt (tSay 8 [] { tIn .held with sup := { (tIn .held).sup with latch := true } }), by decide +kernel⟩,
    ⟨tSt (tSay 8 [] (tIn .held)), by decide +kernel⟩⟩

theorem test_set_position :
    (tAfter .setPosition (tSt (tSay 7 [0, 0, 0, 0xFF] (tIn .held)))).trk.position = -16777216 ∧
    (tAfter .setPosition (tSt (tSay 7 [0, 0, 0, 1] (tIn .held)))).mbx.reply = some ⟨.refused, 0x13⟩ := by decide +kernel

theorem test_clear_fault :
    (tAfter .clearFault (tSt (tSay 8 [] (tTripped false)))).sup.ts = .threaded ∧
    (tAfter .clearFault (tSt (tSay 8 [] (tTripped true)))).mbx.reply = some ⟨.busy, 0⟩ := by decide +kernel

theorem witness_SettingsOpenClose :
    (∃ s : State, inRun cmdOpenSettings s.chip = true ∧ s.chip.set.isOpen = false) ∧
    (∃ s : State, inRun cmdCloseSettings s.chip = true ∧ s.chip.set.isOpen = true) ∧ (∃ s : State, s.chip.mode ≠ .bypass) :=
  ⟨⟨tSt (tSay 9 [] (tIn .held)), by decide⟩, ⟨tSt (tSay 10 [] (tOpen .moving)), by decide⟩, ⟨tSt tRun, by decide⟩⟩

theorem test_open_and_close_settings :
    (tAfter .openSettings (tSt (tSay 9 [] (tIn .held)))).set.isOpen = true ∧
    (tAfter .openSettings (tSt (tSay 9 [] (tOpen .held)))).mbx.reply = some ⟨.done, 1⟩ ∧
    (tAfter .closeSettings (tSt (tSay 10 [] (tOpen .held)))).set.isOpen = false := by decide +kernel

/-- A part in the middle of a reload, of a store. -/
def tReload (nv : List Byte) (n : Nat) (coming : List ReadErrors) (ts : TState) : State :=
  tSt (tSay 12 [] { tIn ts with
    set := { (tOpen ts).set with nv := nv, reloading := true, reads := n, coming := coming } })

theorem witness_StoreCommandsTaken :
    (∃ s : State, s.chip.set.saving = false ∧ s.chip.set.reloading = false ∧ inRun cmdSaveSettings s.chip = true ∧
      s.chip.set.isOpen = true ∧ s.chip.sup.ts = .held ∧ s.chip.trk.reelsStopped = true) ∧
    (∃ s : State, s.chip.set.saving = false ∧ s.chip.set.reloading = false ∧ inRun cmdSaveSettings s.chip = true ∧
      s.chip.set.isOpen = true ∧ s.chip.trk.reelsStopped = false) ∧
    (∃ s : State, s.chip.set.saving = false ∧ s.chip.set.reloading = false ∧ inRun cmdReloadSettings s.chip = true ∧
      s.chip.set.isOpen = true ∧ s.chip.sup.ts = .moving) ∧
    (∃ s : State, s.chip.set.saving = false ∧ s.chip.set.reloading = false ∧ inRun cmdReloadSettings s.chip = true ∧
      s.chip.set.isOpen = true ∧ s.chip.sup.ts = .tripped ∧ s.chip.trk.reelsStopped = true) ∧
    (∃ s : State, s.chip.set.saving = false ∧ s.chip.set.reloading = false ∧ inRun cmdReloadSettings s.chip = true ∧
      s.chip.set.isOpen = false) ∧
    (∃ s : State, s.chip.set.saving = true ∧ s.chip.set.profs.length = 8) ∧
    (∃ s : State, s.chip.set.reloading = true ∧ s.chip.set.reads + 1 = 2 ∧
      storePasses ((s.chip.set.coming.headD []).foldl (fun bs e => bs.set e.1.toNat e.2) s.chip.set.nv) = false) ∧
    (∃ s : State, s.chip.set.reloading = true ∧ s.chip.set.reads + 1 = 3 ∧
      storePasses ((s.chip.set.coming.headD []).foldl (fun bs e => bs.set e.1.toNat e.2) s.chip.set.nv) = false) ∧
    (∃ s : State, s.chip.set.reloading = true ∧ s.chip.admitsStore = false ∧
      storePasses ((s.chip.set.coming.headD []).foldl (fun bs e => bs.set e.1.toNat e.2) s.chip.set.nv) = true) ∧
    (∃ s : State, s.chip.set.reloading = true ∧ s.chip.admitsStore = true ∧
      s.chip.gnt.active = none ∧ storePasses s.chip.set.nv = false ∧
      storePasses ((s.chip.set.coming.headD []).foldl (fun bs e => bs.set e.1.toNat e.2) s.chip.set.nv) = true) :=
  ⟨⟨tSt (tSay 11 [] (tOpen .held)), by decide +kernel⟩,
    ⟨tSt (tSay 11 [] { tTripped true with set := (tOpen .held).set }), by decide +kernel⟩,
    ⟨tSt (tSay 12 [] (tOpen .moving)), by decide +kernel⟩, ⟨tSt (tSay 12 [] (tOpen .tripped)), by decide +kernel⟩,
    ⟨tSt (tSay 12 [] (tIn .held)), by decide +kernel⟩,
    ⟨tSt { tRun with set := { tRun.set with saving := true } }, by decide +kernel⟩,
    ⟨tReload (tStore 1) 1 [] .held, rfl, rfl, test_store_passes_by_its_last_byte 1⟩,
    ⟨tReload (tStore 1) 2 [] .held, rfl, rfl, test_store_passes_by_its_last_byte 1⟩,
    ⟨tReload (tStore 0) 0 [] .moving, rfl, by decide +kernel, test_store_passes_by_its_last_byte 0⟩,
    ⟨tReload (tStore 1) 2 [tWrong] .held, rfl, by decide +kernel, rfl, test_store_passes_by_its_last_byte 1,
      (congrArg storePasses test_a_read_gets_its_errors).trans (test_store_passes_by_its_last_byte 0)⟩⟩

/-- A store that passes its check, its first profile entry valid or not, and zeros elsewhere. -/
def tImage (valid : Bool) : List Byte :=
  if valid then List.replicate 72 0 ++ ([1, 7] ++ List.replicate 438 0) else tStore 0

theorem test_zeros_keep_a_zero_crc (n : Nat) : (List.replicate n (0 : Byte)).foldl crcByte 0 = 0 := test_crc_of_zeros n

theorem test_store_of_an_entry_passes (valid : Bool) : storePasses (tImage valid) = true := by
  cases valid
  · exact test_store_passes_by_its_last_byte 0
  · have h : (tImage true).take 511 = List.replicate 72 0 ++ ([1, 7] ++ List.replicate 437 0) := by decide +kernel
    have k : (tImage true).getD 511 0 = 0 := by decide +kernel
    have c : [1, 7].foldl crcByte 0 = (0 : Byte) := by decide +kernel
    simp only [storePasses, h, k, crc8, List.foldl_append, test_zeros_keep_a_zero_crc, c, beq_self_eq_true]

/-- A choice within a profile entry of zeros, or above it. -/
def tZero (speed position : Nat) : Granted := ⟨⟨0, 0, false, speed, 0, 0⟩, position⟩

/-- A part in the middle of a reload of a store of tImage, in HELD with a grant. -/
def tRegrant (valid : Bool) (active : Granted) (fallback : List Granted) : State :=
  let s := tReload (tImage valid) 0 [] .held
  { s with chip := { s.chip with
    gnt := { GrantUnit.reset with threaded := some 0, active := some active, fallback := fallback } } }

/-- Whether a choice passes against the settings a reload would load. -/
def tPasses (g : Granted) (s : State) : Bool :=
  checkChoice { s.chip with set := s.chip.set.load s.chip.set.nv } g.choice == .passed

theorem witness_StoreCommandsTaken_recheck :
    (∀ valid : Bool, ∀ fallback ∈ [[], [tZero 1 3]], ∃ (a : Granted) (s : State), s.chip.mode = .running ∧
      s.chip.set.reloading = true ∧ storePasses s.chip.set.nv = true ∧ s.chip.admitsStore = true ∧
      s.chip.gnt.active = some a ∧ s.chip.gnt.fallback = fallback ∧ tPasses a s = valid ∧
      tPasses (tZero 1 3) s = false ∧ s.chip.eng.cur = none) ∧
    (∃ (a g : Granted) (s : State), s.chip.mode = .running ∧ s.chip.set.reloading = true ∧
      storePasses s.chip.set.nv = true ∧ s.chip.admitsStore = true ∧ s.chip.gnt.active = some a ∧
      tPasses a s = false ∧ s.chip.gnt.fallback = [g] ∧ tPasses g s = true) :=
  ⟨fun valid fallback _ => ⟨tZero 0 0, tRegrant valid (tZero 0 0) fallback, rfl, rfl, test_store_of_an_entry_passes valid,
      by cases valid <;> rfl, rfl, rfl, by cases valid <;> rfl, by cases valid <;> rfl, rfl⟩,
    ⟨tZero 1 3, tZero 0 1, tRegrant true (tZero 1 3) [tZero 0 1], rfl, rfl, test_store_of_an_entry_passes true,
      by decide +kernel, rfl, by decide +kernel, rfl, by decide +kernel⟩⟩

theorem witness_StoreCommandsTaken_image : ∃ s : Store, s.profs.length = 8 ∧ tInRange s.gen ∧
    (∀ x ∈ s.profs, x.width ≤ 3 ∧ x.park ≤ x.maxTension ∧ x.nominal ≤ x.maxTension ∧ x.wind ≤ x.maxTension ∧
      x.maxTension ≤ widthCeiling x.width ∧ x.slack < x.low ∧ x.low < x.high ∧ x.high < x.overLevel ∧ x.overLevel ≤ 4095 ∧
      200 ≤ x.hub ∧ x.hub < x.full ∧ x.full ≤ 2000 ∧ x.hub + x.nearMargin ≤ x.full ∧ x.nearSpeed ≤ x.maxSpeed ∧
      x.maxSpeed ≤ 120000 ∧ x.lifterSpeed ≤ 120000 ∧ 100 ≤ x.maxAccel ∧ x.maxAccel ≤ 30000 ∧ 10 ≤ x.creepSpeed ∧
      x.creepSpeed ≤ 10000 ∧ x.creepDistance ≤ 32000) ∧ s.profs[7]? = some Profile.default :=
  ⟨Store.reset, by decide +kernel, by unfold tInRange; decide, by decide +kernel, by decide +kernel⟩

theorem test_image_words :
    Store.reset.imageWord 0 = 0x012C0320 ∧ Store.reset.image.getD (64 + 48 * 7 + 9) 0 = 2 := by decide +kernel

theorem test_save_and_reload_are_judged :
    (tAfter .saveSettings (tSt (tSay 11 [] (tOpen .held)))).set.saving = true ∧
    (tAfter .saveSettings (tSt (tSay 11 [] (tOpen .moving)))).mbx.reply = some ⟨.refused, 0x15⟩ ∧
    (tAfter .reloadSettings (tSt (tSay 12 [] (tIn .held)))).mbx.reply = some ⟨.locked, 0⟩ ∧
    (tAfter .reloadSettings (tSt (tSay 12 [] (tOpen .held)))).set.reloading = true := by decide +kernel

/-- A part whose mailbox is to reply. -/
def tReply (n : Nat) : State :=
  tSt (tBusy n { tRun with mbx := { Mailbox.reset with
    st := .reply, cmd := some ⟨9, false, 0⟩, reply := some ⟨.done, 1⟩, copy := 9 } })

theorem witness_CommandWordJudged_reply : ∃ (r : Reply) (cmd : Cmd) (s : State), s.chip.mode = .running ∧ s.chip.mbx.st = .reply ∧
    s.chip.mbx.reply = some r ∧ s.chip.mbx.cmd = some cmd ∧ blockPassed s.chip = true ∧ s.chip.mbx.wait = [] ∧
    s.chip.bus.queue.length + 2 = 12 := ⟨⟨.done, 1⟩, ⟨9, false, 0⟩, tReply 10, by decide +kernel⟩

theorem test_reply_word :
    ((tAfter .mailboxReply (tReply 0)).bus.queue) = [⟨0x204, 0x00090101, 0xF⟩, ⟨0x200, 0, 0xF⟩] ∧
    (tAfter .mailboxReply (tReply 0)).mbx.st = .idle ∧ (tAfter .mailboxReply (tReply 0)).ntc.pending = 0x80 := by
  decide +kernel

/-- A part whose mailbox has fetched a block with its check byte. -/
def tFetched (len : Nat) (w : Word) : Chip :=
  { tRun with mbx := { Mailbox.reset with st := .fetch, cmd := some ⟨1, true, len⟩, got := [w] } }

theorem witness_CrcIsRule :
    (∃ (c : Chip) (cmd : Cmd), c.mbx.cmd = some cmd ∧ cmd.check = true ∧ c.mbx.aborted = false ∧
      (c.mbx.got.flatMap wordBytes).getD cmd.length 0 = crc8 ((c.mbx.got.flatMap wordBytes).take cmd.length)) ∧
    (∃ (c : Chip) (cmd : Cmd), c.mbx.cmd = some cmd ∧ cmd.check = true ∧ c.mbx.aborted = false ∧
      (c.mbx.got.flatMap wordBytes).getD cmd.length 0 ≠ crc8 ((c.mbx.got.flatMap wordBytes).take cmd.length)) ∧
    (∃ (c : Chip) (cmd : Cmd) (w : Word), c.mbx.cmd = some cmd ∧ cmd.length = 0 ∧ cmd.check = true ∧ c.mbx.got = [w] ∧
      c.mbx.aborted = false ∧ byteOf w 0 = 0) :=
  ⟨⟨tFetched 1 0x0701, ⟨1, true, 1⟩, by decide +kernel⟩, ⟨tFetched 1 0x0601, ⟨1, true, 1⟩, by decide +kernel⟩,
    ⟨tFetched 0 0xFF00, ⟨1, true, 0⟩, 0xFF00, by decide +kernel⟩⟩

theorem test_check_byte_is_judged :
    (fetchJudged (tFetched 1 0x0701)).mbx.st = .run ∧ (fetchJudged (tFetched 1 0x0601)).mbx.reply = some ⟨.badCheck, 0⟩ := by
  decide +kernel

end Sys2Proof.Machine
end

namespace Sys2Proof.TapePath

open Sys2Proof Sys2Proof.Machine Sys2Proof.Laws

/-- A step keeps whatever of what always stands stood before it: an idle step is no change, and every other is one
command (R1 to R4, R12 among it). -/
theorem step_kept {s t : State} (h : step s = .next t) : Kept s.chip t.chip := by
  unfold step at h
  split at h
  next =>
    cases h
    exact .refl _
  next i rest _ =>
    have hk : Kept (s.popped rest).chip t.chip := exec_kept i h
    exact hk

/-- Settles O6: the range of the counter and the place of POSITION_VALID are two of the things that `Kept` carries
through every command. -/
theorem stepKeepsPosition : Obligations.StepKeepsPosition :=
  ⟨fun _ _ hok h => (step_kept h).position hok, fun _ _ hok h => (step_kept h).valid hok⟩

end Sys2Proof.TapePath

namespace Sys2Proof.TapePath

open Sys2Proof Sys2Proof.Machine Sys2Proof.Laws

/-! ## The tracker's count and millisecond (R1, R2, R5, R6, R8, R14) -/

/-- The tape speed by the window's sum (R5). -/
theorem tapeSpeed_eq (t : Tracker) :
    t.tapeSpeed = max (-120000) (min 120000 ((t.rollWin.sum * 125).tdiv 4)) := by
  simp only [Tracker.tapeSpeed, clampInt, List.sum_eq_foldl]
  rfl

section Count

variable (t : Tracker) (leader : Bool) (d : Dir)

@[simp] theorem count_position :
    (t.count leader d).position = if t.sticks d then t.position else t.position + unitOf d := by
  simp only [Tracker.count]; split <;> rfl

@[simp] theorem count_valid : (t.count leader d).valid = (t.valid && !t.sticks d) := by
  simp only [Tracker.count]; split <;> rfl

@[simp] theorem count_rollWin : (t.count leader d).rollWin = bumpInt (unitOf d) t.rollWin := by
  simp only [Tracker.count]; split <;> rfl

@[simp] theorem count_lastDir : (t.count leader d).lastDir = some d := by
  simp only [Tracker.count]; split <;> rfl

@[simp] theorem count_path : (t.count leader d).path = t.path := by
  simp only [Tracker.count]; split <;> rfl

@[simp] theorem count_debounce : (t.count leader d).debounce = t.debounce := by
  simp only [Tracker.count]; split <;> rfl

/-- The flag and its clearing count: both go at the 80th count (R14). -/
theorem count_flag : ((t.count leader d).endFlag, (t.count leader d).clearing) =
    if 80 ≤ t.clearCount leader d ∧ t.endFlag ≠ .none then (.none, 0) else (t.endFlag, t.clearCount leader d) := by
  simp only [Tracker.count]; split <;> rfl

/-- A reel's measure takes the count, and is then judged by the tape speed the count gives (R8). -/
theorem count_reel (r : Reel) :
    (t.count leader d).reel r = abandonSlow (t.count leader d).tapeSpeed ((t.reel r).roll d) := by
  simp only [Tracker.count]; split <;> cases r <;> rfl

end Count

theorem sticks_forward (t : Tracker) : t.sticks .forward = true ↔ 16777215 ≤ t.position := by simp [Tracker.sticks]

theorem sticks_reverse (t : Tracker) : t.sticks .reverse = true ↔ t.position ≤ -16777216 := by simp [Tracker.sticks]

/-- With the flag NONE a count leaves the flag and the clearing count (R14). -/
theorem count_noFlag {t : Tracker} (leader : Bool) (d : Dir) (h : t.endFlag = .none) :
    (t.count leader d).endFlag = .none ∧ (t.count leader d).clearing = t.clearing := by
  simpa [h, Tracker.clearCount] using count_flag t leader d

@[simp] theorem roll_pulses (m : ReelMeasure) (d : Dir) : (m.roll d).pulses = m.pulses := by
  unfold ReelMeasure.roll; split <;> rfl

@[simp] theorem roll_radius (m : ReelMeasure) (d : Dir) : (m.roll d).radius = m.radius := by
  unfold ReelMeasure.roll; split <;> rfl

@[simp] theorem roll_arm (m : ReelMeasure) (d : Dir) : (m.roll d).arm = m.arm := by
  unfold ReelMeasure.roll; split <;> rfl

/-- The revolution measure given a count: an idle one stays idle, one in progress takes it (R8). -/
@[simp] theorem roll_rev (m : ReelMeasure) (d : Dir) : (m.roll d).rev = m.rev.bind (·.roll d) := by
  unfold ReelMeasure.roll; split <;> simp_all

theorem revRoll_first {m : RevMeasure} (d : Dir) (h : m.first = none) :
    m.roll d = some { m with rolls := m.rolls + 1, first := some d } := by simp [RevMeasure.roll, h]

theorem revRoll_same {m : RevMeasure} {d : Dir} (h : m.first = some d) :
    m.roll d = some { m with rolls := m.rolls + 1 } := by simp [RevMeasure.roll, h]

theorem revRoll_opposite {m : RevMeasure} {d f : Dir} (h : m.first = some f) (hd : f ≠ d) : m.roll d = none := by
  simp [RevMeasure.roll, h, hd]

/-- A reel after a millisecond: its window aged, and its measure judged by the tape speed then (R6, R8). -/
theorem tick_reel (t : Tracker) (r : Reel) : t.tick.reel r =
    abandonSlow t.tick.tapeSpeed { t.reel r with pulses := ageNat 100 (t.reel r).pulses } := by
  cases r <;> rfl

/-- The radius estimate lies in 200..2000 (R9). -/
theorem radiusOf_range (n : Nat) : 200 ≤ radiusOf n ∧ radiusOf n ≤ 2000 := by
  simp only [radiusOf, clampNat]
  omega

/-- A radius estimate off the limits is the quotient that rounds to the nearest, halves up (R9). -/
theorem radiusOf_inside {n : Nat} (h₁ : 200 < radiusOf n) (h₂ : radiusOf n < 2000) :
    radiusOf n = (4 * twoPiNum + 10 * twoPiDen * n) / (8 * twoPiNum) := by
  simp only [radiusOf, clampNat] at *
  omega

/-- Within the limits the estimate is the whole number nearest to the counts times 1.25 over 2π (R9, log 6). -/
theorem radiusOf_nearest {n : Nat} (h₁ : 200 < radiusOf n) (h₂ : radiusOf n < 2000) :
    4 * twoPiNum * (2 * radiusOf n - 1) ≤ 10 * twoPiDen * n ∧
      10 * twoPiDen * n < 4 * twoPiNum * (2 * radiusOf n + 1) := by
  have hq := radiusOf_inside h₁ h₂
  have hpos : 0 < 8 * twoPiNum := by decide
  have hlow := (Nat.le_div_iff_mul_le hpos).mp hq.le
  have hhigh := (Nat.div_lt_iff_lt_mul hpos).mp (Nat.lt_succ_of_le hq.ge)
  generalize radiusOf n = q at *
  simp only [twoPiNum, twoPiDen] at *
  omega


/-! ## TACH_PULSE -/

/-- A pulse joins the newest bin of its reel's window (R6). -/
@[simp] theorem pulse_pulses (m : ReelMeasure) (v : Int) : (m.pulse v).pulses = bumpNat m.pulses := by
  simp only [ReelMeasure.pulse]
  split
  · split <;> rfl
  · split <;> rfl

@[simp] theorem pulse_arm (m : ReelMeasure) (v : Int) : (m.pulse v).arm = m.arm := by
  simp only [ReelMeasure.pulse]
  split
  · split <;> rfl
  · split <;> rfl

/-- A pulse of a reel with no revolution in progress starts one where the tape is fast enough (R8). -/
theorem pulse_idle {m : ReelMeasure} (v : Int) (h : m.rev = none) : (m.pulse v).radius = m.radius ∧
    (m.pulse v).rev = if 500 ≤ v.natAbs then some ⟨0, 0, none⟩ else none := by
  simp only [ReelMeasure.pulse, h]
  split
  · exact ⟨rfl, rfl⟩
  · exact ⟨rfl, rfl⟩

/-- A pulse within a revolution (R8). -/
theorem pulse_within {m : ReelMeasure} {x : RevMeasure} (v : Int) (h : m.rev = some x) (hn : x.pulses + 1 ≠ 256) :
    (m.pulse v).radius = m.radius ∧ (m.pulse v).rev = some { x with pulses := x.pulses + 1 } := by
  simp [ReelMeasure.pulse, h, hn]

/-- The 256th pulse gives the estimate and starts the next revolution (R8, R9). -/
theorem pulse_last {m : ReelMeasure} {x : RevMeasure} (v : Int) (h : m.rev = some x) (hn : x.pulses + 1 = 256) :
    (m.pulse v).rev = some ⟨0, 0, none⟩ ∧ (m.pulse v).radius = radiusOf x.rolls := by
  simp [ReelMeasure.pulse, h, hn]

/-- A pulse in the newest bin raises the pulse rate by 10 (R6). -/
theorem pulseRate_bump {m m' : ReelMeasure} {b : Nat} {bs : List Nat} (h : m.pulses = b :: bs)
    (h' : m'.pulses = (b + 1) :: bs) : m'.pulseRate = m.pulseRate + 10 := by
  simp only [ReelMeasure.pulseRate, h, h', ← List.sum_eq_foldl, List.sum_cons]
  omega

/-- Settles O14: the pulse by what its reel's revolution measure is, and the estimate by its quotient. -/
theorem tachPulseTaken : Obligations.TachPulseTaken := by
  unfold Obligations.TachPulseTaken
  refine ⟨fun s r => ?_, radiusOf_range, by decide, by decide, by decide, fun n => radiusOf_nearest⟩
  refine ⟨(s.chip.trk.reel r).pulse s.chip.trk.tapeSpeed, rfl, pulse_arm _ _, fun b bs h => ?_,
    pulse_idle _, fun v => pulse_within _, fun v => pulse_last _⟩
  have hp : ((s.chip.trk.reel r).pulse s.chip.trk.tapeSpeed).pulses = (b + 1) :: bs := by
    rw [pulse_pulses, h, bumpNat]
  exact ⟨hp, pulseRate_bump h hp⟩

/-! ## CAPSTAN_PULSE and SPEED_WINDOW_TICK -/

/-- A pulse in the newest bin of the capstan's window raises the measured speed by 5 in the command's direction (R62). -/
theorem measuredCapstan_bump {d : Drive} {b : Nat} {bs : List Nat} (h : d.capWin = b :: bs) :
    ({ d with capWin := (b + 1) :: bs } : Drive).measuredCapstan =
      d.measuredCapstan + (if d.capSpeed < 0 then -5 else 5) := by
  simp only [Drive.measuredCapstan, h, ← List.sum_eq_foldl, List.sum_cons]
  split <;> omega

/-- No followed reel is judged outside TRIPPED with no stop of the stage's own running (R49, R71). -/
theorem followReels_idle {c : Chip} (ht : c.sup.ts ≠ .tripped) (hc : c.drv.carry ≠ .expired) : followReels c = c := by
  simp [followReels, Drive.ownStop, ht, hc]

theorem stopEnd_idle {c : Chip} (h : ¬ (c.sup.ts = .stopping ∧ c.eng.ref = 0 ∧ c.eng.haltHold = false ∧
    c.trk.reelsStopped = true)) : stopEnd c = c := if_neg h

theorem catchEnd_idle {c : Chip} (h : ¬ (c.sup.ts = .catching ∧ c.sup.claimPending = false ∧ c.sup.catchHold = false ∧
    c.eng.ref = 0 ∧ c.trk.reelsStopped = true)) : catchEnd c = c := if_neg h

/-- A LOCATE in BRAKE is judged at rest in MOVING alone (R146). -/
theorem judgeBrake_moving {c : Chip} (h : ∀ g, c.eng.cur = some g → g.phase = .brake → c.sup.ts = .moving →
    c.eng.ref = 0 → c.trk.tapeSpeed ≠ 0) : judgeBrake c = c := by
  unfold judgeBrake
  split
  next g hg =>
    split
    next hp => exact if_neg fun ⟨ht, hr, hv⟩ => h g hg hp ht hr hv
    next => rfl
  next => rfl

/-- Settles O15: the tick's own changes are the tracker's and the stage's, and each thing it may end is idle. -/
theorem capstanPulseAndTick : Obligations.CapstanPulseAndTick := by
  unfold Obligations.CapstanPulseAndTick
  refine ⟨fun s b bs h => ⟨?_, measuredCapstan_bump h⟩, fun s hmove hcarry htrip => ?_, fun t => ?_⟩
  · simp only [exec, execCapstanPulse, State.onChip, State.withChip, onDrive, h, bumpNat]
  · intro t hstop hcatch hbrake
    let c := onDrive (·.tick) (onTrk (·.tick) s.chip)
    have hidle : tickStep s.chip = c := by
      have hf : followReels c = c := followReels_idle htrip hcarry
      have hs : stopEnd c = c := stopEnd_idle hstop
      have hc : catchEnd c = c := catchEnd_idle hcatch
      have hb : judgeBrake c = c := judgeBrake_moving hbrake
      simp only [tickStep, settleMoves_idle hmove]
      rw [hf, hs, hc, hb]
    simp only [exec, execSpeedWindowTick, State.onChip, hidle]
    rfl
  · refine ⟨rfl, rfl, rfl, rfl, rfl, rfl, rfl, rfl, fun r => ?_⟩
    rw [tick_reel, abandonSlow_pulses, abandonSlow_radius, abandonSlow_arm, abandonSlow_rev]
    exact ⟨rfl, rfl, rfl, fun hv => if_pos hv, fun hv => if_neg (by omega)⟩

end Sys2Proof.TapePath

namespace Sys2Proof.TapePath

open Sys2Proof Sys2Proof.Machine Sys2Proof.Laws


/-! ## ROLLER_COUNT: what the count means to the current segment -/

/-- A position lies at a target or beyond it in a direction. -/
def Beyond (d : Dir) (target pos : Int) : Prop :=
  match d with
  | .forward => target ≤ pos
  | .reverse => pos ≤ target

theorem reached_iff (pos target : Int) (d : Dir) : reached pos target (some d) = true ↔ Beyond d target pos := by
  cases d <;> simp [reached, Beyond]

/-- The command by the part as the count leaves it (R1). -/
theorem exec_rollerCount (d : Dir) {s : State} (h : s.chip.eng.moveReq = false) :
    exec (.rollerCount d) s = .next (s.ends (if (s.chip.rolled d).locateCurrent ∧ (s.chip.rolled d).trk.valid = false
      then locateLost (s.chip.rolled d) else rollCurrent d (s.chip.rolled d))) := by
  simp only [exec, execRollerCount, State.onChip, rollStep_eq d s.chip h]
  rfl

theorem rolled_cur (d : Dir) (c : Chip) : (c.rolled d).eng.cur = c.eng.cur := by rw [(rolled_frame d c).2.2.2.1]

theorem locateCurrent_of_cur {c : Chip} {g : Seg} (h : c.eng.cur = some g) : c.locateCurrent = (g.kind == .locate) := by
  simp only [Chip.locateCurrent, h]

/-- With no LOCATE current the count is judged by the current segment alone. -/
theorem exec_rollerCount_other (d : Dir) {s : State} (h : s.chip.eng.moveReq = false)
    (hl : s.chip.locateCurrent = false) :
    exec (.rollerCount d) s = .next (s.ends (rollCurrent d (s.chip.rolled d))) := by
  have hr : (s.chip.rolled d).locateCurrent = false := by rwa [Chip.locateCurrent, rolled_cur]
  simp [exec_rollerCount d h, hr]

theorem rollCurrent_none (d : Dir) {c : Chip} (h : c.eng.cur = none) : rollCurrent d c = c := by
  simp only [rollCurrent, h]

/-- A count is judged in a SPOOL's RUN, in a PLAY's CAPSTAN and by a LOCATE, and by no other segment (R121, R124, R144). -/
theorem rollCurrent_other (d : Dir) {c : Chip} {g : Seg} (hc : c.eng.cur = some g) (hl : g.kind ≠ .locate)
    (hs : ¬ (g.kind = .spool ∧ g.phase = .run)) (hp : ¬ (g.kind = .play ∧ g.phase = .capstan)) :
    rollCurrent d c = c := by
  simp only [rollCurrent, hc]
  split
  next hk hph => exact absurd ⟨hk, hph⟩ hs
  next hk hph => exact absurd ⟨hk, hph⟩ hp
  next hk => exact absurd hk hl
  next => rfl

/-- What a count in a SPOOL's RUN and in a PLAY's CAPSTAN is judged by: the segment ends at its target or beyond it, in
the count's direction (R121, R124). -/
def PositionHit (d : Dir) (g : Seg) (pos : Int) : Prop :=
  g.record.positionEnd = true ∧ g.dir = some d ∧ Beyond d g.record.target pos

theorem positionHit_iff (d : Dir) (g : Seg) (pos : Int) :
    (g.record.positionEnd && reached pos g.record.target g.dir) = true ∧ g.dir = some d ↔ PositionHit d g pos := by
  simp only [PositionHit, ← reached_iff, Bool.and_eq_true]
  constructor
  · rintro ⟨⟨he, hr⟩, hd⟩
    exact ⟨he, hd, hd ▸ hr⟩
  · rintro ⟨he, hd, hr⟩
    exact ⟨⟨he, hd.symm ▸ hr⟩, hd⟩

open Classical in
theorem rollCurrent_spool (d : Dir) {c : Chip} {g : Seg} (hc : c.eng.cur = some g) (hk : g.kind = .spool)
    (hp : g.phase = .run) : rollCurrent d c =
      if PositionHit d g c.trk.position ∧ dirOf c.eng.ref = some d then complete (doneOr g) c else c := by
  simp only [rollCurrent, hc, hk, hp, ← positionHit_iff]
  refine if_congr ⟨fun ⟨h, hd, hr⟩ => ⟨⟨h, hd⟩, hr.trans hd⟩, fun ⟨⟨h, hd⟩, hr⟩ => ⟨h, hd, hr.trans hd.symm⟩⟩ rfl rfl

open Classical in
theorem rollCurrent_play (d : Dir) {c : Chip} {g : Seg} (hc : c.eng.cur = some g) (hk : g.kind = .play)
    (hp : g.phase = .capstan) : rollCurrent d c =
      if PositionHit d g c.trk.position then settle (playEnds (doneOr g) c) else c := by
  simp only [rollCurrent, hc, hk, hp, ← positionHit_iff]

theorem rollCurrent_locate (d : Dir) {c : Chip} {g : Seg} (hc : c.eng.cur = some g) (hk : g.kind = .locate) :
    rollCurrent d c = judgeLocate (some d) c := by
  simp only [rollCurrent, hc, hk]

theorem settle_goes (c : Chip) : settle (c, .goes) = c := rfl

/-- A PLAY that ends with the pinch IN waits for it in PINCH_OUT, the capstan's OFF held (R61, R124). -/
theorem settle_playEnds_pinched (st : Status) {c : Chip} {g : Seg} (hc : c.eng.cur = some g)
    (hp : c.drv.pinch = .pinched) : settle (playEnds st c) = { c with
      eng := { c.eng with cur := some { g with phase := .pinchOut, endStatus := some st } }
      drv := { c.drv with
        pinch := .goingOut, pinchTime := c.set.gen.pinchTime, pinchSpent := 0, capOffHeld := true } } := by
  have hoff : c.drv.capstanOff c.pinchFull = { c.drv with
      pinch := .goingOut, pinchTime := c.set.gen.pinchTime, pinchSpent := 0, capOffHeld := true } := by
    simp only [Drive.capstanOff, Drive.pinchAway, hp, Chip.pinchFull]
  simp only [playEnds, onSeg, onEng, onDrive, hc, Option.map_some, hoff, reduceCtorEq, if_false, settle_goes]

theorem toPhase_eq (ph : Phase) {c : Chip} {g : Seg} (hc : c.eng.cur = some g) :
    toPhase ph c = { c with eng := { c.eng with cur := some { g with phase := ph } } } := by
  simp only [toPhase, onSeg, onEng, hc, Option.map_some]

/-- A LOCATE is at its target: within tolerance, or past it in the count's direction (R144). -/
def AtTarget (d : Dir) (g : Seg) (l : Loc) (c : Chip) : Prop :=
  (l.target - c.trk.position).natAbs ≤ l.tolerance ∨ (g.dir = some d ∧ Beyond d l.target c.trk.position)

theorem atTarget_iff (d : Dir) (g : Seg) (l : Loc) (c : Chip) : (withinTolerance c l ||
    (g.dir != none && some d == g.dir && reached c.trk.position l.target g.dir)) = true ↔ AtTarget d g l c := by
  have hw : withinTolerance c l = true ↔ (l.target - c.trk.position).natAbs ≤ l.tolerance := decide_eq_true_iff
  simp only [AtTarget, ← reached_iff, ← hw, Bool.or_eq_true, Bool.and_eq_true, bne_iff_ne, beq_iff_eq]
  refine or_congr_right ⟨fun ⟨⟨_, hd⟩, hr⟩ => ⟨hd.symm, hd ▸ hr⟩, fun ⟨hd, hr⟩ => ⟨⟨by simp [hd], hd.symm⟩, hd ▸ hr⟩⟩

open Classical in
/-- The judgement of an APPROACH at a count (R144). -/
theorem judgeLocate_approach (d : Dir) {c : Chip} {g : Seg} {l : Loc} (hc : c.eng.cur = some g) (hl : g.loc = some l)
    (hp : g.phase = .approach) : judgeLocate (some d) c =
      if AtTarget d g l c then toPhase .brake c else if nearTarget c g l then toPhase .creep c else c := by
  simp only [judgeLocate, hc, hl, hp, ← atTarget_iff]

open Classical in
/-- The judgement of a CREEP at a count (R145). -/
theorem judgeLocate_creep (d : Dir) {c : Chip} {g : Seg} {l : Loc} (hc : c.eng.cur = some g) (hl : g.loc = some l)
    (hp : g.phase = .creep) : judgeLocate (some d) c = if AtTarget d g l c then toPhase .brake c else c := by
  simp only [judgeLocate, hc, hl, hp, ← atTarget_iff]

theorem judgeLocate_other (d : Dir) {c : Chip} {g : Seg} (hc : c.eng.cur = some g) (ha : g.phase ≠ .approach)
    (hr : g.phase ≠ .creep) : judgeLocate (some d) c = c := by
  simp only [judgeLocate, hc]
  split
  next hp => exact absurd hp ha
  next hp => exact absurd hp hr
  next => rfl

end Sys2Proof.TapePath

namespace Sys2Proof.TapePath

open Sys2Proof Sys2Proof.Machine Sys2Proof.Laws

theorem nearTarget_iff (c : Chip) (g : Seg) (l : Loc) : nearTarget c g l = true ↔
    (g.dir ≠ none ∧ dirOf c.eng.ref = g.dir ∧ (l.target - c.trk.position).natAbs * (25 * effectiveAccel c) ≤
      c.eng.ref.natAbs * c.eng.ref.natAbs + c.profile.creepDistance * (25 * effectiveAccel c)) := decide_eq_true_iff

/-- A reel's revolution measure after a count (R8): abandoned by a slow tape, and otherwise the measure given the count. -/
theorem count_rev (t : Tracker) (leader : Bool) (d : Dir) (r : Reel) : ((t.count leader d).reel r).rev =
    if (t.count leader d).tapeSpeed.natAbs < 500 then none else (t.reel r).rev.bind (·.roll d) := by
  rw [count_reel, abandonSlow_rev, roll_rev]

section Segment

variable {d : Dir} {g : Seg} {s : State}

/-- A SPOOL whose target the count reaches completes, and is STARVED with nothing behind it (R121, R134). -/
theorem rollerCount_spool_completes (hmove : s.chip.eng.moveReq = false) (hcur : s.chip.eng.cur = some g)
    (hk : g.kind = .spool) (hp : g.phase = .run) (hhit : PositionHit d g (s.chip.rolled d).trk.position)
    (hr : dirOf s.chip.eng.ref = some d) (hout : RunsOut g s.chip) :
    ∃ t, exec (.rollerCount d) s = .next t ∧ RanOut g g.doneStatus (s.chip.rolled d) t ∧ t.mem = s.mem := by
  have hc : (s.chip.rolled d).eng.cur = some g := (rolled_cur d s.chip).trans hcur
  have he : (s.chip.rolled d).eng = s.chip.eng := (rolled_frame d s.chip).2.2.2.1
  refine ⟨_, ?_, ends_runsOut g g.doneStatus _ s hc (runsOut_rolled d hout), rfl⟩
  rw [exec_rollerCount_other d hmove (by simp [locateCurrent_of_cur hcur, hk]), rollCurrent_spool d hc hk hp,
    if_pos ⟨hhit, he ▸ hr⟩]
  rfl

/-- A PLAY in CAPSTAN whose target the count reaches waits in PINCH_OUT, its end status fixed (R124). -/
theorem rollerCount_play_ends (hmove : s.chip.eng.moveReq = false) (hcur : s.chip.eng.cur = some g)
    (hk : g.kind = .play) (hp : g.phase = .capstan) (hhit : PositionHit d g (s.chip.rolled d).trk.position)
    (hpin : s.chip.drv.pinch = .pinched) : exec (.rollerCount d) s = .next (s.ends { s.chip.rolled d with
      eng := { (s.chip.rolled d).eng with cur := some { g with phase := .pinchOut, endStatus := some g.doneStatus } }
      drv := { (s.chip.rolled d).drv with
        pinch := .goingOut, pinchTime := s.chip.set.gen.pinchTime, pinchSpent := 0, capOffHeld := true } }) := by
  have hc : (s.chip.rolled d).eng.cur = some g := (rolled_cur d s.chip).trans hcur
  obtain ⟨-, -, hd, -, -, -, hs, -⟩ := rolled_frame d s.chip
  rw [← hs, exec_rollerCount_other d hmove (by simp [locateCurrent_of_cur hcur, hk]), rollCurrent_play d hc hk hp,
    if_pos hhit, settle_playEnds_pinched _ hc (hd ▸ hpin)]
  rfl

/-- Any other segment goes on (R121, R124). -/
theorem rollerCount_goesOn (hmove : s.chip.eng.moveReq = false) (hcur : s.chip.eng.cur = some g) (hk : g.kind ≠ .locate)
    (h : ¬ (PositionHit d g (s.chip.rolled d).trk.position ∧
      ((g.kind = .spool ∧ g.phase = .run ∧ dirOf s.chip.eng.ref = some d) ∨ (g.kind = .play ∧ g.phase = .capstan)))) :
    exec (.rollerCount d) s = .next (s.ends (s.chip.rolled d)) := by
  have hc : (s.chip.rolled d).eng.cur = some g := (rolled_cur d s.chip).trans hcur
  have he : (s.chip.rolled d).eng = s.chip.eng := (rolled_frame d s.chip).2.2.2.1
  rw [exec_rollerCount_other d hmove (by simp [locateCurrent_of_cur hcur, hk])]
  congr 2
  by_cases hsr : g.kind = .spool ∧ g.phase = .run
  · rw [rollCurrent_spool d hc hsr.1 hsr.2]
    exact if_neg fun ⟨ht, hr⟩ => h ⟨ht, .inl ⟨hsr.1, hsr.2, he ▸ hr⟩⟩
  · by_cases hpc : g.kind = .play ∧ g.phase = .capstan
    · rw [rollCurrent_play d hc hpc.1 hpc.2]
      exact if_neg fun ht => h ⟨ht, .inr hpc⟩
    · exact rollCurrent_other d hc hk hsr hpc

/-- A LOCATE whose position the count ends is MISSED (R148). -/
theorem rollerCount_locate_missed (hmove : s.chip.eng.moveReq = false) (hcur : s.chip.eng.cur = some g)
    (hk : g.kind = .locate) (hv : (s.chip.rolled d).trk.valid = false) (hout : RunsOut g s.chip) :
    ∃ t, exec (.rollerCount d) s = .next t ∧ RanOut g .missed (s.chip.rolled d) t ∧ t.mem = s.mem := by
  have hc : (s.chip.rolled d).eng.cur = some g := (rolled_cur d s.chip).trans hcur
  have hl : (s.chip.rolled d).locateCurrent = true := by simp [locateCurrent_of_cur hc, hk]
  refine ⟨_, ?_, ends_runsOut g .missed _ s hc (runsOut_rolled d hout), rfl⟩
  rw [exec_rollerCount d hmove, if_pos ⟨hl, hv⟩, locateLost, if_pos ⟨hl, hv⟩]

/-- A LOCATE whose position stands is judged by the count (R144, R145). -/
theorem rollerCount_locate_judged (hmove : s.chip.eng.moveReq = false) (hcur : s.chip.eng.cur = some g)
    (hk : g.kind = .locate) (hv : (s.chip.rolled d).trk.valid = true) :
    exec (.rollerCount d) s = .next (s.ends (judgeLocate (some d) (s.chip.rolled d))) := by
  rw [exec_rollerCount d hmove, if_neg (by simp [hv]), rollCurrent_locate d ((rolled_cur d s.chip).trans hcur) hk]

end Segment

/-- Settles O13: the count's effect on the tracker field by field, and what it means by the current segment: none, one
judged by its position end, and a LOCATE by its phase. -/
theorem rollerCountTaken : Obligations.RollerCountTaken := by
  unfold Obligations.RollerCountTaken
  refine ⟨?noSegment, ?tracker, ?segment, ?locate⟩
  case noSegment =>
    intro d s hcur hmove t c
    have hx : exec (.rollerCount d) s = .next (s.ends (s.chip.rolled d)) := by
      rw [exec_rollerCount_other d hmove (by simp only [Chip.locateCurrent, hcur]),
        rollCurrent_none d (by rw [rolled_cur, hcur])]
    exact ⟨fun hm => by rw [hx, Chip.rolled, if_neg hm], fun hm => by rw [hx, Chip.rolled, if_pos hm]⟩
  case tracker =>
    intro t leader d u one stuck
    have hstuck : t.sticks d = true ↔ stuck := by
      cases d
      · exact sticks_forward t
      · exact sticks_reverse t
    have hone : unitOf d = one := by cases d <;> rfl
    refine ⟨fun hs => ?_, fun hs => ?_, count_lastDir t leader d, fun b bs hw => ?_, tapeSpeed_eq u,
      count_noFlag leader d, count_path t leader d, count_debounce t leader d, fun r => ?_⟩
    · simp [u, hstuck.mpr hs]
    · simp [u, mt hstuck.mp hs, hone]
    · rw [count_rollWin, hw, bumpInt, hone]
    · have hr := count_reel t leader d r
      refine ⟨by rw [hr, abandonSlow_pulses, roll_pulses], by rw [hr, abandonSlow_radius, roll_radius],
        by rw [hr, abandonSlow_arm, roll_arm], fun hn => by simp [u, count_rev, hn], fun m hm => ?_⟩
      rw [count_rev, hm, Option.bind_some]
      refine ⟨fun hv => if_pos hv, fun hv => ?_⟩
      rw [if_neg (Nat.not_lt.mpr hv)]
      exact ⟨revRoll_first d, fun f hf hfd => revRoll_same (hfd ▸ hf), fun f => revRoll_opposite⟩
  case segment =>
    intro d g s hmove hcur hk c hit
    have hhit : PositionHit d g c.trk.position ↔ hit := by cases d <;> exact Iff.rfl
    rw [← hhit]
    exact ⟨fun h hks hp => rollerCount_spool_completes hmove hcur hks hp h,
      fun h hkp hp => rollerCount_play_ends hmove hcur hkp hp h, rollerCount_goesOn hmove hcur hk⟩
  case locate =>
    intro d g s hmove hcur hk c into
    refine ⟨rollerCount_locate_missed hmove hcur hk, ?_⟩
    intro l hv hloc left there k near
    have hc : c.eng.cur = some g := (rolled_cur d s.chip).trans hcur
    have hthere : AtTarget d g l c ↔ there := by cases d <;> exact Iff.rfl
    have hnear : nearTarget c g l = true ↔ near := nearTarget_iff c g l
    rw [rollerCount_locate_judged hmove hcur hk hv, ← hthere, ← hnear]
    refine ⟨?_, fun hp ht hn => ?_, fun hp ht hn => ?_, fun hp ht => ?_, fun ha hr => ?_⟩
    · rintro (hp | hp) ht
      · rw [judgeLocate_approach d hc hloc hp, if_pos ht, toPhase_eq _ hc]
      · rw [judgeLocate_creep d hc hloc hp, if_pos ht, toPhase_eq _ hc]
    · rw [judgeLocate_approach d hc hloc hp, if_neg ht, if_pos hn, toPhase_eq _ hc]
    · rw [judgeLocate_approach d hc hloc hp, if_neg ht, if_neg hn]
    · rw [judgeLocate_creep d hc hloc hp, if_neg ht]
    · rw [judgeLocate_other d hc ha hr]

end Sys2Proof.TapePath

namespace Sys2Proof.TapePath

open Sys2Proof Sys2Proof.Machine Sys2Proof.Laws

/-! ## SET_POSITION and CLEAR_FAULT -/

/-- A decided reply changes the mailbox alone (R171). -/
theorem reply_eq (r : Result) (d : Byte) (c : Chip) : reply r d c = { c with mbx := c.replied r d } := rfl

/-- SET_POSITION in RUN is decided, and ends as a command of the host does (R169). -/
theorem exec_setPosition {s : State} (h : inRun cmdSetPosition s.chip = true) :
    exec .setPosition s = .next (s.ends (setPositionStep s.chip)) := by
  simp only [exec, execSetPosition, State.onChip, whenRun, h, if_true]
  rfl

/-- CLEAR_FAULT in RUN is decided, and ends as a command of the host does (R169). -/
theorem exec_clearFault {s : State} (h : inRun cmdClearFault s.chip = true) :
    exec .clearFault s = .next (s.ends (clearFaultStep s.chip)) := by
  simp only [exec, execClearFault, State.onChip, whenRun, h, if_true]
  rfl

theorem positionInRange_iff (v : Int) : positionInRange v = true ↔ -16777216 ≤ v ∧ v ≤ 16777215 := decide_eq_true_iff

/-! CLEAR_FAULT row by row of R37's table. -/

section ClearFault

variable {c : Chip}

/-- An amplifier fault input stands asserted. -/
def faultInput (p : Pins) : Bool := p.fltSupply || p.fltTup || p.fltCap

theorem clearFaultStep_causeActive (hf : faultInput c.pins = true) :
    clearFaultStep c = reply .refused detailCauseActive (onSup (·.noFault) c) := if_pos hf

theorem clearFaultStep_turning (hf : faultInput c.pins = false) (ht : c.sup.ts = .tripped)
    (hr : c.trk.reelsStopped = false) : clearFaultStep c = reply .busy detailNone (onSup (·.noFault) c) :=
  (if_neg (ne_true_of_eq_false hf)).trans ((if_pos ht).trans (if_pos (by simp [hr])))

theorem clearFaultStep_tripped (hf : faultInput c.pins = false) (ht : c.sup.ts = .tripped)
    (hr : c.trk.reelsStopped = true) : clearFaultStep c =
      enter (pathTState c) (onSup (·.recovered) (reply .done detailNone (onSup (·.noFault) c))) :=
  (if_neg (ne_true_of_eq_false hf)).trans ((if_pos ht).trans (if_neg (by simp [hr])))

theorem clearFaultStep_latched (hf : faultInput c.pins = false) (ht : c.sup.ts ≠ .tripped)
    (hl : c.sup.latch = true) :
    clearFaultStep c = onSup (·.unlatched) (reply .done detailNone (onSup (·.noFault) c)) :=
  (if_neg (ne_true_of_eq_false hf)).trans ((if_neg ht).trans (if_pos hl))

theorem clearFaultStep_nothing (hf : faultInput c.pins = false) (ht : c.sup.ts ≠ .tripped)
    (hl : c.sup.latch = false) : clearFaultStep c = reply .done detailNothing (onSup (·.noFault) c) :=
  (if_neg (ne_true_of_eq_false hf)).trans ((if_neg ht).trans (if_neg (ne_true_of_eq_false hl)))

end ClearFault

/-- The state that leaves TRIPPED: the path's, with the fault word and the latch clear, the threaded profile kept where
the path is PRESENT (R37). -/
theorem clearFault_recovers (s : State) :
    let t := s.ends (enter (pathTState s.chip) (onSup (·.recovered) (reply .done detailNone (onSup (·.noFault) s.chip))))
    t.chip.sup.ts = (if s.chip.trk.path = .present then .threaded else .unthreaded) ∧ t.chip.sup.latch = false ∧
      t.chip.sup.trip = .none ∧ t.chip.sup.side = .none ∧ t.chip.sup.stop = .none ∧
      t.chip.sup.threaded = (if s.chip.trk.path = .present then s.chip.sup.threaded else none) ∧
      t.chip.mbx = s.chip.replied .done 0 ∧ t.chip.trk = s.chip.trk ∧ t.chip.set = s.chip.set ∧ t.mem = s.mem := by
  by_cases hp : s.chip.trk.path = .present <;>
    simp [State.ends, pathTState, hp, reply, Supervisor.recovered, Supervisor.noFault, Chip.replied, detailNone]

/-- Settles O57: SET_POSITION by the order of R4's checks, CLEAR_FAULT by the rows of R37's table. -/
theorem positionAndFaultCommands : Obligations.PositionAndFaultCommands := by
  unfold Obligations.PositionAndFaultCommands
  refine ⟨fun s h => ?setPosition, fun s h => ?clearFault⟩
  case setPosition =>
    intro v busy inRange answers
    have hrange : positionInRange v = true ↔ inRange := positionInRange_iff v
    rw [exec_setPosition h]
    simp only [setPositionStep]
    refine ⟨fun hb => ?_, fun hb hp => ?_, fun hb hp hv => ?_, fun hb hp hv => ?_⟩
    · rw [if_pos hb]
      rfl
    · rw [if_neg hb, if_pos hp]
      rfl
    · rw [if_neg hb, if_neg (not_not.mpr hp), if_pos (by simpa [v] using mt hrange.mp hv)]
      rfl
    · rw [if_neg hb, if_neg (not_not.mpr hp), if_neg (by simpa [v] using hrange.mpr hv)]
      rfl
  case clearFault =>
    intro sup' flt answers
    rw [exec_clearFault h]
    refine ⟨fun hf => ?_, fun hf ht hr => ?_, fun hf ht hr => ?_, fun hf ht hl => ?_, fun hf ht hl => ?_⟩
    · rw [clearFaultStep_causeActive hf]
      rfl
    · rw [clearFaultStep_turning hf ht hr]
      rfl
    · rw [clearFaultStep_tripped hf ht hr]
      exact ⟨_, rfl, clearFault_recovers s⟩
    · rw [clearFaultStep_latched hf ht hl]
      rfl
    · rw [clearFaultStep_nothing hf ht hl]
      rfl

end Sys2Proof.TapePath

namespace Sys2Proof.TapePath

open Sys2Proof Sys2Proof.Machine Sys2Proof.Laws

/-! ## What stands at reset -/

/-- Every slot of an empty ring is HOST (R110). -/
theorem reset_slot (n i : Nat) : (Ring.reset n).slot i = ⟨.host, none⟩ := by
  simp only [Ring.slot, Ring.reset, List.getD_eq_getElem?_getD, List.getElem?_replicate]
  split <;> rfl

/-- An empty ring meets the laws of a ring (R93). -/
theorem reset_ring_ok {n : Nat} (h : 0 < n) : (Ring.reset n).Ok n where
  size := List.length_replicate
  take := h
  count := Nat.zero_le n
  intake := (Nat.zero_mod n).symm
  queued i _ := by simp [reset_slot, show (Ring.reset n).queued = 0 from rfl]

/-- At reset no slot is queued, no segment is current, and nothing is at either port. -/
theorem reset_planOk : PlanOk .reset where
  urgent := reset_ring_ok (by decide)
  main := reset_ring_ok (by decide)
  slot g h := by cases h
  current id i _ := by
    have hv : ((State.reset.chip.pln.ring id).slot i).view = .host := by
      cases id
      · exact congrArg Slot.view (reset_slot 8 i)
      · exact congrArg Slot.view (reset_slot 64 i)
    constructor
    · intro h
      cases hv.symm.trans h
    · rintro ⟨g, h, -⟩
      cases h
  idle _ := ⟨rfl, rfl, rfl, rfl⟩
  stopping _ := rfl
  down _ := rfl
  claim h := by cases h
  fetch h k := by cases k
  port a w d b y h := by cases h
  next h := absurd rfl h

/-- At reset the event ring is empty. -/
theorem reset_eventsOk : EventsOk .reset where
  write := by decide
  consumed := by decide
  unread := by decide
  overrun h := by cases h
  normal _ := rfl
  idle _ := ⟨rfl, rfl, rfl, rfl⟩

theorem reset_cues (n : Nat) : State.reset.chip.cue.cues.getD n none = none := by
  change (List.replicate 32 none).getD n none = (none : Option Cue)
  rw [List.getD_eq_getElem?_getD, List.getElem?_replicate]
  split <;> rfl

/-- Settles O2: the values of the power-on reset are read off it, and each thing that always stands holds of them. -/
theorem resetValuesAndInvariants : Obligations.ResetValuesAndInvariants := by
  unfold Obligations.ResetValuesAndInvariants
  refine ⟨?values, rfl, ⟨rfl, fun _ => rfl⟩, rfl, ⟨fun _ => rfl, fun _ => rfl⟩, ?pinch, ?position, ?valid, ?trim, ?queue,
    ?locate, reset_planOk, reset_eventsOk⟩
  case values =>
    intro c
    refine ⟨rfl, rfl, rfl, rfl, rfl, rfl, rfl, rfl, rfl, rfl, rfl, rfl, rfl, rfl, rfl, ?speed, rfl, ?supRate, ?tupRate,
      rfl, rfl, rfl, rfl, rfl, rfl, by decide, rfl, rfl, rfl, rfl, rfl, rfl, rfl, rfl, rfl, rfl, rfl, rfl, rfl, rfl, rfl,
      rfl, rfl, rfl, reset_cues, rfl, rfl, rfl, rfl, rfl, rfl, rfl, rfl, rfl, rfl, rfl, rfl, rfl, rfl, rfl, rfl, rfl⟩
    case speed => decide
    case supRate => decide
    case tupRate => decide
  case pinch => exact fun h => by cases h
  case position => exact ⟨by decide, by decide⟩
  case valid => exact fun h => by cases h
  case trim => exact ⟨by decide, by decide⟩
  case queue => exact Nat.zero_le 12
  case locate => exact fun h => by cases h

end Sys2Proof.TapePath

namespace Sys2Proof.TapePath

open Sys2Proof Sys2Proof.Machine Sys2Proof.Laws

/-! ## ARM_SAMPLE -/

section Class

variable {p : Profile} {v : Nat}

theorem classOf_slack (h : v ≤ p.slack) : classOf p v = .slack := if_pos h

theorem classOf_low (h : p.slack < v) (h' : v ≤ p.low) : classOf p v = .low := by
  rw [classOf, if_neg (by omega), if_pos h']

theorem classOf_inBand (hl : p.slack < p.low) (h : p.low < v) (h' : v < p.high) : classOf p v = .inBand := by
  rw [classOf, if_neg (by omega), if_neg (by omega), if_pos h']

theorem classOf_high (hl : p.slack < p.low) (hh : p.low < p.high) (h : p.high ≤ v) (h' : v < p.overLevel) :
    classOf p v = .high := by
  rw [classOf, if_neg (by omega), if_neg (by omega), if_neg (by omega), if_pos h']

theorem classOf_overLevel (hl : p.slack < p.low) (hh : p.low < p.high) (ho : p.high < p.overLevel)
    (h : p.overLevel ≤ v) : classOf p v = .overLevel := by
  rw [classOf, if_neg (by omega), if_neg (by omega), if_neg (by omega), if_neg (by omega)]

end Class

/-- A timer of a condition across a sample, by whether it runs in the state and how the condition stands before the
sample and after it (R26, R36). -/
theorem sampleTimer_cases (runs was now : Bool) (t : Option Nat) :
    (runs = false → sampleTimer runs was now t = t) ∧
    (runs = true → now = false → sampleTimer runs was now t = none) ∧
    (runs = true → now = true → was = false → sampleTimer runs was now t = some 0) ∧
    (runs = true → now = true → was = true → sampleTimer runs was now t = t) := by
  refine ⟨?_, ?_, ?_, ?_⟩ <;> simp +contextual [sampleTimer]

/-- The arm alone takes the class, and its sample is seen (R23). -/
def withClass (s : Supervisor) (r : Reel) (cl : ArmClass) : Supervisor :=
  match r with
  | .supply => { s with clsSup := cl, seenSup := true }
  | .takeup => { s with clsTup := cl, seenTup := true }

theorem classify_eq (s : Supervisor) (r : Reel) (cl : ArmClass) : s.classify r cl = { withClass s r cl with
    brk := sampleTimer s.ts.runsBreak s.slackArm (withClass s r cl).slackArm s.brk
    exc := sampleTimer s.ts.runsExcursion s.strayArm (withClass s r cl).strayArm s.exc } := by
  cases r <;> rfl

@[simp] theorem classify_claimPending (s : Supervisor) (r : Reel) (cl : ArmClass) :
    (s.classify r cl).claimPending = s.claimPending := by cases r <;> rfl

@[simp] theorem classify_cls (s : Supervisor) (r : Reel) (cl : ArmClass) : (s.classify r cl).cls r = cl := by
  cases r <;> rfl

/-- A sample whose class trips nothing, with no judgement of a claim outstanding: the arm's class and the timers alone
change (R15, R23). -/
theorem exec_armSample (r : Reel) (v : BitVec 12) {s : State} (hup : s.chip.sup.up = true)
    (hclaim : s.chip.sup.claimPending = false) (ho : classNow s.chip v ≠ .overLevel) :
    exec (.armSample r v) s = .next (s.ends { s.chip with
      trk := s.chip.trk.withReel r { s.chip.trk.reel r with arm := v }
      sup := s.chip.sup.classify r (classNow s.chip v) }) := by
  have hs : sampleTaken r v (onTrk (·.armRead r v) s.chip) =
      onSup (·.classify r (classNow s.chip v)) (onTrk (·.armRead r v) s.chip) := by
    have hn : classNow (onTrk (·.armRead r v) s.chip) v = classNow s.chip v := rfl
    simp [sampleTaken, hn, hclaim, ho]
  simp only [exec, execArmSample, State.onChip, armStep, onTrk_sup, hup, if_true, hs]
  rfl

theorem strayArm_iff (x : Supervisor) : x.strayArm = true ↔
    x.clsSup = .low ∨ x.clsSup = .high ∨ x.clsTup = .low ∨ x.clsTup = .high := by
  simp [Supervisor.strayArm, outOfBand, or_assoc]

theorem runsExcursion_iff (ts : TState) : ts.runsExcursion = true ↔ ts = .held ∨ ts = .moving ∨ ts = .stopping := by
  cases ts <;> simp [TState.runsExcursion]

/-- Settles O18: the class by the five intervals of R23, the two timers by the one law of a sample's timer. -/
theorem armSampleTaken : Obligations.ArmSampleTaken := by
  unfold Obligations.ArmSampleTaken
  refine ⟨fun p v hl hh ho => ⟨classOf_slack, classOf_low, classOf_inBand hl, classOf_high hl hh,
    classOf_overLevel hl hh ho⟩, ?_⟩
  intro r v s hup hclaim cl ho sup' stray runs
  have hcl : classNow s.chip v = cl := by
    simp only [classNow, cl, Chip.profile]
    cases s.chip.sup.threaded <;> rfl
  have hsup : withClass s.chip.sup r cl = sup' := by cases r <;> rfl
  have hx := exec_armSample r v hup hclaim (hcl ▸ ho)
  rw [hcl, classify_eq, hsup] at hx
  have hstray (x : Supervisor) : x.strayArm = false ↔ ¬ stray x :=
    Bool.eq_false_iff.trans (not_congr (strayArm_iff x))
  have hruns : s.chip.sup.ts.runsExcursion = false ↔ ¬ runs :=
    Bool.eq_false_iff.trans (not_congr (runsExcursion_iff _))
  obtain ⟨b₁, b₂, b₃, b₄⟩ := sampleTimer_cases s.chip.sup.ts.runsBreak s.chip.sup.slackArm sup'.slackArm s.chip.sup.brk
  obtain ⟨e₁, e₂, e₃, e₄⟩ :=
    sampleTimer_cases s.chip.sup.ts.runsExcursion s.chip.sup.strayArm sup'.strayArm s.chip.sup.exc
  simp only [hstray, hruns, strayArm_iff, runsExcursion_iff] at e₁ e₂ e₃ e₄
  exact ⟨_, _, hx, b₁, b₂, b₃, b₄, e₁, e₂, e₃, e₄⟩

end Sys2Proof.TapePath

namespace Sys2Proof.TapePath

open Sys2Proof Sys2Proof.Machine Sys2Proof.Laws

/-! ## The end flag (R13, R14, R131) -/

/-- What the tracker posts in a running part: the event with the tape position, and its notice (R16). -/
theorem trackerPosts_running {c : Chip} (h : c.mode = .running) (k : EventKind) (detail : Nat) (n : Notice) :
    postTrackerNotice n (postTrackerEvent k detail c) = c.posting [c.event k detail 0 0] [n] := by
  rw [postTrackerNotice, if_pos (by simp [h]), postTrackerEvent, if_pos h, postEvent_running h]
  exact postNotice_running (c := c.posting [c.event k detail 0 0] []) h n

/-- The part with the end flag of a direction newly set, announced (R13). -/
def flagged (d : Dir) (c : Chip) : Chip :=
  ({ c with
    pins := { c.pins with leader := true }
    trk := { c.trk with clearing := 0, endFlag := flagOf d } } : Chip).posting
    [c.event .endFlag (flagOf d).code 0 0] [.tapeEnd]

/-- A change from oxide to leader with the flag NONE and a direction known sets the flag, and the engine is told (R13,
R131). -/
theorem exec_endSensorLeader_sets {d : Dir} {s : State} (hm : s.chip.mode = .running)
    (hd : s.chip.trk.lastDir = some d) (hl : s.chip.pins.leader = false) (hf : s.chip.trk.endFlag = .none) :
    exec (.endSensorLeader true) s = .next (s.ends (newEndFlag (flagged d s.chip))) := by
  have hstep : endSensorStep true s.chip = newEndFlag (flagged d s.chip) := by
    simp only [endSensorStep, if_true, onTrk_trk, hd, hl, hf, and_self]
    rw [trackerPosts_running (by exact hm)]
    rfl
  simp only [exec, execEndSensorLeader, State.onChip, hstep]
  rfl

/-- With no direction known, the flag set, or leader read before, leader sets nothing (R13, R14). -/
theorem exec_endSensorLeader_stands {s : State} (h : s.chip.trk.lastDir = none ∨ s.chip.pins.leader = true ∨
    s.chip.trk.endFlag ≠ .none) : exec (.endSensorLeader true) s = .next (s.ends { s.chip with
      pins := { s.chip.pins with leader := true }, trk := { s.chip.trk with clearing := 0 } }) := by
  have hstep : endSensorStep true s.chip = { s.chip with
      pins := { s.chip.pins with leader := true }, trk := { s.chip.trk with clearing := 0 } } := by
    simp only [endSensorStep, if_true, onTrk]
    split
    next d hd =>
      refine if_neg fun ⟨_, hl, hf⟩ => ?_
      rcases h with h | h | h
      · exact Option.some_ne_none d (hd.symm.trans h)
      · exact Bool.false_ne_true (hl.symm.trans h)
      · exact h hf
    next => rfl
  simp only [exec, execEndSensorLeader, State.onChip, hstep]
  rfl

/-- Oxide sets nothing (R13). -/
theorem exec_endSensorLeader_oxide (s : State) : exec (.endSensorLeader false) s =
    .next (s.ends { s.chip with pins := { s.chip.pins with leader := false } }) := by
  have hstep : endSensorStep false s.chip = { s.chip with pins := { s.chip.pins with leader := false } } := by
    simp only [endSensorStep, Bool.false_eq_true, if_false, false_and]
    split <;> rfl
  simp only [exec, execEndSensorLeader, State.onChip, hstep]
  rfl

theorem newEndFlag_notMoving {c : Chip} (h : c.sup.ts ≠ .moving) : newEndFlag c = c := if_neg h

/-- The end flagged in a direction lies ahead in that direction alone (R130). -/
theorem endAhead_flagOf (d : Dir) (o : Option Dir) : endAhead (flagOf d) o = true ↔ o = some d := by
  rcases o with _ | _ | _ <;> cases d <;> simp [endAhead, flagOf]

/-- A count over a set flag: the clearing count takes it, and the 80th clears the flag (R14). -/
theorem count_flag_of_lt {t : Tracker} {leader : Bool} {d : Dir} (h : t.clearCount leader d < 80) :
    (t.count leader d).clearing = t.clearCount leader d ∧ (t.count leader d).endFlag = t.endFlag := by
  have hf := count_flag t leader d
  rw [if_neg (by omega), Prod.mk.injEq] at hf
  exact hf.symm

theorem count_flag_of_eq {t : Tracker} {leader : Bool} {d : Dir} (h : t.clearCount leader d = 80)
    (hf : t.endFlag ≠ .none) : (t.count leader d).clearing = 0 ∧ (t.count leader d).endFlag = .none := by
  have hc := count_flag t leader d
  rw [if_pos ⟨h.ge, hf⟩, Prod.mk.injEq] at hc
  exact hc.symm

theorem clearCount_leader {t : Tracker} (d : Dir) (h : t.endFlag ≠ .none) : t.clearCount true d = 0 := by
  simp [Tracker.clearCount, h]

theorem clearCount_away {t : Tracker} {d : Dir} (h : t.endFlag ≠ .none) (ha : awayFrom t.endFlag d = true) :
    t.clearCount false d = t.clearing + 1 := by
  simp [Tracker.clearCount, h, ha]

theorem clearCount_toward {t : Tracker} {d : Dir} (h : t.endFlag ≠ .none) (ha : awayFrom t.endFlag d = false) :
    t.clearCount false d = t.clearing - 1 := by
  simp [Tracker.clearCount, h, ha]

theorem awayFrom_iff (f : EndFlag) (d : Dir) : awayFrom f d = true ↔
    (f = .forwardEnd ∧ d = .reverse) ∨ (f = .reverseEnd ∧ d = .forward) := by
  cases f <;> cases d <;> simp [awayFrom]

/-! A new end flag in MOVING. -/

section Moving

variable {c : Chip} {g : Seg} {d : Dir}

/-- RUNOUT goes on while the reference speed has not come to 0 (R128). -/
theorem judgeCurrent_runout (hc : c.eng.cur = some g) (hp : g.phase = .runout) (hr : c.eng.ref ≠ 0) :
    judgeCurrent false c = c := by
  have hj : judgeSpeed false c g = (c, .goes) := by
    have hz : fallenToZero c g = false := by simp [fallenToZero, unlimitedTarget, hp]
    simp [judgeSpeed, hz, hp, hr]
  simp only [judgeCurrent, hc, hj, settle_goes]
  exact ite_self c

/-- A WIND in RUN toward the new end runs out (R128, R131). -/
theorem newEndFlag_runout (ht : c.sup.ts = .moving) (hc : c.eng.cur = some g) (hk : g.kind = .wind)
    (hp : g.phase = .run) (ha : endAhead c.trk.endFlag g.dir = true) (hr : c.eng.ref ≠ 0) :
    newEndFlag c = { c with eng := { c.eng with cur := some { g with phase := .runout } } } := by
  simp only [newEndFlag, ht, hc, if_true]
  rw [if_neg (by simp [hp]), if_pos ⟨hk, hp, ha⟩, toPhase_eq _ hc]
  exact judgeCurrent_runout (c := { c with eng := { c.eng with cur := some { g with phase := .runout } } })
    rfl rfl hr

/-- Any other segment outside RUNOUT is stopped by the END cause (R131). -/
theorem newEndFlag_stops (ht : c.sup.ts = .moving) (hc : c.eng.cur = some g) (hp : g.phase ≠ .runout)
    (hw : ¬ (g.kind = .wind ∧ g.phase = .run ∧ endAhead c.trk.endFlag g.dir = true)) :
    newEndFlag c = stopMoving .tapeEnd c := by
  simp only [newEndFlag, ht, hc, hp, and_false, if_false, if_true, if_neg hw, stopCause]

/-- A STARVED engine is stopped too (R131). -/
theorem newEndFlag_starved (ht : c.sup.ts = .moving) (hc : c.eng.cur = none) (he : c.eng.est = .starved) :
    newEndFlag c = stopMoving .tapeEnd c := by
  simp only [newEndFlag, ht, hc, he, if_true, stopCause]

/-- An engine that is IDLE is asked nothing (R131). -/
theorem newEndFlag_idle (hc : c.eng.cur = none) (he : c.eng.est ≠ .starved) : newEndFlag c = c := by
  simp only [newEndFlag, hc, he, if_false]
  exact ite_self c

end Moving

/-- The end of a segment takes no slot out of the queues (R92). -/
theorem endCur_queued (st : Status) (c : Chip) : (endCur st c).pln.urgent.queued = c.pln.urgent.queued ∧
    (endCur st c).pln.main.queued = c.pln.main.queued := by
  cases hc : c.eng.cur with
  | none => simp [endCur, hc]
  | some g =>
    obtain ⟨hr, ho, -⟩ := endCur_rings st c g hc
    have hq (id : RingId) : ((endCur st c).pln.ring id).queued = (c.pln.ring id).queued := by
      by_cases h : id = g.ring
      · rw [h, hr]
        rfl
      · rw [ho id h]
    exact ⟨hq .urgent, hq .main⟩

/-- What the END stop leaves in MOVING (R31, R131): STOPPING with END in the fault word, the engine HALTING with no
segment, the latch and the queued slots as they stood. -/
theorem tapeEnd_stopped {s : State} {c : Chip} (hsup : c.sup = s.chip.sup) (heng : c.eng = s.chip.eng)
    (hpln : c.pln = s.chip.pln) (hgnt : c.gnt = s.chip.gnt) :
    let t := s.ends (stopMoving .tapeEnd c)
    t.chip.sup.ts = .stopping ∧ t.chip.sup.stop = .tapeEnd ∧ t.chip.sup.latch = s.chip.sup.latch ∧
      t.chip.eng.est = .halting ∧ t.chip.eng.cur = none ∧ t.chip.eng.ref = s.chip.eng.ref ∧
      t.chip.trk.endFlag = c.trk.endFlag ∧ t.chip.pln.urgent.queued = s.chip.pln.urgent.queued ∧
      t.chip.pln.main.queued = s.chip.pln.main.queued ∧ t.chip.gnt = s.chip.gnt ∧ t.mem = s.mem := by
  obtain ⟨hts, hstop, -, hlatch, hg⟩ := stopMoving_sup .tapeEnd c
  have he := stopMoving_eng .tapeEnd c
  have hp := (stopMoving_pln .tapeEnd c).1 rfl
  obtain ⟨hu, hmn⟩ := endCur_queued .tapeEnd c
  simp [State.ends, done_cur_none, hts, hstop, hlatch, hg, he, hp, StopCause.endStatus, StopCause.latches, hu, hmn,
    Engine.halted, hsup, heng, hpln, hgnt]

theorem flagged_frame (d : Dir) (c : Chip) : (flagged d c).sup = c.sup ∧ (flagged d c).eng = c.eng ∧
    (flagged d c).pln = c.pln ∧ (flagged d c).gnt = c.gnt ∧ (flagged d c).clock = c.clock ∧
    (flagged d c).trk = { c.trk with clearing := 0, endFlag := flagOf d } := ⟨rfl, rfl, rfl, rfl, rfl, rfl⟩

/-- Settles O17: the flag is set by one case of the reading, cleared by the clearing count, and in MOVING it means what
the current segment, or the engine with none, makes of it. -/
theorem endFlagSetAndCleared : Obligations.EndFlagSetAndCleared := by
  unfold Obligations.EndFlagSetAndCleared
  refine ⟨fun s hm ht => ⟨fun d hd hl hf => ?_, exec_endSensorLeader_stands, exec_endSensorLeader_oxide s⟩, ?count, ?moving⟩
  · have hidle : newEndFlag (flagged d s.chip) = flagged d s.chip := newEndFlag_notMoving ht
    rw [exec_endSensorLeader_sets hm hd hl hf, hidle]
    cases d <;> rfl
  case count =>
    intro t leader d hf hlt u away
    have haway : awayFrom t.endFlag d = true ↔ away := awayFrom_iff _ _
    refine ⟨?_, ?_, ?_, ?_⟩
    · rintro rfl
      have hc := clearCount_leader d hf
      have h := count_flag_of_lt (leader := true) (hc.trans_lt (by decide))
      rwa [hc] at h
    · rintro rfl ha h80
      have hc := clearCount_away hf (haway.mpr ha)
      have h := count_flag_of_lt (leader := false) (hc.trans_lt h80)
      rwa [hc] at h
    · rintro rfl ha h80
      exact count_flag_of_eq ((clearCount_away hf (haway.mpr ha)).trans h80) hf
    · rintro rfl ha
      have hc := clearCount_toward hf (Bool.eq_false_iff.mpr (mt haway.mp ha))
      have h := count_flag_of_lt (leader := false) (d := d) (t := t) (by omega)
      rwa [hc] at h
  case moving =>
    intro d s hm hup ht hd hl hf flag stopped
    have hflag : flagOf d = flag := by cases d <;> rfl
    have hx := exec_endSensorLeader_sets hm hd hl hf
    have hstopped : stopped (s.ends (stopMoving .tapeEnd (flagged d s.chip))) := by
      have h := tapeEnd_stopped (s := s) (c := flagged d s.chip) rfl rfl rfl rfl
      rwa [show (flagged d s.chip).trk.endFlag = flag from hflag] at h
    refine ⟨fun g hc hk hp hdir hr => ?_, fun g hc hp hw => ⟨_, ?_, hstopped, ?_⟩, fun hc he => ⟨_, ?_, hstopped, ?_⟩,
      fun hc he => ?_⟩
    · have hn := newEndFlag_runout (c := flagged d s.chip) ht hc hk hp ((endAhead_flagOf d _).mpr hdir) hr
      rw [hx, hn, ← hflag]
      rfl
    · have hn := newEndFlag_stops (c := flagged d s.chip) ht hc hp
        fun ⟨h₁, h₂, h₃⟩ => hw ⟨h₁, h₂, (endAhead_flagOf d _).mp h₃⟩
      rw [hx, hn]
    · have hp := (stopMoving_pln .tapeEnd (flagged d s.chip)).1 rfl
      obtain ⟨-, -, hlist⟩ := endCur_rings .tapeEnd (flagged d s.chip) g hc
      simp only [State.ends, done_pln, hp]
      exact hlist
    · rw [hx, newEndFlag_starved (c := flagged d s.chip) ht hc he]
    · have hp := (stopMoving_pln .tapeEnd (flagged d s.chip)).1 rfl
      have hcur : (flagged d s.chip).eng.cur = none := hc
      simp only [State.ends, done_pln, hp, endCur, hcur]
      rfl
    · rw [hx, newEndFlag_idle (c := flagged d s.chip) hc he, ← hflag]
      rfl

end Sys2Proof.TapePath

namespace Sys2Proof.TapePath

open Sys2Proof Sys2Proof.Machine Sys2Proof.Laws

/-! ## What a change of the transport state leaves of the grants (R82, R84) -/

/-- A re-clamp changes the trim and what it has waiting (R90). -/
theorem reclampTrim_gnt (c : Chip) : ∃ v w, (reclampTrim c).gnt = { c.gnt with trim := v, wait := w } := by
  simp only [reclampTrim]
  split
  · exact ⟨c.gnt.trim, c.gnt.wait, rfl⟩
  · simp only [postNotice_gnt, postEvent_gnt, postWrite]
    split <;> exact ⟨_, _, rfl⟩

theorem setGrant_gnt (a : Option Granted) (f : List Granted) (c : Chip) :
    ∃ v w, (setGrant a f c).gnt = { c.gnt with active := a, fallback := f, trim := v, wait := w } :=
  reclampTrim_gnt (onGnt (fun g => { g with active := a, fallback := f }) c)

/-- A drop leaves no active grant, and no fallbacks of one that was; the request and the threaded index stand (R84). -/
theorem dropActive_gnt (v : Int) (c : Chip) : (dropActive v c).gnt.active = none ∧
    (c.gnt.active ≠ none → (dropActive v c).gnt.fallback = []) ∧ (dropActive v c).gnt.request = c.gnt.request ∧
    (dropActive v c).gnt.threaded = c.gnt.threaded := by
  cases h : c.gnt.active with
  | none => simp [dropActive, h]
  | some a =>
    obtain ⟨x, w, hg⟩ := setGrant_gnt none [] (postEvent .grantDropped 1 0 v c)
    have hd : dropActive v c = setGrant none [] (postEvent .grantDropped 1 0 v c) := by simp only [dropActive, h]
    rw [hd, hg, postEvent_gnt]
    exact ⟨rfl, fun _ => rfl, rfl, rfl⟩

theorem cancelPending_gnt (v : Int) (c : Chip) : (cancelPending v c).gnt = { c.gnt with request := none } := by
  cases h : c.gnt.request with
  | none =>
    simp only [cancelPending, h]
    rw [← h]
  | some l => simp [cancelPending, h]

/-- The grants after an entry that drops them and cancels the request (R82, R84). -/
structure GrantsGone (old new : GrantUnit) : Prop where
  active : new.active = none
  fallback : old.active ≠ none → new.fallback = []
  request : new.request = none

theorem enterGrant_gone {n : TState} (hd : n.dropsGrant = true) (hn : n ≠ .threaded) (c : Chip) :
    GrantsGone c.gnt (enterGrant n c).gnt := by
  obtain ⟨ha, hf, -, -⟩ := dropActive_gnt droppedState c
  simp only [enterGrant, hd, hn, ne_eq, not_false_eq_true, and_self, if_true, cancelPending_gnt]
  exact ⟨ha, hf, rfl⟩

/-- The grant unit after an entry into a state that drops the grants. -/
theorem enter_gnt_drops {n : TState} (hd : n.dropsGrant = true) (c : Chip) : (enter n c).gnt =
    if n = .unthreaded then { (enterGrant n c).gnt with threaded := none } else (enterGrant n c).gnt := by
  cases n <;> simp [enter, TState.dropsGrant, unthread] at hd ⊢

theorem enter_unthreaded_gnt (c : Chip) :
    (enter .unthreaded c).gnt.threaded = none ∧ (enter .unthreaded c).gnt.request = none := by
  rw [enter_gnt_drops rfl, if_pos rfl]
  exact ⟨rfl, (enterGrant_gone rfl (by decide) c).request⟩

/-- The entry into THREADED with no grant: the change is announced, and the grants stand (R17, R20). -/
theorem enter_threaded {c : Chip} (hm : c.mode = .running) (ha : c.gnt.active = none) :
    (enter .threaded c).evt = { c.evt with
      posted := c.evt.posted ++ [c.event .stateChanged 1 c.curTag c.sup.ts.code] } ∧
    (enter .threaded c).ntc = c.ntc.post .stateChanged ∧ (enter .threaded c).gnt = c.gnt := by
  have hg : enterGrant .threaded c = c := by simp [enterGrant, TState.dropsGrant, dropActive, ha]
  simp only [enter, hg, reduceCtorEq, if_false]
  rw [postEvent_running (by exact hm), postNotice_running (by exact hm)]
  simp [TState.dropsGrant, onSup, Chip.event, Chip.curTag, TState.code]

/-! ## The stage at a trip -/

/-- What the emergency release leaves of the stage (R61, R63 to R66). -/
theorem release_stage (d : Drive) (full : Nat) : (d.release full).capRun = false ∧ (d.release full).capSpeed = 0 ∧
    ((d.release full).pinch = .out ∨ (d.release full).pinch = .goingOut) ∧ (d.release full).lifters = d.lifters := by
  cases h : d.pinch <;> simp [Drive.release, Drive.capstanStop, Drive.pinchAway, h]

theorem enter_tripped_drv (c : Chip) : (enter .tripped c).drv = c.drv.release c.pinchFull := by
  simp [enter, enterStage, TState.admitsPinch, TState.dropsGrant, Chip.pinchFull]

/-! ## A trip under tension (R29) -/

/-- The part a trip enters TRIPPED from, where no judgement of a claim is outstanding. -/
def atTrip (cause : TripCause) (side : Side) (c : Chip) : Chip :=
  let lost := tripPosition cause
    (tripOutputs c.drv.ownStop (onSup (fun s => { s with catchHold := false, brk := none, exc := none }) c))
  postNotice .tripped (postEvent .trip cause.code lost.curTag side.code
    (onSup (·.tripWord cause side) (idleEngine (flushBoth .faultFlushed (endCur .faultFlushed lost)))))

theorem tripNow_eq (cause : TripCause) (side : Side) {c : Chip} (h : c.sup.claimPending = false) :
    tripNow cause side c = enter .tripped (atTrip cause side c) := by
  simp only [tripNow, h, Bool.false_eq_true, if_false]
  rfl

section AtTrip

variable (cause : TripCause) (side : Side) (c : Chip)

theorem atTrip_sup : (atTrip cause side c).sup =
    ({ c.sup with catchHold := false, brk := none, exc := none } : Supervisor).tripWord cause side := by
  simp [atTrip]

theorem atTrip_gnt : (atTrip cause side c).gnt = c.gnt := by simp [atTrip]

theorem atTrip_lifters : (atTrip cause side c).drv.lifters = .up := by
  simp only [atTrip, postNotice_drv, postEvent_drv, onSup_drv, idleEngine_frame, flushBoth_frame, endCur_frame,
    tripPosition_frame]
  exact (tripOutputs_drv _ _).2.2.2.1

theorem atTrip_rings : (atTrip cause side c).pln.urgent.queued = 0 ∧ (atTrip cause side c).pln.main.queued = 0 := by
  simp only [atTrip, postNotice_pln, postEvent_pln, onSup_pln, idleEngine_frame]
  exact flushBoth_queued _ _

end AtTrip

/-- The first cause is recorded with its side, and a later one leaves the record (R29, R35). -/
theorem tripWord_fields (x : Supervisor) (cause : TripCause) (side : Side) :
    (x.tripWord cause side).trip = (if x.trip = .none then cause else x.trip) ∧
    (x.tripWord cause side).side = (if x.trip = .none then side else x.side) ∧
    (x.tripWord cause side).stop = x.stop ∧ (x.tripWord cause side).latch = x.latch := by
  unfold Supervisor.tripWord
  split <;> exact ⟨rfl, rfl, rfl, rfl⟩

/-- A trip taken under tension leaves what R29 says, where the part it is taken on differs from the state's only by what
the trip discards, and the position is lost as the cause has it. -/
theorem trippedBy_tripNow {cause : TripCause} {side : Side} {s : State} {c : Chip}
    (hclaim : s.chip.sup.claimPending = false) (hsup : c.sup = s.chip.sup) (hgnt : c.gnt = s.chip.gnt)
    (hrest : c.cue = s.chip.cue ∧ c.mbx = s.chip.mbx ∧ c.set = s.chip.set ∧ c.mon = s.chip.mon ∧
      c.clock = s.chip.clock ∧ c.mode = s.chip.mode)
    (hpos : (tripNow cause side c).trk.position = s.chip.trk.position)
    (hval : (tripNow cause side c).trk.valid = (s.chip.trk.valid && cause != .tapeBreak && cause != .pathLost)) :
    TrippedBy cause side s (s.ends (tripNow cause side c)) := by
  have heq : tripNow cause side c = enter .tripped (atTrip cause side c) := tripNow_eq cause side (hsup ▸ hclaim)
  have hts : (tripNow cause side c).sup.ts = .tripped := by rw [heq]; exact (enter_supFrame _ _).1
  obtain ⟨p, hs⟩ : ∃ p, (tripNow cause side c).sup = (atTrip cause side c).sup.entered .tripped p := by
    simpa [heq] using enter_sup .tripped (atTrip cause side c)
  have hdone : (done (tripNow cause side c)).sup = (tripNow cause side c).sup :=
    done_zero _ (by rw [hs]; rfl) (.inl hts)
  obtain ⟨hrun, hspeed, hpinch, hlift⟩ := release_stage (atTrip cause side c).drv (atTrip cause side c).pinchFull
  rw [← enter_tripped_drv, ← heq] at hrun hspeed hpinch hlift
  have heng : (tripNow cause side c).eng = Engine.reset := by rw [heq, enter_eng]; rfl
  have hpln : (tripNow cause side c).pln = (atTrip cause side c).pln := by rw [heq]; simp
  obtain ⟨ha, hf, hr⟩ : GrantsGone c.gnt (tripNow cause side c).gnt := by
    rw [heq, enter_gnt_drops rfl, ← atTrip_gnt cause side c]
    exact enterGrant_gone rfl (by decide) _
  obtain ⟨htrip, hside, hstop, hlatch⟩ :=
    tripWord_fields { c.sup with catchHold := false, brk := none, exc := none } cause side
  rw [← atTrip_sup] at htrip hside hstop hlatch
  obtain ⟨hcue, hmbx, hset, hmon, hclock, hmode⟩ := hrest
  exact {
    state := by simpa [State.ends] using hts
    capstan := by simpa [State.ends] using ⟨hrun, hspeed⟩
    pinch := by simpa [State.ends] using hpinch
    lifters := by simpa [State.ends, done_lifters _ hts, hlift] using atTrip_lifters cause side c
    tension := by
      simp only [State.ends, hdone, hs]
      exact (by decide : Ramp.zero.value.1 = 0)
    timers := by simp only [State.ends, hdone, hs]; exact ⟨rfl, rfl⟩
    segment := by simp [State.ends, done_cur_none, heng, Engine.reset]
    rings := by simpa [State.ends, hpln] using atTrip_rings cause side c
    grant := by simpa [State.ends, ← hgnt] using ⟨ha, hf, hr⟩
    word := by simp only [State.ends, hdone, hs, ← hsup]; exact ⟨htrip, hside⟩
    stopField := by simp only [State.ends, hdone, hs, ← hsup]; exact hstop
    latch := by simp only [State.ends, hdone, hs, ← hsup]; exact hlatch
    position := by simpa [State.ends] using hpos
    validity := by simpa [State.ends] using hval
    rest := by simp [State.ends, hcue, hmbx, hset, hmon, hclock, hmode] }

end Sys2Proof.TapePath

namespace Sys2Proof.TapePath

open Sys2Proof Sys2Proof.Machine Sys2Proof.Laws

/-! ## The path sensor (R11, R12, R20) -/

/-- The path found PRESENT at the end of the debounce, announced (R11). -/
def pathFound (c : Chip) : Chip :=
  ({ c with trk := { c.trk with path := .present, debounce := 0 } } : Chip).posting [c.event .tapePath 1 0 0] [.tapePath]

theorem pathFound_frame (c : Chip) : (pathFound c).trk = { c.trk with path := .present, debounce := 0 } ∧
    (pathFound c).sup = c.sup ∧ (pathFound c).gnt = c.gnt ∧ (pathFound c).pln = c.pln ∧ (pathFound c).cue = c.cue ∧
    (pathFound c).set = c.set ∧ (pathFound c).mbx = c.mbx ∧ (pathFound c).ntc = c.ntc.post .tapePath ∧
    (pathFound c).evt.posted = c.evt.posted ++ [c.event .tapePath 1 0 0] ∧ (pathFound c).curTag = c.curTag ∧
    (∀ k d t v, (pathFound c).event k d t v = c.event k d t v) :=
  ⟨rfl, rfl, rfl, rfl, rfl, rfl, rfl, rfl, rfl, rfl, fun _ _ _ _ => rfl⟩

/-- The end of the debounce finds the path PRESENT, and a supervisor in UNTHREADED is told (R11, R20). -/
theorem exec_debounce {s : State} (hm : s.chip.mode = .running) (hp : s.chip.trk.path = .pending)
    (hd : 80 ≤ s.chip.trk.debounce) : exec .pathDebounceExpiry s = .next (s.ends
      (if s.chip.sup.up ∧ s.chip.sup.ts = .unthreaded then enter .threaded (pathFound s.chip) else pathFound s.chip)) := by
  have hf : postTapePath 1 (onTrk (fun t => { t with path := .present, debounce := 0 }) s.chip) = pathFound s.chip :=
    trackerPosts_running (by exact hm) _ _ _
  simp only [exec, execPathDebounceExpiry, State.onChip, debounceStep]
  rw [if_pos ⟨hp, hd⟩, hf]
  rfl

/-- The part that has lost the path in PRESENT, before the supervisor is told (R10, R12, R148). -/
def pathGone (c : Chip) : Chip :=
  let lost := onTrk (·.lose) (setPathPin false c)
  let posted := postTapePath 2 (if c.trk.valid then postTrackerEvent .positionLost 2 lost else lost)
  if posted.locateCurrent then endCur .missed posted else posted

theorem pathAbsentStep_present {c : Chip} (h : c.trk.path = .present) :
    pathAbsentStep c = absenceTold (pathGone c) := by
  have hp : (setPathPin false c).trk.path = .present := h
  simp only [pathAbsentStep, hp]
  rfl

/-- The loss of the path is the tracker's; the supervisor, the grants and the blocks of the host stand. -/
theorem pathGone_frame (c : Chip) : (pathGone c).trk = c.trk.lose ∧ (pathGone c).sup = c.sup ∧
    (pathGone c).gnt = c.gnt ∧ (pathGone c).cue = c.cue ∧ (pathGone c).mbx = c.mbx ∧ (pathGone c).set = c.set ∧
    (pathGone c).mon = c.mon ∧ (pathGone c).clock = c.clock ∧ (pathGone c).mode = c.mode := by
  simp only [pathGone, postTapePath, setPathPin]
  split <;> split <;> simp

/-- PATH_ABSENT in PRESENT tells the supervisor of the path that is gone (R12, R20, R28). -/
theorem exec_pathAbsent_present {s : State} (h : s.chip.trk.path = .present) :
    exec .pathAbsent s = .next (s.ends (absenceTold (pathGone s.chip))) := by
  simp only [exec, execPathAbsent, State.onChip, pathAbsentStep_present h]
  rfl

theorem exec_pathAbsent_absent {s : State} (h : s.chip.trk.path = .absent) :
    exec .pathAbsent s = .next (s.ends { s.chip with pins := { s.chip.pins with path := false } }) := by
  have hp : (setPathPin false s.chip).trk.path = .absent := h
  simp only [exec, execPathAbsent, State.onChip, pathAbsentStep, hp]
  rfl

theorem exec_pathAbsent_pending {s : State} (h : s.chip.trk.path = .pending) :
    exec .pathAbsent s = .next (s.ends { s.chip with
      pins := { s.chip.pins with path := false }, trk := { s.chip.trk with path := .absent, debounce := 0 } }) := by
  have hp : (setPathPin false s.chip).trk.path = .pending := h
  simp only [exec, execPathAbsent, State.onChip, pathAbsentStep, hp]
  rfl

theorem absenceTold_threaded {c : Chip} (hup : c.sup.up = true) (ht : c.sup.ts = .threaded) :
    absenceTold c = enter .unthreaded c := by
  simp only [absenceTold, hup, ht, if_true]

/-- Under tension an absence is the cause PATH_LOST (R28). -/
theorem absenceTold_tensed {c : Chip} (hup : c.sup.up = true) (ht : c.sup.ts = .tensioning ∨ c.sup.ts = .held ∨
    c.sup.ts = .moving ∨ c.sup.ts = .stopping ∨ c.sup.ts = .slacking ∨ c.sup.ts = .catching) :
    absenceTold c = tripNow .pathLost .none c := by
  rcases ht with h | h | h | h | h | h <;> simp only [absenceTold, trip, hup, h, if_true]

/-- A trip by PATH_LOST ends POSITION_VALID and leaves the counter (R3, R29). -/
theorem tripNow_pathLost_trk {side : Side} {c : Chip} (h : c.sup.claimPending = false) :
    (tripNow .pathLost side c).trk = { c.trk with valid := false } := by
  have hl (x : Chip) : (losePosition 3 x).trk = { x.trk with valid := false } := by
    unfold losePosition
    split
    · simp
    next hv => rw [← Bool.eq_false_iff.mpr hv]
  rw [tripNow_eq _ _ h]
  simp [atTrip, tripPosition, hl]

/-- Settles O16: each reading by the path state it finds, and the supervisor told of the path by the state it is in. -/
theorem pathSensorTaken : Obligations.PathSensorTaken := by
  unfold Obligations.PathSensorTaken
  refine ⟨fun s => ?present, fun s hm hp hd => ?debounce, fun s => ?absent, fun s ⟨hup, ht⟩ hclaim hp => ?tensed⟩
  case present =>
    simp only [exec, execPathSensorPresent, State.onChip, State.withChip, pathPresentStep]
    by_cases h : s.chip.trk.path = .absent
    · rw [if_pos (by exact h), if_pos h]
      rfl
    · rw [if_neg (by exact h), if_neg h]
      rfl
  case debounce =>
    refine ⟨fun h => ?_, fun hup ht ha => ⟨_, exec_debounce hm hp hd, ?_⟩⟩
    · rw [exec_debounce hm hp hd, if_neg fun ⟨h₁, h₂⟩ => h.elim (fun k => by simp [k] at h₁) fun k => k h₂]
      rfl
    · obtain ⟨he, hn, hg⟩ := enter_threaded (c := pathFound s.chip) hm ha
      rw [if_pos ⟨hup, ht⟩]
      simp [State.ends, he, hn, hg, ht, pathFound_frame, TState.code]
  case absent =>
    refine ⟨exec_pathAbsent_absent, exec_pathAbsent_pending, fun hp hup ht => ⟨_, exec_pathAbsent_present hp, ?_⟩⟩
    obtain ⟨htrk, hsup, -, hcue, hmbx, hset, -, -, -⟩ := pathGone_frame s.chip
    obtain ⟨hthr, hreq⟩ := enter_unthreaded_gnt (pathGone s.chip)
    rw [absenceTold_threaded (hsup ▸ hup) (hsup ▸ ht)]
    simp [State.ends, hthr, hreq, htrk, hcue, hmbx, hset, Tracker.lose]
  case tensed =>
    obtain ⟨htrk, hsup, hgnt, hrest⟩ := pathGone_frame s.chip
    have htrip := tripNow_pathLost_trk (side := .none) (c := pathGone s.chip) (hsup ▸ hclaim)
    refine ⟨_, exec_pathAbsent_present hp, ?_⟩
    rw [absenceTold_tensed (hsup ▸ hup) (hsup ▸ ht)]
    exact trippedBy_tripNow hclaim hsup hgnt hrest (by rw [htrip, htrk]; rfl) (by simp [htrip])

end Sys2Proof.TapePath

namespace Sys2Proof.TapePath

open Sys2Proof Sys2Proof.Machine Sys2Proof.Laws

/-! ## The arbiter's frame (R158) -/

/-- What a grant leaves of the path: all but the port, the host cycle's phase and the pass-over count, and that count too
with the queue empty. -/
structure PathStands (a b : Bus) : Prop where
  queue : b.queue = a.queue
  wait : b.wait = a.wait
  snap : b.snap = a.snap
  winsel : b.winsel = a.winsel
  startCause : b.startCause = a.startCause
  startCount : b.startCount = a.startCount
  ending : b.ending = a.ending
  next : b.next = a.next
  prior : b.prior = a.prior
  done : b.done = a.done
  passOver : a.queue = [] → b.passOver = a.passOver
  host : a.host = none → b.host = none

theorem grant_pathStands (b : Bus) (cy : Cycle) : PathStands b (b.grant cy) := by
  cases cy <;> constructor <;> simp +contextual [Bus.grant]

/-- The arbiter changes the path alone. -/
theorem arbitrate_eq (c : Chip) : arbitrate c = { c with bus := (arbitrate c).bus } := by
  unfold arbitrate
  split
  · rfl
  · split <;> rfl

theorem arbitrate_pathStands (c : Chip) : PathStands c.bus (arbitrate c).bus := by
  have hrefl : PathStands c.bus c.bus := ⟨rfl, rfl, rfl, rfl, rfl, rfl, rfl, rfl, rfl, rfl, fun _ => rfl, id⟩
  unfold arbitrate
  split
  · exact hrefl
  · split
    · exact grant_pathStands _ _
    · exact hrefl

/-! ## RESET_N_ASSERTED and CARRY_EXPIRY -/

/-- A carry is written where none stands (R68, R69). -/
theorem assertCarry_eq (d : Drive) (r : CarryRec) : d.assertCarry r =
    if d.carry = .none then { d with carry := .held, carryTimer := some 0, carryRec := some r } else d := by
  cases h : d.carry <;> simp [Drive.assertCarry, h]

/-- The record where no carry stands: the supervisor's, or UNTHREADED before it has started (R68). -/
theorem carryNow_fresh {c : Chip} (h : c.drv.carry = .none) : carryNow c = if c.sup.up then
      ⟨c.sup.ts, c.sup.threaded, c.sup.tension.value, c.set.gen.brakeSafe⟩
    else ⟨.unthreaded, none, (0, 1), c.set.gen.brakeSafe⟩ := by
  cases hu : c.sup.up <;> simp [carryNow, Chip.stageState, hu, h]

theorem assertCarry_now (c : Chip) : c.drv.assertCarry (carryNow c) =
    if c.drv.carry = .none then { c.drv with
      carry := .held, carryTimer := some 0, carryRec := some (if c.sup.up then
          ⟨c.sup.ts, c.sup.threaded, c.sup.tension.value, c.set.gen.brakeSafe⟩
        else ⟨.unthreaded, none, (0, 1), c.set.gen.brakeSafe⟩) }
    else c.drv := by
  rw [assertCarry_eq]
  split
  next h => rw [carryNow_fresh h]
  next => rfl

/-- The part an assertion leaves outside the bypass, before the arbiter (R16, R68, R162, R166). -/
def assertedChip (c : Chip) : Chip :=
  { Chip.reset with
    clock := c.clock
    pins := c.pins
    free := c.free + 1
    trk := c.trk
    drv := c.drv.assertCarry (carryNow c)
    set := c.set.assertReset (Config.saveWritesMade c.free)
    bus := c.bus.assertReset }

/-- The stage at the expiry of a carry: its own stop begun, the reels as they were (R71). -/
def expiredStage (d : Drive) (full : Nat) : Drive :=
  { ({ d with carry := .expired, carryTimer := none } : Drive).release full with lifters := .up }

theorem expiredStage_reels (d : Drive) (full : Nat) :
    (expiredStage d full).sup = d.sup ∧ (expiredStage d full).tup = d.tup := by
  cases hp : d.pinch <;> simp [expiredStage, Drive.release, Drive.capstanStop, Drive.pinchAway, hp]

/-- The expiry stops the transport: both reels are given their emergency action, unless they are at rest (R71). -/
theorem carryExpiryStep_eq {c : Chip} {n : Nat} (hc : c.drv.carry = .held) (ht : c.drv.carryTimer = some n)
    (hn : 40 ≤ n) : carryExpiryStep c =
      let stopped : Chip := { c with drv := expiredStage c.drv c.pinchFull }
      if c.drv.atRest then stopped else emergencyBoth stopped := by
  have he : expired c.drv.carryTimer carryLimit = true := by simp [expired, carryLimit, ht, hn]
  have hr : (expiredStage c.drv c.pinchFull).atRest = c.drv.atRest := by
    simp only [Drive.atRest, Drive.bothEngaged, expiredStage_reels]
  simp only [carryExpiryStep, hc, he, and_self, if_true]
  rw [← hr]
  rfl

/-- A stage in its own stop, beside the reels (R71). -/
structure OwnStop (old d : Drive) : Prop where
  carry : d.carry = .expired
  timer : d.carryTimer = none
  record : d.carryRec = old.carryRec
  capstan : d.capRun = false ∧ d.capSpeed = 0
  pinch : d.pinch = .out ∨ d.pinch = .goingOut
  lifters : d.lifters = .up

theorem expiredStage_ownStop (d : Drive) (full : Nat) : OwnStop d (expiredStage d full) := by
  obtain ⟨hrun, hspeed, hpinch, -⟩ := release_stage { d with carry := .expired, carryTimer := none } full
  refine ⟨?_, ?_, ?_, ⟨hrun, hspeed⟩, hpinch, rfl⟩ <;>
    cases hp : d.pinch <;> simp [expiredStage, Drive.release, Drive.capstanStop, Drive.pinchAway, hp]

/-- The reels' emergency action leaves the rest of the stage's own stop. -/
theorem OwnStop.emergency {old : Drive} {c : Chip} (h : OwnStop old c.drv) : OwnStop old (emergencyBoth c).drv := by
  have hs : StageSame (emergencyBoth c).drv c.drv := (stage_emergency _ _ _ _).trans (stage_emergency _ _ _ _)
  exact ⟨hs.carry.trans h.carry, hs.timer.trans h.timer, hs.record.trans h.record,
    ⟨hs.run.trans h.capstan.1, hs.speed.trans h.capstan.2⟩, by rw [hs.pinch]; exact h.pinch, hs.lifters.trans h.lifters⟩

/-- Settles O35: the assertion's carry by whether one stands, the rest by the reset values, and the expiry by what the
release and the emergency action leave of the stage. -/
theorem resetKeepsOutputs : Obligations.ResetKeepsOutputs := by
  unfold Obligations.ResetKeepsOutputs
  refine ⟨fun s hm => ?running, fun s hm hup => ?bypass, fun n s hc ht hn => ?expiry⟩
  case running =>
    intro r
    have hx : exec .resetNAsserted s = .next (s.withChip (arbitrate (assertedChip s.chip))) := by
      simp only [exec, execResetNAsserted, State.onChip, assertResetStep, hm, if_false]
      rfl
    have hb := arbitrate_pathStands (assertedChip s.chip)
    refine ⟨_, hx, ?_⟩
    rw [arbitrate_eq]
    exact ⟨rfl, rfl, assertCarry_now s.chip, rfl, rfl, rfl, rfl, rfl, rfl, rfl, rfl, rfl, hb.queue, hb.passOver rfl,
      hb.snap, hb.startCause, hb.startCount, rfl, rfl, rfl⟩
  case bypass =>
    simp only [exec, execResetNAsserted, State.onChip, assertResetStep, hm, if_true, assertCarry_now, hup]
    cases h : s.chip.bus.ending <;> simp [State.withChip, Bus.assertAgain, h]
  case expiry =>
    have hx : exec .carryExpiry s = .next (s.withChip (carryExpiryStep s.chip)) := rfl
    rw [hx, carryExpiryStep_eq hc ht hn]
    have hstop := expiredStage_ownStop s.chip.drv s.chip.pinchFull
    cases hr : s.chip.drv.atRest with
    | true =>
      obtain ⟨h₁, h₂, h₃, ⟨h₄, h₅⟩, h₆, h₇⟩ := hstop
      exact ⟨_, rfl, h₁, h₂, h₃, h₄, h₅, h₆, h₇, fun _ => expiredStage_reels _ _⟩
    | false =>
      obtain ⟨h₁, h₂, h₃, ⟨h₄, h₅⟩, h₆, h₇⟩ :=
        OwnStop.emergency (c := { s.chip with drv := expiredStage s.chip.drv s.chip.pinchFull }) hstop
      exact ⟨_, rfl, h₁, h₂, h₃, h₄, h₅, h₆, h₇, fun h => absurd h Bool.false_ne_true⟩

end Sys2Proof.TapePath

namespace Sys2Proof.TapePath

open Sys2Proof Sys2Proof.Machine Sys2Proof.Laws

/-! ## The writes of start-up (R156, R164) -/

/-- A write behind a waiting one waits too (R156, log 31). -/
theorem postWrites_startUp_waiting (ws : List PartWrite) {c : Chip} (h : c.bus.wait ≠ []) :
    postWrites .startUp ws c = { c with bus := { c.bus with wait := c.bus.wait ++ ws } } := by
  induction ws generalizing c with
  | nil => simp [postWrites]
  | cons w ws ih =>
    have hw : postWrite .startUp w c = { c with bus := { c.bus with wait := c.bus.wait ++ [w] } } :=
      if_neg fun ⟨_, hempty, _⟩ => h (List.isEmpty_iff.mp hempty)
    have hrec : postWrites .startUp (w :: ws) c = postWrites .startUp ws (postWrite .startUp w c) := rfl
    rw [hrec, hw, ih (c := { c with bus := { c.bus with wait := c.bus.wait ++ [w] } }) (by simp)]
    simp

/-- With none waiting the writes fill the master queue, and the others wait in order (R156). -/
theorem postWrites_startUp (ws : List PartWrite) {c : Chip} (h : c.bus.wait = []) (hq : c.bus.queue.length ≤ 12) :
    postWrites .startUp ws c = { c with bus := { c.bus with
      queue := c.bus.queue ++ ws.take (12 - c.bus.queue.length), wait := ws.drop (12 - c.bus.queue.length) } } := by
  induction ws generalizing c with
  | nil =>
    have hnil : postWrites .startUp [] c = c := rfl
    simp only [hnil, List.take_nil, List.drop_nil, List.append_nil]
    rw [← h]
  | cons w ws ih =>
    have hrec : postWrites .startUp (w :: ws) c = postWrites .startUp ws (postWrite .startUp w c) := rfl
    by_cases hroom : c.bus.queue.length < 12
    · have hw : postWrite .startUp w c = { c with bus := { c.bus with queue := c.bus.queue ++ [w] } } :=
        if_pos ⟨hroom, List.isEmpty_iff.mpr h, rfl⟩
      have hn : 12 - c.bus.queue.length = 12 - (c.bus.queue ++ [w]).length + 1 := by simp; omega
      rw [hrec, hw, ih (c := { c with bus := { c.bus with queue := c.bus.queue ++ [w] } }) h (by simp; omega), hn]
      simp
    · have hfull : 12 - c.bus.queue.length = 0 := by omega
      have hw : postWrite .startUp w c = { c with bus := { c.bus with wait := [w] } } := by
        refine (if_neg fun ⟨hlt, _⟩ => hroom hlt).trans ?_
        simp [withWaiting, waiting, h]
      rw [hrec, hw, postWrites_startUp_waiting ws (c := { c with bus := { c.bus with wait := [w] } }) (by simp), hfull]
      simp

/-- What start-up posts changes its queue and what waits alone. -/
theorem postWrites_startUp_frame (ws : List PartWrite) (c : Chip) :
    ∃ q l, postWrites .startUp ws c = { c with bus := { c.bus with queue := q, wait := l } } := by
  induction ws generalizing c with
  | nil => exact ⟨c.bus.queue, c.bus.wait, rfl⟩
  | cons w ws ih =>
    obtain ⟨q, l, h⟩ : ∃ q l, postWrite .startUp w c = { c with bus := { c.bus with queue := q, wait := l } } := by
      unfold postWrite
      split
      · exact ⟨_, c.bus.wait, rfl⟩
      · exact ⟨c.bus.queue, _, rfl⟩
    obtain ⟨q', l', h'⟩ := ih (postWrite .startUp w c)
    exact ⟨q', l', by rw [show postWrites .startUp (w :: ws) c = postWrites .startUp ws (postWrite .startUp w c) from rfl,
      h', h]⟩

theorem tombstone_getElem? {k : Nat} (h : k < 64) : tombstone[k]? = some ⟨4 * k, if k = 0 then 15 else 0, 0xF⟩ := by
  have hd : bytes4 downCode 0 0 0 = 15 := by decide
  simp [tombstone, h, hd, allBytes]

/-! ## POWER_ON and RESET_N_RELEASED -/

/-- The end of the bypass between host cycles (R162). -/
theorem bypassEnds_free {c : Chip} {w : BitVec 4} (he : c.bus.ending = some w) (hm : c.mode = .bypass)
    (hh : c.bus.host = none) : bypassEnds c = beginStartup w c := by
  simp [bypassEnds, he, hm, hh]

theorem bypassEnds_busy {c : Chip} (hh : c.bus.host ≠ none) : bypassEnds c = c := by
  unfold bypassEnds
  split
  · exact if_neg fun ⟨_, h⟩ => hh h
  · rfl

theorem exec_release {s : State} (r : Release) (hm : s.chip.mode = .bypass) :
    exec (.resetNReleased r) s = .next (s.withChip (arbitrate (bypassEnds { s.chip with
      bus := { s.chip.bus with ending := some r.winsel }, set := { s.chip.set with coming := r.coming } }))) := by
  have hstep : releaseResetStep r s.chip = arbitrate (bypassEnds { s.chip with
      bus := { s.chip.bus with ending := some r.winsel }, set := { s.chip.set with coming := r.coming } }) := if_pos hm
  simp only [exec, execResetNReleased, State.onChip, hstep]
  rfl

/-- The part as start-up begins (R151, R165), before the tombstone is posted. -/
def startupBegun (w : BitVec 4) (c : Chip) : Chip :=
  { c with
    mode := .startup
    clock := 0
    bus := { c.bus with winsel := w, startCount := c.bus.startCount + 1, ending := none } }

/-- A window cycle in start-up: it is answered, dropped, held or released at the host port (R163). -/
theorem classify_startup {c : Chip} (hm : c.mode = .startup) :
    ∃ h d, classify c = { c with bus := { c.bus with host := h, done := d } } := by
  unfold classify
  split
  · exact ⟨c.bus.host, c.bus.done, rfl⟩
  next p hp =>
    cases windowOffset c p.cyc.addr.toNat with
    | none => exact ⟨_, c.bus.done, rfl⟩
    | some off =>
      rw [classifyAt_some, if_pos hm]
      split
      · unfold disposeLive
        split <;> exact ⟨_, _, rfl⟩
      · split
        · exact ⟨_, c.bus.done, rfl⟩
        · unfold disposeStartup
          split
          · exact ⟨_, _, rfl⟩
          · exact ⟨_, c.bus.done, rfl⟩

/-- A write to the window in start-up is dropped, and completed (R163). -/
theorem classify_startup_write {c : Chip} {h : HostPort} (hm : c.mode = .startup) (hp : c.bus.host = some h)
    (hw : h.cyc.write = true) (hlo : 0x100000 * c.bus.winsel.toNat ≤ h.cyc.addr.toNat)
    (hhi : h.cyc.addr.toNat < 0x10000 + 0x100000 * c.bus.winsel.toNat) : classify c = dropWrite c := by
  have hheld (off : Nat) : heldCycle off h.cyc.write c = false := by simp [heldCycle, hm, hw]
  rw [classify_port hp, windowOffset_in ⟨hlo, hhi⟩, classifyAt_some, hheld, if_pos hm]
  simp [disposeLive, disposeStartup, hw]

/-- The path at the end of a memory cycle of the host's under the bypass, with a reset's release awaited: start-up begins,
and the host's next cycle, where one stands, is driven in it (R162; logs 36, 37). -/
structure BegunByCycle (w : BitVec 4) (c d : Chip) : Prop where
  mode : d.mode = .startup
  clock : d.clock = 0
  winsel : d.bus.winsel = w
  startCount : d.bus.startCount = c.bus.startCount + 1
  ending : d.bus.ending = none
  next : d.bus.next = none
  trk : d.trk = c.trk
  drv : c.bus.next = none ∨ c.sup.up = false → d.drv = c.drv
  free : c.bus.next = none → d.bus.host = none ∧ d.bus.done = c.bus.done
  driven : ∀ cy, c.bus.next = some cy → d.bus.prior = c.bus.done ∧
    (cy.write = true → 0x100000 * w.toNat ≤ cy.addr.toNat → cy.addr.toNat < 0x10000 + 0x100000 * w.toNat →
      d.bus.host = none ∧ d.bus.done = .wrote)

/-- The arbiter leaves what such an end has begun. -/
theorem BegunByCycle.arbitrate {w : BitVec 4} {c d : Chip} (h : BegunByCycle w c d) :
    BegunByCycle w c (arbitrate d) := by
  have hb := arbitrate_pathStands d
  rw [arbitrate_eq]
  exact {
    mode := h.mode
    clock := h.clock
    winsel := hb.winsel.trans h.winsel
    startCount := hb.startCount.trans h.startCount
    ending := hb.ending.trans h.ending
    next := hb.next.trans h.next
    trk := h.trk
    drv := h.drv
    free := fun hn => ⟨hb.host (h.free hn).1, hb.done.trans (h.free hn).2⟩
    driven := fun cy hcy => ⟨hb.prior.trans (h.driven cy hcy).1, fun hw hlo hhi =>
      have hd := (h.driven cy hcy).2 hw hlo hhi
      ⟨hb.host hd.1, hb.done.trans hd.2⟩⟩ }

/-- A window cycle in start-up, and the end of a command after it: the frame. -/
theorem tail_classify_startup {c : Chip} (hm : c.mode = .startup) :
    ∃ h d, (tail (classify c)).bus = { c.bus with host := h, done := d } ∧ (tail (classify c)).mode = .startup ∧
      (tail (classify c)).clock = c.clock ∧ (tail (classify c)).trk = c.trk ∧
      (c.sup.up = false → (tail (classify c)).drv = c.drv) := by
  obtain ⟨h, d, hc⟩ := classify_startup hm
  obtain ⟨hmode, hclock, -, htrk, -⟩ := plain_blocks (tail_plain (classify c))
  refine ⟨h, d, by rw [tail_bus, hc], ?_, ?_, ?_, fun hup => ?_⟩
  · rw [hmode, hc]; exact hm
  · rw [hclock, hc]
  · rw [htrk, hc]
  · have hid : tail (classify c) = classify c := if_neg (by rw [hc]; simp [hup])
    rw [hid, hc]

/-- Start-up begun at the free port, with the host's next cycle driven in it. -/
theorem driveOn_begunByCycle (w : BitVec 4) {c : Chip} (hh : c.bus.host = none) :
    BegunByCycle w c (driveOn (beginStartup w c)) := by
  obtain ⟨q, l, hbegin⟩ := postWrites_startUp_frame tombstone (startupBegun w c)
  have hb : beginStartup w c = { startupBegun w c with
      bus := { (startupBegun w c).bus with queue := q, wait := l } } := hbegin
  rw [hb]
  cases hn : c.bus.next with
  | none =>
    rw [(driveNext_none (by exact hn)).2]
    exact ⟨rfl, rfl, rfl, rfl, rfl, hn, rfl, fun _ => rfl, fun _ => ⟨hh, rfl⟩, fun cy hcy => by simp [hn] at hcy⟩
  | some cy =>
    let cleared : Chip := onBus (fun b => { b with next := none, prior := b.done }) { startupBegun w c with
      bus := { (startupBegun w c).bus with queue := q, wait := l } }
    have hdriven : driveOn { startupBegun w c with bus := { (startupBegun w c).bus with queue := q, wait := l } } =
        tail (classify (arrived cy cleared)) := (driveNext_some (by exact hh) (by exact hn)).2
    have hm : (arrived cy cleared).mode = .startup := rfl
    obtain ⟨h, d, hbus, hmode, hclock, htrk, hdrv⟩ := tail_classify_startup hm
    rw [hdriven]
    refine ⟨hmode, hclock, ?_, ?_, ?_, ?_, htrk, fun hup => hdrv (hup.resolve_left (by simp [hn])),
      fun hnone => by simp [hn] at hnone, fun cy' hcy => ⟨?_, fun hw hlo hhi => ?_⟩⟩
    any_goals (rw [hbus]; rfl)
    obtain rfl : cy = cy' := Option.some.inj (hn.symm.trans hcy)
    rw [tail_bus, classify_startup_write hm (arrived_host cy cleared) hw hlo hhi]
    exact ⟨rfl, rfl⟩

/-- A write of the host's that memory completes under the bypass, with a reset's release awaited (R159, R162). -/
theorem exec_memoryCycleDone_write {s : State} {w : BitVec 4} {a : Nat} {data : Word} {be : Enables} {y : Bool}
    (hm : s.chip.mode = .bypass) (he : s.chip.bus.ending = some w)
    (hp : s.chip.bus.port = some (.host a true data be y)) :
    exec .memoryCycleDone s = .next { s with
      chip := arbitrate (driveOn (beginStartup w (completeHost .wrote (freePort s.chip))))
      mem := s.mem.writeWord (a / 4 * 4) data be } := by
  have hends : bypassEnds (completeHost .wrote (freePort s.chip)) =
      beginStartup w (completeHost .wrote (freePort s.chip)) := bypassEnds_free he hm rfl
  have hx : exec .memoryCycleDone s = .next (memoryDoneStep s) := rfl
  rw [hx, memoryDoneStep, hp, ← hends]
  rfl

/-- The part as RESET_N goes inactive: the strap sampled, and what the coming reads get wrong taken (R151, log 32). -/
def releaseTaken (r : Release) (c : Chip) : Chip :=
  { c with bus := { c.bus with ending := some r.winsel }, set := { c.set with coming := r.coming } }

/-- Start-up begun at an idle path: the queue and what waits hold the tombstone (R156, R165, log 31). -/
theorem beginStartup_idle {w : BitVec 4} {c : Chip} (hq : c.bus.queue = []) (hl : c.bus.wait = []) :
    beginStartup w c = { startupBegun w c with
      bus := { (startupBegun w c).bus with queue := tombstone.take 12, wait := tombstone.drop 12 } } := by
  have hbegin : beginStartup w c = postWrites .startUp tombstone (startupBegun w c) := rfl
  rw [hbegin, postWrites_startUp tombstone (c := startupBegun w c) hl (by simp [startupBegun, hq])]
  simp [startupBegun, hq]

/-- Settles O34: the release by whether a host cycle keeps the bypass; start-up begun by the writes it posts, and at the
end of the host's cycle by `driveOn_begunByCycle`. -/
theorem powerOnAndRelease : Obligations.PowerOnAndRelease := by
  unfold Obligations.PowerOnAndRelease
  refine ⟨fun p s hs => ?power, fun r s hm hq hl _ hh => ?free, fun r s hm hh hp => ?busy,
    fun w a data be y s hm he hp => ?cycle⟩
  case power =>
    have hstop (k : Nat) : s.chip.set.stopSave k = s.chip.set := if_neg (by simp [hs])
    have hx : exec (.powerOn p) s = .next (s.withChip (powerOnChip p s.chip)) := rfl
    rw [hx, powerOnChip, hstop]
  case free =>
    have hends : bypassEnds (releaseTaken r s.chip) = beginStartup r.winsel (releaseTaken r s.chip) :=
      bypassEnds_free rfl hm hh
    have hx : exec (.resetNReleased r) s = .next (s.withChip (arbitrate (bypassEnds (releaseTaken r s.chip)))) :=
      exec_release r hm
    have hidle := beginStartup_idle (w := r.winsel) (c := releaseTaken r s.chip) hq hl
    refine ⟨_, hx, ?_⟩
    rw [hends, hidle, arbitrate_eq]
    generalize hc : ({ startupBegun r.winsel (releaseTaken r s.chip) with
      bus := { (startupBegun r.winsel (releaseTaken r s.chip)).bus with
        queue := tombstone.take 12, wait := tombstone.drop 12 } } : Chip) = c
    have hb := arbitrate_pathStands c
    subst hc
    have hlen : tombstone.length = 64 := by simp [tombstone]
    refine ⟨rfl, rfl, hb.winsel, hb.startCount, hb.ending, ?_, ?_, fun k hk => ?_, rfl, rfl, rfl, rfl, rfl⟩
    · exact (congrArg List.length hb.queue).trans (by simp [hlen])
    · exact (congrArg List.length hb.wait).trans (by simp [hlen])
    · have happend : tombstone.take 12 ++ tombstone.drop 12 = tombstone := List.take_append_drop 12 tombstone
      exact (congrArg (·[k]?) ((congrArg₂ (· ++ ·) hb.queue hb.wait).trans happend)).trans (tombstone_getElem? hk)
  case busy =>
    have hends : bypassEnds (releaseTaken r s.chip) = releaseTaken r s.chip := bypassEnds_busy hh
    have hx : exec (.resetNReleased r) s = .next (s.withChip (arbitrate (bypassEnds (releaseTaken r s.chip)))) :=
      exec_release r hm
    obtain ⟨cy, hcy⟩ := Option.ne_none_iff_exists'.mp hp
    have hport : (releaseTaken r s.chip).bus.port = some cy := hcy
    have hstands : arbitrate (releaseTaken r s.chip) = releaseTaken r s.chip := by rw [arbitrate, hport]
    rw [hx, hends, hstands]
    rfl
  case cycle =>
    have hbegun := (driveOn_begunByCycle w (c := completeHost .wrote (freePort s.chip)) rfl).arbitrate
    refine ⟨_, exec_memoryCycleDone_write hm he hp, rfl, ?_⟩
    generalize arbitrate (driveOn (beginStartup w (completeHost .wrote (freePort s.chip)))) = d at hbegun
    exact ⟨hbegun.mode, hbegun.clock, hbegun.winsel, hbegun.startCount, hbegun.ending, hbegun.next, hbegun.trk,
      hbegun.drv, hbegun.free, hbegun.driven⟩

end Sys2Proof.TapePath

namespace Sys2Proof.Supervision

open Sys2Proof Sys2Proof.Machine Sys2Proof.Laws

/-! ## One plan ring (R93) -/

/-- An index of a ring of `n` slots, so many slots after another. -/
theorem ringIndex_eq {t k n : Nat} (ht : t < n) (hk : k ≤ n) :
    (t + k) % n = if t + k < n then t + k else t + k - n := by
  split
  next h => exact Nat.mod_eq_of_lt h
  next h => rw [Nat.mod_eq_sub_mod (by omega), Nat.mod_eq_of_lt (by omega)]

theorem slot_withSlot (r : Ring) (i j : Nat) (x : Slot) :
    (r.withSlot i x).slot j = if j = i ∧ i < r.slots.length then x else r.slot j := by
  simp only [Ring.slot, Ring.withSlot, List.getD_eq_getElem?_getD, List.getElem?_set]
  by_cases hj : i = j
  · subst hj
    by_cases hl : i < r.slots.length <;> simp [hl]
  · rw [if_neg hj, if_neg fun h => hj h.1.symm]

section RingOk

variable {r : Ring} {n : Nat}

/-- The slots queued are those the count reaches from the take index, without turning an index round twice. -/
theorem queued_iff (h : r.Ok n) {i : Nat} (hi : i < n) : (r.slot i).view = .queued ↔
    ∃ k, k < r.queued ∧ i = if r.take + k < n then r.take + k else r.take + k - n := by
  rw [h.queued i hi]
  refine exists_congr fun k => and_congr_right fun hk => ?_
  rw [ringIndex_eq h.take (by have := h.count; omega)]

theorem intake_eq (h : r.Ok n) :
    r.intake = if r.take + r.queued < n then r.take + r.queued else r.take + r.queued - n :=
  h.intake.trans (ringIndex_eq h.take h.count)

/-- The slot at the take index is queued where any is. -/
theorem take_queued (h : r.Ok n) (hq : r.queued ≠ 0) : (r.slot r.take).view = .queued := by
  have ht := h.take
  exact (queued_iff h ht).mpr ⟨0, by omega, by rw [if_pos] <;> omega⟩

/-- A ring whose intake slot is HOST is not full. -/
theorem room_of_host (h : r.Ok n) (hv : (r.slot r.intake).view = .host) : r.queued < n := by
  have ht := h.take
  have hc := h.count
  have hi := intake_eq h
  by_contra hfull
  have hn : r.queued = n := by omega
  rw [hn, if_neg (by omega), Nat.add_sub_cancel] at hi
  rw [hi, take_queued h (by omega)] at hv
  cases hv

/-- A slot not queued becomes HOST (R92). -/
theorem withSlot_host_ok (h : r.Ok n) {i : Nat} (hv : (r.slot i).view ≠ .queued) :
    (r.withSlot i ⟨.host, none⟩).Ok n where
  size := by simpa [Ring.withSlot] using h.size
  take := h.take
  count := h.count
  intake := h.intake
  queued j hj := by
    rw [slot_withSlot]
    refine Iff.trans ?_ (h.queued j hj)
    split
    next hji =>
      rw [hji.1]
      exact ⟨nofun, fun hh => absurd hh hv⟩
    next => exact Iff.rfl

/-- The oldest queued slot is taken (R93, R104). -/
theorem taken_ok (h : r.Ok n) (hq : r.queued ≠ 0) : r.taken.Ok n := by
  have ht := h.take
  have hc := h.count
  have hi := intake_eq h
  have htake : r.taken.take = if r.take + 1 < n then r.take + 1 else r.take + 1 - n := by
    rw [← ringIndex_eq ht (by omega), ← h.size]
    rfl
  have hqueued : r.taken.queued = r.queued - 1 := rfl
  have hlt : r.taken.take < n := by rw [htake]; split <;> omega
  refine ⟨by simpa [Ring.taken, Ring.withSlot] using h.size, hlt, by omega, ?_, fun i hin => ?_⟩
  · rw [ringIndex_eq hlt (by omega), htake, hqueued, show r.taken.intake = r.intake from rfl, hi]
    split_ifs <;> omega
  · have hslot : r.taken.slot i = (r.withSlot r.take ⟨.current, (r.slot r.take).record⟩).slot i := rfl
    rw [hslot, slot_withSlot, h.size]
    have hstep (k : Nat) (hk : k < r.taken.queued) : (r.taken.take + k) % n =
        if r.take + (k + 1) < n then r.take + (k + 1) else r.take + (k + 1) - n := by
      rw [ringIndex_eq hlt (by omega), htake]
      split_ifs <;> omega
    split
    next heq =>
      refine ⟨nofun, ?_⟩
      rintro ⟨k, hk, rfl⟩
      rw [hstep k hk] at heq
      have := heq.1
      split_ifs at this <;> omega
    next hne =>
      rw [queued_iff h hin]
      constructor
      · rintro ⟨k, hk, hik⟩
        have hk0 : k ≠ 0 := by
          rintro rfl
          rw [if_pos (by omega)] at hik
          exact hne ⟨hik, ht⟩
        exact ⟨k - 1, by omega, by rw [hstep _ (by omega), Nat.sub_add_cancel (by omega)]; exact hik⟩
      · rintro ⟨k, hk, hik⟩
        exact ⟨k + 1, by omega, hik.trans (hstep k hk)⟩

/-- A hand-off is accepted at a HOST slot (R93, R99). -/
theorem accept_ok (h : r.Ok n) (hv : (r.slot r.intake).view = .host) (x : Record) : (r.accept x).Ok n := by
  have ht := h.take
  have hi := intake_eq h
  have hroom := room_of_host h hv
  have hin : r.intake < n := by rw [hi]; split <;> omega
  refine ⟨by simpa [Ring.accept, Ring.withSlot] using h.size, ht, hroom, ?_, fun i hlt => ?_⟩
  · have hafter : (r.accept x).intake = (r.intake + 1) % n := by rw [← h.size]; rfl
    have hq : (r.accept x).queued = r.queued + 1 := rfl
    have htake : (r.accept x).take = r.take := rfl
    rw [hafter, hq, htake, ringIndex_eq hin (by omega), ringIndex_eq ht (by omega), hi]
    split_ifs <;> omega
  · have hslot : (r.accept x).slot i = (r.withSlot r.intake ⟨.queued, some x⟩).slot i := rfl
    have hq : (r.accept x).queued = r.queued + 1 := rfl
    have htake : (r.accept x).take = r.take := rfl
    rw [hslot, slot_withSlot, h.size, hq, htake]
    split
    next heq =>
      refine ⟨fun _ => ⟨r.queued, by omega, ?_⟩, fun _ => rfl⟩
      rw [heq.1, h.intake]
    next hne =>
      rw [h.queued i hlt]
      constructor
      · rintro ⟨k, hk, hik⟩
        exact ⟨k, by omega, hik⟩
      · rintro ⟨k, hk, hik⟩
        refine ⟨k, Nat.lt_of_le_of_ne (by omega) ?_, hik⟩
        rintro rfl
        exact hne ⟨hik.trans h.intake.symm, hin⟩

/-- The slot before the intake index, where it is queued, is the newest queued one (R93, R102). -/
theorem recall_ok (h : r.Ok n) (hv : (r.slot (r.before r.intake)).view = .queued) : r.recall.Ok n := by
  have ht := h.take
  have hc := h.count
  have hi := intake_eq h
  have hin : r.intake < n := by rw [hi]; split <;> omega
  have hb : r.before r.intake = if r.intake + (n - 1) < n then r.intake + (n - 1) else r.intake + (n - 1) - n := by
    rw [← ringIndex_eq hin (by omega), ← h.size]
    rfl
  have hbn : r.before r.intake < n := by rw [hb]; split <;> omega
  obtain ⟨k₀, hk₀, -⟩ := (queued_iff h hbn).mp hv
  have hlast : r.before r.intake =
      if r.take + (r.queued - 1) < n then r.take + (r.queued - 1) else r.take + (r.queued - 1) - n := by
    rw [hb, hi]
    split_ifs <;> omega
  have hq : r.recall.queued = r.queued - 1 := rfl
  have htake : r.recall.take = r.take := rfl
  have hint : r.recall.intake = r.before r.intake := rfl
  refine ⟨by simpa [Ring.recall, Ring.withSlot] using h.size, ht, by omega, ?_, fun i hlt => ?_⟩
  · rw [hint, hq, htake, ringIndex_eq ht (by omega), hlast]
  · have hslot : r.recall.slot i = (r.withSlot (r.before r.intake) ⟨.host, none⟩).slot i := rfl
    rw [hslot, slot_withSlot, h.size, hq, htake]
    split
    next heq =>
      refine ⟨nofun, ?_⟩
      rintro ⟨k, hk, hik⟩
      rw [ringIndex_eq ht (by omega), heq.1, hlast] at hik
      split_ifs at hik <;> omega
    next hne =>
      rw [h.queued i hlt]
      constructor
      · rintro ⟨k, hk, hik⟩
        refine ⟨k, Nat.lt_of_le_of_ne (by omega) ?_, hik⟩
        rintro rfl
        exact hne ⟨hik.trans ((ringIndex_eq ht (by omega)).trans hlast.symm), hbn⟩
      · rintro ⟨k, hk, hik⟩
        exact ⟨k, by omega, hik⟩

/-- The slots a flush frees are the queued ones (R107). -/
theorem mem_queuedSlots (h : r.Ok n) {i : Nat} (hi : i < n) : i ∈ r.queuedSlots ↔ (r.slot i).view = .queued := by
  rw [h.queued i hi, Ring.queuedSlots, List.mem_map, h.size]
  refine exists_congr fun k => ?_
  rw [List.mem_range]
  exact and_congr_right fun _ => eq_comm

/-- A flush frees every queued slot and leaves the others (R107). -/
theorem flushed_slot_view (h : r.Ok n) {i : Nat} (hi : i < n) : (r.flushed.slot i).view =
    if (r.slot i).view = .queued then .host else (r.slot i).view := by
  obtain ⟨-, -, -, -, hfree, hstay⟩ := ring_free r.queuedSlots r
  have hslot : r.flushed.slot i = (r.free r.queuedSlots).slot i := rfl
  rw [hslot]
  split
  next hv => exact hfree i ((mem_queuedSlots h hi).mpr hv)
  next hv => rw [hstay i (mt (mem_queuedSlots h hi).mp hv)]

theorem flushed_ok (h : r.Ok n) : r.flushed.Ok n := by
  have ht := h.take
  have hi := intake_eq h
  have hc := h.count
  have hin : r.intake < n := by rw [hi]; split <;> omega
  obtain ⟨-, hintake, -, hlen, -, -⟩ := ring_free r.queuedSlots r
  refine ⟨hlen.trans h.size, hin, Nat.zero_le n, ?_, fun i hlt => ?_⟩
  · have : r.flushed.intake = r.intake := hintake
    rw [this]
    exact (Nat.mod_eq_of_lt hin).symm
  · rw [flushed_slot_view h hlt]
    refine ⟨fun hv => ?_, fun ⟨k, hk, _⟩ => absurd hk (Nat.not_lt_zero k)⟩
    split at hv
    · cases hv
    · contradiction

end RingOk

end Sys2Proof.Supervision

namespace Sys2Proof.Supervision

open Sys2Proof Sys2Proof.Machine Sys2Proof.Laws Sys2Proof.TapePath

/-! ## The laws of the plan, by what they read -/

/-- What the laws of the plan read of the intake, the engine, the grant unit and the supervisor. -/
structure PlanView where
  ring : RingId → Machine.Ring
  fetch : Option (RingId × Nat)
  cur : Option (RingId × Nat)
  granted : Bool
  ts : TState
  up : Bool
  claim : Bool

/-- What they read of the path. -/
structure PathView where
  fetching : Bool
  host : Option HostPort
  port : Option Machine.Cycle
  next : Option HostCyc

def planView (c : Chip) : PlanView :=
  { ring := c.pln.ring
    fetch := c.pln.fetch.map fun h => (h.ring, h.slot)
    cur := c.eng.cur.map fun g => (g.ring, g.slot)
    granted := c.gnt.active.isSome
    ts := c.sup.ts
    up := c.sup.up
    claim := c.sup.claimPending }

def pathView (c : Chip) : PathView := ⟨c.pln.fetch.isSome, c.bus.host, c.bus.port, c.bus.next⟩

/-- Nothing of a plan stands: no slot queued, no segment current, no grant (R22). -/
structure PlanView.Bare (v : PlanView) : Prop where
  queued : ∀ id, (v.ring id).queued = 0
  cur : v.cur = none
  granted : v.granted = false

/-- The laws of the plan rings and what they hang together with (R18, R22, R52, R92, R93, R95, R104, R136). -/
structure PlanView.Ok (v : PlanView) : Prop where
  rings : ∀ id, (v.ring id).Ok id.size
  slot : ∀ id i, v.cur = some (id, i) → i < id.size
  current : ∀ id i, i < id.size → (((v.ring id).slot i).view = .current ↔ v.cur = some (id, i))
  fetch : ∀ id i, v.fetch = some (id, i) → i = (v.ring id).intake ∧ ((v.ring id).slot i).view = .host
  idle : ¬ v.ts.carriesPlan → v.Bare
  stopping : v.ts = .stopping → v.cur = none
  down : v.up = false → v.ts = .unthreaded
  claim : v.claim = true → v.ts = .catching ∨ v.ts = .tripped

/-- The laws of the host port and the memory port (R95, R158; log 36). -/
structure PathView.Ok (p : PathView) : Prop where
  fetch : p.fetching = true → ∃ x, p.host = some x ∧ x.phase = .screening
  port : ∀ a w d b y, p.port = some (.host a w d b y) → ∃ x, p.host = some x ∧ x.phase = .inPort
  next : p.next ≠ none → p.host ≠ none

theorem size_eq (id : RingId) : Machine.RingId.size id = id.size := by cases id <;> rfl

/-- The plan laws of a state are those of the two views. -/
theorem planOk_iff (s : State) : PlanOk s ↔ (planView s.chip).Ok ∧ (pathView s.chip).Ok := by
  have hcur (id : RingId) (i : Nat) : (planView s.chip).cur = some (id, i) ↔
      ∃ g, s.chip.eng.cur = some g ∧ g.ring = id ∧ g.slot = i := by simp [planView]
  have hfetch (id : RingId) (i : Nat) : (planView s.chip).fetch = some (id, i) ↔
      ∃ h, s.chip.pln.fetch = some h ∧ h.ring = id ∧ h.slot = i := by simp [planView]
  constructor
  · intro h
    refine ⟨⟨fun id => ?_, fun id i hv => ?_, fun id i hi => ?_, fun id i hv => ?_, fun hts => ?_, fun hts => ?_,
      h.down, h.claim⟩, fun hf => ?_, h.port, h.next⟩
    · cases id
      · exact h.urgent
      · exact h.main
    · obtain ⟨g, hg, rfl, rfl⟩ := (hcur id i).mp hv
      exact h.slot g hg
    · exact (h.current id i (by rwa [size_eq])).trans (hcur id i).symm
    · obtain ⟨x, hx, rfl, rfl⟩ := (hfetch id i).mp hv
      exact (h.fetch x hx).2
    · obtain ⟨hu, hm, hc, ha⟩ := h.idle hts
      exact ⟨fun id => by cases id <;> assumption, by simp [planView, hc], by simp [planView, ha]⟩
    · simp [planView, h.stopping hts]
    · obtain ⟨x, hx⟩ := Option.isSome_iff_exists.mp hf
      exact (h.fetch x hx).1
  · rintro ⟨h, k⟩
    refine ⟨h.rings .urgent, h.rings .main, fun g hg => ?_, fun id i hi => ?_, fun hts => ?_, fun hts => ?_, h.down,
      h.claim, fun x hx => ?_, k.port, k.next⟩
    · exact h.slot _ _ ((hcur _ _).mpr ⟨g, hg, rfl, rfl⟩)
    · exact (h.current id i (by rwa [← size_eq])).trans (hcur id i)
    · have hb := h.idle hts
      exact ⟨hb.queued .urgent, hb.queued .main, by simpa [planView] using hb.cur, by simpa [planView] using hb.granted⟩
    · simpa [planView] using h.stopping hts
    · exact ⟨k.fetch (by simp [pathView, hx]), h.fetch _ _ ((hfetch _ _).mpr ⟨x, hx, rfl, rfl⟩)⟩

/-! ## The laws through the operations of the supervisor and the engine -/

/-- The laws of the plan hold of a part whose path stands as given. Within a command the supervisor, the grant unit, the
intake and the engine keep them; the path is changed by the host's own commands and the arbiter. -/
structure Laid (p : PathView) (c : Chip) : Prop where
  ok : (planView c).Ok
  path : pathView c = p

/-- Two parts that the laws of the plan do not tell apart. -/
structure Alike (c d : Chip) : Prop where
  plan : planView d = planView c
  path : pathView d = pathView c

theorem Alike.refl (c : Chip) : Alike c c := ⟨rfl, rfl⟩

theorem Alike.trans {a b c : Chip} (h : Alike a b) (k : Alike b c) : Alike a c :=
  ⟨k.plan.trans h.plan, k.path.trans h.path⟩

theorem Laid.alike {p : PathView} {c d : Chip} (h : Laid p c) (k : Alike c d) : Laid p d :=
  ⟨k.plan ▸ h.ok, k.path.trans h.path⟩

/-- Parts that agree in the blocks the laws read. -/
theorem alike_of {c d : Chip} (hp : d.pln = c.pln) (he : d.eng = c.eng) (hg : d.gnt.active = c.gnt.active)
    (hs : d.sup.ts = c.sup.ts ∧ d.sup.up = c.sup.up ∧ d.sup.claimPending = c.sup.claimPending)
    (hb : d.bus.host = c.bus.host ∧ d.bus.port = c.bus.port ∧ d.bus.next = c.bus.next) : Alike c d := by
  obtain ⟨h₁, h₂, h₃⟩ := hs
  obtain ⟨k₁, k₂, k₃⟩ := hb
  constructor
  · simp only [planView, hp, he, hg, h₁, h₂, h₃]
  · simp only [pathView, hp, k₁, k₂, k₃]

variable {p : PathView} {c : Chip}

theorem Laid.up (h : Laid p c) (ht : c.sup.ts ≠ .unthreaded) : c.sup.up = true := by
  by_contra hu
  exact ht (h.ok.down (Bool.eq_false_iff.mpr hu))

/-- With a state that carries a plan no judgement of a claim is outstanding. -/
theorem Laid.noClaim (h : Laid p c) (ht : c.sup.ts ≠ .catching ∧ c.sup.ts ≠ .tripped) : c.sup.claimPending = false := by
  by_contra hc
  exact (h.ok.claim (Bool.not_eq_false _ ▸ hc)).elim ht.1 ht.2

theorem Laid.bare (h : Laid p c) (ht : ¬ c.sup.ts.carriesPlan) :
    (∀ id, (c.pln.ring id).queued = 0) ∧ c.eng.cur = none ∧ c.gnt.active = none := by
  obtain ⟨hq, hc, hg⟩ := h.ok.idle ht
  exact ⟨hq, by simpa [planView] using hc, by simpa [planView] using hg⟩

/-! ### The grant unit -/

theorem alike_postEvent (k : EventKind) (d t : Nat) (v : Int) (c : Chip) : Alike c (postEvent k d t v c) :=
  alike_of (by simp) (by simp) (by simp) (by simp) (by simp)

theorem alike_postNotice (k : Notice) (c : Chip) : Alike c (postNotice k c) :=
  alike_of (by simp) (by simp) (by simp) (by simp) (by simp)

theorem alike_postWrite (k : Poster) (w : PartWrite) (c : Chip) : Alike c (postWrite k w c) := by
  unfold postWrite
  split
  · exact ⟨rfl, rfl⟩
  · cases k <;> exact ⟨rfl, rfl⟩

theorem reclampTrim_path (c : Chip) : pathView (reclampTrim c) = pathView c := by
  simp only [reclampTrim]
  split
  · rfl
  · exact (alike_postNotice ..).path.trans ((alike_postEvent ..).path.trans (alike_postWrite ..).path)

theorem setGrant_path (a : Option Granted) (f : List Granted) (c : Chip) : pathView (setGrant a f c) = pathView c :=
  reclampTrim_path _

theorem setGrant_active (a : Option Granted) (f : List Granted) (c : Chip) : (setGrant a f c).gnt.active = a := by
  obtain ⟨v, w, h⟩ := setGrant_gnt a f c
  rw [h]

/-- A grant is made or replaced where a plan may stand, and dropped anywhere. -/
theorem laid_setGrant (h : Laid p c) (a : Option Granted) (f : List Granted)
    (ha : a = none ∨ c.sup.ts.carriesPlan) : Laid p (setGrant a f c) := by
  have hview : planView (setGrant a f c) = { planView c with granted := a.isSome } := by
    simp [planView, setGrant_active]
  refine ⟨?_, (setGrant_path a f c).trans h.path⟩
  rw [hview]
  obtain ⟨hr, hs, hc, hf, hi, hst, hd, hcl⟩ := h.ok
  refine ⟨hr, hs, hc, hf, fun hts => ?_, hst, hd, hcl⟩
  rcases ha with rfl | ha
  · exact ⟨(hi hts).queued, (hi hts).cur, rfl⟩
  · exact absurd ha hts

theorem laid_postEvent (h : Laid p c) (k : EventKind) (d t : Nat) (v : Int) : Laid p (postEvent k d t v c) :=
  h.alike (alike_postEvent ..)

theorem laid_postNotice (h : Laid p c) (k : Notice) : Laid p (postNotice k c) := h.alike (alike_postNotice ..)

theorem laid_dropActive (h : Laid p c) (v : Int) : Laid p (dropActive v c) := by
  unfold dropActive
  split
  · exact laid_setGrant (laid_postEvent h ..) _ _ (.inl rfl)
  · exact h

theorem alike_cancelPending (v : Int) (c : Chip) : Alike c (cancelPending v c) :=
  alike_of (by simp) (by simp) (by simp [cancelPending_gnt]) (by simp) (by simp)

theorem laid_evaluateRequest (h : Laid p c) (ht : c.sup.ts = .held) (l : List Choice) :
    Laid p (evaluateRequest l c) := by
  unfold evaluateRequest
  split
  · exact laid_setGrant h _ _ (.inr (.inl ht))
  · exact h

/-- The pending request's own removal, which the laws do not see. -/
theorem alike_onGnt {f : GrantUnit → GrantUnit} (c : Chip) (hf : (f c.gnt).active = c.gnt.active) : Alike c (onGnt f c) :=
  alike_of rfl rfl hf ⟨rfl, rfl, rfl⟩ ⟨rfl, rfl, rfl⟩

theorem laid_resolvePending (h : Laid p c) (ht : c.sup.ts = .held) : Laid p (resolvePending c) := by
  unfold resolvePending
  split
  · exact h
  · have hreq := h.alike (alike_onGnt (f := fun g => { g with request := none }) c rfl)
    refine laid_evaluateRequest (laid_postNotice ?_ _) ?_ _
    · split
      · exact laid_postEvent hreq ..
      · exact laid_postEvent hreq ..
    · split <;> simpa using ht

/-! ### A change of the transport state -/

theorem enterGrant_path (n : TState) (c : Chip) : pathView (enterGrant n c) = pathView c := by
  have hd : pathView (dropActive droppedState c) = pathView c := by
    unfold dropActive
    split
    · exact (setGrant_path ..).trans (alike_postEvent ..).path
    · rfl
  simp only [enterGrant]
  split
  · refine (alike_cancelPending ..).path.trans ?_
    split
    · exact hd
    · rfl
  · split
    · exact hd
    · rfl

/-- What an entry may find: a supervisor that runs, no segment current but where it may go on, nothing queued and no grant
where a plan may not stand, and no claim outstanding but in CATCHING and TRIPPED. -/
structure Enters (n : TState) (c : Chip) : Prop where
  up : c.sup.up = true
  claim : c.sup.claimPending = true → n = .catching ∨ n = .tripped
  cur : n ≠ .held → n ≠ .moving → c.eng.cur = none
  queued : ¬ n.carriesPlan → ∀ id, (c.pln.ring id).queued = 0
  granted : n = .tensioning ∨ n = .catching → c.gnt.active = none

/-- The part within an entry, before a pending request is resolved. -/
theorem enter_eq (n : TState) (c : Chip) : ∃ d, enter n c = (if n = .held then resolvePending d else d) ∧
    d.sup.ts = n ∧ d.sup.up = c.sup.up ∧ d.sup.claimPending = c.sup.claimPending ∧ d.pln = c.pln ∧
    d.eng = (if n.dropsGrant then Engine.reset else c.eng) ∧ d.gnt.active = (enterGrant n c).gnt.active ∧
    pathView d = pathView c := by
  refine ⟨_, rfl, ?_⟩
  have hbus (x y : Chip) (hp : y.pln = x.pln) (hb : y.bus = x.bus) : pathView y = pathView x := by
    simp only [pathView, hp, hb]
  refine ⟨?_, ?_, ?_, ?_, ?_, ?_, ?_⟩
  iterate 3
    cases n <;> simp [TState.dropsGrant, Supervisor.entered, unthread]
  · cases n <;> simp [TState.dropsGrant]
  · cases n <;> simp [TState.dropsGrant, idleEngine]
  · cases n <;> simp [TState.dropsGrant, unthread]
  · refine Eq.trans ?_ (enterGrant_path n c)
    cases n <;> exact hbus _ _ (by simp [TState.dropsGrant]) (by simp [TState.dropsGrant])

theorem laid_enter {n : TState} (h : Laid p c) (hn : Enters n c) : Laid p (enter n c) := by
  obtain ⟨d, he, hts, hup, hclaim, hpln, heng, hact, hpath⟩ := enter_eq n c
  have hd : Laid p d := by
    refine ⟨?_, hpath.trans h.path⟩
    obtain ⟨hr, hs, hc, hf, hi, hst, hdn, hcl⟩ := h.ok
    have hcur : (planView d).cur = (planView c).cur := by
      simp only [planView, heng]
      split
      next hdrop => 
        rw [hn.cur (by rintro rfl; cases hdrop) (by rintro rfl; cases hdrop)]
        rfl
      · rfl
    have hring : (planView d).ring = (planView c).ring := by simp only [planView, hpln]
    have hfetch : (planView d).fetch = (planView c).fetch := by simp only [planView, hpln]
    have hact' : ¬ n.carriesPlan → d.gnt.active = none := by
      intro hnp
      rw [hact]
      by_cases hdrop : n.dropsGrant
      · have ha := (dropActive_gnt droppedState c).1
        simp only [enterGrant, hdrop, if_true]
        split
        · rwa [cancelPending_gnt]
        · exact ha
      · simp only [enterGrant, hdrop, Bool.false_eq_true, false_and, if_false]
        refine hn.granted ?_
        cases n <;> simp [TState.dropsGrant, TState.carriesPlan] at hdrop hnp ⊢
    have hcurNone : n ≠ .held → n ≠ .moving → (planView d).cur = none := fun h₁ h₂ => by
      rw [hcur]
      simp [planView, hn.cur h₁ h₂]
    refine ⟨by rwa [hring], by rwa [hcur], by rwa [hcur, hring], by rwa [hring, hfetch], fun hnp => ?_, fun hts' => ?_,
      fun hu => ?_, fun hcp => ?_⟩
    · have hnp' : ¬ n.carriesPlan := hts ▸ hnp
      refine ⟨?_, hcurNone (fun e => hnp' (.inl e)) (fun e => hnp' (.inr (.inl e))), ?_⟩
      · rw [hring]
        exact hn.queued hnp'
      · simp [planView, hact' hnp']
    · have hs' : n = .stopping := hts.symm.trans hts'
      exact hcurNone (by rw [hs']; decide) (by rw [hs']; decide)
    · have hu' : d.sup.up = false := hu
      rw [hup, hn.up] at hu'
      cases hu'
    · have hcp' : c.sup.claimPending = true := hclaim.symm.trans hcp
      rcases hn.claim hcp' with e | e
      · exact .inl (hts.trans e)
      · exact .inr (hts.trans e)
  rw [he]
  split
  next hheld => exact laid_resolvePending hd (hts.trans hheld)
  next => exact hd

/-- From a state that carries no plan any other may be entered, once the supervisor runs and no claim is outstanding. -/
theorem enters_of_bare {n : TState} (h : Laid p c) (ht : ¬ c.sup.ts.carriesPlan) (hu : c.sup.up = true)
    (hc : c.sup.claimPending = true → n = .catching ∨ n = .tripped) : Enters n c := by
  obtain ⟨hq, hcur, hact⟩ := h.bare ht
  exact ⟨hu, hc, fun _ _ => hcur, fun _ => hq, fun _ => hact⟩

end Sys2Proof.Supervision

namespace Sys2Proof.Supervision

open Sys2Proof Sys2Proof.Machine Sys2Proof.Laws Sys2Proof.TapePath

variable {p : PathView} {c : Chip}

/-! ### Changes of one block that the laws do not see -/

theorem laid_onDrive (h : Laid p c) (f : Drive → Drive) : Laid p (onDrive f c) := ⟨h.ok, h.path⟩

theorem laid_onTrk (h : Laid p c) (f : Tracker → Tracker) : Laid p (onTrk f c) := ⟨h.ok, h.path⟩

theorem laid_onMbx (h : Laid p c) (f : Mailbox → Mailbox) : Laid p (onMbx f c) := ⟨h.ok, h.path⟩

theorem laid_onSet (h : Laid p c) (f : Store → Store) : Laid p (onSet f c) := ⟨h.ok, h.path⟩

theorem laid_onMon (h : Laid p c) (f : Monitor → Monitor) : Laid p (onMon f c) := ⟨h.ok, h.path⟩

theorem laid_free (h : Laid p c) (n : Nat) : Laid p { c with free := n } := ⟨h.ok, h.path⟩

theorem laid_pins (h : Laid p c) (x : Pins) : Laid p { c with pins := x } := ⟨h.ok, h.path⟩

theorem laid_onSup (h : Laid p c) {f : Supervisor → Supervisor}
    (hf : (f c.sup).ts = c.sup.ts ∧ (f c.sup).up = c.sup.up ∧ (f c.sup).claimPending = c.sup.claimPending) :
    Laid p (onSup f c) :=
  h.alike (alike_of rfl rfl rfl hf ⟨rfl, rfl, rfl⟩)

/-- A change of the engine that leaves the place its segment was taken from. -/
theorem laid_onEng (h : Laid p c) {f : Engine → Engine} (hf : (f c.eng).cur.map (fun g => (g.ring, g.slot)) =
    c.eng.cur.map fun g => (g.ring, g.slot)) : Laid p (onEng f c) := by
  refine h.alike ⟨?_, rfl⟩
  simp only [planView, onEng_eng, onEng_pln, onEng_gnt, onEng_sup, hf]

theorem laid_onSeg (h : Laid p c) {f : Seg → Seg} (hf : ∀ g, (f g).ring = g.ring ∧ (f g).slot = g.slot) :
    Laid p (onSeg f c) := by
  refine laid_onEng h ?_
  simp [Option.map_map, Function.comp_def, hf]

theorem laid_postTrackerEvent (h : Laid p c) (k : EventKind) (d : Nat) : Laid p (postTrackerEvent k d c) := by
  refine h.alike (alike_of ?_ ?_ ?_ ?_ ?_) <;> simp

theorem laid_setLatch (h : Laid p c) : Laid p (setLatch c) := by
  unfold setLatch
  split
  · exact h
  · exact laid_postNotice (laid_onSup (f := fun s => { s with latch := true }) h ⟨rfl, rfl, rfl⟩) _

theorem laid_postWrites (h : Laid p c) (k : Poster) (ws : List PartWrite) : Laid p (postWrites k ws c) := by
  induction ws generalizing c with
  | nil => exact h
  | cons w ws ih => exact ih (h.alike (alike_postWrite k w c))

/-! ### Returns and takes -/

/-- A ring some of whose queued slots have gone back to the host. -/
structure Freed (n : Nat) (r x : Machine.Ring) : Prop where
  ok : x.Ok n
  current : ∀ i, i < n → ((x.slot i).view = .current ↔ (r.slot i).view = .current)
  host : ∀ i, i < n → (r.slot i).view = .host → (x.slot i).view = .host
  intake : x.intake = r.intake
  queued : r.queued = 0 → x.queued = 0

theorem flushed_freed {r : Machine.Ring} {n : Nat} (h : r.Ok n) : Freed n r r.flushed where
  ok := flushed_ok h
  current i hi := by
    rw [flushed_slot_view h hi]
    split
    next hq => simp [hq]
    · rfl
  host i hi hv := by rw [flushed_slot_view h hi, hv]; rfl
  intake := (ring_free r.queuedSlots r).2.1
  queued _ := rfl

theorem intake_lt {r : Machine.Ring} {n : Nat} (h : r.Ok n) : r.intake < n := by
  rw [h.intake]
  exact Nat.mod_lt _ (Nat.zero_lt_of_lt h.take)

/-- The intake with a ring replaced, as the laws read it. -/
theorem ring_withRing (x : Plan) (id : RingId) (r : Machine.Ring) : (x.withRing id r).ring = Function.update x.ring id r := by
  funext j
  cases id <;> cases j <;> rfl

theorem withRing_fetch (x : Plan) (id : RingId) (r : Machine.Ring) : (x.withRing id r).fetch = x.fetch := by
  cases id <;> rfl

theorem withRing_list_ring (x : Plan) (id : RingId) (r : Machine.Ring) (l : List SlotWrite) :
    ({ x.withRing id r with list := l } : Plan).ring = Function.update x.ring id r :=
  (rfl : _ = (x.withRing id r).ring).trans (ring_withRing x id r)

/-- A ring replaced, with the list of slot writes. -/
theorem planView_withRing (c : Chip) (id : RingId) (r : Machine.Ring) (l : List SlotWrite) :
    planView { c with pln := { c.pln.withRing id r with list := l } } =
      { planView c with ring := Function.update (planView c).ring id r } := by
  rw [planView, PlanView.mk.injEq]
  exact ⟨withRing_list_ring .., congrArg (Option.map _) (withRing_fetch ..), rfl, rfl, rfl, rfl, rfl⟩

theorem pathView_withRing (c : Chip) (id : RingId) (r : Machine.Ring) (l : List SlotWrite) :
    pathView { c with pln := { c.pln.withRing id r with list := l } } = pathView c := by
  rw [pathView, PathView.mk.injEq]
  exact ⟨congrArg Option.isSome (withRing_fetch ..), rfl, rfl, rfl⟩

section Views

variable {v : PlanView} {id : RingId}

theorem PlanView.Ok.freed (h : v.Ok) {x : Machine.Ring} (hx : Freed id.size (v.ring id) x) :
    PlanView.Ok { v with ring := Function.update v.ring id x } := by
  obtain ⟨hr, hs, hc, hf, hi, hst, hd, hcl⟩ := h
  refine ⟨fun j => ?_, hs, fun j i hj => ?_, fun j i hv => ?_, fun hts => ⟨fun j => ?_, (hi hts).cur, (hi hts).granted⟩,
    hst, hd, hcl⟩ <;> obtain rfl | hne := eq_or_ne j id
  · simpa using hx.ok
  · simpa [hne] using hr j
  · simpa using (hx.current i hj).trans (hc j i hj)
  · simpa [hne] using hc j i hj
  · obtain ⟨rfl, hhost⟩ := hf j i hv
    simpa [hx.intake] using hx.host _ (intake_lt (hr j)) hhost
  · simpa [hne] using hf j i hv
  · simpa using hx.queued ((hi hts).queued j)
  · simpa [hne] using (hi hts).queued j

/-- The current segment gone, its slot back with the host. -/
theorem PlanView.Ok.ended (h : v.Ok) {i : Nat} (hv : v.cur = some (id, i)) :
    PlanView.Ok { v with ring := Function.update v.ring id ((v.ring id).withSlot i ⟨.host, none⟩), cur := none } := by
  obtain ⟨hr, hs, hc, hf, hi, hst, hd, hcl⟩ := h
  have hin := hs id i hv
  have hcur : ((v.ring id).slot i).view = .current := (hc id i hin).mpr hv
  have hlen : i < (v.ring id).slots.length := (hr id).size.symm ▸ hin
  refine ⟨fun j => ?_, nofun, fun j k hk => ?_, fun j k hv' => ?_, fun hts => ⟨fun j => ?_, rfl, (hi hts).granted⟩,
    fun _ => rfl, hd, hcl⟩ <;> obtain rfl | hne := eq_or_ne j id
  · simpa using withSlot_host_ok (hr j) (by rw [hcur]; decide)
  · simpa [hne] using hr j
  · have hk' := hc j k hk
    simp only [Function.update_self, slot_withSlot]
    split
    · simp
    next hki =>
      rw [hk', hv]
      simpa [hlen, eq_comm] using hki
  · have hk' := hc j k hk
    rw [hv] at hk'
    simpa [hne, hne.symm] using hk'
  · obtain ⟨rfl, hhost⟩ := hf j k hv'
    simp only [Function.update_self, slot_withSlot]
    refine ⟨rfl, ?_⟩
    split
    · rfl
    · exact hhost
  · simpa [hne] using hf j k hv'
  · simpa [Ring.withSlot] using (hi hts).queued j
  · simpa [hne] using (hi hts).queued j

/-- The oldest queued slot become current (R93, R104). -/
theorem PlanView.Ok.taken (h : v.Ok) (hv : v.cur = none) (hq : (v.ring id).queued ≠ 0) (hts : v.ts = .held ∨ v.ts = .moving) :
    PlanView.Ok { v with ring := Function.update v.ring id (v.ring id).taken, cur := some (id, (v.ring id).take) } := by
  obtain ⟨hr, hs, hc, hf, hi, hst, hd, hcl⟩ := h
  have hlen : (v.ring id).take < (v.ring id).slots.length := (hr id).size.symm ▸ (hr id).take
  have hview := take_queued (hr id) hq
  have hslot (k : Nat) : ((v.ring id).taken).slot k = if k = (v.ring id).take then
      ⟨.current, ((v.ring id).slot (v.ring id).take).record⟩ else (v.ring id).slot k := by
    have hw := slot_withSlot (v.ring id) (v.ring id).take k ⟨.current, ((v.ring id).slot (v.ring id).take).record⟩
    simp only [hlen, and_true] at hw
    exact hw
  refine ⟨fun j => ?_, fun j i he => ?_, fun j k hk => ?_, fun j k hv' => ?_, fun hnot => ?_, fun he => ?_, hd, hcl⟩
  · obtain rfl | hne := eq_or_ne j id
    · simpa using taken_ok (hr j) hq
    · simpa [hne] using hr j
  · obtain ⟨rfl, rfl⟩ : id = j ∧ (v.ring id).take = i := by simpa using he
    exact (hr id).take
  · have hk' := hc j k hk
    rw [hv] at hk'
    obtain rfl | hne := eq_or_ne j id
    · simp only [Function.update_self, hslot]
      split
      next e => simp [e]
      next e => simpa [eq_comm, e] using hk'
    · simpa [hne, hne.symm] using hk'
  · obtain ⟨rfl, hhost⟩ := hf j k hv'
    obtain rfl | hne := eq_or_ne j id
    · have hne : (v.ring j).intake ≠ (v.ring j).take := by
        intro e
        rw [e, hview] at hhost
        cases hhost
      simp only [Function.update_self, hslot, if_neg hne]
      exact ⟨rfl, hhost⟩
    · simpa [hne] using hhost
  · exact absurd (hts.elim .inl fun e => .inr (.inl e)) hnot
  · have he' : v.ts = .stopping := he
    rw [he'] at hts
    exact absurd hts (by decide)

end Views

theorem laid_of_view {v : PlanView} {d : Chip} (hv : v.Ok) (hd : planView d = v) (hp : pathView d = p) : Laid p d :=
  ⟨hd ▸ hv, hp⟩

theorem laid_flushRing (h : Laid p c) (id : RingId) (st : Status) : Laid p (flushRing id st c) :=
  laid_of_view (h.ok.freed (flushed_freed (h.ok.rings id))) (planView_withRing ..) ((pathView_withRing ..).trans h.path)

theorem laid_flushBoth (h : Laid p c) (st : Status) : Laid p (flushBoth st c) := laid_flushRing (laid_flushRing h ..) ..

theorem flushBoth_ring_queued (st : Status) (c : Chip) (id : RingId) : ((flushBoth st c).pln.ring id).queued = 0 := by
  cases id
  · exact (flushBoth_queued ..).1
  · exact (flushBoth_queued ..).2

theorem endCur_cur (st : Status) (c : Chip) : (endCur st c).eng.cur = none := by
  unfold endCur
  split
  next hc => exact hc
  next => dsimp only; split <;> simp

theorem laid_endCur (h : Laid p c) (st : Status) : Laid p (endCur st c) := by
  unfold endCur
  split
  next => exact h
  next g hg =>
    have hcur : (planView c).cur = some (g.ring, g.slot) := by simp [planView, hg]
    have hview := congrArg (fun v : PlanView => { v with cur := none }) (planView_withRing c g.ring
      ((c.pln.ring g.ring).withSlot g.slot ⟨.host, none⟩)
      (c.pln.list ++ [SlotWrite.ret g.ring g.slot st c.trk.position c.clock]))
    have hend : Laid p (onEng (fun e => { e with cur := none }) (onPln (fun p =>
        { p.withRing g.ring ((p.ring g.ring).withSlot g.slot ⟨.host, none⟩) with
          list := p.list ++ [SlotWrite.ret g.ring g.slot st c.trk.position c.clock] }) c)) :=
      laid_of_view (h.ok.ended hcur) hview ((pathView_withRing ..).trans h.path)
    dsimp only
    split
    · exact laid_postNotice (laid_postEvent hend ..) _
    · exact hend

theorem laid_idleEngine (h : Laid p c) (hc : c.eng.cur = none) : Laid p (idleEngine c) :=
  laid_onEng h (by simp [hc, Engine.reset])

theorem endTaken_cur (st : Status) (c : Chip) : (endTaken st c).eng.cur = none := by
  unfold endTaken
  split
  · rfl
  next hc => exact hc

theorem laid_endTaken (h : Laid p c) (st : Status) : Laid p (endTaken st c) := by
  unfold endTaken
  split
  · exact laid_idleEngine (laid_endCur h st) (endCur_cur ..)
  · exact h

theorem laid_latchAndFlush (h : Laid p c) (k : StopCause) : Laid p (latchAndFlush k c) := by
  unfold latchAndFlush
  split
  · exact laid_flushBoth (laid_setLatch h) _
  · exact h

theorem laid_returnPlan (h : Laid p c) : Laid p (returnPlan c) := laid_flushBoth (laid_endTaken h _) _

/-! ### Trips and controlled stops -/

theorem laid_claimCarry (h : Laid p c) : Laid p (claimCarry c) := by
  unfold claimCarry
  split
  · exact laid_postEvent (laid_onDrive h _) ..
  · exact laid_onDrive h _

theorem laid_losePosition (h : Laid p c) (d : Nat) : Laid p (losePosition d c) := by
  unfold losePosition
  split
  · exact laid_postTrackerEvent (laid_onTrk h _) ..
  · exact h

theorem laid_tripPosition (h : Laid p c) (k : TripCause) : Laid p (tripPosition k c) := by
  unfold tripPosition
  split
  · refine laid_losePosition (laid_free ?_ _) _
    split
    · exact laid_endCur h _
    · exact h
  · exact laid_losePosition h _
  all_goals exact h

theorem laid_tripOutputs (h : Laid p c) (o : Bool) : Laid p (tripOutputs o c) := by
  have hreels : Laid p (tripReels o c) := by
    unfold tripReels
    split
    · exact laid_onDrive h _
    · exact laid_onDrive h _
  unfold tripOutputs orderLifters
  exact laid_onDrive (laid_onDrive hreels _) _

theorem carriesPlan_enters {n : TState} (h : Laid p c) (ht : c.sup.ts.carriesPlan) (hn : n.carriesPlan)
    (hc : n = .stopping → c.eng.cur = none) : Enters n c where
  up := h.up (by rintro e; simp [TState.carriesPlan, e] at ht)
  claim hcl := by
    rw [h.noClaim ?_] at hcl
    · cases hcl
    · rcases ht with e | e | e <;> simp [e]
  cur h₁ h₂ := hc ((hn.resolve_left h₁).resolve_left h₂)
  queued hnot := absurd hn hnot
  granted hg := by rcases hg with rfl | rfl <;> simp [TState.carriesPlan] at hn

theorem tripWord_stands (x : Supervisor) (k : TripCause) (i : Side) : (x.tripWord k i).ts = x.ts ∧
    (x.tripWord k i).up = x.up ∧ (x.tripWord k i).claimPending = x.claimPending := by
  unfold Supervisor.tripWord
  split <;> exact ⟨rfl, rfl, rfl⟩

theorem laid_tripNow (h : Laid p c) (hu : c.sup.up = true) (k : TripCause) (i : Side) : Laid p (tripNow k i c) := by
  have hclaim : Laid p (if c.sup.claimPending then claimCarry c else c) := by
    split
    · exact laid_claimCarry h
    · exact h
  have hout := laid_tripPosition (laid_tripOutputs (laid_onSup
    (f := fun s => { s with catchHold := false, brk := none, exc := none }) hclaim ⟨rfl, rfl, rfl⟩) c.drv.ownStop) k
  have hflush := laid_flushBoth (laid_endCur hout .faultFlushed) .faultFlushed
  have hidle := laid_onSup (f := (·.tripWord k i)) (laid_idleEngine hflush (by simp [endCur_cur]))
    (tripWord_stands ..)
  refine laid_enter (laid_postNotice (laid_postEvent hidle ..) _) ⟨?_, fun _ => .inr rfl, fun _ _ => ?_, fun _ j => ?_, nofun⟩
  · simp only [postNotice_sup, postEvent_sup, onSup_sup, (tripWord_stands ..).2.1, idleEngine_frame, flushBoth_frame, endCur_frame,
      tripPosition_frame, tripOutputs_frame]
    split <;> simp [hu]
  · simp [idleEngine, Engine.reset]
  · simpa using flushBoth_ring_queued ..

theorem laid_trip (h : Laid p c) (k : TripCause) (i : Side) : Laid p (trip k i c) := by
  unfold trip
  split
  case h_3 => exact laid_postEvent h ..
  case h_1 | h_2 => exact h
  all_goals
    next ht => exact laid_tripNow h (h.up (by rw [ht]; decide)) k i

theorem laid_tripStanding (h : Laid p c) : Laid p (tripStanding c) := by
  have hdrive {d : Chip} (hd : Laid p d) :
      Laid p (if d.pins.fltSupply || d.pins.fltTup then trip .driveFault (faultSide d.pins) d else d) := by
    split
    · exact laid_trip hd ..
    · exact hd
  refine hdrive ?_
  split
  · exact laid_trip h ..
  · exact h

theorem haltEntry_cur (c : Chip) : (haltEntry c).eng.cur = c.eng.cur := by
  unfold haltEntry
  split <;> rfl

theorem laid_haltEntry (h : Laid p c) : Laid p (haltEntry c) := by
  unfold haltEntry
  split
  · exact laid_onEng (laid_onDrive h _) rfl
  · exact laid_onEng (laid_onDrive h _) rfl

theorem latchAndFlush_supFrame (k : StopCause) (c : Chip) : (latchAndFlush k c).sup.ts = c.sup.ts ∧
    (latchAndFlush k c).sup.up = c.sup.up ∧ (latchAndFlush k c).sup.claimPending = c.sup.claimPending := by
  unfold latchAndFlush
  split
  · unfold setLatch
    split <;> simp
  · exact ⟨rfl, rfl, rfl⟩

theorem laid_stopMoving (h : Laid p c) (ht : c.sup.ts = .moving) (k : StopCause) : Laid p (stopMoving k c) := by
  have hend := laid_endCur (laid_onSup (f := fun s => { s with stop := k }) h ⟨rfl, rfl, rfl⟩) k.endStatus
  have hhalt := laid_haltEntry (laid_latchAndFlush (laid_onEng (f := (·.halted)) hend (by simp [endCur_cur, Engine.halted])) k)
  refine laid_enter (laid_postEvent hhalt ..) (carriesPlan_enters (laid_postEvent hhalt ..) (.inr (.inl ?_)) (.inr (.inr rfl))
    fun _ => ?_)
  · simp [(latchAndFlush_supFrame ..).1, ht]
  · simp [haltEntry_cur, Engine.halted]

theorem laid_stopCause (h : Laid p c) (k : StopCause) : Laid p (stopCause k c) := by
  have hstop := laid_onSup (f := fun s => { s with stop := k }) h ⟨rfl, rfl, rfl⟩
  unfold stopCause
  split
  next ht => exact laid_stopMoving h ht k
  next => exact laid_postEvent (laid_latchAndFlush h k) ..
  next =>
    refine laid_postEvent (laid_latchAndFlush ?_ k) ..
    split
    · exact laid_endTaken hstop _
    · exact hstop
  all_goals exact laid_postEvent (laid_latchAndFlush hstop k) ..

end Sys2Proof.Supervision

namespace Sys2Proof.Supervision

open Sys2Proof Sys2Proof.Machine Sys2Proof.Laws Sys2Proof.TapePath

variable {p : PathView} {c : Chip}

/-! ### The phases of a segment -/

theorem laid_toPhase (h : Laid p c) (ph : Phase) : Laid p (toPhase ph c) := laid_onSeg h fun _ => ⟨rfl, rfl⟩

theorem laid_markClipped (h : Laid p c) : Laid p (markClipped c) := laid_onSeg h fun _ => ⟨rfl, rfl⟩

theorem laid_startTimer (h : Laid p c) : Laid p (startTimer c) := laid_onSeg h fun _ => ⟨rfl, rfl⟩

theorem laid_aim (h : Laid p c) : Laid p (aim c) := laid_onSeg h fun _ => ⟨rfl, rfl⟩

theorem laid_orderCapstanRun (h : Laid p c) (v : Int) : Laid p (orderCapstanRun v c).1 := by
  unfold orderCapstanRun
  split
  · exact laid_onDrive h (·.capstanRun v)
  · exact h

theorem laid_leadInEnds (h : Laid p c) : Laid p (leadInEnds c).1 := by
  have hrun := laid_orderCapstanRun h c.eng.ref
  unfold leadInEnds
  dsimp only
  split
  · exact laid_toPhase (laid_onDrive hrun _) _
  · exact hrun

theorem laid_judgeLocate (h : Laid p c) (r : Option Dir) : Laid p (judgeLocate r c) := by
  unfold judgeLocate
  split
  · split
    · split
      · exact laid_toPhase h _
      · split
        · exact laid_toPhase h _
        · exact h
    · split
      · exact laid_toPhase h _
      · exact h
    · exact h
  · exact h

theorem laid_judgeSpeed (h : Laid p c) (b : Bool) (g : Seg) : Laid p (judgeSpeed b c g).1 := by
  unfold judgeSpeed
  split
  · dsimp only
    split
    · exact laid_onDrive h _
    · exact h
  · split
    case h_1 =>
      split
      · exact h
      · split
        · exact laid_startTimer h
        · exact h
    case h_2 =>
      split
      · exact laid_leadInEnds h
      · exact h
    case h_3 =>
      split
      · exact laid_startTimer (laid_toPhase h _)
      · exact h
    case h_6 | h_7 =>
      dsimp only
      split
      · exact laid_judgeLocate h _
      · exact h
    all_goals exact h

theorem laid_begin (h : Laid p c) : Laid p (begin c).1 := by
  unfold begin
  split
  · exact h
  · have hmark (ph : Phase) := laid_markClipped (laid_toPhase (laid_aim h) ph)
    dsimp only
    split
    · exact laid_judgeSpeed (hmark _) ..
    · exact hmark _

theorem laid_playEnds (h : Laid p c) (st : Status) : Laid p (playEnds st c).1 := by
  unfold playEnds
  exact laid_onDrive (laid_onSeg (f := fun s => { s with phase := .pinchOut, endStatus := some st }) h
    fun _ => ⟨rfl, rfl⟩) (·.capstanOff c.pinchFull)

theorem laid_openEnds (h : Laid p c) (g : Seg) : Laid p (openEnds g c).1 := by
  unfold openEnds
  split
  · split
    · exact h
    · exact laid_playEnds h _
  · exact h

/-! ### Takes -/

theorem laid_judgeTake (h : Laid p c) (g : Seg) : Laid p (judgeTake g c).1 := by
  unfold judgeTake
  dsimp only
  split
  · exact h
  · have hmark := laid_markClipped h
    split
    · exact h
    · split
      · exact hmark
      · split
        · exact hmark
        · split
          · exact laid_openEnds hmark _
          · split
            · exact hmark
            · exact laid_begin hmark

theorem flushRing_onEng (id : RingId) (st : Status) (f : Engine → Engine) (c : Chip) :
    onEng f (flushRing id st c) = flushRing id st (onEng f c) := rfl

/-- The take itself: the oldest slot queued in the ring becomes the engine's current segment. -/
theorem laid_took (h : Laid p c) {g : Seg} (hc : c.eng.cur = none) (hq : (c.pln.ring g.ring).queued ≠ 0)
    (ht : c.sup.ts = .held ∨ c.sup.ts = .moving) (hg : g.slot = (c.pln.ring g.ring).take) (rec : Record) (held : Bool) :
    Laid p (onEng (·.took g held) (takeSlot g.ring rec c)) := by
  have hcur : (planView c).cur = none := by simp [planView, hc]
  have hok := h.ok.taken hcur hq ht
  rw [show ((planView c).ring g.ring).take = g.slot from hg.symm] at hok
  have hview := congrArg (fun v : PlanView => { v with cur := some (g.ring, g.slot) }) (planView_withRing c g.ring
    (c.pln.ring g.ring).taken (c.pln.list ++ [SlotWrite.mark g.ring (c.pln.ring g.ring).take]))
  have hmark : Laid p (onEng (·.took g held) (onPln (fun p =>
      { p.withRing g.ring (p.ring g.ring).taken with
        list := p.list ++ [SlotWrite.mark g.ring (c.pln.ring g.ring).take] }) c)) :=
    laid_of_view hok hview ((pathView_withRing ..).trans h.path)
  unfold takeSlot
  dsimp only
  split
  · rw [flushRing_onEng]
    exact laid_flushRing hmark _ _
  · exact hmark

theorem laid_takeOne (h : Laid p c) {id : RingId} (hc : c.eng.cur = none) (hq : (c.pln.ring id).queued ≠ 0)
    (ht : c.sup.ts = .held ∨ c.sup.ts = .moving) : Laid p (takeOne id c).1 := by
  have htook (rec : Record) (g : Seg) (hr : g.ring = id) (hs : g.slot = (c.pln.ring id).take) :
      Laid p (onEng (·.took g (c.sup.ts == .held)) (takeSlot id rec c)) := by
    subst hr
    exact laid_took h hc hq ht hs rec _
  unfold takeOne
  dsimp only
  split
  · split
    · exact htook _ _ rfl rfl
    · exact laid_judgeTake (htook _ _ rfl rfl) _
  · exact laid_judgeTake (htook _ _ rfl rfl) _

/-! ### Completions and what follows them -/

theorem canTake_ts (h : canTake c = true) : c.sup.ts = .held ∨ c.sup.ts = .moving := by
  simp only [canTake, Bool.and_eq_true, Bool.or_eq_true, beq_iff_eq] at h
  exact h.1

theorem nextRing_queued {id : RingId} (h : nextRing c = some id) : (c.pln.ring id).queued ≠ 0 := by
  unfold nextRing at h
  split at h
  next hu => cases h; exact hu
  · split at h
    next hm => cases h; exact hm
    · cases h

theorem laid_finishRun (h : Laid p c) : Laid p (finishRun c) := by
  have hidle := laid_onEng (f := fun e => { e with est := .idle, held := 0, starve := none, frac := 0 }) h rfl
  unfold finishRun
  dsimp only
  split
  next ht => exact laid_enter hidle (carriesPlan_enters hidle (.inr (.inl ht)) (.inl rfl) nofun)
  · split
    · exact laid_onEng hidle rfl
    · exact hidle

theorem laid_starveNow (h : Laid p c) (tag : Nat) : Laid p (starveNow tag c) := by
  have hpost := laid_postNotice (laid_postEvent (laid_onEng
    (f := fun e => { e with est := .starved, held := e.ref, starve := some 0 }) h rfl) .ringStarved 0 tag c.eng.ref) .ringStarved
  unfold starveNow
  dsimp only
  split
  · exact laid_stopCause hpost _
  · exact hpost

theorem laid_nothingQueued (h : Laid p c) (eor : Bool) (tag : Nat) : Laid p (nothingQueued eor tag c) := by
  unfold nothingQueued
  split
  · exact laid_finishRun h
  · split
    · exact laid_stopCause (laid_onEng h rfl) _
    · exact laid_starveNow h _

theorem laid_outcome {after : Bool → Nat → Chip → Chip}
    (hafter : ∀ e t d, Laid p d → d.eng.cur = none → Laid p (after e t d)) {x : Chip × SegOut} (h : Laid p x.1) :
    Laid p (outcome after x) := by
  unfold outcome
  dsimp only
  split
  · exact h
  · exact hafter _ _ _ (laid_endCur h _) (endCur_cur ..)
  · exact laid_stopCause (laid_endCur h _) _
  · exact laid_stopCause h _

theorem laid_follow (n : Nat) : ∀ (eor : Bool) (tag : Nat) (c : Chip), Laid p c → c.eng.cur = none →
    Laid p (follow n eor tag c) := by
  induction n with
  | zero => exact fun _ _ _ h _ => h
  | succ n ih =>
    intro eor tag c h hc
    unfold follow
    split
    next ht =>
      split
      next id hid => exact laid_outcome ih (laid_takeOne h hc (nextRing_queued hid) (canTake_ts ht))
      · exact laid_nothingQueued h _ _
    · exact h

theorem laid_settle {x : Chip × SegOut} (h : Laid p x.1) : Laid p (settle x) := laid_outcome (laid_follow 80) h

theorem laid_complete (h : Laid p c) (st : Status) : Laid p (complete st c) := laid_settle (x := (c, _)) h

theorem laid_takeQueued (h : Laid p c) : Laid p (takeQueued c) := by
  unfold takeQueued
  split
  next ht =>
    split
    next id hid => exact laid_settle (laid_takeOne h ht.2 (nextRing_queued hid) (canTake_ts ht.1))
    · exact h
  · exact h

theorem endCur_ring_queued (st : Status) (c : Chip) (id : RingId) :
    ((endCur st c).pln.ring id).queued = (c.pln.ring id).queued := by
  cases id
  · exact (endCur_queued ..).1
  · exact (endCur_queued ..).2

theorem laid_preempt (h : Laid p c) (hq : (c.pln.ring .urgent).queued ≠ 0) (ht : c.sup.ts = .held ∨ c.sup.ts = .moving)
    (g : Seg) : Laid p (preempt g c) := by
  have htake {d : Chip} (hd : Laid p d) (hp : d.pln = c.pln) (hs : d.sup = c.sup) (st : Status) :
      Laid p (settle (takeOne .urgent (endCur st d))) := by
    refine laid_settle (laid_takeOne (laid_endCur hd st) (endCur_cur st d) ?_ ?_)
    · rwa [endCur_ring_queued, hp]
    · rwa [(endCur_frame st d).2.2.2.2.2.1, hs]
  refine htake ?_ ?_ ?_ _ <;> split
  · exact laid_onDrive h _
  · exact h
  all_goals rfl

theorem laid_gained (h : Laid p c) {id : RingId} (hq : (c.pln.ring id).queued ≠ 0) : Laid p (gained id c) := by
  unfold gained
  split
  next ht =>
    split
    · exact laid_takeQueued h
    · split
      next hid => exact laid_preempt h (hid.1 ▸ hq) (canTake_ts ht) _
      · split
        · exact laid_settle (laid_openEnds h _)
        · exact h
  · exact h

/-! ### What reaches the engine -/

theorem laid_settleMoves (h : Laid p c) : Laid p (settleMoves c) := by
  unfold settleMoves
  split
  next hm =>
    have hreq := laid_onEng (f := fun e => { e with moveReq := false }) h rfl
    have hmov := laid_enter hreq (carriesPlan_enters (n := .moving) hreq (.inl hm.2) (.inr (.inl rfl)) nofun)
    dsimp only
    split
    · have hfin := laid_onEng (f := fun e => { e with finishReq := false }) hmov rfl
      exact laid_enter hfin (carriesPlan_enters hfin (.inr (.inl (enter_supFrame ..).1)) (.inl rfl) nofun)
    · exact hmov
  · exact h

theorem laid_judgeCurrent (h : Laid p c) (b : Bool) : Laid p (judgeCurrent b c) := by
  unfold judgeCurrent
  split
  · split
    · exact laid_settle (laid_judgeSpeed h ..)
    · exact h
  · exact h

theorem laid_rollCurrent (h : Laid p c) (d : Dir) : Laid p (rollCurrent d c) := by
  unfold rollCurrent
  split
  · exact h
  · dsimp only
    split
    · split
      · exact laid_complete h _
      · exact h
    · split
      · exact laid_settle (laid_playEnds h _)
      · exact h
    · exact laid_judgeLocate h _
    · exact h

theorem laid_locateLost (h : Laid p c) : Laid p (locateLost c) := by
  unfold locateLost
  split
  · exact laid_complete h _
  · exact h

theorem laid_judgeBrake (h : Laid p c) : Laid p (judgeBrake c) := by
  unfold judgeBrake
  split
  · split
    · split
      · split
        · exact laid_complete h _
        · split
          · exact laid_complete h _
          · dsimp only
            split
            · exact laid_complete (laid_postEvent h ..) _
            · exact laid_onSeg (laid_postEvent h ..) fun _ => ⟨rfl, rfl⟩
      · exact h
    · exact h
  · exact h

theorem laid_newEndFlag (h : Laid p c) : Laid p (newEndFlag c) := by
  unfold newEndFlag
  split
  · split
    · split
      · exact h
      · split
        · exact laid_judgeCurrent (laid_toPhase h _) _
        · exact laid_stopCause h _
    · split
      · exact laid_stopCause h _
      · exact h
  · exact h

theorem laid_pinchInReport (h : Laid p c) : Laid p (pinchInReport c) := by
  unfold pinchInReport
  split
  · split
    · split
      · exact laid_stopCause h _
      · have hcap := laid_toPhase h .capstan
        dsimp only
        split
        · split
          · exact laid_settle (laid_playEnds hcap _)
          · exact hcap
        · split
          · exact laid_startTimer hcap
          · exact hcap
    · exact h
  · exact h

theorem laid_pinchTurnReport (h : Laid p c) : Laid p (pinchTurnReport c) := by
  unfold pinchTurnReport
  split
  · split
    · exact laid_stopCause h _
    · exact h
  · exact h

theorem laid_pinchOutReport (h : Laid p c) : Laid p (pinchOutReport c) := by
  unfold pinchOutReport
  split
  · exact laid_onEng (laid_onDrive h _) rfl
  · split
    · exact laid_onSup (laid_onDrive h _) ⟨rfl, rfl, rfl⟩
    · split
      · split
        · exact laid_complete h _
        · split
          · exact laid_settle (laid_begin h)
          · exact h
      · exact h

theorem laid_durationEnds (h : Laid p c) : Laid p (durationEnds c) := by
  unfold durationEnds
  split
  · split
    · split
      · split
        · split
          · exact h
          · exact laid_complete h _
        · split
          · exact h
          · exact laid_settle (laid_playEnds h _)
        · exact laid_complete h _
        · exact h
      · exact h
    · exact h
  · exact h

theorem move_cur (e : Engine) (v : Int) (n : Nat) : (e.move v n).cur = e.cur := by
  unfold Engine.move
  dsimp only
  split <;> rfl

theorem laid_move (h : Laid p c) (v : Int) (n : Nat) : Laid p (onEng (·.move v n) c) := laid_onEng h (by rw [move_cur])

theorem laid_moveReference (h : Laid p c) : Laid p (moveReference c) := by
  unfold moveReference
  split
  · split
    · exact h
    · dsimp only
      split
      · exact laid_orderCapstanRun (laid_move h ..) _
      · exact laid_move h ..
  · split
    · exact laid_move h ..
    · exact h

theorem laid_askLifters (h : Laid p c) : Laid p (askLifters c) := by
  unfold askLifters
  split
  · split
    · exact laid_onDrive h _
    · exact h
  · exact h

theorem laid_starvedAtRest (h : Laid p c) : Laid p (starvedAtRest c) := by
  unfold starvedAtRest
  split
  · exact laid_finishRun h
  · exact h

theorem laid_updateReference (h : Laid p c) : Laid p (updateReference c) := by
  unfold updateReference
  split
  · exact laid_starvedAtRest (laid_judgeCurrent (laid_askLifters (laid_markClipped (laid_moveReference h))) _)
  · split
    · exact h
    · exact laid_move h ..
  · split
    · exact h
    · exact laid_move h ..
  all_goals exact h

theorem laid_retarget (h : Laid p c) : Laid p (retarget c) := by
  unfold retarget
  split
  · split
    · exact h
    · exact laid_onSup h ⟨rfl, rfl, rfl⟩
  · exact h

theorem laid_formTorques (h : Laid p c) : Laid p (formTorques c) := by
  unfold formTorques
  split
  · exact laid_free (laid_onDrive h _) _
  · exact h

theorem laid_tail (h : Laid p c) : Laid p (tail c) := by
  unfold tail
  split
  · exact laid_formTorques (laid_retarget (laid_askLifters (laid_markClipped h)))
  · exact h

end Sys2Proof.Supervision

namespace Sys2Proof.Supervision

open Sys2Proof Sys2Proof.Machine Sys2Proof.Laws Sys2Proof.TapePath

variable {p : PathView} {c : Chip}

/-! ### The supervisor outside HELD, MOVING and STOPPING -/

/-- The supervisor rewritten where no plan stands: any state may be given it in which none may stand. -/
theorem laid_onSup_bare (h : Laid p c) (hb : ¬ c.sup.ts.carriesPlan) {f : Supervisor → Supervisor}
    (ht : ¬ (f c.sup).ts.carriesPlan) (hu : (f c.sup).up = true)
    (hc : (f c.sup).claimPending = true → (f c.sup).ts = .catching ∨ (f c.sup).ts = .tripped) : Laid p (onSup f c) := by
  have hbare := h.ok.idle hb
  refine ⟨⟨h.ok.rings, h.ok.slot, h.ok.current, h.ok.fetch,
    fun _ => ⟨hbare.queued, hbare.cur, hbare.granted⟩, fun e => ?_, fun e => ?_, hc⟩, h.path⟩
  · exact absurd (.inr (.inr e)) ht
  · exact absurd (hu.symm.trans e) (by decide)

/-- The judgement of a claim made, or withdrawn. -/
theorem laid_unclaimed (h : Laid p c) {f : Supervisor → Supervisor}
    (hf : (f c.sup).ts = c.sup.ts ∧ (f c.sup).up = c.sup.up ∧ (f c.sup).claimPending = false) : Laid p (onSup f c) := by
  obtain ⟨ht, hu, hc⟩ := hf
  refine ⟨⟨h.ok.rings, h.ok.slot, h.ok.current, h.ok.fetch, fun hn => ?_, fun e => h.ok.stopping (ht.symm.trans e),
    fun e => ht.trans (h.ok.down (hu.symm.trans e)), fun e => absurd (hc.symm.trans e) (by decide)⟩, h.path⟩
  have hts : (planView (onSup f c)).ts = c.sup.ts := ht
  rw [hts] at hn
  have hbare := h.ok.idle hn
  exact ⟨hbare.queued, hbare.cur, hbare.granted⟩

/-- From a state in which no plan stands and no claim is outstanding, any state is entered. -/
theorem laid_enter_bare {n : TState} (h : Laid p c) (hb : ¬ c.sup.ts.carriesPlan) (hu : c.sup.up = true)
    (hc : c.sup.claimPending = false) : Laid p (enter n c) :=
  laid_enter h (enters_of_bare h hb hu fun e => absurd (hc.symm.trans e) (by decide))

theorem laid_failStart (h : Laid p c) (hb : ¬ c.sup.ts.carriesPlan) (hu : c.sup.up = true) (o : Bool) :
    Laid p (failStart o c) := by
  have hout := laid_tripOutputs h o
  have hidle := laid_idleEngine hout (by rw [(tripOutputs_frame o c).2.2.2.2.2.2.2.2.1]; exact (h.bare hb).2.1)
  refine laid_postNotice (laid_postEvent (laid_onSup_bare hidle ?_ ?_ ?_ ?_) ..) _
  · simpa using hb
  · simp [Supervisor.entered, TState.carriesPlan]
  · simp [Supervisor.entered, (tripWord_stands ..).2.1, hu]
  · simp [Supervisor.entered]

theorem laid_engageBrakes (h : Laid p c) (ht : c.sup.ts = .slacking) : Laid p (engageBrakes c) := by
  have hord := laid_onDrive h (·.orderBoth .torque 0 true)
  unfold engageBrakes
  dsimp only
  split
  · exact laid_enter_bare hord (by simp [ht, TState.carriesPlan]) (h.up (by simp [ht])) (h.noClaim (by simp [ht]))
  · exact laid_onSup hord ⟨rfl, rfl, rfl⟩

theorem laid_catchBegin (h : Laid p c) : Laid p (catchBegin c) := by
  have hord := laid_onDrive (laid_onEng (f := fun e => { e with ref := c.trk.tapeSpeed, frac := 0 }) h rfl)
    (·.orderBoth .torque 0 false)
  unfold catchBegin
  dsimp only
  split
  · exact laid_onSup (laid_onDrive hord _) ⟨rfl, rfl, rfl⟩
  · exact laid_onDrive hord _

/-! ### The grants -/

theorem laid_derateTo (h : Laid p c) (ht : c.sup.ts = .moving) (g : Granted) (l : List Granted) : Laid p (derateTo g l c) :=
  laid_setGrant (laid_postNotice (laid_postEvent h ..) _) _ _ (.inr (.inr (.inl (by simpa using ht))))

theorem laid_derateRequest (h : Laid p c) (ht : c.sup.ts = .moving) : Laid p (derateRequest c) := by
  unfold derateRequest
  split
  · split
    · exact laid_derateTo h ht ..
    · exact laid_stopCause h _
  · exact h

theorem laid_onGnt (h : Laid p c) {f : GrantUnit → GrantUnit} (hf : (f c.gnt).active = c.gnt.active) : Laid p (onGnt f c) :=
  h.alike (alike_onGnt c hf)

theorem laid_recheckGrant (h : Laid p c) : Laid p (recheckGrant c) := by
  unfold recheckGrant
  split
  · exact h
  next a ha =>
    have ht : c.sup.ts.carriesPlan := by
      by_contra hn
      rw [(h.bare hn).2.2] at ha
      cases ha
    dsimp only
    split
    · split
      · exact h
      · exact laid_onGnt (laid_postEvent h ..) rfl
    · split
      · exact laid_setGrant (laid_postNotice (laid_postEvent h ..) _) _ _ (.inr (by simpa using ht))
      · exact h

theorem laid_recheck (h : Laid p c) : Laid p (recheck c) := by
  unfold recheck
  split
  · exact laid_postNotice (laid_dropActive (laid_returnPlan h) _) _
  · exact laid_recheckGrant h

theorem laid_cancelPending (h : Laid p c) (v : Int) : Laid p (cancelPending v c) := h.alike (alike_cancelPending v c)

theorem laid_reply (h : Laid p c) (r : Result) (d : Byte) : Laid p (reply r d c) := laid_onMbx h _

/-! ### The tape path, the arms and the inputs -/

theorem laid_count (h : Laid p c) (d : Dir) : Laid p (rollPosts c.trk d (onTrk (·.count c.pins.leader d) c)) := by
  have hcount := laid_onTrk h (·.count c.pins.leader d)
  unfold rollPosts
  dsimp only
  split
  · split
    · exact laid_postTrackerEvent (laid_postTrackerEvent hcount ..) ..
    · exact laid_postTrackerEvent hcount ..
  · split
    · exact laid_postTrackerEvent hcount ..
    · exact hcount

theorem laid_rollStep (h : Laid p c) (d : Dir) : Laid p (rollStep d c) := by
  have hroll := laid_count (laid_settleMoves h) d
  unfold rollStep
  dsimp only
  split
  · exact laid_locateLost hroll
  · exact laid_rollCurrent hroll d

theorem laid_followReels (h : Laid p c) : Laid p (followReels c) := by
  unfold followReels
  split
  · exact laid_onDrive h _
  · exact h

theorem laid_stopEnd (h : Laid p c) : Laid p (stopEnd c) := by
  unfold stopEnd
  split
  next hs =>
    have hidle := laid_idleEngine h (by simpa [planView] using h.ok.stopping hs.1)
    exact laid_takeQueued (laid_enter hidle (carriesPlan_enters hidle (.inr (.inr hs.1)) (.inl rfl) nofun))
  · exact h

theorem laid_catchEnd (h : Laid p c) : Laid p (catchEnd c) := by
  unfold catchEnd
  split
  next hs => exact laid_enter_bare h (by simp [hs.1, TState.carriesPlan]) (h.up (by simp [hs.1])) hs.2.1
  · exact h

theorem laid_tickStep (h : Laid p c) : Laid p (tickStep c) :=
  laid_judgeBrake (laid_catchEnd (laid_stopEnd (laid_followReels (laid_onDrive (laid_onTrk (laid_settleMoves h) _) _))))

theorem laid_pathPresentStep (h : Laid p c) : Laid p (pathPresentStep c) := by
  unfold pathPresentStep setPathPin
  dsimp only
  split
  · exact laid_onTrk (laid_pins h _) _
  · exact laid_pins h _

theorem laid_postTrackerNotice (h : Laid p c) (k : Notice) : Laid p (postTrackerNotice k c) :=
  h.alike (alike_of (by simp) (by simp) (by simp) (by simp) (by simp))

theorem laid_postTapePath (h : Laid p c) (d : Nat) : Laid p (postTapePath d c) :=
  laid_postTrackerNotice (laid_postTrackerEvent h ..) _

theorem postTapePath_sup (d : Nat) (c : Chip) : (postTapePath d c).sup = c.sup := by simp [postTapePath]

theorem laid_debounceStep (h : Laid p c) : Laid p (debounceStep c) := by
  have hpost := laid_postTapePath (laid_onTrk h fun t => { t with path := .present, debounce := 0 }) 1
  unfold debounceStep
  split
  · dsimp only
    split
    next hs =>
      have ht : c.sup.ts = .unthreaded := by simpa [postTapePath_sup] using hs.2
      have hu : c.sup.up = true := by simpa [postTapePath_sup] using hs.1
      refine laid_enter_bare hpost ?_ ?_ ?_ <;> simp only [postTapePath_sup, onTrk_sup]
      · simp [ht, TState.carriesPlan]
      · exact hu
      · exact h.noClaim (by simp [ht])
    · exact hpost
  · exact h

theorem laid_absenceTold (h : Laid p c) : Laid p (absenceTold c) := by
  unfold absenceTold
  split
  next hu =>
    split
    next ht => exact laid_enter_bare h (by simp [ht, TState.carriesPlan]) hu (h.noClaim (by simp [ht]))
    next => exact h
    all_goals exact laid_trip h ..
  · exact h

theorem laid_pathLostStep (h : Laid p c) : Laid p (pathLostStep c) := by
  have hend {d : Chip} (hd : Laid p d) : Laid p (absenceTold (if d.locateCurrent then endCur .missed d else d)) := by
    refine laid_absenceTold ?_
    split
    · exact laid_endCur hd _
    · exact hd
  refine hend (laid_postTapePath ?_ _)
  split
  · exact laid_postTrackerEvent (laid_onTrk h _) ..
  · exact laid_onTrk h _

theorem laid_pathAbsentStep (h : Laid p c) : Laid p (pathAbsentStep c) := by
  have hpin : Laid p (setPathPin false c) := laid_pins h _
  unfold pathAbsentStep
  dsimp only
  split
  · exact hpin
  · exact laid_onTrk hpin _
  · exact laid_pathLostStep hpin

theorem laid_endSensorStep (h : Laid p c) (leader : Bool) : Laid p (endSensorStep leader c) := by
  have hflag {d : Chip} (hd : Laid p d) (was : Bool) : Laid p (match d.trk.lastDir with
      | some x =>
        if leader ∧ was = false ∧ d.trk.endFlag = .none then
          newEndFlag (postTrackerNotice .tapeEnd (postTrackerEvent .endFlag (flagOf x).code
            (onTrk (fun t => { t with endFlag := flagOf x }) d)))
        else d
      | none => d) := by
    split
    · split
      · exact laid_newEndFlag (laid_postTrackerNotice (laid_postTrackerEvent (laid_onTrk hd _) ..) _)
      · exact hd
    · exact hd
  refine hflag ?_ c.pins.leader
  split
  · exact laid_onTrk (laid_pins h _) _
  · exact laid_pins h _

theorem laid_judgeClaim (h : Laid p c) (hc : c.sup.claimPending = true) : Laid p (judgeClaim c) := by
  have hts := h.ok.claim hc
  have hjudged : Laid p (claimJudged (claimCarry c)) := laid_unclaimed (laid_claimCarry h) ⟨rfl, rfl, rfl⟩
  have hsup : (claimJudged (claimCarry c)).sup = { c.sup with claimPending := false } := by
    simp [claimJudged]
  unfold judgeClaim
  split
  · refine laid_unclaimed ?_ ⟨rfl, rfl, rfl⟩
    split
    · exact laid_trip h ..
    · exact h
  next hnt =>
    have ht : c.sup.ts = .catching := hts.resolve_right hnt
    split
    · refine laid_failStart hjudged ?_ ?_ _ <;> rw [hsup]
      · simp [ht, TState.carriesPlan]
      · exact h.up (by simp [ht])
    · exact laid_catchBegin hjudged

theorem classify_stands (x : Supervisor) (r : Reel) (cl : ArmClass) : (x.classify r cl).ts = x.ts ∧
    (x.classify r cl).up = x.up ∧ (x.classify r cl).claimPending = x.claimPending := by
  cases r <;> exact ⟨rfl, rfl, rfl⟩

theorem laid_armStep (h : Laid p c) (r : Reel) (v : BitVec 12) : Laid p (armStep r v c) := by
  have hread := laid_onTrk h (·.armRead r v)
  have hcl := laid_onSup (f := (·.classify r (classNow (onTrk (·.armRead r v) c) v))) hread (classify_stands ..)
  unfold armStep sampleTaken
  dsimp only
  split
  · split
    next hclaim =>
      split
      · exact laid_judgeClaim hcl hclaim
      · exact hcl
    · split
      · exact laid_trip hcl ..
      · exact hcl
  · exact hread

theorem laid_inputCause (h : Laid p c) (d : Nat) (k : TripCause) (i : Side) : Laid p (inputCause d k i c) := by
  unfold inputCause
  split
  · split
    · exact laid_trip h ..
    · exact laid_postEvent h ..
  · exact h

theorem laid_powerFailStep (h : Laid p c) : Laid p (powerFailStep c) := by
  unfold powerFailStep
  split
  · exact h
  · exact laid_inputCause (laid_pins h _) ..

theorem laid_driveFaultStep (h : Laid p c) (r : Reel) : Laid p (driveFaultStep r c) := by
  cases r <;> unfold driveFaultStep <;> dsimp only <;> split
  · exact h
  · exact laid_inputCause (laid_pins h _) ..
  · exact h
  · exact laid_inputCause (laid_pins h _) ..

theorem laid_fltCapStep (h : Laid p c) : Laid p (fltCapStep c) := by
  have hrel := laid_onDrive (laid_pins h { c.pins with fltCap := true }) (·.release c.pinchFull)
  unfold fltCapStep
  split
  · exact h
  · dsimp only
    split
    · exact laid_stopCause hrel _
    · exact hrel

/-! ### The timers -/

theorem laid_breakStep (h : Laid p c) : Laid p (breakStep c) := by
  unfold breakStep
  split
  · exact laid_trip h ..
  · exact h

theorem laid_excursionStep (h : Laid p c) : Laid p (excursionStep c) := by
  unfold excursionStep
  split
  · have hpost (d : Nat) (v : Int) := laid_onSup (f := fun s => { s with exc := if s.strayArm then some 0 else none })
      (laid_postEvent h .armExcursion d c.curTag v) ⟨rfl, rfl, rfl⟩
    dsimp only
    split
    next ht => exact laid_derateRequest (hpost _ _) (by simpa using ht)
    · exact hpost _ _
  · exact h

theorem laid_settleStep (h : Laid p c) : Laid p (settleStep c) := by
  unfold settleStep
  split
  next hs =>
    have hb : ¬ c.sup.ts.carriesPlan := by simp [hs.1, TState.carriesPlan]
    have hu := h.up (by simp [hs.1])
    have hn := h.noClaim (by simp [hs.1])
    split
    · exact laid_enter_bare h hb hu hn
    · exact laid_enter_bare (laid_postEvent h ..) (by simpa using hb) (by simpa using hu) (by simpa using hn)
  · exact h

theorem laid_slackZeroStep (h : Laid p c) : Laid p (slackZeroStep c) := by
  unfold slackZeroStep
  split
  next hs => exact laid_engageBrakes h hs.1
  · exact h

theorem laid_offDelayStep (h : Laid p c) : Laid p (offDelayStep c) := by
  unfold offDelayStep
  split
  · split
    next hs =>
      exact laid_enter_bare (laid_onDrive h _) (by simp [hs.1, TState.carriesPlan]) (h.up (by simp [hs.1]))
        (h.noClaim (by simp [hs.1]))
    · exact h
  · exact h

theorem laid_pinchStep (h : Laid p c) : Laid p (pinchStep c) := by
  have hmoves := laid_settleMoves h
  unfold pinchStep pinchReport
  dsimp only
  split
  · split
    · split
      · exact laid_pinchInReport (laid_onDrive hmoves _)
      · exact laid_pinchTurnReport (laid_onDrive hmoves _)
      · exact laid_pinchOutReport (laid_onDrive hmoves _)
      · exact laid_onDrive hmoves _
    · exact laid_onDrive hmoves _
  · exact hmoves

theorem laid_clockTick (h : Laid p c) : Laid p (clockTick c) := by
  have htick := laid_onEng (f := (·.tick)) (laid_onSup (f := (·.tick)) h ⟨rfl, rfl, rfl⟩)
    (by simp [Engine.tick, Option.map_map, Function.comp_def])
  exact ⟨htick.ok, htick.path⟩

theorem laid_referenceStep (h : Laid p c) : Laid p (referenceStep c) := by
  unfold referenceStep
  split
  · exact h
  · exact laid_judgeBrake (laid_updateReference (laid_clockTick (laid_settleMoves h)))

theorem laid_durationStep (h : Laid p c) : Laid p (durationStep c) := by
  unfold durationStep
  dsimp only
  split
  · exact laid_durationEnds (laid_settleMoves h)
  · exact laid_settleMoves h

theorem laid_starveStep (h : Laid p c) : Laid p (starveStep c) := by
  unfold starveStep
  split
  · exact laid_stopCause h _
  · exact h

theorem laid_silenceStep (h : Laid p c) : Laid p (silenceStep c) := by
  unfold silenceStep
  split
  · have hpost (d : Nat) (v : Int) := laid_postNotice (laid_postEvent (laid_onMon h fun m => { m with st := .silent })
      .hostSilence d 0 v) .hostSilence
    dsimp only
    split
    · exact laid_stopCause (hpost _ _) _
    · exact hpost _ _
  · exact h

/-! ### The start of the supervisor, and the settings -/

theorem laid_carryExpiryStep (h : Laid p c) : Laid p (carryExpiryStep c) := by
  unfold carryExpiryStep orderLifters emergencyBoth
  split
  · dsimp only
    split
    · exact laid_onDrive (laid_onDrive (laid_onDrive h _) _) _
    · exact laid_onDrive (laid_onDrive (laid_onDrive (laid_onDrive h _) _) _) _
  · exact h

theorem laid_startIn (h : Laid p c) (hd : c.sup.up = false) {ts : TState} (hn : ¬ ts.carriesPlan) (i : Option (Fin 8))
    (r : Ramp) : Laid p (startIn ts i r c) := by
  have ht : c.sup.ts = .unthreaded := h.ok.down hd
  unfold startIn
  refine laid_onGnt (laid_onSup_bare h (by simp [ht, TState.carriesPlan]) hn rfl fun hc => ?_) rfl
  have hc' : c.sup.claimPending = true := hc
  rw [h.noClaim (by simp [ht])] at hc'
  cases hc'

theorem laid_startFromPath (h : Laid p c) (hd : c.sup.up = false) (i : Option (Fin 8)) : Laid p (startFromPath i c) := by
  refine laid_onDrive (laid_startIn h hd ?_ _ _) _
  unfold pathTState
  split <;> simp [TState.carriesPlan]

theorem laid_firstState (h : Laid p c) (hd : c.sup.up = false) : Laid p (firstState c) := by
  have hdrop := laid_onDrive h (·.dropCarry)
  have hclaim := laid_claimCarry h
  have hcd : (claimCarry c).sup.up = false := by simpa using hd
  have hover (r : CarryRec) : Laid p (takeOver r c) :=
    laid_failStart (laid_startIn hdrop hd (by simp [TState.carriesPlan]) _ _) (by simp [startIn, TState.carriesPlan]) rfl _
  unfold firstState
  split
  · split
    case h_1 | h_2 => exact laid_startFromPath hdrop hd _
    case h_8 =>
      have hslack (ramp : Ramp) (i : Option (Fin 8)) :=
        laid_startIn (ts := .slacking) hclaim hcd (by simp [TState.carriesPlan]) i ramp
      unfold resumeSlack
      dsimp only
      split
      · exact laid_engageBrakes (hslack _ _) rfl
      · exact hslack _ _
    case h_9 => exact laid_onDrive (laid_startIn hclaim hcd (by simp [TState.carriesPlan]) _ _) _
    all_goals
      refine laid_onSup_bare (laid_startIn h hd (by simp [TState.carriesPlan]) _ _) ?_ ?_ rfl fun _ => .inl rfl
      · simp [startIn, TState.carriesPlan]
      · simp [startIn, TState.carriesPlan]
  · split
    case h_1 | h_2 => exact laid_startFromPath hdrop hd _
    all_goals exact hover _
  · exact laid_startFromPath h hd _

theorem laid_startInputs (h : Laid p c) : Laid p (startInputs c) := by
  have hcap {d : Chip} (hd : Laid p d) : Laid p (if d.pins.fltCap then stopCause .capstanFault d else d) := by
    split
    · exact laid_stopCause hd _
    · exact hd
  have hpost {d : Chip} (hd : Laid p d) (b : Bool) (n : Nat) : Laid p (if b then postEvent .faultInput n 0 0 d else d) := by
    split
    · exact laid_postEvent hd ..
    · exact hd
  refine hcap ?_
  split
  · exact laid_tripStanding h
  · exact hpost (hpost (hpost h _ _) _ _) _ _

theorem laid_startStep (h : Laid p c) : Laid p (startStep c) := by
  unfold startStep
  split
  next hs => exact laid_startInputs (laid_firstState h hs.2.2)
  · exact h

theorem laid_settingsLoaded (h : Laid p c) : Laid p (settingsLoaded c) := by
  have himage := laid_postWrites (laid_onSet h fun s => { s with loaded := true }) .startUp
  have hclear {d : Chip} (hd : Laid p d) : Laid p (clearCueImage d) := ⟨hd.ok, hd.path⟩
  have hmask {d : Chip} (hd : Laid p d) : Laid p (takeDefaultMask d) := ⟨hd.ok, hd.path⟩
  have hsweep {d : Chip} (hd : Laid p d) : Laid p (onPln (fun p => { p with sweep := some 0 }) d) := ⟨hd.ok, hd.path⟩
  exact hsweep (hmask (laid_postWrites (hclear (himage _)) ..))

theorem laid_loadStep (h : Laid p c) : Laid p (loadStep c) := by
  unfold loadStep
  split
  · have hread := laid_onSet h (·.readMade)
    dsimp only
    split
    · exact laid_settingsLoaded (laid_onSet hread _)
    · split
      · exact laid_onSet hread _
      · exact laid_settingsLoaded (laid_postEvent (laid_onSet (laid_onSet hread _) _) ..)
  · exact h

/-! ### The commands of the mailbox -/

theorem laid_tensionUpStep (h : Laid p c) : Laid p (tensionUpStep c) := by
  unfold tensionUpStep
  split
  · exact laid_reply h ..
  · split
    · exact laid_reply h ..
    next ht =>
      have ht' : c.sup.ts = .threaded := not_not.mp ht
      split
      · exact laid_reply h ..
      next i _ =>
        split
        · exact laid_reply h ..
        · split
          · exact laid_reply h ..
          · have hidx := laid_onGnt (f := fun g => { g with threaded := some i }) (laid_onSup
              (f := fun s => { s with threaded := some i }) (laid_reply h .done detailNone) ⟨rfl, rfl, rfl⟩) rfl
            have hent : Laid p (enter .tensioning _) := laid_enter_bare hidx (by simp [ht', TState.carriesPlan])
              (by simpa using h.up (by simp [ht'])) (by simpa using h.noClaim (by simp [ht']))
            unfold tensionUpNow tensionOrders orderLifters
            exact laid_tripStanding (laid_onDrive (laid_onDrive hent _) _)

theorem returnPlan_bare (c : Chip) : (returnPlan c).eng.cur = none ∧ ∀ id, ((returnPlan c).pln.ring id).queued = 0 := by
  refine ⟨?_, fun id => flushBoth_ring_queued ..⟩
  rw [returnPlan, (flushBoth_frame ..).2.2.2.2.2.2.2.2.1]
  exact endTaken_cur ..

theorem laid_slackDownStep (h : Laid p c) : Laid p (slackDownStep c) := by
  have hrep := laid_reply h .done detailNone
  unfold slackDownStep
  split
  next ht =>
    obtain ⟨hcur, hq⟩ := returnPlan_bare (reply .done detailNone c)
    refine laid_enter (laid_returnPlan hrep) ⟨?_, fun hc => ?_, fun _ _ => hcur, fun _ => hq, nofun⟩
    · simpa [returnPlan] using h.up (by simp [ht])
    · rw [show (returnPlan (reply .done detailNone c)).sup.claimPending = c.sup.claimPending by simp [returnPlan],
        h.noClaim (by simp [ht])] at hc
      cases hc
  · split
    next ht =>
      exact laid_enter_bare hrep (by simp [ht, TState.carriesPlan]) (by simpa using h.up (by simp [ht]))
        (by simpa using h.noClaim (by simp [ht]))
    · exact laid_reply h ..

theorem laid_clearFaultStep (h : Laid p c) : Laid p (clearFaultStep c) := by
  have hword := laid_onSup (f := (·.noFault)) h ⟨rfl, rfl, rfl⟩
  unfold clearFaultStep
  dsimp only
  split
  · exact laid_reply hword ..
  · split
    next ht =>
      split
      · exact laid_reply hword ..
      · exact laid_enter_bare (laid_unclaimed (laid_reply hword _ _) ⟨rfl, rfl, rfl⟩)
          (by
            have ht' : c.sup.ts = .tripped := ht
            simp [Supervisor.recovered, Supervisor.noFault, ht', TState.carriesPlan])
          (h.up (by
            have ht' : c.sup.ts = .tripped := ht
            simp [ht'])) rfl
    · split
      · exact laid_onSup (laid_reply hword _ _) ⟨rfl, rfl, rfl⟩
      · exact laid_reply hword ..

theorem laid_requestGrantStep (h : Laid p c) : Laid p (requestGrantStep c) := by
  unfold requestGrantStep deferRequest evaluateNow
  split
  case h_9 =>
    next ht =>
      dsimp only
      split
      · exact laid_evaluateRequest (laid_reply h ..) ht _
      · exact laid_reply h ..
  case h_7 | h_8 => exact laid_onGnt (laid_reply (laid_cancelPending h _) ..) rfl
  all_goals exact laid_reply h ..

theorem laid_dropGrantStep (h : Laid p c) : Laid p (dropGrantStep c) := by
  unfold dropGrantStep
  split
  case h_3 => exact laid_dropActive (laid_returnPlan (laid_reply h _ _)) _
  case h_4 | h_5 =>
    split
    · exact laid_cancelPending (laid_reply h _ _) _
    · exact laid_reply h ..
  all_goals exact laid_reply h ..

/-- The cue table, which the laws do not read. -/
theorem laid_cue (h : Laid p c) (t : CueTable) : Laid p { c with cue := t } := ⟨h.ok, h.path⟩

theorem laid_postEventAt (h : Laid p c) (k : EventKind) (d t : Nat) (v x : Int) : Laid p (postEventAt k d t v x c) :=
  h.alike (alike_of (by simp) (by simp) (by simp) (by simp) (by simp))

theorem laid_setCueStep (h : Laid p c) : Laid p (setCueStep c) := by
  unfold setCueStep
  dsimp only
  split
  · exact laid_reply h ..
  · split
    · exact laid_reply h ..
    · exact laid_reply (laid_postEventAt (laid_cue h _) ..) ..

theorem laid_clearCueStep (h : Laid p c) : Laid p (clearCueStep c) := by
  have hclear (ns : List Nat) : Laid p (if ns.isEmpty then reply .done detailNothing c
      else reply .done detailNone (postEvent .cueCleared (c.mbx.byte 0) 0 ns.length { c with cue := c.cue.clear ns })) := by
    split
    · exact laid_reply h ..
    · exact laid_reply (laid_postEvent (laid_cue h _) ..) ..
  unfold clearCueStep
  dsimp only
  split
  · exact laid_reply h ..
  · exact hclear _

theorem laid_setPositionStep (h : Laid p c) : Laid p (setPositionStep c) := by
  unfold setPositionStep
  dsimp only
  split
  · exact laid_reply h ..
  · split
    · exact laid_reply h ..
    · split
      · exact laid_reply h ..
      · exact laid_reply (laid_onTrk h _) ..

theorem laid_admitStore (h : Laid p c) (f : Store → Store) : Laid p (admitStore (onSet f) c) := by
  unfold admitStore
  split
  · exact h
  · split
    · exact laid_reply h ..
    · split
      · exact laid_reply h ..
      · exact laid_onSet h _

theorem laid_saveCompleteStep (h : Laid p c) : Laid p (saveCompleteStep c) := by
  unfold saveCompleteStep
  split
  · exact laid_reply (laid_onSet h _) ..
  · exact h

theorem laid_adoptSettings (h : Laid p c) (bs : List Byte) : Laid p (adoptSettings bs c) := by
  have himage := laid_postWrites (laid_onSet (laid_onSet h fun s => { s with reloading := false, reads := 0 }) (·.load bs))
    .settings
  unfold adoptSettings endReload
  refine laid_reply (laid_recheck ?_) ..
  split
  · exact laid_onMon (himage _) _
  · exact himage _

theorem laid_reloadReadStep (h : Laid p c) : Laid p (reloadReadStep c) := by
  unfold reloadReadStep endReload
  split
  · have hread := laid_onSet h (·.readMade)
    dsimp only
    split
    · split
      · exact laid_adoptSettings hread _
      · exact laid_reply (laid_onSet hread _) ..
    · split
      · exact laid_onSet hread _
      · exact laid_reply (laid_onSet (laid_onSet hread _) _) ..
  · exact h

theorem laid_replyStep (h : Laid p c) : Laid p (replyStep c) := by
  unfold replyStep
  split
  · split
    · exact laid_postNotice (laid_onMbx (laid_postWrites h ..) _) _
    · exact h
  · exact h

/-! ### The event writer -/

theorem laid_onEvt (h : Laid p c) (f : EventWriter → EventWriter) : Laid p (onEvt f c) := ⟨h.ok, h.path⟩

theorem laid_appendRecord (h : Laid p c) (e : Event) : Laid p (appendRecord e c) := by
  have hrec := laid_onEvt (laid_postWrites h .eventWriter (recordWrites c.evt.write e))
    fun w => { w with write := (w.write + 1) % eventRecords }
  unfold appendRecord
  dsimp only
  split
  · exact laid_postNotice hrec _
  · exact hrec

theorem laid_appendStep (h : Laid p c) : Laid p (appendStep c) := by
  unfold appendStep takeEvent
  split
  next rest _ =>
    have hrest := laid_onEvt h fun w => { w with posted := rest }
    split
    · exact laid_appendRecord hrest _
    · dsimp only
      split
      · exact laid_postNotice (laid_onEvt hrest _) _
      · exact laid_onEvt hrest _
  · exact h

theorem laid_startupEndStep (h : Laid p c) : Laid p (startupEndStep c) := by
  have hpost (ps : List Post) : ∀ {d : Chip}, Laid p d → Laid p (ps.foldl (fun c x => makePost x c) d) := by
    induction ps with
    | nil => exact id
    | cons x ps ih =>
      intro d hd
      refine ih ?_
      cases x
      · exact laid_onEvt hd fun w => { w with posted := w.posted ++ [_] }
      · exact ⟨hd.ok, hd.path⟩
  have hrun : Laid p { c with
      mode := .running, bus := { c.bus with startTime := c.clock }, evt := { c.evt with held := [] } } := ⟨h.ok, h.path⟩
  unfold startupEndStep
  split
  · exact hpost _ (laid_appendRecord hrun _)
  · exact h

end Sys2Proof.Supervision

namespace Sys2Proof.Supervision

open Sys2Proof Sys2Proof.Machine Sys2Proof.Laws Sys2Proof.TapePath

/-! ## The laws through the path -/

/-- The laws of the plan with those of the fetch and of the memory port, between the end of a host cycle and the next. -/
structure Served (c : Chip) : Prop where
  plan : (planView c).Ok
  fetch : c.pln.fetch.isSome = true → ∃ x, c.bus.host = some x ∧ x.phase = .screening
  port : ∀ a w d b y, c.bus.port = some (.host a w d b y) → ∃ x, c.bus.host = some x ∧ x.phase = .inPort

/-- The laws of the plan and of the path. -/
structure Sound (c : Chip) : Prop extends Served c where
  next : c.bus.next ≠ none → c.bus.host ≠ none

theorem planOk_iff_sound (s : State) : PlanOk s ↔ Sound s.chip := by
  rw [planOk_iff]
  constructor
  · rintro ⟨h, hf, hp, hn⟩
    exact ⟨⟨h, hf, hp⟩, hn⟩
  · rintro ⟨⟨h, hf, hp⟩, hn⟩
    exact ⟨h, hf, hp, hn⟩

theorem sound_of_laid {c d : Chip} (h : Sound c) (k : Laid (pathView c) d) : Sound d := by
  obtain ⟨hfetch, hhost, hport, hnext⟩ := PathView.mk.inj k.path
  refine ⟨⟨k.ok, ?_, ?_⟩, ?_⟩
  · rw [hfetch, hhost]; exact h.fetch
  · rw [hport, hhost]; exact h.port
  · rw [hnext, hhost]; exact h.next

theorem laid_refl {c : Chip} (h : Served c) : Laid (pathView c) c := ⟨h.plan, rfl⟩

theorem served_of_laid {c d : Chip} (h : Served c) (k : Laid (pathView c) d) : Served d := by
  obtain ⟨hfetch, hhost, hport, -⟩ := PathView.mk.inj k.path
  refine ⟨k.ok, ?_, ?_⟩
  · rw [hfetch, hhost]; exact h.fetch
  · rw [hport, hhost]; exact h.port

/-- A path on which no hand-off is fetched and no host cycle is at the memory port: there a host cycle may be taken. -/
structure PathFree (c : Chip) : Prop where
  plan : (planView c).Ok
  fetch : c.pln.fetch = none
  port : ∀ a w d b y, c.bus.port ≠ some (.host a w d b y)

theorem Served.free {c : Chip} (h : Served c) (hp : ∀ x, c.bus.host = some x → x.phase ≠ .screening ∧ x.phase ≠ .inPort) :
    PathFree c := by
  refine ⟨h.plan, ?_, fun a w d b y e => ?_⟩
  · by_contra hf
    obtain ⟨x, hx, hs⟩ := h.fetch (by simpa [Option.isSome_iff_ne_none] using hf)
    exact (hp x hx).1 hs
  · obtain ⟨x, hx, hs⟩ := h.port a w d b y e
    exact (hp x hx).2 hs

theorem PathFree.served {c : Chip} (h : PathFree c) : Served c :=
  ⟨h.plan, fun hf => by simp [h.fetch] at hf, fun a w d b y e => absurd e (h.port a w d b y)⟩

/-- The laws of the plan with a path as given but for the host's own cycle. -/
def Taken (p : PathView) (c : Chip) : Prop := ∃ x, Laid { p with host := x } c

theorem Laid.taken {p : PathView} {c : Chip} (h : Laid p c) : Taken p c := ⟨p.host, h⟩

theorem PathFree.taken {c d : Chip} (h : PathFree c) (k : Taken (pathView c) d) : PathFree d ∧ d.bus.next = c.bus.next := by
  obtain ⟨x, hok, hpath⟩ := k
  obtain ⟨hfetch, -, hport, hnext⟩ := PathView.mk.inj hpath
  refine ⟨⟨hok, ?_, fun a w y b z => hport ▸ h.port a w y b z⟩, hnext⟩
  have hnone : (pathView c).fetching = false := by simp [pathView, h.fetch]
  simpa [hnone] using hfetch

section Answers

variable {p : PathView} {c : Chip}

/-! ### What a host cycle finds (R152, R163) -/

theorem taken_onBus (h : Laid p c) {f : Bus → Bus} (hf : (f c.bus).port = c.bus.port ∧ (f c.bus).next = c.bus.next) :
    Taken p (onBus f c) := by
  obtain ⟨hfetch, -, hport, hnext⟩ := PathView.mk.inj h.path
  exact ⟨(f c.bus).host, h.ok, PathView.mk.injEq .. ▸ ⟨hfetch, rfl, hf.1.trans hport, hf.2.trans hnext⟩⟩

theorem taken_release (h : Laid p c) (w : Word) (be : Enables) : Taken p (release w be c) :=
  taken_onBus (f := fun b => { b with host := b.host.map fun x => { x with phase := .ready w be } }) h ⟨rfl, rfl⟩

theorem taken_hostPhase (h : Laid p c) (ph : HostPhase) : Taken p (hostPhase ph c) := taken_onBus h ⟨rfl, rfl⟩

theorem taken_completeHost (h : Laid p c) (x : HostDone) : Taken p (completeHost x c) := taken_onBus h ⟨rfl, rfl⟩

theorem taken_dropWrite (h : Laid p c) : Taken p (dropWrite c) := taken_completeHost h _

theorem laid_postWriteDropped (h : Laid p c) (d n t : Nat) : Laid p (postWriteDropped d n t c) :=
  laid_postNotice (laid_postEvent h ..) _

theorem laid_ntc (h : Laid p c) (n : NoticeUnit) : Laid p { c with ntc := n } := ⟨h.ok, h.path⟩

theorem laid_overrunMarker (h : Laid p c) : Laid p (overrunMarker c) := by
  unfold overrunMarker
  split
  · exact laid_appendRecord (laid_onEvt h fun w => { w with overrun := false, dropped := 0 }) _
  · exact h

theorem taken_writeConsumed (h : Laid p c) (w : Word) (be : Enables) : Taken p (writeConsumed w be c) := by
  obtain ⟨x, hx⟩ := taken_release (laid_onEvt h fun e => { e with consumed := c.evt.consumedAfter w be })
    (BitVec.ofNat 32 (c.evt.consumedAfter w be)) allBytes
  exact ⟨x, laid_overrunMarker hx⟩

theorem taken_writeTrim (h : Laid p c) (w : Word) (be : Enables) : Taken p (writeTrim w be c) := by
  have htrim (v : Int) := taken_release (laid_onGnt (f := fun g => { g with trim := v }) h rfl) (wordOfInt v) allBytes
  unfold writeTrim
  dsimp only
  obtain ⟨x, hx⟩ := htrim (clampInt c.gnt.variRange (merge be w (wordOfInt c.gnt.trim)).toInt)
  split
  · exact ⟨x, hx⟩
  · exact ⟨x, laid_postNotice (laid_postEvent hx ..) _⟩

theorem laid_beat (h : Laid p c) : Laid p (beat c) := by
  unfold beat
  split
  · split
    · exact laid_onMon h _
    · exact h
  · dsimp only
    split
    · exact laid_onMon (laid_postEvent h ..) _
    · exact laid_onMon h _

theorem taken_takeCommand (h : Laid p c) (w : Word) (be : Enables) : Taken p (takeCommand w be c) := by
  have hcopy := laid_onMbx h fun m => { m with copy := merge be w c.mbx.copy }
  unfold takeCommand
  dsimp only
  split
  · exact taken_release hcopy ..
  · have hcmd := laid_onMbx hcopy fun m => { m with
      cmd := some ⟨byteOf (merge be w c.mbx.copy) 0, (byteOf (merge be w c.mbx.copy) 1).getLsbD 0,
        (byteOf (merge be w c.mbx.copy) 2).toNat⟩, data := [], got := [], aborted := false }
    obtain ⟨x, hx⟩ := taken_release hcmd w be
    split
    · exact ⟨x, laid_reply hx ..⟩
    · split
      · exact ⟨x, laid_reply hx ..⟩
      · split
        · exact ⟨x, laid_onMbx hx _⟩
        · exact taken_hostPhase (laid_onMbx hcmd _) _

theorem taken_writeCommand (h : Laid p c) (w : Word) (be : Enables) : Taken p (writeCommand w be c) := by
  unfold writeCommand
  split
  · exact taken_takeCommand h ..
  · exact taken_dropWrite (laid_postWriteDropped h ..)
  all_goals exact taken_hostPhase h _

theorem laid_takeImageWrite (h : Laid p c) (n : Nat) (w : Word) (be : Enables) : Laid p (takeImageWrite n w be c) := by
  have hset := laid_onSet h fun _ => c.set.takeWrite n w be
  unfold takeImageWrite
  refine laid_postWrites ?_ ..
  split
  · exact laid_onMon hset _
  · exact hset

theorem taken_writeImage (h : Laid p c) (n : Nat) (w : Word) (be : Enables) : Taken p (writeImage n w be c) := by
  unfold writeImage
  split
  · exact taken_dropWrite (laid_postWriteDropped h ..)
  · exact taken_release (laid_takeImageWrite h ..) ..

theorem taken_readLive (h : Laid p c) (k : Nat) : Taken p (readLive k c) := by
  have hsnap : Laid p (onBus (fun b => { b with snap := some (snapNow c) }) c) := ⟨h.ok, h.path⟩
  unfold readLive
  dsimp only
  split
  · exact taken_completeHost hsnap _
  · exact taken_completeHost h _

theorem taken_disposeLive (h : Laid p c) (cy : HostCyc) (off : Nat) : Taken p (disposeLive cy off c) := by
  unfold disposeLive
  split
  · exact taken_dropWrite h
  · split
    · exact taken_completeHost h _
    · exact taken_readLive h _

theorem taken_disposeStartup (h : Laid p c) (cy : HostCyc) : Taken p (disposeStartup cy c) := by
  unfold disposeStartup
  split
  · exact taken_dropWrite h
  · exact taken_release h ..

end Answers

/-! ### The rings' own words (R94) -/

/-- The newest queued slot recalled (R93, R102), where no hand-off is fetched. -/
theorem PlanView.Ok.recalled {v : PlanView} {id : RingId} (h : v.Ok) (hf : v.fetch = none)
    (hq : ((v.ring id).slot ((v.ring id).before (v.ring id).intake)).view = .queued) :
    PlanView.Ok { v with ring := Function.update v.ring id (v.ring id).recall } := by
  obtain ⟨hr, hs, hc, -, hi, hst, hd, hcl⟩ := h
  have hslot (k : Nat) : ((v.ring id).recall).slot k = if k = (v.ring id).before (v.ring id).intake ∧
      (v.ring id).before (v.ring id).intake < (v.ring id).slots.length then ⟨.host, none⟩ else (v.ring id).slot k :=
    slot_withSlot ..
  refine ⟨fun j => ?_, hs, fun j i hj => ?_, fun j i hv => absurd (hf.symm.trans hv) (by simp),
    fun hts => ⟨fun j => ?_, (hi hts).cur, (hi hts).granted⟩, hst, hd, hcl⟩ <;> obtain rfl | hne := eq_or_ne j id
  · simpa using recall_ok (hr j) hq
  · simpa [hne] using hr j
  · refine Iff.trans ?_ (hc j i hj)
    simp only [Function.update_self, hslot]
    split
    next e => rw [e.1, hq]; decide
    · exact Iff.rfl
  · simpa [hne] using hc j i hj
  · have hnone := (hi hts).queued j
    simp [Ring.recall, hnone]
  · simpa [hne] using (hi hts).queued j

/-- A hand-off fetched for the HOST slot at its ring's intake index (R95). -/
theorem PlanView.Ok.fetched {v : PlanView} {id : RingId} {slot : Nat} (h : v.Ok) (hs : slot = (v.ring id).intake)
    (hv : ((v.ring id).slot slot).view = .host) : PlanView.Ok { v with fetch := some (id, slot) } := by
  obtain ⟨hr, hsl, hc, -, hi, hst, hd, hcl⟩ := h
  refine ⟨hr, hsl, hc, fun j i e => ?_, fun hts => ⟨(hi hts).queued, (hi hts).cur, (hi hts).granted⟩, hst, hd, hcl⟩
  obtain ⟨rfl, rfl⟩ : id = j ∧ slot = i := by simpa using e
  exact ⟨hs, hv⟩

theorem PathFree.view {c : Chip} (h : PathFree c) : (planView c).fetch = none := by simp [planView, h.fetch]

theorem served_next_of_taken {c d : Chip} (h : PathFree c) (k : Taken (pathView c) d) :
    Served d ∧ d.bus.next = c.bus.next := ⟨(h.taken k).1.served, (h.taken k).2⟩

theorem served_writeSlot {c : Chip} (h : PathFree c) (hh : ∃ x, c.bus.host = some x) (id : RingId) (slot word : Nat)
    (w : Word) (be : Enables) :
    Served (writeSlot id slot word w be c) ∧ (writeSlot id slot word w be c).bus.next = c.bus.next := by
  have hlaid : Laid (pathView c) c := ⟨h.plan, rfl⟩
  have hdrop (n t : Nat) := served_next_of_taken h (taken_dropWrite (laid_postWriteDropped hlaid 1 n t))
  unfold writeSlot
  dsimp only
  split
  next hv =>
    split
    · split
      next hin =>
        obtain ⟨x, hx⟩ := hh
        refine ⟨⟨h.plan.fetched (id := id) hin hv, fun _ => ⟨{ x with phase := .screening }, ?_, rfl⟩,
          fun a y d b z e => absurd e (h.port a y d b z)⟩, rfl⟩
        simp [hostPhase, hx]
      · exact served_next_of_taken h (taken_release (laid_postNotice (laid_postEvent hlaid ..) _) ..)
    · exact served_next_of_taken h (taken_release hlaid ..)
  next hv =>
    split
    next hr =>
      have hrec : Laid (pathView c) (onPln (fun p => p.withRing id (c.pln.ring id).recall) c) :=
        laid_of_view (h.plan.recalled h.view (hr.2.2 ▸ hv)) (planView_withRing c id _ c.pln.list)
          (pathView_withRing c id _ c.pln.list)
      exact served_next_of_taken h (taken_release hrec ..)
    · exact hdrop ..
  next => exact hdrop ..

end Sys2Proof.Supervision

namespace Sys2Proof.Supervision

open Sys2Proof Sys2Proof.Machine Sys2Proof.Laws Sys2Proof.TapePath

/-! ### The host's cycles -/

variable {c : Chip}

theorem served_windowWrite (h : PathFree c) (hh : ∃ x, c.bus.host = some x) (off : Nat) (w : Word) (be : Enables) :
    Served (windowWrite off w be c) ∧ (windowWrite off w be c).bus.next = c.bus.next := by
  have hlaid : Laid (pathView c) c := ⟨h.plan, rfl⟩
  unfold windowWrite
  split
  · exact served_writeSlot h hh ..
  · refine served_next_of_taken h ?_
    split
    · exact taken_release (laid_beat hlaid) ..
    split
    · exact taken_release (laid_ntc hlaid _) ..
    split
    · exact taken_release (laid_ntc hlaid _) ..
    split
    · exact taken_writeTrim hlaid ..
    split
    · exact taken_writeConsumed hlaid ..
    split
    · exact taken_writeCommand hlaid ..
    split
    · exact taken_writeImage hlaid ..
    split
    · exact taken_dropWrite (laid_postWriteDropped hlaid ..)
    · exact taken_release hlaid ..

theorem served_classify (h : PathFree c) : Served (classify c) ∧ (classify c).bus.next = c.bus.next := by
  have hlaid : Laid (pathView c) c := ⟨h.plan, rfl⟩
  unfold classify
  split
  · exact ⟨h.served, rfl⟩
  next x hx =>
    unfold classifyAt
    split
    · exact served_next_of_taken h (taken_release hlaid ..)
    split
    · exact served_next_of_taken h (taken_disposeLive hlaid ..)
    split
    · exact served_next_of_taken h (taken_hostPhase hlaid _)
    split
    · exact served_next_of_taken h (taken_disposeStartup hlaid _)
    unfold disposeRunning
    split
    · exact served_windowWrite h ⟨x, hx⟩ ..
    · exact served_next_of_taken h (taken_release hlaid ..)

theorem sound_of_next {d : Chip} (h : Served d) (hn : d.bus.next = none) : Sound d := ⟨h, fun e => absurd hn e⟩

/-- A cycle driven at an empty port, with none to follow it. -/
theorem sound_driveCycle (h : PathFree c) (hn : c.bus.next = none) (cy : HostCyc) : Sound (driveCycle cy c) := by
  have hport (ph : HostPhase) : PathFree (onBus (fun b => { b with host := some ⟨cy, ph⟩, done := .none }) c) :=
    ⟨h.plan, h.fetch, h.port⟩
  unfold driveCycle
  split
  · exact sound_of_next (hport _).served hn
  all_goals
    obtain ⟨hs, hnext⟩ := served_classify (hport .held)
    exact sound_of_next hs (hnext.trans hn)

theorem Served.free_of_none (h : Served c) (hh : c.bus.host = none) : PathFree c :=
  h.free fun x hx => by simp [hh] at hx

theorem sound_startCycle (h : Sound c) (cy : HostCyc) : Sound (startCycle cy c) := by
  unfold startCycle
  split
  next x hx => exact ⟨⟨h.plan, h.fetch, h.port⟩, fun _ => by simp [Bus.queueNext, hx]⟩
  next hh => exact sound_driveCycle (h.free_of_none hh) (by by_contra hn; exact h.next hn hh) cy

theorem sound_driveNext (h : Served c) : Sound (driveNext c) := by
  unfold driveNext
  split
  next hh _ =>
    have hfree := h.free_of_none hh
    exact sound_driveCycle (c := onBus (fun b => { b with next := none, prior := b.done }) c)
      ⟨hfree.plan, hfree.fetch, hfree.port⟩ rfl _
  next hno =>
    refine ⟨h, fun hn hh => ?_⟩
    obtain ⟨cy, hcy⟩ := Option.ne_none_iff_exists'.mp hn
    exact hno cy hh hcy

/-! ### The end of a command, and the memory port -/

theorem sound_tail (h : Sound c) : Sound (tail c) := sound_of_laid h (laid_tail (laid_refl h.toServed))

/-- A host cycle is granted where one is ready or bypassed, which is no cycle held to be screened. -/
theorem hostNext_phase {cy : Machine.Cycle} (h : hostNext? c = some cy) :
    ∃ x, c.bus.host = some x ∧ x.phase ≠ .screening := by
  unfold hostNext? at h
  split at h
  next x hx =>
    refine ⟨x, hx, fun hp => ?_⟩
    rw [hp] at h
    cases h
  · cases h

theorem granted_host {a : Nat} {w : Bool} {d : Word} {b : Enables} {y : Bool}
    (h : granted? c = some (.host a w d b y)) : hostNext? c = some (.host a w d b y) := by
  have hhand : HandFetch.next? c ≠ some (.host a w d b y) := by
    unfold HandFetch.next?
    split
    · split <;> simp
    · simp
  have hmail : mailNext? c ≠ some (.host a w d b y) := by
    unfold mailNext?
    split <;> simp
  have hsweep : sweepNext? c ≠ some (.host a w d b y) := by
    unfold sweepNext?
    split
    · split <;> simp
    · simp
  simp only [granted?, Option.or_eq_some_iff, hhand, hmail, hsweep, false_or] at h
  obtain ⟨-, -, -, h⟩ := h
  split at h
  next hn _ => rwa [hn]
  next hn _ =>
    split at h
    · rwa [hn]
    · cases h
  · split at h <;> cases h
  · cases h

theorem sound_arbitrate (h : Sound c) : Sound (arbitrate c) := by
  unfold arbitrate
  split
  · exact h
  next hport =>
    split
    next cy hcy =>
      by_cases hhost : ∃ a w d b y, cy = .host a w d b y
      · obtain ⟨a, w, d, b, y, rfl⟩ := hhost
        obtain ⟨x, hx, hp⟩ := hostNext_phase (granted_host hcy)
        refine ⟨⟨h.plan, fun hf => ?_, fun _ _ _ _ _ _ => ⟨x.atPort, ?_, rfl⟩⟩, fun _ => ?_⟩
        · obtain ⟨z, hz, hs⟩ := h.fetch hf
          rw [hx] at hz
          cases hz
          exact absurd hs hp
        · simp [Bus.grant, hx]
        · simp [Bus.grant, hx]
      · have hgrant : c.bus.grant cy = { c.bus with port := some cy } := by
          cases cy
          case host => exact absurd ⟨_, _, _, _, _, rfl⟩ hhost
          all_goals rfl
        rw [show onBus (·.grant cy) c = { c with bus := { c.bus with port := some cy } } by simp only [onBus, hgrant]]
        refine ⟨⟨h.plan, h.fetch, fun a w d b y e => ?_⟩, h.next⟩
        exact absurd ⟨a, w, d, b, y, Option.some.inj e⟩ hhost
    · exact h

theorem sound_done (h : Sound c) : Sound (done c) := sound_arbitrate (sound_tail h)

/-- A command whose own work leaves the path. -/
theorem sound_done_of_laid {d : Chip} (h : Sound c) (k : Laid (pathView c) d) : Sound (done d) :=
  sound_done (sound_of_laid h k)

theorem sound_heldReleaseStep (h : Sound c) : Sound (heldReleaseStep c) := by
  unfold heldReleaseStep
  split
  next x hx =>
    split
    next hp =>
      refine sound_driveNext (served_classify (h.free fun z hz => ?_)).1
      rw [hx] at hz
      cases hz
      rw [hp.1]
      decide
    · exact h
  · exact h

/-! ### The screen (R95, R99, R100) -/

theorem screen_takesPlan {r : Record} {a : Bool} (h : screen c r a = none) : c.sup.ts.carriesPlan := by
  unfold screen at h
  cases ht : c.sup.ts <;> simp_all [TState.takesPlan, TState.carriesPlan]

theorem PlanView.Ok.unfetched {v : PlanView} (h : v.Ok) : PlanView.Ok { v with fetch := none } := by
  obtain ⟨hr, hs, hc, -, hi, hst, hd, hcl⟩ := h
  exact ⟨hr, hs, hc, nofun, fun hts => ⟨(hi hts).queued, (hi hts).cur, (hi hts).granted⟩, hst, hd, hcl⟩

/-- A hand-off accepted at its ring's intake index (R93, R99). -/
theorem PlanView.Ok.accepted {v : PlanView} {id : RingId} (h : v.Ok) (hf : v.fetch = none) (ht : v.ts.carriesPlan)
    (hv : ((v.ring id).slot (v.ring id).intake).view = .host) (r : Record) :
    PlanView.Ok { v with ring := Function.update v.ring id ((v.ring id).accept r) } := by
  obtain ⟨hr, hs, hc, -, -, hst, hd, hcl⟩ := h
  have hslot (k : Nat) : ((v.ring id).accept r).slot k = if k = (v.ring id).intake ∧
      (v.ring id).intake < (v.ring id).slots.length then ⟨.queued, some r⟩ else (v.ring id).slot k := slot_withSlot ..
  refine ⟨fun j => ?_, hs, fun j i hj => ?_, fun j i e => absurd (hf.symm.trans e) (by simp), fun hn => absurd ht hn, hst, hd,
    hcl⟩ <;> obtain rfl | hne := eq_or_ne j id
  · simpa using accept_ok (hr j) hv r
  · simpa [hne] using hr j
  · refine Iff.trans ?_ (hc j i hj)
    simp only [Function.update_self, hslot]
    split
    next e => simp [e.1, hv]
    · exact Iff.rfl
  · simpa [hne] using hc j i hj

theorem laid_accept {p : PathView} {id : RingId} (h : Laid p c) (hf : c.pln.fetch = none) (ht : c.sup.ts.carriesPlan)
    (hv : ((c.pln.ring id).slot (c.pln.ring id).intake).view = .host) (r : Record) :
    Laid p (onPln (fun p => p.withRing id ((p.ring id).accept r)) c) :=
  laid_of_view (h.ok.accepted (by simp [planView, hf]) ht hv r) (planView_withRing c id _ c.pln.list)
    ((pathView_withRing c id _ c.pln.list).trans h.path)

theorem accept_queued (id : RingId) (r : Record) (c : Chip) :
    ((onPln (fun p => p.withRing id ((p.ring id).accept r)) c).pln.ring id).queued ≠ 0 := by
  simp [ring_withRing, Ring.accept]

theorem sound_screenStep (h : Sound c) : Sound (screenStep c) := by
  unfold screenStep
  split
  next f hf =>
    split
    · obtain ⟨x, hx, hp⟩ := h.fetch (by simp [hf])
      have hport (a : Nat) (w : Bool) (d : Word) (b : Enables) (y : Bool) : c.bus.port ≠ some (.host a w d b y) := fun e => by
        obtain ⟨z, hz, hs⟩ := h.port a w d b y e
        rw [hx] at hz
        cases hz
        rw [hp] at hs
        cases hs
      obtain ⟨hslot, hview⟩ := h.plan.fetch f.ring f.slot (by simp [planView, hf])
      have hfree : PathFree (onPln (fun p => { p with fetch := none }) c) := ⟨h.plan.unfetched, rfl, hport⟩
      have hhost (w : Word) (be : Enables) {d : Chip} (hd : d.bus.host = some x) : (release w be d).bus.host ≠ none := by
        simp [release, hostPhase, hd]
      unfold screenDecided
      dsimp only
      split
      next code _ =>
        have hpost : Laid (pathView (onPln (fun p => { p with fetch := none }) c))
            (postRefused f.ring f.slot code f.record.tag (onPln (fun p => { p with fetch := none }) c)) :=
          laid_postNotice (laid_postEvent ⟨hfree.plan, rfl⟩ ..) _
        refine ⟨(served_next_of_taken hfree (taken_release hpost _ _)).1, fun _ => hhost _ _ ?_⟩
        simpa [postRefused] using hx
      next hs =>
        have hrel (w : Word) (be : Enables) : Sound (release w be (onPln (fun p => { p with fetch := none }) c)) :=
          ⟨(served_next_of_taken hfree (taken_release ⟨hfree.plan, rfl⟩ ..)).1, fun _ => hhost _ _ hx⟩
        refine sound_of_laid (hrel ..) (laid_gained (laid_accept (laid_refl (hrel ..).toServed) rfl (screen_takesPlan hs)
          (hslot ▸ hview) _) ?_)
        exact accept_queued _ _ _
    · exact h
  · exact h

end Sys2Proof.Supervision

namespace Sys2Proof.Supervision

open Sys2Proof Sys2Proof.Machine Sys2Proof.Laws Sys2Proof.TapePath

variable {c : Chip}

/-! ### The memory port (R158 to R161) -/

theorem sound_driveOn (h : Served c) : Sound (driveOn c) := by
  unfold driveOn
  split
  · exact sound_tail (sound_driveNext h)
  next hno =>
    refine ⟨h, fun hn hh => ?_⟩
    obtain ⟨cy, hcy⟩ := Option.ne_none_iff_exists'.mp hn
    exact hno cy hh hcy

theorem laid_beginStartup {p : PathView} (h : Laid p c) (w : BitVec 4) : Laid p (beginStartup w c) :=
  laid_postWrites (c := { c with
    mode := .startup
    clock := 0
    bus := { c.bus with winsel := w, startCount := c.bus.startCount + 1, ending := none } }) ⟨h.ok, h.path⟩ ..

theorem laid_bypassEnds {p : PathView} (h : Laid p c) : Laid p (bypassEnds c) := by
  unfold bypassEnds
  split
  · split
    · exact laid_beginStartup h _
    · exact h
  · exact h

/-- What follows the end of a memory cycle. -/
theorem sound_afterCycle (h : Served c) : Sound (arbitrate (driveOn (bypassEnds c))) :=
  sound_arbitrate (sound_driveOn (served_of_laid h (laid_bypassEnds (laid_refl h))))

theorem served_freePort (h : Served c) : Served (freePort c) := ⟨h.plan, h.fetch, nofun⟩

theorem laid_handRead {p : PathView} (h : Laid p c) (k : Nat) (w : Word) (b : Bool) : Laid p (handRead k w b c) := by
  have hring : (handRead k w b c).pln.ring = c.pln.ring := by
    funext id
    cases id <;> rfl
  refine h.alike ⟨?_, ?_⟩
  · rw [planView, hring]
    simp [planView, handRead, Option.map_map, Function.comp_def]
  · simp [pathView, handRead]

theorem laid_queueHeadGone {p : PathView} (h : Laid p c) : Laid p (queueHeadGone c) := ⟨h.ok, h.path⟩

theorem laid_sweepRead {p : PathView} (h : Laid p c) (n : Nat) (w : Word) : Laid p (sweepRead n w c) := by
  have hnext : Laid p (onPln (fun p => { p with sweep := some (n + 1) }) c) := ⟨h.ok, h.path⟩
  unfold sweepRead
  dsimp only
  split
  · exact hnext.alike (alike_postWrite ..)
  · exact hnext

theorem laid_postMemoryFault {p : PathView} (h : Laid p c) (d n : Nat) : Laid p (postMemoryFault d n c) :=
  laid_postNotice (laid_postEvent h ..) _

/-- The host's command write is released where it waits for its fetch, and no hand-off then is screened. -/
theorem served_releaseCommand (h : Served c) (hp : c.bus.port = none) :
    Served (releaseCommand c) ∧ (releaseCommand c).bus.port = none := by
  unfold releaseCommand
  split
  next x hx =>
    split
    next hph =>
      refine ⟨⟨h.plan, fun hf => ?_, fun a w d b y e => ?_⟩, hp⟩
      · obtain ⟨z, hz, hs⟩ := h.fetch hf
        rw [hx] at hz
        cases hz
        rw [hph] at hs
        cases hs
      · have e' : c.bus.port = some (.host a w d b y) := e
        rw [hp] at e'
        cases e'
    · exact ⟨h, hp⟩
  · exact ⟨h, hp⟩

theorem served_fetchJudged (h : Served c) (hp : c.bus.port = none) : Served (fetchJudged c) := by
  unfold fetchJudged
  split
  · exact h
  next cmd _ =>
    have hrel := (served_releaseCommand h hp).1
    have hl := laid_refl hrel
    dsimp only
    split
    · exact served_of_laid hrel (laid_reply hl ..)
    · split
      · exact served_of_laid hrel (laid_reply hl ..)
      · exact served_of_laid hrel (laid_onMbx hl _)

theorem served_mailRead (h : Served c) (hp : c.bus.port = none) (w : Word) (b : Bool) : Served (mailRead w b c) := by
  have hmail := served_of_laid h (laid_onMbx (laid_refl h) fun m => { m with
    todo := m.todo.tail, got := m.got ++ [w], aborted := m.aborted || b })
  unfold mailRead
  dsimp only
  split
  · exact served_fetchJudged hmail hp
  · exact hmail

/-- A host cycle at the memory port ends: none is fetched behind it. -/
theorem served_completeHost (h : Served c) {a : Nat} {w : Bool} {d : Word} {b : Enables} {y : Bool}
    (hp : c.bus.port = some (.host a w d b y)) (x : HostDone) (n : Nat) :
    Served (completeHost x { freePort c with free := n }) := by
  obtain ⟨z, hz, hs⟩ := h.port a w d b y hp
  refine ⟨h.plan, fun hf => ?_, nofun⟩
  obtain ⟨z', hz', hs'⟩ := h.fetch hf
  rw [hz] at hz'
  cases hz'
  rw [hs] at hs'
  cases hs'

theorem served_cycleDone (h : Served c) {cy : Machine.Cycle} (hp : c.bus.port = some cy) (w : Word) :
    Served (cycleDone cy w (freePort c)) := by
  have hfree := served_freePort h
  have hl := laid_refl hfree
  cases cy with
  | host a wr d b y => exact served_completeHost h hp _ c.free
  | part => exact served_of_laid hfree (laid_queueHeadGone hl)
  | handRead => exact served_of_laid hfree (laid_handRead hl ..)
  | mailRead => exact served_mailRead hfree rfl ..
  | sweepRead => exact served_of_laid hfree (laid_sweepRead hl ..)
  | orphanWrite => exact hfree
  | orphanRead => exact hfree

theorem served_cycleAborted (h : Served c) {cy : Machine.Cycle} (hp : c.bus.port = some cy) :
    Served (cycleAborted cy (freePort c)) := by
  have hfree := served_freePort h
  have hl := laid_refl hfree
  cases cy with
  | host a wr d b y =>
    have hend := served_completeHost h hp (if wr then .wrote else .read 0xFFFFFFFF) (if wr then c.free + 1 else c.free)
    exact served_of_laid hend (laid_postMemoryFault (laid_refl hend) ..)
  | part a w =>
    unfold cycleAborted
    dsimp only
    split
    · exact served_of_laid hfree (laid_postNotice (laid_queueHeadGone hl) _)
    · exact served_of_laid hfree (laid_postMemoryFault (laid_queueHeadGone hl) ..)
  | handRead => exact served_of_laid hfree (laid_postMemoryFault (laid_handRead hl ..) ..)
  | mailRead a =>
    have hpost := laid_postMemoryFault hl faultFetchRead (Machine.Cycle.mailRead a).addr
    exact served_mailRead (served_of_laid hfree hpost) (by simp [freePort]) ..
  | sweepRead a n =>
    have hnext : Laid (pathView (freePort c)) (onPln (fun p => { p with sweep := some (n + 1) }) (freePort c)) :=
      ⟨hl.ok, hl.path⟩
    exact served_of_laid hfree (laid_postMemoryFault hnext ..)
  | orphanWrite => exact hfree
  | orphanRead => exact hfree

/-! ### The lists -/

theorem laid_join {p : PathView} (h : Laid p c) (ws : List PartWrite) : Laid p (onBus (·.join ws) c) := ⟨h.ok, h.path⟩

theorem laid_slotPassStep {p : PathView} (h : Laid p c) : Laid p (slotPassStep c) := by
  unfold slotPassStep
  split
  next rest _ =>
    have hrest : Laid p (onPln (fun p => { p with list := rest }) c) := ⟨h.ok, h.path⟩
    split
    · exact laid_join hrest _
    · exact h
  · exact h

theorem laid_cuePassStep {p : PathView} (h : Laid p c) : Laid p (cuePassStep c) := by
  unfold cuePassStep
  split
  · split
    · exact laid_join (laid_cue h _) _
    · exact h
  · exact h

theorem laid_joinStep {p : PathView} (h : Laid p c) (k : Poster) : Laid p (joinStep k c) := by
  unfold joinStep
  split
  next rest _ =>
    have hrest : Laid p (withWaiting k rest c) := by cases k <;> exact ⟨h.ok, h.path⟩
    split
    · exact laid_join hrest _
    · exact h
  · exact h

/-! ### The resets -/

theorem reset_view : (planView Chip.reset).Ok := ((planOk_iff _).mp reset_planOk).1

/-- A part in the power-on reset, whatever the always-on domain holds. -/
theorem sound_powerOnChip (x : Pins) (c : Chip) : Sound (powerOnChip x c) := ⟨⟨reset_view, nofun, nofun⟩, nofun⟩

theorem orphaned_host {cy : Machine.Cycle} {a : Nat} {w : Bool} {d : Word} {b : Enables} {y : Bool}
    (h : cy.orphaned = .host a w d b y) : cy = .host a w d b y := by
  cases cy <;> simp_all [Cycle.orphaned]

theorem sound_assertResetStep (h : Sound c) : Sound (assertResetStep c) := by
  unfold assertResetStep
  split
  · exact ⟨⟨h.plan, h.fetch, h.port⟩, h.next⟩
  · refine sound_arbitrate ⟨⟨reset_view, nofun, fun a w d b y e => ?_⟩, fun hn => ?_⟩
    · obtain ⟨cy, hcy, ho⟩ := Option.map_eq_some_iff.mp e
      obtain ⟨x, hx, hp⟩ := h.port a w d b y (orphaned_host ho ▸ hcy)
      exact ⟨x, by simp [Bus.assertReset, HostPort.bypass, hx, hp], hp⟩
    · simpa [Bus.assertReset] using h.next hn

theorem sound_releaseResetStep (h : Sound c) (w : Release) : Sound (releaseResetStep w c) := by
  unfold releaseResetStep
  split
  · have hend : Laid (pathView c) (onBus (fun b => { b with ending := some w.winsel })
        (onSet (fun s => { s with coming := w.coming }) c)) := ⟨h.plan, rfl⟩
    exact sound_arbitrate (sound_of_laid h (laid_bypassEnds hend))
  · exact h

/-! ### Every command -/

theorem sound_whenRun (h : Sound c) (n : Byte) {f : Chip → Chip} (hf : Laid (pathView c) (f c)) : Sound (whenRun n f c) := by
  unfold whenRun
  split
  · exact sound_done_of_laid h hf
  · exact h

theorem sound_arbitrate_of_laid {d : Chip} (h : Sound c) (k : Laid (pathView c) d) : Sound (arbitrate d) :=
  sound_arbitrate (sound_of_laid h k)

theorem sound_hostStep (h : Sound c) (cy : HostCyc) : Sound (hostStep cy c) := sound_done (sound_startCycle h cy)

/-- Every command keeps the laws of the plan and of the path. -/
theorem exec_sound (i : Instr) {s t : State} (hs : Sound s.chip) (h : exec i s = .next t) : Sound t.chip := by
  have hl := laid_refl hs.toServed
  have hw (o : Nat) (w : Word) (be : Enables) : Sound (hostWriteStep o w be s.chip) := sound_hostStep hs _
  cases i <;> simp only [exec] at h <;> injection h with h <;> subst h
  case powerOn x => exact sound_powerOnChip x s.chip
  case resetNAsserted => exact sound_assertResetStep hs
  case resetNReleased w => exact sound_releaseResetStep hs w
  case settingsLoad => exact sound_arbitrate_of_laid hs (laid_loadStep hl)
  case supervisorStart => exact sound_done_of_laid hs (laid_startStep hl)
  case carryExpiry => exact sound_of_laid hs (laid_carryExpiryStep hl)
  case recoverySweepRead =>
    unfold sweepStep
    split
    · have hfree : Sound (freePort s.chip) := ⟨served_freePort hs.toServed, hs.next⟩
      exact sound_arbitrate_of_laid hfree (laid_sweepRead (laid_refl hfree.toServed) ..)
    · exact hs
  case startupEnd => exact sound_done_of_laid hs (laid_startupEndStep hl)
  case rollerCount d => exact sound_done_of_laid hs (laid_rollStep hl d)
  case tachPulse x => exact sound_done_of_laid hs (laid_onTrk hl _)
  case capstanPulse => exact sound_of_laid hs (laid_onDrive hl fun d => { d with capWin := bumpNat d.capWin })
  case speedWindowTick => exact sound_done_of_laid hs (laid_tickStep hl)
  case pathSensorPresent => exact sound_of_laid hs (laid_pathPresentStep hl)
  case pathDebounceExpiry => exact sound_done_of_laid hs (laid_debounceStep hl)
  case pathAbsent => exact sound_done_of_laid hs (laid_pathAbsentStep hl)
  case endSensorLeader b => exact sound_done_of_laid hs (laid_endSensorStep hl b)
  case armSample x v => exact sound_done_of_laid hs (laid_armStep hl x v)
  case powerFail => exact sound_done_of_laid hs (laid_powerFailStep hl)
  case driveFault x => exact sound_done_of_laid hs (laid_driveFaultStep hl x)
  case fltCap => exact sound_done_of_laid hs (laid_fltCapStep hl)
  case faultInputReleased => exact sound_of_laid hs (laid_pins hl _)
  case breakTimerExpiry => exact sound_done_of_laid hs (laid_breakStep hl)
  case excursionTimerExpiry => exact sound_done_of_laid hs (laid_excursionStep hl)
  case settleTimerExpiry => exact sound_done_of_laid hs (laid_settleStep hl)
  case slackReferenceZero => exact sound_done_of_laid hs (laid_slackZeroStep hl)
  case offDelayExpiry => exact sound_done_of_laid hs (laid_offDelayStep hl)
  case pinchMovementEnd => exact sound_done_of_laid hs (laid_pinchStep hl)
  case referenceSpeedUpdate => exact sound_done_of_laid hs (laid_referenceStep hl)
  case durationTimerExpiry => exact sound_done_of_laid hs (laid_durationStep hl)
  case starveTimerExpiry => exact sound_done_of_laid hs (laid_starveStep hl)
  case handOffScreen => exact sound_done (sound_screenStep hs)
  case slotWriteListPass => exact sound_arbitrate_of_laid hs (laid_slotPassStep hl)
  case cueWriteListPass => exact sound_arbitrate_of_laid hs (laid_cuePassStep hl)
  case silenceTimerExpiry => exact sound_done_of_laid hs (laid_silenceStep hl)
  case eventAppend => exact sound_arbitrate_of_laid hs (laid_appendStep hl)
  case heldCycleRelease => exact sound_done (sound_heldReleaseStep hs)
  case writeJoinsQueue k => exact sound_arbitrate_of_laid hs (laid_joinStep hl k)
  case memoryCycleDone =>
    unfold memoryDoneStep
    split
    next hp => exact sound_afterCycle (served_cycleDone hs.toServed hp _)
    · exact hs
  case memoryResponseLimit =>
    unfold memoryLimitStep
    split
    next hp =>
      split
      · exact hs
      · exact sound_afterCycle (served_cycleAborted hs.toServed hp)
    · exact hs
  case tensionUp => exact sound_whenRun hs _ (laid_tensionUpStep hl)
  case slackDown => exact sound_whenRun hs _ (laid_slackDownStep hl)
  case requestGrant => exact sound_whenRun hs _ (laid_requestGrantStep hl)
  case dropGrant => exact sound_whenRun hs _ (laid_dropGrantStep hl)
  case setCue => exact sound_whenRun hs _ (laid_setCueStep hl)
  case clearCue => exact sound_whenRun hs _ (laid_clearCueStep hl)
  case setPosition => exact sound_whenRun hs _ (laid_setPositionStep hl)
  case clearFault => exact sound_whenRun hs _ (laid_clearFaultStep hl)
  case openSettings => exact sound_whenRun hs _ (laid_reply (laid_onSet hl _) ..)
  case closeSettings => exact sound_whenRun hs _ (laid_reply (laid_onSet hl _) ..)
  case saveSettings => exact sound_whenRun hs _ (laid_admitStore hl _)
  case saveComplete => exact sound_done_of_laid hs (laid_saveCompleteStep hl)
  case reloadSettings => exact sound_whenRun hs _ (laid_admitStore hl _)
  case reloadStoreRead => exact sound_done_of_laid hs (laid_reloadReadStep hl)
  case mailboxReply => exact sound_done_of_laid hs (laid_replyStep hl)
  case liveWindowRead | groupHeadRead | hostCycle => exact sound_hostStep hs _
  all_goals exact hw ..

/-- Settles O7: every command keeps the laws of the plan and of the path, which are kept part by part: the supervisor, the
grant unit, the intake and the engine within a command (`Laid`), the host's cycle and the memory port by the path's own
operations (`Served`, `Sound`). -/
theorem stepKeepsPlan : Obligations.StepKeepsPlan := by
  intro s t hs h
  rw [planOk_iff_sound] at hs ⊢
  unfold step at h
  split at h
  · cases h
    exact hs
  next i rest _ => exact exec_sound i (s := s.popped rest) hs h

end Sys2Proof.Supervision

namespace Sys2Proof.Supervision

open Sys2Proof Sys2Proof.Machine Sys2Proof.Laws Sys2Proof.TapePath

/-! ## The end of a command (R24, R25, R67, R118) -/

variable {c : Chip}

/-- The part with the mark and the lifters judged, as the tension reference and the torques find it. -/
def judged (c : Chip) : Chip := askLifters (markClipped c)

theorem arbitrate_frame (c : Chip) : (arbitrate c).sup = c.sup ∧ (arbitrate c).drv = c.drv ∧ (arbitrate c).eng = c.eng := by
  rw [arbitrate_eq]
  exact ⟨rfl, rfl, rfl⟩

theorem done_eq (hu : c.sup.up = true) : done c = arbitrate (formTorques (retarget (judged c))) := by
  simp only [done, tail, hu, if_true, judged]

theorem done_down (hu : c.sup.up = false) : done c = arbitrate c := by
  simp [done, tail, hu]

theorem judged_eq (c : Chip) : ∃ p, judged c = { c with
    drv := { c.drv with lifters := p }
    eng := { c.eng with cur := c.eng.cur.map fun g => { g with clipped := g.clipped || clips c g } } } := by
  obtain ⟨p, hp⟩ := askLifters_drv (markClipped c)
  exact ⟨p, hp⟩

theorem windCurrent_judged (c : Chip) : (judged c).windCurrent = c.windCurrent := by
  obtain ⟨p, hp⟩ := judged_eq c
  rw [hp]
  cases hc : c.eng.cur <;> simp [Chip.windCurrent, hc]

theorem tensionGoal_judged (c : Chip) : tensionGoal (judged c) = tensionGoal c := by
  have hw := windCurrent_judged c
  obtain ⟨p, hp⟩ := judged_eq c
  rw [hp] at hw ⊢
  simp only [tensionGoal, hw]
  rfl

theorem judged_sup (c : Chip) : (judged c).sup = c.sup := by
  obtain ⟨p, hp⟩ := judged_eq c
  rw [hp]

theorem retarget_eq (c : Chip) : ∃ t, retarget c = { c with sup := { c.sup with tension := t } } := by
  unfold retarget
  split
  · split <;> exact ⟨_, rfl⟩
  · exact ⟨_, rfl⟩

theorem retarget_drv (c : Chip) : (retarget c).drv = c.drv := by
  obtain ⟨t, ht⟩ := retarget_eq c
  rw [ht]

theorem formTorques_sup (c : Chip) : (formTorques c).sup = c.sup := by
  unfold formTorques
  split <;> rfl

/-- The tension reference a command's end leaves (R24). -/
theorem done_tension (hu : c.sup.up = true) : (done c).sup.tension = match tensionGoal c with
    | some v => if c.sup.tension.goal = v then c.sup.tension else c.sup.tension.moveTo v
    | none => c.sup.tension := by
  rw [done_eq hu, (arbitrate_frame _).1, formTorques_sup]
  unfold retarget
  rw [tensionGoal_judged]
  cases tensionGoal c with
  | none => rw [judged_sup]
  | some v =>
    simp only [judged_sup]
    split
    · rw [judged_sup]
    · simp [judged_sup]

/-- Where the part listens, a reel in TORQUE is given the torque of the reference as it then stands (R25). -/
theorem done_reel (hu : c.sup.up = true) (hc : c.drv.carry = .none) (r : Reel) :
    (done c).drv.reel r = (c.drv.reel r).torqued (torqueOf (retarget (judged c)) r) := by
  have hl : (retarget (judged c)).listens = true := by
    obtain ⟨t, ht⟩ := retarget_eq (judged c)
    obtain ⟨p, hp⟩ := judged_eq c
    rw [ht, hp]
    simp [Chip.listens, hu, hc]
  have hd : (retarget (judged c)).drv.reel r = c.drv.reel r := by
    obtain ⟨p, hp⟩ := judged_eq c
    rw [retarget_drv, hp]
    cases r <;> rfl
  rw [done_eq hu, (arbitrate_frame _).2.1, formTorques, if_pos hl, ← hd]
  cases r <;> rfl

/-- What the torques are formed from is what stands after the command, but for the free counter. -/
theorem torque_basis (hu : c.sup.up = true) : (retarget (judged c)).sup = (done c).sup ∧ (retarget (judged c)).trk = c.trk ∧
    (retarget (judged c)).profile = c.profile ∧ (retarget (judged c)).eng.ref = c.eng.ref ∧
    (retarget (judged c)).sup.ts = c.sup.ts ∧ (retarget (judged c)).drv.capRun = c.drv.capRun ∧
    (retarget (judged c)).drv.pinch = c.drv.pinch := by
  have hsup : (retarget (judged c)).sup = (done c).sup := by rw [done_eq hu, (arbitrate_frame _).1, formTorques_sup]
  refine ⟨hsup, ?_⟩
  obtain ⟨t, ht⟩ := retarget_eq (judged c)
  obtain ⟨p, hp⟩ := judged_eq c
  rw [ht, hp]
  exact ⟨rfl, rfl, rfl, rfl, rfl, rfl⟩

/-- A part that does not listen keeps its outputs. -/
theorem done_deaf (h : c.listens = false) : (done c).drv = c.drv := by
  cases hu : c.sup.up
  · rw [done_down hu, (arbitrate_frame _).2.1]
  · have hdeaf (d : Chip) (hs : d.sup.up = c.sup.up) (hd : d.drv.carry = c.drv.carry) : d.listens = false := by
      rw [← h, Chip.listens, Chip.listens, hs, hd]
    have hj : (judged c).drv = c.drv := by
      unfold judged askLifters
      rw [hdeaf (markClipped c) rfl rfl]
      split <;> rfl
    have hl : (retarget (judged c)).listens = false := hdeaf _ ((torque_basis hu).1 ▸ done_up c) (by rw [retarget_drv, hj])
    rw [done_eq hu, (arbitrate_frame _).2.1, formTorques, if_neg (by simp [hl]), retarget_drv, hj]

/-! ### What the end changes, and the lifters it asks for (R67, R119) -/

theorem done_sup_tup (c : Chip) (r : Reel) (h : (c.drv.reel r).mode ≠ .torque) : (done c).drv.reel r = c.drv.reel r := by
  cases hl : c.listens
  · rw [done_deaf hl]
  · simp only [Chip.listens, Bool.and_eq_true, beq_iff_eq] at hl
    rw [done_reel hl.1 hl.2, ReelOut.torqued, if_neg h]

/-- The lifters as a command's end leaves them in a part that listens. -/
theorem done_lifters_asked (hu : c.sup.up = true) (hc : c.drv.carry = .none) {p : Lifters}
    (h : lifterOrder (markClipped c) = some p) : (done c).drv.lifters = p := by
  have hl : (markClipped c).listens = true := by
    have hs : (markClipped c).sup = c.sup ∧ (markClipped c).drv = c.drv := ⟨rfl, rfl⟩
    simp [Chip.listens, hs, hu, hc]
  have hj : (judged c).drv.lifters = p := by simp [judged, askLifters, h, hl, orderLifters]
  rw [done_eq hu, (arbitrate_frame _).2.1, formTorques]
  split <;> simp [retarget_drv, hj]

theorem markClipped_cur {g : Seg} (h : c.eng.cur = some g) :
    ∃ b, markClipped c = { c with eng := { c.eng with cur := some { g with clipped := b } } } :=
  ⟨g.clipped || clips c g, by simp only [markClipped, onSeg, onEng, h, Option.map_some]⟩

theorem markClipped_none (h : c.eng.cur = none) : markClipped c = c := by
  obtain ⟨_, _, _, _, _, _, _, _, _, e, _, _, _, _, _, _, _⟩ := c
  obtain ⟨_, cur, _, _, _, _, _, _, _⟩ := e
  cases h
  rfl

/-- Settles O10: the frame is `done_plain`, a part that does not listen keeps its outputs, and the lifters are those that
the rule orders of the marked part. -/
theorem endOfCommand : Obligations.EndOfCommand := by
  refine ⟨fun c => ⟨done_plain c, fun hu => ?_, fun hc => done_deaf ?_, done_sup_tup c .supply, done_sup_tup c .takeup⟩,
    fun c hu hc ht => ⟨fun g hg hk => ?_, fun hrun => ?_⟩⟩
  · rw [done_down hu]
    exact arbitrate_frame c
  · simp [Chip.listens, hc]
  · obtain ⟨b, hb⟩ := markClipped_cur hg
    exact done_lifters_asked hu hc (by simp [hb, lifterOrder, ht, hk])
  · have horder : lifterOrder (markClipped c) = some (lifterRule c) := by
      rcases hrun with ⟨g, hg, hk, hp⟩ | ⟨hg, he⟩
      · obtain ⟨b, hb⟩ := markClipped_cur hg
        rw [hb]
        simp [lifterOrder, ht, hk, hp]
        rfl
      · rw [markClipped_none hg]
        simp [lifterOrder, ht, hg, he]
    rw [done_lifters_asked hu hc horder, lifterRule]
    exact ⟨fun h => if_pos h, fun h => if_neg (by omega)⟩

/-! ## The tension reference (R24) -/

section Ramps

variable {r : Ramp}

theorem value_zero : Ramp.zero.value.1 = 0 := by simp [Ramp.value, Ramp.zero, rampTime]

theorem value_over (h : 250 ≤ r.elapsed) : r.value = (r.goal, 1) := if_pos h

/-- On the way the value is the reduced fraction of the point on the line. -/
theorem value_line (hd : r.den ≠ 0) (h : r.elapsed < 250) : r.value.2 ≠ 0 ∧
    r.value.1 * (r.den * 250) = (r.num * (250 - r.elapsed) + r.goal * r.den * r.elapsed) * r.value.2 := by
  have hv : r.value = ((r.num * (250 - r.elapsed) + r.goal * r.den * r.elapsed) /
      Nat.gcd (r.num * (250 - r.elapsed) + r.goal * r.den * r.elapsed) (r.den * 250), r.den * 250 /
      Nat.gcd (r.num * (250 - r.elapsed) + r.goal * r.den * r.elapsed) (r.den * 250)) :=
    if_neg (by simpa [rampTime] using h)
  generalize r.num * (250 - r.elapsed) + r.goal * r.den * r.elapsed = n at hv ⊢
  have hpos : 0 < r.den * 250 := by positivity
  have hn := Nat.gcd_dvd_left n (r.den * 250)
  have hg := Nat.gcd_dvd_right n (r.den * 250)
  rw [hv]
  refine ⟨(Nat.div_pos (Nat.le_of_dvd hpos hg) (Nat.gcd_pos_of_pos_right _ hpos)).ne', ?_⟩
  rw [Nat.div_mul_right_comm hn, Nat.mul_div_assoc _ hg]

theorem value_den (hd : r.den ≠ 0) : r.value.2 ≠ 0 := by
  by_cases h : 250 ≤ r.elapsed
  · simp [value_over h]
  · exact (value_line hd (by omega)).1

/-- A new movement begins at the value reached. -/
theorem value_moveTo (hd : r.den ≠ 0) (v : Nat) : (r.moveTo v).value.1 * r.value.2 = r.value.1 * (r.moveTo v).value.2 := by
  have hden : (r.moveTo v).den ≠ 0 := value_den hd
  have hline := (value_line hden (Nat.zero_lt_succ 249 : (r.moveTo v).elapsed < 250)).2
  have heq : (r.moveTo v).value.1 * r.value.2 * 250 = r.value.1 * (r.moveTo v).value.2 * 250 := by
    simpa [Ramp.moveTo, mul_assoc, mul_comm, mul_left_comm] using hline
  exact Nat.eq_of_mul_eq_mul_right (by decide) heq

theorem tick_running (h : r.elapsed < 250) : r.tick = { r with elapsed := r.elapsed + 1 } := if_pos h

theorem tick_over (h : 250 ≤ r.elapsed) : r.tick = r := if_neg (by simpa [rampTime] using h)

end Ramps

/-! ## Torques (R25) -/

theorem clampInt_mono (m : Nat) {v w : Int} (h : v ≤ w) : clampInt m v ≤ clampInt m w := by
  unfold clampInt
  omega

theorem clampInt_le (m : Nat) (v : Int) : -(m : Int) ≤ clampInt m v ∧ clampInt m v ≤ (m : Int) := by
  unfold clampInt
  omega

/-- The reels drive the tape: the transport moves it, with no pinched capstan. -/
def reelsDrive (c : Chip) : Bool := c.sup.ts.admitsPinch && !(c.drv.capRun && c.drv.pinch == .pinched)

theorem reelsDrive_iff (c : Chip) : reelsDrive c = true ↔ (c.sup.ts = .moving ∨ c.sup.ts = .stopping ∨
    c.sup.ts = .catching) ∧ ¬ (c.drv.capRun = true ∧ c.drv.pinch = .pinched) := by
  cases hts : c.sup.ts <;> simp [reelsDrive, hts, TState.admitsPinch, imp_iff_not_or]

/-- The torque of the tension alone (R25). -/
def baseTorque (c : Chip) (r : Reel) : Nat := c.sup.tension.value.1 * (c.trk.reel r).radiusOr / c.sup.tension.value.2

/-- The correction by the arm's reading (R25). -/
def armTorque (c : Chip) (r : Reel) : Int :=
  let m := c.trk.reel r
  let size : Int := Config.armCorrection c.free m.arm.toNat (baseTorque c r)
  if 2 * m.arm.toNat < c.profile.low + c.profile.high then size
  else if c.profile.low + c.profile.high < 2 * m.arm.toNat then -size else 0

/-- The bias by which driven reels bring the tape to the reference speed (R25). -/
def packTorque (c : Chip) (r : Reel) : Int :=
  let push : Int := Config.packBias c.free c.eng.ref c.trk.tapeSpeed
  if c.trk.tapeSpeed < c.eng.ref then (if r = .takeup then push else -push)
  else if c.eng.ref < c.trk.tapeSpeed then (if r = .takeup then -push else push) else 0

theorem torqueOf_eq {r : Reel} (h : c.sup.tension.value.1 ≠ 0) : torqueOf c r =
    clampInt (c.profile.maxTension * (c.trk.reel r).radiusOr)
      (baseTorque c r + armTorque c r + if !reelsDrive c then 0 else packTorque c r) := by
  simp only [torqueOf, h, if_false]
  rfl

theorem torqueOf_zero {r : Reel} (h : c.sup.tension.value.1 = 0) : torqueOf c r = 0 := by
  simp only [torqueOf, h, if_true]

theorem torqueOf_range (c : Chip) (r : Reel) :
    torqueOf c r ≤ ((c.profile.maxTension * (c.trk.reel r).radiusOr : Nat) : Int) ∧
      -((c.profile.maxTension * (c.trk.reel r).radiusOr : Nat) : Int) ≤ torqueOf c r := by
  by_cases h : c.sup.tension.value.1 = 0
  · rw [torqueOf_zero h]
    omega
  · rw [torqueOf_eq h]
    exact (clampInt_le _ _).symm

/-- The base of the torque within its limit (R25). -/
def clampedBase (c : Chip) (r : Reel) : Int :=
  clampInt (c.profile.maxTension * (c.trk.reel r).radiusOr) (baseTorque c r)

/-- With the reels not driving the tape the arm alone moves the torque from its base. -/
theorem torqueOf_still {r : Reel} (h : c.sup.tension.value.1 ≠ 0) (hd : reelsDrive c = false) :
    let arm := 2 * (c.trk.reel r).arm.toNat
    let middle := c.profile.low + c.profile.high
    (arm = middle → torqueOf c r = clampedBase c r) ∧ (arm < middle → clampedBase c r ≤ torqueOf c r) ∧
      (middle < arm → torqueOf c r ≤ clampedBase c r) := by
  rw [torqueOf_eq h, hd, if_pos (by rfl), clampedBase]
  refine ⟨fun ha => ?_, fun ha => clampInt_mono _ ?_, fun ha => clampInt_mono _ ?_⟩
  · have harm : armTorque c r = 0 := by simp [armTorque, ha]
    rw [harm, add_zero, add_zero]
  · have harm : armTorque c r = Config.armCorrection c.free (c.trk.reel r).arm.toNat (baseTorque c r) := if_pos ha
    omega
  · have harm : armTorque c r = -Config.armCorrection c.free (c.trk.reel r).arm.toNat (baseTorque c r) :=
      (if_neg (by omega)).trans (if_pos ha)
    omega

/-- With the reels driving the tape, and the arm at the middle, each pulls toward the reference speed. -/
theorem torqueOf_driven {r : Reel} (h : c.sup.tension.value.1 ≠ 0) (hd : reelsDrive c = true)
    (ha : 2 * (c.trk.reel r).arm.toNat = c.profile.low + c.profile.high) :
    (c.trk.tapeSpeed = c.eng.ref → torqueOf c r = clampedBase c r) ∧
    (c.trk.tapeSpeed < c.eng.ref → if r = .takeup then clampedBase c r ≤ torqueOf c r else torqueOf c r ≤ clampedBase c r) ∧
    (c.eng.ref < c.trk.tapeSpeed → if r = .takeup then torqueOf c r ≤ clampedBase c r else clampedBase c r ≤ torqueOf c r) := by
  have harm : armTorque c r = 0 := by simp [armTorque, ha]
  rw [torqueOf_eq h, hd, if_neg (by decide), harm, clampedBase]
  refine ⟨fun hv => ?_, fun hv => ?_, fun hv => ?_⟩
  · have hpack : packTorque c r = 0 := by simp [packTorque, hv]
    rw [hpack, add_zero, add_zero]
  · simp only [packTorque, if_pos hv]
    split <;> exact clampInt_mono _ (by omega)
  · simp only [packTorque, if_neg (show ¬ c.trk.tapeSpeed < c.eng.ref by omega), if_pos hv]
    split <;> exact clampInt_mono _ (by omega)

/-- Settles O11: the line of the movement, the goal R24 calls for at a command's end, and the clamped sum of a torque, which
the arm's correction and the packs' bias move from its base to the side of their sign. -/
theorem tensionAndTorque : Obligations.TensionAndTorque := by
  refine ⟨fun r hd => ⟨fun h => value_over h, fun h => value_line hd h, fun v => ⟨rfl, rfl, value_moveTo hd v⟩,
    fun h => tick_running h, fun h => tick_over h⟩, ⟨fun x n p => ?_, fun c hu => ?_⟩, fun c r hu hc hm => ?_⟩
  · refine ⟨?_, ?_, ?_, ?_, ?_, ?_⟩
    · rintro (rfl | rfl | rfl) <;> exact value_zero
    · rintro rfl
      rfl
    · rintro rfl ht
      exact if_neg ht
    · rintro rfl ht
      exact if_pos ht
    · rintro rfl
      rfl
    · rintro (rfl | rfl | rfl) <;> rfl
  · have hdone := done_tension hu
    refine ⟨?_, ?_, ?_, ?_, ?_, ?_, ?_, ?_⟩
    · rintro (ht | ht | ht) <;> simpa [tensionGoal, ht] using hdone
    · rintro (ht | ht) <;> simpa [tensionGoal, ht] using hdone
    · intro ht
      simpa [tensionGoal, ht] using hdone
    · rintro ht ⟨g, hg, hk⟩
      simpa [tensionGoal, ht, Chip.windCurrent, hg, hk] using hdone
    · intro ht hw
      have hno : c.windCurrent = false := by
        cases hg : c.eng.cur with
        | none => simp [Chip.windCurrent, hg]
        | some g => simpa [Chip.windCurrent, hg] using fun hk => hw ⟨g, hg, hk⟩
      simpa [tensionGoal, ht, hno] using hdone
    · intro ht
      simpa [tensionGoal, ht] using hdone
    · intro ht hcl
      simpa [tensionGoal, ht, hcl] using hdone
    · intro ht hcl
      simpa [tensionGoal, ht, hcl] using hdone
  · have hmode : (c.drv.reel r).mode = .torque := by cases r <;> simpa [Drive.reel] using hm
    have ho : ((done c).drv.reel r).torque = torqueOf (retarget (judged c)) r := by
      rw [done_reel hu hc, ReelOut.torqued, if_pos hmode]
    obtain ⟨hsup, htrk, hprof, href, hts, hcap, hpinch⟩ := torque_basis hu
    have hrange := torqueOf_range (retarget (judged c)) r
    have hdrive : reelsDrive (retarget (judged c)) = reelsDrive c := by simp only [reelsDrive, hts, hcap, hpinch]
    rw [hprof, htrk] at hrange
    dsimp only
    rw [ho, ← hsup]
    refine ⟨hrange.1, hrange.2, fun h => torqueOf_zero h, fun h hd => ?_, fun h hd ha => ?_⟩
    · have hst := torqueOf_still (c := retarget (judged c)) (r := r) h (by
        rw [hdrive, ← Bool.not_eq_true, reelsDrive_iff]
        exact hd)
      simp only [clampedBase, baseTorque, hprof, htrk] at hst
      exact hst
    · have hst := torqueOf_driven (c := retarget (judged c)) (r := r) h (hdrive.trans ((reelsDrive_iff c).mpr hd)) (by rw [htrk, hprof]; exact ha)
      simp only [clampedBase, baseTorque, hprof, htrk, href] at hst
      exact hst

end Sys2Proof.Supervision

namespace Sys2Proof.Supervision

open Sys2Proof Sys2Proof.Machine Sys2Proof.Laws Sys2Proof.TapePath

/-! ## Trips (R26 to R30) -/

variable {c : Chip}

theorem trip_tensed (cause : TripCause) (side : Side) (ht : c.sup.ts = .tensioning ∨ c.sup.ts = .held ∨ c.sup.ts = .moving ∨
    c.sup.ts = .stopping ∨ c.sup.ts = .slacking ∨ c.sup.ts = .catching) : trip cause side c = tripNow cause side c := by
  rcases ht with h | h | h | h | h | h <;> simp only [trip, h]

/-- A trip leaves the position counter, and the position's validity but to TAPE_BREAK and PATH_LOST (R3, R29). -/
theorem tripNow_trk (cause : TripCause) (side : Side) (h : c.sup.claimPending = false) :
    (tripNow cause side c).trk.position = c.trk.position ∧
    (tripNow cause side c).trk.valid = (c.trk.valid && cause != .tapeBreak && cause != .pathLost) := by
  have hlose (n : Nat) (x : Chip) : (losePosition n x).trk = { x.trk with valid := false } := by
    unfold losePosition
    split
    · simp
    next hv => rw [← Bool.eq_false_iff.mpr hv]
  have hpos (x : Chip) : (tripPosition cause x).trk.position = x.trk.position ∧
      (tripPosition cause x).trk.valid = (x.trk.valid && cause != .tapeBreak && cause != .pathLost) := by
    unfold tripPosition
    split
    · rw [hlose]
      split <;> simp
    · rw [hlose]
      simp
    all_goals cases x.trk.valid <;> exact ⟨rfl, rfl⟩
  rw [tripNow_eq _ _ h]
  simpa [atTrip] using hpos (tripOutputs c.drv.ownStop
    (onSup (fun s => { s with catchHold := false, brk := none, exc := none }) c))

/-- The statements' record of a trip reads of the state before it only what stands here. -/
theorem trippedBy_of_chip {cause : TripCause} {side : Side} {s t : State} (h : TrippedBy cause side (s.withChip c) t)
    (hsup : c.sup.trip = s.chip.sup.trip ∧ c.sup.side = s.chip.sup.side ∧ c.sup.stop = s.chip.sup.stop ∧
      c.sup.latch = s.chip.sup.latch)
    (hgnt : c.gnt = s.chip.gnt) (htrk : c.trk.position = s.chip.trk.position ∧ c.trk.valid = s.chip.trk.valid)
    (hrest : c.cue = s.chip.cue ∧ c.mbx = s.chip.mbx ∧ c.set = s.chip.set ∧ c.mon = s.chip.mon ∧
      c.clock = s.chip.clock ∧ c.mode = s.chip.mode) : TrippedBy cause side s t := by
  obtain ⟨htrip, hside, hstop, hlatch⟩ := hsup
  obtain ⟨hpos, hval⟩ := htrk
  obtain ⟨hcue, hmbx, hset, hmon, hclock, hmode⟩ := hrest
  obtain ⟨h₁, h₂, h₃, h₄, h₅, h₆, h₇, h₈, h₉, h₁₀, h₁₁, h₁₂, h₁₃, h₁₄, h₁₅⟩ := h
  simp only [State.withChip, htrip, hside, hstop, hlatch, hgnt, hpos, hval, hcue, hmbx, hset, hmon, hclock, hmode] at *
  exact ⟨h₁, h₂, h₃, h₄, h₅, h₆, h₇, h₈, h₉, h₁₀, h₁₁, h₁₂, h₁₃, h₁₄, h₁₅⟩

/-- A trip cause taken under tension, with no judgement of a claim outstanding. -/
theorem trippedBy_trip (cause : TripCause) (side : Side) {s : State} (ht : Tensed (s.withChip c))
    (hclaim : c.sup.claimPending = false) : TrippedBy cause side (s.withChip c) (s.ends (trip cause side c)) := by
  obtain ⟨hpos, hval⟩ := tripNow_trk cause side hclaim
  rw [trip_tensed (c := c) cause side ht.2]
  exact trippedBy_tripNow (s := s.withChip c) hclaim rfl rfl ⟨rfl, rfl, rfl, rfl, rfl, rfl⟩ hpos hval

theorem armSide_eq (a b k : ArmClass) : armSide (a == k) (b == k) =
    if a = k then (if b = k then .both else .supply) else if b = k then .takeup else .none := by
  simp only [beq_eq_decide]
  by_cases ha : a = k <;> by_cases hb : b = k <;> simp [armSide, ha, hb]

/-- An arm in OVER under tension, or in CATCHING, is the cause ARM_OVER (R27). -/
theorem exec_armSample_over (r : Reel) (v : BitVec 12) {s : State} (hup : s.chip.sup.up = true)
    (hclaim : s.chip.sup.claimPending = false) (ho : classNow s.chip v = .overLevel)
    (ht : s.chip.sup.tense = true ∨ s.chip.sup.ts = .catching) :
    let d : Chip := { s.chip with
      trk := s.chip.trk.withReel r { s.chip.trk.reel r with arm := v }
      sup := s.chip.sup.classify r .overLevel }
    exec (.armSample r v) s =
      .next (s.ends (trip .armOver (armSide (d.sup.clsSup == .overLevel) (d.sup.clsTup == .overLevel)) d)) := by
  have hn : classNow (onTrk (·.armRead r v) s.chip) v = .overLevel := ho
  have hten : (s.chip.sup.classify r .overLevel).tense = s.chip.sup.tense := by cases r <;> rfl
  have hts : (s.chip.sup.classify r .overLevel).ts = s.chip.sup.ts := (classify_stands ..).1
  have hs (d : Chip) (hd : d = onSup (·.classify r .overLevel) (onTrk (·.armRead r v) s.chip)) :
      sampleTaken r v (onTrk (·.armRead r v) s.chip) =
        trip .armOver (armSide (d.sup.clsSup == .overLevel) (d.sup.clsTup == .overLevel)) d := by
    subst hd
    simp [sampleTaken, hn, hclaim, hten, hts, ht]
  simp only [exec, execArmSample, State.onChip, armStep, onTrk_sup, hup, if_true, hs _ rfl]
  rfl

/-- The fault input of one reel asserted. -/
def withFlt (r : Reel) (p : Pins) : Pins :=
  match r with
  | .supply => { p with fltSupply := true }
  | .takeup => { p with fltTup := true }

theorem faultSide_withFlt (r : Reel) (p : Pins) : faultSide (withFlt r p) =
    if (match r with | .supply => p.fltTup | .takeup => p.fltSupply) = true then .both
    else match r with | .supply => .supply | .takeup => .takeup := by
  obtain ⟨_, _, _, a, b, _⟩ := p
  cases r <;> cases a <;> cases b <;> rfl

/-- An asserted drive's input is the cause DRIVE_FAULT (R28). -/
theorem exec_driveFault (r : Reel) {s : State} (ht : Tensed s)
    (hpin : (match r with | .supply => s.chip.pins.fltSupply | .takeup => s.chip.pins.fltTup) = false) :
    exec (.driveFault r) s = .next (s.ends (trip .driveFault (faultSide (withFlt r s.chip.pins))
      { s.chip with pins := withFlt r s.chip.pins })) := by
  have htrips : s.chip.sup.ts.trips = true := by rcases ht.2 with h | h | h | h | h | h <;> simp [h, TState.trips]
  cases r <;> simp only [exec, execDriveFault, State.onChip, driveFaultStep, hpin, inputCause, ht.1, htrips, if_true,
    Bool.false_eq_true, if_false] <;> rfl

theorem exec_breakTimer {n : Nat} {s : State} (hup : s.chip.sup.up = true) (hts : s.chip.sup.ts.runsBreak = true)
    (hclaim : s.chip.sup.claimPending = false) (hb : s.chip.sup.brk = some n) (hn : s.chip.set.gen.breakTime ≤ n) :
    exec .breakTimerExpiry s = .next (s.ends
      (trip .tapeBreak (armSide (s.chip.sup.clsSup == .slack) (s.chip.sup.clsTup == .slack)) s.chip)) := by
  simp only [exec, execBreakTimerExpiry, State.onChip, breakStep, hup, hts, hclaim, hb, expired, hn, decide_true, and_self,
    if_true]
  rfl

/-- Settles O19: each input's command is a trip by its cause and side on the part the input has changed, and a trip under
tension leaves what R29 says. -/
theorem tripsTaken : Obligations.TripsTaken := by
  refine ⟨fun r v i s ht hclaim hi ho hten => ?_, fun r s ht hclaim hpin => ?_, fun n s hup hts hclaim hb hn hslack => ?_⟩
  · have hcl : classNow s.chip v = .overLevel := by simpa [classNow, Chip.profile, hi] using ho
    obtain ⟨hts, hsup, hcp⟩ := classify_stands s.chip.sup r .overLevel
    refine ⟨_, exec_armSample_over r v ht.1 hclaim hcl hten, ?_⟩
    have hside : armSide ((s.chip.sup.classify r .overLevel).clsSup == .overLevel)
        ((s.chip.sup.classify r .overLevel).clsTup == .overLevel) =
        if (match r with | .supply => s.chip.sup.clsTup | .takeup => s.chip.sup.clsSup) = .overLevel then .both
        else match r with | .supply => .supply | .takeup => .takeup := by
      rw [armSide_eq]
      cases r
      · exact if_pos rfl
      · exact if_congr Iff.rfl (if_pos rfl) (if_pos rfl)
    have htrip := trippedBy_trip (s := s) (c := { s.chip with
      trk := s.chip.trk.withReel r { s.chip.trk.reel r with arm := v }, sup := s.chip.sup.classify r .overLevel })
      .armOver (armSide ((s.chip.sup.classify r .overLevel).clsSup == .overLevel)
        ((s.chip.sup.classify r .overLevel).clsTup == .overLevel))
      ⟨hsup.trans ht.1, by simpa [State.withChip, hts] using ht.2⟩ (hcp.trans hclaim)
    rw [hside] at htrip ⊢
    cases r <;> exact trippedBy_of_chip htrip ⟨rfl, rfl, rfl, rfl⟩ rfl ⟨rfl, rfl⟩ ⟨rfl, rfl, rfl, rfl, rfl, rfl⟩
  · refine ⟨_, exec_driveFault r ht hpin, ?_⟩
    have htrip (p : Pins) (side : Side) : TrippedBy .driveFault side s (s.ends (trip .driveFault side { s.chip with pins := p })) :=
      trippedBy_of_chip (trippedBy_trip (c := { s.chip with pins := p }) .driveFault side ht hclaim) ⟨rfl, rfl, rfl, rfl⟩ rfl
        ⟨rfl, rfl⟩ ⟨rfl, rfl, rfl, rfl, rfl, rfl⟩
    rw [faultSide_withFlt]
    cases r <;> exact htrip _ _
  · have hten : Tensed s := ⟨hup, by cases h : s.chip.sup.ts <;> simp_all [TState.runsBreak]⟩
    refine ⟨_, exec_breakTimer hup hts hclaim hb hn, ?_⟩
    have hside : armSide (s.chip.sup.clsSup == .slack) (s.chip.sup.clsTup == .slack) =
        if s.chip.sup.clsSup ≠ .slack then .takeup else if s.chip.sup.clsTup = .slack then .both else .supply := by
      rw [armSide_eq, ite_not]
      by_cases h : s.chip.sup.clsSup = .slack
      · simp [h]
      · simp [h, hslack.resolve_left h]
    rw [← hside]
    exact trippedBy_trip (s := s) (c := s.chip) .tapeBreak _ hten hclaim

/-! ### The emergency action (R49, R59) -/

section Orders

variable {d : Drive} (ms : DriveMode) (qs : Int) (rs os fs : Bool) (mt : DriveMode) (qt : Int) (rt ot ft : Bool)

/-- The supply sent to DYNAMIC with its brake released, both drives being driven: held releases are carried out. -/
theorem supply_dynamic (hs : d.sup = ⟨ms, qs, false, rs, os, fs⟩) (ht : d.tup = ⟨mt, qt, false, rt, ot, ft⟩)
    (hm : mt ≠ .off) : d.order .supply .dynamic 0 false =
      { d with sup := ⟨.dynamic, 0, false, false, false, fs⟩, tup := ⟨mt, qt, false, false, ot, ft⟩ } := by
  cases rs <;> cases rt <;> simp [Drive.order, Drive.drivePart, Drive.brakePart, Drive.withReel, Drive.reel,
    Drive.carryOutReleases, Drive.bothDriven, ReelOut.releaseHeld, hs, ht, hm]

/-- The supply braked with the take-up released: its OFF is held in DYNAMIC. -/
theorem supply_braked (hs : d.sup = ⟨ms, qs, false, rs, os, fs⟩) (ht : d.tup = ⟨mt, qt, false, rt, ot, ft⟩) :
    d.order .supply .off 0 true = { d with sup := ⟨.dynamic, 0, true, false, true, fs⟩ } := by
  simp [Drive.order, Drive.drivePart, Drive.brakePart, Drive.withReel, Drive.reel, Drive.carryOutOffs, Drive.bothEngaged, hs,
    ht]

/-- The take-up sent to DYNAMIC with its brake released, the supply in DYNAMIC with no release held. -/
theorem takeup_dynamic (es : Bool) (hs : d.sup = ⟨.dynamic, qs, es, false, os, fs⟩) (ht : d.tup = ⟨mt, qt, false, rt, ot, ft⟩) :
    d.order .takeup .dynamic 0 false = { d with tup := ⟨.dynamic, 0, false, false, false, ft⟩ } := by
  cases rt <;> simp [Drive.order, Drive.drivePart, Drive.brakePart, Drive.withReel, Drive.reel, Drive.carryOutReleases,
    Drive.bothDriven, ReelOut.releaseHeld, hs, ht]

/-- The take-up braked with the supply released: its OFF is held in DYNAMIC. -/
theorem takeup_braked (hs : d.sup = ⟨ms, qs, false, rs, os, fs⟩) (ht : d.tup = ⟨mt, qt, false, rt, ot, ft⟩) :
    d.order .takeup .off 0 true = { d with tup := ⟨.dynamic, 0, true, false, true, ft⟩ } := by
  simp [Drive.order, Drive.drivePart, Drive.brakePart, Drive.withReel, Drive.reel, Drive.carryOutOffs, Drive.bothEngaged, hs,
    ht]

/-- The take-up braked as the second of the two: both drives go OFF. -/
theorem takeup_braked_second (hs : d.sup = ⟨ms, qs, true, rs, true, fs⟩) (ht : d.tup = ⟨mt, qt, false, rt, ot, ft⟩) :
    d.order .takeup .off 0 true = { d with
      sup := ⟨.off, 0, true, rs, false, fs⟩, tup := ⟨.off, 0, true, false, false, ft⟩ } := by
  cases ot <;> simp [Drive.order, Drive.drivePart, Drive.brakePart, Drive.withReel, Drive.reel, Drive.carryOutOffs,
    Drive.bothEngaged, ReelOut.dropHeld, ReelOut.offNow, hs, ht]

end Orders

/-- The supply's emergency action and then the take-up's, with both brakes released and both drives driven: a reel above
the limit goes to DYNAMIC; one at or below it is braked, and its drive goes OFF as the second brake engages. -/
theorem emergency_braked {d : Drive} (hs : d.sup.engaged = false) (ht : d.tup.engaged = false)
    (htm : d.tup.mode ≠ .off) (v w limit : Nat) :
    Braked ((d.emergency .supply v limit).emergency .takeup w limit).sup (decide (limit < v)) (decide (limit < w)) ∧
    Braked ((d.emergency .supply v limit).emergency .takeup w limit).tup (decide (limit < w)) (decide (limit < v)) := by
  rcases hsup : d.sup with ⟨ms, qs, es, rs, os, fs⟩
  rcases htup : d.tup with ⟨mt, qt, et, rt, ot, ft⟩
  rw [hsup] at hs
  rw [htup] at ht htm
  dsimp only at hs ht htm
  subst hs ht
  have hslow (h : ¬ limit < v) : d.emergency .supply v limit = { d with
      sup := ⟨.dynamic, 0, true, false, true, false⟩, tup := ⟨mt, qt, false, rt, ot, ft⟩ } := by
    rw [Drive.emergency, if_neg h, supply_braked _ _ _ _ _ _ _ _ _ _ hsup htup, ← htup]
    rfl
  have hfast (h : limit < v) : d.emergency .supply v limit = { d with
      sup := ⟨.dynamic, 0, false, false, false, true⟩, tup := ⟨mt, qt, false, false, ot, ft⟩ } := by
    rw [Drive.emergency, if_pos h, supply_dynamic _ _ _ _ _ _ _ _ _ _ hsup htup htm]
    rfl
  by_cases hv : limit < v
  · rw [hfast hv]
    by_cases hw : limit < w
    · rw [Drive.emergency, if_pos hw, takeup_dynamic _ _ _ _ _ _ _ _ _ rfl rfl]
      simp [Braked, Drive.followed, Drive.withReel, Drive.reel, hv, hw]
    · rw [Drive.emergency, if_neg hw, takeup_braked _ _ _ _ _ _ _ _ _ _ rfl rfl]
      simp [Braked, Drive.followed, Drive.withReel, Drive.reel, hv, hw]
  · rw [hslow hv]
    by_cases hw : limit < w
    · rw [Drive.emergency, if_pos hw, takeup_dynamic _ _ _ _ _ _ _ _ _ rfl rfl]
      simp [Braked, Drive.followed, Drive.withReel, Drive.reel, hv, hw]
    · rw [Drive.emergency, if_neg hw, takeup_braked_second _ _ _ _ _ _ _ _ _ rfl rfl]
      simp [Braked, Drive.followed, Drive.withReel, Drive.reel, hv, hw]

/-! ### POWER_FAIL (R28, R29, R49) -/

/-- The reels after a trip under tension, where the stage's own stop does not run: each has had its emergency action. -/
theorem tripNow_braked (cause : TripCause) (side : Side) (hclaim : c.sup.claimPending = false) (hcar : c.drv.carry = .none)
    (hs : c.drv.sup.engaged = false) (ht : c.drv.tup.engaged = false) (htm : c.drv.tup.mode ≠ .off) :
    let fastSup := decide (c.set.gen.brakeSafe < c.trk.sup.surfaceSpeed)
    let fastTup := decide (c.set.gen.brakeSafe < c.trk.tup.surfaceSpeed)
    Braked (done (tripNow cause side c)).drv.sup fastSup fastTup ∧ Braked (done (tripNow cause side c)).drv.tup fastTup fastSup := by
  intro fastSup fastTup
  have hbrake := emergency_braked hs ht htm c.trk.sup.surfaceSpeed c.trk.tup.surfaceSpeed c.set.gen.brakeSafe
  have hreels : (tripNow cause side c).drv.sup = ((c.drv.emergency .supply c.trk.sup.surfaceSpeed c.set.gen.brakeSafe).emergency
        .takeup c.trk.tup.surfaceSpeed c.set.gen.brakeSafe).sup ∧
      (tripNow cause side c).drv.tup = ((c.drv.emergency .supply c.trk.sup.surfaceSpeed c.set.gen.brakeSafe).emergency
        .takeup c.trk.tup.surfaceSpeed c.set.gen.brakeSafe).tup := by
    have hrel (d : Drive) (n : Nat) : (d.release n).sup = d.sup ∧ (d.release n).tup = d.tup := by
      cases hp : d.pinch <;> simp [Drive.release, Drive.capstanStop, Drive.pinchAway, hp]
    have hout (x : Chip) : (tripOutputs false x).drv.sup = (tripReels false x).drv.sup ∧
        (tripOutputs false x).drv.tup = (tripReels false x).drv.tup := by
      obtain ⟨-, -, -, -, h₁, h₂, -⟩ := tripOutputs_drv false x
      exact ⟨h₁, h₂⟩
    have hown : c.drv.ownStop = false := by simp [Drive.ownStop, hcar]
    rw [tripNow_eq _ _ hclaim, enter_tripped_drv]
    simp [hrel, atTrip, hout, tripReels, hown, emergencyBoth, Chip.brakeSafeNow, hcar]
  have hmode {o : ReelOut} {a b : Bool} (h : Braked o a b) : o.mode ≠ .torque := by
    rw [h.2.2]
    split <;> decide
  obtain ⟨h₁, h₂⟩ := done_reels (tripNow cause side c) (hreels.1 ▸ hmode hbrake.1) (hreels.2 ▸ hmode hbrake.2)
  rw [h₁, h₂, hreels.1, hreels.2]
  exact hbrake

/-- POWER_FAIL asserted where the input stood inactive. -/
theorem exec_powerFail {s : State} (h : s.chip.pins.powerFail = false) : exec .powerFail s =
    .next (s.ends (inputCause 1 .powerLoss .none { s.chip with pins := { s.chip.pins with powerFail := true } })) := by
  simp only [exec, execPowerFail, State.onChip, powerFailStep, h, Bool.false_eq_true, if_false]
  rfl

theorem inputCause_trips (n : Nat) (cause : TripCause) (side : Side) (hu : c.sup.up = true) (ht : c.sup.ts.trips = true) :
    inputCause n cause side c = trip cause side c := by
  simp only [inputCause, hu, ht, if_true]

theorem tensed_trips {s : State} (h : Tensed s) : s.chip.sup.ts.trips = true := by
  rcases h.2 with h | h | h | h | h | h <;> simp [h, TState.trips]

/-- Settles O20: the input's cause by the state it finds, and the reels' emergency action in a trip. -/
theorem powerFailTaken : Obligations.PowerFailTaken := by
  refine ⟨fun s => ⟨fun hp ht hclaim => ?_, fun hp hm hu ht => ?_, fun hp hm hu ht => ?_, fun hp => ?_⟩,
    fun s hp ht hclaim hs htu hsm htm hcar => ?_⟩
  · refine ⟨_, exec_powerFail hp, ?_⟩
    rw [inputCause_trips (c := { s.chip with pins := { s.chip.pins with powerFail := true } }) _ _ _ ht.1 (tensed_trips ht)]
    exact trippedBy_of_chip (trippedBy_trip (c := { s.chip with pins := { s.chip.pins with powerFail := true } }) .powerLoss
      .none ht hclaim) ⟨rfl, rfl, rfl, rfl⟩ rfl ⟨rfl, rfl⟩ ⟨rfl, rfl, rfl, rfl, rfl, rfl⟩
  · have hno : s.chip.sup.ts.trips = false := by rcases ht with h | h <;> rw [h] <;> rfl
    rw [exec_powerFail hp, inputCause, if_pos (by exact hu), if_neg (by simp [hno]), postEvent_running (by exact hm)]
    rfl
  · have hyes : s.chip.sup.ts.trips = true := by rw [ht]; rfl
    rw [exec_powerFail hp, inputCause_trips (c := { s.chip with pins := { s.chip.pins with powerFail := true } }) _ _ _ hu hyes]
    simp only [trip, ht]
    rw [postEvent_running (by exact hm)]
    rfl
  · simp only [exec, execPowerFail, State.onChip, powerFailStep, hp, if_true]
    rfl
  · refine ⟨_, exec_powerFail hp, ?_⟩
    rw [inputCause_trips (c := { s.chip with pins := { s.chip.pins with powerFail := true } }) _ _ _ ht.1 (tensed_trips ht),
      trip_tensed (c := { s.chip with pins := { s.chip.pins with powerFail := true } }) _ _ ht.2]
    exact tripNow_braked (c := { s.chip with pins := { s.chip.pins with powerFail := true } }) .powerLoss .none hclaim hcar hs
      htu htm

end Sys2Proof.Supervision

namespace Sys2Proof.Supervision

open Sys2Proof Sys2Proof.Machine Sys2Proof.Laws Sys2Proof.TapePath

variable {c : Chip}

/-! ## A latching stop cause (R31, R32) -/

theorem latched_sup {k : StopCause} (hk : k.latches = true) (c : Chip) :
    (latchAndFlush k c).sup = { c.sup with latch := true } := by
  rw [latchAndFlush_sup, hk, Bool.or_true]

/-- The supervisor's word, the rings and the grants after a latching cause, in whatever state it is taken. -/
theorem stopCause_latched {k : StopCause} (hk : k.latches = true) (c : Chip) :
    (stopCause k c).sup.ts = (if c.sup.ts = .moving then .stopping else c.sup.ts) ∧
    (stopCause k c).sup.stop = (if c.sup.ts = .stopping then c.sup.stop else k) ∧
    (stopCause k c).sup.latch = true ∧ (stopCause k c).sup.trip = c.sup.trip ∧
    (stopCause k c).pln.urgent.queued = 0 ∧ (stopCause k c).pln.main.queued = 0 ∧ (stopCause k c).gnt = c.gnt := by
  have hempty (x : Chip) := (latchAndFlush_pln k x).2 hk
  cases ht : c.sup.ts
  case moving =>
    obtain ⟨hts, hstop, htrip, hlatch, hgnt⟩ := stopMoving_sup k c
    obtain ⟨hu, hm⟩ := (stopMoving_pln k c).2 hk
    simp [stopCause, ht, hts, hstop, htrip, hlatch, hgnt, hu, hm, hk]
  all_goals simp [stopCause, ht, latched_sup hk, hempty, hk]

/-- A stop cause gives the stage no order but in MOVING, where the pinch is taken away, or the capstan stopped (R45). -/
theorem stopCause_drv (k : StopCause) (c : Chip) : (stopCause k c).drv =
    if c.sup.ts = .moving then
      (if c.drv.pinchOn then c.drv.pinchAway c.pinchFull else c.drv.capstanOff c.pinchFull)
    else c.drv := by
  cases ht : c.sup.ts
  case moving => simp [stopCause, ht, stopMoving_drv]
  case held => cases hk : k.latches <;> simp [stopCause, ht, hk, endTaken_frame]
  all_goals simp [stopCause, ht]

/-! ### FLT_CAP (R34, R65) -/

/-- The capstan is OFF and the pinch leaves the tape. -/
def Unclamped (d : Drive) : Prop := d.capRun = false ∧ d.capSpeed = 0 ∧ (d.pinch = .out ∨ d.pinch = .goingOut)

theorem release_unclamped (d : Drive) (n : Nat) : Unclamped (d.release n) := by
  obtain ⟨hrun, hspeed, hpinch, -⟩ := release_stage d n
  exact ⟨hrun, hspeed, hpinch⟩

theorem stopCause_unclamped (k : StopCause) (h : Unclamped c.drv) : Unclamped (stopCause k c).drv := by
  obtain ⟨hrun, hspeed, hpinch⟩ := h
  have hoff : c.drv.pinchOn = false := by rcases hpinch with h | h <;> simp [Drive.pinchOn, h]
  rw [stopCause_drv, hoff]
  split
  · rcases hpinch with h | h <;> simp [Unclamped, Drive.capstanOff, Drive.capstanStop, h]
  · exact ⟨hrun, hspeed, hpinch⟩

/-- The part as the supervisor finds it with FLT_CAP asserted: the emergency release carried out. -/
def capReleased (c : Chip) : Chip := onDrive (·.release c.pinchFull) { c with pins := { c.pins with fltCap := true } }

theorem exec_fltCap {s : State} (hp : s.chip.pins.fltCap = false) (hu : s.chip.sup.up = true) :
    exec .fltCap s = .next (s.ends (stopCause .capstanFault (capReleased s.chip))) := by
  have hup : (onDrive (·.release s.chip.pinchFull) { s.chip with pins := { s.chip.pins with fltCap := true } }).sup.up = true := hu
  simp only [exec, execFltCap, State.onChip, fltCapStep, hp, Bool.false_eq_true, if_false]
  exact congrArg (fun c => Host.Outcome.next (s.ends c)) (if_pos hup)

/-- Settles O21: the release of the stage, then the cause in whatever state it finds. -/
theorem capstanFaultTaken : Obligations.CapstanFaultTaken := by
  refine ⟨fun s hp hu => ⟨_, exec_fltCap hp hu, ?_⟩, fun p s => ?_⟩
  · obtain ⟨hts, hstop, hlatch, htrip, hurg, hmain, hgnt⟩ := stopCause_latched (k := .capstanFault) rfl (capReleased s.chip)
    obtain ⟨hrun, hspeed, hpinch⟩ := stopCause_unclamped .capstanFault (c := capReleased s.chip) (release_unclamped ..)
    simp only [State.ends, done_capRun, done_capSpeed, done_pinch, done_latch, done_pins, done_stop, done_ts, done_trip,
      done_pln, done_trk, done_gnt, done_cue, done_set, hrun, hspeed, hlatch, hstop, hts, htrip, hurg, hmain, hgnt,
      stopCause_frame]
    exact ⟨trivial, trivial, hpinch, trivial, rfl, rfl, rfl, rfl, trivial, trivial, rfl, rfl, rfl, rfl, trivial⟩
  · cases p <;> rfl

/-! ### What a block posts, and what it lays on the slot write list -/

theorem postNotice_posted (k : Notice) (c : Chip) : (postNotice k c).evt.posted = c.evt.posted := by
  unfold postNotice
  split <;> rfl

theorem postEvent_posted (k : EventKind) (d t : Nat) (v : Int) (c : Chip) : c.evt.posted <+: (postEvent k d t v c).evt.posted := by
  unfold postEvent postEventAt
  dsimp only
  split
  · exact List.prefix_append ..
  · exact List.prefix_rfl
  · exact List.prefix_rfl

theorem postWrite_posted (p : Poster) (w : PartWrite) (c : Chip) : (postWrite p w c).evt.posted = c.evt.posted := by
  unfold postWrite
  split
  · rfl
  · cases p <;> rfl

theorem reclampTrim_posted (c : Chip) : c.evt.posted <+: (reclampTrim c).evt.posted := by
  simp only [reclampTrim]
  split
  · exact List.prefix_rfl
  · rw [postNotice_posted]
    refine List.IsPrefix.trans ?_ (postEvent_posted ..)
    rw [postWrite_posted]
    exact List.prefix_rfl

theorem setGrant_posted (a : Option Granted) (f : List Granted) (c : Chip) : c.evt.posted <+: (setGrant a f c).evt.posted :=
  reclampTrim_posted (onGnt (fun g => { g with active := a, fallback := f }) c)

theorem endCur_posted (st : Status) (c : Chip) : c.evt.posted <+: (endCur st c).evt.posted := by
  unfold endCur
  split
  · exact List.prefix_rfl
  · dsimp only
    split
    · rw [postNotice_posted]
      refine List.IsPrefix.trans ?_ (postEvent_posted ..)
      exact List.prefix_rfl
    · exact List.prefix_rfl

theorem flushBoth_list (st : Status) (c : Chip) : c.pln.list <+: (flushBoth st c).pln.list := by
  simp only [flushBoth, flushRing, onPln, List.append_assoc]
  exact List.prefix_append ..

theorem latchAndFlush_list (k : StopCause) (c : Chip) : c.pln.list <+: (latchAndFlush k c).pln.list := by
  unfold latchAndFlush
  split
  · exact (setLatch_pln c ▸ flushBoth_list .faultFlushed (setLatch c) :)
  · exact List.prefix_rfl

theorem latchAndFlush_posted (k : StopCause) (c : Chip) : (latchAndFlush k c).evt.posted = c.evt.posted := by
  unfold latchAndFlush
  split
  · rw [(flushBoth_frame ..).2.2.2.2.2.2.2.2.2.2.2.2.1]
    unfold setLatch
    split
    · rfl
    · rw [postNotice_posted]
  · rfl

/-- An entry that drops no grant, and resolves no request, posts its announcement alone (R17). -/
theorem enter_announced (hm : c.mode = .running) {n : TState} (hn : n = .stopping ∨ n = .tensioning) :
    (enter n c).evt.posted = c.evt.posted ++ [c.event .stateChanged n.code c.curTag c.sup.ts.code] := by
  rcases hn with rfl | rfl
  all_goals
    simp only [enter, enterGrant, TState.dropsGrant, Bool.false_eq_true, if_false, false_and, reduceCtorEq]
    rw [postEvent_running (by simp [hm])]
    simp [enterStage, TState.admitsPinch, postNotice_posted, Chip.event, onSup, Chip.curTag, TState.code]

/-- A cause taken in MOVING returns the current slot before the flush (R31). -/
theorem stopMoving_list (k : StopCause) (g : Seg) (hc : c.eng.cur = some g) : c.pln.list ++
    [.ret g.ring g.slot k.endStatus c.trk.position c.clock] <+: (stopMoving k c).pln.list := by
  obtain ⟨-, -, hlist⟩ := endCur_rings k.endStatus (onSup (fun s => { s with stop := k }) c) g hc
  have hflush := latchAndFlush_list k (onEng (·.halted) (endCur k.endStatus (onSup (fun s => { s with stop := k }) c)))
  simp only [stopMoving, enter_frame, postEvent_pln, haltEntry_frame]
  exact hlist ▸ hflush

/-- The excursion timer runs on from MOVING into STOPPING (R36). -/
theorem stopMoving_exc (k : StopCause) (ht : c.sup.ts = .moving) : (stopMoving k c).sup.exc = c.sup.exc := by
  obtain ⟨p, hp⟩ := enter_sup .stopping (postEvent .stop k.code c.curTag 0 (haltEntry (latchAndFlush k (onEng (·.halted)
    (endCur k.endStatus (onSup (fun s => { s with stop := k }) c))))))
  simp [stopMoving, hp, Supervisor.entered, carryTimer, TState.runsExcursion, latchAndFlush_sup, ht]

/-- The posts of a cause taken in MOVING: what the end of the segment posts, then STOP and STATE_CHANGED (R31, R17). -/
theorem stopMoving_posted (k : StopCause) (hm : c.mode = .running) (ht : c.sup.ts = .moving) : ∃ es,
    (stopMoving k c).evt.posted = c.evt.posted ++ es ++ [c.event .stop k.code c.curTag 0, c.event .stateChanged 5 0 4] := by
  obtain ⟨es, hes⟩ := endCur_posted k.endStatus (onSup (fun s => { s with stop := k }) c)
  refine ⟨es, ?_⟩
  have hcur : (haltEntry (latchAndFlush k (onEng (·.halted) (endCur k.endStatus (onSup (fun s => { s with stop := k }) c))))).curTag = 0 := by
    simp [Chip.curTag, haltEntry_cur, Engine.halted]
  simp only [stopMoving]
  rw [enter_announced (by simp [hm]) (.inl rfl), postEvent_running (by simp [hm])]
  simp only [Chip.curTag] at hcur
  simp [Chip.event, Chip.curTag, hcur, latchAndFlush_supFrame, latchAndFlush_posted, ← hes, ht, TState.code]

/-! ### The excursion timer (R36, R86) -/

/-- The part with the excursion reported and its timer started again, or stopped. -/
def strayReported (detail : Nat) (c : Chip) : Chip :=
  ({ c with sup := { c.sup with exc := if c.sup.strayArm then some 0 else none } } : Chip).posting
    [c.event .armExcursion detail c.curTag (armsValue (outOfBand c.sup.clsSup) (outOfBand c.sup.clsTup))] []

theorem exec_excursion {s : State} {n : Nat} (hm : s.chip.mode = .running) (hu : s.chip.sup.up = true)
    (he : s.chip.sup.exc = some n) (hn : s.chip.set.gen.excursion ≤ n) (hr : s.chip.sup.ts.runsExcursion = true) :
    exec .excursionTimerExpiry s = .next (s.ends (if s.chip.sup.ts = .moving then derateRequest (strayReported 1 s.chip)
      else strayReported 2 s.chip)) := by
  have hx : expired s.chip.sup.exc s.chip.set.gen.excursion = true := by simp [expired, he, hn]
  simp only [exec, execExcursionTimerExpiry, State.onChip, excursionStep, hu, hr, hx, and_self, if_true]
  by_cases ht : s.chip.sup.ts = .moving
  · simp only [ht, if_true]
    rw [postEvent_running hm]
    rfl
  · simp only [ht, if_false]
    rw [postEvent_running hm]
    rfl

theorem outOfBand_iff (a : ArmClass) : outOfBand a = true ↔ a = .low ∨ a = .high := by simp [outOfBand]

theorem armsValue_eq (x : Supervisor) : armsValue (outOfBand x.clsSup) (outOfBand x.clsTup) =
    (if x.clsSup = .low ∨ x.clsSup = .high then 1 else 0) + (if x.clsTup = .low ∨ x.clsTup = .high then 2 else 0) := by
  simp only [← outOfBand_iff]
  cases outOfBand x.clsSup <;> cases outOfBand x.clsTup <;> rfl

/-- The timer runs again exactly where an arm is named. -/
theorem strayArm_restart (x : Supervisor) : (if x.strayArm then some 0 else none) =
    if armsValue (outOfBand x.clsSup) (outOfBand x.clsTup) = 0 then none else some 0 := by
  unfold Supervisor.strayArm
  cases outOfBand x.clsSup <;> cases outOfBand x.clsTup <;> rfl

theorem derateTo_posted (g : Granted) (rest : List Granted) (hm : c.mode = .running) : ∃ es,
    (derateTo g rest c).evt.posted = c.evt.posted ++ [c.event .grantDerated 1 c.curTag g.position] ++ es := by
  obtain ⟨es, hes⟩ := setGrant_posted (some g) rest (postNotice .grantChanged (postEvent .grantDerated 1 c.curTag g.position c))
  refine ⟨es, ?_⟩
  rw [derateTo, ← hes, postNotice_posted, postEvent_running hm]

/-- A derate changes the grant unit, and what it posts and writes of it (R86, R90). -/
theorem derateTo_frame (g : Granted) (rest : List Granted) (c : Chip) : (derateTo g rest c).sup = c.sup ∧
    (derateTo g rest c).pln = c.pln ∧ (derateTo g rest c).trk = c.trk ∧ (derateTo g rest c).cue = c.cue ∧
    (derateTo g rest c).gnt.active = some g ∧ (derateTo g rest c).gnt.fallback = rest := by
  obtain ⟨v, w, hg⟩ := setGrant_gnt (some g) rest (postNotice .grantChanged (postEvent .grantDerated 1 c.curTag g.position c))
  simp [derateTo, hg]

/-- Settles O22: the excursion reported, then what the grant unit answers in MOVING. -/
theorem excursionTaken : Obligations.ExcursionTaken := by
  intro n s hm hu hexc hn arms exc'
  have harms : armsValue (outOfBand s.chip.sup.clsSup) (outOfBand s.chip.sup.clsTup) = arms := armsValue_eq s.chip.sup
  have hexc' : (if s.chip.sup.strayArm then some 0 else none) = exc' := by
    rw [strayArm_restart, harms]
  have hrep (d : Nat) : strayReported d s.chip = ({ s.chip with sup := { s.chip.sup with exc := exc' } } : Chip).posting
      [s.chip.event .armExcursion d s.chip.curTag arms] [] := by
    rw [strayReported, harms, hexc']
  refine ⟨fun ht => ?_, fun g rest ht hf => ?_, fun ht hf => ?_⟩
  · have hne : s.chip.sup.ts ≠ .moving := by rcases ht with h | h <;> simp [h]
    rw [exec_excursion hm hu hexc hn ((runsExcursion_iff _).2 (by tauto)), if_neg hne, hrep]
  · have hx := exec_excursion hm hu hexc hn ((runsExcursion_iff _).2 (.inr (.inl ht)))
    have hd : derateRequest (strayReported 1 s.chip) = derateTo g rest (strayReported 1 s.chip) := by
      simp [derateRequest, strayReported, Chip.posting, ht, hf, TState.takesDerate]
    rw [if_pos ht, hd, hrep] at hx
    refine ⟨_, hx, ?_⟩
    obtain ⟨hsup, hpln, htrk, hcue, hactive, hfall⟩ := derateTo_frame g rest
      (({ s.chip with sup := { s.chip.sup with exc := exc' } } : Chip).posting
        [s.chip.event .armExcursion 1 s.chip.curTag arms] [])
    obtain ⟨es, hes⟩ := derateTo_posted (c := ({ s.chip with sup := { s.chip.sup with exc := exc' } } : Chip).posting
        [s.chip.event .armExcursion 1 s.chip.curTag arms] []) g rest (by exact hm)
    simp only [State.ends, done_gnt, done_ts, done_latch, done_exc, done_evt, done_pln, done_trk, done_cue, hsup, hpln,
      htrk, hcue, hactive, hfall, hes]
    exact ⟨trivial, trivial, ht, rfl, rfl, ⟨es, by simp [Chip.posting, Chip.event, Chip.curTag]⟩, rfl, rfl, rfl, trivial⟩
  · have hx := exec_excursion hm hu hexc hn ((runsExcursion_iff _).2 (.inr (.inl ht)))
    have hd : derateRequest (strayReported 1 s.chip) = stopMoving .excursion (strayReported 1 s.chip) := by
      simp [derateRequest, strayReported, Chip.posting, ht, hf, TState.takesDerate, stopCause]
    rw [if_pos ht, hd] at hx
    obtain ⟨es, hes⟩ := stopMoving_posted (c := strayReported 1 s.chip) .excursion (by exact hm) (by exact ht)
    refine ⟨_, hx, halted_stopMoving .excursion rfl s _ rfl rfl rfl rfl, ?_, ?_, ?_, ⟨es, ?_⟩, fun g hg => ?_⟩
    · rw [State.ends, done_exc, stopMoving_exc .excursion (by exact ht), hrep]
      rfl
    · simp only [State.ends, done_ref, stopMoving_eng]
      rfl
    · simp only [State.ends, done_trk, stopMoving_frame]
      rfl
    · rw [State.ends, done_evt, hes, hrep]
      simp [Chip.posting, Chip.event, Chip.curTag, StopCause.code]
    · obtain ⟨ws, hws⟩ := stopMoving_list (c := strayReported 1 s.chip) .excursion g (by exact hg)
      refine ⟨ws, ?_⟩
      rw [State.ends, done_pln, ← hws]
      rfl

end Sys2Proof.Supervision

namespace Sys2Proof.Supervision

open Sys2Proof Sys2Proof.Machine Sys2Proof.Laws Sys2Proof.TapePath

variable {c : Chip}

/-! ## The millisecond update outside motion (R119) -/

theorem updateReference_still (hm : c.sup.ts ≠ .moving) (hs : c.sup.ts ≠ .stopping) (hc : c.sup.ts ≠ .catching) :
    updateReference c = c := by
  unfold updateReference
  cases h : c.sup.ts <;> simp_all

theorem exec_referenceSpeed_still {s : State} (hb : s.chip.mode ≠ .bypass) (hreq : s.chip.eng.moveReq = false)
    (hcur : s.chip.eng.cur = none) (hm : s.chip.sup.ts ≠ .moving) (hs : s.chip.sup.ts ≠ .stopping)
    (hc : s.chip.sup.ts ≠ .catching) : exec .referenceSpeedUpdate s = .next (s.ends (clockTick s.chip)) := by
  have hstep : referenceStep s.chip = clockTick s.chip := by
    rw [referenceStep, if_neg hb, settleMoves_idle hreq, updateReference_still (by exact hm) (by exact hs) (by exact hc),
      judgeBrake_idle (by simp [clockTick, Engine.tick, hcur])]
  simp only [exec, execReferenceSpeedUpdate, State.onChip, hstep]
  rfl

theorem tickTimer_eq (t : Option Nat) : tickTimer t = t.map (· + 1) := by cases t <;> rfl

/-! ## A duration that ends at rest (R126, R132) -/

/-- A request outstanding is resolved in HELD; with none the grants stand (R81). -/
theorem enter_held_gnt (hr : c.gnt.request = none) : (enter .held c).gnt = c.gnt := by
  simp [enter, enterGrant, TState.dropsGrant, resolvePending, hr]

/-- A completion at zero speed with nothing queued: the engine IDLE and the transport HELD (R132, R135). -/
theorem complete_held (g : Seg) (st : Status) (hc : c.eng.cur = some g) (ht : c.sup.ts = .moving)
    (he : c.eng.est ≠ .halting) (hr : c.eng.ref = 0) (hu : c.pln.urgent.queued = 0) (hq : c.pln.main.queued = 0) :
    complete st c = enter .held (onEng (fun e => { e with est := .idle, held := 0, starve := none, frac := 0 }) (endCur st c)) := by
  obtain ⟨hu', hq'⟩ := endCur_queued st c
  have heng := endCur_eng st c
  simp only [complete, settle, outcome, Chip.curRecord, hc, Option.map_some, Option.getD_some]
  rw [follow, if_pos (by simp [canTake, ht, heng, he])]
  simp only [nextRing, hu', hq', hu, hq, ne_eq, not_true_eq_false, if_false]
  rw [nothingQueued, if_pos (by simp [heng, hr]), finishRun, if_pos (by simp [ht])]

/-! ## The starve limit (R134) -/

theorem exec_starveTimer {s : State} {n : Nat} (ht : s.chip.sup.ts = .moving) (he : s.chip.eng.est = .starved)
    (hs : s.chip.eng.starve = some n) (hn : s.chip.set.gen.starve ≤ n) :
    exec .starveTimerExpiry s = .next (s.ends (stopMoving .starved s.chip)) := by
  have hx : expired s.chip.eng.starve s.chip.set.gen.starve = true := by simp [expired, hs, hn]
  simp only [exec, execStarveTimerExpiry, State.onChip, starveStep, he, ht, hx, and_self, if_true, stopCause]
  rfl

/-- Settles O27: the transport clock at rest, a DWELL that ends at rest, and the STARVED cause. -/
theorem clockAndTimersTaken : Obligations.ClockAndTimersTaken := by
  refine ⟨fun s hb hreq hcur hm hs hc => ?_, fun g n s hu ht hcur he hreq hk hp htm h0 h1 href hurg hmain hgnt => ?_,
    fun n s hu ht he hcur hs hn => ?_⟩
  · rw [exec_referenceSpeed_still hb hreq hcur hm hs hc]
    simp only [clockTick, Supervisor.tick, Engine.tick, Monitor.tick, tickTimer_eq, hcur, Option.map_none]
  · refine ⟨_, duration_ends g n s ht he hcur htm h0 h1 (.inr ⟨hk, hp⟩), ?_⟩
    obtain ⟨-, -, hlist⟩ := endCur_rings g.doneStatus s.chip g hcur
    rw [complete_held g _ hcur ht (by simp [he]) href hurg hmain]
    rw [Seg.doneStatus] at hlist
    simp [State.ends, enter_held_gnt, enter_eng, endCur_eng, done_cur_none, TState.dropsGrant, hgnt, href, hlist,
      Seg.doneStatus]
  · refine ⟨_, exec_starveTimer ht he hs hn, ?_⟩
    obtain ⟨hts, hstop, htrip, hlatch, hg⟩ := stopMoving_sup .starved s.chip
    obtain ⟨hurg, hmain⟩ := (stopMoving_pln .starved s.chip).2 rfl
    simp [State.ends, hts, hstop, htrip, hlatch, hg, hurg, hmain, stopMoving_eng, Engine.halted,
      StopCause.latches]

end Sys2Proof.Supervision

namespace Sys2Proof.Supervision

open Sys2Proof Sys2Proof.Machine Sys2Proof.Laws Sys2Proof.TapePath

variable {c : Chip}

/-! ## An accepted hand-off (R99) -/

section Accepted

variable {h : HandFetch} {p : HostPort}

theorem accepted_ring (c : Chip) (h : HandFetch) (p : HostPort) :
    (c.accepted h p).pln.ring h.ring = (c.pln.ring h.ring).accept h.record := by
  unfold Chip.accepted
  cases h.ring <;> rfl

theorem accepted_pln (c : Chip) (h : HandFetch) (p : HostPort) : (c.accepted h p).pln.fetch = none ∧
    (c.accepted h p).pln.list = c.pln.list ∧ (c.accepted h p).pln.sweep = c.pln.sweep := by
  unfold Chip.accepted
  cases h.ring <;> exact ⟨rfl, rfl, rfl⟩

/-- The slot accepted into rings with nothing queued is the one queued slot. -/
theorem nextRing_accepted (hu : c.pln.urgent.queued = 0) (hm : c.pln.main.queued = 0) :
    nextRing (c.accepted h p) = some h.ring := by
  unfold nextRing Chip.accepted
  cases h.ring <;> simp [Plan.ring, Plan.withRing, hu, hm]

theorem accepted_queued (hu : c.pln.urgent.queued = 0) (hm : c.pln.main.queued = 0) :
    ((c.accepted h p).pln.ring h.ring).queued = 1 := by
  rw [accepted_ring]
  cases h.ring <;> simp [Plan.ring, Ring.accept, hu, hm]

theorem accepted_take (c : Chip) (h : HandFetch) (p : HostPort) :
    ((c.accepted h p).pln.ring h.ring).take = (c.pln.ring h.ring).take ∧
    ((c.accepted h p).pln.ring h.ring).intake = ((c.pln.ring h.ring).intake + 1) % (c.pln.ring h.ring).slots.length ∧
    ((c.accepted h p).pln.ring h.ring).slots.length = (c.pln.ring h.ring).slots.length := by
  rw [accepted_ring]
  exact ⟨rfl, rfl, by simp [Ring.accept, Ring.withSlot]⟩

theorem accepted_record (hi : (c.pln.ring h.ring).take = (c.pln.ring h.ring).intake)
    (hlt : (c.pln.ring h.ring).intake < (c.pln.ring h.ring).slots.length) :
    (((c.accepted h p).pln.ring h.ring).slot ((c.accepted h p).pln.ring h.ring).take).record = some h.record := by
  rw [(accepted_take c h p).1, hi, accepted_ring]
  simp [Ring.accept, Ring.slot, Ring.withSlot, hlt]

/-- The screen that passes hands the slot to the engine at once (R99, R117). -/
theorem exec_handOff_accepted {s : State} (hf : s.chip.pln.fetch = some h) (htodo : h.todo = [])
    (hp : s.chip.bus.host = some p) (hs : screen s.chip h.record h.aborted = none) :
    exec .handOffScreen s = .next (s.ends (gained h.ring (s.chip.accepted h p))) := by
  have hacc : onPln (fun x => x.withRing h.ring ((x.ring h.ring).accept h.record)) (release (withByte0 h.data 0x81) (h.be ||| 1)
      (onPln (fun x => { x with fetch := none }) s.chip)) = s.chip.accepted h p := by
    simp only [release, hostPhase, onBus, onPln, hp, Option.map_some, Chip.accepted]
    cases h.ring <;> rfl
  simp only [exec, execHandOffScreen, State.onChip, screenStep, hf, htodo, List.isEmpty_nil, if_true, screenDecided, hs]
  exact congrArg (fun x => Host.Outcome.next (s.ends (gained h.ring x))) hacc

/-- In HELD or MOVING with no segment and nothing queued the slot accepted is taken at once (R113, R117). -/
theorem gained_first (ht : c.sup.ts = .held) (he : c.eng.est = .idle) (hc : c.eng.cur = none)
    (hu : c.pln.urgent.queued = 0) (hm : c.pln.main.queued = 0) :
    gained h.ring (c.accepted h p) = settle (takeOne h.ring (c.accepted h p)) := by
  have htake : canTake (c.accepted h p) = true := by
    simp [canTake, Chip.accepted, ht, he]
  have hcur : (c.accepted h p).eng.cur = none := hc
  simp only [gained, htake, if_true, hcur, takeQueued, and_self, nextRing_accepted hu hm]

/-- A passed screen leaves a WIND with a grant that allows it (R96, R98). -/
theorem screen_wind {r : Record} {b : Bool} (hs : screen c r b = none) (hk : r.kind? = some .wind) :
    ∃ a, c.gnt.active = some a ∧ a.choice.wind = true := by
  cases ha : c.gnt.active with
  | none =>
    simp only [screen, hk, ha, Kind.moving, and_self, if_true] at hs
    split_ifs at hs
  | some a =>
    refine ⟨a, rfl, ?_⟩
    simp only [screen, hk, ha, withinGrant, Option.map_some, Option.getD_some] at hs
    split_ifs at hs
    simp_all

/-- The part with the slot of a passed main hand-off taken at once, the segment `g` begun (R112, R114). -/
def takenMain (c : Chip) (h : HandFetch) (p : HostPort) (g : Seg) : Chip :=
  { c with
    pln := { c.pln with
      fetch := none
      main := (c.pln.main.accept h.record).taken
      list := c.pln.list ++ [.mark .main c.pln.main.take] }
    eng := c.eng.took g (c.sup.ts == .held)
    bus := { c.bus with host := some { p with phase := .ready (withByte0 h.data 0x81) (h.be ||| 1) } } }

theorem takeSlot_accepted (hr : h.ring = .main) (g : Seg) : ({ takeSlot .main h.record (c.accepted h p) with
    eng := (c.accepted h p).eng.took g ((c.accepted h p).sup.ts == .held) } : Chip) = takenMain c h p g := by
  simp only [Chip.accepted, hr]
  rfl

/-- Accepted and taken at once: the slot CURRENT with its record, both indices past it (R93, R104). -/
theorem accept_taken {r : Machine.Ring} (hi : r.take = r.intake) (hlt : r.intake < r.slots.length) (x : Record) :
    (r.accept x).taken.slot r.intake = ⟨.current, some x⟩ ∧ (r.accept x).taken.intake = (r.intake + 1) % r.slots.length ∧
    (r.accept x).taken.take = (r.accept x).taken.intake ∧ (r.accept x).taken.queued = r.queued := by
  simp [Ring.accept, Ring.taken, Ring.slot, Ring.withSlot, Ring.after, hi, hlt]

end Accepted

/-- A speed whose own direction is not limited to 0 has a limited target that is not 0 (R118). -/
theorem limitTarget_own {v : Int} (hv : v ≠ 0) (hl : ∀ d, dirOf v = some d → speedLimit c d ≠ 0) : limitTarget c v ≠ 0 := by
  have hclamp (n : Nat) (hn : n ≠ 0) : clampInt n v ≠ 0 := by
    simp only [clampInt]
    omega
  cases hd : dirOf v with
  | none =>
    exfalso
    simp only [dirOf] at hd
    split at hd
    · simp at hd
    · split at hd
      · simp at hd
      · omega
  | some d =>
    simp only [limitTarget, hd]
    exact hclamp _ (hl d hd)

/-! ## The memory port at the end of a command (R158) -/

theorem done_bus_busy (h : c.bus.port ≠ none) : (done c).bus = c.bus := by
  obtain ⟨cy, hcy⟩ := Option.ne_none_iff_exists'.1 h
  have ht : (tail c).bus.port = some cy := by rw [tail_bus, hcy]
  rw [done, arbitrate, ht]
  exact tail_bus c

/-- A host write released to a free port has it at once, where no fetch reads and the queue has not waited too long. -/
theorem done_bus_released {p : HostPort} {data : Word} {be : Enables} (hport : c.bus.port = none) (hf : c.pln.fetch = none)
    (hm : mailNext? c = none) (hs : sweepNext? c = none) (hh : c.bus.host = some p) (hp : p.phase = .ready data be)
    (hq : c.bus.passOver < 6 ∨ c.bus.queue = []) :
    (done c).bus.port = some (.host p.cyc.addr.toNat p.cyc.write data be false) ∧
    (done c).bus.host = some { p with phase := .inPort } ∧ (done c).bus.queue = c.bus.queue := by
  obtain ⟨-, -, -, -, -, hpln, -, hmbx, -⟩ := plain_blocks (tail_plain c)
  have hbus := tail_bus c
  have hmail : mailNext? (tail c) = none := by
    rw [← hm]
    simp only [mailNext?, hmbx, windowAddr, hbus]
  have hsweep : sweepNext? (tail c) = none := by
    rw [← hs]
    simp only [sweepNext?, hpln, windowAddr, hbus]
  have hhand : HandFetch.next? (tail c) = none := by simp only [HandFetch.next?, hpln, hf]
  have hhost : hostNext? (tail c) = some (.host p.cyc.addr.toNat p.cyc.write data be false) := by
    simp only [hostNext?, hbus, hh, hp]
  have hgr : granted? (tail c) = some (.host p.cyc.addr.toNat p.cyc.write data be false) := by
    rw [granted?_idle (by rw [hhand, hmail, hsweep]; rfl), hhost, hbus]
    cases hqueue : c.bus.queue with
    | nil => rfl
    | cons w ws =>
      rw [hqueue] at hq
      exact if_pos (hq.resolve_right (by simp))
  have hfree : (tail c).bus.port = none := by rw [hbus, hport]
  have hdone : (done c).bus = (tail c).bus.grant (.host p.cyc.addr.toNat p.cyc.write data be false) := by
    rw [done, arbitrate, hfree, hgr]
    rfl
  rw [hdone, hbus]
  simp [Bus.grant, hh, HostPort.atPort]

/-! ## A take from rest (R114) -/

theorem takeSlot_main (r : Record) (c : Chip) : (takeSlot .main r c).pln = { c.pln with
    main := c.pln.main.taken, list := c.pln.list ++ [.mark .main c.pln.main.take] } := rfl

/-- Settles O28: the screen passes, the slot goes on at its take, and the write it released reaches the port. -/
theorem takeFromHeld : Obligations.TakeFromHeld := by
  intro h p k s hts hest hcur href hflag hpinch hf htodo hp hscreen hring hk hkind hspeed hurg hmain htake hlt hlim data
  have hi : (s.chip.pln.ring h.ring).take = (s.chip.pln.ring h.ring).intake := by rw [hring]; exact htake
  have hl : (s.chip.pln.ring h.ring).intake < (s.chip.pln.ring h.ring).slots.length := by rw [hring]; exact hlt
  have hgoes : GoesOn h.record k (s.chip.accepted h p) := by
    refine ⟨⟨hk, by rcases hkind with h | h <;> simp [h]⟩, .inr ⟨by tauto, limitTarget_own hspeed hlim⟩,
      ⟨fun ha => ?_, fun ha => ?_⟩, fun hx => ?_, fun hx => screen_wind hscreen (hx ▸ hk), fun hx hpos => ?_, fun hx => ?_⟩
    · exact absurd (hflag.symm.trans ha.1) (by decide)
    · exact absurd (hflag.symm.trans ha.1) (by decide)
    · rcases hkind with h | h <;> simp [h] at hx
    · rcases hkind with h | h
      · simp [h] at hx
      · simp [h] at hpos
    · rcases hkind with h | h <;> simp [h] at hx
  obtain ⟨b, tm, hone⟩ := takeOne_goes (id := h.ring) hgoes (accepted_record hi hl) fun _ => accepted_queued hurg hmain
  have hx := exec_handOff_accepted hf htodo hp hscreen
  rw [gained_first hts hest hcur hurg hmain, hone] at hx
  rw [hring, takeSlot_accepted hring] at hx
  have hdir : h.record.way k = if 0 < h.record.speed then some .forward else some .reverse := by
    have hk' : ¬ (k = .dwell ∨ k = .stop) := by rcases hkind with h | h <;> simp [h]
    rw [Record.way, if_neg hk', dirOf]
    split_ifs
    · rfl
    · rfl
    · omega
  have hphase : (if (s.chip.accepted h p).drv.pinch = .out then firstPhase k else .release) = .run := by
    rw [if_pos (show (s.chip.accepted h p).drv.pinch = .out from hpinch)]
    rcases hkind with h | h <;> simp [h, firstPhase]
  have hat : ((s.chip.accepted h p).pln.ring .main).take = s.chip.pln.main.intake := by
    obtain ⟨ht, -⟩ := accepted_take s.chip h p
    rw [hring] at ht
    exact ht.trans htake
  rw [hphase, hdir, hat] at hx
  obtain ⟨b', hb'⟩ := done_cur (takenMain s.chip h p _) _ rfl
  obtain ⟨hslot, hin, htk, hqueued⟩ := accept_taken htake hlt h.record
  refine ⟨_, _, hx, hb', rfl, rfl, rfl, rfl, rfl, rfl, ?_⟩
  simp only [settle, outcome, State.ends, done_est, done_moveReq, done_ref, done_ts, done_pln, done_trk, done_gnt]
  refine ⟨rfl, ?_, href, hts, congrArg Slot.view hslot, congrArg Slot.record hslot, hin, htk, hqueued.trans hmain, rfl, ?_,
    fun hport => done_bus_busy hport, fun hport hm hs hq => done_bus_released (c := takenMain s.chip h p _)
      (p := { p with phase := .ready data (h.be ||| 1) }) hport rfl hm hs rfl rfl hq, rfl, rfl, trivial⟩
  · simp [takenMain, Engine.took, hts]
  · simp [takenMain, htake]

end Sys2Proof.Supervision

namespace Sys2Proof.Supervision

open Sys2Proof Sys2Proof.Machine Sys2Proof.Laws Sys2Proof.TapePath

variable {c : Chip}

/-! ## A completion and what follows it (R113, R132, R133) -/

/-- With nothing queued a completion is followed by what R132 to R134 say of empty rings. -/
theorem settle_nothingQueued (g : Seg) (st : Status) (hc : c.eng.cur = some g) (ht : canTake c = true)
    (hu : c.pln.urgent.queued = 0) (hm : c.pln.main.queued = 0) :
    settle (c, .ends st) = nothingQueued g.record.endOfRun g.record.tag (endCur st c) := by
  obtain ⟨hu', hm'⟩ := endCur_queued st c
  have htake : canTake (endCur st c) = true := by
    rw [← ht]
    simp [canTake, endCur_eng]
  simp only [settle, outcome, Chip.curRecord, hc, Option.map_some, Option.getD_some, follow, htake, if_true, nextRing, hu', hm',
    hu, hm, ne_eq, not_true_eq_false, if_false]

/-- With a slot queued a completion is followed by its take (R113). -/
theorem settle_takes (st : Status) {id : RingId} {x : Chip} (ht : canTake c = true)
    (hn : nextRing (endCur st c) = some id) (hx : takeOne id (endCur st c) = (x, .goes)) : settle (c, .ends st) = x := by
  have htake : canTake (endCur st c) = true := by
    rw [← ht]
    simp [canTake, endCur_eng]
  simp only [settle, outcome, follow, htake, if_true, hn, hx]

/-- The engine IDLE with the finish request (R21, R132). -/
def finishing (e : Engine) : Engine := { e with est := .idle, held := 0, starve := none, frac := 0, finishReq := true }

/-- In HELD at zero speed the engine is IDLE and the finish request stands beside the move request (R21, R132). -/
theorem settle_finishes (g : Seg) (st : Status) (hc : c.eng.cur = some g) (ht : c.sup.ts = .held) (he : c.eng.est ≠ .halting)
    (hr : c.eng.ref = 0) (hreq : c.eng.moveReq = true) (hu : c.pln.urgent.queued = 0) (hm : c.pln.main.queued = 0) :
    settle (c, .ends st) =
      onEng finishing (endCur st c) := by
  rw [settle_nothingQueued g st hc (by simp [canTake, ht, he]) hu hm, nothingQueued, if_pos (by simp [endCur_eng, hr]), finishRun]
  simp [ht, endCur_eng, hreq, onEng, finishing]

/-- The end of the current segment takes one slot out of its ring's views and leaves the ring's indices (R92, R93). -/
theorem endCur_ring (st : Status) {g : Seg} (hc : c.eng.cur = some g) (id : RingId) :
    ((endCur st c).pln.ring id).take = (c.pln.ring id).take ∧ ((endCur st c).pln.ring id).intake = (c.pln.ring id).intake ∧
    ((endCur st c).pln.ring id).queued = (c.pln.ring id).queued ∧
    ((endCur st c).pln.ring id).slots.length = (c.pln.ring id).slots.length ∧
    ∀ i, ¬ (g.ring = id ∧ g.slot = i) → ((endCur st c).pln.ring id).slot i = (c.pln.ring id).slot i := by
  obtain ⟨hself, hother, -⟩ := endCur_rings st c g hc
  by_cases h : id = g.ring
  · subst h
    rw [hself]
    refine ⟨rfl, rfl, rfl, by simp [Ring.withSlot], fun i hi => ?_⟩
    have hne : g.slot ≠ i := fun h => hi ⟨rfl, h⟩
    simp [Ring.slot, Ring.withSlot, hne]
  · rw [hother id h]
    exact ⟨rfl, rfl, rfl, rfl, fun _ _ => rfl⟩

theorem endCur_slot (st : Status) {g : Seg} (hc : c.eng.cur = some g) :
    (((endCur st c).pln.ring g.ring).slot g.slot).view = .host := by
  obtain ⟨hself, -⟩ := endCur_rings st c g hc
  rw [hself]
  by_cases h : g.slot < (c.pln.ring g.ring).slots.length <;> simp [Ring.slot, Ring.withSlot, h]

theorem endCur_reported (st : Status) {g : Seg} (hc : c.eng.cur = some g) (hm : c.mode = .running) :
    (endCur st c).evt.posted = c.evt.posted ++ g.reported st c := by
  rw [endCur_some st c g hc hm]
  rfl

theorem endCur_mainReturns (st st' : Status) {g : Seg} (hc : c.eng.cur = some g) :
    (endCur st c).mainReturns st' = c.mainReturns st' := by
  obtain ⟨htake, -, hqueued, hlen, -⟩ := endCur_ring st hc .main
  rw [Plan.ring] at htake hqueued hlen
  simp only [Chip.mainReturns, endCur_frame]
  rw [Plan.ring] at htake hqueued hlen
  rw [htake, hqueued, hlen]

/-! ## A take toward a flagged end (R114, R130) -/

section Flagged

variable {h : HandFetch} {p : HostPort}

/-- The rings after the take of the one slot accepted: nothing queued, and a flush finds nothing to return (R107, R116). -/
theorem takeSlot_accepted_queued (hu : c.pln.urgent.queued = 0) (hm : c.pln.main.queued = 0) :
    (takeSlot h.ring h.record (c.accepted h p)).pln.urgent.queued = 0 ∧
    (takeSlot h.ring h.record (c.accepted h p)).pln.main.queued = 0 := by
  unfold takeSlot Chip.accepted
  cases h.ring <;> dsimp only <;> split <;>
    simp [Plan.ring, Plan.withRing, Ring.taken, Ring.withSlot, flushRing, Ring.flushed, onPln, hu, hm]

theorem takeSlot_accepted_list (hu : c.pln.urgent.queued = 0) (hm : c.pln.main.queued = 0) :
    (takeSlot h.ring h.record (c.accepted h p)).pln.list = c.pln.list ++ [.mark h.ring (c.pln.ring h.ring).take] := by
  unfold takeSlot Chip.accepted
  cases h.ring <;> dsimp only <;> split <;>
    simp_all [Plan.ring, Plan.withRing, Ring.taken, Ring.withSlot, flushRing, Ring.flushed, Ring.queuedSlots, onPln]

theorem takeSlot_intake (id : RingId) (r : Record) (c : Chip) :
    ((takeSlot id r c).pln.ring id).intake = (c.pln.ring id).intake := by
  unfold takeSlot
  cases id <;> dsimp only <;> split <;> simp_all [Plan.ring, Plan.withRing, Ring.taken, Ring.withSlot, flushRing, onPln]

/-- The part in HELD with the slot of a passed hand-off taken at once, the segment `g` in the engine (R112, R114). -/
def takenHeld (c : Chip) (h : HandFetch) (p : HostPort) (g : Seg) : Chip :=
  { c with
    pln := (takeSlot h.ring h.record (c.accepted h p)).pln
    eng := c.eng.took g true
    bus := (c.accepted h p).bus }

theorem takeSlot_held (hts : c.sup.ts = .held) (g : Seg) : ({ takeSlot h.ring h.record (c.accepted h p) with
    eng := (c.accepted h p).eng.took g ((c.accepted h p).sup.ts == .held) } : Chip) = takenHeld c h p g := by
  obtain ⟨pl, hpl⟩ := takeSlot_frame h.ring h.record (c.accepted h p)
  have hheld : ((c.accepted h p).sup.ts == .held) = true := by
    show (c.sup.ts == .held) = true
    rw [hts]
    rfl
  rw [takenHeld, hpl, hheld]
  rfl

/-- The take of an accepted slot toward a flagged end is its completion, with the transport still HELD. -/
theorem flaggedTake {k : Kind} {d : Dir} {s : State} (hts : s.chip.sup.ts = .held)
    (hest : s.chip.eng.est = .idle) (hcur : s.chip.eng.cur = none) (href : s.chip.eng.ref = 0)
    (hf : s.chip.pln.fetch = some h) (htodo : h.todo = []) (hp : s.chip.bus.host = some p)
    (hscreen : screen s.chip h.record h.aborted = none) (hk : h.record.kind? = some k)
    (hd : (k = .spool ∨ k = .play ∨ k = .wind) ∧ dirOf h.record.speed = some d ∨
      k = .locate ∧ (∃ l, latchLocate s.chip h.record = .inl l ∧ dirOf (l.target - s.chip.trk.position) = some d))
    (hflag : s.chip.trk.endFlag = (if d = .forward then .forwardEnd else .reverseEnd))
    (hu : s.chip.pln.urgent.queued = 0) (hm : s.chip.pln.main.queued = 0)
    (hi : (s.chip.pln.ring h.ring).take = (s.chip.pln.ring h.ring).intake)
    (hlt : (s.chip.pln.ring h.ring).intake < (s.chip.pln.ring h.ring).slots.length) :
    ∃ g : Seg, g.ring = h.ring ∧ g.slot = (s.chip.pln.ring h.ring).intake ∧ g.record = h.record ∧
      exec .handOffScreen s = .next (s.ends (onEng finishing
        (endCur (if k = .wind then .done else .tapeEnd) (takenHeld s.chip h p g)))) := by
  have hd' : (k = .spool ∨ k = .play ∨ k = .wind) ∧ dirOf h.record.speed = some d ∨ k = .locate ∧
      (∃ l, latchLocate (s.chip.accepted h p) h.record = .inl l ∧
        dirOf (l.target - (s.chip.accepted h p).trk.position) = some d) := by
    refine hd.imp id fun ⟨hloc, l, hl, hdir⟩ => ⟨hloc, l, ?_, hdir⟩
    exact (latchLocate_congr (c := s.chip) rfl rfl h.record).trans hl
  obtain ⟨g, hring, hslot, hrec, hone⟩ := takeOne_flagged hk hd' hflag href (accepted_record (p := p) hi hlt)
  obtain ⟨hu', hm'⟩ := takeSlot_accepted_queued (h := h) (p := p) hu hm
  have hx := exec_handOff_accepted hf htodo hp hscreen
  rw [gained_first hts hest hcur hu hm, hone, takeSlot_held hts,
    settle_finishes (c := takenHeld s.chip h p g) g _ rfl hts (by simp [takenHeld, Engine.took]) href
      (by simp [takenHeld, Engine.took]) hu' hm'] at hx
  exact ⟨g, hring, hslot.trans ((accepted_take s.chip h p).1.trans hi), hrec, hx⟩

end Flagged

/-- Settles O30: the take that a flagged end completes, the take that follows a completion, and the run that ends. -/
theorem takesAtCompletion : Obligations.TakesAtCompletion := by
  refine ⟨?_, ?_, ?_⟩
  · intro h p k d s hmode hts hest hcur href hf htodo hp hscreen hk hd hflag hurg hmain r hi hlt st
    obtain ⟨g, hring, hslot, hgrec, hx⟩ := flaggedTake hts hest hcur href hf htodo hp hscreen hk hd hflag hurg hmain hi hlt
    refine ⟨_, hx, ?_⟩
    obtain ⟨-, -, hlist⟩ := endCur_rings st (takenHeld s.chip h p g) g rfl
    have hposted := endCur_reported st (c := takenHeld s.chip h p g) rfl hmode
    obtain ⟨-, hin', hq', -⟩ := endCur_ring st (c := takenHeld s.chip h p g) rfl h.ring
    have hview := endCur_slot st (c := takenHeld s.chip h p g) rfl
    obtain ⟨-, hin, hlen⟩ := accepted_take s.chip h p
    simp only [State.ends, done_cur_none, done_est, done_ref, done_moveReq, done_finishReq, done_ts, done_pln, done_evt,
      done_trk, done_gnt, onEng_pln, onEng_evt, onEng_trk, onEng_gnt, onEng_sup, onEng_eng, endCur_frame, endCur_eng]
    rw [hring, hslot] at hview
    refine ⟨rfl, rfl, href, by simp [finishing, takenHeld, Engine.took], rfl, hts, ?_, hview, ?_, ?_, ?_, rfl, rfl, trivial⟩
    · rw [hlist, hring, hslot]
      simp only [takenHeld, takeSlot_accepted_list hurg hmain, List.append_assoc]
      rw [show (s.chip.pln.ring h.ring).take = r.intake from hi]
      rfl
    · rw [hq']
      simp only [takenHeld, takeSlot_queued, accepted_queued hurg hmain]
    · rw [hin']
      simp only [takenHeld, takeSlot_intake, hin, r]
    · rw [hposted, Seg.reported, hgrec, hring, hslot]
      rfl
  · intro g n r k id s hmode hts hest hcur htm h0 h1 hkind hid q hq hlt hrec hne hgo hopen
    obtain ⟨htake, hintake, hqueued, hlen, hslots⟩ := endCur_ring g.doneStatus hcur id
    have hnext : nextRing (endCur g.doneStatus s.chip) = some id := by
      obtain ⟨hu, hm⟩ := endCur_queued g.doneStatus s.chip
      rw [nextRing, hu, hm, hid]
      by_cases h : s.chip.pln.urgent.queued = 0
      · have hm' : s.chip.pln.main.queued ≠ 0 := by simpa [q, hid, h, Plan.ring] using hq
        simp [h, hm']
      · simp [h]
    have hgo' : GoesOn r k (endCur g.doneStatus s.chip) := by
      refine goesOn_congr hgo ?_ ?_ ?_ ?_ ?_ <;> simp [endCur_eng]
    obtain ⟨htaken, hpln, hevt, hpinch, hgoes⟩ := taken_of_takeOne (id := id) (s := s) hgo' (by simp) (by simp) (by simp) (by simp)
      (by simp) (by simp) (by simp [endCur_eng]) hts hlen (by rw [htake, hlen]; exact hlt)
      (by rw [htake, hslots _ hne]; exact hrec) (fun h => hqueued.trans (hopen h))
    have hx := duration_ends g n s hts hest hcur htm h0 h1 hkind
    rw [complete, settle_takes _ (by simp [canTake, hts, hest]) hnext (x := (takeOne id (endCur g.doneStatus s.chip)).1)
      (Prod.ext rfl hgoes)] at hx
    rw [htake] at htaken
    obtain ⟨-, -, hlist⟩ := endCur_rings g.doneStatus s.chip g hcur
    obtain ⟨-, -, -, -, hlist', -⟩ := takeSlot_ring id r (endCur g.doneStatus s.chip)
    refine ⟨_, hx, htaken, ?_, ?_, ?_, ?_, ?_⟩
    · rw [hpln, takeSlot_queued, hqueued]
    · rw [hpln, takeSlot_intake, hintake]
    · rw [hpln, hlist', hlist, htake, endCur_mainReturns _ _ hcur]
      simp [q]
    · rw [hevt, endCur_reported _ hcur hmode]
    · rw [hpinch]
      simp
  · intro g n s hmode hts hest hcur htm h0 h1 hk hph hpos hurg hmain href hend
    have hx := duration_ends g n s hts hest hcur htm h0 h1 (.inl ⟨hk, hph, hpos⟩)
    have hts' : (onEng (fun e => { e with est := .halting }) (endCur g.doneStatus s.chip)).sup.ts = .moving := by simp [hts]
    rw [complete, settle_nothingQueued g _ hcur (by simp [canTake, hts, hest]) hurg hmain, nothingQueued,
      if_neg (by simpa [endCur_eng] using href), if_pos hend, stopCause, hts'] at hx
    obtain ⟨-, -, hlist⟩ := endCur_rings g.doneStatus s.chip g hcur
    have hreported := endCur_reported g.doneStatus hcur hmode
    generalize hx' : onEng (fun e => { e with est := .halting }) (endCur g.doneStatus s.chip) = x at hx
    have hnone : x.eng.cur = none := by rw [← hx']; simp [endCur_eng]
    have hmx : x.mode = .running := by rw [← hx']; simp [hmode]
    obtain ⟨hstopping, hstop, htrip, hlatch, hgnt⟩ := stopMoving_sup .endOfRun x
    have hposts := stopMoving_posts .endOfRun x rfl hmx hnone
    have hpln := (stopMoving_pln .endOfRun x).1 rfl
    have hend : endCur StopCause.endOfRun.endStatus x = x := by simp [endCur, hnone]
    rw [hend] at hpln
    refine ⟨_, hx, ?_⟩
    simp only [State.ends, done_ts, done_stop, done_latch, done_trip, done_est, done_cur_none, done_ref, done_pln, done_evt,
      done_trk, done_gnt, done_set, stopMoving_frame, hstopping, hstop, htrip, hlatch, hgnt, hposts, hpln, stopMoving_eng]
    subst hx'
    refine ⟨trivial, trivial, ?_, ?_, rfl, rfl, ?_, ?_, ?_, ?_, ?_, ?_, trivial⟩
    · simp [StopCause.latches]
    · simp
    · simp [Engine.halted, endCur_eng]
    · exact hlist
    · simp [hreported, Chip.event, StopCause.code, hts, TState.code]
    · simp
    · simp
    · simp

end Sys2Proof.Supervision

namespace Sys2Proof.Supervision

open Sys2Proof Sys2Proof.Machine Sys2Proof.Laws Sys2Proof.TapePath

variable {c : Chip}

/-! ## Posts held at start-up (R57, R165) -/

theorem postEvent_startup (h : c.mode = .startup) (k : EventKind) (d t : Nat) (v : Int) : postEvent k d t v c =
    { c with evt := { c.evt with held := c.evt.held ++ [.event (c.event k d t v)] } } := by
  simp only [postEvent, postEventAt, h]
  rfl

theorem postNotice_startup (h : c.mode = .startup) (k : Notice) : postNotice k c =
    { c with evt := { c.evt with held := c.evt.held ++ [.notice k] } } := by
  simp only [postNotice, h]

/-- An entry that finds no grant to drop, and no request pending, announces the change alone: at start-up a held post. -/
theorem enter_startup_held (hm : c.mode = .startup) {n : TState} (hn : n = .threaded ∨ n = .tripped)
    (ha : c.gnt.active = none) (hr : n = .threaded ∨ c.gnt.request = none) : (enter n c).evt.held = c.evt.held ++
      [.event (c.event .stateChanged n.code c.curTag c.sup.ts.code), .notice .stateChanged] := by
  have hg : enterGrant n c = c := by
    have hdrop : dropActive droppedState c = c := by simp [dropActive, ha]
    rw [enterGrant, hdrop, ite_self]
    split
    next h => simp [cancelPending, hr.resolve_left h.2]
    next => rfl
  have hne : n ≠ .unthreaded ∧ n ≠ .held ∧ n.dropsGrant = true := by rcases hn with h | h <;> simp [h, TState.dropsGrant]
  simp only [enter, hg, hne, if_true, if_false, idleEngine_frame, enterStage_frame]
  rw [postEvent_startup (by simpa using hm), postNotice_startup (by simpa using hm)]
  simp [onSup, Chip.event, Chip.curTag]

/-! ## The first state (R51) -/

theorem startIn_eq (ts : TState) (i : Option (Fin 8)) (r : Ramp) (c : Chip) : startIn ts i r c = { c with
    sup := { c.sup with up := true, ts := ts, threaded := if ts = .unthreaded then none else i, tension := r }
    gnt := { c.gnt with threaded := if ts = .unthreaded then none else i } } := rfl

theorem claimCarry_held {r : CarryRec} (hm : c.mode = .startup) (hc : c.drv.carry = .held) (hr : c.drv.carryRec = some r) :
    claimCarry c = { c with
      drv := c.drv.dropCarry
      evt := { c.evt with held := c.evt.held ++ [.event (c.event .catchClaimed r.ts.code 0 c.trk.maxSurface)] } } := by
  simp only [claimCarry, hc, hr]
  rw [postEvent_startup (by exact hm)]
  rfl

/-- With a brake order to both reels: OFF or TORQUE, both brakes ENGAGED (R25, R43, R59). -/
theorem orderBoth_engaged (d : Drive) (m : DriveMode) (hm : m = .off ∨ m = .torque) :
    (d.orderBoth m 0 true).sup.mode = m ∧ (d.orderBoth m 0 true).tup.mode = m ∧
    (d.orderBoth m 0 true).sup.engaged = true ∧ (d.orderBoth m 0 true).tup.engaged = true := by
  obtain ⟨⟨m1, t1, e1, r1, o1, f1⟩, ⟨m2, t2, e2, r2, o2, f2⟩, _⟩ := d
  rcases hm with rfl | rfl
  · cases e2 <;> cases o1 <;> cases o2 <;> exact ⟨rfl, rfl, rfl, rfl⟩
  · cases e2 <;> cases r2 <;> cases o1 <;> cases o2 <;> cases m2 <;> exact ⟨rfl, rfl, rfl, rfl⟩

/-- What the first state leaves of the part: the tracker, the inputs, the latch and the stop cause stand. -/
structure Started (c d : Chip) : Prop where
  blocks : d.mode = c.mode ∧ d.clock = c.clock ∧ d.pins = c.pins ∧ d.trk = c.trk ∧ d.set = c.set
  up : d.sup.up = true
  word : d.sup.latch = c.sup.latch ∧ d.sup.stop = c.sup.stop
  state : d.sup.ts ≠ .moving ∧ d.sup.ts ≠ .stopping ∧ d.sup.ts ≠ .held

theorem started_startIn {d : Chip} {ts : TState} (hd : d.mode = c.mode ∧ d.clock = c.clock ∧ d.pins = c.pins ∧ d.trk = c.trk ∧
    d.set = c.set) (hs : d.sup = c.sup) (ht : ts ≠ .moving ∧ ts ≠ .stopping ∧ ts ≠ .held) (i : Option (Fin 8)) (r : Ramp) :
    Started c (startIn ts i r d) where
  blocks := hd
  up := rfl
  word := by rw [← hs]; exact ⟨rfl, rfl⟩
  state := ht

theorem started_onDrive {d : Chip} (h : Started c d) (f : Drive → Drive) : Started c (onDrive f d) := ⟨h.blocks, h.up, h.word, h.state⟩

theorem started_startFromPath {c d : Chip} (hd : d.mode = c.mode ∧ d.clock = c.clock ∧ d.pins = c.pins ∧ d.trk = c.trk ∧
    d.set = c.set) (hs : d.sup = c.sup) (i : Option (Fin 8)) : Started c (startFromPath i d) := by
  refine started_onDrive (started_startIn hd hs ?_ i .zero) _
  unfold pathTState
  split <;> simp

theorem started_engageBrakes {d : Chip} (h : Started c d) : Started c (engageBrakes d) := by
  obtain ⟨hblocks, hup, hword, hstate⟩ := h
  unfold engageBrakes
  dsimp only
  split
  · exact ⟨by simpa using hblocks, by simpa using hup, by simpa using hword, by simp⟩
  · exact ⟨hblocks, hup, hword, hstate⟩

theorem started_firstState (c : Chip) : Started c (firstState c) := by
  have hown : Started c (startFromPath none c) := started_startFromPath ⟨rfl, rfl, rfl, rfl, rfl⟩ rfl _
  have hdrop (i : Option (Fin 8)) : Started c (startFromPath i (onDrive (·.dropCarry) c)) :=
    started_startFromPath (c := c) (d := onDrive (·.dropCarry) c) ⟨rfl, rfl, rfl, rfl, rfl⟩ rfl i
  have hclaim (r : CarryRec) {ts : TState} (ht : ts ≠ .moving ∧ ts ≠ .stopping ∧ ts ≠ .held) (x : Ramp) :
      Started c (startIn ts r.threaded x (claimCarry c)) := started_startIn (by simp) (by simp) ht _ _
  have hcatch (r : CarryRec) : Started c (onSup (fun s => { s with claimPending := true })
      (startIn .catching r.threaded (Ramp.at r.tension) c)) := by
    obtain ⟨hblocks, hup, hword, hstate⟩ := started_startIn (c := c) (ts := .catching) ⟨rfl, rfl, rfl, rfl, rfl⟩ rfl (by simp)
      r.threaded (Ramp.at r.tension)
    exact ⟨hblocks, hup, hword, hstate⟩
  have hover (r : CarryRec) : Started c (takeOver r c) := by
    obtain ⟨-, -, hstop, hlatch⟩ := tripWord_fields (startIn .tripped r.threaded .zero (onDrive (·.dropCarry) c)).sup
      .catchFailed .none
    obtain ⟨-, hup, -⟩ := tripWord_stands (startIn .tripped r.threaded .zero (onDrive (·.dropCarry) c)).sup .catchFailed .none
    refine ⟨by simp [takeOver, failStart, startIn_eq], ?_, ?_, by simp [takeOver, failStart, Supervisor.entered]⟩
    · simp only [takeOver, failStart, postNotice_sup, postEvent_sup, onSup_sup, idleEngine_frame, tripOutputs_frame]
      exact hup
    · simp only [takeOver, failStart, postNotice_sup, postEvent_sup, onSup_sup, idleEngine_frame, tripOutputs_frame]
      exact ⟨hlatch, hstop⟩
  unfold firstState
  split
  next r _ _ =>
    split
    case h_1 | h_2 => exact hdrop _
    case h_8 =>
      unfold resumeSlack
      dsimp only
      split
      · exact started_engageBrakes (hclaim r (by simp) _)
      · exact hclaim r (by simp) _
    case h_9 => exact started_onDrive (hclaim r (by simp) _) _
    all_goals exact hcatch r
  next r _ _ =>
    split
    case h_1 | h_2 => exact hdrop _
    all_goals exact hover r
  · exact hown

/-! ## The inputs that stand asserted at the start (R28, R34) -/

/-- The causes of the inputs other than FLT_CAP, as the start takes them. -/
def startCauses (c : Chip) : Chip :=
  if c.sup.ts.trips then tripStanding c
  else
    let c := if c.pins.powerFail then postEvent .faultInput 1 0 0 c else c
    let c := if c.pins.fltSupply then postEvent .faultInput 2 0 0 c else c
    if c.pins.fltTup then postEvent .faultInput 3 0 0 c else c

theorem startInputs_eq (c : Chip) : startInputs c =
    if (startCauses c).pins.fltCap then stopCause .capstanFault (startCauses c) else startCauses c := rfl

theorem startCauses_none (hp : c.pins.powerFail = false) (hs : c.pins.fltSupply = false) (ht : c.pins.fltTup = false) :
    startCauses c = c := by
  simp [startCauses, tripStanding, hp, hs, ht]

theorem startInputs_none (hp : c.pins.powerFail = false) (hs : c.pins.fltSupply = false) (ht : c.pins.fltTup = false)
    (hc : c.pins.fltCap = false) : startInputs c = c := by
  rw [startInputs_eq, startCauses_none hp hs ht, hc]
  rfl

section Inputs

variable {a : Chip}

theorem started_postEvent (h : Started a c) (k : EventKind) (d t : Nat) (v : Int) : Started a (postEvent k d t v c) := by
  obtain ⟨hblocks, hup, hword, hstate⟩ := h
  exact ⟨by simpa using hblocks, by simpa using hup, by simpa using hword, by simpa using hstate⟩

/-- A trip from where the carry has been claimed (R29, R52). -/
def tripFrom (own : Bool) (k : TripCause) (i : Side) (c : Chip) : Chip :=
  let lost := tripPosition k (tripOutputs own (onSup (fun s => { s with catchHold := false, brk := none, exc := none }) c))
  enter .tripped (postNotice .tripped (postEvent .trip k.code lost.curTag i.code
    (onSup (·.tripWord k i) (idleEngine (flushBoth .faultFlushed (endCur .faultFlushed lost))))))

theorem tripNow_from (k : TripCause) (i : Side) (c : Chip) : tripNow k i c =
    tripFrom c.drv.ownStop k i (if c.sup.claimPending then claimCarry c else c) := rfl

theorem tripFrom_sup (own : Bool) (k : TripCause) (i : Side) (c : Chip) : (tripFrom own k i c).sup.ts = .tripped ∧
    (tripFrom own k i c).sup.up = c.sup.up ∧ (tripFrom own k i c).sup.latch = c.sup.latch ∧
    (tripFrom own k i c).sup.stop = c.sup.stop ∧ (tripFrom own k i c).sup.claimPending = c.sup.claimPending ∧
    (tripFrom own k i c).sup.trip = (if c.sup.trip = .none then k else c.sup.trip) ∧
    (tripFrom own k i c).sup.side = (if c.sup.trip = .none then i else c.sup.side) := by
  obtain ⟨htrip, hside, hstop, hlatch⟩ := tripWord_fields { c.sup with catchHold := false, brk := none, exc := none } k i
  obtain ⟨-, hup, hclaim⟩ := tripWord_stands { c.sup with catchHold := false, brk := none, exc := none } k i
  simp only [tripFrom, enter_supFrame, postNotice_sup, postEvent_sup, onSup_sup, idleEngine_frame, flushBoth_frame,
    endCur_frame, tripPosition_frame, tripOutputs_frame, htrip, hside, hstop, hlatch, hup, hclaim, and_self]

theorem started_tripFrom (h : Started a c) {k : TripCause} (hk : k = .powerLoss ∨ k = .driveFault) (own : Bool) (i : Side) :
    Started a (tripFrom own k i c) := by
  obtain ⟨hblocks, hup, hword, -⟩ := h
  have hpos (x : Chip) : tripPosition k x = x := by rcases hk with rfl | rfl <;> rfl
  obtain ⟨hts, hup', hlatch, hstop, -⟩ := tripFrom_sup own k i c
  refine ⟨by simpa [tripFrom, hpos] using hblocks, hup'.trans hup, ?_, by simp [hts]⟩
  rw [hlatch, hstop]
  exact hword

theorem started_claimCarry (h : Started a c) : Started a (claimCarry c) := by
  obtain ⟨hblocks, hup, hword, hstate⟩ := h
  exact ⟨by simpa using hblocks, by simpa using hup, by simpa using hword, by simpa using hstate⟩

theorem started_tripNow (h : Started a c) {k : TripCause} (hk : k = .powerLoss ∨ k = .driveFault) (i : Side) :
    Started a (tripNow k i c) := by
  rw [tripNow_from]
  refine started_tripFrom ?_ hk _ i
  split
  · exact started_claimCarry h
  · exact h

theorem started_trip (h : Started a c) {k : TripCause} (hk : k = .powerLoss ∨ k = .driveFault) (i : Side) :
    Started a (trip k i c) := by
  unfold trip
  split
  case h_1 | h_2 => exact h
  case h_3 => exact started_postEvent h ..
  all_goals exact started_tripNow h hk i

theorem started_startCauses (h : Started a c) : Started a (startCauses c) := by
  have hpost {x : Chip} (hx : Started a x) (b : Bool) (n : Nat) : Started a (if b then postEvent .faultInput n 0 0 x else x) := by
    split
    · exact started_postEvent hx ..
    · exact hx
  have htrip {x : Chip} (hx : Started a x) (b : Bool) {k : TripCause} (hk : k = .powerLoss ∨ k = .driveFault) (i : Side) :
      Started a (if b then trip k i x else x) := by
    split
    · exact started_trip hx hk i
    · exact hx
  unfold startCauses
  split
  · exact htrip (htrip h _ (.inl rfl) _) _ (.inr rfl) _
  · exact hpost (hpost (hpost h _ _) _ _) _ _

end Inputs

/-- A latching cause at rest is recorded and reported, the rings being flushed (R32). -/
theorem stopCause_resting (k : StopCause) (h : c.sup.ts ≠ .moving ∧ c.sup.ts ≠ .stopping ∧ c.sup.ts ≠ .held) :
    stopCause k c = postEvent .stop k.code 0 2 (latchAndFlush k (onSup (fun s => { s with stop := k }) c)) := by
  obtain ⟨hm, hs, hh⟩ := h
  unfold stopCause
  split
  case h_1 ht => exact absurd ht hm
  case h_2 ht => exact absurd ht hs
  case h_3 ht => exact absurd ht hh
  all_goals rfl

/-- The posts of a latching cause at rest at start-up, where the latch is not yet set. -/
theorem stopCause_startup {k : StopCause} (hk : k.latches = true) (hm : c.mode = .startup) (hl : c.sup.latch = false)
    (h : c.sup.ts ≠ .moving ∧ c.sup.ts ≠ .stopping ∧ c.sup.ts ≠ .held) :
    (stopCause k c).sup = { c.sup with stop := k, latch := true } ∧ (stopCause k c).drv = c.drv ∧
    (stopCause k c).evt.held = c.evt.held ++ [.notice .stopLatched, .event (c.event .stop k.code 0 2)] := by
  have hlatch : setLatch (onSup (fun s => { s with stop := k }) c) = { c with
      sup := { c.sup with stop := k, latch := true }
      evt := { c.evt with held := c.evt.held ++ [.notice .stopLatched] } } := by
    rw [setLatch, if_neg (by simp [hl]), postNotice_startup (by exact hm)]
    rfl
  rw [stopCause_resting k h, latchAndFlush, if_pos hk, hlatch, postEvent_startup (by simpa using hm)]
  simp [Chip.event]

/-- What the start leaves, the FLT_CAP cause being taken last: its notice and its STOP are the last posts held. -/
structure StartsWith (a d e : Chip) : Prop where
  up : e.sup.up = true
  word : e.sup.latch = a.pins.fltCap ∧ e.sup.stop = (if a.pins.fltCap then .capstanFault else .none)
  tracker : e.trk = a.trk
  state : e.sup.ts = d.sup.ts ∧ e.sup.trip = d.sup.trip ∧ e.sup.side = d.sup.side ∧ e.sup.claimPending = d.sup.claimPending
  stage : e.drv = d.drv
  posts : e.evt.held = d.evt.held ++
    (if a.pins.fltCap then [.notice .stopLatched, .event (a.event .stop 6 0 2)] else [])

theorem startInputs_starts {a : Chip} (hm : a.mode = .startup) (h : Started a c) (ha : a.sup.latch = false ∧ a.sup.stop = .none) :
    StartsWith a (startCauses c) (startInputs c) := by
  obtain ⟨⟨hmode, hclock, hpins, htrk, -⟩, hup, ⟨hlatch, hstop⟩, hstate⟩ := started_startCauses h
  rw [startInputs_eq, hpins]
  cases hcap : a.pins.fltCap
  · exact ⟨hup, by simp [hcap, hlatch, hstop, ha], htrk, ⟨rfl, rfl, rfl, rfl⟩, rfl, by simp [hcap]⟩
  · obtain ⟨hsup, hdrv, hheld⟩ := stopCause_startup (k := .capstanFault) rfl (hmode.trans hm) (hlatch.trans ha.1) hstate
    have hevent : (startCauses c).event .stop StopCause.capstanFault.code 0 2 = a.event .stop 6 0 2 := by
      simp [Chip.event, hclock, htrk, StopCause.code]
    simp only [if_true]
    exact ⟨by rw [hsup, hup], by simp [hsup, hcap], by simpa using htrk, by simp [hsup], hdrv, by rw [hheld, hevent]; simp [hcap]⟩

theorem exec_supervisorStart {s : State} (hm : s.chip.mode = .startup) (hl : s.chip.set.loaded = true)
    (hs : s.chip.sup = .reset) : exec .supervisorStart s = .next (s.ends (startInputs (firstState s.chip))) := by
  have hstep : startStep s.chip = startInputs (firstState s.chip) := if_pos ⟨hm, hl, by rw [hs]; rfl⟩
  simp only [exec, execSupervisorStart, State.onChip, hstep]
  rfl

end Sys2Proof.Supervision

namespace Sys2Proof.Supervision

open Sys2Proof Sys2Proof.Machine Sys2Proof.Laws Sys2Proof.TapePath

variable {c : Chip}

/-! ## SUPERVISOR_START by the carry it finds (R18, R51) -/

theorem firstState_fresh (h : c.drv.carry = .none) : firstState c = startFromPath none c := by
  simp only [firstState, h]

section Carried

variable {r : CarryRec}

theorem firstState_path (hc : c.drv.carry = .held) (hr : c.drv.carryRec = some r) (ht : r.ts = .unthreaded ∨ r.ts = .threaded) :
    firstState c = startFromPath r.threaded (onDrive (·.dropCarry) c) := by
  rcases ht with ht | ht <;> simp only [firstState, hc, hr, ht]

/-- The part in CATCHING with the claim outstanding (R51). -/
def catchingFirst (r : CarryRec) (c : Chip) : Chip :=
  { c with
    sup := { c.sup with up := true, ts := .catching, threaded := r.threaded, tension := Ramp.at r.tension, claimPending := true }
    gnt := { c.gnt with threaded := r.threaded } }

theorem firstState_catching (hc : c.drv.carry = .held) (hr : c.drv.carryRec = some r)
    (ht : r.ts = .tensioning ∨ r.ts = .held ∨ r.ts = .moving ∨ r.ts = .stopping ∨ r.ts = .catching) :
    firstState c = catchingFirst r c := by
  rcases ht with ht | ht | ht | ht | ht <;> simp only [firstState, hc, hr, ht] <;> rfl

theorem firstState_slacking (hc : c.drv.carry = .held) (hr : c.drv.carryRec = some r) (ht : r.ts = .slacking) :
    firstState c = resumeSlack r c := by
  simp only [firstState, hc, hr, ht]

theorem firstState_tripped (hc : c.drv.carry = .held) (hr : c.drv.carryRec = some r) (ht : r.ts = .tripped) :
    firstState c = emergencyBoth (startIn .tripped r.threaded .zero (claimCarry c)) := by
  simp only [firstState, hc, hr, ht]

end Carried

/-! ### A start by the path (R18, R25) -/

/-- The state and the outputs of a start by the path, at the end of the command. -/
theorem startFromPath_done (i : Option (Fin 8)) (c : Chip) : let d := done (startFromPath i c)
    let index := if c.trk.path = .present then i else none
    d.sup.up = true ∧ d.sup.ts = (if c.trk.path = .present then .threaded else .unthreaded) ∧ d.sup.threaded = index ∧
    d.gnt.threaded = index ∧ d.drv.sup.engaged = true ∧ d.drv.tup.engaged = true ∧ d.drv.sup.mode = .off ∧
    d.drv.tup.mode = .off ∧ d.evt = c.evt ∧ d.ntc = c.ntc ∧ d.trk = c.trk ∧ d.pln = c.pln ∧ d.set = c.set := by
  obtain ⟨h₁, h₂, h₃, h₄⟩ := orderBoth_engaged c.drv .off (.inl rfl)
  by_cases hp : c.trk.path = .present <;>
    simp [startFromPath, startIn_eq, pathTState, onDrive, hp, h₁, h₂, h₃, h₄]

theorem startFromPath_carry (i : Option (Fin 8)) (c : Chip) : (startFromPath i c).drv.carry = c.drv.carry ∧
    (startFromPath i c).drv.carryTimer = c.drv.carryTimer := by
  have h := stage_orderBoth c.drv .off 0 true
  exact ⟨h.carry, h.timer⟩

/-! ### A claim that stays outstanding (R51, R52) -/

theorem listens_catchingFirst {r : CarryRec} (hc : c.drv.carry = .held) : (catchingFirst r c).listens = false := by
  simp [Chip.listens, catchingFirst, hc]

/-! ### A carried SLACKING (R55) -/

section Slack

variable {r : CarryRec} (hm : c.mode = .startup) (hc : c.drv.carry = .held) (hr : c.drv.carryRec = some r)

/-- The part with the carry claimed. -/
def claimedStart (r : CarryRec) (c : Chip) : Chip :=
  { c with
    drv := c.drv.dropCarry
    evt := { c.evt with held := c.evt.held ++ [.event (c.event .catchClaimed r.ts.code 0 c.trk.maxSurface)] } }

include hm hc hr

theorem claimCarry_start : claimCarry c = claimedStart r c := claimCarry_held hm hc hr

theorem resumeSlack_free (hb : c.drv.bothEngaged = false) :
    resumeSlack r c = startIn .slacking r.threaded ((Ramp.at r.tension).moveTo 0) (claimedStart r c) := by
  simp only [resumeSlack, hb, claimCarry_start hm hc hr, Bool.false_eq_true, if_false]

theorem resumeSlack_braked (hb : c.drv.bothEngaged = true) :
    resumeSlack r c = engageBrakes (startIn .slacking r.threaded .zero (claimedStart r c)) := by
  simp only [resumeSlack, hb, claimCarry_start hm hc hr, if_true]

end Slack

theorem engageBrakes_delayed (h : c.set.gen.offDelay ≠ 0) : engageBrakes c =
    onSup (fun s => { s with off := some ⟨0, c.set.gen.offDelay⟩ }) (onDrive (·.orderBoth .torque 0 true) c) := if_neg h

theorem engageBrakes_atOnce (h : c.set.gen.offDelay = 0) : engageBrakes c =
    enter .threaded (onDrive (·.orderBoth .torque 0 true) c) := if_pos h

/-- The fall to 0 begins at the value given (R24). -/
theorem moveTo_at (v : Nat × Nat) : ((Ramp.at v).moveTo 0).num * v.2 = v.1 * ((Ramp.at v).moveTo 0).den := by
  have hn : (Ramp.at v).value = (v.1 * 250 / Nat.gcd (v.1 * 250) (v.2 * 250), v.2 * 250 / Nat.gcd (v.1 * 250) (v.2 * 250)) := by
    simp [Ramp.value, Ramp.at, rampTime]
  have h₁ := Nat.div_mul_right_comm (Nat.gcd_dvd_left (v.1 * 250) (v.2 * 250)) v.2
  have h₂ := Nat.mul_div_assoc v.1 (Nat.gcd_dvd_right (v.1 * 250) (v.2 * 250))
  simp only [Ramp.moveTo, hn]
  rw [h₁, ← h₂]
  congr 1
  ring

theorem done_carryTimer (c : Chip) : (done c).drv.carryTimer = c.drv.carryTimer :=
  (congrArg (fun c : Chip => c.drv.carryTimer) (done_plain c) :)

theorem enter_threaded_drv (c : Chip) : (enter .threaded c).drv = (c.drv.release c.pinchFull).orderBoth .off 0 true := by
  simp [enter, enterStage, TState.admitsPinch, TState.dropsGrant, Chip.pinchFull, onDrive]

theorem release_carry (d : Drive) (n : Nat) : (d.release n).carry = d.carry ∧ (d.release n).carryTimer = d.carryTimer := by
  cases h : d.pinch <;> simp [Drive.release, Drive.capstanStop, Drive.pinchAway, h]

theorem enter_threaded_index (c : Chip) : (enter .threaded c).gnt.threaded = c.gnt.threaded := by
  obtain ⟨-, -, -, h⟩ := dropActive_gnt droppedState c
  simpa [enter, enterGrant, TState.dropsGrant] using h

section SlackStart

variable {r : CarryRec} (hm : c.mode = .startup) (hc : c.drv.carry = .held) (hr : c.drv.carryRec = some r)

include hm hc hr

/-- The carry claimed and the profile kept, at whatever step the brakes show. -/
theorem resumeSlack_carry : (done (resumeSlack r c)).drv.carry = .none ∧ (done (resumeSlack r c)).drv.carryTimer = none ∧
    (done (resumeSlack r c)).gnt.threaded = r.threaded ∧ (done (resumeSlack r c)).sup.threaded = r.threaded := by
  have hstage := stage_orderBoth (claimedStart r c).drv .torque 0 true
  rw [done_carry, done_carryTimer, done_gnt, done_threaded]
  cases hb : c.drv.bothEngaged
  · rw [resumeSlack_free hm hc hr hb]
    exact ⟨rfl, rfl, rfl, rfl⟩
  · rw [resumeSlack_braked hm hc hr hb]
    by_cases hd : c.set.gen.offDelay = 0
    · rw [engageBrakes_atOnce (by exact hd), enter_threaded_drv, enter_threaded_index]
      have hstage' := stage_orderBoth (((claimedStart r c).drv.orderBoth .torque 0 true).release c.pinchFull) .off 0 true
      obtain ⟨hcar, htim⟩ := release_carry ((claimedStart r c).drv.orderBoth .torque 0 true) c.pinchFull
      refine ⟨hstage'.carry.trans (hcar.trans hstage.carry), hstage'.timer.trans (htim.trans hstage.timer), rfl, ?_⟩
      simp [startIn_eq]
    · rw [engageBrakes_delayed (by exact hd)]
      exact ⟨hstage.carry, hstage.timer, rfl, rfl⟩

theorem resumeSlack_pinch (h : c.drv.bothEngaged = false ∨ c.set.gen.offDelay ≠ 0) :
    (done (resumeSlack r c)).drv.pinch = c.drv.pinch ∧ (done (resumeSlack r c)).drv.capRun = c.drv.capRun := by
  have hstage := stage_orderBoth (claimedStart r c).drv .torque 0 true
  rw [done_pinch, done_capRun]
  cases hb : c.drv.bothEngaged
  · rw [resumeSlack_free hm hc hr hb]
    exact ⟨rfl, rfl⟩
  · have hd : c.set.gen.offDelay ≠ 0 := h.resolve_left (by simp [hb])
    rw [resumeSlack_braked hm hc hr hb, engageBrakes_delayed (by exact hd)]
    exact ⟨hstage.pinch, hstage.run⟩

/-- With a reel free: the fall to 0 from the carried tension, the outputs as carried. -/
theorem resumeSlack_fall (hb : c.drv.bothEngaged = false) : let d := done (resumeSlack r c)
    d.sup.ts = .slacking ∧ d.sup.tension = (Ramp.at r.tension).moveTo 0 ∧ d.drv.sup.engaged = c.drv.sup.engaged ∧
    d.drv.tup.engaged = c.drv.tup.engaged ∧ d.drv.sup.mode = c.drv.sup.mode ∧ d.drv.tup.mode = c.drv.tup.mode ∧
    d.evt.held = c.evt.held ++ [.event (c.event .catchClaimed r.ts.code 0 c.trk.maxSurface)] := by
  dsimp only
  rw [resumeSlack_free hm hc hr hb, done_supEngaged, done_tupEngaged, done_supMode, done_tupMode, done_evt,
    done_sup _ (fun g hg => by simp [tensionGoal, startIn_eq] at hg)]
  exact ⟨rfl, rfl, rfl, rfl, rfl, rfl, rfl⟩

/-- With both brakes engaged: the off delay begun. -/
theorem resumeSlack_delay (hb : c.drv.bothEngaged = true) (hd : c.set.gen.offDelay ≠ 0) : let d := done (resumeSlack r c)
    d.sup.ts = .slacking ∧ d.sup.off = some ⟨0, c.set.gen.offDelay⟩ ∧ d.drv.sup.engaged = true ∧ d.drv.tup.engaged = true ∧
    d.evt.held = c.evt.held ++ [.event (c.event .catchClaimed r.ts.code 0 c.trk.maxSurface)] := by
  obtain ⟨-, -, h₁, h₂⟩ := orderBoth_engaged (claimedStart r c).drv .torque (.inr rfl)
  dsimp only
  rw [resumeSlack_braked hm hc hr hb, engageBrakes_delayed (by exact hd), done_supEngaged, done_tupEngaged, done_evt, done_ts,
    done_off]
  exact ⟨rfl, rfl, h₁, h₂, rfl⟩

/-- With both brakes engaged and no off delay: THREADED at once, the drives OFF. -/
theorem resumeSlack_threaded (hb : c.drv.bothEngaged = true) (hd : c.set.gen.offDelay = 0) (hcur : c.eng.cur = none)
    (ha : c.gnt.active = none) : let d := done (resumeSlack r c)
    d.sup.ts = .threaded ∧ d.drv.sup.mode = .off ∧ d.drv.tup.mode = .off ∧
    d.evt.held = c.evt.held ++ [.event (c.event .catchClaimed r.ts.code 0 c.trk.maxSurface),
      .event (c.event .stateChanged 1 0 6), .notice .stateChanged] := by
  obtain ⟨h₁, h₂, -, -⟩ := orderBoth_engaged (((claimedStart r c).drv.orderBoth .torque 0 true).release c.pinchFull) .off (.inl rfl)
  dsimp only
  rw [resumeSlack_braked hm hc hr hb, engageBrakes_atOnce (by exact hd), done_supMode, done_tupMode, done_evt, done_ts,
    enter_threaded_drv, enter_startup_held (by exact hm) (.inl rfl) (by exact ha) (.inl rfl)]
  refine ⟨by simp, h₁, h₂, ?_⟩
  simp [startIn_eq, claimedStart, onDrive, Chip.event, Chip.curTag, hcur, TState.code]

end SlackStart

/-! ### A carried TRIPPED (R30, R51) -/

section TrippedStart

variable {r : CarryRec} (hm : c.mode = .startup) (hc : c.drv.carry = .held) (hr : c.drv.carryRec = some r)

include hm hc hr

theorem trippedStart (hs : c.sup.trip = .none ∧ c.sup.side = .none) :
    let x := emergencyBoth (startIn .tripped r.threaded .zero (claimCarry c))
    let d := done x
    d.sup.ts = .tripped ∧ d.sup.trip = .none ∧ d.sup.side = .none ∧ d.sup.threaded = r.threaded ∧
    d.gnt.threaded = r.threaded ∧ d.sup.tension.value.1 = 0 ∧ d.drv.carry = .none ∧ d.drv.carryTimer = none ∧
    d.drv.pinch = c.drv.pinch ∧ d.drv.capRun = c.drv.capRun ∧
    d.evt.held = c.evt.held ++ [.event (c.event .catchClaimed r.ts.code 0 c.trk.maxSurface)] := by
  dsimp only
  rw [claimCarry_start hm hc hr, done_zero _ rfl (.inl rfl), done_carry, done_carryTimer, done_pinch, done_capRun, done_gnt, done_evt]
  have hstage := stage_tripReels false (startIn .tripped r.threaded .zero (claimedStart r c))
  exact ⟨rfl, hs.1, hs.2, rfl, rfl, (by decide : Ramp.zero.value.1 = 0), hstage.carry, hstage.timer, hstage.pinch, hstage.run, rfl⟩

theorem trippedStart_braked (h₁ : c.drv.sup.engaged = false) (h₂ : c.drv.tup.engaged = false) (h₃ : c.drv.tup.mode ≠ .off) :
    let d := done (emergencyBoth (startIn .tripped r.threaded .zero (claimCarry c)))
    let fastSup := decide (c.set.gen.brakeSafe < c.trk.sup.surfaceSpeed)
    let fastTup := decide (c.set.gen.brakeSafe < c.trk.tup.surfaceSpeed)
    Braked d.drv.sup fastSup fastTup ∧ Braked d.drv.tup fastTup fastSup := by
  have hbrake := emergency_braked (d := c.drv.dropCarry) h₁ h₂ h₃ c.trk.sup.surfaceSpeed c.trk.tup.surfaceSpeed
    c.set.gen.brakeSafe
  have hmode {o : ReelOut} {a b : Bool} (h : Braked o a b) : o.mode ≠ .torque := by
    rw [h.2.2]
    split <;> decide
  dsimp only
  rw [claimCarry_start hm hc hr]
  obtain ⟨hsup, htup⟩ := done_reels (emergencyBoth (startIn .tripped r.threaded .zero (claimedStart r c))) (hmode hbrake.1)
    (hmode hbrake.2)
  rw [hsup, htup]
  exact hbrake

end TrippedStart

/-! ### A trip at the start under a carry of a transport that moved (R28, R52) -/

/-- The posts of a trip that claims the carry, in a part with no segment and no grant. -/
theorem tripNow_startup {r : CarryRec} {k : TripCause} (hk : k = .powerLoss ∨ k = .driveFault) (i : Side)
    (hm : c.mode = .startup) (hc : c.drv.carry = .held) (hr : c.drv.carryRec = some r) (hp : c.sup.claimPending = true)
    (hcur : c.eng.cur = none) (ha : c.gnt.active = none) (hq : c.gnt.request = none) :
    (tripNow k i c).evt.held = c.evt.held ++
      [.event (c.event .catchClaimed r.ts.code 0 c.trk.maxSurface), .event (c.event .trip k.code 0 i.code), .notice .tripped,
       .event (c.event .stateChanged 7 0 c.sup.ts.code), .notice .stateChanged] := by
  have hpos (x : Chip) : tripPosition k x = x := by rcases hk with rfl | rfl <;> rfl
  have hend (x : Chip) (h : x.eng.cur = none) : endCur .faultFlushed x = x := by simp [endCur, h]
  have hts (x : Supervisor) : (x.tripWord k i).ts = x.ts := (tripWord_stands x k i).1
  rw [tripNow_from, hp, if_pos rfl, claimCarry_start hm hc hr, tripFrom, hpos,
    hend _ (by simpa [claimedStart, onSup] using hcur)]
  rw [postEvent_startup (by simpa [claimedStart, onSup] using hm), postNotice_startup (by simpa [claimedStart, onSup] using hm),
    enter_startup_held (by simpa [claimedStart, onSup] using hm) (.inr rfl) (by simpa [claimedStart, onSup] using ha)
      (.inr (by simpa [claimedStart, onSup] using hq))]
  simp [claimedStart, onSup, Chip.event, Chip.curTag, hcur, hts, idleEngine, onEng, Engine.reset, TState.code]

theorem tripNow_sup (k : TripCause) (i : Side) (c : Chip) : (tripNow k i c).sup.ts = .tripped ∧
    (tripNow k i c).sup.claimPending = c.sup.claimPending ∧
    (tripNow k i c).sup.trip = (if c.sup.trip = .none then k else c.sup.trip) ∧
    (tripNow k i c).sup.side = (if c.sup.trip = .none then i else c.sup.side) := by
  have hsup (x : Chip) : (if x.sup.claimPending then claimCarry x else x).sup = x.sup := by
    split <;> simp
  obtain ⟨hts, -, -, -, hclaim, htrip, hside⟩ := tripFrom_sup c.drv.ownStop k i (if c.sup.claimPending then claimCarry c else c)
  rw [hsup] at hclaim htrip hside
  exact ⟨hts, hclaim, htrip, hside⟩

theorem tripNow_carry {r : CarryRec} (k : TripCause) (i : Side) (hm : c.mode = .startup) (hc : c.drv.carry = .held)
    (hr : c.drv.carryRec = some r) (hp : c.sup.claimPending = true) : (tripNow k i c).drv.carry = .none := by
  rw [tripNow_from, hp, if_pos rfl, claimCarry_start hm hc hr, tripFrom, enter_tripped_drv, (release_carry ..).1]
  simp only [postNotice_drv, postEvent_drv, onSup_drv, idleEngine_frame, flushBoth_frame, endCur_frame, tripPosition_frame]
  exact (tripOutputs_drv ..).1

theorem faultSide_code (p : Pins) (h : p.fltSupply = true ∨ p.fltTup = true) :
    (faultSide p).code = if p.fltSupply then (if p.fltTup then 3 else 1) else 2 := by
  unfold faultSide
  cases hs : p.fltSupply <;> cases ht : p.fltTup <;> simp_all [Side.code]

theorem trip_catching (ht : c.sup.ts = .catching) (k : TripCause) (i : Side) : trip k i c = tripNow k i c := by
  rw [trip, ht]

/-- What the inputs leave of a start in CATCHING: a trip by the first that stands, and a drive fault beside POWER_LOSS
posted as FOLLOWING (R28, R29). -/
theorem startCauses_catching {r : CarryRec} (hm : c.mode = .startup) (hc : c.drv.carry = .held) (hr : c.drv.carryRec = some r)
    (hs : c.sup = .reset) (hcur : c.eng.cur = none) (ha : c.gnt.active = none) (hq : c.gnt.request = none)
    (hin : c.pins.powerFail = true ∨ c.pins.fltSupply = true ∨ c.pins.fltTup = true) :
    let d := startCauses (catchingFirst r c)
    let side : Nat := if c.pins.fltSupply then (if c.pins.fltTup then 3 else 1) else 2
    d.sup.ts = .tripped ∧ d.sup.trip = (if c.pins.powerFail then .powerLoss else .driveFault) ∧
    d.sup.side.code = (if c.pins.powerFail then 0 else side) ∧ d.drv.carry = .none ∧ d.sup.claimPending = true ∧
    d.evt.held = c.evt.held ++ [.event (c.event .catchClaimed r.ts.code 0 c.trk.maxSurface),
        .event (if c.pins.powerFail then c.event .trip 4 0 0 else c.event .trip 5 0 side), .notice .tripped,
        .event (c.event .stateChanged 7 0 8), .notice .stateChanged] ++
      (if c.pins.powerFail ∧ (c.pins.fltSupply ∨ c.pins.fltTup) then [.event (c.event .trip 5 0 (side + 4))] else []) := by
  intro d side
  have hfirst (k : TripCause) (i : Side) (hk : k = .powerLoss ∨ k = .driveFault) :
      let x := trip k i (catchingFirst r c)
      x.sup.ts = .tripped ∧ x.sup.trip = k ∧ x.sup.side = i ∧ x.drv.carry = .none ∧ x.sup.claimPending = true ∧
      x.evt.held = c.evt.held ++ [.event (c.event .catchClaimed r.ts.code 0 c.trk.maxSurface),
        .event (c.event .trip k.code 0 i.code), .notice .tripped, .event (c.event .stateChanged 7 0 8), .notice .stateChanged] := by
    dsimp only
    rw [trip_catching rfl]
    have hheld := tripNow_startup (c := catchingFirst r c) hk i hm hc hr rfl hcur ha hq
    have hcarry := tripNow_carry (c := catchingFirst r c) k i hm hc hr rfl
    obtain ⟨hts, hclaim, htrip, hside⟩ := tripNow_sup k i (catchingFirst r c)
    have hnone : (catchingFirst r c).sup.trip = .none := by
      show c.sup.trip = .none
      rw [hs]
      rfl
    exact ⟨hts, by rw [htrip, if_pos hnone], by rw [hside, if_pos hnone], hcarry, hclaim, hheld⟩
  have hside (h : c.pins.fltSupply = true ∨ c.pins.fltTup = true) : (faultSide c.pins).code = side := faultSide_code c.pins h
  have hd : d = tripStanding (catchingFirst r c) := rfl
  have hpins : (catchingFirst r c).pins = c.pins := rfl
  have hflt : (c.pins.fltSupply || c.pins.fltTup) = true ↔ c.pins.fltSupply = true ∨ c.pins.fltTup = true := by simp
  cases hpf : c.pins.powerFail
  · have hor : c.pins.fltSupply = true ∨ c.pins.fltTup = true := by simpa [hpf] using hin
    rw [hd, tripStanding]
    simp only [hpins, hpf, Bool.false_eq_true, if_false, hflt.2 hor, if_true, false_and, List.append_nil]
    obtain ⟨h₁, h₂, h₃, h₄, h₅, h₆⟩ := hfirst .driveFault (faultSide c.pins) (.inr rfl)
    refine ⟨h₁, h₂, by rw [h₃, hside hor], h₄, h₅, ?_⟩
    rw [h₆, hside hor]
    rfl
  · obtain ⟨h₁, h₂, h₃, h₄, h₅, h₆⟩ := hfirst .powerLoss .none (.inl rfl)
    rw [hd, tripStanding]
    simp only [hpins, hpf, if_true, true_and, trip_frame]
    by_cases hor : c.pins.fltSupply = true ∨ c.pins.fltTup = true
    · have hnext (x : Chip) (hx : x.sup.ts = .tripped) (i : Side) :
          trip .driveFault i x = postEvent .trip 5 0 ((i.code + 4 : Nat) : Int) x := by
        rw [trip, hx]
        rfl
      simp only [hflt.2 hor, if_true, hor]
      rw [hnext _ h₁, postEvent_startup (by rw [(trip_frame ..).1]; exact hm), hside hor]
      refine ⟨h₁, h₂, by rw [h₃]; rfl, h₄, h₅, ?_⟩
      have hstarted : Started c (catchingFirst r c) := ⟨⟨rfl, rfl, rfl, rfl, rfl⟩, rfl, ⟨rfl, rfl⟩, by simp [catchingFirst]⟩
      obtain ⟨-, hclock, -, htrk, -⟩ := (started_trip hstarted (k := .powerLoss) (.inl rfl) .none).blocks
      simp only [h₆, Chip.event, hclock, htrk]
      rfl
    · simp only [hor, if_false, Bool.eq_false_iff.2 (mt hflt.1 hor), Bool.false_eq_true, List.append_nil]
      exact ⟨h₁, h₂, by rw [h₃]; rfl, h₄, h₅, h₆⟩

theorem pathTState_rests (c : Chip) : (pathTState c).trips = false := by
  unfold pathTState
  split <;> rfl

/-- In UNTHREADED and THREADED an input is reported and trips nothing (R28). -/
theorem startCauses_resting (hm : c.mode = .startup) (ht : c.sup.ts.trips = false) : (startCauses c).sup = c.sup ∧
    (startCauses c).evt.held = c.evt.held ++ (if c.pins.powerFail then [.event (c.event .faultInput 1 0 0)] else []) ++
      (if c.pins.fltSupply then [.event (c.event .faultInput 2 0 0)] else []) ++
      (if c.pins.fltTup then [.event (c.event .faultInput 3 0 0)] else []) := by
  have hpost {x : Chip} (hx : ∃ l, x = { c with evt := { c.evt with held := l } }) (b : Bool) (n : Nat) :
      (if b then postEvent .faultInput n 0 0 x else x) = { c with evt := { c.evt with
        held := x.evt.held ++ (if b then [.event (c.event .faultInput n 0 0)] else []) } } := by
    obtain ⟨l, rfl⟩ := hx
    cases b
    · simp
    · rw [if_pos rfl, postEvent_startup (by exact hm)]
      rfl
  rw [startCauses, ht, if_neg (by simp)]
  dsimp only
  rw [hpost ⟨_, rfl⟩, hpost ⟨_, rfl⟩, hpost ⟨_, rfl⟩]
  exact ⟨rfl, rfl⟩

/-- With no input asserted the start is its first state (R51). -/
theorem exec_supervisorStart_quiet {s : State} (hm : s.chip.mode = .startup) (hl : s.chip.set.loaded = true)
    (hs : s.chip.sup = .reset) (hp : s.chip.pins.powerFail = false) (hfs : s.chip.pins.fltSupply = false)
    (hft : s.chip.pins.fltTup = false) (hcap : s.chip.pins.fltCap = false) :
    exec .supervisorStart s = .next (s.ends (firstState s.chip)) := by
  obtain ⟨-, -, hpins, -⟩ := (started_firstState s.chip).blocks
  rw [exec_supervisorStart hm hl hs, startInputs_none] <;> rw [hpins] <;> assumption

/-- Settles O37: the first state by the carry, then the inputs that stand asserted, FLT_CAP last. -/
theorem supervisorStarts : Obligations.SupervisorStarts := by
  refine ⟨fun s hm hl hs hc hp hfs hft hcap => ?_, fun r s hm hl hs hc hr hts hp hfs hft hcap => ?_, ?_, ?_⟩
  · refine ⟨_, exec_supervisorStart_quiet hm hl hs hp hfs hft hcap, ?_⟩
    rw [firstState_fresh hc]
    obtain ⟨hup, hts, hi, hg, h₁, h₂, h₃, h₄, hevt, hntc, htrk, hpln, hset⟩ := startFromPath_done none s.chip
    rw [ite_self] at hi hg
    exact ⟨hup, hts, hi, hg, h₁, h₂, h₃, h₄, hevt, hntc, htrk, hpln, hset, rfl⟩
  · refine ⟨_, exec_supervisorStart_quiet hm hl hs hp hfs hft hcap, ?_⟩
    rw [firstState_catching hc hr hts]
    simp only [State.ends, done_up, done_ts, done_claimPending, done_threaded, done_gnt, done_evt, done_ntc, done_trk,
      done_deaf (listens_catchingFirst hc)]
    exact ⟨rfl, rfl, rfl, rfl, rfl, rfl, rfl, rfl, rfl, trivial⟩
  · intro r s hm hl hs hc hr hp hfs hft hcap braked speed claimed index
    obtain ⟨⟨-, -, -, htrk, -⟩, hup, -, -⟩ := started_firstState s.chip
    refine ⟨_, exec_supervisorStart_quiet hm hl hs hp hfs hft hcap, by rw [State.ends, done_up, hup],
      by rw [State.ends, done_trk, htrk], rfl, fun hts => ?_, fun hts => ?_, fun hts => ?_⟩
    · rw [firstState_path hc hr hts]
      obtain ⟨-, hts', hi, hg, h₁, h₂, h₃, h₄, hevt, hntc, -⟩ := startFromPath_done r.threaded (onDrive (·.dropCarry) s.chip)
      obtain ⟨hcar, htim⟩ := startFromPath_carry r.threaded (onDrive (·.dropCarry) s.chip)
      exact ⟨hts', hi, hg, by rw [State.ends, done_carry, hcar]; rfl, by rw [State.ends, done_carryTimer, htim]; rfl, h₁, h₂, h₃,
        h₄, hevt, hntc⟩
    · rw [firstState_slacking hc hr hts]
      have hfree (h : ¬ braked) : s.chip.drv.bothEngaged = false := by
        simpa [braked, Drive.bothEngaged] using h
      have hboth (h : braked) : s.chip.drv.bothEngaged = true := by
        simpa [braked, Drive.bothEngaged] using h
      obtain ⟨hcar, htim, hg, hi⟩ := resumeSlack_carry hm hc hr
      refine ⟨hcar, htim, hg, hi, fun h => resumeSlack_pinch hm hc hr (h.imp hfree id), fun h => ?_, fun h hd => ?_,
        fun h hd hok => ?_⟩
      · obtain ⟨h₁, h₂, h₃, h₄, h₅, h₆, h₇⟩ := resumeSlack_fall hm hc hr (hfree h)
        refine ⟨h₁, ?_, ?_, ?_, h₃, h₄, h₅, h₆, h₇⟩ <;> rw [State.ends, h₂]
        · rfl
        · rfl
        · exact moveTo_at r.tension
      · exact resumeSlack_delay hm hc hr (hboth h) hd
      · obtain ⟨-, -, hcur, ha⟩ := hok.idle (by rw [hs]; simp [Supervisor.reset, TState.carriesPlan])
        exact resumeSlack_threaded hm hc hr (hboth h) hd hcur ha
    · rw [firstState_tripped hc hr hts]
      obtain ⟨h₁, h₂, h₃, h₄, h₅, h₆, h₇, h₈, h₉, h₁₀, h₁₁⟩ := trippedStart hm hc hr (by rw [hs]; exact ⟨rfl, rfl⟩)
      exact ⟨h₁, h₂, h₃, h₄, h₅, h₆, h₇, h₈, h₉, h₁₀, h₁₁, fun hse hte _ htm => trippedStart_braked hm hc hr hse hte htm⟩
  · intro s hm hl hs hok pf fs ft cap stop
    obtain ⟨-, -, hcur, ha⟩ := hok.idle (by rw [hs]; simp [Supervisor.reset, TState.carriesPlan])
    obtain ⟨hup, ⟨hlatch, hstop⟩, htrk, ⟨hts, htrip, hside, hclaim⟩, hdrv, hheld⟩ := startInputs_starts hm
      (started_firstState s.chip) (by rw [hs]; exact ⟨rfl, rfl⟩)
    refine ⟨_, exec_supervisorStart hm hl hs, ?_⟩
    simp only [State.ends, done_up, done_latch, done_stop, done_trk, done_trip, done_ts, done_side, done_claimPending, done_carry,
      done_evt, hup, hlatch, hstop, htrk, hts, htrip, hside, hclaim, hdrv, hheld]
    refine ⟨trivial, rfl, rfl, trivial, trivial, fun hc => ?_, fun r hc hr hrts hin hq => ?_⟩
    · obtain ⟨hsup, hheld⟩ := startCauses_resting (c := startFromPath none s.chip) hm (pathTState_rests s.chip)
      rw [firstState_fresh hc, hsup, hheld]
      exact ⟨by simp [startFromPath, startIn_eq, onDrive, hs, Supervisor.reset], rfl, rfl⟩
    · rw [firstState_catching hc hr hrts]
      obtain ⟨h₁, h₂, h₃, h₄, h₅, h₆⟩ := startCauses_catching hm hc hr hs hcur ha hq hin
      refine ⟨h₁, h₂, h₃, h₄, h₅, ?_⟩
      rw [h₆]
      rfl

end Sys2Proof.Supervision

namespace Sys2Proof.Supervision

open Sys2Proof Sys2Proof.Machine Sys2Proof.Laws Sys2Proof.TapePath

variable {c : Chip}

/-! ## The claim (R52, R53, R54) -/

/-- The part with an arm's sample taken. -/
def sampled (r : Reel) (v : BitVec 12) (c : Chip) : Chip :=
  { c with
    trk := c.trk.withReel r { c.trk.reel r with arm := v }
    sup := c.sup.classify r (classNow c v) }

/-- The sample that completes the first of both arms is the one the claim is judged at. -/
theorem exec_armSample_claim (r : Reel) (v : BitVec 12) {s : State} (hup : s.chip.sup.up = true)
    (hclaim : s.chip.sup.claimPending = true)
    (hseen : (match r with | .supply => s.chip.sup.seenTup | .takeup => s.chip.sup.seenSup) = true) :
    exec (.armSample r v) s = .next (s.ends (judgeClaim (sampled r v s.chip))) := by
  have hboth : (s.chip.sup.classify r (classNow s.chip v)).seenSup = true ∧
      (s.chip.sup.classify r (classNow s.chip v)).seenTup = true := by
    cases r
    · exact ⟨rfl, hseen⟩
    · exact ⟨hseen, rfl⟩
  have hs : sampleTaken r v (onTrk (·.armRead r v) s.chip) = judgeClaim (sampled r v s.chip) := by
    have hx : onSup (·.classify r (classNow (onTrk (·.armRead r v) s.chip) v)) (onTrk (·.armRead r v) s.chip) =
        sampled r v s.chip := rfl
    simp only [sampleTaken, hx]
    rw [if_pos (by simpa [sampled] using hclaim),
      if_pos (show (sampled r v s.chip).sup.seenSup = true ∧ (sampled r v s.chip).sup.seenTup = true from hboth)]
  simp only [exec, execArmSample, State.onChip, armStep, onTrk_sup, hup, if_true, hs]
  rfl

theorem sampled_trk (r : Reel) (v : BitVec 12) (c : Chip) : (sampled r v c).trk.position = c.trk.position ∧
    (sampled r v c).trk.valid = c.trk.valid ∧ (sampled r v c).trk.tapeSpeed = c.trk.tapeSpeed ∧
    (sampled r v c).trk.maxSurface = max c.trk.sup.surfaceSpeed c.trk.tup.surfaceSpeed := by
  cases r <;> exact ⟨rfl, rfl, rfl, rfl⟩

theorem sampled_event (r : Reel) (v : BitVec 12) (c : Chip) (k : EventKind) (d t : Nat) (x : Int) :
    (sampled r v c).event k d t x = c.event k d t x := by
  cases r <;> rfl

theorem sampled_sup (r : Reel) (v : BitVec 12) (c : Chip) : (sampled r v c).sup.threaded = c.sup.threaded ∧
    (sampled r v c).sup.latch = c.sup.latch ∧ (sampled r v c).sup.trip = c.sup.trip ∧
    (sampled r v c).sup.catchHold = c.sup.catchHold ∧ (sampled r v c).sup.ts = c.sup.ts := by
  cases r <;> exact ⟨rfl, rfl, rfl, rfl, rfl⟩

/-- The judgement as the statement writes it. -/
theorem claimFails_sampled (r : Reel) (v : BitVec 12) (c : Chip) : claimFails (sampled r v c) = true ↔
    let here := classNow c v
    let other := match r with | .supply => c.sup.clsTup | .takeup => c.sup.clsSup
    c.set.gen.catchLimit < max c.trk.sup.surfaceSpeed c.trk.tup.surfaceSpeed ∨ here = .slack ∨ here = .overLevel ∨
      other = .slack ∨ other = .overLevel := by
  obtain ⟨-, -, -, hmax⟩ := sampled_trk r v c
  simp only [claimFails, hmax]
  cases r <;> simp [sampled, classify_eq, withClass, Supervisor.slackArm] <;> tauto

/-- The part with the claim judged: the carry gone, its event held (R52, R57). -/
def claimMade (k : CarryRec) (c : Chip) : Chip :=
  { c with
    sup := { c.sup with claimPending := false }
    drv := c.drv.dropCarry
    evt := { c.evt with held := c.evt.held ++ [.event (c.event .catchClaimed k.ts.code 0 c.trk.maxSurface)] } }

section Claim

variable {k : CarryRec} (hm : c.mode = .startup) (hc : c.drv.carry = .held) (hr : c.drv.carryRec = some k)

include hm hc hr

theorem judgeClaim_fails (ht : c.sup.ts = .catching) (hf : claimFails c = true) :
    judgeClaim c = failStart false (claimMade k c) := by
  have hown : c.drv.ownStop = false := by simp [Drive.ownStop, hc]
  rw [judgeClaim, if_neg (by simp [ht]), if_pos (.inr hf), hown, claimCarry_held hm hc hr]
  rfl

theorem judgeClaim_proceeds (ht : c.sup.ts = .catching) (hf : claimFails c = false) :
    judgeClaim c = catchBegin (claimMade k c) := by
  rw [judgeClaim, if_neg (by simp [ht]), if_neg (by simp [hc, hf]), claimCarry_held hm hc hr]
  rfl

end Claim

/-- A start that fails its claim, at the end of the command (R53). -/
theorem failStart_done (own : Bool) (hm : c.mode = .startup) (hcar : c.drv.carry = .none) :
    let d := done (failStart own c)
    d.drv.carry = .none ∧ d.drv.carryTimer = c.drv.carryTimer ∧ d.sup.up = c.sup.up ∧ d.sup.claimPending = c.sup.claimPending ∧
    d.sup.threaded = c.sup.threaded ∧ d.sup.latch = c.sup.latch ∧ d.sup.stop = c.sup.stop ∧ d.trk = c.trk ∧ d.gnt = c.gnt ∧
    d.pln = c.pln ∧ d.sup.ts = .tripped ∧ d.sup.trip = (if c.sup.trip = .none then .catchFailed else c.sup.trip) ∧
    d.sup.side = (if c.sup.trip = .none then .none else c.sup.side) ∧ d.sup.tension.value.1 = 0 ∧ d.drv.capRun = false ∧
    (d.drv.pinch = .out ∨ d.drv.pinch = .goingOut) ∧ d.drv.lifters = .up ∧
    d.evt.held = c.evt.held ++ [.event (c.event .trip 6 0 0), .notice .tripped] := by
  obtain ⟨hcarry, hrun, hpinch, hlift, -, -, htim⟩ := tripOutputs_drv own c
  obtain ⟨htrip, hside, hstop, hlatch⟩ := tripWord_fields c.sup .catchFailed .none
  obtain ⟨-, hup, hclaim⟩ := tripWord_stands c.sup .catchFailed .none
  have hthr : (c.sup.tripWord .catchFailed .none).threaded = c.sup.threaded := by
    unfold Supervisor.tripWord
    split <;> rfl
  dsimp only
  rw [failStart_eq own c hm, done_zero _ rfl (.inl rfl), done_lifters _ rfl, done_carry, done_carryTimer, done_pinch, done_capRun]
  simp only [done_trk, done_gnt, done_pln, done_evt, Supervisor.entered, hcarry, hrun, hlift, htim, htrip, hside, hstop, hlatch,
    hup, hclaim, hthr, true_and, and_true]
  exact ⟨hcar, (by decide : Ramp.zero.value.1 = 0), hpinch⟩

/-- The first order to the stage in a catch: the pinch out, or the capstan OFF at once (R54). -/
def catchRelease (d : Drive) (n : Nat) : Drive := if d.pinchOn then d.pinchAway n else d.capstanOff n

theorem catchBegin_eq (c : Chip) : catchBegin c = { c with
    eng := { c.eng with ref := c.trk.tapeSpeed, frac := 0 }
    drv := catchRelease (c.drv.orderBoth .torque 0 false) c.pinchFull
    sup := { c.sup with catchHold := (c.drv.orderBoth .torque 0 false).pinchOn || c.sup.catchHold } } := by
  by_cases h : (c.drv.orderBoth .torque 0 false).pinchOn = true
  · simp [catchBegin, catchRelease, onDrive, onEng, onSup, Chip.pinchFull, h]
  · simp [catchBegin, catchRelease, onDrive, onEng, Chip.pinchFull, h]

theorem catchRelease_stage (d : Drive) (n : Nat) : (catchRelease d n).carry = d.carry ∧
    (catchRelease d n).carryTimer = d.carryTimer ∧ (catchRelease d n).sup = d.sup ∧ (catchRelease d n).tup = d.tup := by
  cases h : d.pinch <;> simp [catchRelease, Drive.pinchOn, Drive.capstanOff, Drive.capstanStop, Drive.pinchAway, h]

theorem catchRelease_on {d : Drive} (h : d.pinch = .pinched ∨ d.pinch = .goingIn) (n : Nat) : d.pinchOn = true ∧
    (catchRelease d n).pinch = .goingOut := by
  rcases h with h | h <;> simp [catchRelease, Drive.pinchOn, Drive.pinchAway, h]

theorem catchRelease_off {d : Drive} (h : d.pinch = .out ∨ d.pinch = .goingOut) (n : Nat) : d.pinchOn = false ∧
    (catchRelease d n).capRun = false := by
  rcases h with h | h <;> simp [catchRelease, Drive.pinchOn, Drive.capstanOff, Drive.capstanStop, h]

/-- Reels that the stage's own stop follows no more stand where it has brought them (R53, R71). -/
theorem failStart_reels (hm : c.mode = .startup) (hs : c.drv.sup.follow = false) (ht : c.drv.tup.follow = false)
    (hms : c.drv.sup.mode ≠ .torque) (hmt : c.drv.tup.mode ≠ .torque) :
    (done (failStart true c)).drv.sup = c.drv.sup ∧ (done (failStart true c)).drv.tup = c.drv.tup := by
  obtain ⟨-, -, -, -, hsup, htup, -⟩ := tripOutputs_drv true c
  have hfollow : (tripReels true c).drv = c.drv := by
    show ((c.drv.followReel .supply _ _).followReel .takeup _ _) = c.drv
    rw [followReel_off c.drv .supply _ _ hs, followReel_off c.drv .takeup _ _ ht]
  rw [hfollow] at hsup htup
  have hdrv : (failStart true c).drv = (tripOutputs true c).drv := by rw [failStart_eq true c hm]
  rw [← hsup, ← htup, ← hdrv]
  exact done_reels _ (by rw [hdrv, hsup]; exact hms) (by rw [hdrv, htup]; exact hmt)

/-- A catch that proceeds, at the end of the command (R54). -/
theorem catchBegin_done (c : Chip) : let d := done (catchBegin c)
    d.drv.carry = c.drv.carry ∧ d.drv.carryTimer = c.drv.carryTimer ∧ d.sup.claimPending = c.sup.claimPending ∧
    d.sup.threaded = c.sup.threaded ∧ d.sup.latch = c.sup.latch ∧ d.trk = c.trk ∧ d.gnt = c.gnt ∧ d.pln = c.pln ∧
    d.sup.ts = c.sup.ts ∧ d.eng.ref = c.trk.tapeSpeed ∧ d.drv.sup.mode = .torque ∧ d.drv.tup.mode = .torque ∧
    d.drv.sup.engaged = false ∧ d.drv.tup.engaged = false ∧ d.evt = c.evt ∧
    ((c.drv.pinch = .pinched ∨ c.drv.pinch = .goingIn) → d.sup.catchHold = true ∧ d.drv.pinch = .goingOut) ∧
    ((c.drv.pinch = .out ∨ c.drv.pinch = .goingOut) → d.sup.catchHold = c.sup.catchHold ∧ d.drv.capRun = false) := by
  obtain ⟨h₁, h₂, h₃, h₄⟩ := orderBoth_released c.drv
  obtain ⟨hcar, htim, -, hpin, -⟩ := stage_orderBoth c.drv .torque 0 false
  obtain ⟨hcar', htim', hsup, htup⟩ := catchRelease_stage (c.drv.orderBoth .torque 0 false) c.pinchFull
  dsimp only
  rw [catchBegin_eq, done_carry, done_carryTimer, done_pinch, done_capRun, done_supMode, done_tupMode, done_supEngaged,
    done_tupEngaged]
  simp only [done_claimPending, done_threaded, done_latch, done_trk, done_gnt, done_pln, done_ts, done_ref, done_evt,
    done_catchHold, hcar', htim', hsup, htup, hcar, htim, h₁, h₂, h₃, h₄, true_and]
  refine ⟨fun h => ?_, fun h => ?_⟩
  · obtain ⟨hon, hout⟩ := catchRelease_on (hpin ▸ h) c.pinchFull
    exact ⟨by rw [hon, Bool.true_or], hout⟩
  · obtain ⟨hon, hstop⟩ := catchRelease_off (hpin ▸ h) c.pinchFull
    exact ⟨by rw [hon, Bool.false_or], hstop⟩

/-! ## The end of a catch (R55) -/

/-- An entry with no grant and no request posts its announcement alone (R17). -/
theorem enter_running_posted (hm : c.mode = .running) {n : TState} (hn : n ≠ .unthreaded) (ha : c.gnt.active = none)
    (hq : c.gnt.request = none) : (enter n c).evt.posted = c.evt.posted ++
      [c.event .stateChanged n.code c.curTag c.sup.ts.code] ∧ (enter n c).gnt = c.gnt := by
  have hg : enterGrant n c = c := by
    have hdrop : dropActive droppedState c = c := by simp [dropActive, ha]
    rw [enterGrant, hdrop, ite_self]
    simp [cancelPending, hq]
  have hpend (x : Chip) (hx : x.gnt = c.gnt) : (if n = .held then resolvePending x else x) = x := by
    split
    · simp [resolvePending, hx, hq]
    · rfl
  simp only [enter, hg, hn, if_false]
  rw [postEvent_running (by simpa using hm), hpend]
  · split <;> simp [postNotice_posted, onSup, Chip.event, Chip.curTag]
  · split <;> simp

/-- The supervisor after an entry that unthreads nothing. -/
theorem enter_sup_eq {n : TState} (hn : n ≠ .unthreaded) (c : Chip) : (enter n c).sup = c.sup.entered n c.profile := by
  simp only [enter, apply_ite Chip.sup, resolvePending_frame, idleEngine_frame, enterStage_frame, postNotice_sup,
    postEvent_sup, onSup_sup, ite_self, if_neg hn, enterGrant_frame]
  simp [Chip.profile]

/-- The part a millisecond on, before the engine and the supervisor judge it (R5, R62). -/
def ticked (c : Chip) : Chip := { c with trk := c.trk.tick, drv := c.drv.tick }

theorem bothIn_iff (x : Supervisor) : x.bothIn = true ↔ x.clsSup = .inBand ∧ x.clsTup = .inBand := by
  simp [Supervisor.bothIn]

/-- The tick that finds the reference speed 0, the pinch's movement over and both reels stopped ends the catch. -/
theorem exec_speedWindow_catch {s : State} (ht : s.chip.sup.ts = .catching) (hclaim : s.chip.sup.claimPending = false)
    (hhold : s.chip.sup.catchHold = false) (href : s.chip.eng.ref = 0) (hreq : s.chip.eng.moveReq = false)
    (hcur : s.chip.eng.cur = none) (hcar : s.chip.drv.carry = .none) (hstop : s.chip.trk.tick.reelsStopped = true) :
    exec .speedWindowTick s = .next (s.ends (enter (if s.chip.sup.bothIn then .held else .slacking) (ticked s.chip))) := by
  have hfollow : followReels (onDrive (·.tick) (onTrk (·.tick) s.chip)) = ticked s.chip := by
    rw [followReels_idle]
    · rfl
    · simp [ht]
    · simp [onDrive, onTrk, Drive.tick, hcar]
  have hend : stopEnd (ticked s.chip) = ticked s.chip := stopEnd_idle fun h => absurd (ht.symm.trans h.1) (by decide)
  have hcatch : catchEnd (ticked s.chip) = enter (if s.chip.sup.bothIn then .held else .slacking) (ticked s.chip) :=
    if_pos ⟨ht, hclaim, hhold, href, hstop⟩
  have hnone (n : TState) : (enter n (ticked s.chip)).eng.cur = none := by
    rw [enter_eng]
    split
    · rfl
    · exact hcur
  have hstep : tickStep s.chip = enter (if s.chip.sup.bothIn then .held else .slacking) (ticked s.chip) := by
    simp only [tickStep, settleMoves_idle hreq, hfollow, hend, hcatch]
    exact judgeBrake_idle (by simp [hnone])
  simp only [exec, execSpeedWindowTick, State.onChip, hstep]
  rfl

/-- What the end of a catch leaves, with the tension reference on its way from the state's own ramp. -/
theorem catchEnd_done {n : TState} {g : Ramp} (hn : n = .held ∨ n = .slacking) (hm : c.mode = .running)
    (hts : c.sup.ts = .catching) (hcur : c.eng.cur = none) (ha : c.gnt.active = none) (hq : c.gnt.request = none)
    (hg : entryRamp .catching n c.profile c.sup.tension = g) :
    let d := done (enter n c)
    d.sup.latch = c.sup.latch ∧ d.sup.trip = c.sup.trip ∧ d.sup.stop = c.sup.stop ∧ d.sup.threaded = c.sup.threaded ∧
    d.trk = c.trk ∧ d.gnt = c.gnt ∧ d.pln = c.pln ∧ d.set = c.set ∧ d.sup.ts = n ∧ d.sup.tension = g ∧
    d.evt.posted = c.evt.posted ++ [c.event .stateChanged n.code 0 8] := by
  have hne : n ≠ .unthreaded := by rcases hn with h | h <;> simp [h]
  obtain ⟨hposted, hgnt⟩ := enter_running_posted hm hne ha hq
  have hsup := enter_sup_eq hne c
  have hkept : (done (enter n c)).sup = (enter n c).sup := by
    refine done_sup _ fun x hx => ?_
    have hprof : (enter n c).profile = c.profile := by simp [Chip.profile, hne]
    rw [hsup, Supervisor.entered, hts]
    rcases hn with h | h <;> subst h <;> simp [tensionGoal, hprof] at hx
    exact hx ▸ rfl
  dsimp only
  rw [hkept, hsup, done_trk, done_gnt, done_pln, done_set, done_evt, hposted, hgnt]
  simp [Supervisor.entered, hts, hg, Chip.curTag, hcur, TState.code]

/-- Settles O38: the claim judged at the second arm's sample, the end of a catch, and an expired carry taken over. -/
theorem claimAndCatch : Obligations.ClaimAndCatch := by
  refine ⟨?_, ?_, ?_⟩
  · intro r v k i s hm hup hts hclaim hcar hrec hi hseen here other speed fails claimed
    obtain ⟨hpos, hval, hspeed, hmax⟩ := sampled_trk r v s.chip
    obtain ⟨hthr, hlatch, htrip, hhold, hts'⟩ := sampled_sup r v s.chip
    have hhere : classNow s.chip v = here := by simp [classNow, hi, Chip.profile, here]
    have hiff := claimFails_sampled r v s.chip
    rw [hhere] at hiff
    have hheld : (claimMade k (sampled r v s.chip)).evt.held = s.chip.evt.held ++ [claimed] := by
      simp only [claimMade, hmax, sampled_event]
      rfl
    refine ⟨_, exec_armSample_claim r v hup hclaim hseen, ?_⟩
    simp only [State.ends]
    cases hf : claimFails (sampled r v s.chip)
    · have hno : ¬ fails := fun h => by simp [hiff.2 h] at hf
      rw [judgeClaim_proceeds (c := sampled r v s.chip) hm hcar hrec (hts'.trans hts) hf]
      obtain ⟨h₁, h₂, h₃, h₄, h₅, h₆, h₇, h₈, h₉, h₁₀, h₁₁, h₁₂, h₁₃, h₁₄, h₁₅, h₁₆, h₁₇⟩ :=
        catchBegin_done (claimMade k (sampled r v s.chip))
      refine ⟨h₁, h₂, h₃, h₄.trans (hthr.trans hi), h₅.trans hlatch, (congrArg _ h₆).trans hpos, (congrArg _ h₆).trans hval, h₇,
        h₈, trivial, fun h => absurd h hno, fun _ => ⟨h₉.trans (hts'.trans hts), h₁₀.trans hspeed, h₁₁, h₁₂, h₁₃, h₁₄, ?_, h₁₆,
          fun h => ⟨(h₁₇ h).1.trans hhold, (h₁₇ h).2⟩⟩⟩
      rw [h₁₅, hheld]
    · have hyes : fails := hiff.1 hf
      rw [judgeClaim_fails (c := sampled r v s.chip) hm hcar hrec (hts'.trans hts) hf]
      obtain ⟨h₁, h₂, -, h₄, h₅, h₆, -, h₈, h₉, h₁₀, h₁₁, h₁₂, -, h₁₄, h₁₅, h₁₆, h₁₇, h₁₈⟩ :=
        failStart_done (c := claimMade k (sampled r v s.chip)) false hm rfl
      refine ⟨h₁, h₂, h₄, h₅.trans (hthr.trans hi), h₆.trans hlatch, (congrArg _ h₈).trans hpos, (congrArg _ h₈).trans hval, h₉,
        h₁₀, trivial, fun _ => ⟨h₁₁, ?_, h₁₄, h₁₅, h₁₆, h₁₇, ?_⟩, fun h => absurd hyes h⟩
      · rw [h₁₂]
        exact htrip ▸ rfl
      · have hevent : (claimMade k (sampled r v s.chip)).event .trip 6 0 0 = s.chip.event .trip 6 0 0 :=
          sampled_event r v s.chip .trip 6 0 0
        rw [h₁₈, hheld, hevent, List.append_assoc]
        rfl
  · intro s hm hup hts hclaim hhold href hreq hcur hcar hq ha hstop both
    have hx := exec_speedWindow_catch hts hclaim hhold href hreq hcur hcar hstop
    have hb : s.chip.sup.bothIn = true ↔ both := bothIn_iff s.chip.sup
    refine ⟨_, hx, ?_⟩
    by_cases h : both
    · rw [if_pos (hb.2 h)]
      obtain ⟨h₁, h₂, h₃, h₄, h₅, h₆, h₇, h₈, h₉, h₁₀, h₁₁⟩ := catchEnd_done (c := ticked s.chip) (.inl rfl) hm hts hcur ha hq rfl
      exact ⟨h₁, h₂, h₃, h₄, h₅, (congrArg _ h₆).trans ha, h₇, h₈, rfl, fun _ => ⟨h₉, h₁₀, h₁₁⟩, fun hn => absurd h hn⟩
    · rw [if_neg (mt hb.1 h)]
      obtain ⟨h₁, h₂, h₃, h₄, h₅, h₆, h₇, h₈, h₉, h₁₀, h₁₁⟩ := catchEnd_done (c := ticked s.chip) (.inr rfl) hm hts hcur ha hq rfl
      exact ⟨h₁, h₂, h₃, h₄, h₅, (congrArg _ h₆).trans ha, h₇, h₈, rfl, fun hn => absurd hn h, fun _ => ⟨h₉, h₁₀, h₁₁⟩⟩
  · intro k s hm hl hs hcar hrec h₁ h₂ hp hfs hft hcap
    have hfirst : firstState s.chip = takeOver k s.chip := by
      simp only [firstState, hcar, hrec]
      split <;> simp_all
    refine ⟨_, exec_supervisorStart_quiet hm hl hs hp hfs hft hcap, ?_⟩
    rw [hfirst, takeOver]
    obtain ⟨hcar', -, hup, -, hthr, hlatch, hstop, htrk, hgnt, hpln, hts, htrip, hside, -, hrun, hpinch, -, hheld⟩ :=
      failStart_done (c := startIn .tripped k.threaded .zero (onDrive (·.dropCarry) s.chip)) true hm rfl
    have hnone : (startIn .tripped k.threaded .zero (onDrive (·.dropCarry) s.chip)).sup.trip = .none := by
      show s.chip.sup.trip = .none
      rw [hs]
      rfl
    have hreset : s.chip.sup.stop = .none ∧ s.chip.sup.latch = false := by rw [hs]; exact ⟨rfl, rfl⟩
    rw [if_pos hnone] at htrip hside
    refine ⟨hup, hts, htrip, hside, hstop.trans hreset.1, hlatch.trans hreset.2, hthr, congrArg GrantUnit.threaded hgnt, hcar', hrun,
      hpinch, fun hf hf' hmode hmode' => ?_, hheld, htrk, hpln, rfl⟩
    exact failStart_reels (by exact hm) hf hf' hmode hmode'

end Sys2Proof.Supervision

namespace Sys2Proof.Supervision

open Sys2Proof Sys2Proof.Machine Sys2Proof.Laws Sys2Proof.TapePath

variable {c : Chip}

/-! ## The host heartbeat and its silence (R184, R185) -/

/-- The monitor after a heartbeat with the period OFF. -/
def beatOff (m : Monitor) : Monitor := if m.st = .silent then ⟨.disarmed, 0⟩ else m

theorem beat_off (h : c.set.gen.period = 0) : beat c = { c with mon := beatOff c.mon } := by
  simp only [beat, h, if_true, beatOff]
  split <;> rfl

theorem beat_on (hm : c.mode = .running) (h : c.set.gen.period ≠ 0) : beat c = ({ c with mon := ⟨.armed, 0⟩ } : Chip).posting
    (if c.mon.st = .silent then [c.event .heartbeatResumed 0 0 c.mon.elapsed] else []) [] := by
  simp only [beat, h, if_false]
  by_cases hs : c.mon.st = .silent
  · simp only [hs, if_true]
    rw [postEvent_running hm]
    rfl
  · simp only [hs, if_false]
    simp [onMon, Chip.posting]

/-- The write of the heartbeat word is released to memory as driven. -/
theorem exec_heartbeat (data : Word) (be : Enables) {s : State} (h : WriteReady 0x100 s) :
    exec (.heartbeat data be) s = .next (s.ends (release data be (beat (arrived (windowCycle 0x100 true data be s.chip) s.chip)))) := by
  obtain ⟨hm, hh, hd⟩ := h
  have hw (x : Chip) : windowWrite 0x100 data be x = release data be (beat x) := rfl
  simp only [exec, execHeartbeat, State.onChip, heartbeatOffset]
  rw [hostWriteStep_eq (by decide) (by decide) (by decide) hm hh hd, hw]
  rfl

/-- SILENCE_TIMER_EXPIRY before the period is over, or in a monitor not ARMED, finds nothing to do. -/
theorem exec_silence_early {s : State} (h : s.chip.mon.st ≠ .armed ∨ s.chip.mon.elapsed ≤ s.chip.set.gen.period) :
    exec .silenceTimerExpiry s = .next (s.ends s.chip) := by
  have hstep : silenceStep s.chip = s.chip := if_neg fun ⟨ha, _, hlt⟩ => h.elim (fun hn => hn ha) fun hle => by omega
  simp only [exec, execSilenceTimerExpiry, State.onChip, hstep]
  rfl

/-- The part SILENT, with what it posts. -/
def silent (c : Chip) : Chip :=
  postNotice .hostSilence (postEvent .hostSilence c.set.gen.stopMode.toNat 0 (c.set.gen.period : Int)
    (onMon (fun m => { m with st := .silent }) c))

theorem silent_frame (c : Chip) : (silent c).sup = c.sup ∧ (silent c).trk = c.trk ∧ (silent c).gnt = c.gnt ∧
    (silent c).set = c.set ∧ (silent c).mon.st = .silent := by
  simp [silent, onMon]

theorem exec_silence {s : State} (ha : s.chip.mon.st = .armed) (hp : s.chip.set.gen.period ≠ 0)
    (hlt : s.chip.set.gen.period < s.chip.mon.elapsed) : exec .silenceTimerExpiry s =
      .next (s.ends (if s.chip.set.gen.stopMode then stopCause .hostSilence (silent s.chip) else silent s.chip)) := by
  obtain ⟨-, -, -, hset, -⟩ := silent_frame s.chip
  have hstep : silenceStep s.chip =
      if s.chip.set.gen.stopMode then stopCause .hostSilence (silent s.chip) else silent s.chip := by
    rw [silenceStep, if_pos ⟨ha, hp, hlt⟩, ← hset]
    rfl
  simp only [exec, execSilenceTimerExpiry, State.onChip, hstep]
  rfl

/-- Settles O50: the heartbeat taken, and the silence reported, or taken as a stop cause. -/
theorem silenceMonitor : Obligations.SilenceMonitor := by
  refine ⟨fun data be s hw => ?_, fun s hm => ⟨fun ha hp hlt hmode => ?_, exec_silence_early⟩, fun s ha hp hlt hmode => ?_⟩
  · intro bus
    rw [exec_heartbeat data be hw]
    refine ⟨fun h => ?_, fun h => ?_⟩
    · rw [beat_on (c := arrived (windowCycle 0x100 true data be s.chip) s.chip) hw.1 h]
      rfl
    · rw [beat_off (c := arrived (windowCycle 0x100 true data be s.chip) s.chip) h]
      rfl
  · rw [exec_silence ha hp hlt, hmode, if_neg (by simp), silent, hmode, postEvent_running (by exact hm),
      postNotice_running (by exact hm)]
    rfl
  · refine ⟨_, exec_silence ha hp hlt, ?_⟩
    obtain ⟨hts, hstop, hlatch, -, hu, hq, hg⟩ := stopCause_latched (k := .hostSilence) rfl (silent s.chip)
    obtain ⟨hsup, htrk, hgnt, hset, hmon⟩ := silent_frame s.chip
    rw [hmode, if_pos rfl]
    simp [State.ends, hts, hstop, hlatch, hu, hq, hg, hsup, htrk, hgnt, hset, hmon]

end Sys2Proof.Supervision

namespace Sys2Proof.Supervision

open Sys2Proof Sys2Proof.Machine Sys2Proof.Laws Sys2Proof.TapePath

variable {c : Chip}

/-! ## TENSION_UP (R38, R39) -/

theorem exec_tensionUp {s : State} (h : inRun cmdTensionUp s.chip = true) :
    exec .tensionUp s = .next (s.ends (tensionUpStep s.chip)) := by
  simp only [exec, execTensionUp, State.onChip, whenRun, h, if_true]
  rfl

theorem exec_slackDown {s : State} (h : inRun cmdSlackDown s.chip = true) :
    exec .slackDown s = .next (s.ends (slackDownStep s.chip)) := by
  simp only [exec, execSlackDown, State.onChip, whenRun, h, if_true]
  rfl

theorem namedProfile_over {n : Nat} (h : 7 < n) : namedProfile n = none := dif_neg (by omega)

theorem namedProfile_fin (i : Fin 8) : namedProfile i.val = some i := dif_pos i.isLt

theorem tensionUpStep_busy (ht : c.sup.ts = .tensioning ∨ c.sup.ts = .slacking) : tensionUpStep c = reply .busy detailNone c :=
  if_pos ht

theorem tensionUpStep_elsewhere (h₁ : c.sup.ts ≠ .tensioning) (h₂ : c.sup.ts ≠ .slacking) (h₃ : c.sup.ts ≠ .threaded) :
    tensionUpStep c = reply .refused detailNotThreaded c := by
  rw [tensionUpStep, if_neg (not_or.2 ⟨h₁, h₂⟩), if_pos h₃]

section Answers

variable (ht : c.sup.ts = .threaded)

include ht

theorem tensionUpStep_noProfile (h : 7 < c.mbx.byte 0) : tensionUpStep c = reply .refused detailBadProfile c := by
  simp [tensionUpStep, ht, namedProfile_over h]

variable {i : Fin 8} (hi : c.mbx.byte 0 = i.val)

include hi

/-- In THREADED the command is judged by the profile it names (R38). -/
theorem tensionUpStep_named : tensionUpStep c =
    if (c.set.prof i.val).valid = false then reply .refused detailBadProfile c
    else if c.pins.powerFail then reply .refused detailPower c
    else tensionUpNow i (reply .done detailNone c) := by
  simp [tensionUpStep, ht, hi, namedProfile_fin]

theorem tensionUpStep_invalid (h : (c.set.prof i.val).valid = false) :
    tensionUpStep c = reply .refused detailBadProfile c := by
  rw [tensionUpStep_named ht hi, if_pos h]

theorem tensionUpStep_noPower (h : (c.set.prof i.val).valid = true) (hp : c.pins.powerFail = true) :
    tensionUpStep c = reply .refused detailPower c := by
  rw [tensionUpStep_named ht hi, if_neg (by simp [h]), if_pos hp]

theorem tensionUpStep_taken (h : (c.set.prof i.val).valid = true) (hp : c.pins.powerFail = false) :
    tensionUpStep c = tensionUpNow i (reply .done detailNone c) := by
  rw [tensionUpStep_named ht hi, if_neg (by simp [h]), if_neg (by simp [hp])]

end Answers

/-! ### The tension-up accepted (R19, R24, R39) -/

/-- The part with the profile taken, its reply laid out. -/
def profileTaken (i : Fin 8) (c : Chip) : Chip :=
  { c with
    sup := { c.sup with threaded := some i }
    gnt := { c.gnt with threaded := some i }
    mbx := c.replied .done detailNone }

/-- The part that has entered TENSIONING, with the orders of the sequence given. -/
def tensionedUp (i : Fin 8) (c : Chip) : Chip := tensionOrders (enter .tensioning (profileTaken i c))

theorem tensionUpNow_quiet (i : Fin 8) (hp : c.pins.powerFail = false) (hs : c.pins.fltSupply = false)
    (ht : c.pins.fltTup = false) : tensionUpNow i (reply .done detailNone c) = tensionedUp i c := by
  have hpins : (tensionedUp i c).pins = c.pins := (enter_frame .tensioning (profileTaken i c)).2.2.1
  have hstep : tensionUpNow i (reply .done detailNone c) = tripStanding (tensionedUp i c) := rfl
  simp [hstep, tripStanding, hpins, hp, hs, ht]

theorem enter_tensioning_drv (c : Chip) : (enter .tensioning c).drv = c.drv.release c.pinchFull := by
  simp [enter, enterStage, TState.admitsPinch, TState.dropsGrant, Chip.pinchFull]

/-- Where no rule orders the lifters, a command's end leaves them. -/
theorem done_lifters_unasked (h : lifterOrder (markClipped c) = none) : (done c).drv.lifters = c.drv.lifters := by
  have hj : (judged c).drv = c.drv := by
    unfold judged askLifters
    rw [h]
    rfl
  cases hu : c.sup.up
  · rw [done_down hu, (arbitrate_frame _).2.1]
  · rw [done_eq hu, (arbitrate_frame _).2.1, formTorques]
    split <;> simp [retarget_drv, hj]

/-- A reel in TORQUE at no tension is given no torque, where the part listens. -/
theorem done_torque_zero (hu : c.sup.up = true) (hc : c.drv.carry = .none) (hv : (done c).sup.tension.value.1 = 0) (r : Reel)
    (hm : (c.drv.reel r).mode = .torque) : ((done c).drv.reel r).torque = 0 := by
  rw [done_reel hu hc, ReelOut.torqued, if_pos hm]
  exact torqueOf_zero ((torque_basis hu).1 ▸ hv)

/-- The orders of the tension-up in the part that has entered TENSIONING (R39). -/
theorem tensionOrders_drv (c : Chip) : let d := (tensionOrders c).drv
    d.carry = c.drv.carry ∧ d.capRun = c.drv.capRun ∧ d.lifters = .up ∧ d.sup.mode = .torque ∧ d.tup.mode = .torque ∧
    d.sup.engaged = false ∧ d.tup.engaged = false := by
  have hstage := stage_orderBoth { c.drv with lifters := .up } .torque 0 false
  obtain ⟨h₁, h₂, h₃, h₄⟩ := orderBoth_released { c.drv with lifters := .up }
  exact ⟨hstage.carry, hstage.run, hstage.lifters, h₁, h₂, h₃, h₄⟩

/-- The tension-up at the end of its command: the supervisor. -/
theorem tensionUp_sup (i : Fin 8) (c : Chip) : let d := done (tensionedUp i c)
    d.sup.ts = .tensioning ∧ d.sup.threaded = some i ∧ d.sup.settle = some 0 ∧ d.sup.tension = ⟨0, 1, (c.set.prof i.val).park, 0⟩ ∧
    d.sup.latch = c.sup.latch ∧ d.gnt.threaded = some i ∧ d.gnt.request = c.gnt.request ∧ d.mbx = c.replied .done 0 ∧ d.trk = c.trk := by
  have hsup : (tensionedUp i c).sup = (profileTaken i c).sup.entered .tensioning (profileTaken i c).profile :=
    enter_sup_eq (by decide) _
  have hgnt : (tensionedUp i c).gnt = (profileTaken i c).gnt := enter_gnt _ _ (.inr (.inr rfl))
  obtain ⟨-, -, -, -, htrk, -, -, hmbx, -⟩ := enter_frame .tensioning (profileTaken i c)
  dsimp only
  rw [done_sup _ (fun g hg => by simp [tensionGoal, hsup, Supervisor.entered] at hg), hsup, done_gnt, hgnt, done_mbx, done_trk]
  exact ⟨rfl, rfl, rfl, rfl, rfl, rfl, rfl, hmbx, htrk⟩

/-- The tension-up at the end of its command: the stage (R39, R66). -/
theorem tensionUp_drv (i : Fin 8) (hu : c.sup.up = true) (hc : c.drv.carry = .none) :
    let d := (done (tensionedUp i c)).drv
    d.lifters = .up ∧ d.capRun = false ∧ d.sup.mode = .torque ∧ d.tup.mode = .torque ∧ d.sup.torque = 0 ∧ d.tup.torque = 0 ∧
    d.sup.engaged = false ∧ d.tup.engaged = false := by
  obtain ⟨hcar, hrun, hlift, h₁, h₂, h₃, h₄⟩ := tensionOrders_drv (enter .tensioning (profileTaken i c))
  obtain ⟨hrun', -⟩ := release_stage (profileTaken i c).drv (profileTaken i c).pinchFull
  obtain ⟨hcar', -⟩ := release_carry (profileTaken i c).drv (profileTaken i c).pinchFull
  rw [enter_tensioning_drv] at hcar hrun
  have hup : (tensionedUp i c).sup.up = true := by
    show (enter .tensioning (profileTaken i c)).sup.up = true
    simpa [profileTaken] using hu
  have hnone : (tensionedUp i c).drv.carry = .none := hcar.trans (hcar'.trans hc)
  have hts : (tensionedUp i c).sup.ts = .tensioning := (enter_supFrame ..).1
  have hv : (done (tensionedUp i c)).sup.tension.value.1 = 0 := by
    obtain ⟨-, -, -, h, -⟩ := tensionUp_sup i c
    rw [h]
    simp [Ramp.value, rampTime]
  dsimp only
  have hrule : lifterOrder (markClipped (tensionedUp i c)) = none := by
    have hmark : (markClipped (tensionedUp i c)).sup.ts = .tensioning := hts
    rw [lifterOrder, hmark]
  rw [done_lifters_unasked hrule, done_capRun, done_supMode, done_tupMode, done_supEngaged, done_tupEngaged]
  exact ⟨hlift, hrun.trans hrun', h₁, h₂, done_torque_zero hup hnone hv .supply h₁, done_torque_zero hup hnone hv .takeup h₂, h₃, h₄⟩

/-! ## SLACK_DOWN (R42) -/

theorem slackDownStep_held (h : c.sup.ts = .held) : slackDownStep c = enter .slacking (returnPlan (reply .done detailNone c)) :=
  if_pos h

theorem slackDownStep_tensioning (h : c.sup.ts = .tensioning) : slackDownStep c = enter .slacking (reply .done detailNone c) := by
  rw [slackDownStep, if_neg (by simp [h]), if_pos h]

theorem slackDownStep_busy (h₁ : c.sup.ts ≠ .held) (h₂ : c.sup.ts ≠ .tensioning) : slackDownStep c = reply .busy detailNone c := by
  rw [slackDownStep, if_neg h₁, if_neg h₂]

theorem returnPlan_frame (c : Chip) : (returnPlan c).sup = c.sup ∧ (returnPlan c).trk = c.trk ∧ (returnPlan c).set = c.set ∧
    (returnPlan c).mbx = c.mbx := by
  simp [returnPlan]

/-- SLACKING entered, at the end of the command: the grant and the request gone, the rest of the supervisor's word kept. -/
theorem slacking_done (c : Chip) : let d := done (enter .slacking c)
    d.sup.ts = .slacking ∧ d.gnt.active = none ∧ d.gnt.request = none ∧ d.pln = c.pln ∧ d.sup.latch = c.sup.latch ∧
    d.sup.trip = c.sup.trip ∧ d.sup.stop = c.sup.stop ∧ d.sup.threaded = c.sup.threaded ∧ d.mbx = c.mbx ∧ d.trk = c.trk ∧
    d.set = c.set := by
  obtain ⟨hactive, -, hrequest⟩ : GrantsGone c.gnt (enter .slacking c).gnt := by
    rw [enter_gnt_drops rfl, if_neg (by decide)]
    exact enterGrant_gone rfl (by decide) c
  simp [hactive, hrequest]

/-- Settles O54: the refusals of TENSION_UP, the tension-up accepted, and SLACK_DOWN. -/
theorem tensionCommandsTaken : Obligations.TensionCommandsTaken := by
  refine ⟨?_, ?_, ?_⟩
  · intro s hr answers ts n
    refine ⟨fun ht => ?_, fun h₁ h₂ h₃ => ?_, fun ht hbad => ?_, fun ht hn hv hp => ?_⟩
    · rw [exec_tensionUp hr, tensionUpStep_busy ht]
      rfl
    · rw [exec_tensionUp hr, tensionUpStep_elsewhere h₁ h₂ h₃]
      rfl
    · by_cases hn : 7 < n
      · rw [exec_tensionUp hr, tensionUpStep_noProfile ht hn]
        rfl
      · rw [exec_tensionUp hr, tensionUpStep_invalid ht (i := ⟨n, by omega⟩) rfl (hbad.resolve_left hn)]
        rfl
    · rw [exec_tensionUp hr, tensionUpStep_noPower ht (i := ⟨n, by omega⟩) rfl hv hp]
      rfl
  · intro i s hr hm hu ht hi hv hp hfs hft hc
    refine ⟨_, exec_tensionUp hr, ?_⟩
    rw [tensionUpStep_taken ht hi hv hp, tensionUpNow_quiet i hp hfs hft]
    obtain ⟨hts, hthr, hset, hten, hlatch, hgthr, hreq, hmbx, htrk⟩ := tensionUp_sup i s.chip
    obtain ⟨h₁, h₂, h₃, h₄, h₅, h₆, h₇, h₈⟩ := tensionUp_drv i hu hc
    refine ⟨hts, hthr, hgthr, hset, hten, h₁, h₂, h₃, h₄, h₅, h₆, h₇, h₈, hmbx, hlatch,
      hreq, htrk, ?_, rfl⟩
    have hposted := enter_announced (c := profileTaken i s.chip) hm (.inr rfl)
    have hold : (profileTaken i s.chip).sup.ts = .threaded := ht
    rw [hold] at hposted
    simp only [State.ends, done_evt]
    exact hposted
  · intro s hr
    refine ⟨fun ht => ⟨_, exec_slackDown hr, ?_⟩, fun h₁ h₂ => ?_⟩
    · rcases ht with ht | ht
      · rw [slackDownStep_held ht]
        obtain ⟨hts, hact, hreq, hpln, hlatch, htrip, hstop, hthr, hmbx, htrk, hset⟩ :=
          slacking_done (returnPlan (reply .done detailNone s.chip))
        obtain ⟨hsup, htrk', hset', hmbx'⟩ := returnPlan_frame (reply .done detailNone s.chip)
        rw [hsup] at hlatch htrip hstop hthr
        refine ⟨hts, hact, hreq, fun _ => ?_, hlatch, htrip, hstop, hthr, hmbx.trans hmbx', htrk.trans htrk', hset.trans hset', rfl⟩
        simp only [State.ends, hpln]
        exact flushBoth_queued ..
      · rw [slackDownStep_tensioning ht]
        obtain ⟨hts, hact, hreq, -, hlatch, htrip, hstop, hthr, hmbx, htrk, hset⟩ := slacking_done (reply .done detailNone s.chip)
        exact ⟨hts, hact, hreq, fun h => absurd (ht.symm.trans h) (by decide), hlatch, htrip, hstop, hthr, hmbx, htrk, hset, rfl⟩
    · rw [exec_slackDown hr, slackDownStep_busy h₁ h₂]
      rfl

end Sys2Proof.Supervision

namespace Sys2Proof.Supervision

open Sys2Proof Sys2Proof.Machine Sys2Proof.Laws Sys2Proof.TapePath

/-! ## One update of the reference speed (R119) -/

section Move

variable {e : Engine} {v : Int} {a : Nat}

theorem move_arrives (h : (v - e.ref).natAbs ≤ (a + e.frac) / 100) : e.move v a = { e with ref := v, frac := 0 } := if_pos h

theorem move_short (h : (a + e.frac) / 100 < (v - e.ref).natAbs) : e.move v a = { e with
    ref := if e.ref < v then e.ref + ((a + e.frac) / 100 : Nat) else e.ref - ((a + e.frac) / 100 : Nat)
    frac := (a + e.frac) % 100 } := if_neg (by omega)

/-- An update changes the reference speed and its fraction alone. -/
theorem move_frame (e : Engine) (v : Int) (a : Nat) :
    e.move v a = { e with ref := (e.move v a).ref, frac := (e.move v a).frac } := by
  rcases Nat.lt_or_ge ((a + e.frac) / 100) (v - e.ref).natAbs with h | h
  · rw [move_short h]
  · rw [move_arrives h]

end Move

/-! ## A controlled stop (R46, R47) -/

/-- In the deceleration of a stop the millisecond moves the reference speed toward 0 (R46). -/
theorem exec_referenceSpeed_stopping {s : State} (hm : s.chip.mode ≠ .bypass) (ht : s.chip.sup.ts = .stopping)
    (hhold : s.chip.eng.haltHold = false) (hreq : s.chip.eng.moveReq = false) (hcur : s.chip.eng.cur = none) :
    exec .referenceSpeedUpdate s = .next (s.ends (onEng (·.move 0 (stopAccel s.chip)) (clockTick s.chip))) := by
  have hupd : updateReference (clockTick s.chip) = onEng (·.move 0 (stopAccel s.chip)) (clockTick s.chip) := by
    have hts : (clockTick s.chip).sup.ts = .stopping := ht
    have hh : (clockTick s.chip).eng.haltHold = false := hhold
    simp only [updateReference, hts, hh, Bool.false_eq_true, if_false]
    rfl
  have hjudge : judgeBrake (onEng (·.move 0 (stopAccel s.chip)) (clockTick s.chip)) =
      onEng (·.move 0 (stopAccel s.chip)) (clockTick s.chip) :=
    judgeBrake_idle fun g hg => by simp [move_cur, clockTick, Engine.tick, hcur] at hg
  simp only [exec, execReferenceSpeedUpdate, State.onChip, referenceStep, hm, if_false, settleMoves_idle hreq, hupd, hjudge]
  rfl

theorem takeQueued_none {c : Chip} (hu : c.pln.urgent.queued = 0) (hm : c.pln.main.queued = 0) : takeQueued c = c := by
  simp [takeQueued, nextRing, hu, hm]

/-- Outside TRIPPED a millisecond follows no reel where no carry stands. -/
theorem followReels_ticked {c : Chip} (ht : c.sup.ts ≠ .tripped) (hcar : c.drv.carry = .none) :
    followReels (onDrive (·.tick) (onTrk (·.tick) c)) = ticked c :=
  followReels_idle ht (by simp [Drive.tick, hcar])

/-- The part at rest at the end of a controlled stop: HELD, the engine IDLE (R47). -/
def stopEnded (c : Chip) : Chip := enter .held (idleEngine (ticked c))

/-- The tick that finds the reference speed 0 and both reels stopped ends the stop. -/
theorem exec_speedWindow_stop {s : State} (ht : s.chip.sup.ts = .stopping) (href : s.chip.eng.ref = 0)
    (hhold : s.chip.eng.haltHold = false) (hreq : s.chip.eng.moveReq = false) (hcar : s.chip.drv.carry = .none)
    (hu : s.chip.pln.urgent.queued = 0) (hmain : s.chip.pln.main.queued = 0) (hstop : s.chip.trk.tick.reelsStopped = true) :
    exec .speedWindowTick s = .next (s.ends (stopEnded s.chip)) := by
  have hfollow := followReels_ticked (c := s.chip) (by simp [ht]) hcar
  have hend : stopEnd (ticked s.chip) = stopEnded s.chip := by
    rw [stopEnd, if_pos ⟨ht, href, hhold, hstop⟩]
    exact takeQueued_none (by simpa [ticked] using hu) (by simpa [ticked] using hmain)
  have hcatch : catchEnd (stopEnded s.chip) = stopEnded s.chip := catchEnd_idle fun h => by simp [stopEnded] at h
  have hjudge : judgeBrake (stopEnded s.chip) = stopEnded s.chip :=
    judgeBrake_idle fun g hg => by simp [stopEnded, enter_eng, idleEngine, Engine.reset, TState.dropsGrant] at hg
  simp only [exec, execSpeedWindowTick, State.onChip, tickStep, settleMoves_idle hreq, hfollow, hend, hcatch, hjudge]
  rfl

/-- Settles O26: the two branches of an update, the update of STOPPING, and the tick that ends a controlled stop. -/
theorem referenceSpeedMoves : Obligations.ReferenceSpeedMoves := by
  refine ⟨fun e target a => ?_, fun s hm hup ht hhold hreq hcur => ?_,
    fun s hup ht href hhold hreq hcur hcar hq hu hmain hstop => ?_⟩
  · intro e' q
    refine ⟨fun h => by simp [e', move_arrives h], fun h hlt => ?_, fun h hle => ?_, ?_⟩
    · simp [e', move_short h, hlt, q]
    · simp [e', move_short h, not_lt.2 hle, q]
    · simp only [e']
      rw [move_frame e target a]
      exact ⟨rfl, rfl, rfl, rfl⟩
  · intro a
    have hmove : (clockTick s.chip).eng.move 0 (stopAccel s.chip) = { s.chip.eng.tick with
        ref := (s.chip.eng.move 0 a).ref, frac := (s.chip.eng.move 0 a).frac } := tick_move s.chip.eng 0 a
    refine ⟨_, exec_referenceSpeed_stopping hm ht hhold hreq hcur, ?_⟩
    simp only [State.ends, done_ref, done_frac, done_ts, done_clock, done_gnt, done_pln, done_trk, onEng_eng, hmove]
    simp [clockTick, Supervisor.tick, ht, stopAccel]
  · refine ⟨_, exec_speedWindow_stop ht href hhold hreq hcar hu hmain hstop, ?_⟩
    have hgnt : (stopEnded s.chip).gnt = s.chip.gnt := enter_held_gnt (c := idleEngine (ticked s.chip)) hq
    have heng : (stopEnded s.chip).eng = Engine.reset := by simp [stopEnded, enter_eng, TState.dropsGrant, idleEngine]
    simp only [State.ends, done_ts, done_est, done_cur_none, done_latch, done_stop, done_trip, done_gnt, done_pln, done_cue,
      done_set, done_mbx, hgnt, heng]
    simp [stopEnded, ticked, Engine.reset]

end Sys2Proof.Supervision

namespace Sys2Proof.Supervision

open Sys2Proof Sys2Proof.Machine Sys2Proof.Laws Sys2Proof.TapePath

variable {c : Chip}

/-! ## What an entry posts (R17, R81, R82) -/

/-- In a running part an entry that unthreads nothing and resolves nothing announces itself after what the grant unit
posts of it (R17, R82, R84; log 18). -/
theorem enter_posts (hm : c.mode = .running) {n : TState} (hu : n ≠ .unthreaded) (hh : n ≠ .held) :
    (enter n c).evt.posted = (enterGrant n c).evt.posted ++ [c.event .stateChanged n.code c.curTag c.sup.ts.code] ∧
    (enter n c).ntc = (enterGrant n c).ntc.post .stateChanged := by
  simp only [enter, hu, hh, if_false]
  rw [postNotice_running (by simpa using hm), postEvent_running (by simpa using hm)]
  cases n <;> simp [TState.dropsGrant, onSup, Chip.event, Chip.curTag]

/-- The part that has entered HELD, its change announced, with a pending request still to be resolved. -/
def heldEntered (c : Chip) : Chip :=
  ({ c with sup := c.sup.entered .held c.profile, drv := c.drv.release c.pinchFull } : Chip).posting
    [c.event .stateChanged 3 c.curTag c.sup.ts.code] [.stateChanged]

theorem enter_held_eq (hm : c.mode = .running) : enter .held c = resolvePending (heldEntered c) := by
  simp only [enter, enterGrant, TState.dropsGrant, if_false, if_true, reduceCtorEq, false_and, Bool.false_eq_true]
  rw [postNotice_running (by simpa using hm), postEvent_running (by exact hm)]
  rfl

theorem resolvePending_none (hq : c.gnt.request = none) : resolvePending c = c := by simp [resolvePending, hq]

/-- The checks of a request read the settings and the threaded index alone (R78). -/
theorem checkChoice_congr {d : Chip} (hs : d.set = c.set) (ht : d.gnt.threaded = c.gnt.threaded) :
    checkChoice d = checkChoice c := by
  funext ch
  simp only [checkChoice, hs, ht]

theorem passedChoices_congr {d : Chip} (hs : d.set = c.set) (ht : d.gnt.threaded = c.gnt.threaded) :
    passedChoices d = passedChoices c := by
  funext chs
  simp only [passedChoices, checkChoice_congr hs ht, recordChoice, hs]

/-- A failed settle or a slack-down cancels the pending request; with no grant there is nothing else to drop (R82). -/
theorem enterGrant_slacking (ha : c.gnt.active = none) : enterGrant .slacking c = cancelPending droppedState c := by
  simp [enterGrant, TState.dropsGrant, dropActive, ha]

theorem cancelPending_running (v : Int) (hm : c.mode = .running) {chs : List Choice} (hq : c.gnt.request = some chs) :
    cancelPending v c = ({ c with gnt := { c.gnt with request := none } } : Chip).posting [c.event .grantDropped 2 0 v] [] := by
  simp only [cancelPending, hq]
  rw [postEvent_running (by exact hm)]
  rfl

theorem cancelPending_none (v : Int) (hq : c.gnt.request = none) : cancelPending v c = c := by simp [cancelPending, hq]

/-! ## The end of TENSIONING (R40) -/

/-- The part with the settle's failure reported: the profile named, and the arms not IN. -/
def settleFailed (c : Chip) : Chip :=
  c.posting [c.event .settleTimeout ((c.sup.threaded.map Fin.val).getD 0) 0
    ((if c.sup.clsSup = .inBand then 0 else 1) + (if c.sup.clsTup = .inBand then 0 else 2))] []

theorem exec_settleTimer {n : Nat} {s : State} (hm : s.chip.mode = .running) (ht : s.chip.sup.ts = .tensioning)
    (hs : s.chip.sup.settle = some n) (hn : s.chip.set.gen.settle ≤ n) :
    (s.chip.sup.clsSup = .inBand ∧ s.chip.sup.clsTup = .inBand →
      exec .settleTimerExpiry s = .next (s.ends (enter .held s.chip))) ∧
    (¬ (s.chip.sup.clsSup = .inBand ∧ s.chip.sup.clsTup = .inBand) →
      exec .settleTimerExpiry s = .next (s.ends (enter .slacking (settleFailed s.chip)))) := by
  have hdue : s.chip.sup.ts = .tensioning ∧ expired s.chip.sup.settle s.chip.set.gen.settle = true := by
    simp [ht, hs, expired, hn]
  refine ⟨fun hb => ?_, fun hb => ?_⟩
  · have hstep : settleStep s.chip = enter .held s.chip := by rw [settleStep, if_pos hdue, if_pos ((bothIn_iff _).2 hb)]
    simp only [exec, execSettleTimerExpiry, State.onChip, hstep]
    rfl
  · have harms : armsValue (s.chip.sup.clsSup != .inBand) (s.chip.sup.clsTup != .inBand) =
        (if s.chip.sup.clsSup = .inBand then 0 else 1) + (if s.chip.sup.clsTup = .inBand then 0 else 2) := by
      by_cases h₁ : s.chip.sup.clsSup = .inBand <;> by_cases h₂ : s.chip.sup.clsTup = .inBand <;>
        simp [armsValue, bne, beq_eq_decide, h₁, h₂]
    have hstep : settleStep s.chip = enter .slacking (settleFailed s.chip) := by
      rw [settleStep, if_pos hdue, if_neg (fun h => hb ((bothIn_iff _).1 h)), harms]
      exact congrArg (enter .slacking) (postEvent_running hm ..)
    simp only [exec, execSettleTimerExpiry, State.onChip, hstep]
    rfl

/-- What an entry into HELD or SLACKING from TENSIONING leaves at the end of the command, whatever becomes of a request. -/
theorem tensioned_done {n : TState} (hn : n = .held ∨ n = .slacking) (c : Chip) : let d := done (enter n c)
    d.sup.ts = n ∧ d.sup.threaded = c.sup.threaded ∧ d.sup.latch = c.sup.latch ∧ d.sup.trip = c.sup.trip ∧
    d.sup.stop = c.sup.stop ∧ d.sup.settle = none ∧ d.trk = c.trk ∧ d.set = c.set ∧ d.cue = c.cue ∧ d.pln = c.pln ∧
    d.mbx = c.mbx := by
  rcases hn with rfl | rfl <;> simp

/-- A settle that fails with a request pending or none: SETTLE_TIMEOUT, the request's GRANT_DROPPED, and the change. -/
theorem settleFailed_posts (hm : c.mode = .running) (ha : c.gnt.active = none) (hts : c.sup.ts = .tensioning) :
    (done (enter .slacking (settleFailed c))).evt.posted = (cancelPending droppedState (settleFailed c)).evt.posted ++
      [c.event .stateChanged 6 c.curTag 2] ∧
    (done (enter .slacking (settleFailed c))).ntc = (cancelPending droppedState (settleFailed c)).ntc.post .stateChanged := by
  obtain ⟨hp, hn⟩ := enter_posts (c := settleFailed c) hm (n := .slacking) (by decide) (by decide)
  rw [enterGrant_slacking (by exact ha)] at hp hn
  rw [done_evt, done_ntc, hp, hn]
  have hold : (settleFailed c).sup.ts = .tensioning := hts
  rw [hold]
  exact ⟨rfl, rfl⟩

/-- The resolution of a pending request, at the end of the command that enters HELD (R81, R187). -/
theorem heldEntered_resolved {chs : List Choice} (hm : c.mode = .running) (hq : c.gnt.request = some chs)
    (ha : c.gnt.active = none) (h0 : c.gnt.trim = 0) : let d := done (enter .held c)
    let outcomes := (outcomesByte (chs.map (checkChoice c))).toNat
    let resolved (result position : Nat) := c.event .grantResolved result 0 (outcomes + 256 * position : Nat)
    d.gnt.request = none ∧ d.gnt.trim = 0 ∧ d.ntc = (c.ntc.post .stateChanged).post .grantChanged ∧
    (∀ g rest, passedChoices c chs = g :: rest → d.gnt.active = some g ∧ d.gnt.fallback = rest ∧
      d.evt.posted = c.evt.posted ++ [c.event .stateChanged 3 c.curTag c.sup.ts.code, resolved 9 g.position]) ∧
    (passedChoices c chs = [] → d.gnt.active = none ∧
      d.evt.posted = c.evt.posted ++ [c.event .stateChanged 3 c.curTag c.sup.ts.code, resolved 2 0]) := by
  have hres := resolvePending_running chs (heldEntered c) hm hq h0
  rw [checkChoice_congr (c := c) (d := heldEntered c) rfl rfl, passedChoices_congr (c := c) (d := heldEntered c) rfl rfl] at hres
  dsimp only
  rw [done_gnt, done_ntc, done_evt, enter_held_eq hm, hres]
  cases hp : passedChoices c chs with
  | nil =>
    refine ⟨rfl, h0, rfl, fun g rest h => (nomatch h), fun _ => ⟨ha, ?_⟩⟩
    simp [Chip.posting, heldEntered, Chip.event]
  | cons g rest =>
    refine ⟨rfl, h0, rfl, fun g' rest' h => ?_, fun h => (nomatch h)⟩
    obtain ⟨rfl, rfl⟩ := List.cons.inj h
    refine ⟨rfl, rfl, ?_⟩
    simp [Chip.posting, heldEntered, Chip.event]

/-! ## The end of SLACKING (R43) -/

theorem exec_slackZero {s : State} (ht : s.chip.sup.ts = .slacking) (ho : s.chip.sup.off = none)
    (hv : s.chip.sup.tension.value.1 = 0) : exec .slackReferenceZero s = .next (s.ends (engageBrakes s.chip)) := by
  have hstep : slackZeroStep s.chip = engageBrakes s.chip := if_pos ⟨ht, ho, by simp [Supervisor.tense, hv]⟩
  simp only [exec, execSlackReferenceZero, State.onChip, hstep]
  rfl

theorem exec_offDelay {o : OffDelay} {s : State} (ht : s.chip.sup.ts = .slacking) (ho : s.chip.sup.off = some o)
    (hl : o.limit ≤ o.elapsed) :
    exec .offDelayExpiry s = .next (s.ends (enter .threaded (onDrive (·.orderBoth .off 0 true) s.chip))) := by
  have hstep : offDelayStep s.chip = enter .threaded (onDrive (·.orderBoth .off 0 true) s.chip) := by
    simp [offDelayStep, ho, ht, OffDelay.over, hl]
  simp only [exec, execOffDelayExpiry, State.onChip, hstep]
  rfl

/-- THREADED entered, at the end of the command: the drives OFF, the brakes ENGAGED, the profile kept (R25, R43). -/
theorem threaded_done (c : Chip) : let d := done (enter .threaded c)
    d.sup.ts = .threaded ∧ d.sup.off = none ∧ d.drv.sup.engaged = true ∧ d.drv.tup.engaged = true ∧ d.drv.sup.mode = .off ∧
    d.drv.tup.mode = .off ∧ d.sup.threaded = c.sup.threaded ∧ d.trk = c.trk ∧ d.set = c.set ∧ d.cue = c.cue := by
  obtain ⟨h₁, h₂, h₃, h₄⟩ := orderBoth_engaged (c.drv.release c.pinchFull) .off (.inl rfl)
  dsimp only
  rw [done_supEngaged, done_tupEngaged, done_supMode, done_tupMode, enter_threaded_drv, h₁, h₂, h₃, h₄]
  simp

/-- The brakes engaged with an off delay to run, at the end of the command: the drives in TORQUE at no torque (R43). -/
theorem engageBrakes_done (hup : c.sup.up = true) (ht : c.sup.ts = .slacking) (hcar : c.drv.carry = .none)
    (hv : c.sup.tension.value.1 = 0) (h : c.set.gen.offDelay ≠ 0) : let d := done (engageBrakes c)
    d.drv.sup.engaged = true ∧ d.drv.tup.engaged = true ∧ d.trk = c.trk ∧ d.sup.threaded = c.sup.threaded ∧ d.set = c.set ∧
    d.sup.ts = .slacking ∧ d.sup.off = some ⟨0, c.set.gen.offDelay⟩ ∧ d.drv.sup.mode = .torque ∧ d.drv.tup.mode = .torque ∧
    d.drv.sup.torque = 0 ∧ d.drv.tup.torque = 0 := by
  obtain ⟨h₁, h₂, h₃, h₄⟩ := orderBoth_engaged c.drv .torque (.inr rfl)
  have hstage := stage_orderBoth c.drv .torque 0 true
  rw [engageBrakes_delayed h]
  set b := onSup (fun s => { s with off := some ⟨0, c.set.gen.offDelay⟩ }) (onDrive (·.orderBoth .torque 0 true) c)
  have hts : b.sup.ts = .slacking := ht
  have hcar' : b.drv.carry = .none := hstage.carry.trans hcar
  have hsup : (done b).sup = b.sup := done_sup b fun g hg => by simp [tensionGoal, hts] at hg
  have hv' : (done b).sup.tension.value.1 = 0 := by rw [hsup]; exact hv
  dsimp only
  rw [done_supEngaged, done_tupEngaged, done_trk, done_set, done_supMode, done_tupMode, hsup]
  exact ⟨h₃, h₄, rfl, rfl, rfl, ht, rfl, h₁, h₂, done_torque_zero (c := b) hup hcar' hv' .supply h₁,
    done_torque_zero (c := b) hup hcar' hv' .takeup h₂⟩

/-- Settles O23: the settle's two ends with and without a pending request, and the two steps that end SLACKING. -/
theorem tensionSequencesEnd : Obligations.TensionSequencesEnd := by
  refine ⟨?_, fun s hup ht ho hcar hv ha => ⟨_, exec_slackZero ht ho hv, ?_⟩,
    fun o s hup ht ho hl ha => ⟨_, exec_offDelay ht ho hl, ?_⟩, ?_⟩
  · intro n s hm hup ht hs hn hq ha both arms
    obtain ⟨hheld, hslack⟩ := exec_settleTimer hm ht hs hn
    by_cases hb : both
    · obtain ⟨hts, hthr, hlatch, htrip, hstop, hset, htrk, hst, hcue, -⟩ := tensioned_done (n := .held) (.inl rfl) s.chip
      refine ⟨_, hheld hb, hthr, hlatch, htrip, hstop, hset, htrk, hst, hcue, rfl, fun _ => ⟨hts, ?_⟩, fun h => absurd hb h⟩
      rw [State.ends, done_evt, enter_held_eq hm, resolvePending_none (by exact hq), heldEntered, ht]
      rfl
    · obtain ⟨hts, hthr, hlatch, htrip, hstop, hset, htrk, hst, hcue, -⟩ :=
        tensioned_done (n := .slacking) (.inr rfl) (settleFailed s.chip)
      refine ⟨_, hslack hb, hthr, hlatch, htrip, hstop, hset, htrk, hst, hcue, rfl, fun h => absurd h hb, fun _ => ⟨hts, ?_⟩⟩
      rw [State.ends, (settleFailed_posts hm ha ht).1, cancelPending_none _ (by exact hq)]
      simp [settleFailed, Chip.posting, arms]
  · by_cases h : s.chip.set.gen.offDelay = 0
    · obtain ⟨hts, -, h₁, h₂, h₃, h₄, hthr, htrk, hst, -⟩ := threaded_done (onDrive (·.orderBoth .torque 0 true) s.chip)
      rw [engageBrakes_atOnce h]
      exact ⟨h₁, h₂, htrk, hthr, hst, rfl, fun hne => absurd h hne, fun _ => ⟨hts, h₃, h₄⟩⟩
    · obtain ⟨h₁, h₂, htrk, hthr, hst, hdelay⟩ := engageBrakes_done hup ht hcar hv h
      exact ⟨h₁, h₂, htrk, hthr, hst, rfl, fun _ => hdelay, fun he => absurd he h⟩
  · obtain ⟨hts, hoff, h₁, h₂, h₃, h₄, hthr, htrk, hst, hcue⟩ := threaded_done (onDrive (·.orderBoth .off 0 true) s.chip)
    exact ⟨hts, hoff, h₁, h₂, h₃, h₄, hthr, htrk, hst, hcue, rfl⟩
  · intro n chs s hm hup ht hs hn hq ha h0 both arms outcomes entered resolved
    obtain ⟨hheld, hslack⟩ := exec_settleTimer hm ht hs hn
    by_cases hb : both
    · obtain ⟨hts, -, -, -, -, -, htrk, hst, hcue, hpln, hmbx⟩ := tensioned_done (n := .held) (.inl rfl) s.chip
      obtain ⟨hreq, htrim, hntc, hpass, hnone⟩ := heldEntered_resolved hm hq ha h0
      rw [ht] at hpass hnone
      exact ⟨_, hheld hb, hreq, htrim, htrk, hst, hpln, hcue, hmbx, rfl, fun _ => ⟨hts, hntc⟩, fun g rest _ => hpass g rest,
        fun _ => hnone, fun h => absurd hb h⟩
    · obtain ⟨hts, -, -, -, -, -, htrk, hst, hcue, hpln, hmbx⟩ :=
        tensioned_done (n := .slacking) (.inr rfl) (settleFailed s.chip)
      obtain ⟨hp, hntc⟩ := settleFailed_posts hm ha ht
      have hcan := cancelPending_running (c := settleFailed s.chip) droppedState hm hq
      have hgnt : (done (enter .slacking (settleFailed s.chip))).gnt = { s.chip.gnt with request := none } := by
        rw [done_gnt, enter_gnt_drops rfl, if_neg (by decide), enterGrant_slacking (by exact ha), hcan]
        rfl
      rw [hcan] at hp hntc
      refine ⟨_, hslack hb, ?_, ?_, htrk, hst, hpln, hcue, hmbx, rfl, fun h => absurd h hb, fun _ _ h => absurd h hb,
        fun h => absurd h hb, fun _ => ⟨hts, ?_, ?_, hntc⟩⟩
      · rw [State.ends, hgnt]
      · rw [State.ends, hgnt]
        exact h0
      · rw [State.ends, hgnt]
        exact ha
      · rw [State.ends, hp]
        simp [settleFailed, Chip.posting, Chip.event, arms, droppedState]

end Sys2Proof.Supervision

namespace Sys2Proof.Supervision

open Sys2Proof Sys2Proof.Machine Sys2Proof.Laws Sys2Proof.TapePath

variable {c : Chip} {g : Seg}

/-! ## The end of a pinch movement (R63, R64) -/

/-- The stage as the end of a movement out leaves it, a held capstan OFF carried out (R61, R63). -/
def pinchedOut (d : Drive) : Drive :=
  if d.capOffHeld then
    { d with pinch := .out, pinchSpent := 0, pinchTime := 0, capRun := false, capSpeed := 0, capOffHeld := false }
  else { d with pinch := .out, pinchSpent := 0, pinchTime := 0 }

/-- The stage as the end of a movement in leaves it in MOVING: IN with the capstan in RUN, else on its way out (R64). -/
def pinchedIn (d : Drive) (full : Nat) : Drive :=
  if d.capRun then { d with pinch := .pinched, pinchSpent := 0, pinchTime := 0 }
  else { d with pinch := .goingOut, pinchSpent := 0, pinchTime := full }

theorem pinchEnds_in {d : Drive} (hp : d.pinch = .goingIn) (full : Nat) : d.pinchEnds true full = pinchedIn d full := by
  simp only [Drive.pinchEnds, hp, pinchedIn, and_true]

theorem pinchEnds_out {d : Drive} (hp : d.pinch = .goingOut) (law : Bool) (full : Nat) : d.pinchEnds law full = pinchedOut d := by
  simp only [Drive.pinchEnds, hp, pinchedOut]
  rfl

/-- A capstan OFF order leaves the stage the same whether or not one was held. -/
theorem capstanStop_pinchedOut (d : Drive) : (pinchedOut d).capstanStop =
    { d with pinch := .out, pinchSpent := 0, pinchTime := 0, capRun := false, capSpeed := 0, capOffHeld := false } := by
  unfold pinchedOut
  split <;> rfl

/-- A movement that has lasted its time ends by the law of the transport's own state, and the supervisor and the engine are
told. -/
theorem exec_pinchMovementEnd {s : State} (hup : s.chip.sup.up = true) (hreq : s.chip.eng.moveReq = false)
    (hp : s.chip.drv.pinch = .goingIn ∨ s.chip.drv.pinch = .goingOut) (hdue : s.chip.drv.pinchTime ≤ s.chip.drv.pinchSpent) :
    exec .pinchMovementEnd s = .next (s.ends (pinchReport s.chip.drv.pinch { s.chip with
      drv := s.chip.drv.pinchEnds s.chip.sup.ts.admitsPinch s.chip.set.gen.pinchTime })) := by
  have hd : s.chip.drv.pinchDue = true := by rcases hp with h | h <;> simp [Drive.pinchDue, h, hdue]
  have hstate : s.chip.stageState = s.chip.sup.ts := by simp [Chip.stageState, hup]
  simp only [exec, execPinchMovementEnd, State.onChip, pinchStep, settleMoves_idle hreq, hd, if_true, hstate]
  rfl

/-! ### A movement in, as a PLAY in PINCH_IN is told of it (R123) -/

theorem exec_pinchedIn {s : State} (hup : s.chip.sup.up = true) (ht : s.chip.sup.ts = .moving)
    (hreq : s.chip.eng.moveReq = false) (hp : s.chip.drv.pinch = .goingIn)
    (hdue : s.chip.drv.pinchTime ≤ s.chip.drv.pinchSpent) :
    let c : Chip := { s.chip with drv := pinchedIn s.chip.drv s.chip.set.gen.pinchTime }
    exec .pinchMovementEnd s = .next (s.ends (if s.chip.drv.capRun then pinchInReport c else pinchTurnReport c)) := by
  have hadmits : s.chip.sup.ts.admitsPinch = true := by rw [ht]; rfl
  rw [exec_pinchMovementEnd hup hreq (.inl hp) hdue, hadmits, pinchEnds_in hp, hp]
  cases hr : s.chip.drv.capRun <;> simp [pinchReport, hup, pinchedIn, hr]

theorem pinchInReport_other (h : ∀ g, c.eng.cur = some g → g.phase ≠ .pinchIn) : pinchInReport c = c := by
  cases hc : c.eng.cur with
  | none => simp only [pinchInReport, hc]
  | some g => simp only [pinchInReport, hc, h g hc, if_false]

theorem pinchTurnReport_other (h : ∀ g, c.eng.cur = some g → g.phase ≠ .pinchIn) : pinchTurnReport c = c := by
  cases hc : c.eng.cur with
  | none => simp only [pinchTurnReport, hc]
  | some g => simp only [pinchTurnReport, hc, h g hc, if_false]

theorem stopCause_moving (k : StopCause) (ht : c.sup.ts = .moving) : stopCause k c = stopMoving k c := by
  simp only [stopCause, ht]

/-- The tape's speed is more than 2 % of the command away from the capstan's (R123). -/
def SpeedsApart (c : Chip) : Prop := 2 * c.drv.capSpeed.natAbs < 100 * (c.trk.tapeSpeed - c.drv.measuredCapstan).natAbs

/-- A position end stands at its target or beyond it (R124). -/
def AtPositionEnd (g : Seg) (c : Chip) : Prop :=
  g.record.positionEnd = true ∧ reached c.trk.position g.record.target g.dir = true

section PinchIn

variable (hc : c.eng.cur = some g) (hp : g.phase = .pinchIn)

include hc hp

theorem pinchTurnReport_fault (ht : c.sup.ts = .moving) : pinchTurnReport c = stopMoving .pinchFault c := by
  simp only [pinchTurnReport, hc, hp, if_true, stopCause_moving _ ht]

theorem pinchInReport_fault (ht : c.sup.ts = .moving) (ha : SpeedsApart c) : pinchInReport c = stopMoving .pinchFault c := by
  have ha' : 2 * c.drv.capSpeed.natAbs < 100 * (c.trk.tapeSpeed - c.drv.measuredCapstan).natAbs := ha
  simp only [pinchInReport, hc, hp, if_true, ha', stopCause_moving _ ht]

/-- With the speeds together the PLAY is in CAPSTAN, and judges its position end or starts its duration. -/
theorem pinchInReport_together (ha : ¬ SpeedsApart c) : pinchInReport c =
    if g.record.positionEnd = true then
      (if reached c.trk.position g.record.target g.dir then settle (playEnds (doneOr g) (toPhase .capstan c))
      else toPhase .capstan c)
    else if g.record.duration ≠ 0 then startTimer (toPhase .capstan c) else toPhase .capstan c := by
  have ha' : ¬ 2 * c.drv.capSpeed.natAbs < 100 * (c.trk.tapeSpeed - c.drv.measuredCapstan).natAbs := ha
  simp only [pinchInReport, hc, hp, if_true, ha', if_false]
  rfl

theorem pinchInReport_capstan (ha : ¬ SpeedsApart c) (hr : ¬ AtPositionEnd g c) : pinchInReport c = { c with
    eng := { c.eng with cur := some { g with
      phase := .capstan
      timer := if g.record.positionEnd = false ∧ g.record.duration ≠ 0 then some 0 else g.timer } } } := by
  rw [pinchInReport_together hc hp ha, toPhase_eq _ hc]
  by_cases he : g.record.positionEnd = true
  · have hno : ¬ reached c.trk.position g.record.target g.dir = true := fun h => hr ⟨he, h⟩
    simp [he, hno]
  · by_cases hd : g.record.duration = 0 <;> simp [he, hd, startTimer, onSeg, onEng]

theorem pinchInReport_ended (ha : ¬ SpeedsApart c) (hr : AtPositionEnd g c) (hd : c.drv.pinch = .pinched) :
    pinchInReport c = { c with
      eng := { c.eng with cur := some { g with phase := .pinchOut, endStatus := some g.doneStatus } }
      drv := { c.drv with
        pinch := .goingOut, pinchTime := c.set.gen.pinchTime, pinchSpent := 0, capOffHeld := true } } := by
  rw [pinchInReport_together hc hp ha, if_pos hr.1, if_pos hr.2, toPhase_eq _ hc]
  exact settle_playEnds_pinched (g := { g with phase := .capstan }) (doneOr g) rfl hd

end PinchIn

/-! ### A movement out, as what waited for it is told (R45, R54, R115, R125) -/

theorem exec_pinchedOut {s : State} (hup : s.chip.sup.up = true) (hreq : s.chip.eng.moveReq = false)
    (hp : s.chip.drv.pinch = .goingOut) (hdue : s.chip.drv.pinchTime ≤ s.chip.drv.pinchSpent) :
    exec .pinchMovementEnd s = .next (s.ends (pinchOutReport { s.chip with drv := pinchedOut s.chip.drv })) := by
  have hout : (pinchedOut s.chip.drv).pinch = .out := by
    unfold pinchedOut
    split <;> rfl
  rw [exec_pinchMovementEnd hup hreq (.inr hp) hdue, pinchEnds_out hp, hp]
  simp only [pinchReport, hup, if_true, hout]

theorem pinchOutReport_halt (h : c.eng.haltHold = true ∧ c.sup.ts = .stopping) : pinchOutReport c =
    { c with drv := c.drv.capstanStop, eng := { c.eng with haltHold := false } } := by
  simp only [pinchOutReport, h, and_self, if_true]
  rfl

theorem pinchOutReport_catch (h : ¬ (c.eng.haltHold = true ∧ c.sup.ts = .stopping)) (hk : c.sup.catchHold = true) :
    pinchOutReport c = { c with drv := c.drv.capstanStop, sup := { c.sup with catchHold := false } } := by
  simp only [pinchOutReport, h, if_false, hk, if_true]
  rfl

section Told

variable (h : ¬ (c.eng.haltHold = true ∧ c.sup.ts = .stopping)) (hk : c.sup.catchHold = false)

include h hk

theorem pinchOutReport_ends {st : Status} (hc : c.eng.cur = some g) (hp : g.phase = .pinchOut) (hs : g.endStatus = some st) :
    pinchOutReport c = complete st c := by
  simp only [pinchOutReport, h, if_false, hk, hc, hp, if_true, hs, Option.getD_some, Bool.false_eq_true]

theorem pinchOutReport_release (hc : c.eng.cur = some g) (hp : g.phase = .release) : pinchOutReport c = settle (begin c) := by
  simp only [pinchOutReport, h, if_false, hk, hc, hp, if_true, Bool.false_eq_true, reduceCtorEq]

theorem pinchOutReport_other (ho : ∀ g, c.eng.cur = some g → g.phase ≠ .pinchOut ∧ g.phase ≠ .release) :
    pinchOutReport c = c := by
  cases hc : c.eng.cur with
  | none => simp only [pinchOutReport, h, if_false, hk, hc, Bool.false_eq_true]
  | some g =>
    obtain ⟨h₁, h₂⟩ := ho g hc
    simp only [pinchOutReport, h, if_false, hk, hc, h₁, h₂, Bool.false_eq_true]

end Told

/-- A SPOOL without an end of its own, and a WIND, go on in RUN at any reference speed but 0. -/
theorem judgeSpeed_run (m : Bool) (hp : g.phase = .run) (hr : c.eng.ref ≠ 0)
    (hk : g.kind = .wind ∨ (g.kind = .spool ∧ g.record.positionEnd = false ∧ g.record.duration = 0)) :
    judgeSpeed m c g = (c, .goes) := by
  rw [judgeSpeed, if_neg fun h => hr h.2]
  rcases hk with hk | ⟨hk, he, hd⟩
  · simp only [hp, hk]
  · simp [hp, hk, he, hd]

/-- The end of a RELEASE begins RUN (R115). -/
theorem settle_begin_run (hc : c.eng.cur = some g) (hl : g.loc = none) (hr : c.eng.ref ≠ 0)
    (hk : g.kind = .wind ∨ (g.kind = .spool ∧ g.record.positionEnd = false ∧ g.record.duration = 0)) :
    settle (begin c) = markClipped { c with eng := { c.eng with cur := some { g with phase := .run } } } := by
  have hfirst : firstPhase g.kind = .run := by rcases hk with hk | ⟨hk, -⟩ <;> rw [hk] <;> rfl
  have haim : toPhase .run (aim c) = { c with eng := { c.eng with cur := some { g with phase := .run } } } := by
    simp only [aim, toPhase, onSeg, onEng, hc, Option.map_some, hl]
  obtain ⟨b, hb⟩ := markClipped_cur (c := { c with eng := { c.eng with cur := some { g with phase := .run } } }) rfl
  simp only [begin, hc, hfirst, haim, hb]
  rw [judgeSpeed_run true rfl (by exact hr) (by exact hk), settle_goes]

/-! ## The millisecond of a PLAY (R119, R122, R123, R124) -/

/-- A PLAY in a phase with the tape in motion. -/
structure Playing (g : Seg) : Prop where
  kind : g.kind = .play
  phase : g.phase = .leadIn ∨ g.phase = .pinchIn ∨ g.phase = .capstan ∨ g.phase = .pinchOut

theorem targetSpeed_cur (hc : c.eng.cur = some g) : targetSpeed c = limitTarget c (unlimitedTarget c g) := by
  simp only [targetSpeed, hc]

/-- A PLAY asks for its play target, and in PINCH_OUT for the held reference speed (R118; log 22). -/
theorem unlimitedTarget_playing (h : Playing g) : unlimitedTarget c g =
    if g.phase = .pinchOut then c.eng.ref else playTarget c g := by
  rcases h.phase with hp | hp | hp | hp <;> simp [unlimitedTarget, hp, h.kind]

theorem judgeSpeed_leadIn (m : Bool) (hp : g.phase = .leadIn) (hz : fallenToZero c g = false) (ht : c.sup.ts = .moving) :
    judgeSpeed m c g = if c.eng.ref = targetSpeed c then leadInEnds c else (c, .goes) := by
  simp [judgeSpeed, hz, hp, ht]

/-- Past LEAD_IN the reference speed decides nothing of a PLAY. -/
theorem judgeSpeed_past (m : Bool) (h : Playing g) (hp : g.phase ≠ .leadIn) (hz : fallenToZero c g = false) :
    judgeSpeed m c g = (c, .goes) := by
  rcases h.phase.resolve_left hp with hq | hq | hq <;> simp [judgeSpeed, hz, hq, h.kind]

theorem judgeCurrent_cur (m : Bool) (hc : c.eng.cur = some g) (ht : c.sup.ts = .moving) (he : c.eng.est = .running) :
    judgeCurrent m c = settle (judgeSpeed m c g) := by
  simp [judgeCurrent, hc, canTake, ht, he]

/-- A part in which nothing is judged at rest. -/
theorem judge_still (he : c.eng.est ≠ .starved) (hp : ∀ g, c.eng.cur = some g → g.phase ≠ .brake) :
    judgeBrake (starvedAtRest c) = c := by
  rw [starved_idle he, judgeBrake_idle hp]

/-- The reference speed a millisecond on: held in PINCH_OUT, and otherwise moved toward the target (R119, R124). -/
def movedRef (g : Seg) (c : Chip) : Int :=
  if g.phase = .pinchOut then c.eng.ref else (c.eng.move (targetSpeed c) (effectiveAccel c)).ref

/-- The change of the reference speed is one the capstan is sent (R123, R124). -/
def Sent (g : Seg) (c : Chip) : Prop :=
  (g.phase = .pinchIn ∨ g.phase = .capstan) ∧ movedRef g c ≠ c.eng.ref ∧ c.pins.fltCap = false

/-- The part with the reference speed moved, as the PLAY finds it when it judges that speed. -/
structure RefMoved (g : Seg) (s : State) (c : Chip) : Prop where
  engine : c.eng.ref = movedRef g s.chip ∧ c.eng.est = s.chip.eng.est
  state : c.sup.ts = s.chip.sup.ts ∧ c.sup.trip = s.chip.sup.trip
  pinch : c.drv.pinch = s.chip.drv.pinch
  sent : Sent g s.chip → c.drv.capRun = true ∧ c.drv.capSpeed = movedRef g s.chip
  unsent : ¬ Sent g s.chip → c.drv.capRun = s.chip.drv.capRun ∧ c.drv.capSpeed = s.chip.drv.capSpeed
  rest : c.trk = s.chip.trk ∧ c.gnt = s.chip.gnt ∧ c.cue = s.chip.cue ∧ c.set = s.chip.set ∧ c.pins = s.chip.pins

/-- The current segment but for its mark and its timer. -/
def SameSeg (g g' : Seg) : Prop := ∃ b tm, g' = { g with clipped := b, timer := tm }

section Update

variable {s : State}

/-- The millisecond in MOVING up to the PLAY's own judgement. -/
theorem exec_playUpdate (hm : s.chip.mode ≠ .bypass) (ht : s.chip.sup.ts = .moving) (he : s.chip.eng.est = .running)
    (hc : s.chip.eng.cur = some g) (h : Playing g) :
    ∃ g' m c, SameSeg g g' ∧ c.eng.cur = some g' ∧ RefMoved g s c ∧ exec .referenceSpeedUpdate s =
      .next (s.ends (judgeBrake (starvedAtRest (settle (judgeSpeed m c g'))))) := by
  have hrel : g.phase ≠ .release := by rcases h.phase with hp | hp | hp | hp <;> simp [hp]
  obtain ⟨d, b, tm, c, heng, hd, hdrv, hsup, htrk, hgnt, hcue, hset, hpins, -, -, hx⟩ := update_moving g s hm ht hc hrel
  have hts : c.sup.ts = s.chip.sup.ts := by rw [hsup]; rfl
  have hmoved : RefMoved g s c := by
    have hsent (hs : Sent g s.chip) : c.drv = d.capstanRun (movedRef g s.chip) := hdrv.trans (if_pos hs)
    have hunsent (hs : ¬ Sent g s.chip) : c.drv = d := hdrv.trans (if_neg hs)
    refine ⟨by rw [heng]; exact ⟨rfl, rfl⟩, ⟨hts, by rw [hsup]; rfl⟩, ?_, fun hs => ?_, fun hs => ?_, htrk, hgnt, hcue, hset, hpins⟩
    · by_cases hs : Sent g s.chip
      · rw [hsent hs, hd]
        rfl
      · rw [hunsent hs, hd]
    · rw [hsent hs]
      exact ⟨rfl, rfl⟩
    · rw [hunsent hs, hd]
      exact ⟨rfl, rfl⟩
  have hcur : c.eng.cur = some { g with clipped := b, timer := tm } := by rw [heng]
  refine ⟨_, decide (movedRef g s.chip ≠ s.chip.eng.ref), c, ⟨b, tm, rfl⟩, hcur, hmoved, hx.trans ?_⟩
  exact congrArg (fun x => Host.Outcome.next (s.ends (judgeBrake (starvedAtRest x))))
    (judgeCurrent_cur _ hcur (hts.trans ht) (hmoved.engine.2.trans he))

/-- The target speed is the same to the part with the reference speed moved. -/
theorem RefMoved.target {c : Chip} (k : RefMoved g s c) (h : Playing g) (hc : s.chip.eng.cur = some g) {g' : Seg}
    (hg : SameSeg g g') : limitTarget c (unlimitedTarget c g') = targetSpeed s.chip := by
  obtain ⟨b, tm, rfl⟩ := hg
  obtain ⟨htrk, hgnt, -, hset, -⟩ := k.rest
  have hplay : Playing { g with clipped := b, timer := tm } := ⟨h.kind, h.phase⟩
  rw [targetSpeed_cur hc, limitTarget_eq hgnt htrk hset, unlimitedTarget_playing h, unlimitedTarget_playing hplay,
    playTarget_eq (c := c) (g := { g with clipped := b, timer := tm }) (g' := g) hgnt rfl rfl]
  by_cases hp : g.phase = .pinchOut
  · simp only [hp, if_true, k.engine.1, movedRef]
  · simp only [hp, if_false]

/-- The update that brings a PLAY nothing but the moved reference speed: past LEAD_IN, or short of the target in it. -/
theorem exec_playUpdate_goesOn (hm : s.chip.mode ≠ .bypass) (ht : s.chip.sup.ts = .moving) (he : s.chip.eng.est = .running)
    (hc : s.chip.eng.cur = some g) (h : Playing g) (hz : targetSpeed s.chip ≠ 0)
    (hs : g.phase = .leadIn → movedRef g s.chip ≠ targetSpeed s.chip) :
    ∃ g' c, SameSeg g g' ∧ c.eng.cur = some g' ∧ RefMoved g s c ∧ exec .referenceSpeedUpdate s = .next (s.ends c) := by
  obtain ⟨g', m, c, hg, hcur, hmoved, hx⟩ := exec_playUpdate hm ht he hc h
  have htarget := hmoved.target h hc hg
  have hfall : fallenToZero c g' = false := fallenToZero_moving (htarget ▸ hz)
  refine ⟨g', c, hg, hcur, hmoved, ?_⟩
  obtain ⟨b, tm, rfl⟩ := hg
  have hjudge : judgeSpeed m c { g with clipped := b, timer := tm } = (c, .goes) := by
    by_cases hp : g.phase = .leadIn
    · rw [judgeSpeed_leadIn m (by exact hp) hfall (hmoved.state.1.trans ht), targetSpeed_cur hcur, htarget, hmoved.engine.1, if_neg (hs hp)]
    · exact judgeSpeed_past m ⟨h.kind, h.phase⟩ hp hfall
  rw [hx, hjudge, settle_goes, judge_still (by simp [hmoved.engine.2, he])]
  intro x hxc
  obtain rfl := Option.some.inj (hcur.symm.trans hxc)
  rcases h.phase with hp | hp | hp | hp <;> simp [hp]

/-- The end of a lead-in keeps the grants and the tracker, and leaves nothing to judge at rest. -/
theorem leadInEnds_frame (hc : c.eng.cur = some g) (ht : c.sup.ts = .moving) (he : c.eng.est = .running) :
    (settle (leadInEnds c)).gnt = c.gnt ∧ (settle (leadInEnds c)).trk = c.trk ∧
    judgeBrake (starvedAtRest (settle (leadInEnds c))) = settle (leadInEnds c) := by
  set c1 : Chip := if c.pins.fltCap then c else { c with drv := c.drv.capstanRun c.eng.ref } with hc1
  have hsame : c1.gnt = c.gnt ∧ c1.trk = c.trk := by
    rw [hc1]
    split <;> exact ⟨rfl, rfl⟩
  rw [leadInEnds_eq c g hc ht]
  dsimp only
  rw [← hc1]
  split
  · exact ⟨hsame.1, hsame.2, judge_still (by simp [he]) (by simp)⟩
  · obtain ⟨-, -, -, -, hgnt⟩ := stopMoving_sup .pinchFault c1
    refine ⟨hgnt.trans hsame.1, by simp [hsame.2], judge_still ?_ ?_⟩ <;> simp [stopMoving_eng, Engine.halted]

/-- The update that finds a PLAY in LEAD_IN at its target. -/
theorem exec_playUpdate_there (hm : s.chip.mode ≠ .bypass) (ht : s.chip.sup.ts = .moving) (he : s.chip.eng.est = .running)
    (hc : s.chip.eng.cur = some g) (h : Playing g) (hz : targetSpeed s.chip ≠ 0) (hp : g.phase = .leadIn)
    (hs : movedRef g s.chip = targetSpeed s.chip) :
    ∃ g' c, SameSeg g g' ∧ c.eng.cur = some g' ∧ RefMoved g s c ∧
      exec .referenceSpeedUpdate s = .next (s.ends (settle (leadInEnds c))) := by
  obtain ⟨g', m, c, hg, hcur, hmoved, hx⟩ := exec_playUpdate hm ht he hc h
  have htarget := hmoved.target h hc hg
  have hfall : fallenToZero c g' = false := fallenToZero_moving (htarget ▸ hz)
  have hts : c.sup.ts = .moving := hmoved.state.1.trans ht
  have hp' : g'.phase = .leadIn := by
    obtain ⟨b, tm, rfl⟩ := hg
    exact hp
  refine ⟨g', c, hg, hcur, hmoved, ?_⟩
  rw [hx, judgeSpeed_leadIn m hp' hfall hts, targetSpeed_cur hcur, htarget, hmoved.engine.1, if_pos hs,
    (leadInEnds_frame hcur hts (hmoved.engine.2.trans he)).2.2]

end Update

/-- At the target the capstan is ordered to RUN at it and the pinch in (R122). -/
theorem leadInEnds_pinches (hc : c.eng.cur = some g) (ht : c.sup.ts = .moving) (hp : c.drv.pinch = .out)
    (hf : c.pins.fltCap = false) : settle (leadInEnds c) = { c with
      drv := { c.drv.capstanRun c.eng.ref with pinch := .goingIn, pinchTime := c.set.gen.pinchTime, pinchSpent := 0 }
      eng := { c.eng with cur := some { g with phase := .pinchIn } } } := by
  have hok : (c.drv.capstanRun c.eng.ref).pinchInOk true = true := by simp [Drive.pinchInOk, Drive.capstanRun, hp]
  have hreq : (c.drv.capstanRun c.eng.ref).pinchInRequest true c.set.gen.pinchTime = { c.drv.capstanRun c.eng.ref with
      pinch := .goingIn, pinchTime := c.set.gen.pinchTime, pinchSpent := 0 } := if_pos ⟨hp, hok⟩
  rw [leadInEnds_eq c g hc ht]
  simp only [hf, Bool.false_eq_true, if_false, hok, if_true, hreq]

/-- With FLT_CAP and the capstan OFF there is no pinch-in: the PINCH_FAULT stop (R65, R123). -/
theorem leadInEnds_faults (hc : c.eng.cur = some g) (ht : c.sup.ts = .moving) (hp : c.drv.pinch = .out)
    (hf : c.pins.fltCap = true) (hr : c.drv.capRun = false) : settle (leadInEnds c) = stopMoving .pinchFault c := by
  have hno : c.drv.pinchInOk true = false := by simp [Drive.pinchInOk, hp, hr]
  rw [leadInEnds_eq c g hc ht]
  simp only [hf, if_true, hno, Bool.false_eq_true, if_false]

theorem done_haltHold (c : Chip) : (done c).eng.haltHold = c.eng.haltHold :=
  (congrArg (fun c : Chip => c.eng.haltHold) (done_plain c) :)

/-- The PINCH_FAULT stop of a PLAY whose pinch is IN, or turns out (R31, R45, R123). -/
theorem pinchFault_done (s : State) {d : Drive} : Halted .pinchFault s (s.ends (stopMoving .pinchFault { s.chip with drv := d })) ∧
    (d.pinch = .pinched → (s.ends (stopMoving .pinchFault { s.chip with drv := d })).chip.eng.haltHold = true ∧
      (s.ends (stopMoving .pinchFault { s.chip with drv := d })).chip.drv.pinch = .goingOut ∧
      (s.ends (stopMoving .pinchFault { s.chip with drv := d })).chip.drv.pinchTime = s.chip.set.gen.pinchTime) ∧
    (d.pinch = .goingOut → (s.ends (stopMoving .pinchFault { s.chip with drv := d })).chip.drv.pinch = .goingOut) := by
  refine ⟨halted_stopMoving .pinchFault rfl s _ rfl rfl rfl rfl, fun hp => ?_, fun hp => ?_⟩
  · simp [State.ends, done_haltHold, done_pinchTime, stopMoving_eng, stopMoving_drv, Drive.pinchOn, hp, Drive.pinchAway,
      Chip.pinchFull]
  · simp [State.ends, stopMoving_drv, Drive.pinchOn, hp, Drive.capstanOff, Drive.capstanStop]

/-- A movement in, told to the PLAY that asked for it and to no other segment. -/
theorem pinchedIn_told {s : State} (hup : s.chip.sup.up = true) (ht : s.chip.sup.ts = .moving)
    (hreq : s.chip.eng.moveReq = false) (hp : s.chip.drv.pinch = .goingIn)
    (hdue : s.chip.drv.pinchTime ≤ s.chip.drv.pinchSpent) :
    let d := s.chip.drv
    let inn : Drive := { d with pinch := .pinched, pinchSpent := 0, pinchTime := 0 }
    let full := s.chip.set.gen.pinchTime
    (∀ g, s.chip.eng.cur = some g → g.phase = .pinchIn → d.capRun = true →
      let ends (g' : Seg) (x : Drive) := s.ends { s.chip with drv := x, eng := { s.chip.eng with cur := some g' } }
      (SpeedsApart s.chip → ∃ t, exec .pinchMovementEnd s = .next t ∧ Halted .pinchFault s t ∧ t.chip.eng.haltHold = true ∧
        t.chip.drv.pinch = .goingOut ∧ t.chip.drv.pinchTime = full) ∧
      (¬ SpeedsApart s.chip → ¬ AtPositionEnd g s.chip → exec .pinchMovementEnd s = .next (ends { g with
        phase := .capstan
        timer := if g.record.positionEnd = false ∧ g.record.duration ≠ 0 then some 0 else g.timer } inn)) ∧
      (¬ SpeedsApart s.chip → AtPositionEnd g s.chip → exec .pinchMovementEnd s = .next (ends
        { g with phase := .pinchOut, endStatus := some g.doneStatus }
        { d with pinch := .goingOut, pinchSpent := 0, pinchTime := full, capOffHeld := true }))) ∧
    (∀ g, s.chip.eng.cur = some g → g.phase = .pinchIn → d.capRun = false →
      ∃ t, exec .pinchMovementEnd s = .next t ∧ Halted .pinchFault s t ∧ t.chip.drv.pinch = .goingOut) ∧
    ((∀ g, s.chip.eng.cur = some g → g.phase ≠ .pinchIn) →
      exec .pinchMovementEnd s = .next (s.ends { s.chip with drv :=
        if d.capRun then inn else { d with pinch := .goingOut, pinchSpent := 0, pinchTime := full } })) := by
  intro d inn full
  have hx := exec_pinchedIn hup ht hreq hp hdue
  dsimp only at hx
  refine ⟨fun g hc hg hr => ?_, fun g hc hg hr => ?_, fun ho => ?_⟩
  · have hin : pinchedIn s.chip.drv full = inn := if_pos hr
    rw [hx, if_pos hr, hin]
    refine ⟨fun ha => ⟨_, rfl, ?_⟩, fun ha hn => ?_, fun ha hn => ?_⟩
    · obtain ⟨hhalt, hpinch, -⟩ := pinchFault_done s (d := inn)
      rw [pinchInReport_fault (c := { s.chip with drv := inn }) hc hg ht ha]
      exact ⟨hhalt, hpinch rfl⟩
    · rw [pinchInReport_capstan (c := { s.chip with drv := inn }) hc hg ha hn]
    · rw [pinchInReport_ended (c := { s.chip with drv := inn }) hc hg ha hn rfl]
  · have hout : (pinchedIn s.chip.drv full).pinch = .goingOut := by simp [pinchedIn, show s.chip.drv.capRun = false from hr]
    obtain ⟨hhalt, -, hpinch⟩ := pinchFault_done s (d := pinchedIn s.chip.drv full)
    refine ⟨_, hx, ?_⟩
    rw [if_neg (by simp [show s.chip.drv.capRun = false from hr]),
      pinchTurnReport_fault (c := { s.chip with drv := pinchedIn s.chip.drv full }) hc hg ht]
    exact ⟨hhalt, hpinch hout⟩
  · rw [hx, pinchInReport_other (c := { s.chip with drv := pinchedIn s.chip.drv full }) ho,
      pinchTurnReport_other (c := { s.chip with drv := pinchedIn s.chip.drv full }) ho, ite_self]
    rfl

/-- A movement out, told to whatever waited for it. -/
theorem pinchedOut_told {s : State} (hup : s.chip.sup.up = true) (hreq : s.chip.eng.moveReq = false)
    (hp : s.chip.drv.pinch = .goingOut) (hdue : s.chip.drv.pinchTime ≤ s.chip.drv.pinchSpent) :
    let d := s.chip.drv
    let off : Drive :=
      { d with pinch := .out, pinchSpent := 0, pinchTime := 0, capRun := false, capSpeed := 0, capOffHeld := false }
    let hold := s.chip.eng.haltHold = true ∧ s.chip.sup.ts = .stopping
    (hold → exec .pinchMovementEnd s = .next (s.ends { s.chip with
      drv := off, eng := { s.chip.eng with haltHold := false } })) ∧
    (¬ hold → s.chip.sup.catchHold = true → exec .pinchMovementEnd s = .next (s.ends { s.chip with
      drv := off, sup := { s.chip.sup with catchHold := false } })) ∧
    (∀ g st, ¬ hold → s.chip.sup.catchHold = false → s.chip.eng.cur = some g → g.phase = .pinchOut →
      g.endStatus = some st → RunsOut g s.chip →
      ∃ t, exec .pinchMovementEnd s = .next t ∧ RanOut g st { s.chip with drv := pinchedOut d } t ∧ t.mem = s.mem) ∧
    (∀ g, ¬ hold → s.chip.sup.catchHold = false → s.chip.eng.cur = some g → g.phase = .release → g.loc = none →
      (g.kind = .wind ∨ (g.kind = .spool ∧ g.record.positionEnd = false ∧ g.record.duration = 0)) →
      s.chip.eng.ref ≠ 0 → s.chip.sup.ts = .moving →
      exec .pinchMovementEnd s = .next (s.ends { s.chip with
        drv := pinchedOut d, eng := { s.chip.eng with cur := some { g with phase := .run } } })) ∧
    (¬ hold → s.chip.sup.catchHold = false →
      (∀ g, s.chip.eng.cur = some g → g.phase ≠ .pinchOut ∧ g.phase ≠ .release) →
      exec .pinchMovementEnd s = .next (s.ends { s.chip with drv := pinchedOut d })) := by
  intro d off hold
  let x : Chip := { s.chip with drv := pinchedOut d }
  have hx : exec .pinchMovementEnd s = .next (s.ends (pinchOutReport x)) := exec_pinchedOut hup hreq hp hdue
  rw [hx]
  refine ⟨fun h => ?_, fun h hk => ?_, fun g st h hk hc hg hs hr => ⟨_, rfl, ?_, rfl⟩, fun g h hk hc hg hl hkind hr ht => ?_,
    fun h hk ho => ?_⟩
  · rw [pinchOutReport_halt (c := x) h, capstanStop_pinchedOut]
  · rw [pinchOutReport_catch (c := x) h hk, capstanStop_pinchedOut]
  · rw [pinchOutReport_ends (c := x) h hk hc hg hs]
    exact ends_runsOut g st x s hc hr
  · rw [pinchOutReport_release (c := x) h hk hc hg, settle_begin_run (c := x) hc hl hr hkind,
      State.ends, done_markClipped _ (by exact hup)]
    rfl
  · rw [pinchOutReport_other (c := x) h hk ho]

/-- Settles O25: the ends of a pinch movement by who waited for them, and the millisecond of a PLAY by its phase. -/
theorem playPhases : Obligations.PlayPhases := by
  refine ⟨fun s hup ht hreq hp hdue => pinchedIn_told hup ht hreq hp hdue,
    fun s hup hreq hp hdue => pinchedOut_told hup hreq hp hdue, ?_⟩
  intro g s hm hup ht he hreq hc hk hl hphase hz e' there
  have hplay : Playing g := ⟨hk, hphase⟩
  have hin (hp : g.phase ≠ .pinchOut) : movedRef g s.chip = e'.ref := if_neg hp
  by_cases hend : g.phase = .leadIn ∧ there
  · obtain ⟨hp, hth⟩ := hend
    have href : movedRef g s.chip = targetSpeed s.chip := (hin (by simp [hp])).trans hth
    obtain ⟨g', c, ⟨b, tm, rfl⟩, hcur, hmoved, hx⟩ := exec_playUpdate_there hm ht he hc hplay hz hp href
    obtain ⟨htrk, hgnt, hcue, hset, hpins⟩ := hmoved.rest
    have hts : c.sup.ts = .moving := hmoved.state.1.trans ht
    obtain ⟨hgnt', htrk', -⟩ := leadInEnds_frame hcur hts (hmoved.engine.2.trans he)
    refine ⟨_, hx, by rw [State.ends, done_gnt, hgnt', hgnt], by rw [State.ends, done_trk, htrk', htrk], rfl,
      fun _ _ hno => absurd hth hno, fun _ hpo _ hf => ?_, fun _ hpo _ hf hr => ?_, ?_, fun h => ?_⟩
    · rw [leadInEnds_pinches hcur hts (hmoved.pinch.trans hpo) (by rw [hpins, hf])]
      obtain ⟨b', hdone⟩ := done_cur ({ c with
        drv := { c.drv.capstanRun c.eng.ref with pinch := .goingIn, pinchTime := c.set.gen.pinchTime, pinchSpent := 0 }
        eng := { c.eng with cur := some { g with clipped := b, timer := tm, phase := .pinchIn } } }) _ rfl
      refine ⟨?_, ?_, ⟨_, hdone, rfl, rfl⟩, ?_⟩
      · rw [State.ends, done_ref]
        exact hmoved.engine.1.trans href
      · rw [State.ends, done_ts]
        exact hts
      · simp [State.ends, done_pinchTime, done_capstan, Drive.capstanRun, hmoved.engine.1, href, hset]
    · have hrun : c.drv.capRun = false := (hmoved.unsent (by simp [Sent, hp])).1.trans hr
      rw [leadInEnds_faults hcur hts (hmoved.pinch.trans hpo) (by rw [hpins, hf]) hrun]
      refine ⟨halted_stopMoving .pinchFault rfl s c hmoved.state.2 hgnt hcue hset, ?_⟩
      simp [State.ends, stopMoving_drv, Drive.pinchOn, hmoved.pinch, hpo, Drive.capstanOff, Drive.capstanStop]
    · rintro (h | h) <;> simp [hp] at h
    · simp [hp] at h
  · have hshort : g.phase = .leadIn → movedRef g s.chip ≠ targetSpeed s.chip := fun hp h =>
      hend ⟨hp, (hin (by simp [hp])).symm.trans h⟩
    obtain ⟨g', c, ⟨b, tm, rfl⟩, hcur, hmoved, hx⟩ := exec_playUpdate_goesOn hm ht he hc hplay hz hshort
    obtain ⟨htrk, hgnt, -, -, -⟩ := hmoved.rest
    obtain ⟨b', hdone⟩ := done_cur c _ hcur
    have hts : (s.ends c).chip.sup.ts = .moving := (done_ts c).trans (hmoved.state.1.trans ht)
    have href : (s.ends c).chip.eng.ref = movedRef g s.chip := (done_ref c).trans hmoved.engine.1
    refine ⟨_, hx, (done_gnt c).trans hgnt, (done_trk c).trans htrk, rfl, fun hp _ _ => ?_, fun hp _ hth => absurd ⟨hp, hth⟩ hend,
      fun hp _ hth => absurd ⟨hp, hth⟩ hend, fun hp => ?_, fun hp => ?_⟩
    · exact ⟨href.trans (hin (by simp [hp])), hts, ⟨_, hdone, hp⟩, (done_capRun c).trans (hmoved.unsent (by simp [Sent, hp])).1⟩
    · have hmove := hin (by rcases hp with h | h <;> simp [h])
      refine ⟨href.trans hmove, hts, ⟨_, hdone, rfl⟩, fun hne hf => ?_⟩
      obtain ⟨hrun, hspeed⟩ := hmoved.sent ⟨hp, hmove ▸ hne, hf⟩
      exact ⟨(done_capRun c).trans hrun, (done_capSpeed c).trans (hspeed.trans hmove)⟩
    · have hheld : movedRef g s.chip = s.chip.eng.ref := if_pos hp
      exact ⟨href.trans hheld, hts, ⟨_, hdone, hp⟩, (done_capSpeed c).trans (hmoved.unsent (by simp [Sent, hp])).2⟩

end Sys2Proof.Supervision

namespace Sys2Proof.Drives

open Sys2Proof Sys2Proof.Machine Sys2Proof.Laws Sys2Proof.TapePath Sys2Proof.Supervision

/-! ## The drive laws, kept by every step (R58, R59, R64) -/

/-- The part of `step_kept` that speaks of the stage. -/
theorem step_driveKept {s t : State} (h : step s = .next t) : DriveKept s.chip.drv t.chip.drv := (step_kept h).drive

/-- Settles O5: the brake law, the torques outside TORQUE and the pinch law are the three parts of `DriveKept`. -/
theorem stepKeepsDriveLaws : Obligations.StepKeepsDriveLaws :=
  ⟨fun _ _ hok h => (step_driveKept h).brakes hok, fun _ _ hok h => (step_driveKept h).torques hok,
    fun _ _ hok h => (step_driveKept h).pinch hok⟩

/-! ## The end of a pinch movement, judged by the stage (R63, R64) -/

/-- With the capstan OFF, or in a state that does not admit the pinch, a movement in turns into a full movement out (R64). -/
theorem pinchEnds_turns {d : Drive} (law : Bool) (full : Nat) (hp : d.pinch = .goingIn)
    (h : d.capRun = false ∨ law = false) :
    d.pinchEnds law full = { d with pinch := .goingOut, pinchSpent := 0, pinchTime := full } := by
  have hno : ¬ (d.capRun = true ∧ law = true) := by
    rintro ⟨hr, hl⟩
    simp [hr, hl] at h
  simp only [Drive.pinchEnds, hp, if_neg hno]

/-- A supervisor that has not started is told of no movement. -/
theorem pinchReport_down {c : Chip} (h : c.sup.up = false) (was : Pinch) : pinchReport was c = c := by
  simp only [pinchReport, h, Bool.false_eq_true, if_false]

/-- With no supervisor started a movement that has lasted its time ends by the stage's own state, and nothing is told. -/
theorem exec_pinchMovementEnd_stage {s : State} (hup : s.chip.sup.up = false) (hreq : s.chip.eng.moveReq = false)
    (hp : s.chip.drv.pinch = .goingIn ∨ s.chip.drv.pinch = .goingOut) (hdue : s.chip.drv.pinchTime ≤ s.chip.drv.pinchSpent) :
    exec .pinchMovementEnd s = .next (s.ends { s.chip with
      drv := s.chip.drv.pinchEnds s.chip.stageState.admitsPinch s.chip.set.gen.pinchTime }) := by
  have hd : s.chip.drv.pinchDue = true := by rcases hp with h | h <;> simp [Drive.pinchDue, h, hdue]
  simp only [exec, execPinchMovementEnd, State.onChip, pinchStep, settleMoves_idle hreq, hd, if_true]
  rw [pinchReport_down (c := onDrive _ s.chip) hup]
  rfl

/-- Settles O24: the stage's judgement of a movement in, by the capstan and the state, and of a movement out, by the held
capstan OFF. -/
theorem pinchMovementEnds : Obligations.PinchMovementEnds := by
  intro s hup hreq hdue d ends
  refine ⟨fun hp hr hs => ?_, fun hp hno => ?_, fun hp hh => ?_, fun hp hh => ?_⟩
  · have hin : pinchedIn d s.chip.set.gen.pinchTime = { d with pinch := .pinched, pinchSpent := 0, pinchTime := 0 } := if_pos hr
    rw [exec_pinchMovementEnd_stage hup hreq (.inl hp) hdue, hs, pinchEnds_in hp, hin]
  · rw [exec_pinchMovementEnd_stage hup hreq (.inl hp) hdue, pinchEnds_turns _ _ hp hno]
  · have hout : pinchedOut d = { d with pinch := .out, pinchSpent := 0, pinchTime := 0 } := if_neg (by simp [hh])
    rw [exec_pinchMovementEnd_stage hup hreq (.inr hp) hdue, pinchEnds_out hp, hout]
  · have hout : pinchedOut d = { d with
        pinch := .out, pinchSpent := 0, pinchTime := 0, capRun := false, capSpeed := 0, capOffHeld := false } := if_pos hh
    rw [exec_pinchMovementEnd_stage hup hreq (.inr hp) hdue, pinchEnds_out hp, hout]

end Sys2Proof.Drives

namespace Sys2Proof.Grants

open Sys2Proof Sys2Proof.Machine Sys2Proof.Laws Sys2Proof.TapePath

/-! ## The notices, the trim and the master queue, kept by every step (R89, R90, R156, R183) -/

/-- Settles O4: three of the parts of `Kept`, which every step leaves standing. -/
theorem stepKeepsNoticesTrimQueue : Obligations.StepKeepsNoticesTrimQueue :=
  ⟨fun _ _ hok h => (step_kept h).notices hok, fun _ _ hok h => (step_kept h).trim hok,
    fun _ _ hok h => (step_kept h).queue hok⟩

end Sys2Proof.Grants

namespace Sys2Proof.Grants

open Sys2Proof Sys2Proof.Machine Sys2Proof.Laws

variable {c : Chip} {g : Seg}

/-! ## The speed limits of the active grant (R87) -/

theorem speedLimit_none (h : c.gnt.active = none) (d : Dir) : speedLimit c d = 0 := by
  simp only [speedLimit, h]

theorem speedLimit_le_maxSpeed {a : Granted} (h : c.gnt.active = some a) (d : Dir) : speedLimit c d ≤ a.choice.maxSpeed := by
  simp only [speedLimit, h]
  split
  · exact Nat.min_le_left ..
  · exact Nat.le_refl _

theorem speedLimit_le_nearSpeed {d : Dir} (h₀ : (c.trk.reel (payingReel d)).radius ≠ 0)
    (h : (c.trk.reel (payingReel d)).radius ≤ c.grantProfile.hub + c.grantProfile.nearMargin) :
    speedLimit c d ≤ c.grantProfile.nearSpeed := by
  have hnear : nearCondition c d = true := decide_eq_true ⟨h₀, h⟩
  simp only [speedLimit, hnear, if_true]
  split
  · exact Nat.zero_le _
  · exact Nat.min_le_right ..

/-! ## The target speed within the limits (R118) -/

/-- A limited target lies between the limits of the two directions. -/
theorem limitTarget_range (c : Chip) (v : Int) :
    -(speedLimit c .reverse : Int) ≤ limitTarget c v ∧ limitTarget c v ≤ (speedLimit c .forward : Int) := by
  by_cases hp : 0 < v
  · have hd : dirOf v = some .forward := if_pos hp
    simp only [limitTarget, hd, clampInt]
    omega
  by_cases hn : v < 0
  · have hd : dirOf v = some .reverse := (if_neg hp).trans (if_pos hn)
    simp only [limitTarget, hd, clampInt]
    omega
  · have hd : dirOf v = none := (if_neg hp).trans (if_neg hn)
    simp only [limitTarget, hd]
    omega

theorem targetSpeed_none (hc : c.eng.cur = none) (he : c.eng.est ≠ .starved) : targetSpeed c = 0 := by
  simp only [targetSpeed, hc, if_neg he]

/-- Whatever is asked for, the target speed is a limited one. -/
theorem targetSpeed_limited (c : Chip) : ∃ v, targetSpeed c = limitTarget c v := by
  cases hc : c.eng.cur with
  | some g => exact ⟨_, Supervision.targetSpeed_cur hc⟩
  | none =>
    by_cases he : c.eng.est = .starved
    · exact ⟨c.eng.held, by simp only [targetSpeed, hc, if_pos he]⟩
    · exact ⟨0, targetSpeed_none hc he⟩

theorem targetSpeed_range (c : Chip) :
    -(speedLimit c .reverse : Int) ≤ targetSpeed c ∧ targetSpeed c ≤ (speedLimit c .forward : Int) := by
  obtain ⟨v, hv⟩ := targetSpeed_limited c
  exact hv ▸ limitTarget_range c v

/-- A segment that asks for no speed has the target 0. -/
theorem targetSpeed_unasked (hc : c.eng.cur = some g) (h : unlimitedTarget c g = 0) : targetSpeed c = 0 := by
  rw [Supervision.targetSpeed_cur hc, h]
  rfl

theorem unlimitedTarget_braking (c : Chip) (h : g.phase = .runout ∨ g.phase = .brake) : unlimitedTarget c g = 0 := by
  rcases h with h | h <;> simp only [unlimitedTarget, h]

theorem unlimitedTarget_resting (c : Chip) (hk : g.kind = .dwell ∨ g.kind = .stop) (ho : g.phase ≠ .pinchOut)
    (hc : g.phase ≠ .creep) : unlimitedTarget c g = 0 := by
  unfold unlimitedTarget
  rcases hk with hk | hk <;> rw [hk] <;> split <;> simp_all

/-! ## The play target (R124) -/

/-- The magnitude a PLAY asks for: its code's nominal speed, or for VARI its record's with the trim. -/
def playAsked (c : Chip) (r : Record) : Int :=
  if r.playCode? = some .vari then ((r.speed.natAbs : Int) * (10000 + c.gnt.trim)).tdiv 10000 else r.playSpeed

theorem playAsked_vari {r : Record} (h : r.playCode? = some .vari) :
    playAsked c r = ((r.speed.natAbs : Int) * (10000 + c.gnt.trim)).tdiv 10000 := if_pos h

theorem playAsked_nominal {r : Record} {code : PlayCode} {n : Nat} (h : r.playCode? = some code) (hn : code.nominal = some n) :
    playAsked c r = n := by
  have hv : r.playCode? ≠ some .vari := by
    rintro hv
    rw [Option.some.inj (h.symm.trans hv)] at hn
    exact nomatch hn
  rw [playAsked, if_neg hv]
  simp only [Record.playSpeed, h, hn, Option.getD_some]

/-- A magnitude in a direction. -/
def headed (d : Dir) (v : Int) : Int :=
  match d with
  | .forward => v
  | .reverse => -v

theorem playTarget_asked {d : Dir} (h : g.dir = some d) : playTarget c g = headed d (playAsked c g.record) := by
  have hv : (if g.record.playCode? = some .vari then ((g.record.playSpeed : Int) * (10000 + c.gnt.trim)).tdiv 10000
      else (g.record.playSpeed : Int)) = playAsked c g.record := by
    unfold playAsked
    split
    · next hc => simp only [Record.playSpeed, hc, PlayCode.nominal, Option.getD_none]
    · rfl
  cases d <;> simp only [playTarget, h, hv, headed]

/-- Settles O31: every target is a limited one, and the limits are those of the grant; the play target by its code. -/
theorem targetWithinGrant : Obligations.TargetWithinGrant := by
  refine ⟨?_, ?_⟩
  · intro c p near
    obtain ⟨hlo, hhi⟩ := targetSpeed_range c
    refine ⟨fun ha => ?_, fun a ha => ⟨?_, fun _ hn => ?_, fun _ hn => ?_⟩, targetSpeed_none, fun g hg =>
      ⟨fun hp => targetSpeed_unasked hg (unlimitedTarget_braking c hp),
        fun hk ho hc => targetSpeed_unasked hg (unlimitedTarget_resting c hk ho hc)⟩⟩
    · rw [speedLimit_none ha] at hlo hhi
      omega
    · have hf := speedLimit_le_maxSpeed ha .forward
      have hr := speedLimit_le_maxSpeed ha .reverse
      omega
    · have hs : speedLimit c .forward ≤ p.nearSpeed := speedLimit_le_nearSpeed (d := .forward) hn.1 hn.2
      omega
    · have hs : speedLimit c .reverse ≤ p.nearSpeed := speedLimit_le_nearSpeed (d := .reverse) hn.1 hn.2
      omega
  · intro c g d hd way
    have hway : playTarget c g = way (playAsked c g.record) := (playTarget_asked hd).trans (by cases d <;> rfl)
    exact ⟨fun h => hway.trans (congrArg way (playAsked_nominal h rfl)), fun h => hway.trans (congrArg way (playAsked_nominal h rfl)),
      fun h => hway.trans (congrArg way (playAsked_nominal h rfl)), fun h => hway.trans (congrArg way (playAsked_vari h))⟩

end Sys2Proof.Grants

namespace Sys2Proof.Grants

open Sys2Proof Sys2Proof.Machine Sys2Proof.Laws

/-! ## A host write to a register of the window (R155) -/

/-- The part with a host write to a window word newly at its port. -/
def written (off : Nat) (data : Word) (be : Enables) (c : Chip) : Chip := arrived (windowCycle off true data be c) c

/-- A ready write to a window word comes to what its region makes of it. -/
theorem hostWriteStep_ready {off : Nat} {s : State} (h : off < 0x10000) (h4 : off % 4 = 0) (hl : 0x100 ≤ off)
    (hw : WriteReady off s) (data : Word) (be : Enables) :
    s.onChip (hostWriteStep off data be) = s.ends (windowWrite off data be (written off data be s.chip)) := by
  obtain ⟨hm, hh, hd⟩ := hw
  rw [State.onChip, hostWriteStep_eq h h4 hl hm hh hd]
  rfl

theorem exec_trimWrite (data : Word) (be : Enables) {s : State} (h : WriteReady 0x10C s) :
    exec (.trimWrite data be) s = .next (s.ends (writeTrim data be (written 0x10C data be s.chip))) :=
  congrArg Host.Outcome.next (hostWriteStep_ready (by decide) (by decide) (by decide) h data be)

theorem exec_noticeMaskWrite (data : Word) (be : Enables) {s : State} (h : WriteReady 0x104 s) :
    exec (.noticeMaskWrite data be) s = .next (s.ends (writeMask data be (written 0x104 data be s.chip))) :=
  congrArg Host.Outcome.next (hostWriteStep_ready (by decide) (by decide) (by decide) h data be)

theorem exec_noticeClearWrite (data : Word) (be : Enables) {s : State} (h : WriteReady 0x108 s) :
    exec (.noticeClearWrite data be) s = .next (s.ends (writeClear data be (written 0x108 data be s.chip))) :=
  congrArg Host.Outcome.next (hostWriteStep_ready (by decide) (by decide) (by decide) h data be)

theorem exec_eventConsumedWrite (data : Word) (be : Enables) {s : State} (h : WriteReady 0x110 s) :
    exec (.eventConsumedWrite data be) s = .next (s.ends (writeConsumed data be (written 0x110 data be s.chip))) :=
  congrArg Host.Outcome.next (hostWriteStep_ready (by decide) (by decide) (by decide) h data be)

/-! ## TRIM_WRITE (R89) -/

theorem clampInt_cases (m : Nat) (v : Int) :
    clampInt m v = if v < -(m : Int) then -(m : Int) else if (m : Int) < v then (m : Int) else v := by
  simp only [clampInt]
  split
  · omega
  · split <;> omega

theorem posting_nil (c : Chip) : c.posting [] [] = c := by simp [Chip.posting]

/-- The trim written in a running part: clamped, with the clamp reported where it changes the value. -/
theorem writeTrim_running {c : Chip} (hm : c.mode = .running) (data : Word) (be : Enables) :
    let want := (merge be data (wordOfInt c.gnt.trim)).toInt
    let new := clampInt c.gnt.variRange want
    writeTrim data be c = (release (wordOfInt new) 0xF { c with gnt := { c.gnt with trim := new } }).posting
      (if new = want then [] else [c.event .trimClamped 1 0 want]) (if new = want then [] else [.trimClamped]) := by
  intro want new
  have hr : (release (wordOfInt new) 0xF { c with gnt := { c.gnt with trim := new } }).mode = .running := hm
  by_cases h : new = want
  · rw [if_pos h, if_pos h]
    exact (if_pos h).trans (posting_nil _).symm
  · rw [if_neg h, if_neg h]
    refine (if_neg h).trans ?_
    rw [postEvent_running (by exact hr), postNotice_running (by exact hr)]
    rfl

/-! ## EVENT_CONSUMED_WRITE (R181) -/

/-- Outside an overrun there is no marker to append. -/
theorem overrunMarker_normal {c : Chip} (h : c.evt.overrun = false) : overrunMarker c = c :=
  if_neg fun ⟨ho, _⟩ => Bool.false_ne_true (h.symm.trans ho)

/-- Settles O49: each register's write as its region takes it. -/
theorem windowRegistersWritten : Obligations.WindowRegistersWritten := by
  refine ⟨?_, fun data be s => ⟨?_, ?_⟩, ?_⟩
  · intro data be s hw want range new
    have hnew : clampInt s.chip.gnt.variRange want = new := clampInt_cases _ _
    rw [exec_trimWrite data be hw, writeTrim_running (c := written 0x10C data be s.chip) hw.1]
    simp only [← hnew]
    rfl
  · exact fun hw => exec_noticeMaskWrite data be hw
  · exact fun hw => exec_noticeClearWrite data be hw
  · intro data be s hw ho old cand v
    rw [exec_eventConsumedWrite data be hw, writeConsumed, overrunMarker_normal (by exact ho)]
    rfl

end Sys2Proof.Grants

namespace Sys2Proof.Grants

open Sys2Proof Sys2Proof.Machine Sys2Proof.Laws Sys2Proof.TapePath Sys2Proof.Supervision

variable {c : Chip}

/-! ## The checks of a choice (R78) -/

/-- A choice that names no valid entry, or holds a value of no meaning. -/
def Invalid (c : Chip) (ch : Choice) : Prop :=
  7 < ch.profile ∨ (c.set.prof ch.profile).valid = false ∨ ¬ (ch.accel = 0 ∨ (100 ≤ ch.accel ∧ ch.accel ≤ 30000)) ∨
    15 < ch.codes.toNat

/-- A choice of another profile than the threaded one. -/
def Mismatched (c : Chip) (ch : Choice) : Prop := ∀ i : Fin 8, c.gnt.threaded = some i → i.val ≠ ch.profile

theorem checkChoice_invalid {ch : Choice} (h : Invalid c ch) : checkChoice c ch = .invalid := if_pos h

section Valid

variable {ch : Choice} (hv : ¬ Invalid c ch)

include hv

theorem checkChoice_mismatch (h : Mismatched c ch) : checkChoice c ch = .mismatch := by
  refine (if_neg hv).trans (if_pos ?_)
  rw [ne_eq, Option.map_eq_some_iff]
  exact fun ⟨i, hi, hp⟩ => h i hi hp

variable (hm : ¬ Mismatched c ch)

include hm

/-- A valid choice of the threaded profile is judged by the profile's limits. -/
theorem checkChoice_threaded : checkChoice c ch =
    if (c.set.prof ch.profile).maxSpeed < ch.maxSpeed ∨ (c.set.prof ch.profile).maxAccel < ch.accel ∨ 2000 < ch.vari then .exceeds
    else .passed := by
  refine (if_neg hv).trans (if_neg ?_)
  obtain ⟨i, hi, hp⟩ : ∃ i : Fin 8, c.gnt.threaded = some i ∧ i.val = ch.profile := by
    simpa [Mismatched] using hm
  simp [hi, hp]

end Valid

/-- Choice `k` of a request as it is granted, where it passes (R79). -/
def passedAt (c : Chip) (chs : List Choice) (k : Nat) : Option Granted :=
  match chs[k]? with
  | some ch => if checkChoice c ch = .passed then some ⟨recordChoice c ch, k⟩ else none
  | none => none

theorem passedChoices_eq (c : Chip) (chs : List Choice) :
    passedChoices c chs = (List.range chs.length).filterMap (passedAt c chs) := rfl

theorem passedAt_eq_some {chs : List Choice} {k : Nat} {g : Granted} : passedAt c chs k = some g ↔
    k = g.position ∧ ∃ ch, chs[k]? = some ch ∧ checkChoice c ch = .passed ∧ recordChoice c ch = g.choice := by
  unfold passedAt
  cases chs[k]? with
  | none => simp
  | some ch =>
    obtain ⟨choice, position⟩ := g
    by_cases h : checkChoice c ch = .passed <;> simp [h, and_comm]

theorem passedChoices_ascend (c : Chip) (chs : List Choice) :
    (passedChoices c chs).Pairwise (fun a b => a.position < b.position) := by
  rw [passedChoices_eq, List.pairwise_filterMap]
  refine List.pairwise_lt_range.imp fun {i j} hlt a ha b hb => ?_
  obtain ⟨hi, -⟩ := passedAt_eq_some.1 ha
  obtain ⟨hj, -⟩ := passedAt_eq_some.1 hb
  omega

theorem mem_passedChoices {chs : List Choice} {g : Granted} : g ∈ passedChoices c chs ↔
    ∃ ch, chs[g.position]? = some ch ∧ checkChoice c ch = .passed ∧ recordChoice c ch = g.choice := by
  rw [passedChoices_eq, List.mem_filterMap]
  constructor
  · rintro ⟨k, -, hk⟩
    obtain ⟨rfl, h⟩ := passedAt_eq_some.1 hk
    exact h
  · rintro ⟨ch, hch, h⟩
    obtain ⟨hlt, -⟩ := List.getElem?_eq_some_iff.1 hch
    exact ⟨g.position, List.mem_range.2 hlt, passedAt_eq_some.2 ⟨rfl, ch, hch, h⟩⟩

theorem recordChoice_eq (c : Chip) (ch : Choice) : recordChoice c ch =
    { ch with accel := if ch.accel = 0 then (c.set.prof ch.profile).maxAccel else ch.accel } := by
  unfold recordChoice
  split <;> rfl

theorem code_le (o : ChoiceOutcome) : o.code ≤ 3 := by cases o <;> decide

/-- Four outcomes of two bits each, the first lowest (R187). -/
theorem outcomesByte_toNat (os : List ChoiceOutcome) : (outcomesByte os).toNat =
    (os.getD 0 .invalid).code + 4 * (os.getD 1 .invalid).code + 16 * (os.getD 2 .invalid).code + 64 * (os.getD 3 .invalid).code := by
  have h₀ := code_le (os.getD 0 .invalid)
  have h₁ := code_le (os.getD 1 .invalid)
  have h₂ := code_le (os.getD 2 .invalid)
  have h₃ := code_le (os.getD 3 .invalid)
  rw [outcomesByte, BitVec.toNat_ofNat]
  dsimp only
  omega

/-- A command's step, where its command stands in RUN, with the end of a command. -/
theorem whenRun_ends {code : Byte} {f : Chip → Chip} {s : State} (h : inRun code s.chip = true) :
    s.onChip (whenRun code f) = s.ends (f s.chip) := by
  simp only [State.onChip, whenRun, h, if_true]
  rfl

/-! ## REQUEST_GRANT by transport state (R78, R79, R80) -/

theorem exec_requestGrant {s : State} (h : inRun cmdRequestGrant s.chip = true) :
    exec .requestGrant s = .next (s.ends (requestGrantStep s.chip)) := congrArg Host.Outcome.next (whenRun_ends h)

theorem requestGrantStep_busy (h : c.sup.ts = .moving ∨ c.sup.ts = .stopping ∨ c.sup.ts = .catching ∨ c.sup.ts = .slacking) :
    requestGrantStep c = reply .busy detailNone c := by
  rcases h with h | h | h | h <;> simp only [requestGrantStep, h]

theorem requestGrantStep_unthreaded (h : c.sup.ts = .unthreaded ∨ c.sup.ts = .tripped) :
    requestGrantStep c = reply .refused detailNotThreaded c := by
  rcases h with h | h <;> simp only [requestGrantStep, h]

/-- A request deferred with none pending is stored (R80). -/
theorem requestGrantStep_deferred (h : c.sup.ts = .threaded ∨ c.sup.ts = .tensioning) (hq : c.gnt.request = none) :
    requestGrantStep c = { c with
      mbx := c.replied .deferred 0, gnt := { c.gnt with request := some (choicesOf c.mbx.data) } } := by
  have hstep : requestGrantStep c = deferRequest c := by rcases h with h | h <;> simp only [requestGrantStep, h]
  rw [hstep, deferRequest, cancelPending_none _ hq]
  rfl

section Held

variable (h : c.sup.ts = .held)

include h

/-- With no choice passing, the outcomes alone are answered (R79). -/
theorem requestGrantStep_refused (hp : passedChoices c (choicesOf c.mbx.data) = []) :
    requestGrantStep c = reply .refused (requestOutcomes (choicesOf c.mbx.data) c) c := by
  simp only [requestGrantStep, h, evaluateNow, hp]

/-- The first choice that passes is granted, the later ones as its fallbacks (R79). -/
theorem requestGrantStep_granted {g : Granted} {rest : List Granted} (hp : passedChoices c (choicesOf c.mbx.data) = g :: rest) :
    requestGrantStep c = setGrant (some g) rest (reply .granted (requestOutcomes (choicesOf c.mbx.data) c) c) := by
  have hpassed : passedChoices (reply .granted (requestOutcomes (choicesOf c.mbx.data) c) c) (choicesOf c.mbx.data) = g :: rest :=
    hp ▸ congrFun (passedChoices_congr rfl rfl) _
  simp only [requestGrantStep, h, evaluateNow, hp, evaluateRequest, hpassed]

end Held

/-! ## DROP_GRANT by transport state (R83) -/

theorem exec_dropGrant {s : State} (h : inRun cmdDropGrant s.chip = true) :
    exec .dropGrant s = .next (s.ends (dropGrantStep s.chip)) := congrArg Host.Outcome.next (whenRun_ends h)

theorem dropGrantStep_busy (h : c.sup.ts = .moving ∨ c.sup.ts = .stopping) : dropGrantStep c = reply .busy detailNone c := by
  rcases h with h | h <;> simp only [dropGrantStep, h]

theorem dropGrantStep_held (h : c.sup.ts = .held) : dropGrantStep c =
    dropActive droppedCommand (returnPlan (reply .done (if c.gnt.active = none then 1 else 0) c)) := by
  have hd : (if c.gnt.active.isSome then detailNone else detailNothing) = if c.gnt.active = none then 1 else 0 := by
    cases c.gnt.active <;> rfl
  simp only [dropGrantStep, h, hd]

theorem dropGrantStep_pending (h : c.sup.ts = .threaded ∨ c.sup.ts = .tensioning) {chs : List Choice}
    (hq : c.gnt.request = some chs) : dropGrantStep c = cancelPending droppedCommand (reply .done detailNone c) := by
  have hs : c.gnt.request.isSome = true := by rw [hq]; rfl
  rcases h with h | h <;> simp only [dropGrantStep, h, hs, if_true]

theorem dropGrantStep_nothing (h : (c.sup.ts = .threaded ∨ c.sup.ts = .tensioning) ∧ c.gnt.request = none ∨ c.sup.ts = .unthreaded ∨
    c.sup.ts = .slacking ∨ c.sup.ts = .tripped ∨ c.sup.ts = .catching) : dropGrantStep c = reply .done detailNothing c := by
  rcases h with ⟨h | h, hq⟩ | h | h | h | h <;> simp [dropGrantStep, *]

/-- After a drop there is no range left for a trim (R89, R90). -/
theorem dropActive_trim (v : Int) (h : -(c.gnt.variRange : Int) ≤ c.gnt.trim ∧ c.gnt.trim ≤ (c.gnt.variRange : Int)) :
    (dropActive v c).gnt.trim = 0 := by
  obtain ⟨hlo, hhi⟩ := (kept_dropActive v (.refl c)).trim h
  obtain ⟨hnone, -⟩ := dropActive_gnt v c
  have hrange : (dropActive v c).gnt.variRange = 0 := by simp only [GrantUnit.variRange, hnone]
  rw [hrange] at hlo hhi
  omega

/-- Settles O55: both commands by transport state, the checks of a choice, the choices that pass, and the outcomes' byte. -/
theorem grantCommandsTaken : Obligations.GrantCommandsTaken := by
  refine ⟨?_, ?_, ?_, fun c chs => ⟨passedChoices_ascend c chs, fun g => ?_⟩, ?_⟩
  · intro s hr ts chs answers
    rw [exec_requestGrant hr]
    refine ⟨fun h => ?_, fun h => ?_, fun h hq => ?_, fun h hp => ?_, fun g rest h hp => ⟨_, rfl, ?_⟩⟩
    · rw [requestGrantStep_busy h]
      rfl
    · rw [requestGrantStep_unthreaded h]
      rfl
    · rw [requestGrantStep_deferred h hq]
    · rw [requestGrantStep_refused h hp]
      rfl
    · rw [requestGrantStep_granted h hp]
      obtain ⟨v, w, hgnt⟩ := setGrant_gnt (some g) rest (reply .granted (requestOutcomes (choicesOf s.chip.mbx.data) s.chip) s.chip)
      have hmbx : (reply .granted (requestOutcomes (choicesOf s.chip.mbx.data) s.chip) s.chip).mbx =
          s.chip.replied .granted (outcomesByte ((choicesOf s.chip.mbx.data).map (checkChoice s.chip))) := rfl
      have hts : s.chip.sup.ts = .held := h
      simp [State.ends, hgnt, hmbx, hts, chs]
  · intro s hr ts
    rw [exec_dropGrant hr]
    refine ⟨fun h => ?_, fun h ht => ⟨_, rfl, ?_⟩, fun q h hm hq => ?_, fun h => ?_⟩
    · rw [dropGrantStep_busy h]
      rfl
    · rw [dropGrantStep_held h]
      generalize hd : returnPlan (reply .done (if s.chip.gnt.active = none then 1 else 0) s.chip) = d
      have hgnt : d.gnt = s.chip.gnt := by simp [← hd]
      have hmbx : d.mbx = s.chip.replied .done (if s.chip.gnt.active = none then 1 else 0) := by
        simp only [← hd, Laws.returnPlan_frame]
        rfl
      have hrest : d.sup = s.chip.sup ∧ d.trk = s.chip.trk ∧ d.cue = s.chip.cue := by simp [← hd]
      have hrings : d.pln.urgent.queued = 0 ∧ d.pln.main.queued = 0 := hd ▸ flushBoth_queued _ _
      obtain ⟨hactive, hfallback, -⟩ := dropActive_gnt droppedCommand d
      have htrim : (dropActive droppedCommand d).gnt.trim = 0 := dropActive_trim _ (by rw [hgnt]; exact ht)
      rw [hgnt] at hfallback
      obtain ⟨hsup, htrk, hcue⟩ := hrest
      have hts : s.chip.sup.ts = .held := h
      simpa [State.ends, hactive, htrim, hrings, hmbx, hsup, htrk, hcue, hts] using hfallback
    · rw [dropGrantStep_pending h hq, cancelPending_running _ (by exact hm) (by exact hq)]
      rfl
    · rw [dropGrantStep_nothing h]
      rfl
  · intro c ch p invalid mismatch exceeds
    refine ⟨checkChoice_invalid, checkChoice_mismatch, fun hv hm he => ?_, fun hv hm he => ?_⟩
    · rw [checkChoice_threaded hv hm, if_pos he]
    · rw [checkChoice_threaded hv hm, if_neg he]
  · rw [mem_passedChoices]
    simp only [recordChoice_eq, eq_comm]
  · intro os _ code
    have hcode (k : Nat) : (os.getD k .invalid).code = code k := by
      rw [List.getD_eq_getElem?_getD]
      simp only [code]
      cases os[k]? with
      | none => rfl
      | some o => cases o <;> rfl
    rw [outcomesByte_toNat, hcode, hcode, hcode, hcode]

end Sys2Proof.Grants

namespace Sys2Proof.Grants

open Sys2Proof Sys2Proof.Machine Sys2Proof.Laws

/-! ## The image of the settings (12.4) -/

section Fields

variable {α : Type} {fs : List (Machine.Field α)}

/-- Fields that stand one behind another: each gives the bytes it spans. -/
theorem fieldByte_field (hs : fs.Pairwise fun f f' => f.pos + f.size ≤ f'.pos) {f : Machine.Field α} (hf : f ∈ fs) (x : α) {i : Nat}
    (hi : i < f.size) : fieldByte fs x (f.pos + i) = BitVec.ofNat 8 (f.get x / 256 ^ i) := by
  have hfind : fs.find? (fun f' => decide (f'.pos ≤ f.pos + i ∧ f.pos + i < f'.pos + f'.size)) = some f := by
    induction fs with
    | nil => exact absurd hf List.not_mem_nil
    | cons f₀ fs ih =>
      obtain ⟨hfirst, hrest⟩ := List.pairwise_cons.1 hs
      rcases List.mem_cons.1 hf with rfl | hf
      · exact List.find?_cons_of_pos (by simp [hi])
      · have hpast := hfirst f hf
        rw [List.find?_cons_of_neg (by simp; omega)]
        exact ih hrest hf
  simp only [fieldByte, hfind, Nat.add_sub_cancel_left]
  rfl

/-- A byte of no field is 0 (R186). -/
theorem fieldByte_gap {p : Nat} (h : ∀ f ∈ fs, p < f.pos ∨ f.pos + f.size ≤ p) (x : α) : fieldByte fs x p = 0 := by
  have hfind : fs.find? (fun f => decide (f.pos ≤ p ∧ p < f.pos + f.size)) = none := by
    refine List.find?_eq_none.2 fun f hf => ?_
    have hout := h f hf
    simp only [decide_eq_true_eq]
    omega
  simp only [fieldByte, hfind]

end Fields

theorem generalFields_apart : generalFields.Pairwise fun f f' => f.pos + f.size ≤ f'.pos := by
  simp [generalFields, ranged, unclamped]

theorem profileFields_apart : profileFields.Pairwise fun f f' => f.pos + f.size ≤ f'.pos := by
  simp [profileFields, ranged, unclamped]

/-- The bytes between and after the general settings' fields. -/
theorem generalFields_gap {p : Nat} (h : p = 15 ∨ p = 22 ∨ p = 23 ∨ 26 ≤ p) :
    ∀ f ∈ generalFields, p < f.pos ∨ f.pos + f.size ≤ p := by
  simp only [generalFields, ranged, unclamped, List.forall_mem_cons, List.not_mem_nil, false_implies, implies_true, and_true]
  omega

/-- The byte between a profile entry's fields. -/
theorem profileFields_gap : ∀ f ∈ profileFields, 41 < f.pos ∨ f.pos + f.size ≤ 41 := by
  simp [profileFields, ranged, unclamped]

section Image

variable {s : Store}

theorem image_generalByte (s : Store) {q : Nat} (hq : q < 64) : s.image.getD q 0 = fieldByte generalFields s.gen q := by
  rw [List.getD_eq_getElem?_getD, image_general s q hq, generalBytes_at _ _ hq, Option.getD_some]

variable (h : s.profs.length = 8)

include h

theorem image_profileByte {n i : Nat} {x : Profile} (hx : s.profs[n]? = some x) (hi : i < 48) :
    s.image.getD (64 + 48 * n + i) 0 = fieldByte profileFields x i := by
  rw [List.getD_eq_getElem?_getD, image_profile s h n i x hx hi, profileBytes_at _ _ hi, Option.getD_some]

theorem image_paddingByte {q : Nat} (h₁ : 448 ≤ q) (h₂ : q < 511) : s.image.getD q 0 = 0 := by
  rw [List.getD_eq_getElem?_getD, image_padding s h q h₁ h₂, Option.getD_some]

theorem image_length : s.image.length = 512 := by simp [Store.image, body_length s h]

theorem image_body : s.image.take 511 = s.body := by
  rw [Store.image, ← body_length s h, List.take_left]

theorem image_crc : s.image.getD 511 0 = crc8 (s.image.take 511) := by
  rw [image_body h, Store.image, List.getD_eq_getElem?_getD, ← body_length s h, List.getElem?_concat_length, Option.getD_some]

/-- A saved image passes the check of a load (R173, R178). -/
theorem image_passes : storePasses s.image = true := by
  rw [storePasses, image_crc h]
  exact beq_self_eq_true _

end Image

theorem imageWord_bytes (s : Store) (p : Nat) : s.imageWord p =
    wordOf (s.image.getD p 0) (s.image.getD (p + 1) 0) (s.image.getD (p + 2) 0) (s.image.getD (p + 3) 0) := by
  simp only [Store.imageWord, List.getD_eq_getElem?_getD, List.getElem?_drop, Nat.add_zero]

/-! ### Each field at its offset -/

/-- The bytes of the image from an offset on give a number, little-endian. -/
def Stands (s : Store) (base : Nat) (e : Nat × Nat × Nat) : Prop :=
  ∀ i, i < e.2.1 → s.image.getD (base + e.1 + i) 0 = BitVec.ofNat 8 (e.2.2 / 256 ^ i)

theorem stands_zero {s : Store} {base pos size : Nat} (h : ∀ i, i < size → s.image.getD (base + pos + i) 0 = 0) :
    Stands s base (pos, size, 0) := by
  intro i hi
  rw [h i hi, Nat.zero_div]
  rfl

/-- The fields of the general settings, and what lies between and behind them (12.4). -/
theorem general_stands {s : Store} (h : s.profs.length = 8) : ∀ e ∈ [(0, 2, s.gen.settle), (2, 2, s.gen.offDelay),
    (4, 2, s.gen.pinchTime), (6, 2, s.gen.breakTime), (8, 2, s.gen.excursion), (10, 2, s.gen.starve), (12, 2, s.gen.period),
    (14, 1, s.gen.stopMode.toNat), (15, 1, 0), (16, 4, s.gen.catchLimit), (20, 2, s.gen.brakeSafe), (22, 2, 0),
    (24, 2, s.gen.defaultMask.toNat), (26, 38, 0), (448, 63, 0)], Stands s 0 e := by
  have hfield : ∀ f ∈ generalFields, Stands s 0 (f.pos, f.size, f.get s.gen) := by
    intro f hf i hi
    have hlt : f.pos + f.size ≤ 64 := by
      revert f
      simp [generalFields, ranged, unclamped]
    dsimp only at hi ⊢
    rw [Nat.zero_add, image_generalByte s (by omega), fieldByte_field generalFields_apart hf _ hi]
  have hgap {pos size : Nat} (hp : ∀ i, i < size → pos + i = 15 ∨ pos + i = 22 ∨ pos + i = 23 ∨ 26 ≤ pos + i ∧ pos + i < 64) :
      Stands s 0 (pos, size, 0) := by
    refine stands_zero fun i hi => ?_
    have hpos := hp i hi
    rw [Nat.zero_add, image_generalByte s (by omega), fieldByte_gap (generalFields_gap (by omega))]
  simp only [generalFields, ranged, unclamped, List.forall_mem_cons, List.not_mem_nil, false_implies, implies_true, and_true] at hfield ⊢
  obtain ⟨h₁, h₂, h₃, h₄, h₅, h₆, h₇, h₈, h₉, h₁₀, h₁₁⟩ := hfield
  exact ⟨h₁, h₂, h₃, h₄, h₅, h₆, h₇, h₈, hgap (by omega), h₉, h₁₀, hgap (by omega), h₁₁, hgap (by omega),
    stands_zero fun i hi => image_paddingByte h (by omega) (by omega)⟩

/-- The fields of a profile's entry, and the byte between them (12.4). -/
theorem profile_stands {s : Store} (h : s.profs.length = 8) {n : Nat} {x : Profile} (hx : s.profs[n]? = some x) :
    ∀ e ∈ [(0, 8, x.label.toNat), (8, 1, x.valid.toNat), (9, 1, x.width), (10, 2, x.park), (12, 2, x.nominal), (14, 2, x.wind),
      (16, 2, x.maxTension), (18, 2, x.slack), (20, 2, x.low), (22, 2, x.high), (24, 2, x.overLevel), (26, 2, x.hub),
      (28, 2, x.full), (30, 2, x.nearMargin), (32, 3, x.nearSpeed), (35, 3, x.maxSpeed), (38, 3, x.lifterSpeed), (41, 1, 0),
      (42, 2, x.maxAccel), (44, 2, x.creepSpeed), (46, 2, x.creepDistance)], Stands s (64 + 48 * n) e := by
  have hfield : ∀ f ∈ profileFields, Stands s (64 + 48 * n) (f.pos, f.size, f.get x) := by
    intro f hf i hi
    have hlt : f.pos + f.size ≤ 48 := by
      revert f
      simp [profileFields, ranged, unclamped]
    dsimp only at hi ⊢
    rw [Nat.add_assoc, image_profileByte h hx (by omega), fieldByte_field profileFields_apart hf _ hi]
  have hgap : Stands s (64 + 48 * n) (41, 1, 0) := by
    refine stands_zero fun i hi => ?_
    obtain rfl : i = 0 := by omega
    rw [Nat.add_zero, image_profileByte h hx (by omega), fieldByte_gap profileFields_gap]
  simp only [profileFields, ranged, unclamped, List.forall_mem_cons, List.not_mem_nil, false_implies, implies_true, and_true] at hfield ⊢
  obtain ⟨h₁, h₂, h₃, h₄, h₅, h₆, h₇, h₈, h₉, h₁₀, h₁₁, h₁₂, h₁₃, h₁₄, h₁₅, h₁₆, h₁₇, hrest⟩ := hfield
  exact ⟨h₁, h₂, h₃, h₄, h₅, h₆, h₇, h₈, h₉, h₁₀, h₁₁, h₁₂, h₁₃, h₁₄, h₁₅, h₁₆, h₁₇, hgap, hrest⟩

/-! ### The image loaded (R178) -/

theorem image_generalBytes (s : Store) : s.image.take 64 = generalBytes s.gen := by
  rw [Store.image, Store.body, List.append_assoc, List.append_assoc, ← generalBytes_length s.gen, List.take_left]

theorem image_profileBytes {s : Store} (h : s.profs.length = 8) {n : Nat} {x : Profile} (hx : s.profs[n]? = some x) :
    (s.image.drop (64 + 48 * n)).take 48 = profileBytes x := by
  refine List.ext_getElem? fun i => ?_
  by_cases hi : i < 48
  · rw [List.getElem?_take, if_pos hi, List.getElem?_drop, image_profile s h n i x hx hi]
  · rw [List.getElem?_take, if_neg hi, List.getElem?_eq_none (by rw [profileBytes_length]; omega)]

/-- Settings that each load leaves as they are come back from their own image. -/
theorem load_image {s : Store} (h : s.profs.length = 8) (hg : loadFields generalFields (generalBytes s.gen) General.default = s.gen)
    (hp : ∀ x ∈ s.profs, loadFields profileFields (profileBytes x) Profile.default = x) : s.load s.image = s := by
  have hprofs : ((List.range 8).map fun n =>
      loadFields profileFields ((s.image.drop (64 + 48 * n)).take 48) Profile.default) = s.profs := by
    refine List.ext_getElem (by simp [h]) fun n _ hn => ?_
    rw [List.getElem_map, List.getElem_range, image_profileBytes h (List.getElem?_eq_getElem hn)]
    exact hp _ (List.getElem_mem hn)
  rw [Store.load, image_generalBytes, hg, hprofs]

end Sys2Proof.Grants

namespace Sys2Proof.Grants

open Sys2Proof Sys2Proof.Machine Sys2Proof.Laws Sys2Proof.TapePath Sys2Proof.Supervision

variable {c : Chip}

/-! ## SAVE_SETTINGS and RELOAD_SETTINGS at their dispatch (R175, R177) -/

theorem exec_saveSettings {s : State} (h : inRun cmdSaveSettings s.chip = true) :
    exec .saveSettings s = .next (s.ends (saveSettingsStep s.chip)) := congrArg Host.Outcome.next (whenRun_ends h)

theorem exec_reloadSettings {s : State} (h : inRun cmdReloadSettings s.chip = true) :
    exec .reloadSettings s = .next (s.ends (reloadSettingsStep s.chip)) := congrArg Host.Outcome.next (whenRun_ends h)

/-- The states that admit a save or a reload, both reels at rest (R175, R177). -/
def Calm (c : Chip) : Prop :=
  (c.sup.ts = .unthreaded ∨ c.sup.ts = .threaded ∨ c.sup.ts = .held ∨ c.sup.ts = .tripped) ∧ c.trk.reelsStopped = true

theorem admitsStore_iff : c.admitsStore = true ↔ Calm c := by
  simp [Chip.admitsStore, Calm, or_assoc]

/-- A save and a reload are judged alike: by settings open, and by the transport at rest. -/
theorem storeCommand_judged {s : State} {i : Instr} {run : Chip → Chip} (hx : exec i s = .next (s.ends (admitStore run s.chip)))
    (hs : s.chip.set.saving = false) (hr : s.chip.set.reloading = false) :
    (s.chip.set.isOpen = false → exec i s = .next (s.ends (reply .locked detailNone s.chip))) ∧
    (s.chip.set.isOpen = true → ¬ Calm s.chip → exec i s = .next (s.ends (reply .refused detailNotStopped s.chip))) ∧
    (s.chip.set.isOpen = true → Calm s.chip → exec i s = .next (s.ends (run s.chip))) := by
  rw [hx, ← admitsStore_iff]
  refine ⟨fun ho => ?_, fun ho ha => ?_, fun ho ha => ?_⟩ <;> simp [admitStore, *]

/-! ## SAVE_COMPLETE and the reads of a reload (R175, R177, R178) -/

theorem exec_saveComplete {s : State} (h : s.chip.set.saving = true) : exec .saveComplete s = .next (s.ends { s.chip with
    set := { s.chip.set with nv := s.chip.set.image, saving := false }, mbx := s.chip.replied .done 0 }) := by
  simp only [exec, execSaveComplete, State.onChip, saveCompleteStep, h, if_true]
  rfl

/-- The end of a reload that adopts nothing, the read made. -/
def reloadOver (c : Chip) (detail : Byte) : Chip :=
  { c with
    set := { c.set with reloading := false, reads := 0, coming := c.set.coming.tail }
    mbx := c.replied .refused detail }

section Read

variable (hr : c.set.reloading = true)

include hr

/-- A reload's read is judged by its check (R177). -/
theorem reloadReadStep_read : reloadReadStep c =
    if storePasses c.set.nextRead then
      if c.admitsStore then adoptSettings c.set.nextRead (onSet (·.readMade) c) else reloadOver c detailNotStopped
    else if c.set.reads + 1 < 3 then { c with set := { c.set with reads := c.set.reads + 1, coming := c.set.coming.tail } }
    else reloadOver c detailStoreBad := by
  refine (if_pos hr).trans ?_
  rfl

theorem reloadReadStep_again (hp : storePasses c.set.nextRead = false) (h : c.set.reads + 1 < 3) : reloadReadStep c =
    { c with set := { c.set with reads := c.set.reads + 1, coming := c.set.coming.tail } } := by
  rw [reloadReadStep_read hr, if_neg (by simp [hp]), if_pos h]

theorem reloadReadStep_bad (hp : storePasses c.set.nextRead = false) (h : 3 ≤ c.set.reads + 1) :
    reloadReadStep c = reloadOver c detailStoreBad := by
  rw [reloadReadStep_read hr, if_neg (by simp [hp]), if_neg (by omega)]

variable (hp : storePasses c.set.nextRead = true)

include hp

theorem reloadReadStep_moving (ha : c.admitsStore = false) : reloadReadStep c = reloadOver c detailNotStopped := by
  rw [reloadReadStep_read hr, if_pos hp, if_neg (by simp [ha])]

theorem reloadReadStep_adopts (ha : c.admitsStore = true) :
    reloadReadStep c = adoptSettings c.set.nextRead (onSet (·.readMade) c) := by
  rw [reloadReadStep_read hr, if_pos hp, if_pos ha]

end Read

/-! ## The settings adopted (R177) -/

/-- The store's posts change the queue and what waits alone. -/
theorem postWrites_settings (ws : List PartWrite) (c : Chip) : ∃ w q, postWrites .settings ws c =
    { c with set := { c.set with wait := w }, bus := { c.bus with queue := q } } := by
  induction ws generalizing c with
  | nil => exact ⟨c.set.wait, c.bus.queue, rfl⟩
  | cons x ws ih =>
    obtain ⟨w, q, h⟩ : ∃ w q, postWrite .settings x c =
        { c with set := { c.set with wait := w }, bus := { c.bus with queue := q } } := by
      unfold postWrite
      split
      · exact ⟨c.set.wait, _, rfl⟩
      · exact ⟨_, c.bus.queue, rfl⟩
    obtain ⟨w', q', h'⟩ := ih (postWrite .settings x c)
    have hcons : postWrites .settings (x :: ws) c = postWrites .settings ws (postWrite .settings x c) := rfl
    exact ⟨w', q', by rw [hcons, h', h]⟩

/-- The part with the settings of a read taken, the reload over, and its posts made. -/
def reloaded (bytes : List Byte) (w q : List PartWrite) (c : Chip) : Chip :=
  { c with
    set := { c.set.load bytes with reloading := false, reads := 0, coming := c.set.coming.tail, wait := w }
    bus := { c.bus with queue := q }
    mon := if (c.set.load bytes).gen.period = c.set.gen.period then c.mon else ⟨.disarmed, 0⟩ }

theorem adoptSettings_reloaded (bytes : List Byte) (c : Chip) : ∃ w q,
    adoptSettings bytes (onSet (·.readMade) c) = reply .done detailNone (recheck (reloaded bytes w q c)) := by
  let taken := onSet (·.load bytes) (endReload (onSet (·.readMade) c))
  obtain ⟨w, q, h⟩ := postWrites_settings taken.set.imageWrites taken
  refine ⟨w, q, congrArg (fun d => reply .done detailNone (recheck d)) ?_⟩
  rw [h]
  by_cases hperiod : (c.set.load bytes).gen.period = c.set.gen.period
  · refine (if_neg (not_not.2 hperiod)).trans ?_
    rw [reloaded, if_pos hperiod]
    rfl
  · refine (if_pos hperiod).trans ?_
    rw [reloaded, if_neg hperiod]
    rfl

/-! ## The re-check of the grant (R85) -/

theorem recheckGrant_frame (c : Chip) : (recheckGrant c).sup = c.sup ∧ (recheckGrant c).trk = c.trk ∧
    (recheckGrant c).set = c.set ∧ (recheckGrant c).mon = c.mon ∧ (recheckGrant c).mbx = c.mbx ∧ (recheckGrant c).pln = c.pln := by
  unfold recheckGrant
  dsimp only
  split
  · simp
  · split
    · split <;> simp
    · split <;> simp

theorem recheck_frame (c : Chip) : (recheck c).sup = c.sup ∧ (recheck c).trk = c.trk ∧ (recheck c).set = c.set ∧
    (recheck c).mon = c.mon ∧ (recheck c).mbx = c.mbx := by
  obtain ⟨h₁, h₂, h₃, h₄, h₅, -⟩ := recheckGrant_frame c
  unfold recheck
  split
  · simp
  · exact ⟨h₁, h₂, h₃, h₄, h₅⟩

theorem recheck_none (h : c.gnt.active = none) : recheck c = c := by
  simp [recheck, recheckDrops, recheckGrant, h]

/-- What a re-clamp posts of the trim (R90). -/
theorem reclampTrim_told (hm : c.mode = .running) :
    let d := reclampTrim c
    d.gnt.trim = clampInt c.gnt.variRange c.gnt.trim ∧
    d.evt.posted = c.evt.posted ++ (if d.gnt.trim = c.gnt.trim then [] else [c.event .trimClamped 2 0 c.gnt.trim]) ∧
    d.ntc = if d.gnt.trim = c.gnt.trim then c.ntc else c.ntc.post .trimClamped := by
  dsimp only
  by_cases h : clampInt c.gnt.variRange c.gnt.trim = c.gnt.trim
  · have hstays : reclampTrim c = c := if_pos h
    simp [hstays, h]
  · let clamped := postWrite .grant ⟨trimOffset, wordOfInt (clampInt c.gnt.variRange c.gnt.trim), allBytes⟩
      (onGnt (fun g => { g with trim := clampInt c.gnt.variRange c.gnt.trim }) c)
    have hmode : clamped.mode = .running := by simpa [clamped] using hm
    have htold : reclampTrim c = clamped.posting [clamped.event .trimClamped 2 0 c.gnt.trim] [.trimClamped] := by
      refine (if_neg h).trans ?_
      rw [postEvent_running hmode, postNotice_running (by exact hmode)]
      rfl
    have htrim : clamped.gnt.trim = clampInt c.gnt.variRange c.gnt.trim := (postWrite_grant _ _).2.2.1
    have hevent : clamped.event .trimClamped 2 0 c.gnt.trim = c.event .trimClamped 2 0 c.gnt.trim := by
      simp [clamped, Chip.event]
    have hposted : clamped.evt.posted = c.evt.posted := postWrite_posted ..
    have hntc : clamped.ntc = c.ntc := postWrite_ntc ..
    rw [htold, hevent]
    refine ⟨htrim, ?_, ?_⟩
    · rw [if_neg (by exact htrim ▸ h)]
      exact congrArg (· ++ _) hposted
    · rw [if_neg (by exact htrim ▸ h)]
      exact congrArg (NoticeUnit.post · .trimClamped) hntc

/-- What a change of the grant posts of the trim (R90). -/
theorem setGrant_told (hm : c.mode = .running) (a : Option Granted) (f : List Granted) :
    let d := setGrant a f c
    d.gnt.trim = clampInt (a.elim 0 (·.choice.vari)) c.gnt.trim ∧
    d.evt.posted = c.evt.posted ++ (if d.gnt.trim = c.gnt.trim then [] else [c.event .trimClamped 2 0 c.gnt.trim]) ∧
    d.ntc = if d.gnt.trim = c.gnt.trim then c.ntc else c.ntc.post .trimClamped := by
  have hrange : (onGnt (fun g => { g with active := a, fallback := f }) c).gnt.variRange = a.elim 0 (·.choice.vari) := by
    cases a <;> rfl
  rw [← hrange]
  exact reclampTrim_told hm

section Recheck

variable {a : Granted} (ha : c.gnt.active = some a)

include ha

/-- With nothing failing the re-check changes nothing. -/
theorem recheck_all (hk : recheckKeeps c a = true) (hf : c.gnt.fallback.filter (recheckKeeps c) = c.gnt.fallback) :
    recheck c = c := by
  simp [recheck, recheckDrops, recheckGrant, ha, hk, hf]

/-- Fallbacks that fail leave the list (R85). -/
theorem recheck_trims (hm : c.mode = .running) (hk : recheckKeeps c a = true)
    (hf : c.gnt.fallback.filter (recheckKeeps c) ≠ c.gnt.fallback) :
    recheck c = ({ c with gnt := { c.gnt with fallback := c.gnt.fallback.filter (recheckKeeps c) } } : Chip).posting
      [c.event .grantDerated 2 0 a.position] [] := by
  have hlen : (c.gnt.fallback.filter (recheckKeeps c)).length ≠ c.gnt.fallback.length := fun h =>
    hf (List.filter_sublist.eq_of_length h)
  have hstep : recheck c = onGnt (fun g => { g with fallback := c.gnt.fallback.filter (recheckKeeps c) })
      (postEvent .grantDerated 2 0 a.position c) := by
    simp only [recheck, recheckDrops, recheckGrant, ha, hk, Bool.not_true, Bool.false_and, Bool.false_eq_true, if_false, if_true,
      if_neg hlen]
  rw [hstep, postEvent_running hm]
  rfl

variable (hk : recheckKeeps c a = false)

include hk

/-- The first fallback that passes takes the place of an active choice that fails (R85). -/
theorem recheck_derates (hm : c.mode = .running) {g : Granted} {rest : List Granted}
    (hf : c.gnt.fallback.filter (recheckKeeps c) = g :: rest) :
    recheck c = setGrant (some g) rest (c.posting [c.event .grantDerated 2 0 g.position] [.grantChanged]) := by
  simp only [recheck, recheckDrops, recheckGrant, ha, hk, hf, List.isEmpty_cons, Bool.and_false, Bool.false_eq_true, if_false]
  rw [postEvent_running hm, postNotice_running (by exact hm)]
  rfl

/-- With no choice passing the plan is returned and the grant dropped (R85). -/
theorem recheck_none_passes (hm : c.mode = .running) (hf : c.gnt.fallback.filter (recheckKeeps c) = []) (hc : c.eng.cur = none) :
    recheck c = postNotice .grantChanged
      (setGrant none [] ((flushBoth .flushed c).posting [c.event .grantDropped 1 0 4] [])) := by
  have hplan : returnPlan c = flushBoth .flushed c := by simp only [returnPlan, endTaken, hc]
  have hactive : (flushBoth .flushed c).gnt.active = some a := by simpa using ha
  have hmode : (flushBoth .flushed c).mode = .running := by simpa using hm
  have hevent : (flushBoth .flushed c).event .grantDropped 1 0 4 = c.event .grantDropped 1 0 4 := by simp [Chip.event]
  simp only [recheck, recheckDrops, ha, hk, hf, Bool.not_false, List.isEmpty_nil, Bool.and_self, if_true, hplan, dropActive, hactive]
  rw [postEvent_running hmode, ← hevent]
  rfl

end Recheck

/-- The checks of a choice read the profile entries and the threaded index alone (R78). -/
theorem recheckKeeps_eq {d : Chip} (hs : d.set.profs = c.set.profs) (ht : d.gnt.threaded = c.gnt.threaded) :
    recheckKeeps d = fun g => checkChoice c g.choice == .passed := by
  funext g
  simp only [recheckKeeps, checkChoice, Store.prof, hs, ht]
  rfl

end Sys2Proof.Grants

namespace Sys2Proof.Grants

open Sys2Proof Sys2Proof.Machine Sys2Proof.Laws Sys2Proof.TapePath Sys2Proof.Supervision

/-! ## RELOAD_STORE_READ (R85, R177, R178) -/

theorem exec_reloadStoreRead (s : State) : exec .reloadStoreRead s = .next (s.ends (reloadReadStep s.chip)) := rfl

/-- A read that is taken: the settings loaded, and the grant re-checked against them (R177, R85). -/
theorem exec_reload_adopts {s : State} (hr : s.chip.set.reloading = true) (hp : storePasses s.chip.set.nextRead = true)
    (ha : s.chip.admitsStore = true) : ∃ w q, exec .reloadStoreRead s = .next (s.ends { recheck (reloaded s.chip.set.nextRead w q s.chip) with
    mbx := s.chip.replied .done 0 }) := by
  obtain ⟨w, q, h⟩ := adoptSettings_reloaded s.chip.set.nextRead s.chip
  refine ⟨w, q, ?_⟩
  have hmbx : (recheck (reloaded s.chip.set.nextRead w q s.chip)).mbx = s.chip.mbx := (recheck_frame _).2.2.2.2
  rw [exec_reloadStoreRead, reloadReadStep_adopts hr hp ha, h, reply_eq, Chip.replied, hmbx]
  rfl

/-- With no grant to re-check the loaded settings are the working settings, and DONE is answered (R177). -/
theorem settings_reloaded (s : State) (hr : s.chip.set.reloading = true) (hp : storePasses s.chip.set.nextRead = true)
    (ha : s.chip.admitsStore = true) (hg : s.chip.gnt.active = none) :
    let loaded := s.chip.set.load s.chip.set.nextRead
    ∃ t, exec .reloadStoreRead s = .next t ∧ t.chip.set.gen = loaded.gen ∧ t.chip.set.coming = s.chip.set.coming.tail ∧
      t.chip.set.profs = loaded.profs ∧ t.chip.set.reloading = false ∧ t.chip.set.nv = s.chip.set.nv ∧
      t.chip.set.isOpen = s.chip.set.isOpen ∧ t.chip.mbx = s.chip.replied .done 0 ∧
      t.chip.mon = (if loaded.gen.period = s.chip.set.gen.period then s.chip.mon else ⟨.disarmed, 0⟩) ∧
      t.chip.ntc = s.chip.ntc ∧ t.chip.trk = s.chip.trk ∧ t.chip.pln = s.chip.pln ∧ t.mem = s.mem := by
  obtain ⟨w, q, h⟩ := exec_reload_adopts hr hp ha
  refine ⟨_, h, ?_⟩
  rw [recheck_none (by exact hg)]
  simp [State.ends, reloaded, Store.load]

/-- What the re-check leaves of the grant, by the choices that pass against the loaded settings (R85). -/
structure Rechecked (a : Granted) (passes : Granted → Bool) (c t : Chip) : Prop where
  kept : passes a = true → c.gnt.fallback.filter passes = c.gnt.fallback →
    t.gnt = c.gnt ∧ t.evt = c.evt ∧ t.ntc = c.ntc ∧ t.pln = c.pln
  trimmed : passes a = true → c.gnt.fallback.filter passes ≠ c.gnt.fallback →
    t.gnt = { c.gnt with fallback := c.gnt.fallback.filter passes } ∧
    t.evt.posted = c.evt.posted ++ [c.event .grantDerated 2 0 a.position] ∧ t.ntc = c.ntc ∧ t.pln = c.pln
  derated : ∀ g rest, passes a = false → c.gnt.fallback.filter passes = g :: rest →
    t.gnt.active = some g ∧ t.gnt.fallback = rest ∧ t.gnt.trim = clampInt g.choice.vari c.gnt.trim ∧
    t.evt.posted = c.evt.posted ++ [c.event .grantDerated 2 0 g.position] ++
      (if t.gnt.trim = c.gnt.trim then [] else [c.event .trimClamped 2 0 c.gnt.trim]) ∧
    t.ntc = (if t.gnt.trim = c.gnt.trim then c.ntc.post .grantChanged else (c.ntc.post .grantChanged).post .trimClamped) ∧
    t.pln = c.pln
  dropped : passes a = false → c.gnt.fallback.filter passes = [] → c.eng.cur = none →
    t.gnt.active = none ∧ t.gnt.fallback = [] ∧ t.gnt.trim = 0 ∧ t.pln.urgent.queued = 0 ∧ t.pln.main.queued = 0 ∧
    t.evt.posted = c.evt.posted ++ [c.event .grantDropped 1 0 4] ++
      (if c.gnt.trim = 0 then [] else [c.event .trimClamped 2 0 c.gnt.trim]) ∧
    t.ntc = (if c.gnt.trim = 0 then c.ntc.post .grantChanged else (c.ntc.post .trimClamped).post .grantChanged)

theorem recheck_rechecked {c : Chip} {a : Granted} (hm : c.mode = .running) (ha : c.gnt.active = some a) :
    Rechecked a (recheckKeeps c) c (recheck c) where
  kept hk hf := by simp [recheck_all ha hk hf]
  trimmed hk hf := by
    rw [recheck_trims ha hm hk hf]
    exact ⟨rfl, rfl, rfl, rfl⟩
  derated g rest hk hf := by
    rw [recheck_derates ha hk hm hf]
    obtain ⟨v, w, hgnt⟩ := setGrant_gnt (some g) rest (c.posting [c.event .grantDerated 2 0 g.position] [.grantChanged])
    obtain ⟨htrim, hposted, hntc⟩ :=
      setGrant_told (c := c.posting [c.event .grantDerated 2 0 g.position] [.grantChanged]) hm (some g) rest
    exact ⟨by rw [hgnt], by rw [hgnt], htrim, hposted, hntc, by simp [Chip.posting]⟩
  dropped hk hf hc := by
    rw [recheck_none_passes ha hk hm hf hc]
    let d := (flushBoth .flushed c).posting [c.event .grantDropped 1 0 4] []
    have hmode : d.mode = .running := by simpa [d, Chip.posting] using hm
    obtain ⟨v, w, hgnt⟩ := setGrant_gnt none [] d
    obtain ⟨htrim, hposted, hntc⟩ := setGrant_told hmode none []
    have hzero : (setGrant none [] d).gnt.trim = 0 := htrim.trans (by simp only [clampInt, Option.elim]; omega)
    have hold : d.gnt.trim = c.gnt.trim := by simp [d, Chip.posting]
    have hevent : d.event .trimClamped 2 0 c.gnt.trim = c.event .trimClamped 2 0 c.gnt.trim := by simp [d, Chip.posting, Chip.event]
    have hwas : d.evt.posted = c.evt.posted ++ [c.event .grantDropped 1 0 4] ∧ d.ntc = c.ntc := by simp [d, Chip.posting]
    have hrings : d.pln.urgent.queued = 0 ∧ d.pln.main.queued = 0 := flushBoth_queued _ _
    simp only [hzero, hold, hevent, hwas, eq_comm (a := (0 : Int))] at hposted hntc
    have hrun : (setGrant none [] d).mode = .running := by simpa using hmode
    show (postNotice .grantChanged (setGrant none [] d)).gnt.active = none ∧ _
    rw [postNotice_running hrun]
    refine ⟨by rw [hgnt], by rw [hgnt], hzero, by simpa using hrings.1, by simpa using hrings.2, hposted, ?_⟩
    show (setGrant none [] d).ntc.post .grantChanged = _
    rw [hntc]
    split <;> rfl

/-- The end of the command leaves what the re-check left. -/
theorem Rechecked.ends {a : Granted} {passes : Granted → Bool} {c d t : Chip} (h : Rechecked a passes c d)
    (hg : t.gnt = d.gnt) (he : t.evt = d.evt) (hn : t.ntc = d.ntc) (hp : t.pln = d.pln) : Rechecked a passes c t := by
  obtain ⟨h₁, h₂, h₃, h₄⟩ := h
  constructor <;> rw [hg, he, hn, hp] <;> assumption

/-- Settles O59: the dispatch of a save and a reload, the save's end, a reload's reads, the re-check, and the image. -/
theorem storeCommandsTaken : Obligations.StoreCommandsTaken := by
  refine ⟨?_, ?_, ?_, ?_, ?_⟩
  · intro s hs hr calm answers
    exact ⟨fun h => storeCommand_judged (exec_saveSettings h) hs hr, fun h => storeCommand_judged (exec_reloadSettings h) hs hr⟩
  · exact fun s h => ⟨exec_saveComplete h, image_passes⟩
  · intro s hr bytes loaded ended
    refine ⟨fun hp h => ?_, fun hp h => ?_, fun hp h => ?_, settings_reloaded s hr⟩
    · rw [exec_reloadStoreRead, reloadReadStep_again hr hp h]
    · rw [exec_reloadStoreRead, reloadReadStep_bad hr hp h]
      rfl
    · rw [exec_reloadStoreRead, reloadReadStep_moving hr hp h]
      rfl
  · intro a s hm hr bytes hp hadmits hactive passes kept clamps trimmed
    obtain ⟨w, q, hx⟩ := exec_reload_adopts hr hp hadmits
    obtain ⟨hsup, htrk, hset, -, -⟩ := recheck_frame (reloaded bytes w q s.chip)
    have hpasses : recheckKeeps (reloaded bytes w q s.chip) = passes := recheckKeeps_eq rfl rfl
    have hcheck := (recheck_rechecked (c := reloaded bytes w q s.chip) hm hactive).ends
      (t := (s.ends { recheck (reloaded bytes w q s.chip) with mbx := s.chip.replied .done 0 }).chip)
      (done_gnt _) (done_evt _) (done_ntc _) (done_pln _)
    rw [hpasses] at hcheck
    obtain ⟨h₁, h₂, h₃, h₄⟩ := hcheck
    refine ⟨_, hx, ?_, done_mbx _, ?_, ?_, rfl, h₁, h₂, h₃, h₄⟩
    · exact (congrArg Store.profs (done_set _)).trans (congrArg Store.profs hset :)
    · exact (done_ts _).trans (congrArg Supervisor.ts hsup)
    · exact (done_trk _).trans htrk
  · intro s h holds g gOk ceiling ok
    refine ⟨image_length h, general_stands h, fun n x hx => profile_stands h hx, image_crc h, imageWord_bytes s, fun hg hok => ?_⟩
    refine load_image h (loadFields_general g _ hg) fun x hx => loadFields_profile x _ ?_
    rw [widthCeiling_eq]
    exact hok x hx

end Sys2Proof.Grants

namespace Sys2Proof.Rings

open Sys2Proof Sys2Proof.Machine Sys2Proof.Laws Sys2Proof.Grants

/-! ## A host write to a word of a slot (R94) -/

/-- A ready write to a word of a slot comes to what the intake makes of it. -/
theorem slotWrite_ready (id : RingId) {slot word : Nat} {s : State} (hs : slot < id.size) (hw : word < 8)
    (h : WriteReady (slotOffset id slot + 4 * word) s) (data : Word) (be : Enables) :
    s.onChip (hostWriteStep (slotOffset id slot + 4 * word) data be) =
      s.ends (writeSlot id slot word data be (written (slotOffset id slot + 4 * word) data be s.chip)) := by
  obtain ⟨hin, h4, hlow⟩ := slotOffset_range id hs hw
  rw [hostWriteStep_ready hin h4 hlow h, windowWrite, slotOf_slotOffset id hs hw]

/-- The same for the owner word. -/
theorem ownerWrite_ready (id : RingId) {slot : Nat} {s : State} (hs : slot < id.size) (h : WriteReady (slotOffset id slot) s)
    (data : Word) (be : Enables) : s.onChip (hostWriteStep (slotOffset id slot) data be) =
      s.ends (writeSlot id slot 0 data be (written (slotOffset id slot) data be s.chip)) :=
  slotWrite_ready id hs (word := 0) (by decide) h data be

section WriteSlot

variable {id : RingId} {slot word : Nat} {data : Word} {be : Enables} {c : Chip}

/-- A hand-off at the intake index: the write is held, and the record is to be fetched (R95). -/
theorem writeSlot_fetched (hv : ((c.pln.ring id).slot slot).view = .host) (hb : be.getLsbD 0 = true) (hd : data.getLsbD 7 = true)
    (hi : slot = (c.pln.ring id).intake) : writeSlot id slot 0 data be c =
      hostPhase .screening (onPln (fun p => { p with fetch := some ⟨id, slot, data, be, fetchWords be, [], false⟩ }) c) := by
  simp only [writeSlot, hv]
  exact (if_pos ⟨⟨trivial, hb⟩, hd⟩).trans (if_pos hi)

/-- A hand-off elsewhere is refused REF_ORDER (R96, R100). -/
theorem writeSlot_order (hv : ((c.pln.ring id).slot slot).view = .host) (hb : be.getLsbD 0 = true) (hd : data.getLsbD 7 = true)
    (hi : slot ≠ (c.pln.ring id).intake) : writeSlot id slot 0 data be c =
      release (withByte0 data 0x40) (be ||| 1) (postRefused id slot .order ((merge be data 0).toNat / 65536) c) := by
  simp only [writeSlot, hv]
  exact (if_pos ⟨⟨trivial, hb⟩, hd⟩).trans (if_neg hi)

/-- Any other write to a HOST slot passes (R94). -/
theorem writeSlot_passes (hv : ((c.pln.ring id).slot slot).view = .host)
    (h : word ≠ 0 ∨ be.getLsbD 0 = false ∨ data.getLsbD 7 = false) : writeSlot id slot word data be c = release data be c := by
  have hno : ¬ ((word = 0 ∧ be.getLsbD 0 = true) ∧ ownPart data = true) := by
    rintro ⟨⟨hw, hb⟩, hd⟩
    rcases h with h | h | h
    · exact h hw
    · exact Bool.false_ne_true (h.symm.trans hb)
    · exact Bool.false_ne_true (h.symm.trans hd)
  simp only [writeSlot, hv]
  rw [if_neg hno]

/-- The newest queued slot taken back (R102). -/
theorem writeSlot_recalled (hv : ((c.pln.ring id).slot slot).view = .queued) (hb : be.getLsbD 0 = true)
    (hd : data.getLsbD 7 = false) (hi : slot = (c.pln.ring id).before (c.pln.ring id).intake) :
    writeSlot id slot 0 data be c =
      release (withByte0 data 0x19) (be ||| 1) (onPln (fun p => p.withRing id (c.pln.ring id).recall) c) := by
  have hhost : (!ownPart data) = true := by rw [ownPart, hd]; rfl
  simp only [writeSlot, hv]
  exact if_pos ⟨⟨trivial, hb⟩, hhost, hi⟩

/-- A write to a slot the part owns, where it is no recall, is dropped (R103). -/
theorem writeSlot_dropped (h : ((c.pln.ring id).slot slot).view = .current ∨ ((c.pln.ring id).slot slot).view = .queued ∧
      ¬ (word = 0 ∧ be.getLsbD 0 = true ∧ data.getLsbD 7 = false ∧ slot = (c.pln.ring id).before (c.pln.ring id).intake)) :
    writeSlot id slot word data be c = dropWrite (postWriteDropped 1 (slotOffset id slot + 4 * word)
      (((c.pln.ring id).slot slot).record.getD Record.blank).tag c) := by
  obtain hv | ⟨hv, hno⟩ := h
  · simp only [writeSlot, hv]
  · have hno' : ¬ ((word = 0 ∧ be.getLsbD 0 = true) ∧ (!ownPart data) = true ∧
        slot = (c.pln.ring id).before (c.pln.ring id).intake) := by
      rintro ⟨⟨hw, hb⟩, hd, hi⟩
      exact hno ⟨hw, hb, by simpa [ownPart] using hd, hi⟩
    simp only [writeSlot, hv]
    rw [if_neg hno']

end WriteSlot

/-! ## Posts about a slot in a running part -/

theorem postRefused_running {c : Chip} (hm : c.mode = .running) (id : RingId) (slot : Nat) (code : RefCode) (tag : Nat) :
    postRefused id slot code tag c =
      c.posting [c.event .segmentRefused code.code tag (slotOffset id slot)] [.segmentRefused] := by
  rw [postRefused, postEvent_running hm, postNotice_running (by exact hm)]
  rfl

theorem postWriteDropped_running {c : Chip} (hm : c.mode = .running) (detail off tag : Nat) :
    postWriteDropped detail off tag c = c.posting [c.event .writeDropped detail tag off] [.writeDropped] := by
  rw [postWriteDropped, postEvent_running hm, postNotice_running (by exact hm)]
  rfl

/-- Settles O40: at the intake index the write is held for its fetch, elsewhere it is refused. -/
theorem handOffTaken : Obligations.HandOffTaken := by
  intro id slot data be s hwf off r hready hview
  simp only [Instr.wf, Bool.and_eq_true, decide_eq_true_eq] at hwf
  obtain ⟨⟨hslot, hb⟩, hd⟩ := hwf
  have hx : exec (.handOff id slot data be) s =
      .next (s.ends (writeSlot id slot.toNat 0 data be (written off data be s.chip))) :=
    congrArg Host.Outcome.next (ownerWrite_ready id hslot hready data be)
  refine ⟨fun hi => ?_, fun hi => ?_⟩
  · rw [hx, writeSlot_fetched (by exact hview) hb hd (by exact hi)]
    rfl
  · rw [hx, writeSlot_order (by exact hview) hb hd (by exact hi), postRefused_running (by exact hready.1)]
    rfl

end Sys2Proof.Rings

namespace Sys2Proof.Rings

open Sys2Proof Sys2Proof.Machine Sys2Proof.Laws Sys2Proof.Supervision Sys2Proof.Grants

/-! ## A flush (R107) -/

section Flush

variable {st : Status} {c : Chip}

theorem mem_queuedSlots_iff (r : Machine.Ring) (i : Nat) :
    i ∈ r.queuedSlots ↔ ∃ k, k < r.queued ∧ i = (r.take + k) % r.slots.length := by
  simp only [Ring.queuedSlots, List.mem_map, List.mem_range, eq_comm]

/-- What a flush makes of a ring: it is empty, its queued slots are HOST, and every other slot stands. -/
theorem flushed_slots (r : Machine.Ring) : r.flushed.slots.length = r.slots.length ∧
    (∀ i, (∃ k, k < r.queued ∧ i = (r.take + k) % r.slots.length) → (r.flushed.slot i).view = .host) ∧
    (∀ i, ¬ (∃ k, k < r.queued ∧ i = (r.take + k) % r.slots.length) → r.flushed.slot i = r.slot i) := by
  obtain ⟨-, -, -, hlen, hin, hout⟩ := ring_free r.queuedSlots r
  exact ⟨hlen, fun i hi => hin i ((mem_queuedSlots_iff r i).mpr hi), fun i hi => hout i (mt (mem_queuedSlots_iff r i).mp hi)⟩

/-- The returns a flush of a ring puts on the slot write list, oldest first. -/
def returns (id : RingId) (st : Status) (c : Chip) : List SlotWrite :=
  (List.range (c.pln.ring id).queued).map fun k =>
    .ret id (((c.pln.ring id).take + k) % (c.pln.ring id).slots.length) st c.trk.position c.clock

theorem flushRing_pln (id : RingId) (st : Status) (c : Chip) : (flushRing id st c).pln =
    { c.pln.withRing id (c.pln.ring id).flushed with list := c.pln.list ++ returns id st c } := by
  simp only [flushRing, onPln_pln, Ring.queuedSlots, List.map_map, returns, Function.comp_def]

theorem flushRing_ring (id other : RingId) (st : Status) (c : Chip) : (flushRing id st c).pln.ring other =
    if other = id then (c.pln.ring id).flushed else c.pln.ring other := by
  rw [flushRing_pln, withRing_list_ring, Function.update_apply]

/-- A flush of both rings empties each (R107). -/
theorem flushBoth_ring (id : RingId) (st : Status) (c : Chip) :
    (flushBoth st c).pln.ring id = (c.pln.ring id).flushed := by
  rw [flushBoth, flushRing_ring, flushRing_ring, flushRing_ring]
  cases id <;> simp

/-- The urgent ring's slots are returned first, then the main ring's (R107). -/
theorem flushBoth_returns (st : Status) (c : Chip) :
    (flushBoth st c).pln.list = c.pln.list ++ returns .urgent st c ++ returns .main st c := by
  have hmain : returns .main st (flushRing .urgent st c) = returns .main st c := by
    simp only [returns, flushRing_ring, flushRing_frame]
    rfl
  rw [flushBoth, flushRing_pln, hmain]
  exact congrArg (· ++ _) (congrArg Plan.list (flushRing_pln .urgent st c))

end Flush

/-! ## RECALL and writes to owned slots (R94, R102, R103) -/

theorem exec_recall (id : RingId) {slot : BitVec 6} {data : Word} {be : Enables} {s : State} (hs : slot.toNat < id.size)
    (h : WriteReady (slotOffset id slot.toNat) s) : exec (.recall id slot data be) s =
      .next (s.ends (writeSlot id slot.toNat 0 data be (written (slotOffset id slot.toNat) data be s.chip))) :=
  congrArg Host.Outcome.next (ownerWrite_ready id hs h data be)

theorem exec_slotOwnedWrite (id : RingId) {slot : BitVec 6} (word : BitVec 3) {data : Word} {be : Enables} {s : State}
    (hs : slot.toNat < id.size) (h : WriteReady (slotOffset id slot.toNat + 4 * word.toNat) s) :
    exec (.slotOwnedWrite id slot word data be) s = .next (s.ends (writeSlot id slot.toNat word.toNat data be
      (written (slotOffset id slot.toNat + 4 * word.toNat) data be s.chip))) :=
  congrArg Host.Outcome.next (slotWrite_ready id hs word.isLt h data be)

/-- The newest queued slot recalled, by its own number. -/
theorem recall_at {r : Machine.Ring} {i : Nat} (h : i = r.before r.intake) :
    r.recall = { r with slots := r.slots.set i ⟨.host, none⟩, intake := i, queued := r.queued - 1 } := by
  subst h
  rfl

/-- SLACK_DOWN in HELD with no segment current gives both rings back (R42). -/
theorem exec_slackDown_held {s : State} (h : inRun cmdSlackDown s.chip = true) (ht : s.chip.sup.ts = .held)
    (hc : s.chip.eng.cur = none) :
    ∃ t, exec .slackDown s = .next t ∧ t.chip.pln = (flushBoth .flushed s.chip).pln := by
  have hplan : returnPlan (reply .done detailNone s.chip) = flushBoth .flushed (reply .done detailNone s.chip) := by
    rw [returnPlan, endTaken]
    have hnone : (reply .done detailNone s.chip).eng.cur = none := hc
    rw [hnone]
  obtain ⟨-, -, -, hpln, -⟩ := slacking_done (returnPlan (reply .done detailNone s.chip))
  refine ⟨_, exec_slackDown h, ?_⟩
  rw [slackDownStep_held ht]
  refine hpln.trans ?_
  rw [hplan]
  rfl

/-- Settles O42: the recall, the writes to slots the part owns and to HOST slots, a flush, and SLACK_DOWN's. -/
theorem slotsReturned : Obligations.SlotsReturned := by
  refine ⟨?_, ?_, ?_, ?_⟩
  · intro id slot data be s hwf off r hready hview hnewest
    simp only [Instr.wf, Bool.and_eq_true, decide_eq_true_eq, Bool.not_eq_true'] at hwf
    obtain ⟨⟨hslot, hb⟩, hd⟩ := hwf
    rw [exec_recall id hslot hready, writeSlot_recalled (by exact hview) hb hd (by exact hnewest),
      ← recall_at (r := r) hnewest]
    rfl
  · intro id slot word data be s hwf off r x hready newest
    have hslot : slot.toNat < id.size := by simpa [Instr.wf] using hwf
    have hword : word.toNat = 0 ↔ word = 0 := by rw [← BitVec.toNat_inj]; rfl
    refine ⟨fun h => ?_, fun hview h => ?_⟩
    · rw [exec_slotOwnedWrite id word hslot hready, writeSlot_dropped (by rw [hword]; exact h),
        postWriteDropped_running (by exact hready.1)]
      rfl
    · rw [exec_slotOwnedWrite id word hslot hready, writeSlot_passes (by exact hview) (by rw [ne_eq, hword]; exact h)]
      rfl
  · intro id st c r f r'
    obtain ⟨hlen, hin, hout⟩ := flushed_slots r
    have hring : r' = r.flushed := (flushRing_ring id id st c).trans (if_pos rfl)
    rw [hring]
    refine ⟨congrArg Plan.list (flushRing_pln id st c), rfl, ?_, rfl, hlen, hin, hout, fun other ho => ?_, rfl, ?_⟩
    · exact (ring_free r.queuedSlots r).2.1
    · exact (flushRing_ring id other st c).trans (if_neg ho)
    · cases id <;> exact ⟨rfl, rfl, rfl⟩
  · intro s hrun hts hcur rets
    obtain ⟨t, hx, hpln⟩ := exec_slackDown_held hrun hts hcur
    refine ⟨t, hx, by rw [hpln]; exact flushBoth_returns .flushed s.chip, fun id => ?_⟩
    obtain ⟨-, hin, -⟩ := flushed_slots (s.chip.pln.ring id)
    rw [hpln, flushBoth_ring]
    exact ⟨rfl, rfl, (ring_free _ _).2.1, fun k hk => hin _ ⟨k, hk, rfl⟩⟩

end Sys2Proof.Rings

namespace Sys2Proof.Rings

open Sys2Proof Sys2Proof.Machine Sys2Proof.Laws

variable {c : Chip} {s : State}

/-! ## The lists and the posters at the queue (R105, R138, R156) -/

theorem arbitrate_busy (h : c.bus.port ≠ none) : arbitrate c = c := by
  unfold arbitrate
  split
  · rfl
  next hn => exact absurd hn h

theorem room_iff (b : Bus) (n : Nat) : b.room n = true ↔ b.queue.length + n ≤ 12 := decide_eq_true_iff

/-- An entry's writes join the queue whole. -/
theorem exec_slotPass {e : SlotWrite} {rest : List SlotWrite} (hp : s.chip.bus.port ≠ none) (hl : s.chip.pln.list = e :: rest)
    (hr : s.chip.bus.queue.length + e.writes.length ≤ 12) : exec .slotWriteListPass s = .next (s.withChip { s.chip with
      pln := { s.chip.pln with list := rest }
      bus := { s.chip.bus with queue := s.chip.bus.queue ++ e.writes } }) := by
  have hstep : slotPassStep s.chip = onBus (·.join e.writes) (onPln (fun p => { p with list := rest }) s.chip) := by
    simp only [slotPassStep, hl]
    exact if_pos ((room_iff _ _).mpr hr)
  have hx : exec .slotWriteListPass s = .next (s.withChip (arbitrate (slotPassStep s.chip))) := rfl
  rw [hx, hstep, arbitrate_busy (by exact hp)]
  rfl

theorem exec_slotPass_stays {e : SlotWrite} {rest : List SlotWrite} (hp : s.chip.bus.port ≠ none)
    (hl : s.chip.pln.list = e :: rest) (hr : 12 < s.chip.bus.queue.length + e.writes.length) :
    exec .slotWriteListPass s = .next s := by
  have hstep : slotPassStep s.chip = s.chip := by
    simp only [slotPassStep, hl]
    exact if_neg (mt (room_iff _ _).mp (by omega))
  have hx : exec .slotWriteListPass s = .next (s.withChip (arbitrate (slotPassStep s.chip))) := rfl
  rw [hx, hstep, arbitrate_busy hp]
  rfl

theorem exec_cuePass {g : List PartWrite} {rest : List (List PartWrite)} (hm : s.chip.mode = .running)
    (hp : s.chip.bus.port ≠ none) (hl : s.chip.cue.list = g :: rest) (hr : s.chip.bus.queue.length + g.length ≤ 12) :
    exec .cueWriteListPass s = .next (s.withChip { s.chip with
      cue := { s.chip.cue with list := rest }
      bus := { s.chip.bus with queue := s.chip.bus.queue ++ g } }) := by
  have hstep : cuePassStep s.chip = onBus (·.join g) { s.chip with cue := { s.chip.cue with list := rest } } := by
    simp only [cuePassStep, hl]
    exact if_pos ⟨(room_iff _ _).mpr hr, .inl (by rw [hm]; decide)⟩
  have hx : exec .cueWriteListPass s = .next (s.withChip (arbitrate (cuePassStep s.chip))) := rfl
  rw [hx, hstep, arbitrate_busy (by exact hp)]
  rfl

theorem exec_cuePass_stays {g : List PartWrite} {rest : List (List PartWrite)} (hp : s.chip.bus.port ≠ none)
    (hl : s.chip.cue.list = g :: rest) (hr : 12 < s.chip.bus.queue.length + g.length) :
    exec .cueWriteListPass s = .next s := by
  have hstep : cuePassStep s.chip = s.chip := by
    simp only [cuePassStep, hl]
    exact if_neg fun h => absurd ((room_iff _ _).mp h.1) (by omega)
  have hx : exec .cueWriteListPass s = .next (s.withChip (arbitrate (cuePassStep s.chip))) := rfl
  rw [hx, hstep, arbitrate_busy hp]
  rfl

/-- A block's first waiting write joins where an entry is free and its turn has come. -/
theorem exec_join {p : Poster} {w : PartWrite} {rest : List PartWrite} (hp : s.chip.bus.port ≠ none)
    (hq : s.chip.bus.queue.length < 12) (ht : turnOf p s.chip = true) (hw : waiting p s.chip = w :: rest) :
    exec (.writeJoinsQueue p) s = .next (s.withChip (onBus (·.join [w]) (withWaiting p rest s.chip))) := by
  have hstep : joinStep p s.chip = onBus (·.join [w]) (withWaiting p rest s.chip) := by
    simp only [joinStep, hw]
    exact if_pos ⟨(room_iff _ _).mpr hq, ht⟩
  have hport : (onBus (·.join [w]) (withWaiting p rest s.chip)).bus.port ≠ none := by cases p <;> exact hp
  have hx : exec (.writeJoinsQueue p) s = .next (s.withChip (arbitrate (joinStep p s.chip))) := rfl
  rw [hx, hstep, arbitrate_busy hport]

theorem exec_join_stays (p : Poster) (hp : s.chip.bus.port ≠ none)
    (h : 12 ≤ s.chip.bus.queue.length ∨ turnOf p s.chip = false) : exec (.writeJoinsQueue p) s = .next s := by
  have hno : ¬ (s.chip.bus.room 1 = true ∧ turnOf p s.chip = true) := by
    rintro ⟨hroom, hturn⟩
    rw [room_iff] at hroom
    rcases h with h | h
    · omega
    · exact Bool.false_ne_true (h.symm.trans hturn)
  have hstep : joinStep p s.chip = s.chip := by
    unfold joinStep
    split
    · exact if_neg hno
    · rfl
  have hx : exec (.writeJoinsQueue p) s = .next (s.withChip (arbitrate (joinStep p s.chip))) := rfl
  rw [hx, hstep, arbitrate_busy hp]
  rfl

theorem turnOf_mailbox (c : Chip) : turnOf .mailbox c = true ↔
    c.mode ≠ .startup ∨ c.bus.wait = [] ∧ c.cue.list = [] := by
  simp [turnOf]

/-- The writes of an entry of the slot write list, as memory is to receive them (R104, R105). -/
theorem writes_mark (id : RingId) (n : Nat) : (SlotWrite.mark id n).writes = [⟨slotOffset id n, 0x82, 0x1⟩] := rfl

theorem statusByte (st : Status) : withByte0 0 (BitVec.ofNat 8 st.code) = BitVec.ofNat 32 st.code := by
  cases st <;> decide

theorem writes_ret (id : RingId) (n : Nat) (st : Status) (pos : Int) (time : Word) :
    (SlotWrite.ret id n st pos time).writes = [⟨slotOffset id n + 24, wordOfInt pos, 0xF⟩,
      ⟨slotOffset id n + 28, time, 0xF⟩, ⟨slotOffset id n, BitVec.ofNat 32 st.code, 0x1⟩] := by
  rw [SlotWrite.writes, statusByte]
  rfl

/-- Settles O43: the slot write list, the cue write list, and the six posters. -/
theorem listsJoinQueue : Obligations.ListsJoinQueue := by
  refine ⟨fun e rest s hl hp => ⟨?_, ?_, ?_, ?_⟩, fun s hm hp => ⟨?_, ?_, ?_⟩, ?_⟩
  · rintro id n rfl hr
    rw [exec_slotPass hp hl hr, writes_mark]
  · rintro id n st pos time rfl hr
    rw [exec_slotPass hp hl hr, writes_ret]
  · rintro id n rfl hr
    exact exec_slotPass_stays hp hl hr
  · rintro id n st pos time rfl hr
    exact exec_slotPass_stays hp hl hr
  · exact fun g rest hl hr => exec_cuePass hm hp hl hr
  · exact fun g rest hl hr => exec_cuePass_stays hp hl hr
  · exact fun p hq => exec_join_stays p hp (.inl hq)
  · intro s hp hq joined
    refine ⟨fun w rest hw => ?_, fun w rest hm hw => ?_, fun w rest hw => ?_, fun w rest hw => ?_, fun w rest hw => ?_,
      fun w rest hw => ?_, fun w rest hm hw => ⟨fun h => ?_, fun h => ?_⟩⟩
    · exact exec_join (p := .eventWriter) hp hq rfl hw
    · exact exec_join (p := .mailbox) hp hq ((turnOf_mailbox _).mpr (.inl (by rw [hm]; decide))) hw
    · exact exec_join (p := .settings) hp hq rfl hw
    · exact exec_join (p := .grant) hp hq rfl hw
    · exact exec_join (p := .startUp) hp hq rfl hw
    · exact exec_join (p := .sweep) hp hq rfl hw
    · exact exec_join (p := .mailbox) hp hq ((turnOf_mailbox _).mpr (.inr h)) hw
    · refine exec_join_stays .mailbox hp (.inr (Bool.eq_false_iff.mpr fun ht => ?_))
      obtain hrun | ⟨hwait, hlist⟩ := (turnOf_mailbox _).mp ht
      · exact hrun hm
      · exact h.elim (· hwait) (· hlist)

end Sys2Proof.Rings

namespace Sys2Proof.Rings

open Sys2Proof Sys2Proof.Machine Sys2Proof.Laws Sys2Proof.TapePath

variable {c : Chip} {s : State} {cy : HostCyc} {h : HostPort} {off : Nat}

/-! ## A cycle of the host's by its region (R151, R152, R162, R163) -/

theorem exec_hostCycle (addr : BitVec 24) (write : Bool) (data : Word) (be : Enables) (s : State) :
    exec (.hostCycle addr write data be) s = .next (s.ends (startCycle ⟨addr, write, data, be⟩ s.chip)) := rfl

theorem startCycle_free (hh : c.bus.host = none) : startCycle cy c = driveCycle cy c := by
  simp only [startCycle, hh]

/-- Under the bypass a cycle waits for the arbiter as it is (R162). -/
theorem driveCycle_bypass (hm : c.mode = .bypass) :
    driveCycle cy c = onBus (fun b => { b with host := some ⟨cy, .bypassed⟩, done := .none }) c := by
  simp only [driveCycle, hm]

/-- Elsewhere it is classified by the word its address names. -/
theorem driveCycle_classified (hm : c.mode ≠ .bypass) : driveCycle cy c = classify (arrived cy c) := by
  unfold driveCycle
  split
  next hb => exact absurd hb hm
  all_goals rfl

/-- An outside cycle goes to the arbiter as it came (R151). -/
theorem driveCycle_outside (hm : c.mode ≠ .bypass) (ho : cy.addr.toNat < 0x100000 * c.bus.winsel.toNat ∨
      0x10000 + 0x100000 * c.bus.winsel.toNat ≤ cy.addr.toNat) :
    driveCycle cy c = onBus (fun b => { b with host := some ⟨cy, .ready cy.data cy.be⟩, done := .none }) c := by
  rw [driveCycle_classified hm, classify_port (arrived_host cy c), windowOffset_arrived,
    windowOffset_out (fun hin => ho.elim (fun hlo => absurd hin.1 (by simpa using hlo)) fun hhi => absurd hin.2 (by simpa using hhi))]
  rfl

/-- A write to the live window is dropped in silence (R153). -/
theorem driveCycle_liveWrite (hm : c.mode ≠ .bypass) (hw : cy.write = true) (hlo : 0x100000 * c.bus.winsel.toNat ≤ cy.addr.toNat)
    (hhi : cy.addr.toNat < 0x100 + 0x100000 * c.bus.winsel.toNat) : driveCycle cy c = { c with bus := c.dropping } := by
  rw [driveCycle_classified hm, classify_port (arrived_host cy c), windowOffset_arrived, windowOffset_in ⟨hlo, by omega⟩,
    classifyAt_some, if_pos (by omega), disposeLive, if_pos hw]
  rfl

/-- A window write in start-up is dropped (R163). -/
theorem driveCycle_startupWrite (hm : c.mode = .startup) (hw : cy.write = true)
    (hlo : 0x100000 * c.bus.winsel.toNat ≤ cy.addr.toNat) (hhi : cy.addr.toNat < 0x10000 + 0x100000 * c.bus.winsel.toNat) :
    driveCycle cy c = { c with bus := c.dropping } := by
  rw [driveCycle_classified (by rw [hm]; decide)]
  exact classify_startup_write (c := arrived cy c) hm (arrived_host cy c) hw hlo hhi

/-- A cycle behind another is kept, the first that comes (log 36). -/
theorem exec_hostCycle_behind {addr : BitVec 24} {write : Bool} {data : Word} {be : Enables} (hh : s.chip.bus.host ≠ none) :
    exec (.hostCycle addr write data be) s = .next (s.ends { s.chip with bus := { s.chip.bus with
      next := if s.chip.bus.next = none then some ⟨addr, write, data, be⟩ else s.chip.bus.next } }) := by
  obtain ⟨p, hp⟩ := Option.ne_none_iff_exists'.1 hh
  have hkept : some (s.chip.bus.next.getD ⟨addr, write, data, be⟩) =
      if s.chip.bus.next = none then some ⟨addr, write, data, be⟩ else s.chip.bus.next := by
    cases s.chip.bus.next <;> rfl
  rw [exec_hostCycle, startCycle_next hp, ← hkept]
  rfl

/-! ## HELD_CYCLE_RELEASE (R106, R138, R157) -/

theorem exec_heldRelease (hm : s.chip.mode = .running) (hh : s.chip.bus.host = some h) (hp : h.phase = .held) :
    exec .heldCycleRelease s = .next (s.ends (driveNext (classify s.chip))) := by
  have hstep : heldReleaseStep s.chip = driveNext (classify s.chip) := by
    simp only [heldReleaseStep, hh]
    exact if_pos ⟨hp, by rw [hm]; decide⟩
  have hx : exec .heldCycleRelease s = .next (s.ends (heldReleaseStep s.chip)) := rfl
  rw [hx, hstep]

/-- A read is held by the part's own writes to its word, wherever they wait. -/
theorem heldCycle_read (hm : c.mode = .running) :
    heldCycle off false c = (pendingWrite off c || listHold off c || cueHold off c) := by
  simp [heldCycle, hm, mailHold]

theorem hostPhase_host (ph : HostPhase) (hh : c.bus.host = some h) :
    hostPhase ph c = { c with bus := { c.bus with host := some { h with phase := ph } } } := by
  simp only [hostPhase, onBus, hh, Option.map_some]

/-- A cycle put into the phase it stands in changes nothing. -/
theorem hostPhase_stands (hh : c.bus.host = some h) : hostPhase h.phase c = c := by
  rw [hostPhase_host h.phase hh]
  show { c with bus := { c.bus with host := some h } } = c
  rw [← hh]

/-- A held read while a hold stands. -/
theorem classify_heldRead (hm : c.mode = .running) (hh : c.bus.host = some h) (hp : h.phase = .held) (hw : h.cyc.write = false)
    (ho : windowOffset c h.cyc.addr.toNat = some off) (hl : 0x100 ≤ off)
    (hd : (pendingWrite off c || listHold off c || cueHold off c) = true) : classify c = c := by
  rw [classify_port hh, ho, classifyAt_some, if_neg (by omega), hw, heldCycle_read hm, if_pos hd, ← hp]
  exact hostPhase_stands hh

/-- A window cycle of the running part above the live window, past its holds. -/
theorem classify_running (hm : c.mode = .running) (hh : c.bus.host = some h) (ho : windowOffset c h.cyc.addr.toNat = some off)
    (hl : 0x100 ≤ off) (hd : heldCycle off h.cyc.write c = false) : classify c = disposeRunning h.cyc off c :=
  (classify_at hh ho (by omega) hd).trans (if_neg (by rw [hm]; decide))

/-- A held read once no hold stands. -/
theorem classify_freeRead (hm : c.mode = .running) (hh : c.bus.host = some h) (hw : h.cyc.write = false)
    (ho : windowOffset c h.cyc.addr.toNat = some off) (hl : 0x100 ≤ off)
    (hd : (pendingWrite off c || listHold off c || cueHold off c) = false) :
    classify c = { c with bus := { c.bus with host := some { h with phase := .ready h.cyc.data h.cyc.be } } } := by
  rw [classify_running hm hh ho hl (by rw [hw, heldCycle_read hm, hd]), disposeRunning, if_neg (by simp [hw])]
  exact hostPhase_host _ hh

/-- A write to the cue image is dropped, past its holds (R139). -/
theorem windowWrite_cueImage (h₁ : 0x3000 ≤ off) (h₂ : off < 0x3200) (data : Word) (be : Enables) (c : Chip) :
    windowWrite off data be c = dropWrite (postWriteDropped 2 off 0 c) := by
  have hslot : slotOf off = none := by
    rw [slotOf, if_neg (by omega), if_neg (by omega)]
  have hcue : inCueImage off = true := decide_eq_true ⟨h₁, h₂⟩
  have hbelow (n : Nat) (hn : n < 0x3000) : off ≠ n := by omega
  simp only [windowWrite, hslot]
  rw [if_neg (hbelow _ (by decide)), if_neg (hbelow _ (by decide)), if_neg (hbelow _ (by decide)), if_neg (hbelow _ (by decide)),
    if_neg (hbelow _ (by decide)), if_neg (hbelow _ (by decide)), if_neg (by omega), if_pos hcue]

theorem classify_heldCueWrite (hm : c.mode = .running) (hh : c.bus.host = some h) (hw : h.cyc.write = true)
    (ho : windowOffset c h.cyc.addr.toNat = some off) (h₁ : 0x3000 ≤ off) (h₂ : off < 0x3200) (hd : heldCycle off true c = false) :
    classify c =
      ({ c with bus := c.dropping } : Chip).posting [c.event .writeDropped 2 0 off] [.writeDropped] := by
  rw [classify_running hm hh ho (by omega) (by rw [hw, hd]), disposeRunning_write hw, windowWrite_cueImage h₁ h₂,
    postWriteDropped_running hm]
  rfl

/-- Settles O52: a cycle by its region, one behind another, and a held cycle's release. -/
theorem hostCyclePasses : Obligations.HostCyclePasses := by
  refine ⟨?_, ?_, ?_, ?_⟩
  · intro addr write data be s hh base port drop
    refine ⟨fun hm => ?_, fun hm ho => ?_, fun hm hw hlo hhi => ?_, fun hm hw hlo hhi => ?_⟩
    · rw [exec_hostCycle, startCycle_free hh, driveCycle_bypass hm]
      rfl
    · rw [exec_hostCycle, startCycle_free hh, driveCycle_outside hm (by exact ho)]
      rfl
    · rw [exec_hostCycle, startCycle_free hh, driveCycle_liveWrite hm (by exact hw) (by exact hlo) (by exact hhi)]
    · rw [exec_hostCycle, startCycle_free hh, driveCycle_startupWrite hm (by exact hw) (by exact hlo) (by exact hhi)]
  · exact fun addr write data be s hh => exec_hostCycle_behind hh
  · intro h off s hm hh hp hw ho hl
    refine ⟨fun hd => ?_, fun hd => ?_⟩
    · rw [exec_heldRelease hm hh hp, classify_heldRead hm hh hp hw ho hl hd, (driveNext_busy hh).1]
    · rw [exec_heldRelease hm hh hp, classify_freeRead hm hh hw ho hl hd, (driveNext_busy (by rfl)).1]
  · intro h off s hm hh hp hw ho h₁ h₂ hd c
    refine ⟨fun hn => ?_, fun cy hn => ?_⟩
    · rw [exec_heldRelease hm hh hp, classify_heldCueWrite hm hh hw ho h₁ h₂ hd, (driveNext_none (by exact hn)).1]
    · rw [exec_heldRelease hm hh hp, classify_heldCueWrite hm hh hw ho h₁ h₂ hd, (driveNext_some (by rfl) (by exact hn)).1,
        exec_hostCycle, startCycle_free (by rfl)]
      rfl

end Sys2Proof.Rings

namespace Sys2Proof.Rings

open Sys2Proof Sys2Proof.Machine Sys2Proof.Laws Sys2Proof.TapePath

variable {c : Chip} {s : State} {m : Memory}

/-! ## A word in memory (R155, Conventions) -/

theorem byteOf_wordOf (b₀ b₁ b₂ b₃ : Byte) : byteOf (wordOf b₀ b₁ b₂ b₃) 0 = b₀ ∧ byteOf (wordOf b₀ b₁ b₂ b₃) 1 = b₁ ∧
    byteOf (wordOf b₀ b₁ b₂ b₃) 2 = b₂ ∧ byteOf (wordOf b₀ b₁ b₂ b₃) 3 = b₃ := by
  refine ⟨?_, ?_, ?_, ?_⟩ <;>
  · ext i hi
    simp only [byteOf, wordOf, BitVec.getElem_extractLsb', BitVec.getLsbD_append]
    simp [hi, show 16 + i - 8 = 8 + i by omega, show 24 + i - 8 = 16 + i by omega, show ¬ 16 + i < 8 by omega,
      show ¬ 24 + i < 8 by omega]

/-- Each byte of a written word: the data's where it is enabled, and otherwise as it was. -/
theorem read_writeWord (h : m.wf = true) (a : Nat) (data : Word) (be : Enables) {k : Nat} (hk : k < 4) :
    (m.writeWord a data be).read (a + k) = if be.getLsbD k = true then byteOf data k else m.read (a + k) := by
  have h₀ := wf_writeIf h (be.getLsbD 0) a (byteOf data 0)
  have h₁ := wf_writeIf h₀ (be.getLsbD 1) (a + 1) (byteOf data 1)
  have h₂ := wf_writeIf h₁ (be.getLsbD 2) (a + 2) (byteOf data 2)
  rw [Memory.writeWord, read_writeIf h₂, read_writeIf h₁, read_writeIf h₀, read_writeIf h]
  interval_cases k <;> simp

/-- A word written reads back in its enabled bytes, and keeps the others. -/
theorem readWord_writeWord (h : m.wf = true) (a : Nat) (data : Word) (be : Enables) :
    (m.writeWord a data be).readWord a = merge be data (m.readWord a) := by
  obtain ⟨e₀, e₁, e₂, e₃⟩ := byteOf_wordOf (m.read a) (m.read (a + 1)) (m.read (a + 2)) (m.read (a + 3))
  have r₀ := read_writeWord h a data be (k := 0) (by decide)
  rw [Nat.add_zero] at r₀
  rw [merge, Memory.readWord, Memory.readWord, r₀, read_writeWord h a data be (by decide),
    read_writeWord h a data be (by decide), read_writeWord h a data be (by decide), e₀, e₁, e₂, e₃]

end Sys2Proof.Rings

namespace Sys2Proof.Rings

open Sys2Proof Sys2Proof.Machine Sys2Proof.Laws Sys2Proof.TapePath

variable {c : Chip} {s : State}

/-! ## A memory cycle completes (R155, R156, R158, R162) -/

theorem bypassEnds_stands (h : c.mode ≠ .bypass ∨ c.bus.ending = none) : bypassEnds c = c := by
  unfold bypassEnds
  split
  next w hw =>
    refine if_neg fun ⟨hm, _⟩ => ?_
    exact h.elim (· hm) fun hn => by simp [hw] at hn
  next => rfl

/-- What the completed cycle at the port leaves of the part, before the host's next cycle and the arbiter. -/
def completed (cy : Machine.Cycle) (s : State) : Chip := cycleDone cy (s.mem.readWord cy.addr) (freePort s.chip)

theorem exec_memoryCycleDone {cy : Machine.Cycle} (hp : s.chip.bus.port = some cy) : exec .memoryCycleDone s = .next { s with
    mem := cycleWrites cy s.mem
    chip := arbitrate (driveOn (bypassEnds (completed cy s))) } := by
  have hx : exec .memoryCycleDone s = .next (memoryDoneStep s) := rfl
  rw [hx, memoryDoneStep, hp]
  rfl

/-- A cycle with nothing of the host's to follow it: the arbiter grants the port again. -/
theorem exec_memoryCycleDone_alone {cy : Machine.Cycle} (hp : s.chip.bus.port = some cy)
    (hb : (completed cy s).mode ≠ .bypass ∨ (completed cy s).bus.ending = none)
    (hn : (completed cy s).bus.next ≠ none → (completed cy s).bus.host ≠ none) :
    exec .memoryCycleDone s = .next { s with mem := cycleWrites cy s.mem, chip := arbitrate (completed cy s) } := by
  rw [exec_memoryCycleDone hp, bypassEnds_stands hb, (driveNext_ok hn).2]

/-- The end of a host cycle drives the host's next one as HOST_CYCLE does, the ended one's answer kept (logs 36, 37). -/
theorem exec_memoryCycleDone_drives {a : Nat} {write : Bool} {data : Word} {be : Enables} {y : Bool} {cy : HostCyc}
    (hp : s.chip.bus.port = some (.host a write data be y)) (hb : s.chip.mode ≠ .bypass ∨ s.chip.bus.ending = none)
    (hn : s.chip.bus.next = some cy) {d : HostDone}
    (hd : d = if write then .wrote else .read (s.mem.readWord (a / 4 * 4))) :
    exec .memoryCycleDone s = exec (.hostCycle cy.addr cy.write cy.data cy.be) { s with
      mem := cycleWrites (.host a write data be y) s.mem
      chip := { s.chip with bus := { s.chip.bus with port := none, host := none, done := d, next := none, prior := d } } } := by
  subst hd
  have hdrive := (driveNext_some (c := completed (.host a write data be y) s) rfl hn).2
  rw [exec_memoryCycleDone hp, bypassEnds_stands (by exact hb), hdrive, exec_hostCycle, startCycle_free rfl]
  rfl

/-! ## The arbiter between the host and the head of the queue (R159) -/

/-- The reads that go before the host and the queue are those of the command's own end. -/
theorem fetches_tail (c : Chip) : (HandFetch.next? (tail c)).or ((mailNext? (tail c)).or (sweepNext? (tail c))) =
    (HandFetch.next? c).or ((mailNext? c).or (sweepNext? c)) := by
  obtain ⟨-, -, -, -, -, hpln, -, hmbx, -⟩ := plain_blocks (tail_plain c)
  simp only [HandFetch.next?, mailNext?, sweepNext?, windowAddr, hpln, hmbx, tail_bus]

/-- A host cycle released to a free port over a waiting write: it is granted, until six have passed the write over. -/
theorem done_bus_contended {p : HostPort} {data : Word} {be : Enables} {w : PartWrite} {ws : List PartWrite}
    (hport : c.bus.port = none) (hidle : (HandFetch.next? c).or ((mailNext? c).or (sweepNext? c)) = none)
    (hh : c.bus.host = some p) (hp : p.phase = .ready data be) (hq : c.bus.queue = w :: ws) :
    (done c).bus.queue = w :: ws ∧ (done c).bus.next = c.bus.next ∧
    (c.bus.passOver < 6 → (done c).bus.port = some (.host p.cyc.addr.toNat p.cyc.write data be false) ∧
      (done c).bus.passOver = c.bus.passOver + 1) ∧
    (6 ≤ c.bus.passOver → (done c).bus.port = some (.part (windowAddr c w.offset) w) ∧
      (done c).bus.passOver = c.bus.passOver) := by
  have hhost : hostNext? (tail c) = some (.host p.cyc.addr.toNat p.cyc.write data be false) := by
    simp only [hostNext?, tail_bus, hh, hp]
  have hgranted : granted? (tail c) = some (if c.bus.passOver < 6 then .host p.cyc.addr.toNat p.cyc.write data be false
      else .part (windowAddr c w.offset) w) := by
    rw [granted?_idle ((fetches_tail c).trans hidle), hhost, tail_bus, hq]
    simp only [windowAddr, tail_bus, passOverLimit]
    split <;> rfl
  have hfree : (tail c).bus.port = none := (congrArg Bus.port (tail_bus c)).trans hport
  have hdone : (done c).bus = c.bus.grant (if c.bus.passOver < 6 then .host p.cyc.addr.toNat p.cyc.write data be false
      else .part (windowAddr c w.offset) w) := by
    rw [done, arbitrate, hfree, hgranted]
    exact congrArg (Bus.grant · _) (tail_bus c)
  rw [hdone]
  by_cases hlt : c.bus.passOver < 6
  · rw [if_pos hlt]
    exact ⟨hq, rfl, fun _ => ⟨rfl, if_neg (by simp [hq])⟩, fun hge => absurd hlt (by omega)⟩
  · rw [if_neg hlt]
    exact ⟨hq, rfl, fun h => absurd h hlt, fun _ => ⟨rfl, rfl⟩⟩

/-- Settles O44: each cycle's end, the host's next cycle over the head of the queue, and the word written. -/
theorem memoryCycleCompletes : Obligations.MemoryCycleCompletes := by
  refine ⟨?_, ?_, ?_⟩
  · intro s hmem hnext hb ends free outside onward
    have hout (a : Nat) (data : Word) (be : Enables) : outside a (s.mem.writeWord (a / 4 * 4) data be) :=
      fun x hx => read_writeWord_other hmem data be hx
    refine ⟨fun a w hp => ⟨?_, hout _ _ _⟩, fun a data be y hp => ⟨hout _ _ _, fun hn => ?_, fun cy hn => ?_⟩,
      fun a data be y hp => ⟨fun hn => ?_, fun cy hn => ?_⟩, fun a k h hp hf => ?_, fun a data be hp => ⟨?_, hout _ _ _⟩,
      fun hp => ?_⟩
    · exact exec_memoryCycleDone_alone hp hb hnext
    · exact exec_memoryCycleDone_alone hp hb (fun h => absurd hn h)
    · exact exec_memoryCycleDone_drives hp hb hn rfl
    · exact exec_memoryCycleDone_alone hp hb (fun h => absurd hn h)
    · exact exec_memoryCycleDone_drives hp hb hn rfl
    · rw [exec_memoryCycleDone_alone hp hb hnext]
      simp only [completed, cycleDone, handRead, onPln, freePort, onBus, hf, Option.map_some, Bool.or_false]
      rfl
    · exact exec_memoryCycleDone_alone hp hb hnext
    · exact exec_memoryCycleDone_alone hp hb hnext
  · intro a write data be y cy w ws s hm hp hn base ho hq hidle
    have hb : s.chip.mode ≠ .bypass := by rw [hm]; decide
    have hx := exec_memoryCycleDone_drives hp (.inl hb) hn rfl
    rw [exec_hostCycle, startCycle_free (by rfl), driveCycle_outside (by exact hb) (by exact ho)] at hx
    refine ⟨_, hx, ?_⟩
    exact done_bus_contended (p := ⟨cy, .ready cy.data cy.be⟩) rfl hidle rfl rfl hq
  · exact fun m a data be h => ⟨readWord_writeWord h a data be, fun x hx => read_writeWord_other h data be hx⟩

end Sys2Proof.Rings

namespace Sys2Proof.Rings

open Sys2Proof Sys2Proof.Machine Sys2Proof.Laws Sys2Proof.TapePath

variable {c : Chip} {s : State}

/-! ## Posted writes that find room (R156, log 31) -/

/-- The part with writes joined to the master queue. -/
def queueing (ws : List PartWrite) (c : Chip) : Chip := { c with bus := { c.bus with queue := c.bus.queue ++ ws } }

theorem postWrite_joins {p : Poster} (w : PartWrite) (hq : c.bus.queue.length < 12) (hw : waiting p c = [])
    (ht : turnOf p c = true) : postWrite p w c = queueing [w] c := if_pos ⟨hq, List.isEmpty_iff.mpr hw, ht⟩

theorem postWrites_join {p : Poster} (ws : List PartWrite) (hq : c.bus.queue.length + ws.length ≤ 12)
    (hw : waiting p c = []) (ht : turnOf p c = true) : postWrites p ws c = queueing ws c := by
  induction ws generalizing c with
  | nil => simp [postWrites, queueing]
  | cons w ws ih =>
    rw [List.length_cons] at hq
    have hwait : waiting p (queueing [w] c) = [] := by cases p <;> exact hw
    have hturn : turnOf p (queueing [w] c) = true := by cases p <;> exact ht
    have hrec : postWrites p (w :: ws) c = postWrites p ws (postWrite p w c) := rfl
    rw [hrec, postWrite_joins w (by omega) hw ht, ih (by simp [queueing]; omega) hwait hturn]
    simp [queueing]

/-! ## RECOVERY_SWEEP_READ (R109) -/

/-- OWN of a word read is bit 7 of its first byte (12.1). -/
theorem ownPart_readWord (m : Memory) (a : Nat) : ownPart (m.readWord a) = (m.read a).getLsbD 7 := by
  simp only [ownPart, Memory.readWord, wordOf, BitVec.getLsbD_append]
  rfl

theorem sweepOffset (n : Nat) : slotOffset (sweepSlot n).1 (sweepSlot n).2 =
    if n < 8 then 0x1000 + 32 * n else 0x2000 + 32 * (n - 8) := by
  unfold sweepSlot
  split <;> rfl

/-- A read of the sweep with room in the queue: the slot the part had left is returned ABANDONED. -/
theorem sweepRead_posts (n : Nat) (w : Word) (hw : c.pln.wait = []) (hq : c.bus.queue.length < 12) :
    sweepRead n w c = { c with
      pln := { c.pln with sweep := some (n + 1) }
      bus := { c.bus with queue := if ownPart w then c.bus.queue ++
        [⟨if n < 8 then 0x1000 + 32 * n else 0x2000 + 32 * (n - 8), 0x18, 0x1⟩] else c.bus.queue } } := by
  have hbyte : withByte0 0 (BitVec.ofNat 8 Status.abandoned.code) = 0x18 := by decide
  unfold sweepRead
  dsimp only
  split
  · rw [sweepOffset, hbyte]
    exact postWrite_joins (p := .sweep) _ hq hw rfl
  · rfl

theorem exec_recoverySweepRead {a n : Nat} (hp : s.chip.bus.port = some (.sweepRead a n)) : exec .recoverySweepRead s =
    .next (s.withChip (arbitrate (sweepRead n (s.mem.readWord a) (freePort s.chip)))) := by
  have hx : exec .recoverySweepRead s = .next (sweepStep s) := rfl
  rw [hx, sweepStep, hp]
  rfl

/-! ## STARTUP_END (R165, R179) -/

/-- The events and the notices among posts held. -/
def heldEvent? : Post → Option Event
  | .event e => some e
  | .notice _ => none

def heldNotice? : Post → Option Notice
  | .event _ => none
  | .notice k => some k

/-- The held posts made: the events wait in their order, the notices follow in theirs (R57, R165). -/
theorem makePosts (ps : List Post) (c : Chip) : ps.foldl (fun c p => makePost p c) c =
    c.posting (ps.filterMap heldEvent?) (ps.filterMap heldNotice?) := by
  induction ps generalizing c with
  | nil => simp [Chip.posting]
  | cons p ps ih =>
    rw [List.foldl_cons, ih]
    cases p <;> simp [makePost, Chip.posting, List.filterMap_cons, heldEvent?, heldNotice?, onEvt]

/-- A record appended in a running part to an empty ring, with room in the queue (R180). -/
theorem appendRecord_first (e : Event) (hm : c.mode = .running) (hu : c.evt.unread = 0) (hw : c.evt.wait = [])
    (hq : c.bus.queue.length + 4 ≤ 12) : appendRecord e c = { c with
      evt := { c.evt with write := (c.evt.write + 1) % 128 }
      ntc := c.ntc.post .eventsWaiting
      bus := { c.bus with queue := c.bus.queue ++ recordWrites c.evt.write e } } := by
  unfold appendRecord
  rw [postWrites_join (p := .eventWriter) (recordWrites c.evt.write e) hq hw rfl]
  dsimp only
  rw [if_pos hu]
  rw [postNotice_running (by exact hm)]
  rfl

/-- The four writes of the RESET record at the start of the ring (R179, 12.2). -/
theorem resetRecord_writes (c : Chip) : recordWrites 0 (resetRecord c) =
    [⟨0x4000, halves (1 + 256 * c.bus.startCause.code) 0, 0xF⟩, ⟨0x4004, c.clock, 0xF⟩,
      ⟨0x4008, wordOfInt c.trk.position, 0xF⟩, ⟨0x400C, BitVec.ofNat 32 c.bus.startCount.toNat, 0xF⟩] := by
  have hcause : c.bus.startCause.code % 256 = c.bus.startCause.code := by cases c.bus.startCause <;> rfl
  have hcount : wordOfInt (c.bus.startCount.toNat : Nat) = BitVec.ofNat 32 c.bus.startCount.toNat := BitVec.ofInt_natCast ..
  simp only [recordWrites, resetRecord, eventNow, hcause, hcount]
  rfl

/-- The part as start-up ends, before its record and the held posts. -/
def started (c : Chip) : Chip :=
  { c with mode := .running, bus := { c.bus with startTime := c.clock }, evt := { c.evt with held := [] } }

theorem exec_startupEnd (h : startupOver s.chip = true) : exec .startupEnd s = .next (s.ends
    ((appendRecord (resetRecord (started s.chip)) (started s.chip)).posting
      (s.chip.evt.held.filterMap heldEvent?) (s.chip.evt.held.filterMap heldNotice?))) := by
  have hstep : startupEndStep s.chip = s.chip.evt.held.foldl (fun c p => makePost p c)
      (appendRecord (resetRecord (started s.chip)) (started s.chip)) := if_pos h
  rw [← makePosts, ← hstep]
  rfl

theorem startupOver_queue (h : startupOver c = true) : c.bus.queue = [] := by
  simp only [startupOver, Bool.and_eq_true, List.isEmpty_iff] at h
  tauto

/-- Settles O39: the sweep's read, and the end of start-up with the posts held till then. -/
theorem sweepAndStartupEnd : Obligations.SweepAndStartupEnd := by
  refine ⟨?_, ?_⟩
  · intro a n s hp hw hq off
    have hx := exec_recoverySweepRead hp
    rw [sweepRead_posts (c := freePort s.chip) n _ hw hq, ownPart_readWord, arbitrate_eq] at hx
    exact ⟨_, hx, rfl, (arbitrate_pathStands _).queue, rfl, rfl, rfl, rfl, rfl⟩
  · intro s hm hover hevents hw events notices
    obtain ⟨hwrite, hconsumed, -, hposted⟩ := hevents.idle (by rw [hm]; decide)
    have hqueue : s.chip.bus.queue = [] := startupOver_queue hover
    have hx := exec_startupEnd hover
    rw [appendRecord_first (c := started s.chip) _ rfl (by simp [EventWriter.unread, started, hwrite, hconsumed, eventRecords])
      hw (by simp [started, hqueue])] at hx
    refine ⟨_, hx, ?_⟩
    simp only [State.ends, done_mode, done_startTime, done_evt, done_queue, done_ntc, done_trk, Chip.posting, started, hwrite,
      hconsumed, hposted, hqueue, List.nil_append]
    exact ⟨trivial, trivial, trivial, trivial, rfl, trivial, resetRecord_writes _, rfl, trivial, trivial⟩

end Sys2Proof.Rings

namespace Sys2Proof.Rings

open Sys2Proof Sys2Proof.Machine Sys2Proof.Laws Sys2Proof.TapePath Sys2Proof.Supervision

variable {c : Chip} {s : State} {h : HandFetch} {p : HostPort} {r : Record}

/-! ## The screen's two outcomes (R99, R100) -/

theorem exec_handOff_refused {code : RefCode} (hm : s.chip.mode = .running) (hf : s.chip.pln.fetch = some h) (htodo : h.todo = [])
    (hp : s.chip.bus.host = some p) (hs : screen s.chip h.record h.aborted = some code) :
    exec .handOffScreen s = .next (s.ends
      ((({ s.chip with
          pln := { s.chip.pln with fetch := none }
          bus := { s.chip.bus with host := some { p with
            phase := .ready (withByte0 h.data (BitVec.ofNat 8 code.code)) (h.be ||| 1) } } } : Chip).posting
        [s.chip.event .segmentRefused code.code h.record.tag (slotOffset h.ring h.slot)] [.segmentRefused]))) := by
  simp only [exec, execHandOffScreen, State.onChip, screenStep, hf, htodo, List.isEmpty_nil, if_true, screenDecided, hs]
  rw [postRefused_running (by exact hm), release, hostPhase_host _ (by exact hp)]
  rfl

/-- A part that takes no segment leaves the ring that gained a slot as it stands (R117). -/
theorem gained_untaken {id : RingId} (hc : canTake c = false) : gained id c = c := by
  simp [gained, hc]

theorem accepted_untaken (ht : c.sup.ts = .stopping) : canTake (c.accepted h p) = false := by
  have hts : (c.accepted h p).sup.ts = .stopping := ht
  simp [canTake, hts]

/-- The part with the slot accepted, written out (R99). -/
theorem accepted_eq (c : Chip) (h : HandFetch) (p : HostPort) : c.accepted h p = { c with
    pln := ({ c.pln with fetch := none } : Plan).withRing h.ring { c.pln.ring h.ring with
      slots := (c.pln.ring h.ring).slots.set (c.pln.ring h.ring).intake ⟨.queued, some h.record⟩
      intake := ((c.pln.ring h.ring).intake + 1) % (c.pln.ring h.ring).slots.length
      queued := (c.pln.ring h.ring).queued + 1 }
    bus := { c.bus with host := some { p with phase := .ready (withByte0 h.data 0x81) (h.be ||| 1) } } } := by
  unfold Chip.accepted
  cases h.ring <;> rfl

/-! ## What the screen accepts (R96) -/

theorem takesPlan_iff (t : TState) : t.takesPlan = true ↔ t = .held ∨ t = .moving ∨ t = .stopping := by
  cases t <;> simp [TState.takesPlan]

/-- One check of the screen: it passes, and the checks behind it pass. -/
theorem check_passes {α : Type} {q : Prop} [Decidable q] {code : α} {rest : Option α} :
    (if q then some code else rest) = none ↔ ¬ q ∧ rest = none := by
  split <;> simp [*]

theorem screen_none_iff (c : Chip) (r : Record) (aborted : Bool) : screen c r aborted = none ↔
    c.sup.ts.takesPlan = true ∧ c.sup.latch = false ∧
    ∃ k, r.kind? = some k ∧ fieldsOk k r = true ∧ (k.moving = true → c.gnt.active ≠ none) ∧
      (∀ g, c.gnt.active = some g → withinGrant g.choice k r = true) ∧
      (k = .locate → c.trk.valid = true) ∧ (k = .locate → r.useCue = true → cueOf c r ≠ none) ∧ aborted = false := by
  have hallows (k : Kind) : (c.gnt.active.map fun g => withinGrant g.choice k r).getD true = true ↔
      ∀ g, c.gnt.active = some g → withinGrant g.choice k r = true := by
    cases c.gnt.active <;> simp
  unfold screen
  rw [check_passes, check_passes]
  cases r.kind? with
  | none => simp
  | some k => simp [check_passes, ← hallows]

/-! ## The ranges of a record's fields (R97) -/

theorem speedInRange_iff (v : Int) : speedInRange v = true ↔ -120000 ≤ v ∧ v ≤ 120000 := decide_eq_true_iff

theorem positionEndOk_iff (r : Record) : positionEndOk r = true ↔
    (r.positionEnd = true → -16777216 ≤ r.target ∧ r.target ≤ 16777215) ∧ (r.positionEnd = false → r.duration ≤ 3600000) := by
  unfold positionEndOk
  cases r.positionEnd <;> simp [positionInRange_iff]

/-- The target of a LOCATE: a cue's number and offset, or a position (R97). -/
theorem locateTargetOk_iff (r : Record) :
    (if r.useCue then decide (0 ≤ r.target ∧ r.target ≤ 31) && positionInRange r.offset else positionInRange r.target) = true ↔
    (r.useCue = true → 0 ≤ r.target ∧ r.target ≤ 31 ∧ -16777216 ≤ r.offset ∧ r.offset ≤ 16777215) ∧
    (r.useCue = false → -16777216 ≤ r.target ∧ r.target ≤ 16777215) := by
  cases r.useCue <;> simp [positionInRange_iff, and_assoc]

/-! ## What a grant allows (R98) -/

/-- A play code set allows a PLAY whose code is one of the four with its bit set. -/
theorem codeAllowed_iff (g : Choice) (code : Option PlayCode) : (code.map g.allows).getD false = true ↔
    (code = some .low ∧ g.codes.getLsbD 0 = true) ∨ (code = some .mid ∧ g.codes.getLsbD 1 = true) ∨
    (code = some .high ∧ g.codes.getLsbD 2 = true) ∨ (code = some .vari ∧ g.codes.getLsbD 3 = true) := by
  cases code with
  | none => simp
  | some code => cases code <;> simp [Choice.allows, PlayCode.bit]

theorem playSpeed_eq (r : Record) : r.playSpeed = match r.playCode? with
    | some .low => 1905 | some .mid => 3810 | some .high => 7620 | some .vari | none => r.speed.natAbs := by
  unfold Record.playSpeed
  split
  next code hc => cases code <;> simp [PlayCode.nominal, hc]
  next hc => simp [hc]

theorem withinGrant_iff (g : Choice) (k : Kind) (r : Record) : withinGrant g k r = true ↔
    screenSpeed k r ≤ g.maxSpeed ∧ r.accel ≤ g.accel ∧ (k = .wind → g.wind = true) ∧
    (k = .play → (r.playCode?.map g.allows).getD false = true) := by
  cases k <;> simp [withinGrant, and_assoc]

/-- Settles O41: the screen's refusal, its acceptance, exactly what it accepts, and its ranges and grant terms. -/
theorem screenDecides : Obligations.ScreenDecides := by
  refine ⟨fun h p code s => exec_handOff_refused, ?_, ?_, ?_, ?_⟩
  · intro h p s ht hf htodo hp hs r
    rw [exec_handOff_accepted hf htodo hp hs, gained_untaken (accepted_untaken ht), accepted_eq]
  · intro c r aborted
    rw [screen_none_iff, takesPlan_iff]
  · intro r accel speed target ending
    have hending : positionEndOk r = true ↔ ending := positionEndOk_iff r
    have hspeed : speedInRange r.speed = true ↔ speed := speedInRange_iff _
    refine ⟨?_, ?_, ?_, ?_, ?_, ?_⟩
    · simp [fieldsOk, hspeed, hending, accel]
    · simp [fieldsOk, hspeed, hending, accel, and_assoc, Option.isSome_iff_ne_none]
    · simp only [fieldsOk, Bool.and_eq_true, decide_eq_true_eq, hspeed, locateTargetOk_iff, and_assoc]
      rfl
    · simp [fieldsOk, accel]
    · simp [fieldsOk, accel]
    · simp [fieldsOk, hspeed, accel]
  · intro g k r asked
    have hasked : screenSpeed k r = asked := by
      cases k
      case play => exact playSpeed_eq r
      all_goals rfl
    rw [withinGrant_iff, codeAllowed_iff, hasked]

end Sys2Proof.Rings

namespace Sys2Proof.Rings

open Sys2Proof Sys2Proof.Machine Sys2Proof.Laws Sys2Proof.TapePath Sys2Proof.Supervision

variable {c : Chip} {s : State} {h : HandFetch} {p : HostPort} {g : Seg}

/-! ## The capstan's OFF order (R61, R63) -/

theorem capstanOff_away {d : Drive} (full : Nat) (hp : d.pinch = .out ∨ d.pinch = .goingOut) :
    d.capstanOff full = { d with capRun := false, capSpeed := 0, capOffHeld := false } := by
  rcases hp with hp | hp <;> simp only [Drive.capstanOff, Drive.capstanStop, hp]

theorem capstanOff_near {d : Drive} (full : Nat) (hp : d.pinch = .goingIn ∨ d.pinch = .pinched) : d.capstanOff full = { d with
    pinch := .goingOut, pinchSpent := 0, capOffHeld := true, pinchTime := if d.pinch = .goingIn then d.pinchSpent else full } := by
  rcases hp with hp | hp <;> simp only [Drive.capstanOff, Drive.pinchAway, hp] <;> rfl

theorem capstanOff_out_iff {d : Drive} (full : Nat) : (d.capstanOff full).pinch = .out ↔ d.pinch = .out := by
  cases hp : d.pinch <;> simp [Drive.capstanOff, Drive.capstanStop, Drive.pinchAway, hp]

/-- The drive's part with the capstan ordered OFF where a condition holds. -/
def offIf (q : Prop) [Decidable q] (c : Chip) : Drive := if q then c.drv.capstanOff c.pinchFull else c.drv

theorem offIf_out {q : Prop} [Decidable q] (ho : (offIf q c).pinch = .out) : c.drv.pinch = .out := by
  unfold offIf at ho
  split at ho
  · exact (capstanOff_out_iff _).mp ho
  · exact ho

theorem offIf_accepted (q : Prop) [Decidable q] : offIf q (c.accepted h p) = offIf q c := rfl

/-! ## A slot accepted in MOVING (R115, R117, R129) -/

theorem exec_handOff_moving (ha : AcceptsInMotion h p g s) :
    exec .handOffScreen s = .next (s.ends (if h.ring = .urgent ∧ g.ring = .main then preempt g (s.chip.accepted h p)
      else if h.ring = g.ring ∧ isOpen g.kind g.record = true then settle (openEnds g (s.chip.accepted h p))
      else s.chip.accepted h p)) := by
  obtain ⟨-, ⟨hts, hest, hcur⟩, ⟨hf, htodo, hp⟩, hs⟩ := ha
  have hgained := gained_seg h.ring (s.chip.accepted h p) g (by exact hts) (by exact hest) (by exact hcur)
  rw [exec_handOff_accepted hf htodo hp hs, hgained]
  rfl

/-- An open PLAY with the pinch not OUT waits for it in PINCH_OUT, the capstan's OFF asked (R124). -/
theorem settle_playEnds_waits (st : Status) (hc : c.eng.cur = some g) (hp : c.drv.pinch ≠ .out) : settle (playEnds st c) = { c with
    eng := { c.eng with cur := some { g with phase := .pinchOut, endStatus := some st } }
    drv := c.drv.capstanOff c.pinchFull } := by
  simp only [playEnds, onSeg, onEng, onDrive, hc, Option.map_some]
  rw [if_neg (by simpa [capstanOff_out_iff] using hp)]
  rfl

/-- The part with its current segment and its drive's part replaced, as it stands where the segment is left. -/
def leaving (c : Chip) (g : Seg) (d : Drive) : Chip := { c with drv := d, eng := { c.eng with cur := some g } }

theorem leaving_stands (hc : c.eng.cur = some g) (d : Drive) : leaving c g d = onDrive (fun _ => d) c := by
  rw [leaving, ← hc]
  rfl

theorem preempt_eq (hc : c.eng.cur = some g) : preempt g c = settle (takeOne .urgent
    (endCur (if g.phase = .pinchOut then g.endStatus.getD .superseded else .superseded)
      (leaving c g (offIf (g.phase = .leadIn ∨ g.phase = .pinchIn ∨ g.phase = .capstan) c)))) := by
  by_cases hph : g.phase = .leadIn ∨ g.phase = .pinchIn ∨ g.phase = .capstan
  · rw [leaving_stands hc, preempt, if_pos hph, offIf, if_pos hph]
    rfl
  · rw [leaving_stands hc, preempt, if_neg hph, offIf, if_neg hph]
    rfl

/-- Where an open segment ends at once, the drive it leaves (R129; log 23). -/
theorem openEnds_leaving (hc : c.eng.cur = some g) (h : g.kind = .play → g.phase ≠ .pinchOut ∧ c.drv.pinch = .out) :
    ∃ g' : Seg, g'.ring = g.ring ∧ g'.slot = g.slot ∧ g'.record = g.record ∧ openEnds g c =
      (leaving c g' (offIf (g.kind = .play) c), .ends g.doneStatus) := by
  by_cases hk : g.kind = .play
  · obtain ⟨hph, hp⟩ := h hk
    refine ⟨{ g with phase := .pinchOut, endStatus := some (doneOr g) }, rfl, rfl, rfl, (openEnds_out c g hc hk hph hp).trans ?_⟩
    rw [offIf, if_pos hk]
    rfl
  · refine ⟨g, rfl, rfl, rfl, ?_⟩
    rw [openEnds, if_neg hk, offIf, if_neg hk, leaving_stands hc]
    rfl

/-! ## The take behind the segment left (R104, R114) -/

theorem takeOne_drv {id : RingId} {r : Record} {k : Kind} (hgo : GoesOn r k c)
    (hr : ((c.pln.ring id).slot (c.pln.ring id).take).record = some r)
    (ho : isOpen k r = true → (c.pln.ring id).queued = 1) : (takeOne id c).1.drv = c.drv := by
  obtain ⟨b, tm, hone⟩ := takeOne_goes hgo hr ho
  obtain ⟨pl, hpl⟩ := takeSlot_frame id r c
  rw [hone, hpl]

section Behind

variable {st : Status} {d : Drive} {k : Kind}

theorem accepted_other {id : RingId} (hid : id ≠ h.ring) : (c.accepted h p).pln.ring id = c.pln.ring id := by
  unfold Chip.accepted
  rw [ring_withRing, Function.update_of_ne hid]
  cases id <;> rfl

/-- The part with the slot accepted and the segment before it ended, which the take meets. -/
def behind (c : Chip) (h : HandFetch) (p : HostPort) (g : Seg) (d : Drive) (st : Status) : Chip :=
  endCur st (leaving (c.accepted h p) g d)

theorem behind_eng : (behind c h p g d st).eng = { c.eng with cur := none } := endCur_eng st _

theorem behind_frame : (behind c h p g d st).trk = c.trk ∧ (behind c h p g d st).gnt = c.gnt ∧ (behind c h p g d st).cue = c.cue ∧
    (behind c h p g d st).set = c.set ∧ (behind c h p g d st).mbx = c.mbx ∧ (behind c h p g d st).sup = c.sup ∧
    (behind c h p g d st).drv = d := by
  simp [behind, leaving, Chip.accepted]

theorem behind_own : ((behind c h p g d st).pln.ring h.ring).take = (c.pln.ring h.ring).take ∧
    ((behind c h p g d st).pln.ring h.ring).queued = (c.pln.ring h.ring).queued + 1 ∧
    ((behind c h p g d st).pln.ring h.ring).slots.length = (c.pln.ring h.ring).slots.length := by
  obtain ⟨htake, -, hqueued, hlen, -⟩ := endCur_ring st (c := leaving (c.accepted h p) g d) rfl h.ring
  obtain ⟨htake', -, hlen'⟩ := accepted_take c h p
  have hqueued' : ((c.accepted h p).pln.ring h.ring).queued = (c.pln.ring h.ring).queued + 1 := by
    rw [accepted_ring]
    rfl
  exact ⟨htake.trans htake', hqueued.trans hqueued', hlen.trans hlen'⟩

/-- The slot accepted is the one the take meets. -/
theorem behind_record (hi : (c.pln.ring h.ring).take = (c.pln.ring h.ring).intake)
    (hlt : (c.pln.ring h.ring).intake < (c.pln.ring h.ring).slots.length)
    (hne : g.ring = h.ring → g.slot ≠ (c.pln.ring h.ring).intake) :
    (((behind c h p g d st).pln.ring h.ring).slot ((behind c h p g d st).pln.ring h.ring).take).record = some h.record := by
  obtain ⟨htake, -⟩ := behind_own (c := c) (h := h) (p := p) (g := g) (d := d) (st := st)
  obtain ⟨-, -, -, -, hslots⟩ := endCur_ring st (c := leaving (c.accepted h p) g d) rfl h.ring
  have hother : ¬ (g.ring = h.ring ∧ g.slot = (c.pln.ring h.ring).take) := by
    rintro ⟨hr, hs⟩
    exact hne hr (hs.trans hi)
  have hrec := accepted_record (p := p) hi hlt
  rw [(accepted_take c h p).1] at hrec
  rw [htake, behind, hslots _ hother]
  exact hrec

theorem behind_other {id : RingId} (hid : id ≠ h.ring) :
    ((behind c h p g d st).pln.ring id).take = (c.pln.ring id).take ∧
    ((behind c h p g d st).pln.ring id).intake = (c.pln.ring id).intake ∧
    ((behind c h p g d st).pln.ring id).queued = (c.pln.ring id).queued := by
  obtain ⟨htake, hintake, hqueued, -⟩ := endCur_ring st (c := leaving (c.accepted h p) g d) rfl id
  have hring : (leaving (c.accepted h p) g d).pln.ring id = c.pln.ring id := accepted_other (p := p) hid
  rw [hring] at htake hintake hqueued
  exact ⟨htake, hintake, hqueued⟩

theorem behind_list : (behind c h p g d st).pln.list = c.pln.list ++ [.ret g.ring g.slot st c.trk.position c.clock] := by
  obtain ⟨-, -, hlist⟩ := endCur_rings st (leaving (c.accepted h p) g d) g rfl
  exact hlist.trans (congrArg (· ++ _) (accepted_pln c h p).2.1)

theorem behind_posted (hm : c.mode = .running) : (behind c h p g d st).evt.posted = c.evt.posted ++ g.reported st c :=
  endCur_reported st (c := leaving (c.accepted h p) g d) rfl hm

/-- An urgent slot accepted leaves what a flush of the main ring returns (R116). -/
theorem behind_mainReturns (hr : h.ring = .urgent) (f : Status) : (behind c h p g d st).mainReturns f = c.mainReturns f := by
  have hmain : (c.accepted h p).pln.main = c.pln.main := accepted_other (id := .main) (by rw [hr]; decide)
  refine (endCur_mainReturns st f (c := leaving (c.accepted h p) g d) rfl).trans ?_
  simp only [Chip.mainReturns, leaving, hmain]
  rfl

/-- With the urgent ring empty and the slot's own ring empty before it, the take is of the slot accepted (R113). -/
theorem nextRing_behind (hu : c.pln.urgent.queued = 0) : nextRing (behind c h p g d st) = some h.ring := by
  obtain ⟨-, hqueued, -⟩ := behind_own (c := c) (h := h) (p := p) (g := g) (d := d) (st := st)
  unfold nextRing
  cases hr : h.ring with
  | urgent =>
    rw [hr] at hqueued
    have hne : (behind c h p g d st).pln.urgent.queued ≠ 0 := ne_of_eq_of_ne hqueued (Nat.succ_ne_zero _)
    rw [if_pos hne]
  | main =>
    obtain ⟨-, -, hother⟩ := behind_other (c := c) (h := h) (p := p) (g := g) (d := d) (st := st) (id := .urgent)
      (by rw [hr]; decide)
    rw [hr] at hqueued
    have hne : (behind c h p g d st).pln.main.queued ≠ 0 := ne_of_eq_of_ne hqueued (Nat.succ_ne_zero _)
    have hzero : (behind c h p g d st).pln.urgent.queued = 0 := hother.trans hu
    rw [if_neg (not_not_intro hzero), if_pos hne]

theorem canTake_leaving (ha : AcceptsInMotion h p g s) (g' : Seg) (d : Drive) :
    canTake (leaving (s.chip.accepted h p) g' d) = true := by
  obtain ⟨-, ⟨hts, hest, -⟩, -, -⟩ := ha
  simp [canTake, leaving, Chip.accepted, hts, hest]

end Behind

/-! ## The segment left, and the take that follows -/

section Taken

variable {st : Status} {d : Drive} {k : Kind}

/-- What a slot accepted in MOVING is taken behind: its ring's indices stand together with nothing queued, and the
current segment is no slot of it that the intake reaches. -/
structure TakenAlone (h : HandFetch) (g : Seg) (k : Kind) (c : Chip) : Prop where
  goes : GoesOn h.record k c
  urgent : c.pln.urgent.queued = 0
  empty : (c.pln.ring h.ring).queued = 0
  index : (c.pln.ring h.ring).take = (c.pln.ring h.ring).intake
  inside : (c.pln.ring h.ring).intake < (c.pln.ring h.ring).slots.length
  apart : g.ring = h.ring → g.slot ≠ (c.pln.ring h.ring).intake

theorem goesOn_behind (hgo : GoesOn h.record k c) (hd : d.pinch = .out → c.drv.pinch = .out) :
    GoesOn h.record k (behind c h p g d st) := by
  obtain ⟨htrk, hgnt, -, hset, -, -, hdrv⟩ := behind_frame (c := c) (h := h) (p := p) (g := g) (d := d) (st := st)
  refine goesOn_congr hgo ?_ htrk hgnt hset ?_
  · rw [behind_eng]
  · rw [hdrv]
    exact hd

/-- The take behind the segment left: what the slot and its ring come to, and what stands (R104, R114). -/
theorem taken_behind (hts : s.chip.sup.ts = .moving) (hto : TakenAlone h g k s.chip)
    (hd : d.pinch = .out → s.chip.drv.pinch = .out) : let x := behind s.chip h p g d st
    TakenInMotion h.ring (s.chip.pln.ring h.ring).intake h.record k s (s.ends (takeOne h.ring x).1) ∧
    (s.ends (takeOne h.ring x).1).chip.pln = (takeSlot h.ring h.record x).pln ∧
    (s.ends (takeOne h.ring x).1).chip.evt = x.evt ∧ (takeOne h.ring x).1.drv = d ∧ (takeOne h.ring x).2 = .goes := by
  intro x
  obtain ⟨htrk, hgnt, hcue, hset, hmbx, hsup, hdrv⟩ :=
    behind_frame (c := s.chip) (h := h) (p := p) (g := g) (d := d) (st := st)
  obtain ⟨htake, hqueued, hlen⟩ := behind_own (c := s.chip) (h := h) (p := p) (g := g) (d := d) (st := st)
  have hgo : GoesOn h.record k x := goesOn_behind hto.goes hd
  have hrec := behind_record (p := p) (d := d) (st := st) hto.index hto.inside hto.apart
  have hone : isOpen k h.record = true → (x.pln.ring h.ring).queued = 1 := fun _ => by rw [hqueued, hto.empty]
  obtain ⟨htaken, hpln, hevt, -, hgoes⟩ := taken_of_takeOne hgo htrk hgnt hcue hset hmbx hsup (by rw [behind_eng]) hts hlen
    (by rw [htake, hlen, hto.index]; exact hto.inside) hrec hone
  rw [htake, hto.index] at htaken
  exact ⟨htaken, hpln, hevt, (takeOne_drv hgo hrec hone).trans hdrv, hgoes⟩

theorem settle_of_goes {y : Chip × SegOut} (hy : y.2 = .goes) : settle y = y.1 := by
  obtain ⟨x, o⟩ := y
  cases hy
  rfl

/-- A preemption takes the slot accepted behind the segment it ends (R115). -/
theorem exec_handOff_preempts (ha : AcceptsInMotion h p g s) (hto : TakenAlone h g k s.chip) (hu : h.ring = .urgent)
    (hg : g.ring = .main) : exec .handOffScreen s = .next (s.ends (takeOne h.ring (behind s.chip h p g
      (offIf (g.phase = .leadIn ∨ g.phase = .pinchIn ∨ g.phase = .capstan) s.chip)
      (if g.phase = .pinchOut then g.endStatus.getD .superseded else .superseded))).1) := by
  have hx := exec_handOff_moving ha
  obtain ⟨-, ⟨hts, -, hcur⟩, -, -⟩ := ha
  rw [if_pos ⟨hu, hg⟩, preempt_eq (c := s.chip.accepted h p) hcur, ← hu] at hx
  refine hx.trans ?_
  obtain ⟨-, -, -, -, hgoes⟩ := taken_behind (p := p) hts hto
    (d := offIf (g.phase = .leadIn ∨ g.phase = .pinchIn ∨ g.phase = .capstan) s.chip)
    (st := if g.phase = .pinchOut then g.endStatus.getD .superseded else .superseded) offIf_out
  exact congrArg (fun y => Host.Outcome.next (s.ends y)) (settle_of_goes hgoes)

/-- A slot accepted behind an open segment of its own ring is taken behind it, where that ends at once (R129; log 23). -/
theorem exec_handOff_opens (ha : AcceptsInMotion h p g s) (hto : TakenAlone h g k s.chip) (hr : h.ring = g.ring)
    (hopen : isOpen g.kind g.record = true) (hplay : g.kind = .play → g.phase ≠ .pinchOut ∧ s.chip.drv.pinch = .out) :
    ∃ g' : Seg, g'.ring = g.ring ∧ g'.slot = g.slot ∧ g'.record = g.record ∧
      exec .handOffScreen s = .next (s.ends (takeOne h.ring (behind s.chip h p g'
        (offIf (g.kind = .play) s.chip) g.doneStatus)).1) := by
  have hno : ¬ (h.ring = .urgent ∧ g.ring = .main) := by
    rintro ⟨hu, hg⟩
    simp [hu, hg] at hr
  have hx := exec_handOff_moving ha
  obtain ⟨g', hring, hslot, hrec, hends⟩ := openEnds_leaving (c := s.chip.accepted h p) ha.state.2.2 hplay
  refine ⟨g', hring, hslot, hrec, ?_⟩
  rw [if_neg hno, if_pos ⟨hr, hopen⟩, hends, offIf_accepted] at hx
  obtain ⟨hgo, hurgent, hempty, hindex, hinside, hapart⟩ := hto
  obtain ⟨-, -, -, -, hgoes⟩ := taken_behind (p := p) (g := g') ha.state.1
    ⟨hgo, hurgent, hempty, hindex, hinside, by rw [hring, hslot]; exact hapart⟩
    (d := offIf (g.kind = .play) s.chip) (st := g.doneStatus) offIf_out
  rwa [settle_takes _ (canTake_leaving ha g' _) (nextRing_behind (c := s.chip) hurgent) (Prod.ext rfl hgoes)] at hx

/-- What the take behind the segment left makes of the rings, the slot writes and the posts (R92, R107, R116, R135). -/
theorem rings_behind (hm : s.chip.mode = .running) (hts : s.chip.sup.ts = .moving) (hto : TakenAlone h g k s.chip)
    (hd : d.pinch = .out → s.chip.drv.pinch = .out) (hrings : h.ring = .urgent ∧ g.ring = .main ∨ h.ring = g.ring) :
    let t := s.ends (takeOne h.ring (behind s.chip h p g d st)).1
    (t.chip.pln.ring h.ring).queued = 0 ∧ ((t.chip.pln.ring g.ring).slot g.slot).view = .host ∧
    t.chip.pln.list = s.chip.pln.list ++ [.ret g.ring g.slot st s.chip.trk.position s.chip.clock,
      .mark h.ring (s.chip.pln.ring h.ring).intake] ++
      (if h.ring = .urgent ∧ h.record.flush = true then s.chip.mainReturns .flushed else []) ∧
    t.chip.evt.posted = s.chip.evt.posted ++ g.reported st s.chip ∧
    (h.ring = .urgent → h.record.flush = true → t.chip.pln.main.queued = 0 ∧
      t.chip.pln.main.take = s.chip.pln.main.intake ∧ t.chip.pln.main.intake = s.chip.pln.main.intake) ∧
    (h.ring = .urgent → h.record.flush = false → t.chip.pln.main.queued = s.chip.pln.main.queued ∧
      t.chip.pln.main.take = s.chip.pln.main.take ∧ t.chip.pln.main.intake = s.chip.pln.main.intake) := by
  intro t
  set x := behind s.chip h p g d st
  obtain ⟨-, hpln, hevt, -, -⟩ := taken_behind (p := p) (st := st) hts hto hd
  obtain ⟨htake, hqueued, -⟩ := behind_own (c := s.chip) (h := h) (p := p) (g := g) (d := d) (st := st)
  obtain ⟨-, -, -, hslots, hlist, hflushed, hkept, -⟩ := takeSlot_ring h.ring h.record x
  have hhost : ((x.pln.ring g.ring).slot g.slot).view = .host :=
    endCur_slot st (c := leaving (s.chip.accepted h p) g d) rfl
  have hmain (hu : h.ring = .urgent) : x.pln.main.take = s.chip.pln.main.take ∧
      x.pln.main.intake = s.chip.pln.main.intake ∧ x.pln.main.queued = s.chip.pln.main.queued :=
    behind_other (id := .main) (by rw [hu]; decide)
  refine ⟨?_, ?_, ?_, ?_, fun hu hf => ?_, fun hu hf => ?_⟩
  · rw [hpln, takeSlot_queued, hqueued, hto.empty]
  · rw [hpln]
    rcases hrings with ⟨hu, hg⟩ | hr
    · rw [hg] at hhost ⊢
      cases hf : h.record.flush with
      | true => exact (congrArg (fun q => (Machine.Ring.slot q g.slot).view) (hflushed hu hf)).trans (flushed_host x.pln.main g.slot hhost)
      | false => exact (congrArg (fun q => (Machine.Ring.slot q g.slot).view) (hkept hu hf)).trans hhost
    · have hne : g.slot ≠ (x.pln.ring h.ring).take := by
        rw [htake, hto.index]
        exact hto.apart hr.symm
      rw [← hr] at hhost ⊢
      rw [hslots _ hne, hhost]
  · rw [hpln, hlist, behind_list, htake, hto.index]
    split
    next hf => rw [behind_mainReturns hf.1, List.append_assoc s.chip.pln.list]; rfl
    · rw [List.append_assoc s.chip.pln.list]; rfl
  · rw [hevt, behind_posted hm]
  · obtain ⟨-, hintake, -⟩ := hmain hu
    obtain ⟨-, hfree, -⟩ := ring_free x.pln.main.queuedSlots x.pln.main
    rw [hpln, hflushed hu hf]
    exact ⟨rfl, hintake, hfree.trans hintake⟩
  · obtain ⟨htake', hintake, hqueued'⟩ := hmain hu
    rw [hpln, hkept hu hf]
    exact ⟨hqueued', htake', hintake⟩

end Taken

/-- Settles O29: what a slot accepted in MOVING is taken behind, and what it waits behind. -/
theorem takesInMotion : Obligations.TakesInMotion := by
  refine ⟨?_, ?_⟩
  · intro h p g k s ha hgo r hurgent hempty hindex hinside hapart _ preempts opens offs st flushes d hcase
    have hto : TakenAlone h g k s.chip := ⟨hgo, hurgent, hempty, hindex, hinside, hapart⟩
    have hexcl : preempts → ¬ opens := by
      rintro ⟨hu, hg⟩ ⟨hr, -⟩
      simp [hu, hg] at hr
    obtain ⟨g', d', hring, hslot, hrec, hout, hon, hoff, hx⟩ : ∃ (g' : Seg) (d' : Drive), g'.ring = g.ring ∧ g'.slot = g.slot ∧
        g'.record = g.record ∧ (d'.pinch = .out → d.pinch = .out) ∧ (offs → d' = d.capstanOff s.chip.pinchFull) ∧
        (¬ offs → d' = d) ∧ exec .handOffScreen s = .next (s.ends (takeOne h.ring (behind s.chip h p g' d' st)).1) := by
      rcases hcase with hpre | hopen
      · have hst : st = if g.phase = .pinchOut then g.endStatus.getD .superseded else .superseded := if_neg (hexcl hpre)
        refine ⟨g, _, rfl, rfl, rfl, offIf_out, fun ho => ?_, fun ho => ?_, hst ▸ exec_handOff_preempts ha hto hpre.1 hpre.2⟩
        · exact if_pos (ho.elim And.right fun ho => absurd ho.1 (hexcl hpre))
        · exact if_neg fun hph => ho (.inl ⟨hpre, hph⟩)
      · obtain ⟨g', hring, hslot, hrec, hx⟩ := exec_handOff_opens ha hto hopen.1 hopen.2.1 hopen.2.2
        have hst : st = g.doneStatus := if_pos hopen
        refine ⟨g', _, hring, hslot, hrec, offIf_out, fun ho => ?_, fun ho => ?_, hst ▸ hx⟩
        · exact if_pos (ho.elim (fun ho => absurd hopen (hexcl ho.1)) And.right)
        · exact if_neg fun hk => ho (.inr ⟨hopen, hk⟩)
    have hto' : TakenAlone h g' k s.chip :=
      ⟨hgo, hurgent, hempty, hindex, hinside, by rw [hring, hslot]; exact hto.apart⟩
    have hrings : h.ring = .urgent ∧ g'.ring = .main ∨ h.ring = g'.ring := by
      rw [hring]
      exact hcase.imp id And.left
    obtain ⟨htaken, -, -, hdrv, -⟩ := taken_behind (p := p) (st := st) ha.state.1 hto' hout
    obtain ⟨hqueued, hview, hlist, hposted, hflush, hkept⟩ := rings_behind (p := p) (st := st) ha.mode ha.state.1 hto' hout hrings
    have hreported : g'.reported st s.chip = g.reported st s.chip := by
      simp only [Seg.reported, hring, hslot, hrec]
    rw [hring, hslot] at hview hlist
    rw [hreported] at hposted
    refine ⟨_, hx, htaken, hqueued, hview, hlist, hposted, fun hf => hflush hf.1 hf.2,
      fun hu hf => hkept hu (by simpa [flushes, hu] using hf), ?_⟩
    obtain ⟨hrun, hspeed, hpinch, hspent⟩ := done_capstan (takeOne h.ring (behind s.chip h p g' d' st)).1
    rw [hdrv] at hrun hspeed hpinch hspent
    have htime := done_pinchTime (takeOne h.ring (behind s.chip h p g' d' st)).1
    have hheld := done_capOffHeld (takeOne h.ring (behind s.chip h p g' d' st)).1
    rw [hdrv] at htime hheld
    simp only [State.ends, hrun, hspeed, hpinch, hspent, htime, hheld]
    refine ⟨fun ho => ?_, fun ho hp => ?_, fun ho hp => ?_⟩
    · simp [hoff ho]
    · simp [hon ho, capstanOff_away _ hp]
    · simp [hon ho, capstanOff_near _ hp, Chip.pinchFull]
  · intro h p g s ha c d
    have hx := exec_handOff_moving ha
    have hcur : c.eng.cur = some g := ha.state.2.2
    refine ⟨fun hr hopen hk hph hpinch => ?_, fun hpre hopen => ?_⟩
    · have hno : ¬ (h.ring = .urgent ∧ g.ring = .main) := by
        rintro ⟨hu, hg⟩
        simp [hu, hg] at hr
      have hends : openEnds g c = playEnds (doneOr g) c := by rw [openEnds, if_pos hk, if_neg hph]
      rw [if_neg hno, if_pos ⟨hr, hopen⟩, hends, settle_playEnds_waits _ hcur hpinch] at hx
      have hoff : d.capstanOff s.chip.pinchFull = if d.pinch = .goingOut then
          { d with capRun := false, capSpeed := 0, capOffHeld := false } else { d with
            pinch := .goingOut, pinchSpent := 0, capOffHeld := true
            pinchTime := if d.pinch = .goingIn then d.pinchSpent else s.chip.set.gen.pinchTime } := by
        split
        next hgoing => exact capstanOff_away _ (.inr hgoing)
        next hgoing => exact capstanOff_near _ (by cases hp : d.pinch <;> simp_all)
      rw [← hoff]
      exact hx
    · rw [if_neg hpre] at hx
      by_cases ho : h.ring = g.ring ∧ isOpen g.kind g.record = true
      · have hplay : g.kind = .play ∧ g.phase = .pinchOut := by
          by_contra hno
          exact hopen ⟨ho.1, ho.2, fun hk hph => hno ⟨hk, hph⟩⟩
        have hends : openEnds g c = (c, .goes) := by rw [openEnds, if_pos hplay.1, if_pos hplay.2]
        rw [if_pos ho, hends, settle_goes] at hx
        exact hx
      · rw [if_neg ho] at hx
        exact hx

end Sys2Proof.Rings

namespace Sys2Proof.Locating

open Sys2Proof Sys2Proof.Machine Sys2Proof.Laws Sys2Proof.TapePath Sys2Proof.Supervision

variable {c : Chip} {g : Seg} {l : Loc} {r : Record} {q : Cue}

/-! ## The latch of a LOCATE (R142, R143) -/

theorem positionInRange_iff (v : Int) : positionInRange v = true ↔ -16777216 ≤ v ∧ v ≤ 16777215 := decide_eq_true_iff

theorem latchLocate_lost (hv : c.trk.valid = false) (r : Record) : latchLocate c r = .inr .missed := if_pos hv

theorem latchLocate_target (hv : c.trk.valid = true) (hu : r.useCue = false) :
    latchLocate c r = .inl ⟨r.target, r.tolerance, r.speed.natAbs, 1⟩ := by
  simp [latchLocate, hv, hu]

theorem latchLocate_absent (hv : c.trk.valid = true) (hu : r.useCue = true) (hq : cueOf c r = none) :
    latchLocate c r = .inr .noCue := by
  simp [latchLocate, hv, hu, hq]

theorem latchLocate_cue (hv : c.trk.valid = true) (hu : r.useCue = true) (hq : cueOf c r = some q) :
    latchLocate c r = if positionInRange (q.position + r.offset) then
      .inl ⟨q.position + r.offset, if r.tolerance = 0 then q.tolerance else r.tolerance,
        if q.limit = 0 then r.speed.natAbs else min r.speed.natAbs q.limit, 1⟩
    else .inr .missed := by
  simp [latchLocate, hv, hu, hq]

/-- A latch begins the first approach (R142). -/
theorem latchLocate_approach (h : latchLocate c r = .inl l) : l.approach = 1 := by
  cases hv : c.trk.valid with
  | false => simp [latchLocate_lost hv] at h
  | true =>
    cases hu : r.useCue with
    | false =>
      rw [latchLocate_target hv hu] at h
      exact Sum.inl.inj h ▸ rfl
    | true =>
      cases hq : cueOf c r with
      | none => simp [latchLocate_absent hv hu hq] at h
      | some q =>
        rw [latchLocate_cue hv hu hq] at h
        split at h
        · exact Sum.inl.inj h ▸ rfl
        · cases h

/-! ## The take of a LOCATE from rest (R112, R142, R144) -/

theorem withinTolerance_iff (c : Chip) (l : Loc) :
    withinTolerance c l = true ↔ (l.target - c.trk.position).natAbs ≤ l.tolerance := decide_eq_true_iff

/-- The segment of a LOCATE taken with a latch and the pinch OUT (R112, R142). -/
def latchedLocate (c : Chip) (id : RingId) (r : Record) (l : Loc) : Seg :=
  { ring := id, slot := (c.pln.ring id).take, record := r, kind := .locate, dir := dirOf (l.target - c.trk.position)
    phase := .approach, endStatus := none, clipped := false, timer := none, loc := some l }

/-- That segment judged at the start of its approach (R144). -/
def begunLocate (c : Chip) (id : RingId) (r : Record) (l : Loc) (clipped : Bool) : Seg :=
  { latchedLocate c id r l with clipped, phase := if withinTolerance c l then .brake else .approach }

theorem begunLocate_phase (c : Chip) (id : RingId) (r : Record) (l : Loc) (b : Bool) : (begunLocate c id r l b).phase =
    if (l.target - c.trk.position).natAbs ≤ l.tolerance then .brake else .approach :=
  if_congr (withinTolerance_iff c l) rfl rfl

/-- With no end flag a LOCATE taken at rest goes on, judged at the start of its approach (R114, R144). -/
theorem takeOne_locate {id : RingId} (hk : r.kind? = some .locate) (hl : latchLocate c r = .inl l)
    (hflag : c.trk.endFlag = .none) (href : c.eng.ref = 0) (hpinch : c.drv.pinch = .out) (hlim : ∀ d, speedLimit c d ≠ 0)
    (hr : ((c.pln.ring id).slot (c.pln.ring id).take).record = some r) :
    ∃ b, takeOne id c =
      ({ takeSlot id r c with eng := c.eng.took (begunLocate c id r l b) (c.sup.ts == .held) }, .goes) := by
  obtain ⟨p, hp⟩ := takeSlot_frame id r c
  let taken : Chip := { c with pln := p, eng := c.eng.took (latchedLocate c id r l) (c.sup.ts == .held) }
  have hlatch : latchLocate { c with pln := p } r = .inl l := (latchLocate_congr (c := c) rfl rfl r).trans hl
  have hone : takeOne id c = judgeTake (latchedLocate c id r l) taken := by
    simp only [takeOne, hr, Option.getD_some, hk, hp, hpinch, hlatch, if_true]
    rfl
  obtain ⟨b, hjudge⟩ := judgeTake_locate taken (latchedLocate c id r l) l rfl rfl rfl hflag href hpinch hlim
  refine ⟨b, ?_⟩
  rw [hone, hjudge, hp]
  rfl

/-! ## The millisecond of a LOCATE (R119, R143 to R145) -/

/-- The current LOCATE in a phase that moves the tape or brings it to rest. -/
structure Approaching (g : Seg) (l : Loc) : Prop where
  kind : g.kind = .locate
  latch : g.loc = some l
  phase : g.phase = .approach ∨ g.phase = .creep ∨ g.phase = .brake

/-- The speed a LOCATE asks for by its phase (R143, R144). -/
def locateSpeed (c : Chip) (g : Seg) (l : Loc) : Int :=
  if g.phase = .approach then signed g.dir l.ceiling
  else if g.phase = .creep then signed g.dir (min c.profile.creepSpeed l.ceiling)
  else 0

theorem unlimitedTarget_locate (h : Approaching g l) : unlimitedTarget c g = locateSpeed c g l := by
  rcases h.phase with hp | hp | hp <;>
    simp [unlimitedTarget, locateSpeed, approachTarget, creepSpeedOf, hp, h.kind, h.latch]

/-- The phase a LOCATE is left in by an update of the reference speed (R144, R145). -/
def judgedPhase (moved : Bool) (c : Chip) (g : Seg) (l : Loc) : Phase :=
  if moved = false then g.phase
  else if withinTolerance c l then .brake
  else if g.phase = .approach ∧ nearTarget c g l then .creep
  else g.phase

section Judged

variable {moved : Bool}

theorem judgedPhase_brake (hp : g.phase = .brake) : judgedPhase moved c g l = .brake := by
  simp [judgedPhase, hp]

theorem judgedPhase_unmoved (hm : moved = false) : judgedPhase moved c g l = g.phase := if_pos hm

theorem judgedPhase_within (hm : moved = true) (hw : withinTolerance c l = true) : judgedPhase moved c g l = .brake := by
  simp [judgedPhase, hm, hw]

theorem judgedPhase_near (hm : moved = true) (hw : ¬ withinTolerance c l = true) (hp : g.phase = .approach)
    (hn : nearTarget c g l = true) : judgedPhase moved c g l = .creep := by
  rw [judgedPhase, if_neg (by simp [hm]), if_neg hw, if_pos ⟨hp, hn⟩]

theorem judgedPhase_far (hm : moved = true) (hw : ¬ withinTolerance c l = true)
    (hn : ¬ (g.phase = .approach ∧ nearTarget c g l = true)) : judgedPhase moved c g l = g.phase := by
  rw [judgedPhase, if_neg (by simp [hm]), if_neg hw, if_neg hn]

end Judged

/-- The part with the phase of its current LOCATE judged. -/
def judgedLocate (moved : Bool) (c : Chip) (g : Seg) (l : Loc) : Chip :=
  { c with eng := { c.eng with cur := some { g with phase := judgedPhase moved c g l } } }

/-- A LOCATE whose target has not fallen to 0 goes on, its phase judged where the reference speed has moved. -/
theorem judgeSpeed_locate (moved : Bool) (hc : c.eng.cur = some g) (h : Approaching g l) (hz : fallenToZero c g = false) :
    judgeSpeed moved c g = (judgedLocate moved c g l, .goes) := by
  have hsame (ph : Phase) (hp : g.phase = ph) : c = { c with eng := { c.eng with cur := some { g with phase := ph } } } := by
    subst hp
    rw [← hc]
  by_cases hb : g.phase = .brake
  · rw [judgedLocate, judgedPhase_brake hb, ← hsame _ hb]
    simp [judgeSpeed, hz, hb]
  · have hp : g.phase = .approach ∨ g.phase = .creep := by
      rcases h.phase with hp | hp | hp
      · exact .inl hp
      · exact .inr hp
      · exact absurd hp hb
    have hjudge : judgeSpeed moved c g = (if moved then judgeLocate none c else c, .goes) := by
      rcases hp with hp | hp <;> simp [judgeSpeed, hz, hp]
    rw [hjudge]
    cases moved with
    | false => exact congrArg (·, SegOut.goes) (hsame _ rfl)
    | true =>
      rw [if_pos rfl, judgeLocate_none hc h.latch hp]
      rfl

section Update

variable {s : State}

/-- The reference speed a millisecond on (R119). -/
def nextRef (c : Chip) : Int := (c.eng.move (targetSpeed c) (effectiveAccel c)).ref

/-- The part with the reference speed moved, as the LOCATE finds it when it judges that speed. -/
structure LocateMoved (s : State) (c : Chip) : Prop where
  engine : c.eng.ref = nextRef s.chip ∧ c.eng.est = .running
  state : c.sup.ts = .moving
  rest : c.trk = s.chip.trk ∧ c.gnt = s.chip.gnt ∧ c.set = s.chip.set
  rates : c.profile = s.chip.profile ∧ effectiveAccel c = effectiveAccel s.chip

/-- The millisecond in MOVING with a speed that is not 0 after it, which leaves nothing to judge at rest: the LOCATE's
phase is judged by the moved reference speed. -/
theorem exec_locateUpdate (hm : s.chip.mode ≠ .bypass) (ht : s.chip.sup.ts = .moving) (he : s.chip.eng.est = .running)
    (hc : s.chip.eng.cur = some g) (h : Approaching g l) (hz : g.phase ≠ .brake → targetSpeed s.chip ≠ 0)
    (hrolls : nextRef s.chip ≠ 0 ∨ s.chip.trk.tapeSpeed ≠ 0) :
    ∃ g' c, SameSeg g g' ∧ LocateMoved s c ∧ exec .referenceSpeedUpdate s =
      .next (s.ends (judgedLocate (decide (nextRef s.chip ≠ s.chip.eng.ref)) c g' l)) := by
  have hrel : g.phase ≠ .release := by rcases h.phase with hp | hp | hp <;> simp [hp]
  have hout : g.phase ≠ .pinchOut := by rcases h.phase with hp | hp | hp <;> simp [hp]
  obtain ⟨-, b, tm, c, heng, -, -, hsup, htrk, hgnt, -, hset, -, -, -, hx⟩ := update_moving g s hm ht hc hrel
  simp only [if_neg hout] at heng hx
  let g' : Seg := { g with clipped := b, timer := tm }
  have h' : Approaching g' l := ⟨h.kind, h.latch, h.phase⟩
  have hcur : c.eng.cur = some g' := by rw [heng]
  have hts : c.sup.ts = .moving := by rw [hsup]; exact ht
  have hest : c.eng.est = .running := by rw [heng]; exact he
  have hprofile : c.profile = s.chip.profile := by simp only [Chip.profile, hset, hsup, Supervisor.tick]
  have haccel : effectiveAccel c = effectiveAccel s.chip :=
    effectiveAccel_eq hgnt hset (by rw [hsup]; rfl) (by rw [hcur, hc]; rfl)
  have hspeed : locateSpeed c g' l = locateSpeed s.chip g l := by simp only [locateSpeed, hprofile, g']
  have hfall : fallenToZero c g' = false := by
    by_cases hb : g.phase = .brake
    · have hzero : unlimitedTarget c g' = 0 := (unlimitedTarget_locate h').trans (by simp [locateSpeed, g', hb])
      simp [fallenToZero, hzero]
    · refine fallenToZero_moving ?_
      rw [limitTarget_eq hgnt htrk hset, unlimitedTarget_locate h', hspeed, ← unlimitedTarget_locate h, ← targetSpeed_cur hc]
      exact hz hb
  have href : c.eng.ref = nextRef s.chip := by rw [heng]; rfl
  have hrolling (hr : c.eng.ref = 0) : c.trk.tapeSpeed ≠ 0 := htrk ▸ hrolls.resolve_left fun hn => hn (href ▸ hr)
  refine ⟨g', c, ⟨b, tm, rfl⟩, ⟨⟨href, hest⟩, hts, ⟨htrk, hgnt, hset⟩, hprofile, haccel⟩, hx.trans ?_⟩
  rw [judgeCurrent_cur _ hcur hts hest, judgeSpeed_locate _ hcur h' hfall, settle_goes,
    starved_idle (by simp [judgedLocate, hest]), judgeBrake_moving (c := judgedLocate _ c g' l) fun _ _ _ _ hr => hrolling hr]
  rfl

/-- Whether the moved speed points at the target from within the braking and the creep distance (R144). -/
theorem nearTarget_moved (k : LocateMoved s c) {g' : Seg} (hg : SameSeg g g') (l : Loc) :
    nearTarget c g' l = true ↔ g.dir ≠ none ∧ dirOf (nextRef s.chip) = g.dir ∧
      (l.target - s.chip.trk.position).natAbs * (25 * effectiveAccel s.chip) ≤
        (nextRef s.chip).natAbs * (nextRef s.chip).natAbs + s.chip.profile.creepDistance * (25 * effectiveAccel s.chip) := by
  obtain ⟨b, tm, rfl⟩ := hg
  obtain ⟨hprofile, haccel⟩ := k.rates
  simp only [nearTarget, decide_eq_true_eq, remaining, k.engine.1, k.rest.1, hprofile, haccel]

end Update

/-- Settles O33: the latch by its cases, the take judged at the start of its approach, and the update's judged phase. -/
theorem locateApproach : Obligations.LocateApproach := by
  refine ⟨fun c r => ⟨fun hv => latchLocate_lost hv r, latchLocate_target, latchLocate_absent, fun q hv hu hq => ?_⟩, ?_, ?_⟩
  · intro target inRange
    rw [latchLocate_cue hv hu hq]
    exact ⟨fun h => if_neg fun k => h ((positionInRange_iff _).1 k), fun h => if_pos ((positionInRange_iff _).2 h)⟩
  · intro h p l s hts hest hcur href hflag hpinch hf htodo hp hscreen hring hk hl hurg hmain htake hlt _ hlim err
    have hi : (s.chip.pln.ring h.ring).take = (s.chip.pln.ring h.ring).intake := by rw [hring]; exact htake
    have hlen : (s.chip.pln.ring h.ring).intake < (s.chip.pln.ring h.ring).slots.length := by rw [hring]; exact hlt
    have hlatch : latchLocate (s.chip.accepted h p) h.record = .inl l := (latchLocate_congr (c := s.chip) rfl rfl _).trans hl
    obtain ⟨b, hone⟩ := takeOne_locate (c := s.chip.accepted h p) (id := h.ring) hk hlatch hflag href hpinch hlim
      (accepted_record hi hlen)
    have hx := exec_handOff_accepted hf htodo hp hscreen
    rw [gained_first hts hest hcur hurg hmain, hone, settle_goes, hring, takeSlot_accepted hring] at hx
    obtain ⟨b', hb'⟩ := done_cur (takenMain s.chip h p _) _ rfl
    have hslot : ((s.chip.accepted h p).pln.ring .main).take = s.chip.pln.main.intake := by
      have ht := (accepted_take s.chip h p).1
      rw [hring] at ht
      exact ht.trans htake
    refine ⟨_, _, hx, hb', rfl, rfl, latchLocate_approach hl, hslot, rfl, ?_, ?_, ?_, ?_, rfl⟩
    · exact begunLocate_phase (s.chip.accepted h p) ..
    · simp [State.ends, takenMain, Engine.took, hts]
    · exact (done_ts _).trans hts
    · simp [State.ends, takenMain]
  · intro g l s hm hup ht he hc hk hl hphase hz v a ref' left near hmoves
    have h : Approaching g l := ⟨hk, hl, hphase⟩
    have hv : v = locateSpeed s.chip g l := by
      rcases hphase with hp | hp | hp <;> simp [v, locateSpeed, hp]
    have href : ref' = nextRef s.chip := by
      simp only [ref', nextRef, targetSpeed_cur hc, unlimitedTarget_locate h, hv, a]
    obtain ⟨g', c, hg, hmoved, hx⟩ := exec_locateUpdate hm ht he hc h hz (href ▸ hmoves)
    obtain ⟨htrk, -, -⟩ := hmoved.rest
    have hnear : nearTarget c g' l = true ↔ near := by
      rw [nearTarget_moved hmoved hg]
      simp only [near, href, left, a]
    have hwithin : withinTolerance c l = true ↔ left ≤ l.tolerance := by rw [withinTolerance_iff, htrk]
    have hbeyond (hw : l.tolerance < left) : ¬ withinTolerance c l = true := fun k => not_le.2 hw (hwithin.1 k)
    obtain ⟨b, tm, rfl⟩ := hg
    obtain ⟨b', hb'⟩ := done_cur (judgedLocate (decide (nextRef s.chip ≠ s.chip.eng.ref)) c _ l) _ rfl
    rw [← href] at hx hb'
    refine ⟨_, _, hx, (done_ref _).trans (hmoved.engine.1.trans href.symm), hb', rfl, rfl, (done_ts _).trans hmoved.state,
      (done_trk _).trans htrk, rfl, fun hr => ?_, fun hr hw => ?_, fun hr hw hp hn => ?_, fun hr hw hn => ?_⟩
    · exact judgedPhase_unmoved (decide_eq_false (not_not.2 hr))
    · exact judgedPhase_within (decide_eq_true hr) (hwithin.2 hw)
    · exact judgedPhase_near (decide_eq_true hr) (hbeyond hw) hp (hnear.2 hn)
    · exact judgedPhase_far (decide_eq_true hr) (hbeyond hw) fun k => hn ⟨k.1, hnear.1 k.2⟩

end Sys2Proof.Locating

namespace Sys2Proof.Locating

open Sys2Proof Sys2Proof.Machine Sys2Proof.Laws Sys2Proof.TapePath Sys2Proof.Supervision

variable {c d : Chip}

/-! ## No LOCATE current without POSITION_VALID (R148) -/

/-- No LOCATE is current with POSITION_VALID false (R148). -/
def Located (c : Chip) : Prop := (c.locateCurrent && !c.trk.valid) = false

theorem locateOk_iff (s : State) : LocateOk s ↔ Located s.chip := by
  unfold LocateOk Located
  cases s.chip.locateCurrent <;> simp

theorem located_iff : Located c ↔ ∀ g, c.eng.cur = some g → g.kind = .locate → c.trk.valid = true := by
  unfold Located Chip.locateCurrent
  cases c.eng.cur <;> simp

theorem located_of_none (h : c.eng.cur = none) : Located c := located_iff.2 fun g hg => by simp [h] at hg

theorem located_of_valid (h : c.trk.valid = true) : Located c := located_iff.2 fun _ _ _ => h

/-- A part with the same POSITION_VALID, and no segment current but one of a kind that was. -/
theorem Located.of (h : Located c) (ht : d.trk.valid = c.trk.valid)
    (he : ∀ g, d.eng.cur = some g → ∃ g', c.eng.cur = some g' ∧ g'.kind = g.kind) : Located d := by
  refine located_iff.2 fun g hg hk => ?_
  obtain ⟨g', hg', hkind⟩ := he g hg
  exact ht.trans (located_iff.1 h g' hg' (hkind.trans hk))

/-- The tracker and the engine stand. -/
def Aside (c d : Chip) : Prop := d.trk = c.trk ∧ d.eng = c.eng

theorem Aside.refl (c : Chip) : Aside c c := ⟨rfl, rfl⟩

theorem Aside.trans {a b c : Chip} (h : Aside a b) (k : Aside b c) : Aside a c :=
  ⟨k.1.trans h.1, k.2.trans h.2⟩

theorem Located.aside (h : Located c) (k : Aside c d) : Located d := by
  obtain ⟨ht, he⟩ := k
  exact h.of (congrArg Tracker.valid ht) fun g hg => ⟨g, he ▸ hg, rfl⟩

/-! ### What leaves the tracker and the engine -/

theorem aside_postEvent (k : EventKind) (n t : Nat) (v : Int) (c : Chip) : Aside c (postEvent k n t v c) :=
  ⟨postEvent_trk .., postEvent_eng ..⟩

theorem aside_postNotice (k : Notice) (c : Chip) : Aside c (postNotice k c) := ⟨postNotice_trk .., postNotice_eng ..⟩

theorem aside_postTrackerEvent (k : EventKind) (n : Nat) (c : Chip) : Aside c (postTrackerEvent k n c) :=
  ⟨postTrackerEvent_trk .., postTrackerEvent_eng ..⟩

theorem aside_postTrackerNotice (k : Notice) (c : Chip) : Aside c (postTrackerNotice k c) :=
  ⟨postTrackerNotice_trk .., postTrackerNotice_eng ..⟩

theorem aside_postWrites (k : Poster) (ws : List PartWrite) (c : Chip) : Aside c (postWrites k ws c) := by
  induction ws generalizing c with
  | nil => exact .refl c
  | cons w ws ih => exact Aside.trans ⟨postWrite_trk k w c, postWrite_eng k w c⟩ (ih _)

theorem aside_setGrant (a : Option Granted) (l : List Granted) (c : Chip) : Aside c (setGrant a l c) :=
  ⟨by simp, by simp⟩

theorem aside_dropActive (v : Int) (c : Chip) : Aside c (dropActive v c) := ⟨by simp, by simp⟩

theorem aside_cancelPending (v : Int) (c : Chip) : Aside c (cancelPending v c) := ⟨by simp, by simp⟩

theorem aside_evaluateRequest (l : List Choice) (c : Chip) : Aside c (evaluateRequest l c) := ⟨by simp, by simp⟩

theorem aside_flushBoth (st : Status) (c : Chip) : Aside c (flushBoth st c) := ⟨by simp, by simp⟩

theorem aside_latchAndFlush (k : StopCause) (c : Chip) : Aside c (latchAndFlush k c) := ⟨by simp, by simp⟩

theorem aside_claimCarry (c : Chip) : Aside c (claimCarry c) := ⟨by simp, by simp⟩

theorem aside_recheckGrant (c : Chip) : Aside c (recheckGrant c) := by
  unfold recheckGrant
  split
  · exact .refl c
  · dsimp only
    split
    · split
      · exact .refl c
      · exact aside_postEvent ..
    · split
      · exact ((aside_postEvent ..).trans (aside_postNotice ..)).trans (aside_setGrant ..)
      · exact .refl c

theorem aside_askLifters (c : Chip) : Aside c (askLifters c) := by
  unfold askLifters
  split
  · split <;> exact ⟨rfl, rfl⟩
  · exact .refl c

theorem aside_followReels (c : Chip) : Aside c (followReels c) := by
  unfold followReels
  split <;> exact ⟨rfl, rfl⟩

theorem aside_orderCapstanRun (v : Int) (c : Chip) : Aside c (orderCapstanRun v c).1 := by
  unfold orderCapstanRun
  split <;> exact ⟨rfl, rfl⟩

theorem aside_appendRecord (e : Event) (c : Chip) : Aside c (appendRecord e c) := by
  have hnext (x : Chip) : Aside x (onEvt (fun w => { w with write := (w.write + 1) % eventRecords }) x) := ⟨rfl, rfl⟩
  have hrec := (aside_postWrites .eventWriter (recordWrites c.evt.write e) c).trans (hnext _)
  unfold appendRecord
  dsimp only
  split
  · exact hrec.trans (aside_postNotice ..)
  · exact hrec

/-! ### What a host cycle finds (R152, R163) -/

theorem aside_overrunMarker (c : Chip) : Aside c (overrunMarker c) := by
  unfold overrunMarker
  split
  · exact aside_appendRecord _ (onEvt (fun w => { w with overrun := false, dropped := 0 }) c)
  · exact .refl c

theorem aside_postWriteDropped (n o t : Nat) (c : Chip) : Aside c (postWriteDropped n o t c) := ⟨by simp, by simp⟩

theorem aside_writeTrim (w : Word) (be : Enables) (c : Chip) : Aside c (writeTrim w be c) := by
  unfold writeTrim
  dsimp only
  split
  · exact ⟨rfl, rfl⟩
  · exact ⟨by simp, by simp⟩

theorem aside_beat (c : Chip) : Aside c (beat c) := by
  unfold beat
  split
  · split <;> exact ⟨rfl, rfl⟩
  · dsimp only
    split
    · exact aside_postEvent ..
    · exact ⟨rfl, rfl⟩

theorem aside_takeCommand (w : Word) (be : Enables) (c : Chip) : Aside c (takeCommand w be c) := by
  unfold takeCommand
  dsimp only
  split
  · exact ⟨rfl, rfl⟩
  · split
    · exact ⟨rfl, rfl⟩
    · split
      · exact ⟨rfl, rfl⟩
      · split <;> exact ⟨rfl, rfl⟩

theorem aside_writeCommand (w : Word) (be : Enables) (c : Chip) : Aside c (writeCommand w be c) := by
  unfold writeCommand
  split
  · exact aside_takeCommand ..
  · exact aside_postWriteDropped ..
  all_goals exact ⟨rfl, rfl⟩

theorem aside_takeImageWrite (n : Nat) (w : Word) (be : Enables) (c : Chip) : Aside c (takeImageWrite n w be c) := by
  unfold takeImageWrite
  refine Aside.trans ?_ (aside_postWrites ..)
  split <;> exact ⟨rfl, rfl⟩

theorem aside_writeImage (n : Nat) (w : Word) (be : Enables) (c : Chip) : Aside c (writeImage n w be c) := by
  unfold writeImage
  split
  · exact aside_postWriteDropped ..
  · exact aside_takeImageWrite ..

theorem aside_writeSlot (id : RingId) (n k : Nat) (w : Word) (be : Enables) (c : Chip) :
    Aside c (writeSlot id n k w be c) := by
  unfold writeSlot
  dsimp only
  split
  · split
    · split
      · exact ⟨rfl, rfl⟩
      · exact ⟨by simp, by simp⟩
    · exact ⟨rfl, rfl⟩
  · split
    · exact ⟨rfl, rfl⟩
    · exact aside_postWriteDropped ..
  · exact aside_postWriteDropped ..

theorem aside_windowWrite (off : Nat) (w : Word) (be : Enables) (c : Chip) : Aside c (windowWrite off w be c) := by
  unfold windowWrite
  split
  · exact aside_writeSlot ..
  · split
    · exact aside_beat c
    split
    · exact ⟨rfl, rfl⟩
    split
    · exact ⟨rfl, rfl⟩
    split
    · exact aside_writeTrim ..
    split
    · exact aside_overrunMarker (release _ allBytes (onEvt _ c))
    split
    · exact aside_writeCommand ..
    split
    · exact aside_writeImage ..
    split
    · exact aside_postWriteDropped ..
    · exact ⟨rfl, rfl⟩

theorem aside_disposeLive (cy : HostCyc) (off : Nat) (c : Chip) : Aside c (disposeLive cy off c) := by
  unfold disposeLive
  split
  · exact ⟨rfl, rfl⟩
  · split
    · exact ⟨rfl, rfl⟩
    · unfold readLive
      dsimp only
      split <;> exact ⟨rfl, rfl⟩

theorem aside_classify (c : Chip) : Aside c (classify c) := by
  unfold classify
  split
  · exact .refl c
  · unfold classifyAt
    split
    · exact ⟨rfl, rfl⟩
    split
    · exact aside_disposeLive ..
    split
    · exact ⟨rfl, rfl⟩
    split
    · unfold disposeStartup
      split <;> exact ⟨rfl, rfl⟩
    unfold disposeRunning
    split
    · exact aside_windowWrite ..
    · exact ⟨rfl, rfl⟩

theorem aside_driveCycle (cy : HostCyc) (c : Chip) : Aside c (driveCycle cy c) := by
  unfold driveCycle
  split
  · exact ⟨rfl, rfl⟩
  all_goals exact aside_classify (onBus _ c)

theorem aside_startCycle (cy : HostCyc) (c : Chip) : Aside c (startCycle cy c) := by
  unfold startCycle
  split
  · exact ⟨rfl, rfl⟩
  · exact aside_driveCycle ..

theorem aside_driveNext (c : Chip) : Aside c (driveNext c) := by
  unfold driveNext
  split
  · exact aside_driveCycle _ (onBus _ c)
  · exact .refl c

theorem aside_heldReleaseStep (c : Chip) : Aside c (heldReleaseStep c) := by
  unfold heldReleaseStep
  split
  · split
    · exact (aside_classify c).trans (aside_driveNext _)
    · exact .refl c
  · exact .refl c

/-! ### The end of a command, and the memory port -/

theorem aside_arbitrate (c : Chip) : Aside c (arbitrate c) :=
  ⟨(plain_blocks (arbitrate_plain c)).2.2.2.1, (arbitrate_frame c).2.2⟩

/-- What the end of a command may change does not tell a LOCATE from another. -/
theorem located_tail (h : Located c) : Located (tail c) := by
  have heng := congrArg (fun c : Chip => c.eng.cur.map Seg.kind) (tail_plain c)
  simp only [Chip.plain, Option.map_map, Function.comp_def] at heng
  refine h.of (congrArg (fun c : Chip => c.trk.valid) (tail_plain c) :) fun g hg => ?_
  simpa [hg, eq_comm] using heng

theorem located_done (h : Located c) : Located (done c) := (located_tail h).aside (aside_arbitrate _)

theorem located_driveOn (h : Located c) : Located (driveOn c) := by
  unfold driveOn
  split
  · exact located_tail (h.aside (aside_driveNext c))
  · exact h

theorem aside_bypassEnds (c : Chip) : Aside c (bypassEnds c) := by
  unfold bypassEnds
  split
  · split
    · exact aside_postWrites .startUp tombstone { c with
        mode := .startup, clock := 0
        bus := { c.bus with winsel := _, startCount := c.bus.startCount + 1, ending := none } }
    · exact .refl c
  · exact .refl c

theorem aside_postMemoryFault (k n : Nat) (c : Chip) : Aside c (postMemoryFault k n c) := ⟨by simp, by simp⟩

theorem aside_sweepRead (n : Nat) (w : Word) (c : Chip) : Aside c (sweepRead n w c) := by
  unfold sweepRead
  dsimp only
  split
  · exact ⟨postWrite_trk .., postWrite_eng ..⟩
  · exact ⟨rfl, rfl⟩

theorem aside_releaseCommand (c : Chip) : Aside c (releaseCommand c) := by
  unfold releaseCommand
  split
  · split <;> exact ⟨rfl, rfl⟩
  · exact .refl c

theorem aside_mailRead (w : Word) (b : Bool) (c : Chip) : Aside c (mailRead w b c) := by
  have hjudged (x : Chip) : Aside x (fetchJudged x) := by
    have hrel := aside_releaseCommand x
    unfold fetchJudged
    split
    · exact .refl x
    · dsimp only
      split
      · exact hrel
      · split <;> exact hrel
  unfold mailRead
  dsimp only
  split
  · exact hjudged (onMbx _ c)
  · exact ⟨rfl, rfl⟩

theorem aside_cycleDone (cy : Machine.Cycle) (w : Word) (c : Chip) : Aside c (cycleDone cy w c) := by
  cases cy with
  | mailRead => exact aside_mailRead ..
  | sweepRead => exact aside_sweepRead ..
  | _ => exact ⟨rfl, rfl⟩

theorem aside_cycleAborted (cy : Machine.Cycle) (c : Chip) : Aside c (cycleAborted cy c) := by
  cases cy with
  | host => exact aside_postMemoryFault ..
  | part a w =>
    unfold cycleAborted
    dsimp only
    split
    · exact aside_postNotice .memoryFault (queueHeadGone c)
    · exact aside_postMemoryFault _ _ (queueHeadGone c)
  | handRead => exact aside_postMemoryFault ..
  | mailRead => exact (aside_postMemoryFault ..).trans (aside_mailRead ..)
  | sweepRead => exact aside_postMemoryFault _ _ (onPln _ c)
  | _ => exact .refl c

/-- What follows the end of a memory cycle. -/
theorem located_afterCycle (h : Located c) : Located (arbitrate (driveOn (bypassEnds c))) :=
  (located_driveOn (h.aside (aside_bypassEnds c))).aside (aside_arbitrate _)

end Sys2Proof.Locating

namespace Sys2Proof.Locating

open Sys2Proof Sys2Proof.Machine Sys2Proof.Laws Sys2Proof.TapePath Sys2Proof.Supervision

variable {c d : Chip}

/-! ### The segment changed, and the transport state -/

theorem located_onEng (h : Located c) {f : Engine → Engine} (hf : (f c.eng).cur = c.eng.cur) : Located (onEng f c) :=
  h.of rfl fun g hg => ⟨g, hf.symm.trans hg, rfl⟩

/-- A change of the segment context that leaves its kind. -/
theorem located_onSeg (h : Located c) {f : Seg → Seg} (hf : ∀ g, (f g).kind = g.kind) : Located (onSeg f c) := by
  refine h.of rfl fun g hg => ?_
  obtain ⟨g', hg', rfl⟩ := Option.map_eq_some_iff.mp hg
  exact ⟨g', hg', (hf g').symm⟩

theorem located_onTrk (h : Located c) {f : Tracker → Tracker} (hf : (f c.trk).valid = c.trk.valid) : Located (onTrk f c) :=
  h.of hf fun g hg => ⟨g, hg, rfl⟩

theorem located_toPhase (h : Located c) (ph : Phase) : Located (toPhase ph c) := located_onSeg h fun _ => rfl

theorem located_startTimer (h : Located c) : Located (startTimer c) := located_onSeg h fun _ => rfl

theorem located_markClipped (h : Located c) : Located (markClipped c) := located_onSeg h fun _ => rfl

theorem located_idleEngine (c : Chip) : Located (idleEngine c) := located_of_none rfl

theorem located_endCur (st : Status) (c : Chip) : Located (endCur st c) := located_of_none (endCur_cur st c)

/-- An entry ends the current segment or leaves it. -/
theorem located_enter (h : Located c) (n : TState) : Located (enter n c) := by
  have htrk := (enter_frame n c).2.2.2.2.1
  have heng := enter_eng n c
  split at heng
  · exact located_of_none (by rw [heng]; rfl)
  · exact h.aside ⟨htrk, heng⟩

theorem located_tripNow (k : TripCause) (i : Side) (c : Chip) : Located (tripNow k i c) :=
  located_of_none (by simp [tripNow, enter_eng, TState.dropsGrant, Engine.reset])

theorem located_trip (h : Located c) (k : TripCause) (i : Side) : Located (trip k i c) := by
  unfold trip
  split
  case h_1 | h_2 => exact h
  case h_3 => exact h.aside (aside_postEvent ..)
  all_goals exact located_tripNow ..

theorem located_tripStanding (h : Located c) : Located (tripStanding c) := by
  have hdrive {d : Chip} (hd : Located d) :
      Located (if d.pins.fltSupply || d.pins.fltTup then trip .driveFault (faultSide d.pins) d else d) := by
    split
    · exact located_trip hd ..
    · exact hd
  refine hdrive ?_
  split
  · exact located_trip h ..
  · exact h

theorem located_endTaken (st : Status) (c : Chip) : Located (endTaken st c) := located_of_none (endTaken_cur st c)

theorem located_returnPlan (c : Chip) : Located (returnPlan c) := (located_endTaken .flushed c).aside (aside_flushBoth ..)

theorem located_stopMoving (k : StopCause) (c : Chip) : Located (stopMoving k c) :=
  located_enter ((located_of_none (by simp [haltEntry_cur, Engine.halted])).aside (aside_postEvent ..)) _

theorem located_stopCause (h : Located c) (k : StopCause) : Located (stopCause k c) := by
  have hpost {d : Chip} (hd : Located d) (t : Nat) (v : Int) : Located (postEvent .stop k.code t v (latchAndFlush k d)) :=
    hd.aside ((aside_latchAndFlush k d).trans (aside_postEvent ..))
  have hstop : Located (onSup (fun s => { s with stop := k }) c) := h
  unfold stopCause
  split
  · exact located_stopMoving ..
  · exact hpost h ..
  · refine hpost ?_ ..
    split
    · exact located_endTaken ..
    · exact hstop
  all_goals exact hpost hstop ..

/-! ### The phases of a segment -/

theorem located_leadInEnds (h : Located c) : Located (leadInEnds c).1 := by
  have hrun := h.aside (aside_orderCapstanRun c.eng.ref c)
  unfold leadInEnds
  dsimp only
  split
  · exact located_toPhase (c := onDrive _ _) hrun _
  · exact hrun

theorem located_judgeLocate (h : Located c) (r : Option Dir) : Located (judgeLocate r c) := by
  unfold judgeLocate
  split
  · split
    · split
      · exact located_toPhase h _
      · split
        · exact located_toPhase h _
        · exact h
    · split
      · exact located_toPhase h _
      · exact h
    · exact h
  · exact h

theorem located_judgeSpeed (h : Located c) (b : Bool) (g : Seg) : Located (judgeSpeed b c g).1 := by
  unfold judgeSpeed
  split
  · dsimp only
    split <;> exact h
  · split
    case h_1 =>
      split
      · exact h
      · split
        · exact located_startTimer h
        · exact h
    case h_2 =>
      split
      · exact located_leadInEnds h
      · exact h
    case h_3 =>
      split
      · exact located_startTimer (located_toPhase h _)
      · exact h
    case h_6 | h_7 =>
      dsimp only
      split
      · exact located_judgeLocate h _
      · exact h
    all_goals exact h

theorem located_begin (h : Located c) : Located (begin c).1 := by
  have haim : Located (aim c) := located_onSeg h fun _ => rfl
  unfold begin
  split
  · exact h
  · have hmark (ph : Phase) := located_markClipped (located_toPhase haim ph)
    dsimp only
    split
    · exact located_judgeSpeed (hmark _) ..
    · exact hmark _

theorem located_playEnds (h : Located c) (st : Status) : Located (playEnds st c).1 := by
  have hout : Located (onSeg (fun s => { s with phase := .pinchOut, endStatus := some st }) c) :=
    located_onSeg h fun _ => rfl
  exact hout

theorem located_openEnds (h : Located c) (g : Seg) : Located (openEnds g c).1 := by
  unfold openEnds
  split
  · split
    · exact h
    · exact located_playEnds h _
  · exact h

/-! ### Takes -/

theorem located_judgeTake (h : Located c) (g : Seg) : Located (judgeTake g c).1 := by
  have hmark := located_markClipped h
  unfold judgeTake
  dsimp only
  split
  · exact h
  split
  · exact h
  split
  · exact hmark
  split
  · exact hmark
  split
  · exact located_openEnds hmark _
  split
  · exact hmark
  · exact located_begin hmark

/-- A LOCATE takes its latch only while POSITION_VALID stands (R142). -/
theorem latchLocate_valid {r : Record} {l : Loc} (h : latchLocate c r = .inl l) : c.trk.valid = true := by
  by_contra hv
  rw [latchLocate_lost (Bool.eq_false_iff.mpr hv)] at h
  cases h

/-- What a take leaves goes on with a LOCATE under its latch, or without one. -/
theorem located_took {g : Seg} (b : Bool) (hg : g.kind = .locate → c.trk.valid = true) : Located (onEng (·.took g b) c) := by
  refine located_iff.2 fun g' hg' hk => hg ?_
  obtain rfl : g = g' := Option.some.inj hg'
  exact hk

/-- A take goes on under the law; only one that ends at once may have found POSITION_VALID lost (R142). -/
theorem located_takeOne (id : RingId) (c : Chip) :
    Located (takeOne id c).1 ∨ ∃ st, (takeOne id c).2 = .ends st := by
  unfold takeOne
  dsimp only
  split
  · split
    · exact .inr ⟨_, rfl⟩
    next hl => exact .inl (located_judgeTake (located_took _ fun _ => latchLocate_valid hl) _)
  next hk => exact .inl (located_judgeTake (located_took _ fun e => absurd e hk) _)

/-! ### Completions and what follows them -/

theorem located_finishRun (h : Located c) : Located (finishRun c) := by
  have hidle := located_onEng (f := fun e => { e with est := .idle, held := 0, starve := none, frac := 0 }) h rfl
  unfold finishRun
  dsimp only
  split
  · exact located_enter hidle _
  · split <;> exact hidle

theorem located_starveNow (h : Located c) (tag : Nat) : Located (starveNow tag c) := by
  have hstarved := located_onEng (f := fun e => { e with est := .starved, held := e.ref, starve := some 0 }) h rfl
  have hpost := hstarved.aside ((aside_postEvent .ringStarved 0 tag c.eng.ref _).trans (aside_postNotice .ringStarved _))
  unfold starveNow
  dsimp only
  split
  · exact located_stopCause hpost _
  · exact hpost

theorem located_nothingQueued (h : Located c) (eor : Bool) (tag : Nat) : Located (nothingQueued eor tag c) := by
  unfold nothingQueued
  split
  · exact located_finishRun h
  · split
    · exact located_stopCause (located_onEng h rfl) _
    · exact located_starveNow h _

theorem located_outcome {after : Bool → Nat → Chip → Chip} (hafter : ∀ e t x, Located x → Located (after e t x))
    {p : Chip × SegOut} (h : Located p.1 ∨ ∃ st, p.2 = .ends st) : Located (outcome after p) := by
  obtain ⟨x, out⟩ := p
  cases out with
  | ends st => exact hafter _ _ _ (located_endCur st x)
  | endsAtEnd st => exact located_stopCause (located_endCur st x) _
  | goes => exact h.resolve_right (by simp)
  | stops k => exact located_stopCause (h.resolve_right (by simp)) _

theorem located_follow (n : Nat) : ∀ (eor : Bool) (tag : Nat) (c : Chip), Located c → Located (follow n eor tag c) := by
  induction n with
  | zero => exact fun _ _ _ h => h
  | succ n ih =>
    intro eor tag c h
    unfold follow
    split
    · split
      · exact located_outcome ih (located_takeOne ..)
      · exact located_nothingQueued h ..
    · exact h

theorem located_settle {p : Chip × SegOut} (h : Located p.1 ∨ ∃ st, p.2 = .ends st) : Located (settle p) :=
  located_outcome (located_follow 80) h

/-- A completion ends the segment, so the law stands whatever stood before. -/
theorem located_complete (st : Status) (c : Chip) : Located (complete st c) := located_settle (.inr ⟨st, rfl⟩)

theorem located_takeQueued (h : Located c) : Located (takeQueued c) := by
  unfold takeQueued
  split
  · split
    · exact located_settle (located_takeOne ..)
    · exact h
  · exact h

theorem located_gained (h : Located c) (id : RingId) : Located (gained id c) := by
  unfold gained
  split
  · split
    · exact located_takeQueued h
    · split
      · exact located_settle (located_takeOne ..)
      · split
        · exact located_settle (.inl (located_openEnds h _))
        · exact h
  · exact h

/-! ### What reaches the engine -/

theorem located_settleMoves (h : Located c) : Located (settleMoves c) := by
  unfold settleMoves
  split
  · have hmoving := located_enter (located_onEng (f := fun e => { e with moveReq := false }) h rfl) .moving
    dsimp only
    split
    · exact located_enter (located_onEng hmoving rfl) _
    · exact hmoving
  · exact h

theorem located_judgeCurrent (h : Located c) (b : Bool) : Located (judgeCurrent b c) := by
  unfold judgeCurrent
  split
  · split
    · exact located_settle (.inl (located_judgeSpeed h ..))
    · exact h
  · exact h

theorem located_rollCurrent (h : Located c) (r : Dir) : Located (rollCurrent r c) := by
  unfold rollCurrent
  split
  · exact h
  · dsimp only
    split
    · split
      · exact located_complete ..
      · exact h
    · split
      · exact located_settle (.inl (located_playEnds h _))
      · exact h
    · exact located_judgeLocate h _
    · exact h

theorem located_judgeBrake (h : Located c) : Located (judgeBrake c) := by
  unfold judgeBrake
  split
  · split
    · split
      · split
        · exact located_complete ..
        · split
          · exact located_complete ..
          · dsimp only
            split
            · exact located_complete ..
            · exact located_onSeg (h.aside (aside_postEvent ..)) fun _ => rfl
      · exact h
    · exact h
  · exact h

theorem located_newEndFlag (h : Located c) : Located (newEndFlag c) := by
  unfold newEndFlag
  split
  · split
    · split
      · exact h
      · split
        · exact located_judgeCurrent (located_toPhase h _) _
        · exact located_stopCause h _
    · split
      · exact located_stopCause h _
      · exact h
  · exact h

theorem located_pinchInReport (h : Located c) : Located (pinchInReport c) := by
  have hcap := located_toPhase h .capstan
  unfold pinchInReport
  split
  · split
    · split
      · exact located_stopCause h _
      · dsimp only
        split
        · split
          · exact located_settle (.inl (located_playEnds hcap _))
          · exact hcap
        · split
          · exact located_startTimer hcap
          · exact hcap
    · exact h
  · exact h

theorem located_pinchTurnReport (h : Located c) : Located (pinchTurnReport c) := by
  unfold pinchTurnReport
  split
  · split
    · exact located_stopCause h _
    · exact h
  · exact h

theorem located_pinchOutReport (h : Located c) : Located (pinchOutReport c) := by
  unfold pinchOutReport
  split
  · exact h
  · split
    · exact h
    · split
      · split
        · exact located_complete ..
        · split
          · exact located_settle (.inl (located_begin h))
          · exact h
      · exact h

theorem located_durationEnds (h : Located c) : Located (durationEnds c) := by
  unfold durationEnds
  split
  · split
    · split
      · split
        · split
          · exact h
          · exact located_complete ..
        · split
          · exact h
          · exact located_settle (.inl (located_playEnds h _))
        · exact located_complete ..
        · exact h
      · exact h
    · exact h
  · exact h

theorem located_move (h : Located c) (v : Int) (n : Nat) : Located (onEng (·.move v n) c) := located_onEng h (move_cur ..)

theorem located_moveReference (h : Located c) : Located (moveReference c) := by
  unfold moveReference
  split
  · split
    · exact h
    · dsimp only
      split
      · exact (located_move h ..).aside (aside_orderCapstanRun ..)
      · exact located_move h ..
  · split
    · exact located_move h ..
    · exact h

theorem located_starvedAtRest (h : Located c) : Located (starvedAtRest c) := by
  unfold starvedAtRest
  split
  · exact located_finishRun h
  · exact h

theorem located_updateReference (h : Located c) : Located (updateReference c) := by
  unfold updateReference
  split
  · have hmoved := (located_markClipped (located_moveReference h)).aside (aside_askLifters _)
    exact located_starvedAtRest (located_judgeCurrent hmoved _)
  · split
    · exact h
    · exact located_move h ..
  · split
    · exact h
    · exact located_move h ..
  all_goals exact h

end Sys2Proof.Locating

namespace Sys2Proof.Locating

open Sys2Proof Sys2Proof.Machine Sys2Proof.Laws Sys2Proof.TapePath Sys2Proof.Supervision

variable {c d : Chip}

/-! ### The tape path, the arms and the inputs -/

/-- A count that ends POSITION_VALID ends a LOCATE then current (R148); any other leaves what the law reads. -/
theorem located_rollStep (r : Dir) (c : Chip) : Located (rollStep r c) := by
  unfold rollStep
  dsimp only
  split
  next hlost =>
    unfold locateLost
    rw [if_pos hlost]
    exact located_complete ..
  next hkept =>
    refine located_rollCurrent ?_ r
    simpa [Located] using hkept

theorem located_stopEnd (h : Located c) : Located (stopEnd c) := by
  unfold stopEnd
  split
  · exact located_takeQueued (located_enter (located_idleEngine c) _)
  · exact h

theorem located_catchEnd (h : Located c) : Located (catchEnd c) := by
  unfold catchEnd
  split
  · exact located_enter h _
  · exact h

theorem located_tickStep (h : Located c) : Located (tickStep c) := by
  have htick := (located_settleMoves h).of (d := onDrive (·.tick) (onTrk (·.tick) (settleMoves c))) rfl fun g hg => ⟨g, hg, rfl⟩
  exact located_judgeBrake (located_catchEnd (located_stopEnd (htick.aside (aside_followReels _))))

theorem located_pathPresentStep (h : Located c) : Located (pathPresentStep c) := by
  unfold pathPresentStep setPathPin
  dsimp only
  split <;> exact h

theorem aside_postTapePath (n : Nat) (c : Chip) : Aside c (postTapePath n c) :=
  (aside_postTrackerEvent ..).trans (aside_postTrackerNotice ..)

theorem located_debounceStep (h : Located c) : Located (debounceStep c) := by
  have hpath : Located (onTrk (fun t => { t with path := .present, debounce := 0 }) c) := h
  have hpost := hpath.aside (aside_postTapePath 1 _)
  unfold debounceStep
  split
  · dsimp only
    split
    · exact located_enter hpost _
    · exact hpost
  · exact h

theorem located_absenceTold (h : Located c) : Located (absenceTold c) := by
  unfold absenceTold
  split
  · split
    · exact located_enter h _
    · exact h
    all_goals exact located_trip h ..
  · exact h

/-- The absence that ends POSITION_VALID ends a LOCATE then current (R148). -/
theorem located_pathLostStep (c : Chip) : Located (pathLostStep c) := by
  have hend (x : Chip) : Located (if x.locateCurrent then endCur .missed x else x) := by
    split
    · exact located_endCur ..
    next hno => simp [Located, hno]
  exact located_absenceTold (hend _)

theorem located_pathAbsentStep (h : Located c) : Located (pathAbsentStep c) := by
  unfold pathAbsentStep
  dsimp only
  split
  · exact h
  · exact h
  · exact located_pathLostStep _

theorem located_endSensorStep (h : Located c) (leader : Bool) : Located (endSensorStep leader c) := by
  have hflag {x : Chip} (hx : Located x) (was : Bool) : Located (match x.trk.lastDir with
      | some r =>
        if leader ∧ was = false ∧ x.trk.endFlag = .none then
          newEndFlag (postTrackerNotice .tapeEnd (postTrackerEvent .endFlag (flagOf r).code
            (onTrk (fun t => { t with endFlag := flagOf r }) x)))
        else x
      | none => x) := by
    split
    · split
      next r _ _ =>
        have hset : Located (onTrk (fun t => { t with endFlag := flagOf r }) x) := hx
        exact located_newEndFlag (hset.aside ((aside_postTrackerEvent ..).trans (aside_postTrackerNotice ..)))
      · exact hx
    · exact hx
  refine hflag ?_ c.pins.leader
  split <;> exact h

theorem located_failStart (o : Bool) (c : Chip) : Located (failStart o c) := by
  unfold failStart
  exact ((located_idleEngine _).aside (d := onSup _ _) ⟨rfl, rfl⟩).aside ((aside_postEvent ..).trans (aside_postNotice ..))

theorem located_onDrive (h : Located c) (f : Drive → Drive) : Located (onDrive f c) := h

theorem located_onSup (h : Located c) (f : Supervisor → Supervisor) : Located (onSup f c) := h

theorem located_onMon (h : Located c) (f : Monitor → Monitor) : Located (onMon f c) := h

theorem located_catchBegin (h : Located c) : Located (catchBegin c) := by
  have hord := located_onDrive (located_onEng (f := fun e => { e with ref := c.trk.tapeSpeed, frac := 0 }) h rfl)
    (·.orderBoth .torque 0 false)
  unfold catchBegin
  dsimp only
  split
  · exact located_onSup (located_onDrive hord _) _
  · exact located_onDrive hord _

theorem located_judgeClaim (h : Located c) : Located (judgeClaim c) := by
  have hjudged : Located (claimJudged (claimCarry c)) := h.aside (aside_claimCarry c)
  unfold judgeClaim
  split
  · unfold claimJudged
    split
    · exact located_trip h ..
    · exact h
  · split
    · exact located_failStart ..
    · exact located_catchBegin hjudged

theorem located_armStep (h : Located c) (r : Reel) (v : BitVec 12) : Located (armStep r v c) := by
  have hread : Located (onTrk (·.armRead r v) c) := located_onTrk h (by cases r <;> rfl)
  have hclass : Located (onSup (·.classify r (classNow (onTrk (·.armRead r v) c) v)) (onTrk (·.armRead r v) c)) := hread
  unfold armStep sampleTaken
  dsimp only
  split
  · split
    · split
      · exact located_judgeClaim hclass
      · exact hclass
    · split
      · exact located_trip hclass ..
      · exact hclass
  · exact hread

theorem located_inputCause (h : Located c) (n : Nat) (k : TripCause) (i : Side) : Located (inputCause n k i c) := by
  unfold inputCause
  split
  · split
    · exact located_trip h ..
    · exact h.aside (aside_postEvent ..)
  · exact h

theorem located_pins (h : Located c) (p : Pins) : Located { c with pins := p } := h

theorem located_powerFailStep (h : Located c) : Located (powerFailStep c) := by
  unfold powerFailStep
  split
  · exact h
  · exact located_inputCause (located_pins h _) ..

theorem located_driveFaultStep (h : Located c) (r : Reel) : Located (driveFaultStep r c) := by
  cases r <;> unfold driveFaultStep <;> dsimp only <;> split
  · exact h
  · exact located_inputCause (located_pins h _) ..
  · exact h
  · exact located_inputCause (located_pins h _) ..

theorem located_fltCapStep (h : Located c) : Located (fltCapStep c) := by
  have hrel : Located (onDrive (·.release c.pinchFull) { c with pins := { c.pins with fltCap := true } }) := h
  unfold fltCapStep
  split
  · exact h
  · dsimp only
    split
    · exact located_stopCause hrel _
    · exact hrel

/-! ### The timers -/

theorem located_breakStep (h : Located c) : Located (breakStep c) := by
  unfold breakStep
  split
  · exact located_trip h ..
  · exact h

theorem located_derateRequest (h : Located c) : Located (derateRequest c) := by
  unfold derateRequest
  split
  · split
    · exact h.aside (((aside_postEvent ..).trans (aside_postNotice ..)).trans (aside_setGrant ..))
    · exact located_stopCause h _
  · exact h

theorem located_excursionStep (h : Located c) : Located (excursionStep c) := by
  have hpost (n : Nat) (v : Int) : Located (onSup (fun s => { s with exc := if s.strayArm then some 0 else none })
      (postEvent .armExcursion n c.curTag v c)) := h.aside (aside_postEvent .armExcursion n c.curTag v c)
  unfold excursionStep
  split
  · dsimp only
    split
    · exact located_derateRequest (hpost _ _)
    · exact hpost _ _
  · exact h

theorem located_settleStep (h : Located c) : Located (settleStep c) := by
  unfold settleStep
  split
  · split
    · exact located_enter h _
    · exact located_enter (h.aside (aside_postEvent ..)) _
  · exact h

theorem located_engageBrakes (h : Located c) : Located (engageBrakes c) := by
  have hord : Located (onDrive (·.orderBoth .torque 0 true) c) := h
  unfold engageBrakes
  dsimp only
  split
  · exact located_enter hord _
  · exact hord

theorem located_slackZeroStep (h : Located c) : Located (slackZeroStep c) := by
  unfold slackZeroStep
  split
  · exact located_engageBrakes h
  · exact h

theorem located_offDelayStep (h : Located c) : Located (offDelayStep c) := by
  have hord : Located (onDrive (·.orderBoth .off 0 true) c) := h
  unfold offDelayStep
  split
  · split
    · exact located_enter hord _
    · exact h
  · exact h

theorem located_pinchStep (h : Located c) : Located (pinchStep c) := by
  have hmoves := located_settleMoves h
  have hends (b : Bool) (n : Nat) : Located (onDrive (·.pinchEnds b n) (settleMoves c)) := hmoves
  unfold pinchStep pinchReport
  dsimp only
  split
  · split
    · split
      · exact located_pinchInReport (hends _ _)
      · exact located_pinchTurnReport (hends _ _)
      · exact located_pinchOutReport (hends _ _)
      · exact hends _ _
    · exact hends _ _
  · exact hmoves

theorem located_clockTick (h : Located c) : Located (clockTick c) := by
  refine h.of rfl fun g hg => ?_
  obtain ⟨g', hg', rfl⟩ := Option.map_eq_some_iff.mp (show (c.eng.cur.map _) = some g from hg)
  exact ⟨g', hg', rfl⟩

theorem located_referenceStep (h : Located c) : Located (referenceStep c) := by
  unfold referenceStep
  split
  · exact h
  · exact located_judgeBrake (located_updateReference (located_clockTick (located_settleMoves h)))

theorem located_durationStep (h : Located c) : Located (durationStep c) := by
  unfold durationStep
  dsimp only
  split
  · exact located_durationEnds (located_settleMoves h)
  · exact located_settleMoves h

theorem located_starveStep (h : Located c) : Located (starveStep c) := by
  unfold starveStep
  split
  · exact located_stopCause h _
  · exact h

theorem located_silenceStep (h : Located c) : Located (silenceStep c) := by
  have hsilent : Located (onMon (fun m => { m with st := .silent }) c) := h
  have hpost (n : Nat) (v : Int) := hsilent.aside ((aside_postEvent .hostSilence n 0 v _).trans (aside_postNotice .hostSilence _))
  unfold silenceStep
  split
  · dsimp only
    split
    · exact located_stopCause (hpost _ _) _
    · exact hpost _ _
  · exact h

/-! ### The start of the supervisor, and the settings -/

theorem located_carryExpiryStep (h : Located c) : Located (carryExpiryStep c) := by
  unfold carryExpiryStep orderLifters emergencyBoth
  split
  · dsimp only
    split <;> exact h
  · exact h

theorem located_startIn (h : Located c) (ts : TState) (i : Option (Fin 8)) (r : Ramp) : Located (startIn ts i r c) := h

theorem located_firstState (h : Located c) : Located (firstState c) := by
  have hclaim := h.aside (aside_claimCarry c)
  have hpath (i : Option (Fin 8)) : Located (startFromPath i c) := h
  have hdropped (i : Option (Fin 8)) : Located (startFromPath i (onDrive (·.dropCarry) c)) := h
  unfold firstState
  split
  · split
    case h_1 | h_2 => exact hdropped _
    case h_8 =>
      unfold resumeSlack
      dsimp only
      split
      · exact located_engageBrakes (located_startIn hclaim ..)
      · exact located_startIn hclaim ..
    case h_9 => exact located_onDrive (located_startIn hclaim ..) _
    all_goals exact located_onSup (located_startIn h ..) _
  · split
    case h_1 | h_2 => exact hdropped _
    all_goals exact located_failStart ..
  · exact hpath _

theorem located_startInputs (h : Located c) : Located (startInputs c) := by
  have hcap {x : Chip} (hx : Located x) : Located (if x.pins.fltCap then stopCause .capstanFault x else x) := by
    split
    · exact located_stopCause hx _
    · exact hx
  have hpost {x : Chip} (hx : Located x) (b : Bool) (n : Nat) : Located (if b then postEvent .faultInput n 0 0 x else x) := by
    split
    · exact hx.aside (aside_postEvent ..)
    · exact hx
  refine hcap ?_
  split
  · exact located_tripStanding h
  · exact hpost (hpost (hpost h _ _) _ _) _ _

theorem located_startStep (h : Located c) : Located (startStep c) := by
  unfold startStep
  split
  · exact located_startInputs (located_firstState h)
  · exact h

theorem aside_settingsLoaded (c : Chip) : Aside c (settingsLoaded c) := by
  have himage := aside_postWrites .startUp (onSet (fun s => { s with loaded := true }) c).set.imageWrites
    (onSet (fun s => { s with loaded := true }) c)
  have hclear {x : Chip} (hx : Aside c x) : Aside c (clearCueImage x) := hx
  have hmask {x : Chip} (hx : Aside c x) : Aside c (onPln (fun p => { p with sweep := some 0 }) (takeDefaultMask x)) := hx
  exact hmask ((hclear himage).trans (aside_postWrites ..))

theorem aside_loadStep (c : Chip) : Aside c (loadStep c) := by
  unfold loadStep
  split
  · dsimp only
    split
    · exact aside_settingsLoaded (onSet _ (onSet _ c))
    · split
      · exact ⟨rfl, rfl⟩
      · refine Aside.trans ?_ (aside_settingsLoaded _)
        exact aside_postEvent _ _ _ _ (onSet _ (onSet _ (onSet _ c)))
  · exact .refl c

/-! ### The commands of the mailbox -/

theorem located_reply (h : Located c) (r : Result) (b : Byte) : Located (reply r b c) := h

theorem located_tensionUpStep (h : Located c) : Located (tensionUpStep c) := by
  have hrep (r : Result) (b : Byte) := located_reply h r b
  unfold tensionUpStep
  split
  · exact hrep _ _
  split
  · exact hrep _ _
  split
  · exact hrep _ _
  next i _ =>
    split
    · exact hrep _ _
    split
    · exact hrep _ _
    · have hidx : Located (onGnt (fun g => { g with threaded := some i }) (onSup (fun s => { s with threaded := some i })
          (reply .done detailNone c))) := h
      have hord : Located (tensionOrders (enter .tensioning (onGnt (fun g => { g with threaded := some i })
          (onSup (fun s => { s with threaded := some i }) (reply .done detailNone c))))) := located_enter hidx _
      exact located_tripStanding hord

theorem located_slackDownStep (h : Located c) : Located (slackDownStep c) := by
  unfold slackDownStep
  split
  · exact located_enter (located_returnPlan _) _
  · split
    · exact located_enter (located_reply h ..) _
    · exact located_reply h ..

theorem located_clearFaultStep (h : Located c) : Located (clearFaultStep c) := by
  have hword : Located (onSup (·.noFault) c) := h
  have hleft : Located (onSup (·.recovered) (reply .done detailNone (onSup (·.noFault) c))) := h
  unfold clearFaultStep
  dsimp only
  split
  · exact located_reply hword ..
  split
  · split
    · exact located_reply hword ..
    · exact located_enter hleft _
  split
  · exact located_reply hword .done detailNone
  · exact located_reply hword ..

theorem located_requestGrantStep (h : Located c) : Located (requestGrantStep c) := by
  have hdefer : Located (deferRequest c) := h.aside (aside_cancelPending droppedReplaced c)
  unfold requestGrantStep
  split
  case h_9 =>
    unfold evaluateNow
    dsimp only
    split
    · exact (located_reply h ..).aside (aside_evaluateRequest ..)
    · exact located_reply h ..
  case h_7 | h_8 => exact hdefer
  all_goals exact located_reply h ..

theorem located_dropGrantStep (h : Located c) : Located (dropGrantStep c) := by
  unfold dropGrantStep
  split
  case h_3 => exact (located_returnPlan _).aside (aside_dropActive ..)
  case h_4 | h_5 =>
    split
    · exact (located_reply h ..).aside (aside_cancelPending ..)
    · exact located_reply h ..
  all_goals exact located_reply h ..

theorem aside_setCueStep (c : Chip) : Aside c (setCueStep c) := by
  unfold setCueStep
  dsimp only
  split
  · exact ⟨rfl, rfl⟩
  split
  · exact ⟨rfl, rfl⟩
  · exact ⟨by simp, by simp⟩

theorem aside_clearCueStep (c : Chip) : Aside c (clearCueStep c) := by
  unfold clearCueStep
  dsimp only
  split
  · exact ⟨rfl, rfl⟩
  generalize (if c.mbx.byte 0 = allCues then c.cue.present else if (c.cue.at (c.mbx.byte 0)).isSome then [c.mbx.byte 0]
    else []) = ns
  split
  · exact ⟨rfl, rfl⟩
  · exact ⟨by simp, by simp⟩

/-- A position set is valid (R4). -/
theorem located_setPositionStep (h : Located c) : Located (setPositionStep c) := by
  unfold setPositionStep
  dsimp only
  split
  · exact located_reply h ..
  split
  · exact located_reply h ..
  split
  · exact located_reply h ..
  · exact located_of_valid rfl

theorem aside_admitStore (f : Store → Store) (c : Chip) : Aside c (admitStore (onSet f) c) := by
  unfold admitStore
  split
  · exact .refl c
  split
  · exact ⟨rfl, rfl⟩
  split
  · exact ⟨rfl, rfl⟩
  · exact ⟨rfl, rfl⟩

theorem aside_saveCompleteStep (c : Chip) : Aside c (saveCompleteStep c) := by
  unfold saveCompleteStep
  split <;> exact ⟨rfl, rfl⟩

theorem located_recheck (h : Located c) : Located (recheck c) := by
  unfold recheck
  split
  · exact (located_returnPlan c).aside ((aside_dropActive ..).trans (aside_postNotice ..))
  · exact h.aside (aside_recheckGrant c)

theorem located_adoptSettings (h : Located c) (bs : List Byte) : Located (adoptSettings bs c) := by
  have hload : Located (onSet (·.load bs) (endReload c)) := h
  have himage (ws : List PartWrite) := hload.aside (aside_postWrites .settings ws _)
  unfold adoptSettings
  refine located_reply (located_recheck ?_) ..
  split
  · exact located_onMon (himage _) _
  · exact himage _

theorem located_reloadReadStep (h : Located c) : Located (reloadReadStep c) := by
  have hread : Located (onSet (·.readMade) c) := h
  unfold reloadReadStep
  split
  · dsimp only
    split
    · split
      · exact located_adoptSettings hread _
      · exact hread
    · split <;> exact hread
  · exact h

theorem aside_replyStep (c : Chip) : Aside c (replyStep c) := by
  have hidle {x : Chip} (hx : Aside c x) : Aside c (onMbx (·.idled) x) := hx
  unfold replyStep
  split
  · split
    · exact (hidle (aside_postWrites ..)).trans (aside_postNotice ..)
    · exact .refl c
  · exact .refl c

/-! ### The lists, the event writer and the screen -/

theorem aside_slotPassStep (c : Chip) : Aside c (slotPassStep c) := by
  unfold slotPassStep
  split
  · split <;> exact ⟨rfl, rfl⟩
  · exact .refl c

theorem aside_cuePassStep (c : Chip) : Aside c (cuePassStep c) := by
  unfold cuePassStep
  split
  · split <;> exact ⟨rfl, rfl⟩
  · exact .refl c

theorem aside_joinStep (k : Poster) (c : Chip) : Aside c (joinStep k c) := by
  unfold joinStep
  split
  · split
    · cases k <;> exact ⟨rfl, rfl⟩
    · exact .refl c
  · exact .refl c

theorem aside_appendStep (c : Chip) : Aside c (appendStep c) := by
  unfold appendStep takeEvent
  split
  next rest _ =>
    have hrest : Aside c (onEvt (fun w => { w with posted := rest }) c) := ⟨rfl, rfl⟩
    split
    · exact hrest.trans (aside_appendRecord ..)
    · dsimp only
      split
      · exact aside_postNotice _ (onEvt _ (onEvt _ c))
      · exact ⟨rfl, rfl⟩
  · exact .refl c

theorem aside_startupEndStep (c : Chip) : Aside c (startupEndStep c) := by
  have hpost (ps : List Post) : ∀ x : Chip, Aside c x → Aside c (ps.foldl (fun c p => makePost p c) x) := by
    induction ps with
    | nil => exact fun _ hx => hx
    | cons p ps ih => exact fun x hx => ih _ (by cases p <;> exact hx)
  have hrun : Aside c { c with
      mode := .running, bus := { c.bus with startTime := c.clock }, evt := { c.evt with held := [] } } := ⟨rfl, rfl⟩
  unfold startupEndStep
  split
  · exact hpost _ _ (hrun.trans (aside_appendRecord ..))
  · exact .refl c

theorem located_screenStep (h : Located c) : Located (screenStep c) := by
  unfold screenStep
  split
  · split
    · unfold screenDecided
      dsimp only
      split
      · exact h.aside (d := release _ _ _) ⟨by simp, by simp⟩
      · exact located_gained (c := onPln _ (release _ _ (onPln _ c))) h _
    · exact h
  · exact h

/-! ### Every command -/

theorem located_assertResetStep (h : Located c) : Located (assertResetStep c) := by
  unfold assertResetStep
  split
  · exact h
  · exact (located_of_none rfl).aside (aside_arbitrate _)

theorem aside_releaseResetStep (w : Release) (c : Chip) : Aside c (releaseResetStep w c) := by
  unfold releaseResetStep
  split
  · exact Aside.trans (b := bypassEnds (onBus (fun b => { b with ending := some w.winsel })
      (onSet (fun s => { s with coming := w.coming }) c))) (aside_bypassEnds (onBus _ (onSet _ c))) (aside_arbitrate _)
  · exact .refl c

theorem located_hostStep (h : Located c) (cy : HostCyc) : Located (hostStep cy c) :=
  located_done (h.aside (aside_startCycle cy c))

theorem located_whenRun (h : Located c) (n : Byte) {f : Chip → Chip} (hf : Located (f c)) : Located (whenRun n f c) := by
  unfold whenRun
  split
  · exact located_done hf
  · exact h

/-- No command leaves a LOCATE current with POSITION_VALID false (R148). -/
theorem exec_located (i : Instr) {s t : State} (hs : Located s.chip) (h : exec i s = .next t) : Located t.chip := by
  have ha {x : Chip} (hx : Aside s.chip x) : Located (arbitrate x) := hs.aside (hx.trans (aside_arbitrate x))
  have hd {x : Chip} (hx : Aside s.chip x) : Located (done x) := located_done (hs.aside hx)
  have hw (o : Nat) (w : Word) (be : Enables) : Located (hostWriteStep o w be s.chip) := located_hostStep hs _
  cases i <;> simp only [exec] at h <;> injection h with h <;> subst h
  case powerOn => exact located_of_none rfl
  case resetNAsserted => exact located_assertResetStep hs
  case resetNReleased w => exact hs.aside (aside_releaseResetStep w s.chip)
  case settingsLoad => exact ha (aside_loadStep _)
  case supervisorStart => exact located_done (located_startStep hs)
  case carryExpiry => exact located_carryExpiryStep hs
  case recoverySweepRead =>
    unfold sweepStep
    split
    · exact ha (aside_sweepRead _ _ (freePort s.chip))
    · exact hs
  case startupEnd => exact hd (aside_startupEndStep _)
  case rollerCount r => exact located_done (located_rollStep r _)
  case tachPulse r => exact located_done (located_onTrk hs (by cases r <;> rfl))
  case capstanPulse => exact hs
  case speedWindowTick => exact located_done (located_tickStep hs)
  case pathSensorPresent => exact located_pathPresentStep hs
  case pathDebounceExpiry => exact located_done (located_debounceStep hs)
  case pathAbsent => exact located_done (located_pathAbsentStep hs)
  case endSensorLeader b => exact located_done (located_endSensorStep hs b)
  case armSample r v => exact located_done (located_armStep hs r v)
  case powerFail => exact located_done (located_powerFailStep hs)
  case driveFault r => exact located_done (located_driveFaultStep hs r)
  case fltCap => exact located_done (located_fltCapStep hs)
  case faultInputReleased => exact hs
  case breakTimerExpiry => exact located_done (located_breakStep hs)
  case excursionTimerExpiry => exact located_done (located_excursionStep hs)
  case settleTimerExpiry => exact located_done (located_settleStep hs)
  case slackReferenceZero => exact located_done (located_slackZeroStep hs)
  case offDelayExpiry => exact located_done (located_offDelayStep hs)
  case pinchMovementEnd => exact located_done (located_pinchStep hs)
  case referenceSpeedUpdate => exact located_done (located_referenceStep hs)
  case durationTimerExpiry => exact located_done (located_durationStep hs)
  case starveTimerExpiry => exact located_done (located_starveStep hs)
  case handOffScreen => exact located_done (located_screenStep hs)
  case slotWriteListPass => exact ha (aside_slotPassStep _)
  case cueWriteListPass => exact ha (aside_cuePassStep _)
  case silenceTimerExpiry => exact located_done (located_silenceStep hs)
  case eventAppend => exact ha (aside_appendStep _)
  case heldCycleRelease => exact hd (aside_heldReleaseStep _)
  case writeJoinsQueue k => exact ha (aside_joinStep k _)
  case memoryCycleDone =>
    unfold memoryDoneStep
    split
    · exact located_afterCycle (hs.aside (aside_cycleDone _ _ (freePort s.chip)))
    · exact hs
  case memoryResponseLimit =>
    unfold memoryLimitStep
    split
    · split
      · exact hs
      · exact located_afterCycle (hs.aside (aside_cycleAborted _ (freePort s.chip)))
    · exact hs
  case tensionUp => exact located_whenRun hs _ (located_tensionUpStep hs)
  case slackDown => exact located_whenRun hs _ (located_slackDownStep hs)
  case requestGrant => exact located_whenRun hs _ (located_requestGrantStep hs)
  case dropGrant => exact located_whenRun hs _ (located_dropGrantStep hs)
  case setCue => exact located_whenRun hs _ (hs.aside (aside_setCueStep _))
  case clearCue => exact located_whenRun hs _ (hs.aside (aside_clearCueStep _))
  case setPosition => exact located_whenRun hs _ (located_setPositionStep hs)
  case clearFault => exact located_whenRun hs _ (located_clearFaultStep hs)
  case openSettings => exact located_whenRun hs _ hs
  case closeSettings => exact located_whenRun hs _ hs
  case saveSettings => exact located_whenRun hs _ (hs.aside (aside_admitStore _ _))
  case saveComplete => exact hd (aside_saveCompleteStep _)
  case reloadSettings => exact located_whenRun hs _ (hs.aside (aside_admitStore _ _))
  case reloadStoreRead => exact located_done (located_reloadReadStep hs)
  case mailboxReply => exact hd (aside_replyStep _)
  case liveWindowRead | groupHeadRead | hostCycle => exact located_hostStep hs _
  all_goals exact hw ..

/-- Settles O8: the event ring is one of the things that `Kept` carries through every command, whose unread count is a
remainder of 128; and every command keeps `Located`: POSITION_VALID is lost only where a LOCATE then current is ended
with it, and a take gives a LOCATE its latch only while it stands. -/
theorem stepKeepsEventsAndLocate : Obligations.StepKeepsEventsAndLocate := by
  constructor
  · intro s t hs h
    have hok : evtOk s.chip := ⟨⟨hs.write, hs.consumed⟩, hs.overrun, hs.normal, hs.idle⟩
    obtain ⟨⟨hwrite, hconsumed⟩, hover, hnormal, hidle⟩ := (step_kept h).events hok
    exact ⟨hwrite, hconsumed, Nat.lt_succ_iff.1 (Nat.mod_lt _ (by decide)), hover, hnormal, hidle⟩
  · intro s t hs h
    rw [locateOk_iff] at hs ⊢
    unfold step at h
    split at h
    · cases h
      exact hs
    next i rest _ => exact exec_located i (s := s.popped rest) hs h

end Sys2Proof.Locating

namespace Sys2Proof.Locating

open Sys2Proof Sys2Proof.Machine Sys2Proof.Laws Sys2Proof.TapePath Sys2Proof.Supervision

/-! ## A LOCATE in BRAKE at rest (R146, R147) -/

/-- In MOVING a millisecond judges a LOCATE in BRAKE alone, unless the carry has expired (R5, R62, R146). -/
theorem exec_speedWindow_moving {s : State} (ht : s.chip.sup.ts = .moving) (hcar : s.chip.drv.carry ≠ .expired) :
    exec .speedWindowTick s = .next (s.ends (judgeBrake (ticked s.chip))) := by
  have hmoves : settleMoves s.chip = s.chip := by simp [settleMoves, ht]
  have hfollow : followReels (ticked s.chip) = ticked s.chip := followReels_idle (by simp [ticked, ht]) hcar
  have hend : stopEnd (ticked s.chip) = ticked s.chip := stopEnd_idle fun h => absurd (ht.symm.trans h.1) (by decide)
  have hcatch : catchEnd (ticked s.chip) = ticked s.chip := catchEnd_idle fun h => absurd (ht.symm.trans h.1) (by decide)
  have hstep : tickStep s.chip = judgeBrake (ticked s.chip) := calc
    tickStep s.chip = judgeBrake (catchEnd (stopEnd (followReels (ticked s.chip)))) := by rw [tickStep, hmoves]; rfl
    _ = judgeBrake (ticked s.chip) := by rw [hfollow, hend, hcatch]
  simp only [exec, execSpeedWindowTick, State.onChip, hstep]
  rfl

/-- Settles O32: each of the two commands comes to the judgement at rest, the update with the reference speed 0 and no
fraction of it. -/
theorem locateRetries : Obligations.LocateRetries := by
  unfold Obligations.LocateRetries
  refine ⟨fun g l s hm _ ht he hc hl hp hv hr hcar hu hq hg => ?tick, fun g l s hm _ ht he hc hl hp hv hr hu hq hg => ?update⟩
  case tick =>
    exact ⟨_, exec_speedWindow_moving ht hcar,
      judged_atRest g l (ticked s.chip) s hm ht (by simp [ticked, he]) hc hl hp hr hv hu hq hg⟩
  case update =>
    intro g'
    obtain ⟨p, hx⟩ := update_brake g s (by simp [hm]) ht he hc hp
    rw [hr, move_frac_zero _ _ hr] at hx
    exact ⟨_, p, hx, judged_atRest g' l _ s hm ht (by simp [he]) rfl hl hp rfl hv hu hq hg⟩

end Sys2Proof.Locating

namespace Sys2Proof.Locating

open Sys2Proof Sys2Proof.Machine Sys2Proof.Laws Sys2Proof.TapePath Sys2Proof.Grants

/-! ## SET_CUE and CLEAR_CUE (R138, R140, R141) -/

section CueCommands

variable {c : Chip}

theorem exec_setCue {s : State} (h : inRun cmdSetCue s.chip = true) :
    exec .setCue s = .next (s.ends (setCueStep s.chip)) := congrArg Host.Outcome.next (whenRun_ends h)

theorem exec_clearCue {s : State} (h : inRun cmdClearCue s.chip = true) :
    exec .clearCue s = .next (s.ends (clearCueStep s.chip)) := congrArg Host.Outcome.next (whenRun_ends h)

/-! SET_CUE in the order of R140's checks. -/

/-- The cue that the captured data of a SET_CUE give (12.3). -/
def cueGiven (m : Mailbox) : Cue :=
  ⟨(m.word 4).toInt, m.byte 2 + 256 * m.byte 3, (m.word 8).toNat, BitVec.ofNat 64 (natOfBytes ((m.data.drop 12).take 8))⟩

/-- The ranges of a cue's fields (R137). -/
def CueInRange (q : Cue) : Prop :=
  -16777216 ≤ q.position ∧ q.position ≤ 16777215 ∧ q.tolerance ≤ 4095 ∧ q.limit ≤ 65535

theorem cueInRange_iff (q : Cue) :
    CueInRange q ↔ ¬ (positionInRange q.position = false ∨ 4095 < q.tolerance ∨ 65535 < q.limit) := by
  simp only [CueInRange, not_or, Bool.not_eq_false, positionInRange_iff, Nat.not_lt, and_assoc]

theorem setCueStep_badIndex (h : 31 < c.mbx.byte 0) : setCueStep c = reply .refused detailBadIndex c := if_pos h

theorem setCueStep_range (h : c.mbx.byte 0 ≤ 31) (hq : ¬ CueInRange (cueGiven c.mbx)) :
    setCueStep c = reply .refused detailRange c :=
  (if_neg (Nat.not_lt.2 h)).trans (if_pos (not_not.1 (mt (cueInRange_iff _).2 hq)))

/-- A cue taken: its entry set, its event posted at its own position, and its reply by what the entry held before. -/
theorem setCueStep_taken (hm : c.mode = .running) (h : c.mbx.byte 0 ≤ 31) (hq : CueInRange (cueGiven c.mbx)) :
    let was := (c.cue.at (c.mbx.byte 0)).isSome
    setCueStep c = ({ c with
        cue := c.cue.put (c.mbx.byte 0) (cueGiven c.mbx)
        mbx := c.replied .done (if was then detailReplaced else detailCreated) } : Chip).posting
      [⟨.cueSet, c.mbx.byte 0, 0, c.clock, (cueGiven c.mbx).position, if was then 1 else 0⟩] [] := by
  intro was
  have hstep : setCueStep c = reply .done (if was then detailReplaced else detailCreated)
      (postEventAt .cueSet (c.mbx.byte 0) 0 (if was then 1 else 0) (cueGiven c.mbx).position
        { c with cue := c.cue.put (c.mbx.byte 0) (cueGiven c.mbx) }) :=
    (if_neg (Nat.not_lt.2 h)).trans (if_neg ((cueInRange_iff _).1 hq))
  have hmode : ({ c with cue := c.cue.put (c.mbx.byte 0) (cueGiven c.mbx) } : Chip).mode = .running := hm
  rw [hstep, postEventAt_running hmode]
  rfl

/-! CLEAR_CUE by the entries it names that are present (R141). -/

/-- The present entries that a CLEAR_CUE names. -/
def cuesNamed (c : Chip) : List Nat :=
  if c.mbx.byte 0 = allCues then c.cue.present else if (c.cue.at (c.mbx.byte 0)).isSome then [c.mbx.byte 0] else []

theorem clearCueStep_badIndex (h : 31 < c.mbx.byte 0) (ha : c.mbx.byte 0 ≠ allCues) :
    clearCueStep c = reply .refused detailBadIndex c := if_pos ⟨h, ha⟩

theorem clearCueStep_nothing (h : c.mbx.byte 0 ≤ 31 ∨ c.mbx.byte 0 = allCues) (hns : cuesNamed c = []) :
    clearCueStep c = reply .done detailNothing c := by
  have hindex : ¬ (31 < c.mbx.byte 0 ∧ c.mbx.byte 0 ≠ allCues) := by omega
  exact (if_neg hindex).trans (if_pos (by rw [← cuesNamed, hns]; rfl))

theorem clearCueStep_clears (hm : c.mode = .running) (h : c.mbx.byte 0 ≤ 31 ∨ c.mbx.byte 0 = allCues)
    (hns : cuesNamed c ≠ []) :
    clearCueStep c = ({ c with cue := c.cue.clear (cuesNamed c), mbx := c.replied .done 0 } : Chip).posting
      [c.event .cueCleared (c.mbx.byte 0) 0 ((cuesNamed c).length : Nat)] [] := by
  have hindex : ¬ (31 < c.mbx.byte 0 ∧ c.mbx.byte 0 ≠ allCues) := by omega
  have hstep : clearCueStep c = reply .done detailNone
      (postEvent .cueCleared (c.mbx.byte 0) 0 (cuesNamed c).length { c with cue := c.cue.clear (cuesNamed c) }) :=
    (if_neg hindex).trans (if_neg (by rw [← cuesNamed]; simpa using hns))
  have hmode : ({ c with cue := c.cue.clear (cuesNamed c) } : Chip).mode = .running := hm
  rw [hstep, postEvent_running hmode]
  rfl

theorem cuesNamed_one (h : c.mbx.byte 0 ≤ 31) :
    cuesNamed c = if (c.cue.at (c.mbx.byte 0)).isSome then [c.mbx.byte 0] else [] :=
  if_neg fun ha => absurd (ha ▸ h) (by decide)

theorem cuesNamed_all (h : c.mbx.byte 0 = allCues) : cuesNamed c = c.cue.present := if_pos h

theorem present_eq_nil {t : CueTable} (h : ∀ k, k < 32 → t.at k = none) : t.present = [] :=
  List.filter_eq_nil_iff.2 fun k hk => by simp [h k (List.mem_range.1 hk)]

end CueCommands

/-- The entries whose indices a clear goes through are absent after it, the others as they were. -/
theorem getD_clear (ns : List Nat) (cs : List (Option Cue)) (k : Nat) :
    (ns.foldl (fun cs n => cs.set n none) cs).getD k none = if k ∈ ns then none else cs.getD k none := by
  induction ns generalizing cs with
  | nil => rfl
  | cons n ns ih =>
    have hset : (cs.set n none).getD k none = if k = n then none else cs.getD k none := by
      rw [List.getD_eq_getElem?_getD, List.getD_eq_getElem?_getD, List.getElem?_set]
      by_cases hk : n = k
      · subst hk
        rw [if_pos rfl, if_pos rfl]
        split <;> rfl
      · rw [if_neg hk, if_neg (Ne.symm hk)]
    rw [List.foldl_cons, ih, hset]
    by_cases hk : k = n <;> simp [hk]

/-- With every present entry cleared none is present. -/
theorem at_clear_present (t : CueTable) {k : Nat} (h : k < 32) : (t.clear t.present).at k = none := by
  have hk := getD_clear t.present t.cues k
  by_cases hp : k ∈ t.present
  · exact hk.trans (if_pos hp)
  · have habsent : t.at k = none := by simpa [CueTable.present, h] using hp
    exact (hk.trans (if_neg hp)).trans habsent

/-- Two halves make a word, the upper one modulo its range. -/
theorem halves_eq {lo hi : Nat} (hl : lo ≤ 65535) : halves lo hi = BitVec.ofNat 32 (lo + 0x10000 * hi) := by
  apply BitVec.eq_of_toNat_eq
  rw [halves, BitVec.toNat_append, BitVec.toNat_ofNat, BitVec.toNat_ofNat, BitVec.toNat_ofNat,
    ← Nat.shiftLeft_add_eq_or_of_lt (Nat.mod_lt lo (by decide)), Nat.shiftLeft_eq]
  omega

/-- Settles O56: SET_CUE by the order of R140's checks, CLEAR_CUE by the present entries it names, and the words of the
two groups from the entry's image. -/
theorem cueCommandsTaken : Obligations.CueCommandsTaken := by
  unfold Obligations.CueCommandsTaken
  refine ⟨fun s h hm => ?setCue, fun s h hm => ?clearCue, fun n q ht _ => ?words⟩
  case setCue =>
    intro n tol pos lim q inRange was
    have hrange : CueInRange (cueGiven s.chip.mbx) ↔ inRange := Iff.rfl
    rw [exec_setCue h]
    refine ⟨fun hn => ?_, fun hn hq => ?_, fun hn hq => ?_⟩
    · rw [setCueStep_badIndex hn]
      rfl
    · rw [setCueStep_range hn (mt hrange.1 hq)]
      rfl
    · rw [setCueStep_taken hm hn (hrange.2 hq)]
      rfl
  case clearCue =>
    intro n
    have hfound (hk : s.chip.cue.cues.getD n none ≠ none) : (s.chip.cue.at n).isSome = true := Option.isSome_iff_ne_none.2 hk
    rw [exec_clearCue h]
    refine ⟨fun hn ha => ?_, fun hn hk => ?_, fun hn hk => ?_, fun ha hk => ?_, ?_⟩
    · rw [clearCueStep_badIndex hn ha]
      rfl
    · have hnamed : cuesNamed s.chip = [] := (cuesNamed_one hn).trans (if_neg (Option.isSome_iff_ne_none.not_left.2 hk))
      rw [clearCueStep_nothing (.inl hn) hnamed]
      rfl
    · have hnamed : cuesNamed s.chip = [n] := (cuesNamed_one hn).trans (if_pos (hfound hk))
      rw [clearCueStep_clears hm (.inl hn) (by simp [hnamed]), hnamed]
      rfl
    · have hnamed : cuesNamed s.chip = [] := (cuesNamed_all ha).trans (present_eq_nil hk)
      rw [clearCueStep_nothing (.inr ha) hnamed]
      rfl
    · intro ps ha hps
      have hnamed : cuesNamed s.chip = ps := cuesNamed_all ha
      refine ⟨(s.chip.cue.clear ps).cues, fun k hk => at_clear_present s.chip.cue hk, ?_⟩
      have hbyte : s.chip.mbx.byte 0 = 0xFF := ha
      rw [clearCueStep_clears hm (.inr ha) (hnamed ▸ hps), hnamed, hbyte]
      rfl
  case words =>
    intro off
    have hword : halves (q.tolerance + 0x8000) q.limit = BitVec.ofNat 32 (q.tolerance + 0x8000 + 0x10000 * q.limit) :=
      halves_eq (by omega)
    exact ⟨by rw [← hword]; rfl, rfl⟩

end Sys2Proof.Locating

namespace Sys2Proof.Locating

open Sys2Proof Sys2Proof.Machine Sys2Proof.Laws Sys2Proof.Rings

/-! ## The host's cycles to a word of the cue image (R138, R139, R157) -/

section WindowCycle

variable {off : Nat} {w : Bool} {data : Word} {be : Enables} {c : Chip}

/-- A cycle driven at an empty port, outside the bypass, is classified by its word. -/
theorem startCycle_arrived (hh : c.bus.host = none) (hm : c.mode ≠ .bypass) :
    startCycle (windowCycle off w data be c) c = classify (arrived (windowCycle off w data be c) c) :=
  (startCycle_free hh).trans (driveCycle_classified hm)

/-- Under the bypass it waits for the arbiter unchanged (R162). -/
theorem startCycle_bypass (hh : c.bus.host = none) (hm : c.mode = .bypass) :
    startCycle (windowCycle off w data be c) c =
      { c with bus := { c.bus with host := some ⟨windowCycle off w data be c, .bypassed⟩, done := .none } } :=
  (startCycle_free hh).trans (driveCycle_bypass hm)

variable (ho : off < 0x10000) (h4 : off % 4 = 0) (hl : 0x100 ≤ off)

include ho h4

/-- The word that a cycle to a window word names as it arrives. -/
theorem windowOffset_windowCycle :
    windowOffset (arrived (windowCycle off w data be c) c) (windowCycle off w data be c).addr.toNat = some off :=
  (windowOffset_arrived _ _ c).trans (windowOffset_windowAddr c ho h4)

include hl

/-- A hold keeps the cycle at the port as it came. -/
theorem classify_arrived_held (hd : heldCycle off w c = true) :
    classify (arrived (windowCycle off w data be c) c) = arrived (windowCycle off w data be c) c := by
  have hheld : heldCycle off w (arrived (windowCycle off w data be c) c) = true := hd
  rw [classify_port (arrived_host _ c), windowOffset_windowCycle ho h4, classifyAt_some, if_neg (by omega)]
  exact (if_pos hheld).trans (hostPhase_stands (arrived_host _ c))

/-- A read on which no hold stands passes to memory, in start-up too (R163). -/
theorem classify_arrived_read (hd : heldCycle off false c = false) :
    classify (arrived (windowCycle off false data be c) c) =
      { c with bus := { c.bus with host := some ⟨windowCycle off false data be c, .ready data be⟩, done := .none } } := by
  rw [classify_at (arrived_host _ c) (windowOffset_windowCycle ho h4) (by omega) hd]
  exact ite_self _

/-- A write in start-up is dropped, and nothing holds it (R163). -/
theorem classify_arrived_startupWrite (hm : c.mode = .startup) :
    classify (arrived (windowCycle off true data be c) c) = { c with bus := c.dropping } := by
  have hd : heldCycle off true (arrived (windowCycle off true data be c) c) = false := if_pos hm
  rw [classify_at (arrived_host _ c) (windowOffset_windowCycle ho h4) (by omega) hd]
  exact if_pos hm

end WindowCycle

/-- A write of the part's own that waits for its word holds a host cycle to it (R157). -/
theorem heldCycle_pending {off : Nat} {w : Bool} {c : Chip} (hm : c.mode = .running) (hp : pendingWrite off c = true) :
    heldCycle off w c = true := by
  simp [heldCycle, hm, hp]

/-- Settles O47: a cycle of the host's at a free port, by the mode and by the holds on its word. -/
theorem cueImageWriteDropped : Obligations.CueImageWriteDropped := by
  unfold Obligations.CueImageWriteDropped
  intro word data be s hh off addr port
  have hword : word.toNat < 128 := word.isLt
  have hoff : 0x3000 ≤ off ∧ off < 0x3200 ∧ off % 4 = 0 := by omega
  obtain ⟨hlo, hhi, h4⟩ := hoff
  have ho : off < 0x10000 := by omega
  have hl : 0x100 ≤ off := by omega
  have hwrite : exec (.cueImageWrite word data be) s =
      .next (s.ends (startCycle (windowCycle off true data be s.chip) s.chip)) := rfl
  have hread : exec (.hostCycle addr false data be) s =
      .next (s.ends (startCycle (windowCycle off false data be s.chip) s.chip)) := rfl
  rw [hwrite, hread]
  refine ⟨fun hm hd => ?dropped, fun hm hp => ?writeHeld, fun hm hd => ?read, fun hm hd => ?readHeld,
    fun hq hm => ?listHolds, fun hm => ?bypassWrite, fun hm => ?bypassRead, fun hm => ?startupWrite,
    fun hm hd => ?startupRead⟩
  case dropped =>
    rw [startCycle_arrived hh (by simp [hm]), classify_heldCueWrite (c := arrived _ s.chip) hm (arrived_host _ s.chip) rfl
      (windowOffset_windowCycle ho h4) hlo hhi hd]
    rfl
  case writeHeld =>
    rw [startCycle_arrived hh (by simp [hm]), classify_arrived_held ho h4 hl (heldCycle_pending hm hp)]
    rfl
  case read =>
    rw [startCycle_arrived hh (by simp [hm]), classify_arrived_read ho h4 hl hd]
    rfl
  case readHeld =>
    rw [startCycle_arrived hh (by simp [hm]), classify_arrived_held ho h4 hl hd]
    rfl
  case listHolds =>
    rw [heldCycle_read hm, hq, Bool.or_true]
  case bypassWrite =>
    rw [startCycle_bypass hh hm]
    rfl
  case bypassRead =>
    rw [startCycle_bypass hh hm]
    rfl
  case startupWrite =>
    rw [startCycle_arrived hh (by simp [hm]), classify_arrived_startupWrite ho h4 hl hm]
  case startupRead =>
    rw [startCycle_arrived hh (by simp [hm]), classify_arrived_read ho h4 hl hd]
    rfl

end Sys2Proof.Locating

namespace Sys2Proof.PassThrough

open Sys2Proof Sys2Proof.Machine Sys2Proof.Laws Sys2Proof.TapePath Sys2Proof.Rings

/-! ## What a command makes of memory (R155, R158, R160) -/

/-- What a command leaves of memory: the cycle at the port completes, or is ended at the memory response limit, and with
every other command memory stands. -/
inductive MemoryAfter (s : State) : Instr → Memory → Prop
  | stands (i : Instr) : MemoryAfter s i s.mem
  | completed {cy : Machine.Cycle} (hp : s.chip.bus.port = some cy) : MemoryAfter s .memoryCycleDone (cycleWrites cy s.mem)
  | ended {cy : Machine.Cycle} (hp : s.chip.bus.port = some cy) :
      MemoryAfter s .memoryResponseLimit (cycleLost cy s.chip.free s.mem)

variable {s : State} {i : Instr} {m : Memory}

/-- Every command completes, with the commands waiting as they were. -/
theorem exec_completes (i : Instr) (s : State) :
    ∃ c m, exec i s = .next { s with chip := c, mem := m } ∧ MemoryAfter s i m := by
  have onChip (i : Instr) {f : Chip → Chip} (h : exec i s = .next (s.onChip f)) :
      ∃ c m, exec i s = .next { s with chip := c, mem := m } ∧ MemoryAfter s i m := ⟨f s.chip, s.mem, h, .stands i⟩
  cases i
  case recoverySweepRead =>
    have hx : exec .recoverySweepRead s = .next (sweepStep s) := rfl
    rw [hx, sweepStep]
    split
    · exact ⟨_, _, rfl, .stands _⟩
    · exact ⟨_, _, rfl, .stands _⟩
  case memoryCycleDone =>
    have hx : exec .memoryCycleDone s = .next (memoryDoneStep s) := rfl
    rw [hx, memoryDoneStep]
    split
    next cy hp => exact ⟨_, _, rfl, .completed hp⟩
    next => exact ⟨_, _, rfl, .stands _⟩
  case memoryResponseLimit =>
    have hx : exec .memoryResponseLimit s = .next (memoryLimitStep s) := rfl
    rw [hx, memoryLimitStep]
    split
    next cy hp =>
      split
      · exact ⟨_, _, rfl, .stands _⟩
      · exact ⟨_, _, rfl, .ended hp⟩
    next => exact ⟨_, _, rfl, .stands _⟩
  all_goals exact onChip _ rfl

/-- The canonical form is kept through what a command leaves of memory. -/
theorem MemoryAfter.wf (h : MemoryAfter s i m) (hs : s.mem.wf = true) : m.wf = true := by
  cases h with
  | stands => exact hs
  | completed => exact wf_cycleWrites hs _
  | ended => exact wf_cycleLost hs _ _

/-- Only the two ends of a memory cycle change memory. -/
theorem MemoryAfter.eq (h : MemoryAfter s i m) (hd : i ≠ .memoryCycleDone) (hl : i ≠ .memoryResponseLimit) :
    m = s.mem := by
  cases h with
  | stands => rfl
  | completed => exact absurd rfl hd
  | ended => exact absurd rfl hl

/-- Settles O3: the command at the front leaves memory as it stands, or a cycle's word written. -/
theorem stepKeepsMemory : Obligations.StepKeepsMemory := by
  intro s t hs h
  cases hq : s.pending with
  | nil =>
    simp only [step, hq] at h
    cases h
    exact hs
  | cons i rest =>
    obtain ⟨c, m, hx, hm⟩ := exec_completes i (s.popped rest)
    simp only [step, hq, hx] at h
    cases h
    exact hm.wf hs

/-- Settles O9, by what the command makes of memory. -/
theorem commandsComplete : Obligations.CommandsComplete := by
  intro i s
  obtain ⟨c, m, hx, hm⟩ := exec_completes i s
  exact ⟨_, hx, rfl, hm.eq⟩

end Sys2Proof.PassThrough

namespace Sys2Proof.PassThrough

open Sys2Proof Sys2Proof.Machine Sys2Proof.Laws Sys2Proof.TapePath Sys2Proof.Rings

variable {c : Chip} {cy : Machine.Cycle}

/-! ## The arbiter (R157, R158, R159) -/

/-- What the host requests is a cycle of the host's. -/
theorem hostNext?_host (h : hostNext? c = some cy) : ∃ a w d b y, cy = .host a w d b y := by
  unfold hostNext? at h
  split at h
  · split at h
    case h_1 => exact ⟨_, _, _, _, _, (Option.some.inj h).symm⟩
    case h_2 => exact ⟨_, _, _, _, _, (Option.some.inj h).symm⟩
    all_goals exact absurd h (by simp)
  · exact absurd h (by simp)

/-- A cycle granted stands at the port. -/
theorem grant_port (b : Bus) (cy : Machine.Cycle) : (b.grant cy).port = some cy := by
  cases cy <;> rfl

theorem arbitrate_grants (hp : c.bus.port = none) (hg : granted? c = some cy) : arbitrate c = onBus (·.grant cy) c := by
  simp only [arbitrate, hp, hg]

theorem arbitrate_idle (hp : c.bus.port = none) (hg : granted? c = none) : arbitrate c = c := by
  simp only [arbitrate, hp, hg]

/-- With no fetch's read, the host's cycle is granted over the queue until its head has been passed over six times. -/
theorem granted?_host (hi : (HandFetch.next? c).or ((mailNext? c).or (sweepNext? c)) = none) (hh : hostNext? c = some cy)
    (h : c.bus.passOver < 6 ∨ c.bus.queue = []) : granted? c = some cy := by
  rw [granted?_idle hi, hh]
  cases hq : c.bus.queue with
  | nil => rfl
  | cons w ws => exact if_pos (h.resolve_right (by simp [hq]))

/-- With no fetch's read, the head of the queue is granted where the host has no turn, or after six pass-overs. -/
theorem granted?_head {w : PartWrite} {ws : List PartWrite}
    (hi : (HandFetch.next? c).or ((mailNext? c).or (sweepNext? c)) = none) (hq : c.bus.queue = w :: ws)
    (h : hostNext? c = none ∧ ¬ (releaseDue c = true ∧ c.bus.passOver < 6) ∨ 6 ≤ c.bus.passOver) :
    granted? c = some (.part (windowAddr c w.offset) w) := by
  rw [granted?_idle hi, hq]
  cases hh : hostNext? c with
  | none => exact if_neg (h.elim And.right fun hge hdue => absurd hdue.2 (by simpa [passOverLimit] using hge))
  | some cy =>
    exact if_neg (by
      have := h.resolve_left fun hn => by simp [hh] at hn
      simpa [passOverLimit] using this)

/-- With no request of the host's nothing is granted of an empty queue, and no head with the host's release due (log 59). -/
theorem granted?_due (hi : (HandFetch.next? c).or ((mailNext? c).or (sweepNext? c)) = none) (hh : hostNext? c = none)
    (h : c.bus.queue = [] ∨ releaseDue c = true ∧ c.bus.passOver < 6) : granted? c = none := by
  rw [granted?_idle hi, hh]
  cases hq : c.bus.queue with
  | nil => rfl
  | cons w ws => exact if_pos (h.resolve_left (by simp [hq]))

/-- A release is due where a held cycle meets no hold any more (R157). -/
theorem releaseDue_iff {h : HostPort} (hh : c.bus.host = some h) : releaseDue c = true ↔ h.phase = .held ∧
    ∀ off, windowOffset c h.cyc.addr.toNat = some off → heldCycle off h.cyc.write c = false := by
  simp only [releaseDue, hh]
  cases windowOffset c h.cyc.addr.toNat <;> simp

/-- Settles O12: the arbiter by what it grants, and a release that is due. -/
theorem arbiterGrants : Obligations.ArbiterGrants := by
  refine ⟨?_, fun c h hh => releaseDue_iff hh⟩
  intro c hp due
  refine ⟨fun r hr => ?fetch, fun hi => ⟨fun h hh hq => ?host, fun w ws hq h => ?head, fun hh hd => ?due,
    fun hh hq => ?empty⟩, fun cy => ?busy⟩
  case fetch =>
    rw [arbitrate_grants hp (granted?_fetch hr)]
    exact grant_port _ _
  case host =>
    obtain ⟨a, w, d, b, y, rfl⟩ := hostNext?_host hh
    rw [arbitrate_grants hp (granted?_host hi hh hq)]
    refine ⟨rfl, ?_⟩
    cases hq : c.bus.queue <;> simp [Bus.grant, hq]
  case head =>
    rw [arbitrate_grants hp (granted?_head hi hq h)]
    exact ⟨rfl, rfl⟩
  case due => exact arbitrate_idle hp (granted?_due hi hh (.inr hd))
  case empty => exact arbitrate_idle hp (granted?_due hi hh (.inl hq))
  case busy => rfl

end Sys2Proof.PassThrough

namespace Sys2Proof.PassThrough

open Sys2Proof Sys2Proof.Machine Sys2Proof.Laws Sys2Proof.TapePath Sys2Proof.Supervision

variable {c : Chip} {s : State}

/-! ## SETTINGS_LOAD (R164, R178, R183) -/

/-- A block's posts change the queue and what waits at the block alone (R156). -/
theorem postWrites_eq (p : Poster) (ws : List PartWrite) (c : Chip) :
    ∃ l q, postWrites p ws c = withWaiting p l (onBus (fun b => { b with queue := q }) c) := by
  induction ws generalizing c with
  | nil => exact ⟨waiting p c, c.bus.queue, by cases p <;> rfl⟩
  | cons w ws ih =>
    obtain ⟨l, q, h⟩ : ∃ l q, postWrite p w c = withWaiting p l (onBus (fun b => { b with queue := q }) c) := by
      unfold postWrite
      split
      · exact ⟨waiting p c, c.bus.queue ++ [w], by cases p <;> rfl⟩
      · exact ⟨waiting p c ++ [w], c.bus.queue, by cases p <;> rfl⟩
    obtain ⟨l', q', h'⟩ := ih (postWrite p w c)
    have hcons : postWrites p (w :: ws) c = postWrites p ws (postWrite p w c) := rfl
    refine ⟨l', q', ?_⟩
    rw [hcons, h', h]
    cases p <;> rfl

/-- What follows a load (R164, R183): the settings stand as loaded, the notice mask is the default mask, the recovery
sweep begins, and nothing is posted but writes. -/
structure Loaded (c d : Chip) : Prop where
  set : d.set = { c.set with loaded := true }
  mask : d.ntc.mask = c.set.gen.defaultMask
  sweep : d.pln.sweep = some 0
  evt : d.evt = c.evt
  drv : d.drv = c.drv
  trk : d.trk = c.trk
  sup : d.sup = c.sup

theorem Loaded.arbitrate {c d : Chip} (h : Loaded c d) : Loaded c (arbitrate d) := by
  rw [arbitrate_eq]
  exact ⟨h.set, h.mask, h.sweep, h.evt, h.drv, h.trk, h.sup⟩

theorem settingsLoaded_loaded (c : Chip) : Loaded c (settingsLoaded c) := by
  obtain ⟨l, q, himage⟩ := postWrites_eq .startUp (onSet (fun s => { s with loaded := true }) c).set.imageWrites
    (onSet (fun s => { s with loaded := true }) c)
  obtain ⟨w, q', hmail⟩ := postWrites_eq .mailbox mailboxClear
    (clearCueImage (postImage (onSet (fun s => { s with loaded := true }) c)))
  unfold settingsLoaded
  dsimp only
  rw [hmail, postImage, himage]
  constructor <;> simp [takeDefaultMask, withWaiting, clearCueImage]

theorem exec_settingsLoad (s : State) : exec .settingsLoad s = .next (s.withChip (arbitrate (loadStep s.chip))) := rfl

/-- The part as the third failing read leaves it: the defaults, and the event held until start-up ends. -/
def defaulted (c : Chip) : Chip :=
  { c with
    set := ({ c.set with reads := c.set.reads + 1, coming := c.set.coming.tail } : Store).defaults
    evt := { c.evt with held := c.evt.held ++
      [.event (c.event .settingsDefaulted 3 0 ((c.set.nextRead.getD 511 0).toNat : Int))] } }

section Read

variable (hm : c.mode = .startup) (hl : c.set.loaded = false)

include hm hl

/-- A read of the store at start-up is judged by its check and by how many have failed (R178). -/
theorem loadStep_read : loadStep c =
    if storePasses c.set.nextRead then settingsLoaded (onSet (·.load c.set.nextRead) (onSet (·.readMade) c))
    else if c.set.reads + 1 < 3 then { c with set := { c.set with reads := c.set.reads + 1, coming := c.set.coming.tail } }
    else settingsLoaded (postEvent .settingsDefaulted 3 0 ((c.set.nextRead.getD 511 0).toNat : Int)
      { c with set := ({ c.set with reads := c.set.reads + 1, coming := c.set.coming.tail } : Store).defaults }) :=
  (if_pos ⟨hm, hl⟩).trans rfl

theorem loadStep_passes (hp : storePasses c.set.nextRead = true) :
    loadStep c = settingsLoaded (onSet (·.load c.set.nextRead) (onSet (·.readMade) c)) := by
  rw [loadStep_read hm hl, if_pos hp]

theorem loadStep_again (hp : storePasses c.set.nextRead = false) (h : c.set.reads + 1 < 3) : loadStep c =
    { c with set := { c.set with reads := c.set.reads + 1, coming := c.set.coming.tail } } := by
  rw [loadStep_read hm hl, if_neg (by simp [hp]), if_pos h]

theorem loadStep_defaults (hp : storePasses c.set.nextRead = false) (h : 3 ≤ c.set.reads + 1) : loadStep c =
    settingsLoaded (defaulted c) := by
  rw [loadStep_read hm hl, if_neg (by simp [hp]), if_neg (by omega), postEvent_startup (by exact hm)]
  rfl

end Read

/-- Settles O36: a read that passes, one that fails, and the third that does. -/
theorem settingsLoadTaken : Obligations.SettingsLoadTaken := by
  intro s hm hl bytes loaded
  refine ⟨fun hp => ?passes, fun hp h hport => ?again, fun hp h => ?defaults⟩
  case passes =>
    have h := (settingsLoaded_loaded (onSet (·.load bytes) (onSet (·.readMade) s.chip))).arbitrate
    have hread : loadStep s.chip = settingsLoaded (onSet (·.load bytes) (onSet (·.readMade) s.chip)) :=
      loadStep_passes hm hl hp
    rw [← hread] at h
    refine ⟨_, exec_settingsLoad s, ?_⟩
    generalize arbitrate (loadStep s.chip) = d at h
    exact ⟨(congrArg Store.loaded h.set :), (congrArg Store.gen h.set :), (congrArg Store.profs h.set :),
      (congrArg Store.coming h.set :), h.mask, h.sweep, congrArg EventWriter.held h.evt, (congrArg Store.nv h.set :), h.drv,
      h.trk, h.sup, rfl⟩
  case again =>
    rw [exec_settingsLoad, loadStep_again hm hl hp h, Rings.arbitrate_busy (by exact hport)]
  case defaults =>
    have hd := (settingsLoaded_loaded (defaulted s.chip)).arbitrate
    rw [← loadStep_defaults hm hl hp h] at hd
    refine ⟨_, exec_settingsLoad s, ?_⟩
    generalize arbitrate (loadStep s.chip) = d at hd
    exact ⟨(congrArg Store.loaded hd.set :), (congrArg Store.gen hd.set :), (congrArg Store.profs hd.set :), hd.mask,
      congrArg EventWriter.held hd.evt, (congrArg Store.nv hd.set :), (congrArg Store.coming hd.set :), hd.drv, hd.trk,
      rfl⟩

end Sys2Proof.PassThrough

namespace Sys2Proof.PassThrough

open Sys2Proof Sys2Proof.Machine Sys2Proof.Laws Sys2Proof.TapePath Sys2Proof.Rings

variable {c : Chip} {s : State} {cy : Machine.Cycle}

/-! ## A cycle ended at the memory response limit (R160, R161, R162) -/

/-- What the cycle ended at the limit leaves of the part, before the host's next cycle and the arbiter. -/
def aborted (cy : Machine.Cycle) (s : State) : Chip := cycleAborted cy (freePort s.chip)

theorem exec_memoryResponseLimit (hp : s.chip.bus.port = some cy) (hl : cy.unlimited = false) :
    exec .memoryResponseLimit s = .next { s with
      mem := cycleLost cy s.chip.free s.mem
      chip := arbitrate (driveOn (bypassEnds (aborted cy s))) } := by
  have hx : exec .memoryResponseLimit s = .next (memoryLimitStep s) := rfl
  rw [hx, memoryLimitStep, hp]
  exact congrArg Host.Outcome.next (if_neg (by simp [hl]))

/-- A cycle with nothing of the host's to follow it: the arbiter grants the port again. -/
theorem exec_memoryResponseLimit_alone {d : Chip} (hp : s.chip.bus.port = some cy) (hl : cy.unlimited = false)
    (hd : aborted cy s = d) (hb : d.mode ≠ .bypass ∨ d.bus.ending = none) (hn : d.bus.next ≠ none → d.bus.host ≠ none) :
    exec .memoryResponseLimit s =
      .next { s with mem := cycleLost cy s.chip.free s.mem, chip := arbitrate d } := by
  rw [exec_memoryResponseLimit hp hl, hd, bypassEnds_stands hb, (driveNext_ok hn).2]

/-- An abort posted by a running part (R161). -/
theorem postMemoryFault_running (hm : c.mode = .running) (detail addr : Nat) :
    postMemoryFault detail addr c = c.posting [c.event .memoryFault detail 0 addr] [.memoryFault] := by
  rw [postMemoryFault, postEvent_running hm, postNotice_running (by exact hm)]
  rfl

/-- An abort in start-up, whose posts are held (R165). -/
theorem postMemoryFault_startup (hm : c.mode = .startup) (detail addr : Nat) : postMemoryFault detail addr c =
    { c with evt := { c.evt with held := c.evt.held ++
      [.event (c.event .memoryFault detail 0 addr), .notice .memoryFault] } } := by
  rw [postMemoryFault, Supervision.postEvent_startup hm, Supervision.postNotice_startup (by exact hm)]
  simp

/-- The address of a word, as an event carries it. -/
theorem wordAddr_cast (a : Nat) : ((a / 4 * 4 : Nat) : Int) = (a : Int) / 4 * 4 := by omega

/-! ### A cycle of the host's -/

/-- The part with a cycle of the host's completed to it with no answer of memory's, and the port free (R160). -/
def hostEnded (write : Bool) (c : Chip) : Chip :=
  { c with
    free := if write then c.free + 1 else c.free
    bus := { c.bus with port := none, host := none, done := if write then .wrote else .read 0xFFFFFFFF } }

/-- With the abort posted (R161). -/
def hostAborted (a : Nat) (write : Bool) (c : Chip) : Chip :=
  (hostEnded write c).posting [c.event .memoryFault (if write then 2 else 1) 0 (a / 4 * 4)] [.memoryFault]

/-- With the host's next cycle about to be driven, and the answer to the ended one kept (logs 36, 37). -/
def nextDue (c : Chip) : Chip := { c with bus := { c.bus with next := none, prior := c.bus.done } }

section HostCycle

variable {a : Nat} {write : Bool} {data : Word} {be : Enables} (hm : s.chip.mode = .running)

include hm

theorem aborted_host (y : Bool) : aborted (.host a write data be y) s = hostAborted a write s.chip := by
  rw [hostAborted, ← wordAddr_cast]
  exact postMemoryFault_running (c := hostEnded write s.chip) hm _ _

variable (hp : s.chip.bus.port = some (.host a write data be false))

include hp

theorem exec_hostAborted (hn : s.chip.bus.next = none) : exec .memoryResponseLimit s = .next { s with
    mem := cycleLost (.host a write data be false) s.chip.free s.mem
    chip := arbitrate (hostAborted a write s.chip) } :=
  exec_memoryResponseLimit_alone hp rfl (aborted_host hm false) (.inl (hm.trans_ne (by decide)))
    fun h => absurd hn h

/-- The host's next cycle is driven as HOST_CYCLE drives it. -/
theorem exec_hostAborted_drives {cy : HostCyc} (hn : s.chip.bus.next = some cy) : exec .memoryResponseLimit s =
    exec (.hostCycle cy.addr cy.write cy.data cy.be) { s with
      mem := cycleLost (.host a write data be false) s.chip.free s.mem
      chip := nextDue (hostAborted a write s.chip) } := by
  have hdrive := (driveNext_some (c := hostAborted a write s.chip) rfl hn).2
  rw [exec_memoryResponseLimit hp rfl, aborted_host hm,
    bypassEnds_stands (c := hostAborted a write s.chip) (.inl (hm.trans_ne (by decide))), hdrive, exec_hostCycle,
    startCycle_free rfl]
  rfl

end HostCycle

/-- The host's aborted read: 0xFFFFFFFF, and memory stands. -/
theorem hostRead_aborted {a : Nat} {data : Word} {be : Enables} (hm : s.chip.mode = .running)
    (hp : s.chip.bus.port = some (.host a false data be false)) (hn : s.chip.bus.next = none) :
    ∃ t, exec .memoryResponseLimit s = .next t ∧ t.mem = s.mem ∧ t.chip.bus.host = none ∧
      t.chip.bus.done = .read 0xFFFFFFFF ∧ t.chip.bus.queue = s.chip.bus.queue ∧
      t.chip.evt.posted = s.chip.evt.posted ++ [s.chip.event .memoryFault 1 0 (a / 4 * 4)] ∧
      t.chip.ntc = s.chip.ntc.post .memoryFault := by
  have hb := arbitrate_pathStands (hostAborted a false s.chip)
  refine ⟨_, exec_hostAborted hm hp hn, ?_⟩
  rw [arbitrate_eq]
  exact ⟨rfl, hb.host rfl, hb.done, hb.queue, rfl, rfl⟩

/-- What an aborted write of the host's leaves, before the host's next cycle where it has one (R160, R161; log 12). -/
structure WriteAborted (a : Nat) (s u : State) : Prop where
  port : u.chip.bus.host = none ∧ u.chip.bus.next = none
  outside : ∀ x, x < a / 4 * 4 ∨ a / 4 * 4 + 4 ≤ x → u.mem.read x = s.mem.read x
  queue : u.chip.bus.queue = s.chip.bus.queue
  blocks : u.chip.pln = s.chip.pln ∧ u.chip.gnt = s.chip.gnt ∧ u.chip.mbx = s.chip.mbx ∧ u.chip.set = s.chip.set
  mode : u.chip.mode = .running
  posted : u.chip.evt.posted = s.chip.evt.posted ++ [s.chip.event .memoryFault 2 0 (a / 4 * 4)]
  ntc : u.chip.ntc = s.chip.ntc.post .memoryFault

/-- The word written is unknown; every other byte stands (R160; log 12). -/
theorem cycleLost_outside {a : Nat} {data : Word} {be : Enables} (hmem : MemoryOk s) (free : Nat) {x : Nat}
    (hx : x < a / 4 * 4 ∨ a / 4 * 4 + 4 ≤ x) : (cycleLost (.host a true data be false) free s.mem).read x = s.mem.read x := by
  show (s.mem.writeWord (a / 4 * 4) (Config.abortedWord free) allBytes).read x = s.mem.read x
  exact read_writeWord_other hmem _ _ hx

section HostWrite

variable {a : Nat} {data : Word} {be : Enables} (hm : s.chip.mode = .running) (hmem : MemoryOk s)

include hm hmem

/-- With no next cycle the arbiter follows. -/
theorem writeAborted_alone (hn : s.chip.bus.next = none) : WriteAborted a s { s with
    mem := cycleLost (.host a true data be false) s.chip.free s.mem
    chip := arbitrate (hostAborted a true s.chip) } := by
  have hb := arbitrate_pathStands (hostAborted a true s.chip)
  rw [arbitrate_eq]
  exact ⟨⟨hb.host rfl, hb.next.trans hn⟩, fun _ hx => cycleLost_outside hmem _ hx, hb.queue, ⟨rfl, rfl, rfl, rfl⟩, hm,
    rfl, rfl⟩

/-- With one it is due. -/
theorem writeAborted_due : WriteAborted a s { s with
    mem := cycleLost (.host a true data be false) s.chip.free s.mem
    chip := nextDue (hostAborted a true s.chip) } :=
  ⟨⟨rfl, rfl⟩, fun _ hx => cycleLost_outside hmem _ hx, rfl, ⟨rfl, rfl, rfl, rfl⟩, hm, rfl, rfl⟩

/-- An aborted write of the host's, and its next cycle driven where it has one. -/
theorem hostWrite_aborted (hp : s.chip.bus.port = some (.host a true data be false)) :
    ∃ t u, exec .memoryResponseLimit s = .next t ∧ WriteAborted a s u ∧
      (s.chip.bus.next = none → t = u ∧ t.chip.bus.done = .wrote) ∧
      ∀ cy, s.chip.bus.next = some cy → u.chip.bus.prior = .wrote ∧
        exec (.hostCycle cy.addr cy.write cy.data cy.be) u = .next t := by
  cases hn : s.chip.bus.next with
  | none =>
    exact ⟨_, _, exec_hostAborted hm hp hn, writeAborted_alone hm hmem hn,
      fun _ => ⟨rfl, (arbitrate_pathStands (hostAborted a true s.chip)).done⟩, fun cy h => by simp at h⟩
  | some cy =>
    refine ⟨_, _, exec_hostAborted_drives hm hp hn, writeAborted_due (data := data) (be := be) hm hmem,
      fun h => by simp at h, fun cy' h => ?_⟩
    obtain rfl := Option.some.inj h
    exact ⟨rfl, rfl⟩

end HostWrite

/-! ### A write or a read of the part's own -/

/-- The part with the head of its queue dropped and the port free. -/
def headDropped (c : Chip) : Chip := { c with bus := { c.bus with port := none, queue := c.bus.queue.tail, passOver := 0 } }

/-- The part with a word of a hand-off's fetch given up, and the port free (R95, R160). -/
def fetchAborted (k : Nat) (h : HandFetch) (c : Chip) : Chip :=
  { c with
    pln := { c.pln with fetch := some { h with
      todo := h.todo.tail, got := h.got ++ [(k, 0xFFFFFFFF)], aborted := true } }
    bus := { c.bus with port := none } }

/-- The part with the recovery sweep past a slot, and the port free (R109). -/
def slotPassed (n : Nat) (c : Chip) : Chip :=
  { c with pln := { c.pln with sweep := some (n + 1) }, bus := { c.bus with port := none } }

section OwnCycle

variable {a : Nat} {w : PartWrite} (hm : s.chip.mode = .running)

include hm

/-- A dropped write is posted with its address (R161). -/
theorem aborted_part (h : w.offset < 0x4000 ∨ 0x4800 ≤ w.offset) : aborted (.part a w) s =
    (headDropped s.chip).posting [s.chip.event .memoryFault 3 0 (a / 4 * 4)] [.memoryFault] := by
  have hother : isEventWrite w = false := decide_eq_false (by omega)
  rw [← wordAddr_cast]
  exact (if_neg (by simp [hother])).trans (postMemoryFault_running (c := headDropped s.chip) hm _ _)

/-- A dropped write of an event record posts the notice alone (R161). -/
theorem aborted_eventWrite (h₁ : 0x4000 ≤ w.offset) (h₂ : w.offset < 0x4800) : aborted (.part a w) s =
    (headDropped s.chip).posting [] [.memoryFault] := by
  have hevent : isEventWrite w = true := decide_eq_true ⟨h₁, h₂⟩
  refine (if_pos hevent).trans ?_
  rw [postNotice_running (by exact hm)]
  simp [Chip.posting, headDropped, queueHeadGone, freePort, onBus]

/-- An aborted read of a hand-off's fetch is posted, and the fetch goes on (R95, R161). -/
theorem aborted_handRead {k : Nat} {h : HandFetch} (hf : s.chip.pln.fetch = some h) : aborted (.handRead a k) s =
    (fetchAborted k h s.chip).posting [s.chip.event .memoryFault 4 0 (a / 4 * 4)] [.memoryFault] := by
  have hread : handRead k 0xFFFFFFFF true (freePort s.chip) = fetchAborted k h s.chip := by
    simp only [handRead, freePort, onPln, onBus, hf, Option.map_some, Bool.or_true]
    rfl
  rw [← wordAddr_cast, aborted, cycleAborted, hread]
  exact postMemoryFault_running (c := fetchAborted k h s.chip) hm _ _

end OwnCycle

/-- An aborted read of the recovery sweep is a held post, and the next slot is read (R109, R165). -/
theorem aborted_sweepRead {a n : Nat} (hm : s.chip.mode = .startup) : aborted (.sweepRead a n) s =
    { slotPassed n s.chip with evt := { s.chip.evt with held := s.chip.evt.held ++
      [.event (s.chip.event .memoryFault 4 0 (a / 4 * 4)), .notice .memoryFault] } } := by
  rw [← wordAddr_cast]
  exact postMemoryFault_startup (c := slotPassed n s.chip) hm _ _

/-- Settles O45: each cycle's end at the limit, by what stands at the port. -/
theorem memoryLimitEnds : Obligations.MemoryLimitEnds := by
  refine ⟨fun s hm hnext => ⟨fun a data be hp => ⟨hostRead_aborted hm hp, fun cy hn => ?readDrives⟩,
      fun a w hp ho => ?part, fun a w hp h₁ h₂ => ?eventWrite⟩,
    fun a write data be s hp => ?unlimited,
    fun s hm hnext => ⟨fun a data be hp hmem => ?hostWrite, fun a k h hp hf => ?handRead⟩,
    fun a n s hm hnext hp => ?sweepRead, fun s hnext hb hp => ?orphan⟩
  case readDrives => exact exec_hostAborted_drives hm hp hn
  case part =>
    have hx := exec_memoryResponseLimit_alone hp rfl (aborted_part hm ho) (.inl (hm.trans_ne (by decide))) hnext
    rw [arbitrate_eq] at hx
    exact ⟨_, hx, rfl, (arbitrate_pathStands _).queue, rfl, rfl⟩
  case eventWrite =>
    have hx := exec_memoryResponseLimit_alone hp rfl (aborted_eventWrite hm h₁ h₂) (.inl (hm.trans_ne (by decide))) hnext
    rw [arbitrate_eq] at hx
    exact ⟨_, hx, rfl, (arbitrate_pathStands _).queue, by simp [Chip.posting, headDropped], rfl⟩
  case unlimited =>
    have hx : exec .memoryResponseLimit s = .next (memoryLimitStep s) := rfl
    rw [hx, memoryLimitStep, hp]
    rfl
  case hostWrite =>
    obtain ⟨t, u, hx, hu, halone, hdrives⟩ := hostWrite_aborted hm hmem hp
    obtain ⟨hpln, hgnt, hmbx, hset⟩ := hu.blocks
    exact ⟨t, u, hx, hu.port.1, hu.port.2, hu.outside, hu.queue, hpln, hgnt, hmbx, hset, hu.mode, hu.posted, hu.ntc,
      halone, hdrives⟩
  case handRead =>
    have hx := exec_memoryResponseLimit_alone hp rfl (aborted_handRead hm hf) (.inl (hm.trans_ne (by decide))) hnext
    rw [arbitrate_eq] at hx
    exact ⟨_, hx, rfl, rfl, (arbitrate_pathStands _).queue, rfl, rfl⟩
  case sweepRead =>
    have hx := exec_memoryResponseLimit_alone hp rfl (aborted_sweepRead hm) (.inl (hm.trans_ne (by decide))) hnext
    rw [arbitrate_eq] at hx
    exact ⟨_, hx, rfl, rfl, (arbitrate_pathStands _).queue, rfl, rfl, rfl⟩
  case orphan =>
    obtain hp | ⟨a, data, be, hp⟩ := hp
    · exact exec_memoryResponseLimit_alone hp rfl rfl hb hnext
    · exact exec_memoryResponseLimit_alone hp rfl rfl hb hnext

end Sys2Proof.PassThrough

namespace Sys2Proof.PassThrough

open Sys2Proof Sys2Proof.Machine Sys2Proof.Laws Sys2Proof.TapePath Sys2Proof.Rings Sys2Proof.Locating

variable {c : Chip} {s : State}

/-! ## Reads of the live window (R153, R154, R163) -/

/-- A read of the live window, by the word's number. -/
def liveRead (k : Nat) (c : Chip) : HostCyc := windowCycle (4 * k) false 0 allBytes c

theorem exec_liveWindowRead (word : BitVec 6) (s : State) : exec (.liveWindowRead word) s =
    .next (s.ends (startCycle (liveRead word.toNat s.chip) s.chip)) := rfl

theorem exec_groupHeadRead (s : State) :
    exec .groupHeadRead s = .next (s.ends (startCycle (liveRead 4 s.chip) s.chip)) := rfl

/-- It is answered by the read responder, without memory. -/
theorem startCycle_liveRead {k : Nat} (hk : k < 64) (hh : c.bus.host = none) (hm : c.mode ≠ .bypass) :
    startCycle (liveRead k c) c = if c.mode = .startup then completeHost (.read (startingWord k)) c
      else readLive k (arrived (liveRead k c) c) := by
  have hword : 4 * k / 4 = k := by omega
  rw [liveRead, startCycle_arrived hh hm, classify_port (arrived_host _ c), windowOffset_windowCycle (by omega) (by omega),
    classifyAt_some, if_pos (by omega)]
  refine (if_neg (by simp [windowCycle])).trans ?_
  rw [hword]
  rfl

/-- The words of 12.6 do not look at the host port. -/
theorem liveWord_arrived (cy : HostCyc) (c : Chip) (k : Nat) : liveWord (arrived cy c) k = liveWord c k := rfl

theorem readLive_arrived (cy : HostCyc) (c : Chip) {k : Nat} (hk : k ≠ 4) : readLive k (arrived cy c) =
    { c with bus := { c.bus with host := none, done := .read (liveWord c k) } } := by
  rw [readLive, if_neg hk, liveWord_arrived]
  rfl

/-- The group head latches the group and answers the position (R154). -/
theorem readLive_head (cy : HostCyc) (c : Chip) : readLive 4 (arrived cy c) = { c with bus := { c.bus with
    host := none, done := .read (wordOfInt c.trk.position), snap := some (snapNow c) } } := rfl

/-- In start-up word 0 answers STARTING, and every other word 0 (R163). -/
theorem startingWord_eq (word : BitVec 6) : startingWord word.toNat = if word = 0 then 14 else 0 := by
  by_cases h : word = 0
  · subst h
    decide
  · rw [if_neg h]
    exact if_neg fun h0 => h (BitVec.eq_of_toNat_eq h0)

/-- Each read of the live window: in the running part, in start-up, and of the group head. -/
theorem live_answers (s : State) (hh : s.chip.bus.host = none) :
    (∀ word : BitVec 6, s.chip.mode = .running → word ≠ 4 → exec (.liveWindowRead word) s = .next (s.ends { s.chip with
       bus := { s.chip.bus with host := none, done := .read (liveWord s.chip word.toNat) } })) ∧
    (∀ word : BitVec 6, s.chip.mode = .startup → exec (.liveWindowRead word) s = .next (s.ends { s.chip with
       bus := { s.chip.bus with host := none, done := .read (if word = 0 then 14 else 0) } })) ∧
    (s.chip.mode = .running → exec .groupHeadRead s = .next (s.ends { s.chip with bus := { s.chip.bus with
       host := none, done := .read (wordOfInt s.chip.trk.position), snap := some (snapNow s.chip) } })) := by
  refine ⟨fun word hm hw => ?_, fun word hm => ?_, fun hm => ?_⟩
  · have hk : word.toNat ≠ 4 := fun h => hw (BitVec.eq_of_toNat_eq h)
    rw [exec_liveWindowRead, startCycle_liveRead word.isLt hh (hm.trans_ne (by decide)), if_neg (hm.trans_ne (by decide)),
      readLive_arrived _ _ hk]
  · rw [exec_liveWindowRead, startCycle_liveRead word.isLt hh (hm.trans_ne (by decide)), if_pos hm, startingWord_eq]
    rfl
  · rw [exec_groupHeadRead, startCycle_liveRead (by decide) hh (hm.trans_ne (by decide)), if_neg (hm.trans_ne (by decide)),
      readLive_head]

/-! ## The words of 12.6 -/

theorem toNat_eq_ite (b : Bool) : b.toNat = if b then 1 else 0 := by
  cases b <;> rfl

/-- A half word is its two bytes. -/
theorem bytes_append (h : BitVec 16) : BitVec.ofNat 8 (h.toNat / 256) ++ BitVec.ofNat 8 (h.toNat % 256) = h := by
  have hlt := h.isLt
  apply BitVec.eq_of_toNat_eq
  rw [BitVec.toNat_append, BitVec.toNat_ofNat, BitVec.toNat_ofNat,
    ← Nat.shiftLeft_add_eq_or_of_lt (Nat.mod_lt _ (by decide)), Nat.shiftLeft_eq]
  omega

/-- Word 1: the start count in its upper half, the settings and the start cause below it (R165). -/
theorem startWord_eq (c : Chip) : liveWord c 1 = bytes4 c.bus.startCause.code c.set.isOpen.toNat
    (c.bus.startCount.toNat % 256) (c.bus.startCount.toNat / 256) := by
  rw [bytes4, wordOf, bytes_append]
  rfl

/-- A record's tag stands in the two upper bytes of its word 0 (12.1). -/
theorem byteOf_tag (r : Record) : (byteOf r.w0 2).toNat = r.tag % 256 ∧ (byteOf r.w0 3).toNat = r.tag / 256 := by
  have hlt := r.w0.isLt
  simp only [byteOf, Record.tag, BitVec.extractLsb'_toNat, Nat.shiftRight_eq_div_pow, Nat.div_div_eq_div_mul,
    Nat.reduceMul, Nat.reducePow, true_and]
  omega

/-- A whole tension reference is shown as it is. -/
theorem tensionShown_whole {r : Ramp} {n : Nat} (h : r.value = (n, 1)) : tensionShown r = n := by
  simp [tensionShown, h, Nat.mod_one]

/-- Any other as one of the two whole numbers about it (log 15). -/
theorem tensionShown_about (r : Ramp) :
    tensionShown r = r.value.1 / r.value.2 ∨ tensionShown r = r.value.1 / r.value.2 + 1 := by
  unfold tensionShown
  dsimp only
  split
  · exact .inl rfl
  · split
    · exact .inr rfl
    · exact .inl rfl

/-- Settles O51: the reads by `live_answers`, and each word of 12.6 by what it shows. -/
theorem liveWindowAnswers : Obligations.LiveWindowAnswers := by
  refine ⟨live_answers, ?_, ?_⟩
  · intro c w bit ts est mst trip side stop cls mode index field range
    have hbit : Bool.toNat = bit := funext toNat_eq_ite
    have hindex : indexCode = index := funext fun i => by cases i <;> rfl
    have hfield (f : Choice → Word) : grantField c (f ·.choice) = field f := by
      cases h : c.gnt.active <;> simp [grantField, field, h]
    have hrange : BitVec.ofNat 16 c.gnt.variRange = range := by
      cases h : c.gnt.active <;> simp [GrantUnit.variRange, range, h]
    refine ⟨?state, ?start, rfl, ?fault, ?arms, ?reels, ?stage, rfl, ?grant, ?maxSpeed, ?accel, ?choice, ?trim, rfl, rfl,
      ?urgent, ?main, ?target, rfl, ?events, rfl, rfl⟩
    case state =>
      simp only [liveWord, Mailbox.codeShown]
      cases c.mbx.cmd <;> rfl
    case start =>
      rw [startWord_eq, hbit]
      rfl
    case fault | reels | stage | events =>
      simp only [liveWord, hbit]
      rfl
    case arms =>
      simp only [liveWord, hindex]
      rfl
    case grant =>
      simp only [liveWord, hbit]
      cases c.gnt.active <;> rfl
    case maxSpeed => exact hfield fun g => BitVec.ofNat 32 g.maxSpeed
    case accel => exact hfield fun g => BitVec.ofNat 32 g.accel
    case choice =>
      simp only [liveWord, hbit]
      exact hfield fun g => w g.profile g.codes.toNat (bit g.wind) 0
    case trim => exact congrArg (BitVec.ofInt 16 c.gnt.trim ++ ·) hrange
    case urgent =>
      simp only [liveWord]
      cases c.eng.cur with
      | none => rfl
      | some g => cases g.ring <;> rfl
    case main | target =>
      simp only [liveWord, segField]
      cases c.eng.cur <;> rfl
  · intro c w bit flag path last phase monitor loc
    have hbit : Bool.toNat = bit := funext toNat_eq_ite
    have hloc : (c.eng.cur.bind fun g => g.loc.map Loc.approach).getD 0 = loc Loc.approach := by
      cases hc : c.eng.cur with
      | none => simp [loc, hc]
      | some g => cases hl : g.loc <;> simp [loc, hc, hl]
    refine ⟨?status, fun x hx => ?latched, fun hx => ?live, rfl, rfl, fun n hn => ?whole, ?about, rfl, ?segment, ?located,
      ?approach⟩
    case status =>
      simp only [statusWord, hbit]
      rfl
    case latched => simp [liveWord, snapRead, hx]
    case live =>
      simp only [liveWord, snapRead, hx]
      exact ⟨rfl, rfl, rfl, rfl, rfl, rfl⟩
    case whole =>
      simp only [liveWord, tensionShown_whole hn]
      rfl
    case about => exact ⟨tensionShown c.sup.tension, rfl, tensionShown_about _⟩
    case segment =>
      simp only [liveWord, segField, byteOf_tag]
      cases c.eng.cur <;> rfl
    case located =>
      simp only [liveWord, segField]
      cases c.eng.cur with
      | none => rfl
      | some g => cases h : g.loc <;> simp [h, wordOfInt]
    case approach =>
      simp only [liveWord, hbit, hloc]
      cases c.eng.cur <;> rfl

end Sys2Proof.PassThrough

namespace Sys2Proof.MailAndSettings

open Sys2Proof Sys2Proof.Machine Sys2Proof.Laws

variable {c : Chip} {cmd : Cmd}

/-! ## The CRC-8 (R170) -/

/-- The register shifted once: left by one, with 0x07 exclusive-ored in where its top bit was 1. -/
def crcShift (r : Byte) : Byte := if r.getLsbD 7 then (r <<< 1) ^^^ 0x07 else r <<< 1

theorem crcByte_eq (reg b : Byte) : crcByte reg b = Nat.repeat crcShift 8 (reg ^^^ b) := rfl

theorem crc8_snoc (bs : List Byte) (b : Byte) : crc8 (bs ++ [b]) = crcByte (crc8 bs) b := by
  simp only [crc8, List.foldl_append, List.foldl_cons, List.foldl_nil]

theorem storePasses_iff (nv : List Byte) : storePasses nv = true ↔ crc8 (nv.take 511) = nv.getD 511 0 := beq_iff_eq

/-! ## The judgement of a finished fetch (R169) -/

/-- The bytes of a command's fetch, its data and then its check byte. -/
def fetched (c : Chip) : List Byte := c.mbx.got.flatMap wordBytes

/-- The check byte behind the data is not the CRC-8 of the data. -/
def CheckWrong (cmd : Cmd) (bytes : List Byte) : Prop :=
  cmd.check = true ∧ bytes.getD cmd.length 0 ≠ crc8 (bytes.take cmd.length)

theorem releaseCommand_mbx (c : Chip) : (releaseCommand c).mbx = c.mbx := by
  unfold releaseCommand
  split
  · split <;> rfl
  · rfl

theorem fetchJudged_aborted (hc : c.mbx.cmd = some cmd) (ha : c.mbx.aborted = true) :
    fetchJudged c = reply .refused detailMemory (releaseCommand c) := by
  simp only [fetchJudged, hc]
  exact if_pos (by rw [releaseCommand_mbx, ha])

theorem fetchJudged_wrong (hc : c.mbx.cmd = some cmd) (ha : c.mbx.aborted = false) (hw : CheckWrong cmd (fetched c)) :
    fetchJudged c = reply .badCheck detailNone (releaseCommand c) := by
  simp only [fetchJudged, hc]
  exact (if_neg (by simp [releaseCommand_mbx, ha])).trans (if_pos hw)

theorem fetchJudged_right (hc : c.mbx.cmd = some cmd) (ha : c.mbx.aborted = false) (hw : ¬ CheckWrong cmd (fetched c)) :
    fetchJudged c = onMbx (fun m => { m with st := .run, data := (fetched c).take cmd.length }) (releaseCommand c) := by
  simp only [fetchJudged, hc]
  exact (if_neg (by simp [releaseCommand_mbx, ha])).trans (if_neg hw)

/-- A command with no data passes its check where the byte at 0x0208 is 0 (R170). -/
theorem check_of_length_zero {w : Word} (hl : cmd.length = 0) (hg : c.mbx.got = [w]) (hw : byteOf w 0 = 0) :
    ¬ CheckWrong cmd (fetched c) := by
  have hbytes : fetched c = wordBytes w := by simp [fetched, hg]
  rintro ⟨-, hne⟩
  rw [hbytes, hl] at hne
  exact hne hw

/-- Settles O60: the register by its eight shifts, the examples by evaluation, the checks by what they compare. -/
theorem crcIsRule : Obligations.CrcIsRule := by
  unfold Obligations.CrcIsRule
  refine ⟨rfl, fun bs b => ?register, by decide, by decide, by decide +kernel, storePasses_iff,
    fun c cmd hc hk ha => ⟨fun hr => ?passes, fun hw => ?fails⟩, fun c cmd w hc hl hk hg ha hw => ?empty⟩
  case register => rw [crc8_snoc, crcByte_eq]; rfl
  case passes =>
    rw [fetchJudged_right hc ha fun hw => hw.2 hr]
    rfl
  case fails =>
    rw [fetchJudged_wrong hc ha ⟨hk, hw⟩, TapePath.reply_eq]
    simp only [Chip.replied, releaseCommand_mbx]
    rfl
  case empty =>
    rw [fetchJudged_right hc ha (check_of_length_zero hl hg hw)]
    rfl

end Sys2Proof.MailAndSettings

namespace Sys2Proof.MailAndSettings

open Sys2Proof Sys2Proof.Machine Sys2Proof.Laws Sys2Proof.TapePath Sys2Proof.Grants

/-! ## OPEN_SETTINGS and CLOSE_SETTINGS (R172) -/

theorem exec_openSettings {s : State} (h : inRun cmdOpenSettings s.chip = true) :
    exec .openSettings s = .next (s.ends (openSettingsStep s.chip)) := congrArg Host.Outcome.next (whenRun_ends h)

theorem exec_closeSettings {s : State} (h : inRun cmdCloseSettings s.chip = true) :
    exec .closeSettings s = .next (s.ends (closeSettingsStep s.chip)) := congrArg Host.Outcome.next (whenRun_ends h)

/-- An assertion outside the bypass closes the settings, and the arbiter leaves them closed (R16, R172). -/
theorem resetNAsserted_closes {s : State} (hm : s.chip.mode ≠ .bypass) :
    ∃ t, exec .resetNAsserted s = .next t ∧ t.chip.set.isOpen = false := by
  have hx : exec .resetNAsserted s = .next (s.withChip (arbitrate (assertedChip s.chip))) :=
    congrArg (fun d => Host.Outcome.next (s.withChip d)) (if_neg hm)
  refine ⟨_, hx, ?_⟩
  rw [arbitrate_eq]
  rfl

/-- Byte 1 of word 1 of the live window shows whether settings are open (12.6). -/
theorem startWord_isOpen (c : Chip) : byteOf (liveWord c 1) 1 = if c.set.isOpen then 1 else 0 := by
  obtain ⟨-, hbyte, -⟩ := Rings.byteOf_wordOf (BitVec.ofNat 8 c.bus.startCause.code)
    (BitVec.ofNat 8 c.set.isOpen.toNat) (BitVec.ofNat 8 (c.bus.startCount.toNat % 256)) (BitVec.ofNat 8 (c.bus.startCount.toNat / 256))
  rw [PassThrough.startWord_eq, bytes4, hbyte]
  cases c.set.isOpen <;> rfl

/-- Settles O58: the two commands by whether settings are open, and the resets by what they leave of the store. -/
theorem settingsOpenClose : Obligations.SettingsOpenClose := by
  unfold Obligations.SettingsOpenClose
  refine ⟨fun n => ⟨rfl, rfl⟩, fun s => ⟨fun h => ?opens, fun h => ?closes, fun p => ⟨_, rfl, rfl⟩,
    resetNAsserted_closes, startWord_isOpen s.chip⟩⟩
  case opens =>
    rw [exec_openSettings h, openSettingsStep, reply_eq]
    cases s.chip.set.isOpen <;> rfl
  case closes =>
    rw [exec_closeSettings h, closeSettingsStep, reply_eq]
    cases s.chip.set.isOpen <;> rfl

end Sys2Proof.MailAndSettings

namespace Sys2Proof.MailAndSettings

open Sys2Proof Sys2Proof.Machine Sys2Proof.Laws Sys2Proof.TapePath Sys2Proof.Rings Sys2Proof.Locating Sys2Proof.Grants

variable {c : Chip} {s : State} {data : Word} {be : Enables}

/-! ## A host write to the command word (R168, R169) -/

/-- The host's cycle that writes the command word. -/
def commandWrite (data : Word) (be : Enables) (c : Chip) : HostCyc := windowCycle commandOffset true data be c

/-- The part with that write at its host port, in a phase. -/
def commandAt (data : Word) (be : Enables) (ph : HostPhase) (c : Chip) : Chip :=
  { c with bus := { c.bus with host := some ⟨commandWrite data be c, ph⟩, done := .none } }

theorem exec_commandWrite (data : Word) (be : Enables) (s : State) :
    exec (.hostCycle (BitVec.ofNat 24 (windowAddr s.chip 0x200)) true data be) s =
      .next (s.ends (startCycle (commandWrite data be s.chip) s.chip)) := rfl

/-- Past its holds the write is decided by the mailbox. -/
theorem startCycle_command (hm : c.mode = .running) (hh : c.bus.host = none) (hd : heldCycle 0x200 true c = false) :
    startCycle (commandWrite data be c) c = writeCommand data be (commandAt data be .held c) :=
  startCycle_write (off := 0x200) (by decide) (by decide) (by decide) hm hh hd data be

/-- Under a hold it stays at the port as it came. -/
theorem startCycle_commandHeld (hm : c.mode = .running) (hh : c.bus.host = none) (hd : heldCycle 0x200 true c = true) :
    startCycle (commandWrite data be c) c = commandAt data be .held c := by
  rw [commandWrite, startCycle_arrived hh (hm.trans_ne (by decide)),
    classify_arrived_held (off := commandOffset) (by decide) (by decide) (by decide) hd]
  rfl

/-- The mailbox holds the write in FETCH, in REPLY and in RUN where no save or reload is busy (log 49). -/
theorem heldCycle_command (hm : c.mode = .running)
    (h : c.mbx.st = .fetch ∨ c.mbx.st = .reply ∨ (c.mbx.st = .run ∧ c.settingsBusy = false) ∨
      pendingWrite 0x200 c = true) :
    heldCycle 0x200 true c = true := by
  rcases h with h | h | ⟨h, hb⟩ | h
  · simp [heldCycle, mailHold, commandOffset, hm, h]
  · simp [heldCycle, mailHold, commandOffset, hm, h]
  · simp [heldCycle, mailHold, commandOffset, hm, h, hb]
  · exact heldCycle_pending hm h

/-- In RUN a write past its holds is a collision (R168). -/
theorem writeCommand_run (hm : c.mode = .running) (hr : c.mbx.st = .run) :
    writeCommand data be (commandAt data be .held c) =
      ({ c with bus := c.dropping } : Chip).posting [c.event .writeDropped 3 0 0x200] [.writeDropped] := by
  have hst : (commandAt data be .held c).mbx.st = .run := hr
  rw [writeCommand, hst]
  show dropWrite (postWriteDropped 3 0x200 0 (commandAt data be .held c)) = _
  rw [postWriteDropped_running (by exact hm)]
  rfl

/-- In IDLE it is taken. -/
theorem writeCommand_idle (hi : c.mbx.st = .idle) : writeCommand data be c = takeCommand data be c := by
  rw [writeCommand, hi]

/-! ### A command taken in IDLE -/

/-- The command a copy of the word spells (R167). -/
def commandOf (copy : Word) : Cmd := ⟨byteOf copy 0, (byteOf copy 1).getLsbD 0, (byteOf copy 2).toNat⟩

/-- The mailbox with a copy of the word. -/
def copied (copy : Word) (m : Mailbox) : Mailbox := { m with copy := copy }

/-- The mailbox with the command its copy spells, and nothing of it fetched. -/
def commanded (copy : Word) (m : Mailbox) : Mailbox :=
  { m with copy := copy, cmd := some (commandOf copy), data := [], got := [], aborted := false }

section Taken

variable {copy : Word} (hcopy : copy = merge be data c.mbx.copy)

include hcopy

theorem takeCommand_none (h0 : byteOf copy 0 = 0) :
    takeCommand data be c = release data be { c with mbx := copied copy c.mbx } := by
  subst hcopy
  exact if_pos h0

theorem takeCommand_unknown (h0 : byteOf copy 0 ≠ 0) (hk : 12 < (byteOf copy 0).toNat) : takeCommand data be c =
    reply .unknown detailNone (release data be { c with mbx := commanded copy c.mbx }) := by
  subst hcopy
  exact (if_neg h0).trans (if_pos hk)

variable (h0 : byteOf copy 0 ≠ 0) (hk : (byteOf copy 0).toNat ≤ 12)

include h0 hk

theorem takeCommand_badLength (hl : lengthOk (byteOf copy 0) (byteOf copy 2).toNat = false) : takeCommand data be c =
    reply .badLength detailNone (release data be { c with mbx := commanded copy c.mbx }) := by
  subst hcopy
  exact (if_neg h0).trans ((if_neg (by omega)).trans (if_pos (by rw [hl]; rfl)))

variable (hl : lengthOk (byteOf copy 0) (byteOf copy 2).toNat = true)

include hl

theorem takeCommand_run (hf : fetchOffsets (commandOf copy).length (commandOf copy).check = []) : takeCommand data be c =
    release data be { c with mbx := { commanded copy c.mbx with st := .run } } := by
  subst hcopy
  exact (if_neg h0).trans ((if_neg (by omega)).trans ((if_neg (by rw [hl]; decide)).trans
    (if_pos (List.isEmpty_iff.mpr hf))))

theorem takeCommand_fetch (hf : fetchOffsets (commandOf copy).length (commandOf copy).check ≠ []) : takeCommand data be c =
    hostPhase .fetching { c with mbx := { commanded copy c.mbx with
      st := .fetch, todo := fetchOffsets (commandOf copy).length (commandOf copy).check } } := by
  subst hcopy
  exact (if_neg h0).trans ((if_neg (by omega)).trans ((if_neg (by rw [hl]; decide)).trans
    (if_neg (mt List.isEmpty_iff.mp hf))))

end Taken

/-- The words of a command's fetch: every one that holds a byte of its data or its check (R169). -/
theorem fetchOffsets_eq (len : Nat) (check : Bool) : fetchOffsets len check =
    (List.range ((len + (if check then 1 else 0) + 3) / 4)).map fun k => 0x208 + 4 * k := by
  cases check <;> rfl

theorem fetchOffsets_nil (len : Nat) (check : Bool) :
    fetchOffsets len check = [] ↔ (len + (if check then 1 else 0) + 3) / 4 = 0 := by
  rw [fetchOffsets_eq, List.map_eq_nil_iff, List.range_eq_nil]

/-- A write that the mailbox takes in IDLE. -/
theorem exec_commandTaken (hm : s.chip.mode = .running) (hh : s.chip.bus.host = none) (hd : heldCycle 0x200 true s.chip = false)
    (hi : s.chip.mbx.st = .idle) : exec (.hostCycle (BitVec.ofNat 24 (windowAddr s.chip 0x200)) true data be) s =
      .next (s.ends (takeCommand data be (commandAt data be .held s.chip))) := by
  rw [exec_commandWrite, startCycle_command hm hh hd, writeCommand_idle (by exact hi)]

/-! ### What collides, and the lengths (10.2) -/

theorem settingsBusy_iff (c : Chip) : c.settingsBusy = true ↔ c.mbx.st = .run ∧ (∃ cmd, c.mbx.cmd = some cmd ∧
    (cmd.code = cmdSaveSettings ∨ cmd.code = cmdReloadSettings)) ∧ (c.set.saving = true ∨ c.set.reloading = true ∨
    (c.set.isOpen = true ∧ c.trk.reelsStopped = true ∧
      (c.sup.ts = .unthreaded ∨ c.sup.ts = .threaded ∨ c.sup.ts = .held ∨ c.sup.ts = .tripped))) := by
  have hcalm : c.admitsStore = true ↔ c.trk.reelsStopped = true ∧
      (c.sup.ts = .unthreaded ∨ c.sup.ts = .threaded ∨ c.sup.ts = .held ∨ c.sup.ts = .tripped) :=
    admitsStore_iff.trans and_comm
  rw [← hcalm]
  unfold Chip.settingsBusy
  split
  next cmd hst hcmd => simp [hst, hcmd, or_assoc]
  next hno =>
    refine iff_of_false (by decide) ?_
    rintro ⟨hst, ⟨cmd, hcmd, -⟩, -⟩
    exact hno cmd hst hcmd

theorem lengthOk_codes (n : Nat) : (lengthOk 1 n = true ↔ n = 1) ∧ (lengthOk 2 n = true ↔ n = 0) ∧
    (lengthOk 3 n = true ↔ n = 16 ∨ n = 32 ∨ n = 48 ∨ n = 64) ∧ (lengthOk 4 n = true ↔ n = 0) ∧
    (lengthOk 5 n = true ↔ n = 20) ∧ (lengthOk 6 n = true ↔ n = 1) ∧ (lengthOk 7 n = true ↔ n = 4) ∧
    ∀ c ∈ [8, 9, 10, 11, 12], (lengthOk (BitVec.ofNat 8 c) n = true ↔ n = 0) := by
  refine ⟨beq_iff_eq, beq_iff_eq, ?_, beq_iff_eq, beq_iff_eq, beq_iff_eq, beq_iff_eq, ?_⟩
  · show (n == 16 || n == 32 || n == 48 || n == 64) = true ↔ _
    simp [or_assoc]
  · simp only [List.forall_mem_cons, List.not_mem_nil, false_implies, implies_true, and_true]
    exact ⟨beq_iff_eq, beq_iff_eq, beq_iff_eq, beq_iff_eq, beq_iff_eq⟩

/-! ## A word of a command's fetch (R168, R169) -/

section Fetch

variable {a off : Nat} {todo : List Nat} {cmd : Cmd} {h : HostPort} {w : Word}

/-- The part with a word of a command's fetch in the mailbox, the words still to read, and whether one was given up. -/
def wordTaken (todo : List Nat) (w : Word) (aborted : Bool) (c : Chip) : Chip :=
  { c with mbx := { c.mbx with todo := todo, got := c.mbx.got ++ [w], aborted := aborted } }

/-- The part with the host's cycle released to the arbiter as it was made. -/
def hostReleased (h : HostPort) (c : Chip) : Chip :=
  { c with bus := { c.bus with host := some { h with phase := .ready h.cyc.data h.cyc.be } } }

theorem releaseCommand_fetching (hh : c.bus.host = some h) (hp : h.phase = .fetching) :
    releaseCommand c = hostReleased h c := by
  simp only [releaseCommand, hh]
  exact (if_pos hp).trans (hostPhase_host _ hh)

variable (ht : c.mbx.todo = off :: todo)

include ht

/-- The fetch goes on while a word remains, and is judged after the last. -/
theorem mailRead_eq (w : Word) (aborted : Bool) : mailRead w aborted c =
    if todo = [] then fetchJudged (wordTaken todo w (c.mbx.aborted || aborted) c)
    else wordTaken todo w (c.mbx.aborted || aborted) c := by
  simp only [mailRead, onMbx, ht, List.tail_cons, List.isEmpty_iff]
  rfl

variable (hc : c.mbx.cmd = some cmd) (hh : c.bus.host = some h) (hp : h.phase = .fetching) (hn : todo = [])

include hc hh hp hn

/-- A word of the fetch given up, this one or one before it: REFUSED, MEMORY. -/
theorem mailRead_lastAborted {aborted : Bool} (ha : (c.mbx.aborted || aborted) = true) : mailRead w aborted c =
    reply .refused detailMemory (hostReleased h (wordTaken todo w true c)) := by
  rw [mailRead_eq ht, if_pos hn, ha, fetchJudged_aborted (c := wordTaken todo w true c) hc rfl,
    releaseCommand_fetching (by exact hh) hp]

variable (ha : c.mbx.aborted = false)

include ha

theorem mailRead_lastWrong (hw : CheckWrong cmd (fetched (wordTaken todo w false c))) : mailRead w false c =
    reply .badCheck detailNone (hostReleased h (wordTaken todo w false c)) := by
  rw [mailRead_eq ht, if_pos hn, ha, Bool.or_false, fetchJudged_wrong (c := wordTaken todo w false c) hc rfl hw,
    releaseCommand_fetching (by exact hh) hp]

theorem mailRead_lastRight (hw : ¬ CheckWrong cmd (fetched (wordTaken todo w false c))) : mailRead w false c =
    onMbx (fun m => { m with st := .run, data := (fetched (wordTaken todo w false c)).take cmd.length })
      (hostReleased h (wordTaken todo w false c)) := by
  rw [mailRead_eq ht, if_pos hn, ha, Bool.or_false, fetchJudged_right (c := wordTaken todo w false c) hc rfl hw,
    releaseCommand_fetching (by exact hh) hp]

end Fetch

/-- The mode stands, and a host cycle at its port stays there. -/
def HostStays (c d : Chip) : Prop := d.mode = c.mode ∧ (c.bus.host ≠ none → d.bus.host ≠ none)

theorem releaseCommand_hostStays (c : Chip) : HostStays c (releaseCommand c) := by
  unfold releaseCommand
  split
  next p hp =>
    split
    · exact ⟨rfl, fun _ => by simp [release, hostPhase, onBus, hp]⟩
    · exact ⟨rfl, id⟩
  next => exact ⟨rfl, id⟩

theorem fetchJudged_hostStays (c : Chip) : HostStays c (fetchJudged c) := by
  unfold fetchJudged
  split
  · exact ⟨rfl, id⟩
  · dsimp only
    split
    · exact releaseCommand_hostStays c
    · split <;> exact releaseCommand_hostStays c

theorem mailRead_hostStays (w : Word) (aborted : Bool) (c : Chip) : HostStays c (mailRead w aborted c) := by
  unfold mailRead
  dsimp only
  split
  · exact fetchJudged_hostStays _
  · exact ⟨rfl, id⟩

/-- What the mailbox makes of a word follows the cycle's end in a running part whose host waits at its port. -/
theorem exec_mailRead {a : Nat} {h : HostPort} {d : Chip} (hp : s.chip.bus.port = some (.mailRead a))
    (hm : s.chip.mode = .running) (hh : s.chip.bus.host = some h)
    (hd : mailRead (s.mem.readWord (a / 4 * 4)) false (freePort s.chip) = d) :
    exec .memoryCycleDone s = .next (s.withChip (arbitrate d)) := by
  have hdone : completed (.mailRead a) s = d := hd
  obtain ⟨hmode, hhost⟩ := mailRead_hostStays (s.mem.readWord (a / 4 * 4)) false (freePort s.chip)
  rw [hd] at hmode hhost
  rw [exec_memoryCycleDone_alone hp (.inl (by rw [hdone, hmode]; exact hm.trans_ne (by decide)))
    (fun _ => by rw [hdone]; exact hhost (by simp [freePort, onBus, hh])), hdone]
  rfl

/-- The part as the memory response limit ends a word of a fetch (R160, R161). -/
def wordLost (a : Nat) (c : Chip) : Chip :=
  (freePort c).posting [c.event .memoryFault 4 0 (a / 4 * 4)] [.memoryFault]

/-- The same at the limit, once the abort is posted. -/
theorem exec_mailRead_aborted {a : Nat} {h : HostPort} {d : Chip} (hp : s.chip.bus.port = some (.mailRead a))
    (hm : s.chip.mode = .running) (hh : s.chip.bus.host = some h)
    (hd : mailRead 0xFFFFFFFF true (wordLost a s.chip) = d) :
    exec .memoryResponseLimit s = .next (s.withChip (arbitrate d)) := by
  have hdone : PassThrough.aborted (.mailRead a) s = d := by
    rw [← hd, wordLost, ← PassThrough.wordAddr_cast]
    exact congrArg (mailRead _ true) (PassThrough.postMemoryFault_running (c := freePort s.chip) hm _ _)
  obtain ⟨hmode, hhost⟩ := mailRead_hostStays 0xFFFFFFFF true (wordLost a s.chip)
  rw [hd] at hmode hhost
  exact PassThrough.exec_memoryResponseLimit_alone hp rfl hdone (.inl (by rw [hmode]; exact hm.trans_ne (by decide)))
    fun _ => hhost (by simp [wordLost, Chip.posting, freePort, onBus, hh])

/-! ## MAILBOX_REPLY (R171) -/

/-- The reply decided, with the executing block's writes passed and room in the queue. -/
theorem replyStep_posts {r : Reply} {cmd : Cmd} (hm : c.mode = .running) (hst : c.mbx.st = .reply)
    (hr : c.mbx.reply = some r) (hc : c.mbx.cmd = some cmd) (hb : blockPassed c = true) (hw : c.mbx.wait = [])
    (hq : c.bus.queue.length + 2 ≤ 12) : replyStep c =
      { queueing (replyWrites r cmd.code) c with mbx := .reset, ntc := c.ntc.post .mailboxDone } := by
  have hjoin : postWrites .mailbox (replyWrites r cmd.code) c = queueing (replyWrites r cmd.code) c :=
    postWrites_join _ (by exact hq) hw ((turnOf_mailbox c).mpr (.inl (hm.trans_ne (by decide))))
  have hidle : c.mbx.idled = .reset := by rw [Mailbox.idled, hw]; rfl
  simp only [replyStep, hst, hr, hc]
  rw [if_pos hb, hjoin, postNotice_running (by exact hm)]
  simp only [onMbx, queueing, hidle]

/-- Settles O53: a write by the mailbox's state, a word of the fetch by what remains and what was read, the reply by its
posts. -/
theorem commandWordJudged : Obligations.CommandWordJudged := by
  unfold Obligations.CommandWordJudged
  refine ⟨fun data be s hm hh => ?write, settingsBusy_iff, lengthOk_codes,
    fun a off todo cmd h s hm hp _ ht hc hh hf => ?read, fun r cmd s hm hst hr hc hb hw hq => ?reply⟩
  case write =>
    intro addr cyc port copy code len check m words ends ready
    have hcopy : copy = merge be data (commandAt data be .held s.chip).mbx.copy := rfl
    have htaken (hd : ready) (hi : s.chip.mbx.st = .idle) :
        cyc = .next (s.ends (takeCommand data be (commandAt data be .held s.chip))) := exec_commandTaken hm hh hd hi
    refine ⟨fun hd hi h0 => ?none, fun hd hi hk => ?unknown, fun hd hi h0 hk hl => ?badLength,
      fun hd hi h0 hk hl hw => ?run, fun hd hi h0 hk hl hw => ?fetch, fun hd hr => ?collision, fun hd => ?held⟩
    case none =>
      rw [htaken hd hi, takeCommand_none hcopy h0]
      rfl
    case unknown =>
      have h0 : code ≠ 0 := fun h => absurd hk (by rw [h]; decide)
      rw [htaken hd hi, takeCommand_unknown hcopy h0 hk]
      rfl
    case badLength =>
      rw [htaken hd hi, takeCommand_badLength hcopy h0 hk hl]
      rfl
    case run =>
      rw [htaken hd hi, takeCommand_run hcopy h0 hk hl ((fetchOffsets_nil len check).mpr hw)]
      rfl
    case fetch =>
      rw [htaken hd hi, takeCommand_fetch hcopy h0 hk hl (mt (fetchOffsets_nil len check).mp hw), fetchOffsets_eq]
      rfl
    case collision =>
      show exec _ s = _
      rw [exec_commandWrite, startCycle_command hm hh hd, writeCommand_run hm hr]
    case held =>
      show exec _ s = _
      rw [exec_commandWrite, startCycle_commandHeld hm hh (heldCycle_command hm hd)]
      rfl
  case read =>
    intro w bytes wrong read lost free released ends fault
    refine ⟨fun hn => ?goes, fun hn ha => ?wasAborted, fun hn ha hw => ?wrong, fun hn ha hw => ?right, fun hn => ?lostGoes,
      fun hn => ?lostLast⟩
    case goes =>
      have hread := (mailRead_eq (c := freePort s.chip) ht w false).trans (if_neg hn)
      rw [exec_mailRead hp hm hh hread, Bool.or_false]
      rfl
    case wasAborted =>
      have hread := mailRead_lastAborted (c := freePort s.chip) (w := w) (aborted := false) ht hc hh hf hn
        (by rw [Bool.or_false]; exact ha)
      rw [exec_mailRead hp hm hh hread]
      simp only [read, ha]
      rfl
    case wrong =>
      rw [exec_mailRead hp hm hh (mailRead_lastWrong (c := freePort s.chip) ht hc hh hf hn ha hw)]
      simp only [read, ha]
      rfl
    case right =>
      rw [exec_mailRead hp hm hh (mailRead_lastRight (c := freePort s.chip) ht hc hh hf hn ha hw)]
      simp only [read, ha]
      rfl
    case lostGoes =>
      have hread := (mailRead_eq (c := wordLost a s.chip) ht 0xFFFFFFFF true).trans (if_neg hn)
      rw [exec_mailRead_aborted hp hm hh hread, Bool.or_true]
      rfl
    case lostLast =>
      have hread := mailRead_lastAborted (c := wordLost a s.chip) (w := 0xFFFFFFFF) (aborted := true) ht hc hh hf hn
        (Bool.or_true _)
      rw [exec_mailRead_aborted hp hm hh hread]
      rfl
  case reply =>
    have hx : exec .mailboxReply s = .next (s.ends (replyStep s.chip)) := rfl
    rw [hx, replyStep_posts hm hst hr hc hb hw hq]
    rfl

end Sys2Proof.MailAndSettings

namespace Sys2Proof.MailAndSettings

open Sys2Proof Sys2Proof.Machine Sys2Proof.Laws

/-! ## A write of one field (R74, R174) -/

section Fields

variable {α : Type} {fs : List (Machine.Field α)} {p : Nat} {data : Word} {be : Enables}

/-- The value a write of the word at byte `p` gives the field of `n` bytes at `q`: the clamped value of its bytes, the
written ones new and the others as they were, where it enables one of them. -/
def putBytes (p : Nat) (data : Word) (be : Enables) (q n old : Nat) (clamp : Nat → Nat) : Nat :=
  if (List.range n).any (fun i => enablesByte p be (q + i)) then
    clamp (natOfBytes ((List.range n).map fun i =>
      if enablesByte p be (q + i) then byteOf data (q + i - p) else BitVec.ofNat 8 (old / 256 ^ i)))
  else old

/-- What a write does to a record at one of its fields. -/
def putField (p : Nat) (data : Word) (be : Enables) (f : Machine.Field α) (x : α) : α :=
  f.raw x (putBytes p data be f.pos f.size (f.get x) (f.clamp x))

/-- A field set to the value it has changes nothing. -/
def Faithful (fs : List (Machine.Field α)) : Prop := ∀ f ∈ fs, ∀ x, f.raw x (f.get x) = x

/-- A written word is taken field by field, each against the fields taken before it (R74). -/
theorem writeFields_put (h : Faithful fs) (x : α) :
    writeFields fs p data be x = (fs.map (putField p data be)).foldl (fun x f => f x) x := by
  induction fs generalizing x with
  | nil => rfl
  | cons f fs ih =>
    have hf : f.write p data be x = putField p data be f x := fieldWrite_eq f p data be x (h f List.mem_cons_self x)
    have hrec : writeFields (f :: fs) p data be x = writeFields fs p data be (f.write p data be x) := rfl
    rw [hrec, hf, ih fun g hg => h g (List.mem_cons_of_mem f hg)]
    rfl

/-- What each field's write keeps, a written word keeps. -/
theorem writeFields_keeps {P : α → Prop} (h : ∀ f ∈ fs, ∀ x v, P x → P (f.put x v)) {x : α} (hx : P x) :
    P (writeFields fs p data be x) := by
  induction fs generalizing x with
  | nil => exact hx
  | cons f fs ih =>
    have hf : P (f.write p data be x) := by
      unfold Machine.Field.write
      split
      · exact h f List.mem_cons_self x _ hx
      · exact hx
    exact ih (fun g hg => h g (List.mem_cons_of_mem f hg)) hf

end Fields

theorem generalFields_faithful : Faithful generalFields := by
  simp [Faithful, generalFields, ranged, unclamped]

theorem profileFields_faithful : Faithful profileFields := by
  simp [Faithful, profileFields, ranged, unclamped]

theorem clampNat_bounds {lo hi : Nat} (h : lo ≤ hi) (v : Nat) : lo ≤ clampNat lo hi v ∧ clampNat lo hi v ≤ hi := by
  simp only [clampNat]
  omega

theorem clampLevel_bounds {lo hi : Nat} (h : lo ≤ hi) (old v : Nat) :
    lo ≤ clampLevel lo hi old v ∧ clampLevel lo hi old v ≤ hi := by
  rw [clampLevel, if_pos h]
  exact clampNat_bounds h v

theorem clampLevel_zero (hi old v : Nat) : clampLevel 0 hi old v = min hi v := by
  rw [clampLevel, if_pos (Nat.zero_le hi), clampNat, Nat.zero_max]

/-! ### The general settings in their ranges (R174) -/

/-- The ranges of the general settings. -/
def GeneralRanges (x : General) : Prop :=
  100 ≤ x.settle ∧ x.settle ≤ 3000 ∧ x.offDelay ≤ 1500 ∧ 40 ≤ x.pinchTime ∧ x.pinchTime ≤ 400 ∧
    5 ≤ x.breakTime ∧ x.breakTime ≤ 100 ∧ 50 ≤ x.excursion ∧ x.excursion ≤ 2000 ∧ x.starve ≤ 2000 ∧
    (x.period = 0 ∨ x.period = 50 ∨ x.period = 150 ∨ x.period = 400 ∨ x.period = 1200) ∧ x.catchLimit ≤ 120000 ∧
    x.brakeSafe ≤ 10000

theorem clampPeriod_named (v : Nat) : clampPeriod v = 0 ∨ clampPeriod v = 50 ∨ clampPeriod v = 150 ∨
    clampPeriod v = 400 ∨ clampPeriod v = 1200 := by
  unfold clampPeriod
  split
  next h => exact h
  next => simp

theorem generalFields_keep : ∀ f ∈ generalFields, ∀ x v, GeneralRanges x → GeneralRanges (f.put x v) := by
  simp only [generalFields, ranged, unclamped, List.forall_mem_cons, List.not_mem_nil, false_implies, implies_true, and_true,
    Machine.Field.put, GeneralRanges, clampNat]
  refine ⟨?_, ?_, ?_, ?_, ?_, ?_, fun x v h => ?period, ?_, ?_, ?_, ?_⟩
  case period =>
    have hnamed := clampPeriod_named v
    omega
  all_goals
    intro x v h
    omega

/-! ### A profile in its ranges (R73, R74) -/

/-- The ranges of a profile, by what bounds what. -/
structure ProfileRanges (x : Profile) : Prop where
  tensions : x.width ≤ 3 ∧ x.park ≤ x.maxTension ∧ x.nominal ≤ x.maxTension ∧ x.wind ≤ x.maxTension ∧
    x.maxTension ≤ widthCeiling x.width
  levels : x.slack < x.low ∧ x.low < x.high ∧ x.high < x.overLevel ∧ x.overLevel ≤ 4095
  radii : 200 ≤ x.hub ∧ x.hub < x.full ∧ x.full ≤ 2000 ∧ x.hub + x.nearMargin ≤ x.full
  speeds : x.nearSpeed ≤ x.maxSpeed ∧ x.maxSpeed ≤ 120000
  lifter : x.lifterSpeed ≤ 120000
  accel : 100 ≤ x.maxAccel ∧ x.maxAccel ≤ 30000
  creep : 10 ≤ x.creepSpeed ∧ x.creepSpeed ≤ 10000 ∧ x.creepDistance ≤ 32000

theorem narrowest_fits {t : Nat} (h : t ≤ 800) : narrowest t ≤ 3 ∧ t ≤ widthCeiling (narrowest t) := by
  unfold narrowest
  split
  next h₀ => exact ⟨by decide, h₀⟩
  next =>
    split
    next h₁ => exact ⟨by decide, h₁⟩
    next =>
      split
      next h₂ => exact ⟨by decide, h₂⟩
      next => exact ⟨by decide, h⟩

theorem profileRanges_iff (x : Profile) : ProfileRanges x ↔ x.width ≤ 3 ∧ x.park ≤ x.maxTension ∧
    x.nominal ≤ x.maxTension ∧ x.wind ≤ x.maxTension ∧ x.maxTension ≤ widthCeiling x.width ∧ x.slack < x.low ∧ x.low < x.high ∧
    x.high < x.overLevel ∧ x.overLevel ≤ 4095 ∧ 200 ≤ x.hub ∧ x.hub < x.full ∧ x.full ≤ 2000 ∧ x.hub + x.nearMargin ≤ x.full ∧
    x.nearSpeed ≤ x.maxSpeed ∧ x.maxSpeed ≤ 120000 ∧ x.lifterSpeed ≤ 120000 ∧ 100 ≤ x.maxAccel ∧ x.maxAccel ≤ 30000 ∧
    10 ≤ x.creepSpeed ∧ x.creepSpeed ≤ 10000 ∧ x.creepDistance ≤ 32000 := by
  constructor
  · rintro ⟨ht, hv, hr, hs, hf, ha, hc⟩
    simp only [ht, hv, hr, hs, hf, ha, hc, and_self]
  · intro h
    simp only [h, ProfileRanges.mk, and_self]

/-- A width class takes the tension in force: its own ceiling, or the narrowest that does (R74). -/
theorem clampWidth_fits {x : Profile} (h : x.maxTension ≤ 800) (v : Nat) :
    clampWidth x v ≤ 3 ∧ x.maxTension ≤ widthCeiling (clampWidth x v) := by
  unfold clampWidth
  dsimp only
  split
  · exact narrowest_fits h
  · omega

theorem widthCeiling_le (w : Nat) : widthCeiling w ≤ 800 := by
  rw [widthCeiling_eq]
  split_ifs <;> omega

theorem profileFields_keep : ∀ f ∈ profileFields, ∀ x v, ProfileRanges x → ProfileRanges (f.put x v) := by
  simp only [profileFields, ranged, unclamped, List.forall_mem_cons, List.not_mem_nil, false_implies, implies_true, and_true,
    Machine.Field.put]
  refine ⟨fun x v h => ?label, fun x v h => ?valid, fun x v h => ?width, fun x v h => ?park, fun x v h => ?nominal,
    fun x v h => ?wind, fun x v h => ?maxTension, fun x v h => ?slack, fun x v h => ?low, fun x v h => ?high,
    fun x v h => ?overLevel, fun x v h => ?hub, fun x v h => ?full, fun x v h => ?nearMargin, fun x v h => ?nearSpeed,
    fun x v h => ?maxSpeed, fun x v h => ?lifterSpeed, fun x v h => ?maxAccel, fun x v h => ?creepSpeed,
    fun x v h => ?creepDistance⟩
  all_goals obtain ⟨ht, hv, hr, hs, hf, ha, hc⟩ := h
  case label | valid => exact ⟨ht, hv, hr, hs, hf, ha, hc⟩
  case width =>
    obtain ⟨-, hpark, hnominal, hwind, hmax⟩ := ht
    obtain ⟨hw, hfits⟩ := clampWidth_fits (hmax.trans (widthCeiling_le _)) v
    exact ⟨⟨hw, hpark, hnominal, hwind, hfits⟩, hv, hr, hs, hf, ha, hc⟩
  case park | nominal | wind =>
    refine ⟨?_, hv, hr, hs, hf, ha, hc⟩
    dsimp only
    omega
  case maxTension =>
    obtain ⟨hw, hpark, hnominal, hwind, hmax⟩ := ht
    have hb := clampNat_bounds (lo := max x.park (max x.nominal x.wind)) (hi := widthCeiling x.width) (by omega) v
    refine ⟨⟨hw, ?_, ?_, ?_, hb.2⟩, hv, hr, hs, hf, ha, hc⟩ <;> dsimp only <;> omega
  case slack =>
    have hb := clampLevel_bounds (Nat.zero_le (x.low - 1)) x.slack v
    refine ⟨ht, ?_, hr, hs, hf, ha, hc⟩
    dsimp only
    rw [if_neg (by omega)]
    omega
  case low =>
    have hb := clampLevel_bounds (lo := x.slack + 1) (hi := x.high - 1) (by omega) x.low v
    refine ⟨ht, ?_, hr, hs, hf, ha, hc⟩
    dsimp only
    omega
  case high =>
    have hb := clampLevel_bounds (lo := x.low + 1) (hi := x.overLevel - 1) (by omega) x.high v
    refine ⟨ht, ?_, hr, hs, hf, ha, hc⟩
    dsimp only
    omega
  case overLevel =>
    have hb := clampLevel_bounds (lo := x.high + 1) (hi := 4095) (by omega) x.overLevel v
    refine ⟨ht, ?_, hr, hs, hf, ha, hc⟩
    dsimp only
    omega
  case hub =>
    have hb := clampNat_bounds (lo := 200) (hi := min (x.full - 1) (x.full - x.nearMargin)) (by omega) v
    refine ⟨ht, hv, ?_, hs, hf, ha, hc⟩
    dsimp only
    omega
  case full =>
    have hb := clampNat_bounds (lo := max (x.hub + 1) (x.hub + x.nearMargin)) (hi := 2000) (by omega) v
    refine ⟨ht, hv, ?_, hs, hf, ha, hc⟩
    dsimp only
    omega
  case nearMargin =>
    refine ⟨ht, hv, ?_, hs, hf, ha, hc⟩
    dsimp only
    omega
  case nearSpeed =>
    refine ⟨ht, hv, hr, ?_, hf, ha, hc⟩
    dsimp only
    omega
  case maxSpeed => exact ⟨ht, hv, hr, clampNat_bounds (hs.1.trans hs.2) v, hf, ha, hc⟩
  case lifterSpeed => exact ⟨ht, hv, hr, hs, (clampNat_bounds (by decide) v).2, ha, hc⟩
  case maxAccel => exact ⟨ht, hv, hr, hs, hf, clampNat_bounds (by decide) v, hc⟩
  case creepSpeed =>
    obtain ⟨hlo, hhi⟩ := clampNat_bounds (lo := 10) (hi := 10000) (by decide) v
    exact ⟨ht, hv, hr, hs, hf, ha, hlo, hhi, hc.2.2⟩
  case creepDistance => exact ⟨ht, hv, hr, hs, hf, ha, hc.1, hc.2.1, (clampNat_bounds (by decide) v).2⟩

end Sys2Proof.MailAndSettings

namespace Sys2Proof.MailAndSettings

open Sys2Proof Sys2Proof.Machine Sys2Proof.Laws Sys2Proof.Grants Sys2Proof.Rings

variable {c : Chip} {p : Nat} {data : Word} {be : Enables}

/-! ## SETTINGS_IMAGE_WRITE (R173) -/

theorem entryOf_eq_some {n : Nat} (hn : n < 8) : entryOf p = some n ↔ 64 + 48 * n ≤ p ∧ p < 64 + 48 * (n + 1) := by
  unfold entryOf
  split <;> simp only [Option.some.injEq, reduceCtorEq, false_iff] <;> omega

/-- The states in which no setting is locked (R173). -/
def Still (ts : TState) : Prop := ts = .unthreaded ∨ ts = .threaded ∨ ts = .tripped

/-- The threaded profile's entry holds the byte. -/
def InThreaded (p : Nat) (c : Chip) : Prop :=
  ∃ i : Fin 8, c.sup.threaded = some i ∧ 64 + 48 * i.val ≤ p ∧ p < 64 + 48 * (i.val + 1)

theorem locksGeneral_iff (ts : TState) : ts.locksGeneral = true ↔ ¬ Still ts ∧ ts ≠ .held := by
  cases ts <;> simp [TState.locksGeneral, Still]

theorem opensThreaded_iff (ts : TState) : ts.opensThreaded = true ↔ Still ts := by
  cases ts <;> simp [TState.opensThreaded, Still]

theorem inThreaded_iff : (entryOf p ≠ none ∧ entryOf p = c.sup.threaded.map Fin.val) ↔ InThreaded p c := by
  constructor
  · rintro ⟨hsome, heq⟩
    cases ht : c.sup.threaded with
    | none => exact absurd (heq.trans (by rw [ht]; rfl)) hsome
    | some i => exact ⟨i, ht, (entryOf_eq_some i.isLt).mp (heq.trans (by rw [ht]; rfl))⟩
  · rintro ⟨i, ht, hp⟩
    have hentry : entryOf p = some i.val := (entryOf_eq_some i.isLt).mpr hp
    exact ⟨by simp [hentry], by rw [hentry, ht]; rfl⟩

/-- What is dropped, in the order of the checks, with its detail (R173). -/
theorem imageDrop_eq (p : Nat) (c : Chip) [Decidable (p < 64 ∧ ¬ Still c.sup.ts ∧ c.sup.ts ≠ .held)]
    [Decidable (InThreaded p c ∧ ¬ Still c.sup.ts)] : imageDrop p c =
    if c.set.isOpen = false then some 4 else if c.settingsBusy = true then some 5
    else if p < 64 ∧ ¬ Still c.sup.ts ∧ c.sup.ts ≠ .held then some 6
    else if InThreaded p c ∧ ¬ Still c.sup.ts then some 6 else none := by
  have hclosed : (!c.set.isOpen) = true ↔ c.set.isOpen = false := by simp
  have hlocked : (p < 64 ∧ c.sup.ts.locksGeneral = true) ↔ p < 64 ∧ ¬ Still c.sup.ts ∧ c.sup.ts ≠ .held := by
    rw [locksGeneral_iff]
  have hmine : (entryOf p ≠ none ∧ entryOf p = c.sup.threaded.map Fin.val ∧ (!c.sup.ts.opensThreaded) = true) ↔
      InThreaded p c ∧ ¬ Still c.sup.ts := by
    rw [← and_assoc, inThreaded_iff, Bool.not_eq_true', ← Bool.not_eq_true, opensThreaded_iff]
  exact if_congr hclosed rfl (if_congr Iff.rfl rfl (if_congr hlocked rfl (if_congr hmine rfl rfl)))

theorem windowWrite_image (hp : p < 512) (data : Word) (be : Enables) (c : Chip) :
    windowWrite (0x400 + p) data be c = writeImage p data be c := by
  have hslot : slotOf (0x400 + p) = none := by
    rw [slotOf, if_neg (by omega), if_neg (by omega)]
  have habove (n : Nat) (hn : n < 0x400) : 0x400 + p ≠ n := by omega
  simp only [windowWrite, hslot]
  rw [if_neg (habove _ (by decide)), if_neg (habove _ (by decide)), if_neg (habove _ (by decide)), if_neg (habove _ (by decide)),
    if_neg (habove _ (by decide)), if_neg (habove _ (by decide)), if_pos ⟨Nat.le_add_right _ _, by omega⟩, settingsOffset,
    Nat.add_sub_cancel_left]

theorem exec_settingsImageWrite (word : BitVec 7) (data : Word) (be : Enables) {s : State}
    (h : WriteReady (0x400 + 4 * word.toNat) s) : exec (.settingsImageWrite word data be) s =
      .next (s.ends (writeImage (4 * word.toNat) data be (written (0x400 + 4 * word.toNat) data be s.chip))) := by
  have hword := word.isLt
  rw [← windowWrite_image (by omega)]
  exact congrArg Host.Outcome.next (hostWriteStep_ready (by omega) (by omega) (by omega) h data be)

theorem writeImage_dropped {off detail : Nat} (hm : c.mode = .running) (hd : imageDrop p c = some detail) :
    writeImage p data be (written off data be c) =
      ({ c with bus := c.dropping } : Chip).posting [c.event .writeDropped detail 0 (0x400 + p : Nat)] [.writeDropped] := by
  have hd' : imageDrop p (written off data be c) = some detail := hd
  rw [writeImage, hd']
  dsimp only
  rw [postWriteDropped_running (by exact hm)]
  rfl

/-- The part's own writes do not look at the host port. -/
theorem postWrites_arrived (q : Poster) (ws : List PartWrite) (cy : HostCyc) (c : Chip) :
    postWrites q ws (arrived cy c) = arrived cy (postWrites q ws c) := by
  induction ws generalizing c with
  | nil => rfl
  | cons w ws ih =>
    have hone : postWrite q w (arrived cy c) = arrived cy (postWrite q w c) := by
      have hwaiting : waiting q (arrived cy c) = waiting q c := by cases q <;> rfl
      have hturn : turnOf q (arrived cy c) = turnOf q c := by cases q <;> rfl
      unfold postWrite
      rw [hwaiting, hturn]
      by_cases h : c.bus.queue.length < queueDepth ∧ (waiting q c).isEmpty ∧ turnOf q c
      · rw [if_pos h]
        exact if_pos h
      · rw [if_neg h]
        refine (if_neg h).trans ?_
        cases q <;> rfl
    have hcons (c : Chip) : postWrites q (w :: ws) c = postWrites q ws (postWrite q w c) := rfl
    rw [hcons, hcons, hone, ih]

/-- The settings with a word written, and the monitor as the write leaves it (R173, R184). -/
def settingsTaken (p : Nat) (data : Word) (be : Enables) (c : Chip) : Chip :=
  { c with
    set := c.set.takeWrite p data be
    mon := if enablesByte p be 12 || enablesByte p be 13 then ⟨.disarmed, 0⟩ else c.mon }

theorem takeImageWrite_eq (p : Nat) (data : Word) (be : Enables) (c : Chip) : takeImageWrite p data be c =
    postWrites .settings (c.set.otherWrites (c.set.takeWrite p data be) p) (settingsTaken p data be c) := by
  simp only [takeImageWrite, settingsTaken]
  split <;> rfl

/-- A taken write reaches memory as the settings then stand, all bytes enabled. -/
theorem writeImage_taken {off : Nat} (hd : imageDrop p c = none) :
    let d := takeImageWrite p data be c
    writeImage p data be (written off data be c) =
      { d with bus := d.passing off data be ((c.set.takeWrite p data be).imageWord p) 0xF } := by
  intro d
  have hd' : imageDrop p (written off data be c) = none := hd
  have htake : takeImageWrite p data be (written off data be c) = arrived (windowCycle off true data be c) d := by
    rw [takeImageWrite_eq, written]
    exact (postWrites_arrived _ _ _ _).trans (congrArg _ (takeImageWrite_eq p data be c).symm)
  obtain ⟨w, q, hposted⟩ := postWrites_settings (c.set.otherWrites (c.set.takeWrite p data be) p) (settingsTaken p data be c)
  have hdq : d = { settingsTaken p data be c with
      set := { (settingsTaken p data be c).set with wait := w }
      bus := { (settingsTaken p data be c).bus with queue := q } } := (takeImageWrite_eq p data be c).trans hposted
  rw [writeImage, hd']
  dsimp only
  rw [htake, hdq]
  rfl

/-- The bytes of the heartbeat period lie in word 3. -/
theorem enables_period (word : BitVec 7) (be : Enables) :
    (enablesByte (4 * word.toNat) be 12 || enablesByte (4 * word.toNat) be 13) = true ↔
      word = 3 ∧ (be.getLsbD 0 = true ∨ be.getLsbD 1 = true) := by
  by_cases hw : word = 3
  · subst hw
    simp [enablesByte]
  · have hne : word.toNat ≠ 3 := fun h => hw (BitVec.eq_of_toNat_eq h)
    have hout (q : Nat) (hq : q = 12 ∨ q = 13) : enablesByte (4 * word.toNat) be q = false := by
      rw [enablesByte, decide_eq_false (by omega), Bool.false_and]
    simp only [hout 12 (.inl rfl), hout 13 (.inr rfl), hw, false_and, Bool.or_self, Bool.false_eq_true]

/-! ### What a taken write does to the working settings (R74, R174, 12.4) -/

theorem takeWrite_general (s : Store) (h : p < 64) (data : Word) (be : Enables) :
    s.takeWrite p data be = { s with gen := writeFields generalFields p data be s.gen } := if_pos h

theorem takeWrite_entry (s : Store) {n : Nat} (hn : n < 8) (hlo : 64 + 48 * n ≤ p) (hhi : p < 64 + 48 * (n + 1)) (data : Word)
    (be : Enables) : s.takeWrite p data be = { s with
      profs := s.profs.set n (writeFields profileFields (p - (64 + 48 * n)) data be (s.profs.getD n Profile.default)) } := by
  rw [Store.takeWrite, if_neg (by omega), (entryOf_eq_some hn).mpr ⟨hlo, hhi⟩, ← Nat.sub_sub]
  rfl

theorem takeWrite_past (s : Store) (h : 448 ≤ p) (data : Word) (be : Enables) : s.takeWrite p data be = s := by
  have hnone : entryOf p = none := if_neg (by omega)
  rw [Store.takeWrite, if_neg (by omega), hnone]

/-- Settles O48: the write by the checks of R173, the ranges field by field, and the values by the fields' own clamps. -/
theorem settingsImageWriteTaken : Obligations.SettingsImageWriteTaken := by
  unfold Obligations.SettingsImageWriteTaken
  refine ⟨fun word data be s => ?write, fun g p data be => ?general, fun x p data be => ?profile, fun p data be => ?values,
    fun s p data be => ⟨fun h => takeWrite_general s h data be, fun n hn hlo hhi => takeWrite_entry s hn hlo hhi data be,
      fun h => takeWrite_past s h data be⟩⟩
  case write =>
    classical
    intro p off ts still mine dropped new c write hw
    have hdrop {detail : Nat} (hd : imageDrop p s.chip = some detail) : write = .next (dropped detail) := by
      show exec _ s = _
      rw [exec_settingsImageWrite word data be hw, writeImage_dropped hw.1 hd]
    rw [imageDrop_eq] at hdrop
    have hword : word.toNat < 16 ↔ p < 64 := by omega
    rw [hword]
    refine ⟨fun ho => hdrop ?_, fun ho hb => hdrop ?_, fun ho hb hg hs hh => hdrop ?_, fun ho hb hi hs => hdrop ?_,
      fun ho hb hg hi => ?taken⟩
    · rw [if_pos ho]
    · rw [if_neg (by simp [ho]), if_pos hb]
    · rw [if_neg (by simp [ho]), if_neg (by simp [hb]), if_pos ⟨hg, hs, hh⟩]
    · rw [if_neg (by simp [ho]), if_neg (by simp [hb]),
        if_pos (c := InThreaded p s.chip ∧ ¬ Still s.chip.sup.ts) ⟨hi, hs⟩, ite_self]
    case taken =>
      have htake : imageDrop p s.chip = none := by
        rw [imageDrop_eq, if_neg (by simp [ho]), if_neg (by simp [hb]), if_neg fun h => (hg h.1).elim h.2.1 h.2.2,
          if_neg fun h => hi.elim h.2 fun hno => hno h.1]
      have hmon : settingsTaken p data be s.chip = { s.chip with
          set := new, mon := if word = 3 ∧ (be.getLsbD 0 ∨ be.getLsbD 1) then ⟨.disarmed, 0⟩ else s.chip.mon } := by
        simp only [settingsTaken, p, enables_period]
        rfl
      have htaken : takeImageWrite p data be s.chip = c := by
        rw [takeImageWrite_eq, hmon]
      show exec _ s = _
      rw [exec_settingsImageWrite word data be hw, writeImage_taken htake, htaken]
  case general => exact fun h => writeFields_keeps (P := GeneralRanges) generalFields_keep h
  case profile =>
    intro ceiling ok
    have hok (y : Profile) : ok y ↔ ProfileRanges y := by
      have hceiling : ceiling y.width = widthCeiling y.width := (widthCeiling_eq y.width).symm
      simp only [ok, hceiling, profileRanges_iff]
    rw [hok, hok]
    exact writeFields_keeps profileFields_keep
  case values =>
    intro on byte put within between ceiling narrowest wide most
    refine ⟨fun g => ?_, fun x => ?_⟩
    · rw [writeFields_put generalFields_faithful]
      rfl
    · have hceiling : widthCeiling = ceiling := funext widthCeiling_eq
      have hwide : clampWidth = fun x => wide x.maxTension := by
        funext x v
        simp only [clampWidth, hceiling]
        rfl
      rw [writeFields_put profileFields_faithful]
      simp only [profileFields, hwide, clampLevel_zero, hceiling]
      rfl

end Sys2Proof.MailAndSettings

namespace Sys2Proof.EventRing

open Sys2Proof Sys2Proof.Machine Sys2Proof.Laws Sys2Proof.Rings Sys2Proof.Grants

variable {c : Chip} {s : State} {e : Event} {rest : List Event}

/-! ## An event taken by the writer (R180, R182) -/

/-- A record appended in a running part with room in the queue, by whether the ring was empty (R180, log 31). -/
theorem appendRecord_room (e : Event) (hm : c.mode = .running) (hw : c.evt.wait = []) (hq : c.bus.queue.length + 4 ≤ 12) :
    appendRecord e c = { c with
      evt := { c.evt with write := (c.evt.write + 1) % 128 }
      ntc := if c.evt.unread = 0 then c.ntc.post .eventsWaiting else c.ntc
      bus := { c.bus with queue := c.bus.queue ++ recordWrites c.evt.write e } } := by
  by_cases hu : c.evt.unread = 0
  · rw [appendRecord_first e hm hu hw hq, if_pos hu]
  · rw [if_neg hu]
    unfold appendRecord
    rw [postWrites_join (p := .eventWriter) (recordWrites c.evt.write e) hq hw rfl]
    exact if_neg hu

/-- An event taken with 127 records unread is dropped and counted; the first is reported (R182). -/
theorem takeEvent_full (e : Event) (hm : c.mode = .running) (hu : ¬ c.evt.unread < 127) : takeEvent e c = { c with
    evt := { c.evt with overrun := true, dropped := min (c.evt.dropped + 1) 0xFFFFFFFF }
    ntc := if c.evt.overrun then c.ntc else c.ntc.post .eventOverrun } := by
  refine (if_neg hu).trans ?_
  cases ho : c.evt.overrun with
  | true => rfl
  | false =>
    exact postNotice_running
      (c := onEvt (fun w => { w with overrun := true, dropped := capped 32 (w.dropped + 1) }) c) hm .eventOverrun

/-- EVENT_APPEND with the memory port taken: the writer's taking of the oldest event is all that happens. -/
theorem exec_eventAppend (hp : s.chip.evt.posted = e :: rest) (hport : s.chip.bus.port ≠ none)
    {d : Chip} (ht : takeEvent e { s.chip with evt := { s.chip.evt with posted := rest } } = d)
    (hbus : d.bus.port = s.chip.bus.port) : exec .eventAppend s = .next (s.withChip d) := by
  have hstep : appendStep s.chip = d := by
    rw [appendStep, hp]
    exact ht
  have hx : exec .eventAppend s = .next (s.withChip (arbitrate (appendStep s.chip))) := rfl
  rw [hx, hstep, arbitrate_busy (by rwa [hbus])]

/-! ## The end of an overrun (R182) -/

/-- The part with the consumed index set by a host write, which is released to memory with the value taken (R181). -/
def consuming (data : Word) (be : Enables) (c : Chip) : Chip :=
  { c with
    evt := { c.evt with consumed := c.evt.consumedAfter data be }
    bus := c.passing 0x110 data be (BitVec.ofNat 32 (c.evt.consumedAfter data be)) 0xF }

/-- EVENT_CONSUMED_WRITE sets the consumed index and then comes to the marker. -/
theorem exec_eventConsumedWrite_marks (data : Word) (be : Enables) (h : WriteReady 0x110 s) :
    exec (.eventConsumedWrite data be) s = .next (s.ends (overrunMarker (consuming data be s.chip))) := by
  rw [exec_eventConsumedWrite data be h]
  rfl

/-- The marker appended, with room in the ring and in the queue. -/
theorem overrunMarker_room (hm : c.mode = .running) (ho : c.evt.overrun = true) (hu : c.evt.unread < 127)
    (hw : c.evt.wait = []) (hq : c.bus.queue.length + 4 ≤ 12) : overrunMarker c = { c with
      evt := { c.evt with overrun := false, dropped := 0, write := (c.evt.write + 1) % 128 }
      ntc := if c.evt.unread = 0 then c.ntc.post .eventsWaiting else c.ntc
      bus := { c.bus with queue := c.bus.queue ++ recordWrites c.evt.write (c.event .overrun 0 0 c.evt.dropped) } } :=
  (if_pos ⟨ho, hu⟩).trans
    (appendRecord_room (c := onEvt (fun w => { w with overrun := false, dropped := 0 }) c) _ hm hw hq)

/-- With the ring still full there is no marker. -/
theorem overrunMarker_full (hu : ¬ c.evt.unread < 127) : overrunMarker c = c := if_neg fun h => hu h.2

/-- The four writes of the marker: kind OVERRUN with detail 0 and tag 0, and the dropped count as its value (12.2). -/
theorem recordWrites_marker (index : Nat) (c : Chip) : recordWrites index (c.event .overrun 0 0 c.evt.dropped) =
    [⟨0x4000 + 16 * index, 2, 0xF⟩, ⟨0x4000 + 16 * index + 4, c.clock, 0xF⟩,
      ⟨0x4000 + 16 * index + 8, wordOfInt c.trk.position, 0xF⟩,
      ⟨0x4000 + 16 * index + 12, wordOfInt c.evt.dropped, 0xF⟩] := by
  have hhead : halves (EventKind.overrun.code + 256 * (0 % 256)) 0 = 2 := by decide
  simp only [recordWrites, Chip.event, hhead]
  rfl

/-- Settles O46: the taking by whether the ring has room, and the consumed index by whether it leaves room. -/
theorem eventAppended : Obligations.EventAppended := by
  refine ⟨?_, ?_⟩
  · intro e rest s hm hp unread
    refine ⟨fun hu hw hq hport => ?append, fun hu hport => ?drop⟩
    case append => exact exec_eventAppend hp hport ((if_pos hu).trans (appendRecord_room e hm hw hq)) rfl
    case drop => exact exec_eventAppend hp hport (takeEvent_full e hm (Nat.not_lt.mpr hu.ge)) rfl
  · intro data be s hready ho old cand v unread off bus
    rw [exec_eventConsumedWrite_marks data be hready]
    refine ⟨fun hu hw hq => ?marker, fun hu => ?full⟩
    case marker =>
      rw [overrunMarker_room (c := consuming data be s.chip) hready.1 ho hu hw hq, recordWrites_marker]
      rfl
    case full =>
      rw [overrunMarker_full (c := consuming data be s.chip) (Nat.not_lt.mpr hu)]
      rfl

end Sys2Proof.EventRing

namespace Sys2Proof.CommandQueue

open Sys2Proof Sys2Proof.Machine

variable {s : State}

/-! ## A step, by whether a command waits (log 3) -/

/-- With a command at the front, a step is that command on the state with the front taken off. -/
theorem step_of_pending_cons {i : Instr} {rest : List Instr} (h : s.pending = i :: rest) :
    step s = exec i (s.popped rest) := by
  rw [step, h]

/-- With no command waiting, a step leaves the state as it stands. -/
theorem step_of_pending_nil (h : s.pending = []) : step s = .next s := by
  rw [step, h]

/-- Settles O1: the two cases of the queue, with `State.popped` written as the record it is. -/
theorem stepRunsFront : Obligations.StepRunsFront :=
  ⟨fun _ _ _ hfront => step_of_pending_cons hfront, fun _ hempty => step_of_pending_nil hempty⟩

end Sys2Proof.CommandQueue
